-- ==== Sys2Proof/Word.lean ====
section
/-! DEFINITION. The word types of the Plyndin 940 (spec 00 R1 to R3, 03 R53): bytes, lane elements, 64-bit words,
vector registers of 32 lanes, accumulator tiles. -/

namespace Sys2Proof

/-- One byte (R2). -/
abbrev Byte := BitVec 8

/-- One lane element of 32 bits (R53). -/
abbrev Elem := BitVec 32

/-- A 64-bit scalar register, pointer or address (R117, R218). -/
abbrev Word := BitVec 64

/-- A vector register: 32 lanes of 32 bits (R3, R117). -/
abbrev VReg := Vector Elem 32

/-- The 16 KiB image of an accumulator tile: 64 rows of 64 words of 32 bits, row `r` at bytes 256r to 256r+255 (R313). -/
abbrev Tile := Vector (Vector Elem 64) 64

/-- A table keyed by numbers: pairs with strictly rising keys. -/
abbrev Table (α : Type) := List (Nat × α)

/-- The number of lanes of a fibre (R3, R13). -/
abbrev lanes : Nat := 32

end Sys2Proof
end

