-- ==== Sys2Proof/Syntax.lean ====
section
/-! DEFINITION. The instructions and events of the Plyndin 940: one constructor of `Instr` per row of
spec/opcode_table.json. Operand shapes follow 06 R134 to R146, 07 R164 to R195, 08 R199 to R217, 10 R247 to R271,
12 R288, 14 R309 and R311, 15 R332 to R339. A constructor holds the fields its encoding carries and nothing else. -/

namespace Sys2Proof

/-! ## Fields -/

/-- The guard and hold bits of the header (R134); L and OP are fixed by the constructor. -/
structure Hdr where
  g : BitVec 3
  n : Bool
  h : Bool
  deriving DecidableEq, Repr

/-- An operand field: SA, SB, SC or SD (R141). -/
structure Opnd where
  k    : BitVec 5
  kind : BitVec 3
  cls  : Bool
  num  : BitVec 7
  deriving DecidableEq, Repr

/-- Integer types of SUB (R143). -/
inductive IntTy where
  | i8 | i16 | i32 | i64 | n8 | n16 | n32 | n64
  deriving DecidableEq, Repr

/-- Floating types of SUB in 0x50 to 0x6F (R143). -/
inductive FTy where
  | f32 | f64
  deriving DecidableEq, Repr

/-- Rounding modes (R64). -/
inductive Rnd where
  | rn | rz | ru | rd | sr
  deriving DecidableEq, Repr

/-- The 4-bit format codes (R144). -/
inductive Fmt where
  | f64 | f32 | f16 | bf16 | e4m3 | e5m2 | e2m1 | e5m3
  | i8 | i16 | i32 | i64 | n8 | n16 | n32 | n64
  deriving DecidableEq, Repr

/-- Conditions of `icmp` and `scmp` (R189). -/
inductive Cond where
  | eq | ne | lt | le | lo | ls | tst
  deriving DecidableEq, Repr

/-- Barrier levels (R175). -/
inductive BarLevel where
  | slot | gang | block | cluster | span | grid
  deriving DecidableEq, Repr

/-- Operations of `emset` (R169). -/
inductive EmOp where
  | set | and | andn | ld
  deriving DecidableEq, Repr

/-- Conditions of `bpr` (R170). -/
inductive BprCond where
  | any | all | none
  deriving DecidableEq, Repr

/-- Forms of `vote` (R193). -/
inductive VoteOp where
  | any | all | ballot | uni
  deriving DecidableEq, Repr

/-- Forms of `plop` (R190). -/
inductive PlopOp where
  | and | or | xor | andn | orn | not | mov
  deriving DecidableEq, Repr

/-- Conditions of `fcmp` (R201). -/
inductive FCond where
  | eq | lt | le | un
  deriving DecidableEq, Repr

/-- Cache hints (R145, R146). -/
inductive Hint where
  | none | keep | stream | nol1
  deriving DecidableEq, Repr

/-- Scopes of `fence` (R8, R145, R271). -/
inductive Scope where
  | quad | core | slice | stack | device
  deriving DecidableEq, Repr

/-- Operations of `atom` and `red` (R268). -/
inductive AtomOp where
  | add | smin | smax | umin | umax | and | or | xor
  deriving DecidableEq, Repr

/-- Operations of `atomf` and `redf` (R268). -/
inductive AtomfOp where
  | addF32 | addF64 | minF32 | maxF32 | minF64 | maxF64 | addN64
  deriving DecidableEq, Repr

/-- Operations of `atomcas` (R268). -/
inductive CasOp where
  | cas32 | cas64 | xchg32 | xchg64
  deriving DecidableEq, Repr

/-- Register counts of `ldblk` and `stblk` (R253). -/
inductive BlkCount where
  | x1 | x2 | x4 | x8
  deriving DecidableEq, Repr

/-! ## Operand shapes of 0x00 to 0x1F (R164) -/

/-- A bare header. -/
structure OpH where
  h : Hdr
  deriving DecidableEq, Repr
/-- A header and a 16-bit PC-relative target (R139). -/
structure OpBr12 where
  h : Hdr
  off : BitVec 16
  deriving DecidableEq, Repr
/-- A header and a 64-bit PC-relative target (R139). -/
structure OpBr16 where
  h : Hdr
  off : BitVec 64
  deriving DecidableEq, Repr
/-- One address or scalar source. -/
structure OpA where
  h : Hdr
  a : Opnd
  deriving DecidableEq, Repr
/-- Two sources. -/
structure OpAB where
  h : Hdr
  a : Opnd
  b : Opnd
  deriving DecidableEq, Repr
/-- `call`, 12 bytes. -/
structure OpCall12 where
  h : Hdr
  d : BitVec 5
  off : BitVec 16
  deriving DecidableEq, Repr
/-- `call`, 16 bytes. -/
structure OpCall16 where
  h : Hdr
  d : BitVec 5
  off : BitVec 64
  deriving DecidableEq, Repr
/-- A scalar destination and one source. -/
structure OpDA where
  h : Hdr
  d : BitVec 5
  a : Opnd
  deriving DecidableEq, Repr
/-- A scalar destination and two sources. -/
structure OpDAB where
  h : Hdr
  d : BitVec 5
  a : Opnd
  b : Opnd
  deriving DecidableEq, Repr
/-- A scalar destination alone. -/
structure OpD where
  h : Hdr
  d : BitVec 5
  deriving DecidableEq, Repr
/-- `fsw`. -/
structure OpFsw where
  h : Hdr
  t : BitVec 2
  deriving DecidableEq, Repr
/-- `bar`, `barv`, `barw`. -/
structure OpBar where
  h : Hdr
  lvl : BarLevel
  num : BitVec 4
  deriving DecidableEq, Repr
/-- `tkwait`, `tkpass`. -/
structure OpTk where
  h : Hdr
  t : BitVec 2
  deriving DecidableEq, Repr
/-- `regacq`: `n` is the request in units of 16; `d` is 0 in the blocking form (R171). -/
structure OpRegacq where
  h : Hdr
  nb : Bool
  d : BitVec 3
  n : BitVec 3
  deriving DecidableEq, Repr
/-- `win` (R172). -/
structure OpWin where
  h : Hdr
  base : BitVec 7
  len : BitVec 6
  partner : BitVec 2
  deriving DecidableEq, Repr
/-- `trap`. -/
structure OpTrap where
  h : Hdr
  sys : Bool
  code : BitVec 16
  deriving DecidableEq, Repr
/-- `deq`. -/
structure OpDeq where
  h : Hdr
  d : BitVec 7
  deriving DecidableEq, Repr
/-- `emset`. -/
structure OpEmset where
  h : Hdr
  op : EmOp
  a : Opnd
  deriving DecidableEq, Repr
/-- `bpr`, 12 bytes. -/
structure OpBpr12 where
  h : Hdr
  c : BprCond
  a : Opnd
  off : BitVec 16
  deriving DecidableEq, Repr
/-- `bpr`, 16 bytes. -/
structure OpBpr16 where
  h : Hdr
  c : BprCond
  a : Opnd
  off : BitVec 64
  deriving DecidableEq, Repr
/-- `icinv`: `none` for `.all` (SUB 1). -/
structure OpIcinv where
  h : Hdr
  line : Option Opnd
  deriving DecidableEq, Repr
/-- `srd`: DST holds a vector, a pair or a scalar by the number (R164). -/
structure OpSrd where
  h : Hdr
  d : BitVec 7
  num : BitVec 7
  deriving DecidableEq, Repr
/-- `swr`. -/
structure OpSwr where
  h : Hdr
  a : Opnd
  num : BitVec 7
  deriving DecidableEq, Repr

/-! ## Vector integer shapes (R184 to R194) -/

/-- Two-operand form, 8 bytes; also `perm` and `lidx` with `sat` false. -/
structure OpV8 where
  h : Hdr
  ty : IntTy
  sat : Bool
  wd : Bool
  d : BitVec 7
  a : Opnd
  b : Opnd
  deriving DecidableEq, Repr
/-- Two-operand form, 12 bytes: B is IMM16. -/
structure OpV12 where
  h : Hdr
  ty : IntTy
  sat : Bool
  wd : Bool
  d : BitVec 7
  a : Opnd
  imm : BitVec 16
  deriving DecidableEq, Repr
/-- One-operand form. -/
structure OpV1 where
  h : Hdr
  ty : IntTy
  sat : Bool
  wd : Bool
  d : BitVec 7
  a : Opnd
  deriving DecidableEq, Repr
/-- `imad`. -/
structure OpV3 where
  h : Hdr
  ty : IntTy
  sat : Bool
  wd : Bool
  d : BitVec 7
  a : Opnd
  b : Opnd
  c : Opnd
  deriving DecidableEq, Repr
/-- `lop3`. -/
structure OpLop3 where
  h : Hdr
  ty : IntTy
  wd : Bool
  d : BitVec 7
  a : Opnd
  b : Opnd
  c : Opnd
  t : BitVec 8
  deriving DecidableEq, Repr
/-- `bfext`. -/
structure OpBfext where
  h : Hdr
  ty : IntTy
  wd : Bool
  d : BitVec 7
  a : Opnd
  pos : BitVec 6
  len : BitVec 7
  deriving DecidableEq, Repr
/-- `bfins`. -/
structure OpBfins where
  h : Hdr
  ty : IntTy
  wd : Bool
  d : BitVec 7
  a : Opnd
  b : Opnd
  pos : BitVec 6
  len : BitVec 7
  deriving DecidableEq, Repr
/-- `sel`: `p` is a predicate source. -/
structure OpSel where
  h : Hdr
  ty : IntTy
  wd : Bool
  d : BitVec 7
  a : Opnd
  b : Opnd
  p : Opnd
  deriving DecidableEq, Repr
/-- `ascale`: `wide` is `n64`, otherwise `n32`. -/
structure OpAscale where
  h : Hdr
  wide : Bool
  wd : Bool
  d : BitVec 7
  a : Opnd
  b : Opnd
  c : Opnd
  s : BitVec 3
  deriving DecidableEq, Repr
/-- `rng`: `wide` is `n64`, otherwise `n32`. -/
structure OpRng where
  h : Hdr
  wide : Bool
  wd : Bool
  d : BitVec 7
  a : Opnd
  b : Opnd
  step : Bool
  deriving DecidableEq, Repr
/-- `movi`, 12 bytes. -/
structure OpMovi12 where
  h : Hdr
  ty : IntTy
  wd : Bool
  d : BitVec 7
  imm : BitVec 16
  deriving DecidableEq, Repr
/-- `movi`, 16 bytes. -/
structure OpMovi16 where
  h : Hdr
  ty : IntTy
  wd : Bool
  d : BitVec 7
  imm : BitVec 64
  deriving DecidableEq, Repr
/-- `icmp` and `scmp`, 8 bytes. -/
structure OpCmp8 where
  h : Hdr
  c : Cond
  d : BitVec 3
  a : Opnd
  b : Opnd
  deriving DecidableEq, Repr
/-- `icmp` and `scmp`, 12 bytes. -/
structure OpCmp12 where
  h : Hdr
  c : Cond
  d : BitVec 3
  a : Opnd
  imm : BitVec 16
  deriving DecidableEq, Repr
/-- `plop`: `b` is 0 for `.not` and `.mov`. -/
structure OpPlop where
  h : Hdr
  op : PlopOp
  d : BitVec 3
  a : Opnd
  b : Opnd
  deriving DecidableEq, Repr
/-- `vote`: `d` is a scalar for `.ballot`, otherwise a predicate. -/
structure OpVote where
  h : Hdr
  op : VoteOp
  d : BitVec 5
  a : Opnd
  deriving DecidableEq, Repr
/-- `vtos`. -/
structure OpVtos where
  h : Hdr
  ty : IntTy
  d : BitVec 5
  a : Opnd
  deriving DecidableEq, Repr

/-! ## Scalar shapes (R195) -/

/-- Two-operand scalar form, 8 bytes. -/
structure OpS8 where
  h : Hdr
  ty : IntTy
  sat : Bool
  d : BitVec 5
  a : Opnd
  b : Opnd
  deriving DecidableEq, Repr
/-- Two-operand scalar form, 12 bytes. -/
structure OpS12 where
  h : Hdr
  ty : IntTy
  sat : Bool
  d : BitVec 5
  a : Opnd
  imm : BitVec 16
  deriving DecidableEq, Repr
/-- `smov`, 12 bytes. -/
structure OpSmov12 where
  h : Hdr
  d : BitVec 5
  imm : BitVec 16
  deriving DecidableEq, Repr
/-- `smov`, 16 bytes. -/
structure OpSmov16 where
  h : Hdr
  d : BitVec 5
  imm : BitVec 64
  deriving DecidableEq, Repr

/-! ## Floating and conversion shapes (R196 to R217) -/

/-- Two-operand floating form; `rnd` is `rn` where the instruction does not round. -/
structure OpF2 where
  h : Hdr
  ty : FTy
  rnd : Rnd
  wd : Bool
  d : BitVec 7
  a : Opnd
  b : Opnd
  deriving DecidableEq, Repr
/-- Three-operand floating form. -/
structure OpF3 where
  h : Hdr
  ty : FTy
  rnd : Rnd
  wd : Bool
  d : BitVec 7
  a : Opnd
  b : Opnd
  c : Opnd
  deriving DecidableEq, Repr
/-- One-operand floating form. -/
structure OpF1 where
  h : Hdr
  ty : FTy
  rnd : Rnd
  wd : Bool
  d : BitVec 7
  a : Opnd
  deriving DecidableEq, Repr
/-- `fcmp`. -/
structure OpFcmp where
  h : Hdr
  c : FCond
  ty : FTy
  d : BitVec 3
  a : Opnd
  b : Opnd
  deriving DecidableEq, Repr
/-- `cvt` (R209). -/
structure OpCvt where
  h : Hdr
  rnd : Rnd
  nsat : Bool
  wd : Bool
  d : BitVec 7
  a : Opnd
  stream : BitVec 4
  sel : BitVec 3
  sfmt : Fmt
  dfmt : Fmt
  deriving DecidableEq, Repr
/-- `pack` (R212). -/
structure OpPack where
  h : Hdr
  rnd : Rnd
  nsat : Bool
  wd : Bool
  d : BitVec 7
  a : Opnd
  b : Opnd
  c : Opnd
  stream : BitVec 4
  pos : BitVec 2
  dfmt : Fmt
  deriving DecidableEq, Repr
/-- `unpack` (R214). -/
structure OpUnpack where
  h : Hdr
  wd : Bool
  d : BitVec 7
  a : Opnd
  pair : BitVec 3
  sfmt : Fmt
  deriving DecidableEq, Repr
/-- `scapply` (R215). -/
structure OpScapply where
  h : Hdr
  wd : Bool
  d : BitVec 7
  a : Opnd
  b : Opnd
  sel : BitVec 3
  sfmt : Fmt
  deriving DecidableEq, Repr
/-- `bpext` (R217); `dir` true is plane form to byte form. -/
structure OpBpext where
  h : Hdr
  wd : Bool
  d : BitVec 7
  a : Opnd
  k : BitVec 4
  dir : Bool
  deriving DecidableEq, Repr
/-- `pk2` (R213); `bf` is `bf16`, otherwise `f16`. -/
structure OpPk2 where
  h : Hdr
  bf : Bool
  rnd : Rnd
  nsat : Bool
  wd : Bool
  d : BitVec 7
  a : Opnd
  b : Opnd
  deriving DecidableEq, Repr
/-- `upk2` (R214). -/
structure OpUpk2 where
  h : Hdr
  bf : Bool
  wd : Bool
  d : BitVec 7
  a : Opnd
  deriving DecidableEq, Repr
/-- `scfind` (R216). -/
structure OpScfind where
  h : Hdr
  wd : Bool
  d : BitVec 7
  a : Opnd
  out : Bool
  dfmt : Fmt
  deriving DecidableEq, Repr

/-! ## Memory shapes (R247 to R267) -/

/-- Vector load, 8 bytes. -/
structure OpLd8 where
  h : Hdr
  ty : IntTy
  hint : Hint
  wd : Bool
  d : BitVec 7
  a : Opnd
  deriving DecidableEq, Repr
/-- Vector load, 12 bytes: index field and IMM16. -/
structure OpLd12 where
  h : Hdr
  ty : IntTy
  hint : Hint
  wd : Bool
  d : BitVec 7
  a : Opnd
  c : Opnd
  disp : BitVec 16
  deriving DecidableEq, Repr
/-- Vector load, 16 bytes: index field and DISP. -/
structure OpLd16 where
  h : Hdr
  ty : IntTy
  hint : Hint
  wd : Bool
  d : BitVec 7
  a : Opnd
  c : Opnd
  disp : BitVec 48
  deriving DecidableEq, Repr
/-- `ldblk`, 8 bytes. -/
structure OpLdblk8 where
  h : Hdr
  cnt : BlkCount
  hint : Hint
  wd : Bool
  d : BitVec 7
  a : Opnd
  deriving DecidableEq, Repr
/-- `ldblk`, 12 bytes. -/
structure OpLdblk12 where
  h : Hdr
  cnt : BlkCount
  hint : Hint
  wd : Bool
  d : BitVec 7
  a : Opnd
  disp : BitVec 16
  deriving DecidableEq, Repr
/-- `ldblk`, 16 bytes. -/
structure OpLdblk16 where
  h : Hdr
  cnt : BlkCount
  hint : Hint
  wd : Bool
  d : BitVec 7
  a : Opnd
  disp : BitVec 48
  deriving DecidableEq, Repr
/-- `ldsc`, 8 bytes. -/
structure OpLdsc8 where
  h : Hdr
  ty : IntTy
  hint : Hint
  d : BitVec 5
  a : Opnd
  deriving DecidableEq, Repr
/-- `ldsc`, 12 bytes. -/
structure OpLdsc12 where
  h : Hdr
  ty : IntTy
  hint : Hint
  d : BitVec 5
  a : Opnd
  disp : BitVec 16
  deriving DecidableEq, Repr
/-- `ldsc`, 16 bytes. -/
structure OpLdsc16 where
  h : Hdr
  ty : IntTy
  hint : Hint
  d : BitVec 5
  a : Opnd
  disp : BitVec 48
  deriving DecidableEq, Repr
/-- Vector store, 8 bytes; also `stsc`. -/
structure OpSt8 where
  h : Hdr
  ty : IntTy
  hint : Hint
  a : Opnd
  b : Opnd
  deriving DecidableEq, Repr
/-- Vector store, 12 bytes. -/
structure OpSt12 where
  h : Hdr
  ty : IntTy
  hint : Hint
  a : Opnd
  b : Opnd
  c : Opnd
  disp : BitVec 16
  deriving DecidableEq, Repr
/-- Vector store, 16 bytes. -/
structure OpSt16 where
  h : Hdr
  ty : IntTy
  hint : Hint
  a : Opnd
  b : Opnd
  c : Opnd
  disp : BitVec 48
  deriving DecidableEq, Repr
/-- `stblk`, 8 bytes. -/
structure OpStblk8 where
  h : Hdr
  cnt : BlkCount
  hint : Hint
  a : Opnd
  b : Opnd
  deriving DecidableEq, Repr
/-- `stblk`, 12 bytes. -/
structure OpStblk12 where
  h : Hdr
  cnt : BlkCount
  hint : Hint
  a : Opnd
  b : Opnd
  disp : BitVec 16
  deriving DecidableEq, Repr
/-- `stblk`, 16 bytes. -/
structure OpStblk16 where
  h : Hdr
  cnt : BlkCount
  hint : Hint
  a : Opnd
  b : Opnd
  disp : BitVec 48
  deriving DecidableEq, Repr
/-- `stsc`, 12 bytes. -/
structure OpStsc12 where
  h : Hdr
  ty : IntTy
  hint : Hint
  a : Opnd
  b : Opnd
  disp : BitVec 16
  deriving DecidableEq, Repr
/-- `stsc`, 16 bytes. -/
structure OpStsc16 where
  h : Hdr
  ty : IntTy
  hint : Hint
  a : Opnd
  b : Opnd
  disp : BitVec 48
  deriving DecidableEq, Repr
/-- `ldacc` (R255); `wide` is the FP64 image. -/
structure OpLdacc where
  h : Hdr
  wide : Bool
  hint : Hint
  d : BitVec 4
  a : Opnd
  b : Opnd
  disp : BitVec 16
  deriving DecidableEq, Repr
/-- `stacc` (R255). -/
structure OpStacc where
  h : Hdr
  wide : Bool
  hint : Hint
  a : Opnd
  b : Opnd
  tile : BitVec 4
  deriving DecidableEq, Repr
/-- `copy` (R256). -/
structure OpCopy where
  h : Hdr
  hint : Hint
  a : Opnd
  b : Opnd
  c : Opnd
  sd : Opnd
  follow : Bool
  evt : Bool
  bar : Bool
  barnum : BitVec 4
  gather : Bool
  expand : Bool
  tag : BitVec 16
  deriving DecidableEq, Repr
/-- `flush` and `inval`, 12 bytes: line count. -/
structure OpLines12 where
  h : Hdr
  a : Opnd
  n : BitVec 16
  deriving DecidableEq, Repr
/-- `pref`, 8 bytes. -/
structure OpPref8 where
  h : Hdr
  home : Bool
  hint : Hint
  a : Opnd
  deriving DecidableEq, Repr
/-- `pref`, 12 bytes. -/
structure OpPref12 where
  h : Hdr
  home : Bool
  hint : Hint
  a : Opnd
  disp : BitVec 16
  deriving DecidableEq, Repr
/-- `fence` (R271). -/
structure OpFence where
  h : Hdr
  scope : Scope
  deriving DecidableEq, Repr

/-! ## Atomic shapes (R268, R269) -/

/-- `atom` or `atomf`, 8 bytes. -/
structure OpAtom8 (ω : Type) where
  h : Hdr
  op : ω
  hint : Hint
  wd : Bool
  d : BitVec 7
  a : Opnd
  b : Opnd
  deriving DecidableEq, Repr
/-- `atom`, `atomf` or `atomcas`, 12 bytes: `c` is the index, or the compare value of `atomcas`. -/
structure OpAtom12 (ω : Type) where
  h : Hdr
  op : ω
  hint : Hint
  wd : Bool
  d : BitVec 7
  a : Opnd
  b : Opnd
  c : Opnd
  disp : BitVec 16
  deriving DecidableEq, Repr
/-- The same, 16 bytes. -/
structure OpAtom16 (ω : Type) where
  h : Hdr
  op : ω
  hint : Hint
  wd : Bool
  d : BitVec 7
  a : Opnd
  b : Opnd
  c : Opnd
  disp : BitVec 48
  deriving DecidableEq, Repr
/-- `red` or `redf`, 8 bytes. -/
structure OpRed8 (ω : Type) where
  h : Hdr
  op : ω
  hint : Hint
  a : Opnd
  b : Opnd
  deriving DecidableEq, Repr
/-- `red` or `redf`, 12 bytes. -/
structure OpRed12 (ω : Type) where
  h : Hdr
  op : ω
  hint : Hint
  a : Opnd
  b : Opnd
  c : Opnd
  disp : BitVec 16
  deriving DecidableEq, Repr
/-- `red` or `redf`, 16 bytes. -/
structure OpRed16 (ω : Type) where
  h : Hdr
  op : ω
  hint : Hint
  a : Opnd
  b : Opnd
  c : Opnd
  disp : BitVec 48
  deriving DecidableEq, Repr

/-! ## Matrix, codec, packed-line and emulation shapes -/

/-- `mma` (R332, R333). -/
structure OpMma where
  h : Hdr
  d : BitVec 4
  a : Opnd
  b : Opnd
  c : Opnd
  afmt : Fmt
  bfmt : Fmt
  cz : Bool
  ctile : BitVec 4
  deriving DecidableEq, Repr
/-- `mmac` (R332, R333). -/
structure OpMmac where
  h : Hdr
  d : BitVec 4
  a : Opnd
  b : Opnd
  cz : Bool
  ctile : BitVec 4
  deriving DecidableEq, Repr
/-- `mmap` (R332, R333). -/
structure OpMmap where
  h : Hdr
  d : BitVec 4
  a : Opnd
  b : Opnd
  c : Opnd
  planes : BitVec 4
  cz : Bool
  ctile : BitVec 4
  deriving DecidableEq, Repr
/-- `mmas` (R332, R333): `sd` is the scale register. -/
structure OpMmas where
  h : Hdr
  d : BitVec 4
  a : Opnd
  b : Opnd
  c : Opnd
  sd : Opnd
  afmt : Fmt
  bfmt : Fmt
  cz : Bool
  ctile : BitVec 4
  deriving DecidableEq, Repr
/-- `acz`. -/
structure OpAcz where
  h : Hdr
  d : BitVec 4
  deriving DecidableEq, Repr
/-- `acscl`. -/
structure OpAcscl where
  h : Hdr
  wide : Bool
  d : BitVec 4
  a : Opnd
  c : BitVec 4
  deriving DecidableEq, Repr
/-- `accvt`: `narrow` is SUB 1, FP64 to FP32. -/
structure OpAccvt where
  h : Hdr
  narrow : Bool
  d : BitVec 4
  c : BitVec 4
  deriving DecidableEq, Repr
/-- `acrd` (R339). -/
structure OpAcrd where
  h : Hdr
  wide : Bool
  d : BitVec 7
  half : Bool
  row : BitVec 6
  tile : BitVec 4
  deriving DecidableEq, Repr
/-- `acwr` (R339). -/
structure OpAcwr where
  h : Hdr
  wide : Bool
  d : BitVec 4
  a : Opnd
  half : Bool
  row : BitVec 6
  deriving DecidableEq, Repr
/-- `frcdec` (R288). -/
structure OpFrcdec where
  h : Hdr
  ty : FTy
  d : BitVec 7
  a : Opnd
  dim : BitVec 2
  rate : BitVec 7
  deriving DecidableEq, Repr
/-- `frcenc` (R288): `ref` says that SB names a reference. -/
structure OpFrcenc where
  h : Hdr
  ty : FTy
  d : BitVec 7
  a : Opnd
  b : Opnd
  ref : Bool
  dim : BitVec 2
  rate : BitVec 7
  deriving DecidableEq, Repr
/-- `frchdr` (R288). -/
structure OpFrchdr where
  h : Hdr
  d : BitVec 7
  a : Opnd
  b : Opnd
  deriving DecidableEq, Repr
/-- `expload` (R311). -/
structure OpExpload where
  h : Hdr
  a : Opnd
  id : BitVec 16
  deriving DecidableEq, Repr
/-- `xop`, 8 bytes (R159): `op` is the low three bits of the opcode. -/
structure OpXop8 where
  h : Hdr
  op : BitVec 3
  sub : BitVec 3
  md : BitVec 7
  d : BitVec 7
  a : Opnd
  b : Opnd
  deriving DecidableEq, Repr
/-- `xop`, 12 bytes. -/
structure OpXop12 where
  h : Hdr
  op : BitVec 3
  sub : BitVec 3
  md : BitVec 7
  d : BitVec 7
  a : Opnd
  b : Opnd
  c : Opnd
  imm : BitVec 16
  deriving DecidableEq, Repr
/-- `xop`, 16 bytes. -/
structure OpXop16 where
  h : Hdr
  op : BitVec 3
  sub : BitVec 3
  md : BitVec 7
  d : BitVec 7
  a : Opnd
  b : Opnd
  imm : BitVec 64
  deriving DecidableEq, Repr

/-! ## What the events name -/

/-- The place of a resident fibre: device core index and hardware fibre position (R14). -/
structure FibreId where
  core : Nat
  pos  : Nat
  deriving DecidableEq, Repr

/-- Agents that can fail and rejoin separately (R424). -/
inductive AgentKind where
  | core | slice | copyEngine | controller | link | dieHalf | device
  deriving DecidableEq, Repr

/-- Where an uncorrectable error is met (R402). -/
inductive ErrSite where
  /-- A line in a core's L1: it is refetched from the home. -/
  | l1Line (core pa : Nat)
  /-- A clean home line: it is read again from its stack. -/
  | cleanLine (pa : Nat)
  /-- A dirty home line: no retry is possible. -/
  | dirtyLine (pa : Nat)
  /-- A read of a stack. -/
  | stackRead (pa : Nat)
  /-- A flit on the fabric or a Spemer link. -/
  | flit (link : Nat)
  /-- A page-table read. -/
  | pageTable (pa : Nat)
  /-- A vector register of a fibre. -/
  | vreg (f : FibreId) (n : Nat)
  /-- A scalar register of a fibre. -/
  | sreg (f : FibreId) (n : Nat)
  /-- A predicate register of a fibre. -/
  | preg (f : FibreId) (n : Nat)
  /-- An element of a tile of a fibre's block: its 32-bit word, row by row. -/
  | tile (f : FibreId) (t word : Nat)
  deriving DecidableEq, Repr

/-- A host access to memory (R238, R240): a read of `n` bytes, or a write of bytes. -/
inductive HostAcc where
  | read (pa : Nat) (n : Nat)
  | write (pa : Nat) (bytes : List Byte)
  deriving DecidableEq, Repr

/-- A snapshot of a link or queue (R422): send permits at the sender, slots taken at the receiver, permits on their way back,
flits on their way. -/
structure Permits where
  sender    : Nat
  receiver  : Nat
  returning : Nat
  forward   : Nat
  deriving DecidableEq, Repr

/-- The sum of the four counts. -/
def Permits.sum (c : Permits) : Nat := c.sender + c.receiver + c.returning + c.forward

/-- A request from another device over a Spemer port (R241, R359). -/
inductive RemoteOp where
  /-- A copy reads bytes here. -/
  | copyRead (pa : Nat) (n : Nat)
  /-- A copy writes shadow bytes here, with their poison (R403); `copy` tells the remote copies apart. -/
  | copyWrite (copy : Nat) (pa : Nat) (bytes : List (Byte × Bool))
  /-- A load of a Sealed page in state SEALED makes a counted copy in the device (R235). -/
  | sealedLoad (pa : Nat) (n : Nat)
  /-- A `red` to a Commutative element from a core of the device (R236). -/
  | commRed (core : Nat) (pa : Nat) (op : BitVec 3) (fmt : Fmt) (v : BitVec 64)
  /-- A load of a Commutative element. -/
  | commLoad (pa : Nat) (op : BitVec 3) (fmt : Fmt)
  /-- A `publish` of one 64 KiB page (R264). -/
  | publish (page : Nat)
  /-- The device drops `n` of its counted copies of a Sealed page (R235). -/
  | dropSealed (page : Nat) (n : Nat)
  deriving DecidableEq, Repr

/-- A request as it arrives: the device that sends it, the incarnation number it carries (R424), and what it asks. -/
structure RemoteReq where
  dev    : Nat
  incarn : Nat
  op     : RemoteOp
  deriving DecidableEq, Repr

/-- A recall of a page by its owner, with the owner's incarnation number (R235, R424). -/
structure RecallMsg where
  incarn : Nat
  page   : Nat
  deriving DecidableEq, Repr

/-- LOSTPERMIT reported by the device at the other end of a Spemer link, with the incarnation number of the link (R423, R424). -/
structure PeerReport where
  incarn : Nat
  link   : Nat
  deriving DecidableEq, Repr

/-- A function of the device as the host addresses a partition's registers: VF `vf` of partition `part`, or the physical function
(R440). -/
structure HostFn where
  vf   : Option Nat
  part : Nat
  deriving DecidableEq, Repr

/-- Plain partition and device registers that have no behaviour of their own (R437). -/
inductive RegName where
  | vfslice (v : BitVec 3) | asidbase | tlbinv0 | pktdir | systrap | savehdlr | resthdlr
  | stopring | preemptcfg | savepool | ccasid | evringint (r : BitVec 8)
  deriving DecidableEq, Repr

/-! ## The instructions and events -/

/-- One constructor per row of the opcode table, in the table's order: 216 instruction forms, then 71 events. -/
inductive Instr where
  | nop8 (x : OpH) | nop12 (x : OpH)
  | bra12 (x : OpBr12) | bra16 (x : OpBr16) | brx (x : OpA)
  | call12 (x : OpCall12) | call16 (x : OpCall16) | callx (x : OpDA) | ret (x : OpA)
  | exit (x : OpH) | yield (x : OpH) | fsw (x : OpFsw)
  | bar (x : OpBar) | barv (x : OpBar) | barw (x : OpBar)
  | tkwait (x : OpTk) | tkpass (x : OpTk)
  | regacq (x : OpRegacq) | regrel (x : OpH) | win (x : OpWin) | wline (x : OpAB)
  | launch (x : OpDA) | qend (x : OpH) | trap (x : OpTrap) | rett (x : OpH)
  | enq (x : OpDA) | deq (x : OpDeq)
  | emset (x : OpEmset) | emget (x : OpD) | bpr12 (x : OpBpr12) | bpr16 (x : OpBpr16)
  | icinv (x : OpIcinv) | srd (x : OpSrd) | swr (x : OpSwr)
  | iadd8 (x : OpV8) | iadd12 (x : OpV12) | isub8 (x : OpV8) | isub12 (x : OpV12)
  | imul8 (x : OpV8) | imul12 (x : OpV12) | imulhi8 (x : OpV8) | imulhi12 (x : OpV12)
  | imin8 (x : OpV8) | imin12 (x : OpV12) | imax8 (x : OpV8) | imax12 (x : OpV12)
  | shl8 (x : OpV8) | shl12 (x : OpV12) | shr8 (x : OpV8) | shr12 (x : OpV12)
  | rot8 (x : OpV8) | rot12 (x : OpV12) | and8 (x : OpV8) | and12 (x : OpV12)
  | or8 (x : OpV8) | or12 (x : OpV12) | xor8 (x : OpV8) | xor12 (x : OpV12)
  | icmp8 (x : OpCmp8) | icmp12 (x : OpCmp12)
  | iabs (x : OpV1) | vnot (x : OpV1) | popc (x : OpV1) | clz (x : OpV1) | brev (x : OpV1) | mov (x : OpV1)
  | lidx (x : OpV8) | plop (x : OpPlop) | imad (x : OpV3) | lop3 (x : OpLop3)
  | bfext (x : OpBfext) | bfins (x : OpBfins) | sel (x : OpSel) | ascale (x : OpAscale) | rng (x : OpRng)
  | movi12 (x : OpMovi12) | movi16 (x : OpMovi16)
  | vote (x : OpVote) | perm (x : OpV8) | vtos (x : OpVtos)
  | sadd8 (x : OpS8) | sadd12 (x : OpS12) | ssub8 (x : OpS8) | ssub12 (x : OpS12)
  | smul8 (x : OpS8) | smul12 (x : OpS12) | sshl8 (x : OpS8) | sshl12 (x : OpS12)
  | sshr8 (x : OpS8) | sshr12 (x : OpS12) | sand8 (x : OpS8) | sand12 (x : OpS12)
  | sor8 (x : OpS8) | sor12 (x : OpS12) | sxor8 (x : OpS8) | sxor12 (x : OpS12)
  | scmp8 (x : OpCmp8) | scmp12 (x : OpCmp12)
  | smin8 (x : OpS8) | smin12 (x : OpS12) | smax8 (x : OpS8) | smax12 (x : OpS12)
  | smov8 (x : OpDA) | smov12 (x : OpSmov12) | smov16 (x : OpSmov16)
  | fadd (x : OpF2) | fsub (x : OpF2) | fmul (x : OpF2) | ffma (x : OpF3) | ffms (x : OpF3) | fnfma (x : OpF3)
  | fmin (x : OpF2) | fmax (x : OpF2) | fabs (x : OpF1) | fneg (x : OpF1) | fcmp (x : OpFcmp) | fclass (x : OpF1)
  | fscale (x : OpF2) | fcpsgn (x : OpF2) | frint (x : OpF1)
  | frcp (x : OpF1) | frsqrt (x : OpF1) | fsqrt (x : OpF1) | fexp2 (x : OpF1) | flog2 (x : OpF1)
  | fsin (x : OpF1) | fcos (x : OpF1) | fsum (x : OpF1) | flmax (x : OpF1) | flmin (x : OpF1)
  | cvt (x : OpCvt) | pack (x : OpPack) | unpack (x : OpUnpack) | scapply (x : OpScapply) | bpext (x : OpBpext)
  | pk2 (x : OpPk2) | upk2 (x : OpUpk2) | scfind (x : OpScfind)
  | ld8 (x : OpLd8) | ld12 (x : OpLd12) | ld16 (x : OpLd16)
  | lds8 (x : OpLd8) | lds12 (x : OpLd12) | lds16 (x : OpLd16)
  | ldr8 (x : OpLd8) | ldr12 (x : OpLd12) | ldr16 (x : OpLd16)
  | ldc8 (x : OpLd8) | ldc12 (x : OpLd12) | ldc16 (x : OpLd16)
  | ldblk8 (x : OpLdblk8) | ldblk12 (x : OpLdblk12) | ldblk16 (x : OpLdblk16)
  | ldsc8 (x : OpLdsc8) | ldsc12 (x : OpLdsc12) | ldsc16 (x : OpLdsc16)
  | st8 (x : OpSt8) | st12 (x : OpSt12) | st16 (x : OpSt16)
  | sts8 (x : OpSt8) | sts12 (x : OpSt12) | sts16 (x : OpSt16)
  | str8 (x : OpSt8) | str12 (x : OpSt12) | str16 (x : OpSt16)
  | stblk8 (x : OpStblk8) | stblk12 (x : OpStblk12) | stblk16 (x : OpStblk16)
  | stsc8 (x : OpSt8) | stsc12 (x : OpStsc12) | stsc16 (x : OpStsc16)
  | ldacc (x : OpLdacc) | stacc (x : OpStacc) | copy (x : OpCopy) | publish (x : OpAB)
  | vseal (x : OpA) | vunseal (x : OpA) | flush8 (x : OpA) | flush12 (x : OpLines12)
  | inval8 (x : OpA) | inval12 (x : OpLines12) | pref8 (x : OpPref8) | pref12 (x : OpPref12)
  | atom8 (x : OpAtom8 AtomOp) | atom12 (x : OpAtom12 AtomOp) | atom16 (x : OpAtom16 AtomOp)
  | atomf8 (x : OpAtom8 AtomfOp) | atomf12 (x : OpAtom12 AtomfOp) | atomf16 (x : OpAtom16 AtomfOp)
  | atomcas12 (x : OpAtom12 CasOp) | atomcas16 (x : OpAtom16 CasOp)
  | red8 (x : OpRed8 AtomOp) | red12 (x : OpRed12 AtomOp) | red16 (x : OpRed16 AtomOp)
  | redf8 (x : OpRed8 AtomfOp) | redf12 (x : OpRed12 AtomfOp) | redf16 (x : OpRed16 AtomfOp)
  | fence (x : OpFence)
  | mma (x : OpMma) | mmac (x : OpMmac) | mmap (x : OpMmap) | mmas (x : OpMmas)
  | acz (x : OpAcz) | acscl (x : OpAcscl) | accvt (x : OpAccvt) | acrd (x : OpAcrd) | acwr (x : OpAcwr)
  | frcdec (x : OpFrcdec) | frcenc (x : OpFrcenc) | frchdr (x : OpFrchdr)
  | expload (x : OpExpload) | pkstatLine (x : OpDA) | pkstatBind (x : OpDAB)
  | xop8 (x : OpXop8) | xop12 (x : OpXop12) | xop16 (x : OpXop16)
  -- Events: fibres
  | variableLatencyWrite (f : FibreId) (seq : Nat)
  | slotHandover (core slot : Nat)
  | trapEntry (f : FibreId)
  | accessPerformed (f : FibreId)
  | rollback (f : FibreId)
  | escalateLevel1 (f : FibreId) | escalateLevel2 (f : FibreId) | escalateLevel3 (f : FibreId)
  | registerDeadlock (core quad : Nat)
  | acquireStalled (f : FibreId)
  | quantumLimit (f : FibreId)
  | quantumCommit (launchId : Word)
  | hruUpdateApply (slice : Nat)
  -- Events: engines
  | copyLanding (core id : Nat) | copyTranslationFault (core id : Nat) | copyAbandon (core id : Nat)
  | expanderTableRead (core id : Nat)
  | matrixCommandFinish (core id : Nat)
  | softError (core id chunk : Nat)
  -- Events: launches and placement
  | launchEligibilityCheck (launchId : Word)
  | placeBlock (part : Nat)
  | timeSliceExpiry (part : Nat)
  | coreReservation (launchId : Word)
  | blockWithdrawal (launchId : Word) (stage : Nat)
  | ringTimeInterrupt (part ring : Nat)
  | launchRetryTimeout (part : Nat)
  -- Events: memory system
  | pageWalk (core asid vpage : Nat)
  | directoryEviction (pa : Nat)
  | sealedDrainComplete (page : Nat)
  | codedBlockEviction (pa : Nat)
  | metadataError (pa : Nat) (retryFails : Bool)
  | uncorrectableError (site : ErrSite) (retryFails : Bool)
  -- Events: checking and failure
  | vigilCheck (die : Nat) (first second : List (Nat × Permits))
  | agentFailure (kind : AgentKind) (num : Nat)
  | agentRejoin (kind : AgentKind) (num : Nat)
  -- Events: pre-emption
  | placerPreemptRequest (launchId : Word)
  | drainTimeout (launchId : Word) (stage block : Nat)
  | saveStoppingPoint (launchId : Word) (stage block : Nat)
  -- Events: host and registers
  | hostMailboxAccess (acc : HostAcc)
  | hostHdmHAccess (acc : HostAcc)
  | lqcfgWrite (part : Nat) (q : BitVec 10) (v : Word)
  | tlbinvPage (part asid : Nat) | tlbinvAsid (part asid : Nat) | tlbinvPartition (part : Nat)
  | tlbInvalidationComplete (part : Nat)
  | ctxctlHalt (part asid : Nat) | ctxctlClear (part asid : Nat)
  | preemptreqCore (part target : Nat) | preemptreqAsid (part target : Nat) | preemptreqVf (part target : Nat)
  | partcfgWrite (v : Word) | devidWrite (v : Word)
  | attestRequest (v : Word) | attestReportComplete
  | repairSleep | deviceWake
  | repairTakeOut (half : BitVec 3) | repairReturn (half : BitVec 3) | repairLoadFirmware (half : BitVec 3) (image : BitVec 48)
  | evringcfgWrite (fn : HostFn) (ring : BitVec 8) (v : Word)
  | evconsWrite (fn : HostFn) (ring : BitVec 8) (v : BitVec 32)
  | errorCounterWrite (part : Nat) (last : Bool) (v : Word)
  | registerWrite (fn : HostFn) (r : RegName) (v : Word)
  | powerOnReset
  -- Events: evictions, other devices, links
  | l1Eviction (core pa : Nat)
  | homeWriteBack (pa : Nat)
  | remoteDeviceAccess (m : RemoteReq)
  | remoteSealedRecall (m : RecallMsg)
  | peerLostpermit (m : PeerReport)
  | linkReturnToService (link : Nat)
  | correctableError (part : Nat)
  deriving DecidableEq, Repr

end Sys2Proof
end

