-- ==== Sys2Proof/WellFormed.lean ====
section
/-! DEFINITION. Which instruction terms stand for an instruction word (06 R140, R143, R146, R155): the conditions the
manual puts on fields beyond the enumerations that the types of Syntax.lean already carry, one predicate for each
REASON of R156 that a decoder gives (SUB, MOD, FIELD, SPECIAL). Events are no words and are well formed. -/

namespace Sys2Proof

/-- A type whose values are read as unsigned (R184). -/
def IntTy.unsigned : IntTy → Bool
  | .n8 | .n16 | .n32 | .n64 => true
  | _ => false

/-- The width `w` of an integer type in bits (R184). -/
def IntTy.width : IntTy → Nat
  | .i8 | .n8 => 8
  | .i16 | .n16 => 16
  | .i32 | .n32 => 32
  | .i64 | .n64 => 64

/-- The integer formats of R144. -/
def Fmt.isInt : Fmt → Bool
  | .i8 | .i16 | .i32 | .i64 | .n8 | .n16 | .n32 | .n64 => true
  | _ => false

/-- Elements of a 32-bit lane in a format, 1 for the formats that fill a lane or a pair (R53, R209). -/
def Fmt.perLane : Fmt → Nat
  | .f16 | .bf16 => 2
  | .e4m3 | .e5m2 | .e5m3 => 4
  | .e2m1 => 8
  | _ => 1

/-- The narrow floating formats that `pack` and `unpack` accept (R212, R214). -/
def Fmt.narrow : Fmt → Bool
  | .f16 | .bf16 | .e4m3 | .e5m2 | .e2m1 | .e5m3 => true
  | _ => false

/-- The element formats that carry a scale: `scapply`, `scfind`, `mmas` (R215, R216, R334). -/
def Fmt.scaled : Fmt → Bool
  | .e4m3 | .e5m2 | .e2m1 => true
  | _ => false

/-- The destinations for which R67 allows `.sr` whatever the source. -/
def Fmt.stochastic : Fmt → Bool
  | .f16 | .bf16 | .e4m3 | .e5m2 | .e2m1 => true
  | _ => false

/-- The format pairs of `mma` (R334). -/
def mmaPair : Fmt → Fmt → Bool
  | .e4m3, .e4m3 | .e4m3, .e5m2 | .e5m2, .e4m3 | .e5m2, .e5m2 => true
  | .e2m1, .e2m1 | .bf16, .bf16 | .f16, .f16 | .f32, .f32 | .f64, .f64 => true
  | _, _ => false

/-- The rates of a coded array by element type and dimensionality (R274). -/
def codedRate (ty : FTy) (dim rate : Nat) : Bool :=
  let base := if dim = 1 then [4, 8, 16, 32] else [1, 2, 4, 8, 16, 32]
  let full := if ty = .f64 then base ++ [64] else base
  (dim == 1 || dim == 2 || dim == 3) && full.contains rate

/-- Special registers that `srd` reads (R119, R378, R379). -/
def srdNumber (n : BitVec 7) : Bool :=
  n.toNat ≤ 0x0A || (0x10 ≤ n.toNat && n.toNat ≤ 0x19) || (0x20 ≤ n.toNat && n.toNat ≤ 0x28)

/-- Special registers that `swr` writes: `%xflags`, `%xen`, `%escthr` (R119, R378). -/
def swrNumber (n : BitVec 7) : Bool := n.toNat == 0x18 || n.toNat == 0x19 || n.toNat == 0x20

/-- SUB values that an instruction refuses although the type table lists them (R187). -/
def Instr.subOk : Instr → Bool
  | .iabs x => !x.ty.unsigned
  | _ => true

/-- ISAT is zero where the description provides no saturating form (R146, R186 to R195). -/
def OpV8.noSat (x : OpV8) : Bool := !x.sat
/-- The same for the 12-byte form. -/
def OpV12.noSat (x : OpV12) : Bool := !x.sat
/-- The same for the one-operand form. -/
def OpV1.noSat (x : OpV1) : Bool := !x.sat
/-- The same for scalar forms. -/
def OpS8.noSat (x : OpS8) : Bool := !x.sat
/-- The same for scalar forms, 12 bytes. -/
def OpS12.noSat (x : OpS12) : Bool := !x.sat

/-- A rounding mode of an instruction that does not convert: not `.sr` (R67). -/
def Rnd.plain (r : Rnd) : Bool := r != .sr

/-- The MOD conditions of R146 beyond the reserved bits. -/
def Instr.modOk : Instr → Bool
  | .regacq x => x.n != 0 && x.n != 7
  | .imulhi8 x | .imin8 x | .imax8 x | .shl8 x | .shr8 x | .rot8 x | .and8 x | .or8 x | .xor8 x
  | .lidx x | .perm x => x.noSat
  | .imulhi12 x | .imin12 x | .imax12 x | .shl12 x | .shr12 x | .rot12 x | .and12 x | .or12 x | .xor12 x => x.noSat
  | .vnot x | .popc x | .clz x | .brev x | .mov x => x.noSat
  | .sshl8 x | .sshr8 x | .sand8 x | .sor8 x | .sxor8 x | .smin8 x | .smax8 x => x.noSat
  | .sshl12 x | .sshr12 x | .sand12 x | .sor12 x | .sxor12 x | .smin12 x | .smax12 x => x.noSat
  | .fadd x | .fsub x | .fmul x | .fscale x => x.rnd.plain
  | .ffma x | .ffms x | .fnfma x => x.rnd.plain
  | .fmin x | .fmax x | .fcpsgn x => x.rnd == .rn
  | .frint x | .frcp x | .fsqrt x | .fsum x => x.rnd.plain
  | .fabs x | .fneg x | .fclass x | .frsqrt x | .fexp2 x | .flog2 x | .fsin x | .fcos x | .flmax x | .flmin x =>
    x.rnd == .rn
  | .cvt x =>
    (x.rnd.plain || x.dfmt.stochastic || (x.dfmt == .f32 && x.sfmt == .f64)) && (!x.nsat || x.dfmt.narrow)
  | .pack x => x.rnd.plain || x.dfmt.stochastic
  | .pk2 x => x.rnd.plain
  | _ => true

/-- The position and length of a bit field (R188). -/
def bitField (ty : IntTy) (pos : BitVec 6) (len : BitVec 7) : Bool :=
  1 ≤ len.toNat && pos.toNat + len.toNat ≤ ty.width

/-- The FIELD conditions of R140 and of the instructions' descriptions, beyond unused fields. -/
def Instr.fieldOk : Instr → Bool
  | .regacq x => x.nb || x.d == 0
  | .win x => x.len.toNat ≤ 32
  | .srd x => x.num == 0 || x.d.toNat < 32
  | .plop x => (x.op != .not && x.op != .mov) || x.b == ⟨0, 0, false, 0⟩
  | .vote x => x.op == .ballot || x.d.toNat < 8
  | .bfext x => bitField x.ty x.pos x.len
  | .bfins x => bitField x.ty x.pos x.len
  | .cvt x =>
    x.sfmt != x.dfmt && !(x.sfmt.isInt && x.dfmt.isInt) && x.sel.toNat < x.sfmt.perLane && (x.rnd == .sr || x.stream == 0)
  | .pack x => x.dfmt.narrow && 2 * x.pos.toNat < x.dfmt.perLane && (x.rnd == .sr || x.stream == 0)
  | .unpack x => x.sfmt.narrow && 2 * x.pair.toNat < x.sfmt.perLane
  | .scapply x => x.sfmt.scaled && x.sel.toNat < x.sfmt.perLane
  | .bpext x => if x.dir then 2 ≤ x.k.toNat && x.k.toNat ≤ 8 else x.k == 0
  | .scfind x => x.dfmt.scaled
  | .copy x => (x.bar || x.barnum == 0) && (x.evt || x.tag == 0) && (x.gather || x.sd == ⟨0, 0, false, 0⟩)
  | .flush12 x => x.n != 0
  | .inval12 x => x.n != 0
  | .atomcas12 x => x.op == .cas32 || x.op == .cas64 || x.c == ⟨0, 0, false, 0⟩
  | .atomcas16 x => x.op == .cas32 || x.op == .cas64 || x.c == ⟨0, 0, false, 0⟩
  | .mma x => mmaPair x.afmt x.bfmt && (!x.cz || x.ctile == 0) && (x.afmt != .f64 || x.c == ⟨0, 0, false, 0⟩)
  | .mmac x => !x.cz || x.ctile == 0
  | .mmap x => 2 ≤ x.planes.toNat && x.planes.toNat ≤ 8 && (!x.cz || x.ctile == 0)
  | .mmas x => mmaPair x.afmt x.bfmt && x.afmt.scaled && (!x.cz || x.ctile == 0)
  | .acrd x => !x.wide || (x.row.toNat < 32 && !x.half)
  | .acwr x => !x.wide || (x.row.toNat < 32 && !x.half)
  | .frcdec x => codedRate x.ty x.dim.toNat x.rate.toNat
  | .frcenc x => codedRate x.ty x.dim.toNat x.rate.toNat && (x.ref || x.b == ⟨0, 0, false, 0⟩)
  | .expload x => x.id != 0
  | _ => true

/-- The SPECIAL condition (R119, R183). -/
def Instr.specialOk : Instr → Bool
  | .srd x => srdNumber x.num
  | .swr x => swrNumber x.num
  | _ => true

/-- An instruction that its word stands for. -/
def Instr.wf (i : Instr) : Bool := i.subOk && i.modOk && i.fieldOk && i.specialOk

end Sys2Proof
end

