-- ==== Sys2Proof/Decode.lean ====
section
/-! DEFINITION. The encoding of 06 R132 to R161 and of the encoding tables of the instruction chapters (07 R164 to R195,
08 R199 to R217, 10 R247 to R271, 12 R288, 14 R309 and R311, 15 R332 to R339): words as fields (`Raw`), fields as bits,
one writer and one reader for each operand shape, the decoder with its REASONs of R156 in the order of R157, and the
encoder. A reader takes its fields at their places and nothing else; a decoded instruction is accepted only when
writing it again gives the word, so that no bit of a word is dropped. -/

namespace Sys2Proof

/-! ## Words as fields -/

/-- The lengths of R134. -/
inductive Len where
  | b8 | b12 | b16
  deriving DecidableEq, Repr

/-- Length in bytes. -/
def Len.bytes : Len → Nat
  | .b8 => 8
  | .b12 => 12
  | .b16 => 16

/-- The L field (R134). -/
def Len.code : Len → BitVec 2
  | .b8 => 0
  | .b12 => 1
  | .b16 => 2

/-- A word as fields: header, R136, and in `hi` the bits above 63 of R137 and R138. -/
structure Raw where
  len : Len
  h   : Hdr
  op  : BitVec 8
  sub : BitVec 3
  dst : BitVec 7
  sa  : BitVec 16
  sb  : BitVec 16
  md  : BitVec 7
  hi  : BitVec 64
  deriving DecidableEq, Repr

/-- The 128 bits of a word, zero above its length (R134, R136 to R138). -/
def Raw.toBits (r : Raw) : BitVec 128 :=
  r.hi ++ r.md ++ r.sb ++ r.sa ++ r.dst ++ r.sub ++ r.op ++ r.h.g ++ BitVec.ofBool r.h.n ++ BitVec.ofBool r.h.h ++
    r.len.code

/-- The bits above 63 that a word of this length has. -/
def Len.keepHi (l : Len) (hi : BitVec 64) : BitVec 64 :=
  match l with
  | .b8 => 0
  | .b12 => (hi.extractLsb' 0 32).setWidth 64
  | .b16 => hi

/-- The fields of a word of a known length. -/
def Raw.ofBitsLen (l : Len) (w : BitVec 128) : Raw where
  len := l
  h := ⟨w.extractLsb' 4 3, w.getLsbD 3, w.getLsbD 2⟩
  op := w.extractLsb' 7 8
  sub := w.extractLsb' 15 3
  dst := w.extractLsb' 18 7
  sa := w.extractLsb' 25 16
  sb := w.extractLsb' 41 16
  md := w.extractLsb' 57 7
  hi := l.keepHi (w.extractLsb' 64 64)

/-- The length that L names; 0b11 names none (R135). -/
def Len.ofCode (c : BitVec 2) : Option Len :=
  if c = 0 then some .b8 else if c = 1 then some .b12 else if c = 2 then some .b16 else none

/-- An operand field as bits (R141). -/
def Opnd.bits (o : Opnd) : BitVec 16 := o.k ++ o.kind ++ BitVec.ofBool o.cls ++ o.num

/-- An operand field from bits (R141). -/
def Opnd.ofBits (b : BitVec 16) : Opnd :=
  ⟨b.extractLsb' 11 5, b.extractLsb' 8 3, b.getLsbD 7, b.extractLsb' 0 7⟩

namespace Raw

/-- The bits above 63 of a 12-byte word (R137). -/
def hi12 (sc imm : BitVec 16) : BitVec 64 := 0#32 ++ imm ++ sc
/-- The bits above 63 of layout D (R138). -/
def hiD (sc : BitVec 16) (disp : BitVec 48) : BitVec 64 := disp ++ sc
/-- The bits above 63 of layout E (R138). -/
def hiE (sc sd : BitVec 16) (ctl : BitVec 32) : BitVec 64 := ctl ++ sd ++ sc

/-- SC as bits. -/
def sc (r : Raw) : BitVec 16 := r.hi.extractLsb' 0 16
/-- IMM16. -/
def imm (r : Raw) : BitVec 16 := r.hi.extractLsb' 16 16
/-- DISP. -/
def disp (r : Raw) : BitVec 48 := r.hi.extractLsb' 16 48
/-- SD as bits. -/
def sd (r : Raw) : BitVec 16 := r.hi.extractLsb' 16 16
/-- CTL. -/
def ctl (r : Raw) : BitVec 32 := r.hi.extractLsb' 32 32
/-- SA as an operand field. -/
def a (r : Raw) : Opnd := .ofBits r.sa
/-- SB as an operand field. -/
def b (r : Raw) : Opnd := .ofBits r.sb
/-- SC as an operand field. -/
def c (r : Raw) : Opnd := .ofBits r.sc
/-- A scalar DST (R142). -/
def d5 (r : Raw) : BitVec 5 := r.dst.extractLsb' 0 5
/-- An accumulator DST (R142). -/
def d4 (r : Raw) : BitVec 4 := r.dst.extractLsb' 0 4
/-- A predicate DST (R142). -/
def d3 (r : Raw) : BitVec 3 := r.dst.extractLsb' 0 3

end Raw

/-- A scalar number as DST. -/
def dst5 (d : BitVec 5) : BitVec 7 := 0#2 ++ d
/-- A tile number as DST. -/
def dst4 (d : BitVec 4) : BitVec 7 := 0#3 ++ d
/-- A predicate number as DST. -/
def dst3 (d : BitVec 3) : BitVec 7 := 0#4 ++ d

/-! ## Codes of the enumerated fields

A code that names no value reads as some value whose own code differs, so the word is refused where it is compared. -/

/-- R143. -/
def IntTy.code : IntTy → BitVec 3
  | .i8 => 0 | .i16 => 1 | .i32 => 2 | .i64 => 3 | .n8 => 4 | .n16 => 5 | .n32 => 6 | .n64 => 7
/-- R143. -/
def IntTy.ofCode (c : BitVec 3) : IntTy :=
  match c.toNat with
  | 0 => .i8 | 1 => .i16 | 2 => .i32 | 3 => .i64 | 4 => .n8 | 5 => .n16 | 6 => .n32 | _ => .n64
/-- R143. -/
def FTy.code : FTy → BitVec 3
  | .f32 => 0 | .f64 => 1
/-- R143. -/
def FTy.ofCode (c : BitVec 3) : FTy := if c = 1 then .f64 else .f32
/-- R64. -/
def Rnd.code : Rnd → BitVec 3
  | .rn => 0 | .rz => 1 | .ru => 2 | .rd => 3 | .sr => 4
/-- R64. -/
def Rnd.ofCode (c : BitVec 3) : Rnd :=
  match c.toNat with
  | 0 => .rn | 1 => .rz | 2 => .ru | 3 => .rd | _ => .sr
/-- R144. -/
def Fmt.code : Fmt → BitVec 4
  | .f64 => 0 | .f32 => 1 | .f16 => 2 | .bf16 => 3 | .e4m3 => 4 | .e5m2 => 5 | .e2m1 => 6 | .e5m3 => 7
  | .i8 => 8 | .i16 => 9 | .i32 => 10 | .i64 => 11 | .n8 => 12 | .n16 => 13 | .n32 => 14 | .n64 => 15
/-- R144. -/
def Fmt.ofCode (c : BitVec 4) : Fmt :=
  match c.toNat with
  | 0 => .f64 | 1 => .f32 | 2 => .f16 | 3 => .bf16 | 4 => .e4m3 | 5 => .e5m2 | 6 => .e2m1 | 7 => .e5m3
  | 8 => .i8 | 9 => .i16 | 10 => .i32 | 11 => .i64 | 12 => .n8 | 13 => .n16 | 14 => .n32 | _ => .n64
/-- R189. -/
def Cond.code : Cond → BitVec 3
  | .eq => 0 | .ne => 1 | .lt => 2 | .le => 3 | .lo => 4 | .ls => 5 | .tst => 6
/-- R189. -/
def Cond.ofCode (c : BitVec 3) : Cond :=
  match c.toNat with
  | 0 => .eq | 1 => .ne | 2 => .lt | 3 => .le | 4 => .lo | 5 => .ls | _ => .tst
/-- R175. -/
def BarLevel.code : BarLevel → BitVec 3
  | .slot => 0 | .gang => 1 | .block => 2 | .cluster => 3 | .span => 4 | .grid => 5
/-- R175. -/
def BarLevel.ofCode (c : BitVec 3) : BarLevel :=
  match c.toNat with
  | 0 => .slot | 1 => .gang | 2 => .block | 3 => .cluster | 4 => .span | _ => .grid
/-- R169. -/
def EmOp.code : EmOp → BitVec 3
  | .set => 0 | .and => 1 | .andn => 2 | .ld => 3
/-- R169. -/
def EmOp.ofCode (c : BitVec 3) : EmOp :=
  match c.toNat with
  | 0 => .set | 1 => .and | 2 => .andn | _ => .ld
/-- R170. -/
def BprCond.code : BprCond → BitVec 3
  | .any => 0 | .all => 1 | .none => 2
/-- R170. -/
def BprCond.ofCode (c : BitVec 3) : BprCond :=
  match c.toNat with
  | 0 => .any | 1 => .all | _ => .none
/-- R193. -/
def VoteOp.code : VoteOp → BitVec 3
  | .any => 0 | .all => 1 | .ballot => 2 | .uni => 3
/-- R193. -/
def VoteOp.ofCode (c : BitVec 3) : VoteOp :=
  match c.toNat with
  | 0 => .any | 1 => .all | 2 => .ballot | _ => .uni
/-- R190. -/
def PlopOp.code : PlopOp → BitVec 3
  | .and => 0 | .or => 1 | .xor => 2 | .andn => 3 | .orn => 4 | .not => 5 | .mov => 6
/-- R190. -/
def PlopOp.ofCode (c : BitVec 3) : PlopOp :=
  match c.toNat with
  | 0 => .and | 1 => .or | 2 => .xor | 3 => .andn | 4 => .orn | 5 => .not | _ => .mov
/-- SUB[2:1] of `fcmp` (R201). -/
def FCond.code : FCond → BitVec 2
  | .eq => 0 | .lt => 1 | .le => 2 | .un => 3
/-- SUB[2:1] of `fcmp` (R201). -/
def FCond.ofCode (c : BitVec 2) : FCond :=
  match c.toNat with
  | 0 => .eq | 1 => .lt | 2 => .le | _ => .un
/-- R145. -/
def Hint.code : Hint → BitVec 2
  | .none => 0 | .keep => 1 | .stream => 2 | .nol1 => 3
/-- R145. -/
def Hint.ofCode (c : BitVec 2) : Hint :=
  match c.toNat with
  | 0 => .none | 1 => .keep | 2 => .stream | _ => .nol1
/-- R145. -/
def Scope.code : Scope → BitVec 3
  | .quad => 1 | .core => 2 | .slice => 3 | .stack => 4 | .device => 5
/-- R145. -/
def Scope.ofCode (c : BitVec 3) : Scope :=
  match c.toNat with
  | 1 => .quad | 2 => .core | 3 => .slice | 4 => .stack | _ => .device
/-- R268. -/
def AtomOp.code : AtomOp → BitVec 3
  | .add => 0 | .smin => 1 | .smax => 2 | .umin => 3 | .umax => 4 | .and => 5 | .or => 6 | .xor => 7
/-- R268. -/
def AtomOp.ofCode (c : BitVec 3) : AtomOp :=
  match c.toNat with
  | 0 => .add | 1 => .smin | 2 => .smax | 3 => .umin | 4 => .umax | 5 => .and | 6 => .or | _ => .xor
/-- R268. -/
def AtomfOp.code : AtomfOp → BitVec 3
  | .addF32 => 0 | .addF64 => 1 | .minF32 => 2 | .maxF32 => 3 | .minF64 => 4 | .maxF64 => 5 | .addN64 => 6
/-- R268. -/
def AtomfOp.ofCode (c : BitVec 3) : AtomfOp :=
  match c.toNat with
  | 0 => .addF32 | 1 => .addF64 | 2 => .minF32 | 3 => .maxF32 | 4 => .minF64 | 5 => .maxF64 | _ => .addN64
/-- R268. -/
def CasOp.code : CasOp → BitVec 3
  | .cas32 => 0 | .cas64 => 1 | .xchg32 => 2 | .xchg64 => 3
/-- R268. -/
def CasOp.ofCode (c : BitVec 3) : CasOp :=
  match c.toNat with
  | 0 => .cas32 | 1 => .cas64 | 2 => .xchg32 | _ => .xchg64
/-- R253. -/
def BlkCount.code : BlkCount → BitVec 3
  | .x1 => 0 | .x2 => 1 | .x4 => 2 | .x8 => 3
/-- R253. -/
def BlkCount.ofCode (c : BitVec 3) : BlkCount :=
  match c.toNat with
  | 0 => .x1 | 1 => .x2 | 2 => .x4 | _ => .x8
/-- SUB of `ascale` and `rng`: `n32` or `n64` (R188, R194). -/
def wideCode (w : Bool) : BitVec 3 := if w then 7 else 6
/-- SUB 0 or 1 of the instructions with two minor opcodes. -/
def bitCode (w : Bool) : BitVec 3 := if w then 1 else 0

/-- MOD of class I (R145). -/
def modI (sat wd : Bool) : BitVec 7 := BitVec.ofBool sat ++ 0#3 ++ BitVec.ofBool wd ++ 0#2
/-- MOD of class F (R145). -/
def modF (rnd : Rnd) (nsat wd : Bool) : BitVec 7 := rnd.code ++ BitVec.ofBool nsat ++ BitVec.ofBool wd ++ 0#2
/-- MOD of class M (R145). -/
def modM (scope : BitVec 3) (wd : Bool) (hint : Hint) : BitVec 7 := scope ++ 0#1 ++ BitVec.ofBool wd ++ hint.code

namespace Raw
/-- ISAT. -/
def sat (r : Raw) : Bool := r.md.getLsbD 6
/-- WD. -/
def wd (r : Raw) : Bool := r.md.getLsbD 2
/-- RND. -/
def rnd (r : Raw) : Rnd := .ofCode (r.md.extractLsb' 4 3)
/-- NSAT. -/
def nsat (r : Raw) : Bool := r.md.getLsbD 3
/-- HINT. -/
def hint (r : Raw) : Hint := .ofCode (r.md.extractLsb' 0 2)
/-- SUB as an integer type. -/
def ty (r : Raw) : IntTy := .ofCode r.sub
/-- SUB as a floating type. -/
def fty (r : Raw) : FTy := .ofCode r.sub
/-- SUB bit 0. -/
def subBit (r : Raw) : Bool := r.sub.getLsbD 0
end Raw

/-! ## One writer and one reader for each operand shape -/

/-- `OpH` as a word of 8 bytes. -/
def rawH (op : BitVec 8) (x : OpH) : Raw :=
  ⟨.b8, x.h, op, 0, 0, 0, 0, 0,
    0⟩

/-- The fields of `OpH` in a word of 8 bytes. -/
def readH (r : Raw) : OpH where
  h := r.h

/-- `OpH` as a word of 12 bytes. -/
def rawH12 (op : BitVec 8) (x : OpH) : Raw :=
  ⟨.b12, x.h, op, 0, 0, 0, 0, 0,
    0⟩

/-- The fields of `OpH` in a word of 12 bytes. -/
def readH12 (r : Raw) : OpH where
  h := r.h

/-- `OpBr12` as a word of 12 bytes. -/
def rawBr12 (op : BitVec 8) (x : OpBr12) : Raw :=
  ⟨.b12, x.h, op, 0, 0, 0, 0, 0,
    Raw.hi12 0 x.off⟩

/-- The fields of `OpBr12` in a word of 12 bytes. -/
def readBr12 (r : Raw) : OpBr12 where
  h := r.h
  off := r.imm

/-- `OpBr16` as a word of 16 bytes. -/
def rawBr16 (op : BitVec 8) (x : OpBr16) : Raw :=
  ⟨.b16, x.h, op, 0, 0, 0, 0, 0,
    x.off⟩

/-- The fields of `OpBr16` in a word of 16 bytes. -/
def readBr16 (r : Raw) : OpBr16 where
  h := r.h
  off := r.hi

/-- `OpA` as a word of 8 bytes. -/
def rawA (op : BitVec 8) (x : OpA) : Raw :=
  ⟨.b8, x.h, op, 0, 0, x.a.bits, 0, 0,
    0⟩

/-- The fields of `OpA` in a word of 8 bytes. -/
def readA (r : Raw) : OpA where
  h := r.h
  a := r.a

/-- `OpAB` as a word of 8 bytes. -/
def rawAB (op : BitVec 8) (x : OpAB) : Raw :=
  ⟨.b8, x.h, op, 0, 0, x.a.bits, x.b.bits, 0,
    0⟩

/-- The fields of `OpAB` in a word of 8 bytes. -/
def readAB (r : Raw) : OpAB where
  h := r.h
  a := r.a
  b := r.b

/-- `OpCall12` as a word of 12 bytes. -/
def rawCall12 (op : BitVec 8) (x : OpCall12) : Raw :=
  ⟨.b12, x.h, op, 0, dst5 x.d, 0, 0, 0,
    Raw.hi12 0 x.off⟩

/-- The fields of `OpCall12` in a word of 12 bytes. -/
def readCall12 (r : Raw) : OpCall12 where
  h := r.h
  d := r.d5
  off := r.imm

/-- `OpCall16` as a word of 16 bytes. -/
def rawCall16 (op : BitVec 8) (x : OpCall16) : Raw :=
  ⟨.b16, x.h, op, 0, dst5 x.d, 0, 0, 0,
    x.off⟩

/-- The fields of `OpCall16` in a word of 16 bytes. -/
def readCall16 (r : Raw) : OpCall16 where
  h := r.h
  d := r.d5
  off := r.hi

/-- `OpDA` as a word of 8 bytes. -/
def rawDA (op : BitVec 8) (x : OpDA) : Raw :=
  ⟨.b8, x.h, op, 0, dst5 x.d, x.a.bits, 0, 0,
    0⟩

/-- The fields of `OpDA` in a word of 8 bytes. -/
def readDA (r : Raw) : OpDA where
  h := r.h
  d := r.d5
  a := r.a

/-- `OpD` as a word of 8 bytes. -/
def rawD (op : BitVec 8) (x : OpD) : Raw :=
  ⟨.b8, x.h, op, 0, dst5 x.d, 0, 0, 0,
    0⟩

/-- The fields of `OpD` in a word of 8 bytes. -/
def readD (r : Raw) : OpD where
  h := r.h
  d := r.d5

/-- `OpFsw` as a word of 8 bytes. -/
def rawFsw (op : BitVec 8) (x : OpFsw) : Raw :=
  ⟨.b8, x.h, op, 0#1 ++ x.t, 0, 0, 0, 0,
    0⟩

/-- The fields of `OpFsw` in a word of 8 bytes. -/
def readFsw (r : Raw) : OpFsw where
  h := r.h
  t := r.sub.extractLsb' 0 2

/-- `OpBar` as a word of 8 bytes. -/
def rawBar (op : BitVec 8) (x : OpBar) : Raw :=
  ⟨.b8, x.h, op, x.lvl.code, 0, 0, 0, 0#3 ++ x.num,
    0⟩

/-- The fields of `OpBar` in a word of 8 bytes. -/
def readBar (r : Raw) : OpBar where
  h := r.h
  lvl := .ofCode r.sub
  num := r.md.extractLsb' 0 4

/-- `OpTk` as a word of 8 bytes. -/
def rawTk (op : BitVec 8) (x : OpTk) : Raw :=
  ⟨.b8, x.h, op, 0, 0, 0, 0, 0#5 ++ x.t,
    0⟩

/-- The fields of `OpTk` in a word of 8 bytes. -/
def readTk (r : Raw) : OpTk where
  h := r.h
  t := r.md.extractLsb' 0 2

/-- `OpRegacq` as a word of 8 bytes. -/
def rawRegacq (op : BitVec 8) (x : OpRegacq) : Raw :=
  ⟨.b8, x.h, op, bitCode x.nb, dst3 x.d, 0, 0, 0#4 ++ x.n,
    0⟩

/-- The fields of `OpRegacq` in a word of 8 bytes. -/
def readRegacq (r : Raw) : OpRegacq where
  h := r.h
  nb := r.subBit
  d := r.d3
  n := r.md.extractLsb' 0 3

/-- `OpWin` as a word of 12 bytes. -/
def rawWin (op : BitVec 8) (x : OpWin) : Raw :=
  ⟨.b12, x.h, op, 0, 0, 0, 0, 0,
    Raw.hi12 0 (0#1 ++ x.partner ++ x.len ++ x.base)⟩

/-- The fields of `OpWin` in a word of 12 bytes. -/
def readWin (r : Raw) : OpWin where
  h := r.h
  base := r.imm.extractLsb' 0 7
  len := r.imm.extractLsb' 7 6
  partner := r.imm.extractLsb' 13 2

/-- `OpTrap` as a word of 12 bytes. -/
def rawTrap (op : BitVec 8) (x : OpTrap) : Raw :=
  ⟨.b12, x.h, op, bitCode x.sys, 0, 0, 0, 0,
    Raw.hi12 0 x.code⟩

/-- The fields of `OpTrap` in a word of 12 bytes. -/
def readTrap (r : Raw) : OpTrap where
  h := r.h
  sys := r.subBit
  code := r.imm

/-- `OpDeq` as a word of 8 bytes. -/
def rawDeq (op : BitVec 8) (x : OpDeq) : Raw :=
  ⟨.b8, x.h, op, 0, x.d, 0, 0, 0,
    0⟩

/-- The fields of `OpDeq` in a word of 8 bytes. -/
def readDeq (r : Raw) : OpDeq where
  h := r.h
  d := r.dst

/-- `OpEmset` as a word of 8 bytes. -/
def rawEmset (op : BitVec 8) (x : OpEmset) : Raw :=
  ⟨.b8, x.h, op, x.op.code, 0, x.a.bits, 0, 0,
    0⟩

/-- The fields of `OpEmset` in a word of 8 bytes. -/
def readEmset (r : Raw) : OpEmset where
  h := r.h
  op := .ofCode r.sub
  a := r.a

/-- `OpBpr12` as a word of 12 bytes. -/
def rawBpr12 (op : BitVec 8) (x : OpBpr12) : Raw :=
  ⟨.b12, x.h, op, x.c.code, 0, x.a.bits, 0, 0,
    Raw.hi12 0 x.off⟩

/-- The fields of `OpBpr12` in a word of 12 bytes. -/
def readBpr12 (r : Raw) : OpBpr12 where
  h := r.h
  c := .ofCode r.sub
  a := r.a
  off := r.imm

/-- `OpBpr16` as a word of 16 bytes. -/
def rawBpr16 (op : BitVec 8) (x : OpBpr16) : Raw :=
  ⟨.b16, x.h, op, x.c.code, 0, x.a.bits, 0, 0,
    x.off⟩

/-- The fields of `OpBpr16` in a word of 16 bytes. -/
def readBpr16 (r : Raw) : OpBpr16 where
  h := r.h
  c := .ofCode r.sub
  a := r.a
  off := r.hi

/-- `OpIcinv` as a word of 8 bytes. -/
def rawIcinv (op : BitVec 8) (x : OpIcinv) : Raw :=
  ⟨.b8, x.h, op, bitCode x.line.isNone, 0, (match x.line with | some a => a.bits | none => 0), 0, 0,
    0⟩

/-- The fields of `OpIcinv` in a word of 8 bytes. -/
def readIcinv (r : Raw) : OpIcinv where
  h := r.h
  line := if r.subBit then none else some r.a

/-- `OpSrd` as a word of 8 bytes. -/
def rawSrd (op : BitVec 8) (x : OpSrd) : Raw :=
  ⟨.b8, x.h, op, 0, x.d, 0, 0, x.num,
    0⟩

/-- The fields of `OpSrd` in a word of 8 bytes. -/
def readSrd (r : Raw) : OpSrd where
  h := r.h
  d := r.dst
  num := r.md

/-- `OpSwr` as a word of 8 bytes. -/
def rawSwr (op : BitVec 8) (x : OpSwr) : Raw :=
  ⟨.b8, x.h, op, 0, 0, x.a.bits, 0, x.num,
    0⟩

/-- The fields of `OpSwr` in a word of 8 bytes. -/
def readSwr (r : Raw) : OpSwr where
  h := r.h
  a := r.a
  num := r.md

/-- `OpV8` as a word of 8 bytes. -/
def rawV8 (op : BitVec 8) (x : OpV8) : Raw :=
  ⟨.b8, x.h, op, x.ty.code, x.d, x.a.bits, x.b.bits, modI x.sat x.wd,
    0⟩

/-- The fields of `OpV8` in a word of 8 bytes. -/
def readV8 (r : Raw) : OpV8 where
  h := r.h
  ty := r.ty
  sat := r.sat
  wd := r.wd
  d := r.dst
  a := r.a
  b := r.b

/-- `OpV12` as a word of 12 bytes. -/
def rawV12 (op : BitVec 8) (x : OpV12) : Raw :=
  ⟨.b12, x.h, op, x.ty.code, x.d, x.a.bits, 0, modI x.sat x.wd,
    Raw.hi12 0 x.imm⟩

/-- The fields of `OpV12` in a word of 12 bytes. -/
def readV12 (r : Raw) : OpV12 where
  h := r.h
  ty := r.ty
  sat := r.sat
  wd := r.wd
  d := r.dst
  a := r.a
  imm := r.imm

/-- `OpV1` as a word of 8 bytes. -/
def rawV1 (op : BitVec 8) (x : OpV1) : Raw :=
  ⟨.b8, x.h, op, x.ty.code, x.d, x.a.bits, 0, modI x.sat x.wd,
    0⟩

/-- The fields of `OpV1` in a word of 8 bytes. -/
def readV1 (r : Raw) : OpV1 where
  h := r.h
  ty := r.ty
  sat := r.sat
  wd := r.wd
  d := r.dst
  a := r.a

/-- `OpV3` as a word of 12 bytes. -/
def rawV3 (op : BitVec 8) (x : OpV3) : Raw :=
  ⟨.b12, x.h, op, x.ty.code, x.d, x.a.bits, x.b.bits, modI x.sat x.wd,
    Raw.hi12 x.c.bits 0⟩

/-- The fields of `OpV3` in a word of 12 bytes. -/
def readV3 (r : Raw) : OpV3 where
  h := r.h
  ty := r.ty
  sat := r.sat
  wd := r.wd
  d := r.dst
  a := r.a
  b := r.b
  c := r.c

/-- `OpLop3` as a word of 12 bytes. -/
def rawLop3 (op : BitVec 8) (x : OpLop3) : Raw :=
  ⟨.b12, x.h, op, x.ty.code, x.d, x.a.bits, x.b.bits, modI false x.wd,
    Raw.hi12 x.c.bits (0#8 ++ x.t)⟩

/-- The fields of `OpLop3` in a word of 12 bytes. -/
def readLop3 (r : Raw) : OpLop3 where
  h := r.h
  ty := r.ty
  wd := r.wd
  d := r.dst
  a := r.a
  b := r.b
  c := r.c
  t := r.imm.extractLsb' 0 8

/-- `OpBfext` as a word of 12 bytes. -/
def rawBfext (op : BitVec 8) (x : OpBfext) : Raw :=
  ⟨.b12, x.h, op, x.ty.code, x.d, x.a.bits, 0, modI false x.wd,
    Raw.hi12 0 (0#3 ++ x.len ++ x.pos)⟩

/-- The fields of `OpBfext` in a word of 12 bytes. -/
def readBfext (r : Raw) : OpBfext where
  h := r.h
  ty := r.ty
  wd := r.wd
  d := r.dst
  a := r.a
  pos := r.imm.extractLsb' 0 6
  len := r.imm.extractLsb' 6 7

/-- `OpBfins` as a word of 12 bytes. -/
def rawBfins (op : BitVec 8) (x : OpBfins) : Raw :=
  ⟨.b12, x.h, op, x.ty.code, x.d, x.a.bits, x.b.bits, modI false x.wd,
    Raw.hi12 0 (0#3 ++ x.len ++ x.pos)⟩

/-- The fields of `OpBfins` in a word of 12 bytes. -/
def readBfins (r : Raw) : OpBfins where
  h := r.h
  ty := r.ty
  wd := r.wd
  d := r.dst
  a := r.a
  b := r.b
  pos := r.imm.extractLsb' 0 6
  len := r.imm.extractLsb' 6 7

/-- `OpSel` as a word of 12 bytes. -/
def rawSel (op : BitVec 8) (x : OpSel) : Raw :=
  ⟨.b12, x.h, op, x.ty.code, x.d, x.a.bits, x.b.bits, modI false x.wd,
    Raw.hi12 x.p.bits 0⟩

/-- The fields of `OpSel` in a word of 12 bytes. -/
def readSel (r : Raw) : OpSel where
  h := r.h
  ty := r.ty
  wd := r.wd
  d := r.dst
  a := r.a
  b := r.b
  p := r.c

/-- `OpAscale` as a word of 12 bytes. -/
def rawAscale (op : BitVec 8) (x : OpAscale) : Raw :=
  ⟨.b12, x.h, op, wideCode x.wide, x.d, x.a.bits, x.b.bits, modI false x.wd,
    Raw.hi12 x.c.bits (0#13 ++ x.s)⟩

/-- The fields of `OpAscale` in a word of 12 bytes. -/
def readAscale (r : Raw) : OpAscale where
  h := r.h
  wide := r.subBit
  wd := r.wd
  d := r.dst
  a := r.a
  b := r.b
  c := r.c
  s := r.imm.extractLsb' 0 3

/-- `OpRng` as a word of 12 bytes. -/
def rawRng (op : BitVec 8) (x : OpRng) : Raw :=
  ⟨.b12, x.h, op, wideCode x.wide, x.d, x.a.bits, x.b.bits, modI false x.wd,
    Raw.hi12 0 (0#15 ++ BitVec.ofBool x.step)⟩

/-- The fields of `OpRng` in a word of 12 bytes. -/
def readRng (r : Raw) : OpRng where
  h := r.h
  wide := r.subBit
  wd := r.wd
  d := r.dst
  a := r.a
  b := r.b
  step := r.imm.getLsbD 0

/-- `OpMovi12` as a word of 12 bytes. -/
def rawMovi12 (op : BitVec 8) (x : OpMovi12) : Raw :=
  ⟨.b12, x.h, op, x.ty.code, x.d, 0, 0, modI false x.wd,
    Raw.hi12 0 x.imm⟩

/-- The fields of `OpMovi12` in a word of 12 bytes. -/
def readMovi12 (r : Raw) : OpMovi12 where
  h := r.h
  ty := r.ty
  wd := r.wd
  d := r.dst
  imm := r.imm

/-- `OpMovi16` as a word of 16 bytes. -/
def rawMovi16 (op : BitVec 8) (x : OpMovi16) : Raw :=
  ⟨.b16, x.h, op, x.ty.code, x.d, 0, 0, modI false x.wd,
    x.imm⟩

/-- The fields of `OpMovi16` in a word of 16 bytes. -/
def readMovi16 (r : Raw) : OpMovi16 where
  h := r.h
  ty := r.ty
  wd := r.wd
  d := r.dst
  imm := r.hi

/-- `OpCmp8` as a word of 8 bytes. -/
def rawCmp8 (op : BitVec 8) (x : OpCmp8) : Raw :=
  ⟨.b8, x.h, op, x.c.code, dst3 x.d, x.a.bits, x.b.bits, 0,
    0⟩

/-- The fields of `OpCmp8` in a word of 8 bytes. -/
def readCmp8 (r : Raw) : OpCmp8 where
  h := r.h
  c := .ofCode r.sub
  d := r.d3
  a := r.a
  b := r.b

/-- `OpCmp12` as a word of 12 bytes. -/
def rawCmp12 (op : BitVec 8) (x : OpCmp12) : Raw :=
  ⟨.b12, x.h, op, x.c.code, dst3 x.d, x.a.bits, 0, 0,
    Raw.hi12 0 x.imm⟩

/-- The fields of `OpCmp12` in a word of 12 bytes. -/
def readCmp12 (r : Raw) : OpCmp12 where
  h := r.h
  c := .ofCode r.sub
  d := r.d3
  a := r.a
  imm := r.imm

/-- `OpPlop` as a word of 8 bytes. -/
def rawPlop (op : BitVec 8) (x : OpPlop) : Raw :=
  ⟨.b8, x.h, op, x.op.code, dst3 x.d, x.a.bits, x.b.bits, 0,
    0⟩

/-- The fields of `OpPlop` in a word of 8 bytes. -/
def readPlop (r : Raw) : OpPlop where
  h := r.h
  op := .ofCode r.sub
  d := r.d3
  a := r.a
  b := r.b

/-- `OpVote` as a word of 8 bytes. -/
def rawVote (op : BitVec 8) (x : OpVote) : Raw :=
  ⟨.b8, x.h, op, x.op.code, dst5 x.d, x.a.bits, 0, 0,
    0⟩

/-- The fields of `OpVote` in a word of 8 bytes. -/
def readVote (r : Raw) : OpVote where
  h := r.h
  op := .ofCode r.sub
  d := r.d5
  a := r.a

/-- `OpVtos` as a word of 8 bytes. -/
def rawVtos (op : BitVec 8) (x : OpVtos) : Raw :=
  ⟨.b8, x.h, op, x.ty.code, dst5 x.d, x.a.bits, 0, 0,
    0⟩

/-- The fields of `OpVtos` in a word of 8 bytes. -/
def readVtos (r : Raw) : OpVtos where
  h := r.h
  ty := r.ty
  d := r.d5
  a := r.a

/-- `OpS8` as a word of 8 bytes. -/
def rawS8 (op : BitVec 8) (x : OpS8) : Raw :=
  ⟨.b8, x.h, op, x.ty.code, dst5 x.d, x.a.bits, x.b.bits, modI x.sat false,
    0⟩

/-- The fields of `OpS8` in a word of 8 bytes. -/
def readS8 (r : Raw) : OpS8 where
  h := r.h
  ty := r.ty
  sat := r.sat
  d := r.d5
  a := r.a
  b := r.b

/-- `OpS12` as a word of 12 bytes. -/
def rawS12 (op : BitVec 8) (x : OpS12) : Raw :=
  ⟨.b12, x.h, op, x.ty.code, dst5 x.d, x.a.bits, 0, modI x.sat false,
    Raw.hi12 0 x.imm⟩

/-- The fields of `OpS12` in a word of 12 bytes. -/
def readS12 (r : Raw) : OpS12 where
  h := r.h
  ty := r.ty
  sat := r.sat
  d := r.d5
  a := r.a
  imm := r.imm

/-- `OpSmov12` as a word of 12 bytes. -/
def rawSmov12 (op : BitVec 8) (x : OpSmov12) : Raw :=
  ⟨.b12, x.h, op, 0, dst5 x.d, 0, 0, 0,
    Raw.hi12 0 x.imm⟩

/-- The fields of `OpSmov12` in a word of 12 bytes. -/
def readSmov12 (r : Raw) : OpSmov12 where
  h := r.h
  d := r.d5
  imm := r.imm

/-- `OpSmov16` as a word of 16 bytes. -/
def rawSmov16 (op : BitVec 8) (x : OpSmov16) : Raw :=
  ⟨.b16, x.h, op, 0, dst5 x.d, 0, 0, 0,
    x.imm⟩

/-- The fields of `OpSmov16` in a word of 16 bytes. -/
def readSmov16 (r : Raw) : OpSmov16 where
  h := r.h
  d := r.d5
  imm := r.hi

/-- `OpF2` as a word of 8 bytes. -/
def rawF2 (op : BitVec 8) (x : OpF2) : Raw :=
  ⟨.b8, x.h, op, x.ty.code, x.d, x.a.bits, x.b.bits, modF x.rnd false x.wd,
    0⟩

/-- The fields of `OpF2` in a word of 8 bytes. -/
def readF2 (r : Raw) : OpF2 where
  h := r.h
  ty := r.fty
  rnd := r.rnd
  wd := r.wd
  d := r.dst
  a := r.a
  b := r.b

/-- `OpF3` as a word of 12 bytes. -/
def rawF3 (op : BitVec 8) (x : OpF3) : Raw :=
  ⟨.b12, x.h, op, x.ty.code, x.d, x.a.bits, x.b.bits, modF x.rnd false x.wd,
    Raw.hi12 x.c.bits 0⟩

/-- The fields of `OpF3` in a word of 12 bytes. -/
def readF3 (r : Raw) : OpF3 where
  h := r.h
  ty := r.fty
  rnd := r.rnd
  wd := r.wd
  d := r.dst
  a := r.a
  b := r.b
  c := r.c

/-- `OpF1` as a word of 8 bytes. -/
def rawF1 (op : BitVec 8) (x : OpF1) : Raw :=
  ⟨.b8, x.h, op, x.ty.code, x.d, x.a.bits, 0, modF x.rnd false x.wd,
    0⟩

/-- The fields of `OpF1` in a word of 8 bytes. -/
def readF1 (r : Raw) : OpF1 where
  h := r.h
  ty := r.fty
  rnd := r.rnd
  wd := r.wd
  d := r.dst
  a := r.a

/-- `OpFcmp` as a word of 8 bytes. -/
def rawFcmp (op : BitVec 8) (x : OpFcmp) : Raw :=
  ⟨.b8, x.h, op, x.c.code ++ x.ty.code.extractLsb' 0 1, dst3 x.d, x.a.bits, x.b.bits, 0,
    0⟩

/-- The fields of `OpFcmp` in a word of 8 bytes. -/
def readFcmp (r : Raw) : OpFcmp where
  h := r.h
  c := .ofCode (r.sub.extractLsb' 1 2)
  ty := if r.subBit then .f64 else .f32
  d := r.d3
  a := r.a
  b := r.b

/-- `OpCvt` as a word of 12 bytes. -/
def rawCvt (op : BitVec 8) (x : OpCvt) : Raw :=
  ⟨.b12, x.h, op, 0, x.d, x.a.bits, 0, modF x.rnd x.nsat x.wd,
    Raw.hi12 0 (x.stream ++ x.sel ++ 0#1 ++ x.sfmt.code ++ x.dfmt.code)⟩

/-- The fields of `OpCvt` in a word of 12 bytes. -/
def readCvt (r : Raw) : OpCvt where
  h := r.h
  rnd := r.rnd
  nsat := r.nsat
  wd := r.wd
  d := r.dst
  a := r.a
  stream := r.imm.extractLsb' 12 4
  sel := r.imm.extractLsb' 9 3
  sfmt := .ofCode (r.imm.extractLsb' 4 4)
  dfmt := .ofCode (r.imm.extractLsb' 0 4)

/-- `OpPack` as a word of 12 bytes. -/
def rawPack (op : BitVec 8) (x : OpPack) : Raw :=
  ⟨.b12, x.h, op, 0, x.d, x.a.bits, x.b.bits, modF x.rnd x.nsat x.wd,
    Raw.hi12 x.c.bits (0#4 ++ x.stream ++ 0#2 ++ x.pos ++ x.dfmt.code)⟩

/-- The fields of `OpPack` in a word of 12 bytes. -/
def readPack (r : Raw) : OpPack where
  h := r.h
  rnd := r.rnd
  nsat := r.nsat
  wd := r.wd
  d := r.dst
  a := r.a
  b := r.b
  c := r.c
  stream := r.imm.extractLsb' 8 4
  pos := r.imm.extractLsb' 4 2
  dfmt := .ofCode (r.imm.extractLsb' 0 4)

/-- `OpUnpack` as a word of 12 bytes. -/
def rawUnpack (op : BitVec 8) (x : OpUnpack) : Raw :=
  ⟨.b12, x.h, op, 0, x.d, x.a.bits, 0, modF .rn false x.wd,
    Raw.hi12 0 (0#9 ++ x.pair ++ x.sfmt.code)⟩

/-- The fields of `OpUnpack` in a word of 12 bytes. -/
def readUnpack (r : Raw) : OpUnpack where
  h := r.h
  wd := r.wd
  d := r.dst
  a := r.a
  pair := r.imm.extractLsb' 4 3
  sfmt := .ofCode (r.imm.extractLsb' 0 4)

/-- `OpScapply` as a word of 12 bytes. -/
def rawScapply (op : BitVec 8) (x : OpScapply) : Raw :=
  ⟨.b12, x.h, op, 0, x.d, x.a.bits, x.b.bits, modF .rn false x.wd,
    Raw.hi12 0 (0#9 ++ x.sel ++ x.sfmt.code)⟩

/-- The fields of `OpScapply` in a word of 12 bytes. -/
def readScapply (r : Raw) : OpScapply where
  h := r.h
  wd := r.wd
  d := r.dst
  a := r.a
  b := r.b
  sel := r.imm.extractLsb' 4 3
  sfmt := .ofCode (r.imm.extractLsb' 0 4)

/-- `OpBpext` as a word of 12 bytes. -/
def rawBpext (op : BitVec 8) (x : OpBpext) : Raw :=
  ⟨.b12, x.h, op, 0, x.d, x.a.bits, 0, modF .rn false x.wd,
    Raw.hi12 0 (0#11 ++ x.k ++ BitVec.ofBool x.dir)⟩

/-- The fields of `OpBpext` in a word of 12 bytes. -/
def readBpext (r : Raw) : OpBpext where
  h := r.h
  wd := r.wd
  d := r.dst
  a := r.a
  k := r.imm.extractLsb' 1 4
  dir := r.imm.getLsbD 0

/-- `OpPk2` as a word of 8 bytes. -/
def rawPk2 (op : BitVec 8) (x : OpPk2) : Raw :=
  ⟨.b8, x.h, op, bitCode x.bf, x.d, x.a.bits, x.b.bits, modF x.rnd x.nsat x.wd,
    0⟩

/-- The fields of `OpPk2` in a word of 8 bytes. -/
def readPk2 (r : Raw) : OpPk2 where
  h := r.h
  bf := r.subBit
  rnd := r.rnd
  nsat := r.nsat
  wd := r.wd
  d := r.dst
  a := r.a
  b := r.b

/-- `OpUpk2` as a word of 8 bytes. -/
def rawUpk2 (op : BitVec 8) (x : OpUpk2) : Raw :=
  ⟨.b8, x.h, op, bitCode x.bf, x.d, x.a.bits, 0, modF .rn false x.wd,
    0⟩

/-- The fields of `OpUpk2` in a word of 8 bytes. -/
def readUpk2 (r : Raw) : OpUpk2 where
  h := r.h
  bf := r.subBit
  wd := r.wd
  d := r.dst
  a := r.a

/-- `OpScfind` as a word of 12 bytes. -/
def rawScfind (op : BitVec 8) (x : OpScfind) : Raw :=
  ⟨.b12, x.h, op, 0, x.d, x.a.bits, 0, modF .rn false x.wd,
    Raw.hi12 0 (0#11 ++ BitVec.ofBool x.out ++ x.dfmt.code)⟩

/-- The fields of `OpScfind` in a word of 12 bytes. -/
def readScfind (r : Raw) : OpScfind where
  h := r.h
  wd := r.wd
  d := r.dst
  a := r.a
  out := r.imm.getLsbD 4
  dfmt := .ofCode (r.imm.extractLsb' 0 4)

/-- `OpLd8` as a word of 8 bytes. -/
def rawLd8 (op : BitVec 8) (x : OpLd8) : Raw :=
  ⟨.b8, x.h, op, x.ty.code, x.d, x.a.bits, 0, modM 0 x.wd x.hint,
    0⟩

/-- The fields of `OpLd8` in a word of 8 bytes. -/
def readLd8 (r : Raw) : OpLd8 where
  h := r.h
  ty := r.ty
  hint := r.hint
  wd := r.wd
  d := r.dst
  a := r.a

/-- `OpLd12` as a word of 12 bytes. -/
def rawLd12 (op : BitVec 8) (x : OpLd12) : Raw :=
  ⟨.b12, x.h, op, x.ty.code, x.d, x.a.bits, 0, modM 0 x.wd x.hint,
    Raw.hi12 x.c.bits x.disp⟩

/-- The fields of `OpLd12` in a word of 12 bytes. -/
def readLd12 (r : Raw) : OpLd12 where
  h := r.h
  ty := r.ty
  hint := r.hint
  wd := r.wd
  d := r.dst
  a := r.a
  c := r.c
  disp := r.imm

/-- `OpLd16` as a word of 16 bytes. -/
def rawLd16 (op : BitVec 8) (x : OpLd16) : Raw :=
  ⟨.b16, x.h, op, x.ty.code, x.d, x.a.bits, 0, modM 0 x.wd x.hint,
    Raw.hiD x.c.bits x.disp⟩

/-- The fields of `OpLd16` in a word of 16 bytes. -/
def readLd16 (r : Raw) : OpLd16 where
  h := r.h
  ty := r.ty
  hint := r.hint
  wd := r.wd
  d := r.dst
  a := r.a
  c := r.c
  disp := r.disp

/-- `OpSt8` as a word of 8 bytes. -/
def rawSt8 (op : BitVec 8) (x : OpSt8) : Raw :=
  ⟨.b8, x.h, op, x.ty.code, 0, x.a.bits, x.b.bits, modM 0 false x.hint,
    0⟩

/-- The fields of `OpSt8` in a word of 8 bytes. -/
def readSt8 (r : Raw) : OpSt8 where
  h := r.h
  ty := r.ty
  hint := r.hint
  a := r.a
  b := r.b

/-- `OpSt12` as a word of 12 bytes. -/
def rawSt12 (op : BitVec 8) (x : OpSt12) : Raw :=
  ⟨.b12, x.h, op, x.ty.code, 0, x.a.bits, x.b.bits, modM 0 false x.hint,
    Raw.hi12 x.c.bits x.disp⟩

/-- The fields of `OpSt12` in a word of 12 bytes. -/
def readSt12 (r : Raw) : OpSt12 where
  h := r.h
  ty := r.ty
  hint := r.hint
  a := r.a
  b := r.b
  c := r.c
  disp := r.imm

/-- `OpSt16` as a word of 16 bytes. -/
def rawSt16 (op : BitVec 8) (x : OpSt16) : Raw :=
  ⟨.b16, x.h, op, x.ty.code, 0, x.a.bits, x.b.bits, modM 0 false x.hint,
    Raw.hiD x.c.bits x.disp⟩

/-- The fields of `OpSt16` in a word of 16 bytes. -/
def readSt16 (r : Raw) : OpSt16 where
  h := r.h
  ty := r.ty
  hint := r.hint
  a := r.a
  b := r.b
  c := r.c
  disp := r.disp

/-- `OpLdblk8` as a word of 8 bytes. -/
def rawLdblk8 (op : BitVec 8) (x : OpLdblk8) : Raw :=
  ⟨.b8, x.h, op, x.cnt.code, x.d, x.a.bits, 0, modM 0 x.wd x.hint,
    0⟩

/-- The fields of `OpLdblk8` in a word of 8 bytes. -/
def readLdblk8 (r : Raw) : OpLdblk8 where
  h := r.h
  cnt := .ofCode r.sub
  hint := r.hint
  wd := r.wd
  d := r.dst
  a := r.a

/-- `OpLdblk12` as a word of 12 bytes. -/
def rawLdblk12 (op : BitVec 8) (x : OpLdblk12) : Raw :=
  ⟨.b12, x.h, op, x.cnt.code, x.d, x.a.bits, 0, modM 0 x.wd x.hint,
    Raw.hi12 0 x.disp⟩

/-- The fields of `OpLdblk12` in a word of 12 bytes. -/
def readLdblk12 (r : Raw) : OpLdblk12 where
  h := r.h
  cnt := .ofCode r.sub
  hint := r.hint
  wd := r.wd
  d := r.dst
  a := r.a
  disp := r.imm

/-- `OpLdblk16` as a word of 16 bytes. -/
def rawLdblk16 (op : BitVec 8) (x : OpLdblk16) : Raw :=
  ⟨.b16, x.h, op, x.cnt.code, x.d, x.a.bits, 0, modM 0 x.wd x.hint,
    Raw.hiD 0 x.disp⟩

/-- The fields of `OpLdblk16` in a word of 16 bytes. -/
def readLdblk16 (r : Raw) : OpLdblk16 where
  h := r.h
  cnt := .ofCode r.sub
  hint := r.hint
  wd := r.wd
  d := r.dst
  a := r.a
  disp := r.disp

/-- `OpStblk8` as a word of 8 bytes. -/
def rawStblk8 (op : BitVec 8) (x : OpStblk8) : Raw :=
  ⟨.b8, x.h, op, x.cnt.code, 0, x.a.bits, x.b.bits, modM 0 false x.hint,
    0⟩

/-- The fields of `OpStblk8` in a word of 8 bytes. -/
def readStblk8 (r : Raw) : OpStblk8 where
  h := r.h
  cnt := .ofCode r.sub
  hint := r.hint
  a := r.a
  b := r.b

/-- `OpStblk12` as a word of 12 bytes. -/
def rawStblk12 (op : BitVec 8) (x : OpStblk12) : Raw :=
  ⟨.b12, x.h, op, x.cnt.code, 0, x.a.bits, x.b.bits, modM 0 false x.hint,
    Raw.hi12 0 x.disp⟩

/-- The fields of `OpStblk12` in a word of 12 bytes. -/
def readStblk12 (r : Raw) : OpStblk12 where
  h := r.h
  cnt := .ofCode r.sub
  hint := r.hint
  a := r.a
  b := r.b
  disp := r.imm

/-- `OpStblk16` as a word of 16 bytes. -/
def rawStblk16 (op : BitVec 8) (x : OpStblk16) : Raw :=
  ⟨.b16, x.h, op, x.cnt.code, 0, x.a.bits, x.b.bits, modM 0 false x.hint,
    Raw.hiD 0 x.disp⟩

/-- The fields of `OpStblk16` in a word of 16 bytes. -/
def readStblk16 (r : Raw) : OpStblk16 where
  h := r.h
  cnt := .ofCode r.sub
  hint := r.hint
  a := r.a
  b := r.b
  disp := r.disp

/-- `OpLdsc8` as a word of 8 bytes. -/
def rawLdsc8 (op : BitVec 8) (x : OpLdsc8) : Raw :=
  ⟨.b8, x.h, op, x.ty.code, dst5 x.d, x.a.bits, 0, modM 0 false x.hint,
    0⟩

/-- The fields of `OpLdsc8` in a word of 8 bytes. -/
def readLdsc8 (r : Raw) : OpLdsc8 where
  h := r.h
  ty := r.ty
  hint := r.hint
  d := r.d5
  a := r.a

/-- `OpLdsc12` as a word of 12 bytes. -/
def rawLdsc12 (op : BitVec 8) (x : OpLdsc12) : Raw :=
  ⟨.b12, x.h, op, x.ty.code, dst5 x.d, x.a.bits, 0, modM 0 false x.hint,
    Raw.hi12 0 x.disp⟩

/-- The fields of `OpLdsc12` in a word of 12 bytes. -/
def readLdsc12 (r : Raw) : OpLdsc12 where
  h := r.h
  ty := r.ty
  hint := r.hint
  d := r.d5
  a := r.a
  disp := r.imm

/-- `OpLdsc16` as a word of 16 bytes. -/
def rawLdsc16 (op : BitVec 8) (x : OpLdsc16) : Raw :=
  ⟨.b16, x.h, op, x.ty.code, dst5 x.d, x.a.bits, 0, modM 0 false x.hint,
    Raw.hiD 0 x.disp⟩

/-- The fields of `OpLdsc16` in a word of 16 bytes. -/
def readLdsc16 (r : Raw) : OpLdsc16 where
  h := r.h
  ty := r.ty
  hint := r.hint
  d := r.d5
  a := r.a
  disp := r.disp

/-- `OpStsc12` as a word of 12 bytes. -/
def rawStsc12 (op : BitVec 8) (x : OpStsc12) : Raw :=
  ⟨.b12, x.h, op, x.ty.code, 0, x.a.bits, x.b.bits, modM 0 false x.hint,
    Raw.hi12 0 x.disp⟩

/-- The fields of `OpStsc12` in a word of 12 bytes. -/
def readStsc12 (r : Raw) : OpStsc12 where
  h := r.h
  ty := r.ty
  hint := r.hint
  a := r.a
  b := r.b
  disp := r.imm

/-- `OpStsc16` as a word of 16 bytes. -/
def rawStsc16 (op : BitVec 8) (x : OpStsc16) : Raw :=
  ⟨.b16, x.h, op, x.ty.code, 0, x.a.bits, x.b.bits, modM 0 false x.hint,
    Raw.hiD 0 x.disp⟩

/-- The fields of `OpStsc16` in a word of 16 bytes. -/
def readStsc16 (r : Raw) : OpStsc16 where
  h := r.h
  ty := r.ty
  hint := r.hint
  a := r.a
  b := r.b
  disp := r.disp

/-- `OpLdacc` as a word of 12 bytes. -/
def rawLdacc (op : BitVec 8) (x : OpLdacc) : Raw :=
  ⟨.b12, x.h, op, bitCode x.wide, dst4 x.d, x.a.bits, x.b.bits, modM 0 false x.hint,
    Raw.hi12 0 x.disp⟩

/-- The fields of `OpLdacc` in a word of 12 bytes. -/
def readLdacc (r : Raw) : OpLdacc where
  h := r.h
  wide := r.subBit
  hint := r.hint
  d := r.d4
  a := r.a
  b := r.b
  disp := r.imm

/-- `OpStacc` as a word of 12 bytes. -/
def rawStacc (op : BitVec 8) (x : OpStacc) : Raw :=
  ⟨.b12, x.h, op, bitCode x.wide, 0, x.a.bits, x.b.bits, modM 0 false x.hint,
    Raw.hi12 0 (0#12 ++ x.tile)⟩

/-- The fields of `OpStacc` in a word of 12 bytes. -/
def readStacc (r : Raw) : OpStacc where
  h := r.h
  wide := r.subBit
  hint := r.hint
  a := r.a
  b := r.b
  tile := r.imm.extractLsb' 0 4

/-- `OpCopy` as a word of 16 bytes. -/
def rawCopy (op : BitVec 8) (x : OpCopy) : Raw :=
  ⟨.b16, x.h, op, 0, 0, x.a.bits, x.b.bits, modM 0 false x.hint,
    Raw.hiE x.c.bits x.sd.bits (BitVec.ofBool x.follow ++ BitVec.ofBool x.evt ++ BitVec.ofBool x.bar ++ x.barnum ++ BitVec.ofBool x.gather ++
      BitVec.ofBool x.expand ++ 0#7 ++ x.tag)⟩

/-- The fields of `OpCopy` in a word of 16 bytes. -/
def readCopy (r : Raw) : OpCopy where
  h := r.h
  hint := r.hint
  a := r.a
  b := r.b
  c := r.c
  sd := .ofBits r.sd
  follow := r.ctl.getLsbD 31
  evt := r.ctl.getLsbD 30
  bar := r.ctl.getLsbD 29
  barnum := r.ctl.extractLsb' 25 4
  gather := r.ctl.getLsbD 24
  expand := r.ctl.getLsbD 23
  tag := r.ctl.extractLsb' 0 16

/-- `OpLines12` as a word of 12 bytes. -/
def rawLines12 (op : BitVec 8) (x : OpLines12) : Raw :=
  ⟨.b12, x.h, op, 0, 0, x.a.bits, 0, 0,
    Raw.hi12 0 x.n⟩

/-- The fields of `OpLines12` in a word of 12 bytes. -/
def readLines12 (r : Raw) : OpLines12 where
  h := r.h
  a := r.a
  n := r.imm

/-- `OpPref8` as a word of 8 bytes. -/
def rawPref8 (op : BitVec 8) (x : OpPref8) : Raw :=
  ⟨.b8, x.h, op, bitCode x.home, 0, x.a.bits, 0, modM 0 false x.hint,
    0⟩

/-- The fields of `OpPref8` in a word of 8 bytes. -/
def readPref8 (r : Raw) : OpPref8 where
  h := r.h
  home := r.subBit
  hint := r.hint
  a := r.a

/-- `OpPref12` as a word of 12 bytes. -/
def rawPref12 (op : BitVec 8) (x : OpPref12) : Raw :=
  ⟨.b12, x.h, op, bitCode x.home, 0, x.a.bits, 0, modM 0 false x.hint,
    Raw.hi12 0 x.disp⟩

/-- The fields of `OpPref12` in a word of 12 bytes. -/
def readPref12 (r : Raw) : OpPref12 where
  h := r.h
  home := r.subBit
  hint := r.hint
  a := r.a
  disp := r.imm

/-- `OpFence` as a word of 8 bytes. -/
def rawFence (op : BitVec 8) (x : OpFence) : Raw :=
  ⟨.b8, x.h, op, 0, 0, 0, 0, modM x.scope.code false .none,
    0⟩

/-- The fields of `OpFence` in a word of 8 bytes. -/
def readFence (r : Raw) : OpFence where
  h := r.h
  scope := .ofCode (r.md.extractLsb' 4 3)

/-- `OpAtom8` as a word of 8 bytes. -/
def rawAtom8 {ω : Type} (code : ω → BitVec 3) (op : BitVec 8) (x : OpAtom8 ω) : Raw :=
  ⟨.b8, x.h, op, code x.op, x.d, x.a.bits, x.b.bits, modM 0 x.wd x.hint,
    0⟩

/-- The fields of `OpAtom8` in a word of 8 bytes. -/
def readAtom8 {ω : Type} (ofCode : BitVec 3 → ω) (r : Raw) : OpAtom8 ω where
  h := r.h
  op := ofCode r.sub
  hint := r.hint
  wd := r.wd
  d := r.dst
  a := r.a
  b := r.b

/-- `OpRed8` as a word of 8 bytes. -/
def rawRed8 {ω : Type} (code : ω → BitVec 3) (op : BitVec 8) (x : OpRed8 ω) : Raw :=
  ⟨.b8, x.h, op, code x.op, 0, x.a.bits, x.b.bits, modM 0 false x.hint,
    0⟩

/-- The fields of `OpRed8` in a word of 8 bytes. -/
def readRed8 {ω : Type} (ofCode : BitVec 3 → ω) (r : Raw) : OpRed8 ω where
  h := r.h
  op := ofCode r.sub
  hint := r.hint
  a := r.a
  b := r.b

/-- `OpAtom12` as a word of 12 bytes. -/
def rawAtom12 {ω : Type} (code : ω → BitVec 3) (op : BitVec 8) (x : OpAtom12 ω) : Raw :=
  ⟨.b12, x.h, op, code x.op, x.d, x.a.bits, x.b.bits, modM 0 x.wd x.hint,
    Raw.hi12 x.c.bits x.disp⟩

/-- The fields of `OpAtom12` in a word of 12 bytes. -/
def readAtom12 {ω : Type} (ofCode : BitVec 3 → ω) (r : Raw) : OpAtom12 ω where
  h := r.h
  op := ofCode r.sub
  hint := r.hint
  wd := r.wd
  d := r.dst
  a := r.a
  b := r.b
  c := r.c
  disp := r.imm

/-- `OpRed12` as a word of 12 bytes. -/
def rawRed12 {ω : Type} (code : ω → BitVec 3) (op : BitVec 8) (x : OpRed12 ω) : Raw :=
  ⟨.b12, x.h, op, code x.op, 0, x.a.bits, x.b.bits, modM 0 false x.hint,
    Raw.hi12 x.c.bits x.disp⟩

/-- The fields of `OpRed12` in a word of 12 bytes. -/
def readRed12 {ω : Type} (ofCode : BitVec 3 → ω) (r : Raw) : OpRed12 ω where
  h := r.h
  op := ofCode r.sub
  hint := r.hint
  a := r.a
  b := r.b
  c := r.c
  disp := r.imm

/-- `OpAtom16` as a word of 16 bytes. -/
def rawAtom16 {ω : Type} (code : ω → BitVec 3) (op : BitVec 8) (x : OpAtom16 ω) : Raw :=
  ⟨.b16, x.h, op, code x.op, x.d, x.a.bits, x.b.bits, modM 0 x.wd x.hint,
    Raw.hiD x.c.bits x.disp⟩

/-- The fields of `OpAtom16` in a word of 16 bytes. -/
def readAtom16 {ω : Type} (ofCode : BitVec 3 → ω) (r : Raw) : OpAtom16 ω where
  h := r.h
  op := ofCode r.sub
  hint := r.hint
  wd := r.wd
  d := r.dst
  a := r.a
  b := r.b
  c := r.c
  disp := r.disp

/-- `OpRed16` as a word of 16 bytes. -/
def rawRed16 {ω : Type} (code : ω → BitVec 3) (op : BitVec 8) (x : OpRed16 ω) : Raw :=
  ⟨.b16, x.h, op, code x.op, 0, x.a.bits, x.b.bits, modM 0 false x.hint,
    Raw.hiD x.c.bits x.disp⟩

/-- The fields of `OpRed16` in a word of 16 bytes. -/
def readRed16 {ω : Type} (ofCode : BitVec 3 → ω) (r : Raw) : OpRed16 ω where
  h := r.h
  op := ofCode r.sub
  hint := r.hint
  a := r.a
  b := r.b
  c := r.c
  disp := r.disp

/-- `OpMma` as a word of 16 bytes. -/
def rawMma (op : BitVec 8) (x : OpMma) : Raw :=
  ⟨.b16, x.h, op, 0, dst4 x.d, x.a.bits, x.b.bits, 0,
    Raw.hiE x.c.bits 0 (x.afmt.code ++ x.bfmt.code ++ 0#19 ++ BitVec.ofBool x.cz ++ x.ctile)⟩

/-- The fields of `OpMma` in a word of 16 bytes. -/
def readMma (r : Raw) : OpMma where
  h := r.h
  d := r.d4
  a := r.a
  b := r.b
  c := r.c
  afmt := .ofCode (r.ctl.extractLsb' 28 4)
  bfmt := .ofCode (r.ctl.extractLsb' 24 4)
  cz := r.ctl.getLsbD 4
  ctile := r.ctl.extractLsb' 0 4

/-- `OpMmac` as a word of 16 bytes. -/
def rawMmac (op : BitVec 8) (x : OpMmac) : Raw :=
  ⟨.b16, x.h, op, 0, dst4 x.d, x.a.bits, x.b.bits, 0,
    Raw.hiE 0 0 (0#27 ++ BitVec.ofBool x.cz ++ x.ctile)⟩

/-- The fields of `OpMmac` in a word of 16 bytes. -/
def readMmac (r : Raw) : OpMmac where
  h := r.h
  d := r.d4
  a := r.a
  b := r.b
  cz := r.ctl.getLsbD 4
  ctile := r.ctl.extractLsb' 0 4

/-- `OpMmap` as a word of 16 bytes. -/
def rawMmap (op : BitVec 8) (x : OpMmap) : Raw :=
  ⟨.b16, x.h, op, 0, dst4 x.d, x.a.bits, x.b.bits, 0,
    Raw.hiE x.c.bits 0 (0#8 ++ x.planes ++ 0#15 ++ BitVec.ofBool x.cz ++ x.ctile)⟩

/-- The fields of `OpMmap` in a word of 16 bytes. -/
def readMmap (r : Raw) : OpMmap where
  h := r.h
  d := r.d4
  a := r.a
  b := r.b
  c := r.c
  planes := r.ctl.extractLsb' 20 4
  cz := r.ctl.getLsbD 4
  ctile := r.ctl.extractLsb' 0 4

/-- `OpMmas` as a word of 16 bytes. -/
def rawMmas (op : BitVec 8) (x : OpMmas) : Raw :=
  ⟨.b16, x.h, op, 0, dst4 x.d, x.a.bits, x.b.bits, 0,
    Raw.hiE x.c.bits x.sd.bits (x.afmt.code ++ x.bfmt.code ++ 0#19 ++ BitVec.ofBool x.cz ++ x.ctile)⟩

/-- The fields of `OpMmas` in a word of 16 bytes. -/
def readMmas (r : Raw) : OpMmas where
  h := r.h
  d := r.d4
  a := r.a
  b := r.b
  c := r.c
  sd := .ofBits r.sd
  afmt := .ofCode (r.ctl.extractLsb' 28 4)
  bfmt := .ofCode (r.ctl.extractLsb' 24 4)
  cz := r.ctl.getLsbD 4
  ctile := r.ctl.extractLsb' 0 4

/-- `OpAcz` as a word of 8 bytes. -/
def rawAcz (op : BitVec 8) (x : OpAcz) : Raw :=
  ⟨.b8, x.h, op, 0, dst4 x.d, 0, 0, 0,
    0⟩

/-- The fields of `OpAcz` in a word of 8 bytes. -/
def readAcz (r : Raw) : OpAcz where
  h := r.h
  d := r.d4

/-- `OpAcscl` as a word of 12 bytes. -/
def rawAcscl (op : BitVec 8) (x : OpAcscl) : Raw :=
  ⟨.b12, x.h, op, bitCode x.wide, dst4 x.d, x.a.bits, 0, 0,
    Raw.hi12 0 (0#12 ++ x.c)⟩

/-- The fields of `OpAcscl` in a word of 12 bytes. -/
def readAcscl (r : Raw) : OpAcscl where
  h := r.h
  wide := r.subBit
  d := r.d4
  a := r.a
  c := r.imm.extractLsb' 0 4

/-- `OpAccvt` as a word of 12 bytes. -/
def rawAccvt (op : BitVec 8) (x : OpAccvt) : Raw :=
  ⟨.b12, x.h, op, bitCode x.narrow, dst4 x.d, 0, 0, 0,
    Raw.hi12 0 (0#12 ++ x.c)⟩

/-- The fields of `OpAccvt` in a word of 12 bytes. -/
def readAccvt (r : Raw) : OpAccvt where
  h := r.h
  narrow := r.subBit
  d := r.d4
  c := r.imm.extractLsb' 0 4

/-- `OpAcrd` as a word of 12 bytes. -/
def rawAcrd (op : BitVec 8) (x : OpAcrd) : Raw :=
  ⟨.b12, x.h, op, bitCode x.wide, x.d, 0, 0, 0,
    Raw.hi12 0 (0#5 ++ BitVec.ofBool x.half ++ x.row ++ x.tile)⟩

/-- The fields of `OpAcrd` in a word of 12 bytes. -/
def readAcrd (r : Raw) : OpAcrd where
  h := r.h
  wide := r.subBit
  d := r.dst
  half := r.imm.getLsbD 10
  row := r.imm.extractLsb' 4 6
  tile := r.imm.extractLsb' 0 4

/-- `OpAcwr` as a word of 12 bytes. -/
def rawAcwr (op : BitVec 8) (x : OpAcwr) : Raw :=
  ⟨.b12, x.h, op, bitCode x.wide, dst4 x.d, x.a.bits, 0, 0,
    Raw.hi12 0 (0#5 ++ BitVec.ofBool x.half ++ x.row ++ 0#4)⟩

/-- The fields of `OpAcwr` in a word of 12 bytes. -/
def readAcwr (r : Raw) : OpAcwr where
  h := r.h
  wide := r.subBit
  d := r.d4
  a := r.a
  half := r.imm.getLsbD 10
  row := r.imm.extractLsb' 4 6

/-- `OpFrcdec` as a word of 12 bytes. -/
def rawFrcdec (op : BitVec 8) (x : OpFrcdec) : Raw :=
  ⟨.b12, x.h, op, x.ty.code, x.d, x.a.bits, 0, 0,
    Raw.hi12 0 (0#6 ++ x.dim ++ 0#1 ++ x.rate)⟩

/-- The fields of `OpFrcdec` in a word of 12 bytes. -/
def readFrcdec (r : Raw) : OpFrcdec where
  h := r.h
  ty := r.fty
  d := r.dst
  a := r.a
  dim := r.imm.extractLsb' 8 2
  rate := r.imm.extractLsb' 0 7

/-- `OpFrcenc` as a word of 12 bytes. -/
def rawFrcenc (op : BitVec 8) (x : OpFrcenc) : Raw :=
  ⟨.b12, x.h, op, x.ty.code, x.d, x.a.bits, x.b.bits, 0,
    Raw.hi12 0 (0#5 ++ BitVec.ofBool x.ref ++ x.dim ++ 0#1 ++ x.rate)⟩

/-- The fields of `OpFrcenc` in a word of 12 bytes. -/
def readFrcenc (r : Raw) : OpFrcenc where
  h := r.h
  ty := r.fty
  d := r.dst
  a := r.a
  b := r.b
  ref := r.imm.getLsbD 10
  dim := r.imm.extractLsb' 8 2
  rate := r.imm.extractLsb' 0 7

/-- `OpFrchdr` as a word of 8 bytes. -/
def rawFrchdr (op : BitVec 8) (x : OpFrchdr) : Raw :=
  ⟨.b8, x.h, op, 0, x.d, x.a.bits, x.b.bits, 0,
    0⟩

/-- The fields of `OpFrchdr` in a word of 8 bytes. -/
def readFrchdr (r : Raw) : OpFrchdr where
  h := r.h
  d := r.dst
  a := r.a
  b := r.b

/-- `OpExpload` as a word of 12 bytes. -/
def rawExpload (op : BitVec 8) (x : OpExpload) : Raw :=
  ⟨.b12, x.h, op, 0, 0, x.a.bits, 0, 0,
    Raw.hi12 0 x.id⟩

/-- The fields of `OpExpload` in a word of 12 bytes. -/
def readExpload (r : Raw) : OpExpload where
  h := r.h
  a := r.a
  id := r.imm

/-- `OpDA` as a word of 8 bytes. -/
def rawPkLine (op : BitVec 8) (x : OpDA) : Raw :=
  ⟨.b8, x.h, op, 0, dst5 x.d, x.a.bits, 0, 0,
    0⟩

/-- The fields of `OpDA` in a word of 8 bytes. -/
def readPkLine (r : Raw) : OpDA where
  h := r.h
  d := r.d5
  a := r.a

/-- `OpDAB` as a word of 8 bytes. -/
def rawPkBind (op : BitVec 8) (x : OpDAB) : Raw :=
  ⟨.b8, x.h, op, 1, dst5 x.d, x.a.bits, x.b.bits, 0,
    0⟩

/-- The fields of `OpDAB` in a word of 8 bytes. -/
def readPkBind (r : Raw) : OpDAB where
  h := r.h
  d := r.d5
  a := r.a
  b := r.b

/-- `OpXop8` as a word of 8 bytes. -/
def rawXop8 (x : OpXop8) : Raw :=
  ⟨.b8, x.h, 31#5 ++ x.op, x.sub, x.d, x.a.bits, x.b.bits, x.md,
    0⟩

/-- The fields of `OpXop8` in a word of 8 bytes. -/
def readXop8 (r : Raw) : OpXop8 where
  h := r.h
  op := r.op.extractLsb' 0 3
  sub := r.sub
  md := r.md
  d := r.dst
  a := r.a
  b := r.b

/-- `OpXop12` as a word of 12 bytes. -/
def rawXop12 (x : OpXop12) : Raw :=
  ⟨.b12, x.h, 31#5 ++ x.op, x.sub, x.d, x.a.bits, x.b.bits, x.md,
    Raw.hi12 x.c.bits x.imm⟩

/-- The fields of `OpXop12` in a word of 12 bytes. -/
def readXop12 (r : Raw) : OpXop12 where
  h := r.h
  op := r.op.extractLsb' 0 3
  sub := r.sub
  md := r.md
  d := r.dst
  a := r.a
  b := r.b
  c := r.c
  imm := r.imm

/-- `OpXop16` as a word of 16 bytes. -/
def rawXop16 (x : OpXop16) : Raw :=
  ⟨.b16, x.h, 31#5 ++ x.op, x.sub, x.d, x.a.bits, x.b.bits, x.md,
    x.imm⟩

/-- The fields of `OpXop16` in a word of 16 bytes. -/
def readXop16 (r : Raw) : OpXop16 where
  h := r.h
  op := r.op.extractLsb' 0 3
  sub := r.sub
  md := r.md
  d := r.dst
  a := r.a
  b := r.b
  imm := r.hi

/-! ## The opcode map (R153, R154) -/


/-- The instruction that OP, the length and (for `pkstat`) SUB name, with its fields read; `none` where OP is unassigned
or the length is not one of R154. -/
def Raw.guess (r : Raw) : Option Instr :=
  match r.op.toNat, r.len with
  | 0x00, .b8 => some (.nop8 (readH r))
  | 0x00, .b12 => some (.nop12 (readH12 r))
  | 0x01, .b12 => some (.bra12 (readBr12 r))
  | 0x01, .b16 => some (.bra16 (readBr16 r))
  | 0x02, .b8 => some (.brx (readA r))
  | 0x03, .b12 => some (.call12 (readCall12 r))
  | 0x03, .b16 => some (.call16 (readCall16 r))
  | 0x04, .b8 => some (.callx (readDA r))
  | 0x05, .b8 => some (.ret (readA r))
  | 0x06, .b8 => some (.exit (readH r))
  | 0x07, .b8 => some (.yield (readH r))
  | 0x08, .b8 => some (.fsw (readFsw r))
  | 0x09, .b8 => some (.bar (readBar r))
  | 0x0A, .b8 => some (.barv (readBar r))
  | 0x0B, .b8 => some (.barw (readBar r))
  | 0x0C, .b8 => some (.tkwait (readTk r))
  | 0x0D, .b8 => some (.tkpass (readTk r))
  | 0x0E, .b8 => some (.regacq (readRegacq r))
  | 0x0F, .b8 => some (.regrel (readH r))
  | 0x10, .b12 => some (.win (readWin r))
  | 0x11, .b8 => some (.wline (readAB r))
  | 0x12, .b8 => some (.launch (readDA r))
  | 0x13, .b8 => some (.qend (readH r))
  | 0x14, .b12 => some (.trap (readTrap r))
  | 0x15, .b8 => some (.rett (readH r))
  | 0x16, .b8 => some (.enq (readDA r))
  | 0x17, .b8 => some (.deq (readDeq r))
  | 0x18, .b8 => some (.emset (readEmset r))
  | 0x19, .b8 => some (.emget (readD r))
  | 0x1A, .b12 => some (.bpr12 (readBpr12 r))
  | 0x1A, .b16 => some (.bpr16 (readBpr16 r))
  | 0x1C, .b8 => some (.icinv (readIcinv r))
  | 0x1E, .b8 => some (.srd (readSrd r))
  | 0x1F, .b8 => some (.swr (readSwr r))
  | 0x20, .b8 => some (.iadd8 (readV8 r))
  | 0x20, .b12 => some (.iadd12 (readV12 r))
  | 0x21, .b8 => some (.isub8 (readV8 r))
  | 0x21, .b12 => some (.isub12 (readV12 r))
  | 0x22, .b8 => some (.imul8 (readV8 r))
  | 0x22, .b12 => some (.imul12 (readV12 r))
  | 0x23, .b12 => some (.imad (readV3 r))
  | 0x24, .b8 => some (.imulhi8 (readV8 r))
  | 0x24, .b12 => some (.imulhi12 (readV12 r))
  | 0x25, .b8 => some (.iabs (readV1 r))
  | 0x26, .b8 => some (.imin8 (readV8 r))
  | 0x26, .b12 => some (.imin12 (readV12 r))
  | 0x27, .b8 => some (.imax8 (readV8 r))
  | 0x27, .b12 => some (.imax12 (readV12 r))
  | 0x28, .b8 => some (.shl8 (readV8 r))
  | 0x28, .b12 => some (.shl12 (readV12 r))
  | 0x29, .b8 => some (.shr8 (readV8 r))
  | 0x29, .b12 => some (.shr12 (readV12 r))
  | 0x2A, .b8 => some (.rot8 (readV8 r))
  | 0x2A, .b12 => some (.rot12 (readV12 r))
  | 0x2B, .b8 => some (.and8 (readV8 r))
  | 0x2B, .b12 => some (.and12 (readV12 r))
  | 0x2C, .b8 => some (.or8 (readV8 r))
  | 0x2C, .b12 => some (.or12 (readV12 r))
  | 0x2D, .b8 => some (.xor8 (readV8 r))
  | 0x2D, .b12 => some (.xor12 (readV12 r))
  | 0x2E, .b8 => some (.vnot (readV1 r))
  | 0x2F, .b12 => some (.lop3 (readLop3 r))
  | 0x30, .b12 => some (.bfext (readBfext r))
  | 0x31, .b12 => some (.bfins (readBfins r))
  | 0x32, .b8 => some (.popc (readV1 r))
  | 0x33, .b8 => some (.clz (readV1 r))
  | 0x34, .b8 => some (.brev (readV1 r))
  | 0x35, .b8 => some (.icmp8 (readCmp8 r))
  | 0x35, .b12 => some (.icmp12 (readCmp12 r))
  | 0x36, .b12 => some (.sel (readSel r))
  | 0x37, .b8 => some (.mov (readV1 r))
  | 0x38, .b12 => some (.movi12 (readMovi12 r))
  | 0x38, .b16 => some (.movi16 (readMovi16 r))
  | 0x39, .b8 => some (.vote (readVote r))
  | 0x3A, .b8 => some (.lidx (readV8 r))
  | 0x3B, .b12 => some (.ascale (readAscale r))
  | 0x3C, .b12 => some (.rng (readRng r))
  | 0x3D, .b8 => some (.perm (readV8 r))
  | 0x3E, .b8 => some (.plop (readPlop r))
  | 0x3F, .b8 => some (.vtos (readVtos r))
  | 0x40, .b8 => some (.sadd8 (readS8 r))
  | 0x40, .b12 => some (.sadd12 (readS12 r))
  | 0x41, .b8 => some (.ssub8 (readS8 r))
  | 0x41, .b12 => some (.ssub12 (readS12 r))
  | 0x42, .b8 => some (.smul8 (readS8 r))
  | 0x42, .b12 => some (.smul12 (readS12 r))
  | 0x43, .b8 => some (.sshl8 (readS8 r))
  | 0x43, .b12 => some (.sshl12 (readS12 r))
  | 0x44, .b8 => some (.sshr8 (readS8 r))
  | 0x44, .b12 => some (.sshr12 (readS12 r))
  | 0x45, .b8 => some (.sand8 (readS8 r))
  | 0x45, .b12 => some (.sand12 (readS12 r))
  | 0x46, .b8 => some (.sor8 (readS8 r))
  | 0x46, .b12 => some (.sor12 (readS12 r))
  | 0x47, .b8 => some (.sxor8 (readS8 r))
  | 0x47, .b12 => some (.sxor12 (readS12 r))
  | 0x48, .b8 => some (.scmp8 (readCmp8 r))
  | 0x48, .b12 => some (.scmp12 (readCmp12 r))
  | 0x49, .b8 => some (.smov8 (readDA r))
  | 0x49, .b12 => some (.smov12 (readSmov12 r))
  | 0x49, .b16 => some (.smov16 (readSmov16 r))
  | 0x4A, .b8 => some (.smin8 (readS8 r))
  | 0x4A, .b12 => some (.smin12 (readS12 r))
  | 0x4B, .b8 => some (.smax8 (readS8 r))
  | 0x4B, .b12 => some (.smax12 (readS12 r))
  | 0x50, .b8 => some (.fadd (readF2 r))
  | 0x51, .b8 => some (.fsub (readF2 r))
  | 0x52, .b8 => some (.fmul (readF2 r))
  | 0x53, .b12 => some (.ffma (readF3 r))
  | 0x54, .b12 => some (.ffms (readF3 r))
  | 0x55, .b12 => some (.fnfma (readF3 r))
  | 0x56, .b8 => some (.fmin (readF2 r))
  | 0x57, .b8 => some (.fmax (readF2 r))
  | 0x58, .b8 => some (.fabs (readF1 r))
  | 0x59, .b8 => some (.fneg (readF1 r))
  | 0x5A, .b8 => some (.fcmp (readFcmp r))
  | 0x5B, .b8 => some (.fclass (readF1 r))
  | 0x5C, .b8 => some (.fscale (readF2 r))
  | 0x5D, .b8 => some (.fcpsgn (readF2 r))
  | 0x5E, .b8 => some (.frint (readF1 r))
  | 0x60, .b8 => some (.frcp (readF1 r))
  | 0x61, .b8 => some (.frsqrt (readF1 r))
  | 0x62, .b8 => some (.fsqrt (readF1 r))
  | 0x63, .b8 => some (.fexp2 (readF1 r))
  | 0x64, .b8 => some (.flog2 (readF1 r))
  | 0x65, .b8 => some (.fsin (readF1 r))
  | 0x66, .b8 => some (.fcos (readF1 r))
  | 0x67, .b8 => some (.fsum (readF1 r))
  | 0x68, .b8 => some (.flmax (readF1 r))
  | 0x69, .b8 => some (.flmin (readF1 r))
  | 0x90, .b12 => some (.cvt (readCvt r))
  | 0x91, .b12 => some (.pack (readPack r))
  | 0x92, .b12 => some (.unpack (readUnpack r))
  | 0x93, .b12 => some (.scapply (readScapply r))
  | 0x94, .b12 => some (.bpext (readBpext r))
  | 0x95, .b8 => some (.pk2 (readPk2 r))
  | 0x96, .b8 => some (.upk2 (readUpk2 r))
  | 0x97, .b12 => some (.scfind (readScfind r))
  | 0xB0, .b8 => some (.ld8 (readLd8 r))
  | 0xB0, .b12 => some (.ld12 (readLd12 r))
  | 0xB0, .b16 => some (.ld16 (readLd16 r))
  | 0xB1, .b8 => some (.st8 (readSt8 r))
  | 0xB1, .b12 => some (.st12 (readSt12 r))
  | 0xB1, .b16 => some (.st16 (readSt16 r))
  | 0xB2, .b8 => some (.lds8 (readLd8 r))
  | 0xB2, .b12 => some (.lds12 (readLd12 r))
  | 0xB2, .b16 => some (.lds16 (readLd16 r))
  | 0xB3, .b8 => some (.sts8 (readSt8 r))
  | 0xB3, .b12 => some (.sts12 (readSt12 r))
  | 0xB3, .b16 => some (.sts16 (readSt16 r))
  | 0xB4, .b8 => some (.ldr8 (readLd8 r))
  | 0xB4, .b12 => some (.ldr12 (readLd12 r))
  | 0xB4, .b16 => some (.ldr16 (readLd16 r))
  | 0xB5, .b8 => some (.str8 (readSt8 r))
  | 0xB5, .b12 => some (.str12 (readSt12 r))
  | 0xB5, .b16 => some (.str16 (readSt16 r))
  | 0xB6, .b8 => some (.ldc8 (readLd8 r))
  | 0xB6, .b12 => some (.ldc12 (readLd12 r))
  | 0xB6, .b16 => some (.ldc16 (readLd16 r))
  | 0xB7, .b8 => some (.ldblk8 (readLdblk8 r))
  | 0xB7, .b12 => some (.ldblk12 (readLdblk12 r))
  | 0xB7, .b16 => some (.ldblk16 (readLdblk16 r))
  | 0xB8, .b8 => some (.stblk8 (readStblk8 r))
  | 0xB8, .b12 => some (.stblk12 (readStblk12 r))
  | 0xB8, .b16 => some (.stblk16 (readStblk16 r))
  | 0xB9, .b8 => some (.ldsc8 (readLdsc8 r))
  | 0xB9, .b12 => some (.ldsc12 (readLdsc12 r))
  | 0xB9, .b16 => some (.ldsc16 (readLdsc16 r))
  | 0xBA, .b8 => some (.stsc8 (readSt8 r))
  | 0xBA, .b12 => some (.stsc12 (readStsc12 r))
  | 0xBA, .b16 => some (.stsc16 (readStsc16 r))
  | 0xBB, .b12 => some (.ldacc (readLdacc r))
  | 0xBC, .b12 => some (.stacc (readStacc r))
  | 0xBD, .b16 => some (.copy (readCopy r))
  | 0xBE, .b8 => some (.publish (readAB r))
  | 0xBF, .b8 => some (.vseal (readA r))
  | 0xC0, .b8 => some (.vunseal (readA r))
  | 0xC1, .b8 => some (.flush8 (readA r))
  | 0xC1, .b12 => some (.flush12 (readLines12 r))
  | 0xC2, .b8 => some (.inval8 (readA r))
  | 0xC2, .b12 => some (.inval12 (readLines12 r))
  | 0xC3, .b8 => some (.pref8 (readPref8 r))
  | 0xC3, .b12 => some (.pref12 (readPref12 r))
  | 0xD0, .b8 => some (.atom8 (readAtom8 AtomOp.ofCode r))
  | 0xD0, .b12 => some (.atom12 (readAtom12 AtomOp.ofCode r))
  | 0xD0, .b16 => some (.atom16 (readAtom16 AtomOp.ofCode r))
  | 0xD1, .b12 => some (.atomcas12 (readAtom12 CasOp.ofCode r))
  | 0xD1, .b16 => some (.atomcas16 (readAtom16 CasOp.ofCode r))
  | 0xD2, .b8 => some (.atomf8 (readAtom8 AtomfOp.ofCode r))
  | 0xD2, .b12 => some (.atomf12 (readAtom12 AtomfOp.ofCode r))
  | 0xD2, .b16 => some (.atomf16 (readAtom16 AtomfOp.ofCode r))
  | 0xD3, .b8 => some (.red8 (readRed8 AtomOp.ofCode r))
  | 0xD3, .b12 => some (.red12 (readRed12 AtomOp.ofCode r))
  | 0xD3, .b16 => some (.red16 (readRed16 AtomOp.ofCode r))
  | 0xD4, .b8 => some (.redf8 (readRed8 AtomfOp.ofCode r))
  | 0xD4, .b12 => some (.redf12 (readRed12 AtomfOp.ofCode r))
  | 0xD4, .b16 => some (.redf16 (readRed16 AtomfOp.ofCode r))
  | 0xD5, .b8 => some (.fence (readFence r))
  | 0xE0, .b16 => some (.mma (readMma r))
  | 0xE1, .b16 => some (.mmac (readMmac r))
  | 0xE2, .b16 => some (.mmap (readMmap r))
  | 0xE3, .b16 => some (.mmas (readMmas r))
  | 0xE4, .b8 => some (.acz (readAcz r))
  | 0xE5, .b12 => some (.acscl (readAcscl r))
  | 0xE6, .b12 => some (.accvt (readAccvt r))
  | 0xE7, .b12 => some (.acrd (readAcrd r))
  | 0xE8, .b12 => some (.acwr (readAcwr r))
  | 0xF0, .b12 => some (.frcdec (readFrcdec r))
  | 0xF1, .b12 => some (.frcenc (readFrcenc r))
  | 0xF2, .b8 => some (.frchdr (readFrchdr r))
  | 0xF3, .b12 => some (.expload (readExpload r))
  | 0xF4, .b8 => some (if r.sub = 0 then .pkstatLine (readPkLine r) else .pkstatBind (readPkBind r))
  | 0xF8, .b8 => some (.xop8 (readXop8 r))
  | 0xF8, .b12 => some (.xop12 (readXop12 r))
  | 0xF8, .b16 => some (.xop16 (readXop16 r))
  | 0xF9, .b8 => some (.xop8 (readXop8 r))
  | 0xF9, .b12 => some (.xop12 (readXop12 r))
  | 0xF9, .b16 => some (.xop16 (readXop16 r))
  | 0xFA, .b8 => some (.xop8 (readXop8 r))
  | 0xFA, .b12 => some (.xop12 (readXop12 r))
  | 0xFA, .b16 => some (.xop16 (readXop16 r))
  | 0xFB, .b8 => some (.xop8 (readXop8 r))
  | 0xFB, .b12 => some (.xop12 (readXop12 r))
  | 0xFB, .b16 => some (.xop16 (readXop16 r))
  | 0xFC, .b8 => some (.xop8 (readXop8 r))
  | 0xFC, .b12 => some (.xop12 (readXop12 r))
  | 0xFC, .b16 => some (.xop16 (readXop16 r))
  | 0xFD, .b8 => some (.xop8 (readXop8 r))
  | 0xFD, .b12 => some (.xop12 (readXop12 r))
  | 0xFD, .b16 => some (.xop16 (readXop16 r))
  | 0xFE, .b8 => some (.xop8 (readXop8 r))
  | 0xFE, .b12 => some (.xop12 (readXop12 r))
  | 0xFE, .b16 => some (.xop16 (readXop16 r))
  | 0xFF, .b8 => some (.xop8 (readXop8 r))
  | 0xFF, .b12 => some (.xop12 (readXop12 r))
  | 0xFF, .b16 => some (.xop16 (readXop16 r))
  | _, _ => none

/-- The word of an instruction as fields; events have none. -/
def Instr.toRaw : Instr → Option Raw
  | .nop8 x => some (rawH 0x00 x)
  | .nop12 x => some (rawH12 0x00 x)
  | .bra12 x => some (rawBr12 0x01 x)
  | .bra16 x => some (rawBr16 0x01 x)
  | .brx x => some (rawA 0x02 x)
  | .call12 x => some (rawCall12 0x03 x)
  | .call16 x => some (rawCall16 0x03 x)
  | .callx x => some (rawDA 0x04 x)
  | .ret x => some (rawA 0x05 x)
  | .exit x => some (rawH 0x06 x)
  | .yield x => some (rawH 0x07 x)
  | .fsw x => some (rawFsw 0x08 x)
  | .bar x => some (rawBar 0x09 x)
  | .barv x => some (rawBar 0x0A x)
  | .barw x => some (rawBar 0x0B x)
  | .tkwait x => some (rawTk 0x0C x)
  | .tkpass x => some (rawTk 0x0D x)
  | .regacq x => some (rawRegacq 0x0E x)
  | .regrel x => some (rawH 0x0F x)
  | .win x => some (rawWin 0x10 x)
  | .wline x => some (rawAB 0x11 x)
  | .launch x => some (rawDA 0x12 x)
  | .qend x => some (rawH 0x13 x)
  | .trap x => some (rawTrap 0x14 x)
  | .rett x => some (rawH 0x15 x)
  | .enq x => some (rawDA 0x16 x)
  | .deq x => some (rawDeq 0x17 x)
  | .emset x => some (rawEmset 0x18 x)
  | .emget x => some (rawD 0x19 x)
  | .bpr12 x => some (rawBpr12 0x1A x)
  | .bpr16 x => some (rawBpr16 0x1A x)
  | .icinv x => some (rawIcinv 0x1C x)
  | .srd x => some (rawSrd 0x1E x)
  | .swr x => some (rawSwr 0x1F x)
  | .iadd8 x => some (rawV8 0x20 x)
  | .iadd12 x => some (rawV12 0x20 x)
  | .isub8 x => some (rawV8 0x21 x)
  | .isub12 x => some (rawV12 0x21 x)
  | .imul8 x => some (rawV8 0x22 x)
  | .imul12 x => some (rawV12 0x22 x)
  | .imad x => some (rawV3 0x23 x)
  | .imulhi8 x => some (rawV8 0x24 x)
  | .imulhi12 x => some (rawV12 0x24 x)
  | .iabs x => some (rawV1 0x25 x)
  | .imin8 x => some (rawV8 0x26 x)
  | .imin12 x => some (rawV12 0x26 x)
  | .imax8 x => some (rawV8 0x27 x)
  | .imax12 x => some (rawV12 0x27 x)
  | .shl8 x => some (rawV8 0x28 x)
  | .shl12 x => some (rawV12 0x28 x)
  | .shr8 x => some (rawV8 0x29 x)
  | .shr12 x => some (rawV12 0x29 x)
  | .rot8 x => some (rawV8 0x2A x)
  | .rot12 x => some (rawV12 0x2A x)
  | .and8 x => some (rawV8 0x2B x)
  | .and12 x => some (rawV12 0x2B x)
  | .or8 x => some (rawV8 0x2C x)
  | .or12 x => some (rawV12 0x2C x)
  | .xor8 x => some (rawV8 0x2D x)
  | .xor12 x => some (rawV12 0x2D x)
  | .vnot x => some (rawV1 0x2E x)
  | .lop3 x => some (rawLop3 0x2F x)
  | .bfext x => some (rawBfext 0x30 x)
  | .bfins x => some (rawBfins 0x31 x)
  | .popc x => some (rawV1 0x32 x)
  | .clz x => some (rawV1 0x33 x)
  | .brev x => some (rawV1 0x34 x)
  | .icmp8 x => some (rawCmp8 0x35 x)
  | .icmp12 x => some (rawCmp12 0x35 x)
  | .sel x => some (rawSel 0x36 x)
  | .mov x => some (rawV1 0x37 x)
  | .movi12 x => some (rawMovi12 0x38 x)
  | .movi16 x => some (rawMovi16 0x38 x)
  | .vote x => some (rawVote 0x39 x)
  | .lidx x => some (rawV8 0x3A x)
  | .ascale x => some (rawAscale 0x3B x)
  | .rng x => some (rawRng 0x3C x)
  | .perm x => some (rawV8 0x3D x)
  | .plop x => some (rawPlop 0x3E x)
  | .vtos x => some (rawVtos 0x3F x)
  | .sadd8 x => some (rawS8 0x40 x)
  | .sadd12 x => some (rawS12 0x40 x)
  | .ssub8 x => some (rawS8 0x41 x)
  | .ssub12 x => some (rawS12 0x41 x)
  | .smul8 x => some (rawS8 0x42 x)
  | .smul12 x => some (rawS12 0x42 x)
  | .sshl8 x => some (rawS8 0x43 x)
  | .sshl12 x => some (rawS12 0x43 x)
  | .sshr8 x => some (rawS8 0x44 x)
  | .sshr12 x => some (rawS12 0x44 x)
  | .sand8 x => some (rawS8 0x45 x)
  | .sand12 x => some (rawS12 0x45 x)
  | .sor8 x => some (rawS8 0x46 x)
  | .sor12 x => some (rawS12 0x46 x)
  | .sxor8 x => some (rawS8 0x47 x)
  | .sxor12 x => some (rawS12 0x47 x)
  | .scmp8 x => some (rawCmp8 0x48 x)
  | .scmp12 x => some (rawCmp12 0x48 x)
  | .smov8 x => some (rawDA 0x49 x)
  | .smov12 x => some (rawSmov12 0x49 x)
  | .smov16 x => some (rawSmov16 0x49 x)
  | .smin8 x => some (rawS8 0x4A x)
  | .smin12 x => some (rawS12 0x4A x)
  | .smax8 x => some (rawS8 0x4B x)
  | .smax12 x => some (rawS12 0x4B x)
  | .fadd x => some (rawF2 0x50 x)
  | .fsub x => some (rawF2 0x51 x)
  | .fmul x => some (rawF2 0x52 x)
  | .ffma x => some (rawF3 0x53 x)
  | .ffms x => some (rawF3 0x54 x)
  | .fnfma x => some (rawF3 0x55 x)
  | .fmin x => some (rawF2 0x56 x)
  | .fmax x => some (rawF2 0x57 x)
  | .fabs x => some (rawF1 0x58 x)
  | .fneg x => some (rawF1 0x59 x)
  | .fcmp x => some (rawFcmp 0x5A x)
  | .fclass x => some (rawF1 0x5B x)
  | .fscale x => some (rawF2 0x5C x)
  | .fcpsgn x => some (rawF2 0x5D x)
  | .frint x => some (rawF1 0x5E x)
  | .frcp x => some (rawF1 0x60 x)
  | .frsqrt x => some (rawF1 0x61 x)
  | .fsqrt x => some (rawF1 0x62 x)
  | .fexp2 x => some (rawF1 0x63 x)
  | .flog2 x => some (rawF1 0x64 x)
  | .fsin x => some (rawF1 0x65 x)
  | .fcos x => some (rawF1 0x66 x)
  | .fsum x => some (rawF1 0x67 x)
  | .flmax x => some (rawF1 0x68 x)
  | .flmin x => some (rawF1 0x69 x)
  | .cvt x => some (rawCvt 0x90 x)
  | .pack x => some (rawPack 0x91 x)
  | .unpack x => some (rawUnpack 0x92 x)
  | .scapply x => some (rawScapply 0x93 x)
  | .bpext x => some (rawBpext 0x94 x)
  | .pk2 x => some (rawPk2 0x95 x)
  | .upk2 x => some (rawUpk2 0x96 x)
  | .scfind x => some (rawScfind 0x97 x)
  | .ld8 x => some (rawLd8 0xB0 x)
  | .ld12 x => some (rawLd12 0xB0 x)
  | .ld16 x => some (rawLd16 0xB0 x)
  | .st8 x => some (rawSt8 0xB1 x)
  | .st12 x => some (rawSt12 0xB1 x)
  | .st16 x => some (rawSt16 0xB1 x)
  | .lds8 x => some (rawLd8 0xB2 x)
  | .lds12 x => some (rawLd12 0xB2 x)
  | .lds16 x => some (rawLd16 0xB2 x)
  | .sts8 x => some (rawSt8 0xB3 x)
  | .sts12 x => some (rawSt12 0xB3 x)
  | .sts16 x => some (rawSt16 0xB3 x)
  | .ldr8 x => some (rawLd8 0xB4 x)
  | .ldr12 x => some (rawLd12 0xB4 x)
  | .ldr16 x => some (rawLd16 0xB4 x)
  | .str8 x => some (rawSt8 0xB5 x)
  | .str12 x => some (rawSt12 0xB5 x)
  | .str16 x => some (rawSt16 0xB5 x)
  | .ldc8 x => some (rawLd8 0xB6 x)
  | .ldc12 x => some (rawLd12 0xB6 x)
  | .ldc16 x => some (rawLd16 0xB6 x)
  | .ldblk8 x => some (rawLdblk8 0xB7 x)
  | .ldblk12 x => some (rawLdblk12 0xB7 x)
  | .ldblk16 x => some (rawLdblk16 0xB7 x)
  | .stblk8 x => some (rawStblk8 0xB8 x)
  | .stblk12 x => some (rawStblk12 0xB8 x)
  | .stblk16 x => some (rawStblk16 0xB8 x)
  | .ldsc8 x => some (rawLdsc8 0xB9 x)
  | .ldsc12 x => some (rawLdsc12 0xB9 x)
  | .ldsc16 x => some (rawLdsc16 0xB9 x)
  | .stsc8 x => some (rawSt8 0xBA x)
  | .stsc12 x => some (rawStsc12 0xBA x)
  | .stsc16 x => some (rawStsc16 0xBA x)
  | .ldacc x => some (rawLdacc 0xBB x)
  | .stacc x => some (rawStacc 0xBC x)
  | .copy x => some (rawCopy 0xBD x)
  | .publish x => some (rawAB 0xBE x)
  | .vseal x => some (rawA 0xBF x)
  | .vunseal x => some (rawA 0xC0 x)
  | .flush8 x => some (rawA 0xC1 x)
  | .flush12 x => some (rawLines12 0xC1 x)
  | .inval8 x => some (rawA 0xC2 x)
  | .inval12 x => some (rawLines12 0xC2 x)
  | .pref8 x => some (rawPref8 0xC3 x)
  | .pref12 x => some (rawPref12 0xC3 x)
  | .atom8 x => some (rawAtom8 AtomOp.code 0xD0 x)
  | .atom12 x => some (rawAtom12 AtomOp.code 0xD0 x)
  | .atom16 x => some (rawAtom16 AtomOp.code 0xD0 x)
  | .atomcas12 x => some (rawAtom12 CasOp.code 0xD1 x)
  | .atomcas16 x => some (rawAtom16 CasOp.code 0xD1 x)
  | .atomf8 x => some (rawAtom8 AtomfOp.code 0xD2 x)
  | .atomf12 x => some (rawAtom12 AtomfOp.code 0xD2 x)
  | .atomf16 x => some (rawAtom16 AtomfOp.code 0xD2 x)
  | .red8 x => some (rawRed8 AtomOp.code 0xD3 x)
  | .red12 x => some (rawRed12 AtomOp.code 0xD3 x)
  | .red16 x => some (rawRed16 AtomOp.code 0xD3 x)
  | .redf8 x => some (rawRed8 AtomfOp.code 0xD4 x)
  | .redf12 x => some (rawRed12 AtomfOp.code 0xD4 x)
  | .redf16 x => some (rawRed16 AtomfOp.code 0xD4 x)
  | .fence x => some (rawFence 0xD5 x)
  | .mma x => some (rawMma 0xE0 x)
  | .mmac x => some (rawMmac 0xE1 x)
  | .mmap x => some (rawMmap 0xE2 x)
  | .mmas x => some (rawMmas 0xE3 x)
  | .acz x => some (rawAcz 0xE4 x)
  | .acscl x => some (rawAcscl 0xE5 x)
  | .accvt x => some (rawAccvt 0xE6 x)
  | .acrd x => some (rawAcrd 0xE7 x)
  | .acwr x => some (rawAcwr 0xE8 x)
  | .frcdec x => some (rawFrcdec 0xF0 x)
  | .frcenc x => some (rawFrcenc 0xF1 x)
  | .frchdr x => some (rawFrchdr 0xF2 x)
  | .expload x => some (rawExpload 0xF3 x)
  | .pkstatLine x => some (rawPkLine 0xF4 x)
  | .pkstatBind x => some (rawPkBind 0xF4 x)
  | .xop8 x => some (rawXop8 x)
  | .xop12 x => some (rawXop12 x)
  | .xop16 x => some (rawXop16 x)
  | _ => none

/-! ## The decoder -/

/-- Why a word is refused: the REASONs of R156 that the word alone decides. -/
inductive Reason where
  /-- L = 0b11 (R135): the LENGTH trap. -/
  | noLength
  /-- Major opcode unassigned. -/
  | opcode
  /-- Length not permitted for the opcode. -/
  | length
  /-- Reserved SUB value. -/
  | sub
  /-- Reserved or meaningless MOD value. -/
  | mod
  /-- Nonzero unused field or reserved field value. -/
  | field
  /-- Special-register number or access refused. -/
  | special
  /-- Fewer bytes than the word has. -/
  | short
  deriving DecidableEq, Repr

/-- The assigned major opcodes (R153), 0xF8 to 0xFF among them (R159). -/
def assigned (op : BitVec 8) : Bool :=
  let o := op.toNat
  (o ≤ 0x1A) || o == 0x1C || o == 0x1E || o == 0x1F || (0x20 ≤ o && o ≤ 0x4B) || (0x50 ≤ o && o ≤ 0x5E) ||
    (0x60 ≤ o && o ≤ 0x69) || (0x90 ≤ o && o ≤ 0x97) || (0xB0 ≤ o && o ≤ 0xC3) || (0xD0 ≤ o && o ≤ 0xD5) ||
    (0xE0 ≤ o && o ≤ 0xE8) || (0xF0 ≤ o && o ≤ 0xF4) || 0xF8 ≤ o

/-- Check 5 of R157 in its order: OPCODE, LENGTH, SUB, MOD, FIELD, SPECIAL. The read instruction is written again:
a difference in SUB, in MOD or elsewhere is a reserved value there or an unused field that is not zero. -/
def decodeRaw (r : Raw) : Except Reason Instr :=
  match r.guess with
  | none => .error (if assigned r.op then .length else .opcode)
  | some i =>
    match i.toRaw with
    | none => .error .opcode
    | some e =>
      if e.sub ≠ r.sub ∨ i.subOk = false then .error .sub
      else if e.md ≠ r.md ∨ i.modOk = false then .error .mod
      else if e ≠ r ∨ i.fieldOk = false then .error .field
      else if i.specialOk = false then .error .special
      else .ok i

/-- The fields of the word in the low bits, whose length its L gives (R134). -/
def Raw.ofBits (w : BitVec 128) : Option Raw := (Len.ofCode (w.extractLsb' 0 2)).map fun l => Raw.ofBitsLen l w

/-- The instruction of the word in the low bits. -/
def decodeBits (w : BitVec 128) : Except Reason Instr :=
  match Raw.ofBits w with
  | none => .error .noLength
  | some r => decodeRaw r

/-- Bytes as a little-endian number (R2). -/
def leNat : List Byte → Nat
  | [] => 0
  | b :: bs => b.toNat + 256 * leNat bs

/-- The low `n` bytes of a number, lowest first (R2). -/
def leBytes : Nat → Nat → List Byte
  | 0, _ => []
  | n + 1, v => BitVec.ofNat 8 v :: leBytes n (v / 256)

/-- The instruction at the head of a list of bytes, with the bytes that follow it. -/
def decode (bs : List Byte) : Except Reason (Instr × List Byte) :=
  match bs with
  | [] => .error .short
  | b :: _ =>
    match Len.ofCode (b.extractLsb' 0 2) with
    | none => .error .noLength
    | some l =>
      if bs.length < l.bytes then .error .short
      else (decodeRaw (Raw.ofBitsLen l (BitVec.ofNat 128 (leNat (bs.take l.bytes))))).map fun i => (i, bs.drop l.bytes)

/-- The bytes of an instruction's word; none for an event. -/
def encode (i : Instr) : List Byte :=
  match i.toRaw with
  | none => []
  | some r => leBytes r.len.bytes r.toBits.toNat

/-- The instruction that the decoder reads from the low `nbits` bits of `w`, as spec/opcode_table.json numbers them; the
device stores words little-endian (R132), so these are the word's own bit numbers. -/
def decodeTableWord (nbits w : Nat) : Option Instr :=
  match decode (leBytes 16 (w % 2 ^ nbits)) with
  | .ok (i, _) => some i
  | .error _ => none

end Sys2Proof
end

