-- ==== Sys2Proof/Config.lean ====
section
/-! DEFINITION. What the manual leaves to an implementation or gives no value for. Every `opaque` constant here is a free
value: nothing in Lean can evaluate it, and a claim that holds of the model holds whatever it is. -/

namespace Sys2Proof

/-- The result a special function delivers inside the error bound of R203 (assumption 7). The arguments are the opcode,
whether the format is FP64, and the operand's bits. -/
opaque Config.special : BitVec 8 → Bool → BitVec 64 → BitVec 64

/-- A byte read from memory of another device or another partition's owner, whose contents this machine does not hold
(assumption 8). The arguments are a count of free values drawn and the physical address. -/
opaque Config.foreignByte : Nat → Nat → BitVec 8

/-- The byte an address reads as after the key of its stack was discarded (R443): unrelated to the old data
(assumption 9). The arguments are the stack's key epoch and the physical address without DEVNUM. -/
opaque Config.keyByte : Nat → Nat → BitVec 8

/-- Whether a firmware image passes the signature check of R444 (assumption 9). The arguments are a count of free values
drawn and the image's physical address, 0 for the stored image. -/
opaque Config.firmwareOk : Nat → Nat → Bool

/-- A byte of the digest of a firmware image (R445, assumption 8). The arguments are the image and the byte's place. -/
opaque Config.imageByte : Nat → Nat → BitVec 8

/-- A byte of an attestation signature (R445, assumption 8). -/
opaque Config.attestByte : Nat → Nat → BitVec 8

/-- A byte of the device's own part of the block state record (R419, assumption 10). -/
opaque Config.saveRecordByte : Nat → Nat → BitVec 8

/-- A decoded value whose magnitude is beyond the largest finite number, where R281 states no bits; it is taken where it lies
within the bound of R283 (assumption 11). The arguments are whether the format is FP64 and the exact value's sign, significand and exponent. -/
opaque Config.decodeBeyond : Bool → Bool → Nat → Int → BitVec 64

/-- The element that a symbol beyond the exponent values stands for (R299, R301, assumption 64). The arguments are the format's code,
the symbol and the raw value. -/
opaque Config.symbolElement : BitVec 4 → Nat → Nat → BitVec 16

/-- The total T of a flow-controlled link, configured at bring-up (R422). The argument is the link's number. -/
opaque Config.permits : Nat → Nat

/-- Metadata records that a memory controller's cache holds (R20, R302; assumption 58). -/
opaque Config.metaRecords : Nat

/-- Offset in its first stack at which a partition's mailbox window lies (R238 gives its size of 256 MiB and no place;
assumption 6). -/
def Config.mailboxOffset : Nat := 0xB0000000

/-- Size of a mailbox window (R238): 256 MiB. -/
def Config.mailboxSize : Nat := 0x10000000

end Sys2Proof
end

