-- ==== Sys2Proof/Machine/State.lean ====
section
/-! DEFINITION. The state of the Plyndin 940 as plain data: every register, memory, queue and engine the manual names,
and the four fields that are the model's own (`cur`, `ahead`, `agenda`, `freeCtr`; `outbox` collects what leaves the
device). Each field's docstring names its rule. INVENTORY.md lists the same state with its reset values. -/

namespace Sys2Proof.Machine

/-- Why the machine stops outside the manual. -/
inductive Fault where
  /-- `exec` of an instruction word with no resident fibre selected to issue it. Raised by every word's meaning; the
  device issues words only from fibres. Safe: the machine stops where the device has no step. -/
  | noFibre
  deriving DecidableEq, Repr

/-- Why the model refuses a step. -/
inductive Refusal where
  /-- The instruction has no meaning yet. Raised by the arms of `exec` alone. Safe: nothing is claimed. -/
  | notModelled (mnemonic : String)
  deriving DecidableEq, Repr

/-! ## Locations, pages and accesses -/

/-- Page kinds with their kind parameters (R230, R231). -/
inductive PageKind where
  | normal | strong | sealed
  | comm (fmt : Fmt) (op : BitVec 3)
  | coded (dim : BitVec 2) (f64 : Bool) (rate : BitVec 7)
  | hostCoh | hostNon
  deriving DecidableEq, Repr

/-- A leaf of a page table (R230): frame, size in bits (16, 21 or 30), permissions, kind. -/
structure Leaf where
  base : Nat
  bits : Nat
  w    : Bool
  x    : Bool
  kind : PageKind
  deriving DecidableEq, Repr

/-- A cached translation (R242). -/
structure TlbEntry where
  asid  : Nat
  vbase : Nat
  leaf  : Leaf
  deriving DecidableEq, Repr

/-- A byte location: device memory by physical address, or a core's scratchpad by offset (R343). -/
inductive Loc where
  | dev (pa : Nat)
  | scr (core off : Nat)
  deriving DecidableEq, Repr

/-- A part of one lane's element on one page: `off` is its place in the element (R234, R250); on a Coded page `loc` is
the block's address and `idx` the position in the block (R276). -/
structure Part where
  off  : Nat
  len  : Nat
  loc  : Loc
  kind : PageKind
  idx  : Nat
  deriving DecidableEq, Repr

/-- One element accessed by one lane. -/
structure LaneAcc where
  lane  : Nat
  ea    : Word
  parts : List Part
  deriving DecidableEq, Repr

/-- What an atomic update does (R268), and of what width. -/
inductive UpdOp where
  | int (o : AtomOp)
  | flt (o : AtomfOp)
  deriving DecidableEq, Repr

/-- Where a loaded or returned value goes. -/
inductive Dest where
  /-- Vector register, or a pair of them; `wd` names a window register; elements of 64 bits fill a pair. -/
  | vec (wd : Bool) (n : Nat) (pair : Bool)
  /-- `ldblk`: element `i` of a lane goes to register `n + i`. -/
  | blk (wd : Bool) (n : Nat)
  /-- Scalar register. -/
  | sca (n : Nat)
  deriving DecidableEq, Repr

/-- The operands a matrix command latches at issue (R325, R336). -/
inductive MatForm where
  | mma (a b : Fmt)
  | mmas (a b : Fmt)
  | mmap (planes : Nat)
  | mmac
  deriving DecidableEq, Repr

/-- A place of the core's matrix unit (R326, R327, R329). -/
structure MatCmd where
  id     : Nat
  form   : MatForm
  d      : Nat
  c      : Nat
  cz     : Bool
  fibre  : FibreId
  launch : Word
  stage  : Nat
  block  : Nat
  /-- Row offsets in the block's scratchpad allocation. -/
  rows   : List Nat
  /-- The B fragment as bytes. -/
  bfrag  : List Byte
  /-- The scale images of `mmas`. -/
  scales : List Byte
  /-- The gathered A rows; `none` while a follow-on waits for its copy. -/
  arows  : Option (List (List Byte))
  /-- The copy a follow-on is bound to. -/
  waits  : Option Nat
  /-- The chunk that met a soft error and is run again (R330). -/
  redo   : Option Nat
  deriving DecidableEq, Repr

/-- Why a copy stopped, for the fault of R262. -/
structure CopyFault where
  cause : BitVec 8
  sub   : Nat
  addr  : Word
  done  : Nat
  pc    : Word
  inst  : BitVec 128
  id    : Nat
  /-- `rett` resumes the copy (TRANSLATION) or leaves it abandoned. -/
  resumes : Bool
  deriving DecidableEq, Repr

/-- A table loaded in the expander: format, kind and codes; `none` in `Slot.table` is INVALID (R311). -/
structure XTable where
  fmt   : Fmt
  book  : Bool
  id    : BitVec 16
  /-- Exponent table: (symbol, length, code). Codebook: (index, width, value). -/
  codes : List (Nat × Nat × Nat)
  iw    : Nat
  deriving DecidableEq, Repr

/-- A released copy command, or a released `expload` (R256 to R262, R311, R312). -/
structure CopyCmd where
  id      : Nat
  fibre   : FibreId
  launch  : Word
  stage   : Nat
  block   : Nat
  pc      : Word
  inst    : BitVec 128
  src     : Word
  dst     : Word
  rows    : Nat
  rowBytes : Nat
  sstride : Int
  dstride : Int
  /-- Row indices of SD when GATHER = 1. -/
  index   : Option (List Int)
  follow  : Bool
  evt     : Option (BitVec 16)
  /-- Block barrier and the phase the copy registered on. -/
  bar     : Option (Nat × Nat)
  expand  : Bool
  /-- The hint of its source reads (R256). -/
  hint    : Hint
  /-- `some id`: this is an `expload` expecting table `id`. -/
  table   : Option (BitVec 16)
  /-- Bytes written so far. -/
  done    : Nat
  /-- Bytes read, with their poison, that are not written yet (R259, R343). -/
  buf     : List (Byte × Bool)
  /-- Bytes of the stream of the current row, or of the table, that have been read, with their poison (R311, R312). -/
  strm    : List (Byte × Bool)
  /-- The table that an expanding copy was taken with, once it is taken (R312); the inner `none` is no table or INVALID. -/
  capt    : Option (Option XTable)
  /-- Stopped at a fault; waits for `rett`. -/
  stopped : Bool
  /-- Landed: its last byte is written (R259). -/
  landed  : Bool
  deriving DecidableEq, Repr

/-! ## Fibres -/

/-- The trap registers (R119, R451). -/
structure TRegs where
  tcause : BitVec 32
  tpc    : Word
  tmask  : BitVec 32
  tinst  : BitVec 128
  tf0    : Word
  tf1    : Word
  tf2    : Word
  tf3    : Word
  deriving DecidableEq, Repr

/-- Registers that pending bits, undo entries and poison name (R148). -/
inductive RegId where
  | v (n : Nat) | w (n : Nat) | s (n : Nat) | p (n : Nat) | em | xflags
  deriving DecidableEq, Repr

/-- One register write of a result: lanes in `mask` of a vector register, a scalar, or bits of a predicate. -/
inductive RegWrite where
  | v (n : Nat) (mask : BitVec 32) (val : VReg)
  | w (n : Nat) (mask : BitVec 32) (val : VReg)
  | s (n : Nat) (val : Word)
  | p (n : Nat) (mask : BitVec 32) (val : BitVec 32)
  deriving DecidableEq, Repr

/-- A trap that waits for entry (R399, R450): the registers it will write and where it goes. -/
structure Trap where
  cause : BitVec 8
  /-- Routed to the system handler (R397). -/
  sys   : Bool
  regs  : TRegs
  /-- Program order of the instruction that raised it. -/
  seq   : Nat
  deriving DecidableEq, Repr

/-- An outstanding variable-latency result (R148). -/
structure Pend where
  seq    : Nat
  marks  : List RegId
  /-- The writes; `none` while the access that supplies them has not been read. -/
  writes : Option (List RegWrite)
  /-- Flags set with the write (R70). -/
  flags  : BitVec 32
  /-- The arithmetic trap the write raises (R72), and whether the instruction is of a class that may raise one (R151). -/
  trap   : Option Trap
  arith  : Bool
  deriving DecidableEq, Repr

/-- Waiting and running states of R111. FROZEN is a trap level above 0; a fibre whose block was saved has none. -/
inductive FStatus where
  | ready | current | parked
  /-- A barrier (level, number, phase); `arrive` when an arrival follows the wait and `again` when `bar` then waits. -/
  | barrier (lvl : BarLevel) (num phase : Nat) (arrive again : Bool)
  | ticket (t : Nat)
  | acquire
  | line (pa : Nat)
  | commit
  | exited
  | saved
  deriving DecidableEq, Repr

/-- Where a copy fault's `rett` goes on (R262): the pc the fibre stood at, the copy that resumes, if any, and the copy that
its next instruction is bound to (R329). -/
structure Resume where
  pc     : Word
  copy   : Option Nat
  follow : Option Nat
  deriving DecidableEq, Repr

/-- The registers a checkpoint restores (R371), with the fibre's register runs. -/
structure FRegs where
  /-- Program counter (R110). -/
  pc     : Word
  /-- Execution mask (R117). -/
  em     : BitVec 32
  /-- Vector registers `v0` to `v127` (R117). -/
  v      : Vector VReg 128
  /-- Scalar registers (R117). -/
  s      : Vector Word 32
  /-- Predicates; element 0 is never read or written (R117). -/
  p      : Vector (BitVec 32) 8
  /-- Extended registers held, 0 to 96, and the first pool unit of their run (R96, R120). -/
  ext    : Nat
  unit0  : Nat
  /-- `%xflags` (R70) and `%xen` (R71). -/
  xflags : BitVec 32
  xen    : BitVec 32
  /-- `%lclock` (R380). -/
  lclock : Word
  /-- Trap registers, trap level and *back* (R399, R451), and the state the fibre was frozen in, restored by the `rett`
  that returns to level 0 (R262, R400). They change while accesses are unfinished (`rett`), so a checkpoint holds them. -/
  t      : TRegs
  level  : Nat
  back   : Nat
  frozen : FStatus
  /-- One entry for each trap entered and not returned from, the latest first; `none` where `rett` follows R397. -/
  resume : List (Option Resume)
  deriving DecidableEq, Repr

/-- A device operation with its operands captured at issue: performed at once, as an unfinished access (R370), or held
with its quantum (R383, R384). -/
inductive DevOp where
  | load (accs : List LaneAcc) (size : Nat) (signed : Bool) (dest : Dest) (hint : Hint)
  | store (accs : List LaneAcc) (size : Nat) (data : List Nat)
  | atom (accs : List LaneAcc) (size : Nat) (op : UpdOp) (vals : List (BitVec 64)) (dest : Dest)
  | cas (accs : List LaneAcc) (size : Nat) (xchg : Bool) (vals cmps : List (BitVec 64)) (dest : Dest)
  | red (accs : List LaneAcc) (size : Nat) (op : UpdOp) (vals : List (BitVec 64)) (lclock : Word)
  | ldacc (tile : Nat) (wide : Bool) (accs : List LaneAcc) (hint : Hint)
  | stacc (tile : Nat) (wide : Bool) (accs : List LaneAcc)
  | copy (c : CopyCmd)
  | publish (pages : List Nat)
  | vseal (page : Nat) (len : Nat) | vunseal (page : Nat) (len : Nat)
  | flush (lines : List (Nat × PageKind)) | inval (lines : List (Nat × PageKind))
  | fence (scope : Scope)
  | mat (c : MatCmd) | acz (d : Nat) | acscl (wide : Bool) (d c : Nat) (s : BitVec 64)
  | accvt (narrow : Bool) (d c : Nat)
  | acwr (wide : Bool) (d : Nat) (half : Bool) (row : Nat) (mask : BitVec 32) (lo hi : VReg)
  | acrd (wide : Bool) (tile : Nat) (half : Bool) (row : Nat) (mask : BitVec 32) (dest : Dest)
  | launch (rec : Word) (pa : Option (List LaneAcc)) (dest : Nat)
  | enq (data : List Byte) (dest : Nat) | deq (dest : Nat)
  /-- `barv` arrives, `barw` waits, `bar` does both (R176). -/
  | barrier (lvl : BarLevel) (num : Nat) (arrive wait : Bool)
  | icinv (line : Option Nat)
  | wline (pa : Nat) (expect : Word)
  | pkbind (pa : Nat) (id : Word) (dest : Nat)
  /-- An arrival that a handler asked for is made with the quantum that it ends (R176). -/
  | owed
  | exit
  deriving DecidableEq, Repr

/-- An access of an ordinary fibre whose events are taking their places one by one (R250, R343): no rollback reaches it. -/
structure Moving where
  seq    : Nat
  /-- The access with the elements that are still to be performed, cut at lines. -/
  op     : DevOp
  /-- What its loads have read so far, by lane. -/
  got    : List (Nat × BitVec 64)
  /-- Register writes that its performed updates answer. -/
  writes : List RegWrite
  /-- The translations that it was checked under (R244). -/
  fills  : List TlbEntry
  deriving DecidableEq, Repr

/-- An unfinished access of an ordinary fibre, or an operation held by an ordered quantum, with the checkpoint taken just
before it issued (R371) and the registers first written since (R372). -/
structure Held where
  seq     : Nat
  op      : DevOp
  snap    : FRegs
  written : List RegId
  /-- Lines of early values (R373): device lines by address over 64, scratchpad lines by core and offset over 64. -/
  marks   : List (Option Nat × Nat)
  /-- Its early value has been obtained. -/
  early   : Bool
  /-- The early value that a load inside a quantum obtained (R383), and whether an operation of the quantum before it may still
  change what it is to read. -/
  vals    : List RegWrite
  recheck : Bool
  /-- The translations that it was checked under (R244). -/
  fills   : List TlbEntry
  deriving DecidableEq, Repr

/-- The state a SAVE recorded (R415, R418, R420). -/
structure SaveRec where
  status : FStatus
  acquire : Option Nat
  level  : Nat
  back   : Nat
  tregs  : TRegs
  tf0    : Word
  slot   : Word
  frame  : Word
  pc     : Word
  deriving DecidableEq, Repr

/-- A blocking `regacq` that waits: registers asked, cycle of request, cycles counted toward STALLED (R121, R125), the
predicate that its grant sets, 0 for none (R385), and its word. -/
structure Acquire where
  n       : Nat
  since   : Nat
  counted : Nat
  pred    : Nat
  inst    : BitVec 128
  deriving DecidableEq, Repr

/-- A resident fibre. -/
structure Fibre where
  id       : FibreId
  launch   : Word
  stage    : Nat
  block    : Nat
  /-- The core that its block was placed on first, which fixes its cluster and span barriers (R175). -/
  home     : Nat
  /-- `%fibre` and `%gfibre` (R107). -/
  index    : Nat
  gindex   : Nat
  regs     : FRegs
  status   : FStatus
  /-- Whether it is its slot's current fibre, the cycle of the hand-over that made it so, and since when it has been READY
  (R112). -/
  isCur    : Bool
  curSince : Nat
  readySince : Nat
  /-- Cycles for which it has been in states that R123 names. -/
  stuckFor : Nat
  /-- Instructions issued: program order. -/
  seq      : Nat
  pend     : List Pend
  waitTrap : Option Trap
  copyFaults : List CopyFault
  unfin    : List Held
  /-- Accesses that are being performed, in program order. -/
  moving   : List Moving
  /-- A conflict struck a marked line (R373). -/
  conflict : Bool
  /-- `%escthr` and the counters of R379. -/
  escthr   : BitVec 32
  rbcount  : Word
  esc1     : Word
  esc2     : Word
  esc3     : Word
  qredo    : Word
  qcount   : Word
  hrufb    : Word
  rbnow    : Word
  /-- Escalation level (R377). -/
  escLevel : Nat
  /-- Outgoing window: base, length, partner's slot-fibre index (R126). -/
  window   : Option (Nat × Nat × Nat)
  /-- A `win` or `exit` that waits for the partner's writes: the partner's names of the window wait (R126). -/
  winWait  : Bool
  /-- Arrival phases by barrier (R176). -/
  arrived  : List ((BarLevel × Nat) × Nat)
  /-- Arrivals that its handlers asked for, to be made once it is not frozen (R176). -/
  owed     : List (BarLevel × Nat)
  acquire  : Option Acquire
  /-- Round of the current quantum, its start in registers and program order, and the lines of its read set and write set (R381 to R383). -/
  qround   : Nat
  qstart   : FRegs
  qseq     : Nat
  qlines   : List (Option Nat × Nat)
  qwrites  : List (Option Nat × Nat)
  /-- Registers first written since the quantum's start (R372, R381). -/
  qundo    : List RegId
  /-- The quantum's operations are taking effect and one of them waits (R264), and the lines of those that have taken effect
  (R360). -/
  committing : Bool
  qheld    : List (Option Nat × Nat)
  /-- The copy with FOLLOW = 1 that the fibre released last, until its next instruction (R329); 0 once abandoned. -/
  follow   : Option Nat
  /-- The Sealed page an `unseal` of this fibre waits on (R235). -/
  unsealing : Option Nat
  /-- Poisoned registers (R402, R403). -/
  poison   : List RegId
  saveRec  : Option SaveRec
  deriving DecidableEq, Repr

/-! ## Blocks -/

/-- A descriptor image (R37 to R41). -/
structure Desc where
  entry   : Word
  handler : Word
  fibres  : BitVec 32
  storage : BitVec 32
  sync    : BitVec 32
  format  : BitVec 32
  reserved : Bool
  deriving DecidableEq, Repr

/-- A barrier: completed phases, and the copies registered on later ones (R176). -/
structure Barrier where
  lvl    : BarLevel
  /-- Which slot, quadrant, cluster or stack group. -/
  inst   : Nat
  num    : Nat
  done   : Nat
  copies : List (Nat × Nat)
  deriving DecidableEq, Repr

/-- Progress of a pre-emption of a block (R411, R415). -/
inductive Preempt where
  | none
  /-- Draining since a cycle; `again` once DRAIN is no longer allowed. -/
  | drain (since : Nat) (again : Bool)
  /-- To be flushed once the commit of a quantum that has begun is through. -/
  | flushing
  /-- Going to a stopping point, to be saved in a slot. -/
  | saving (slot : Nat)
  /-- Save handlers run; the frames as they were written, by fibre index (R417). -/
  | inSave (slot : Nat) (frames : List (Nat × List Byte))
  /-- Restore handlers run; the number of the state record and the frames that the slot is to hold to the end (R419). -/
  | restoring (slot rec_ : Nat) (frames : List (Nat × List Byte))
  deriving DecidableEq, Repr

/-- A resident block. -/
structure Block where
  launch  : Word
  stage   : Nat
  num     : Nat
  core    : Nat
  desc    : Desc
  /-- First byte of its scratchpad range (R95). -/
  scrBase : Nat
  /-- Accumulator tiles (R313). -/
  tiles   : List Tile
  /-- Poisoned tile elements: tile and 32-bit word of its image (R402, R403). -/
  tilePoison : List (Nat × Nat)
  bars    : List Barrier
  /-- Withdrawn under R104; entries taken under R106. -/
  withdrawn : Bool
  deqCount : Nat
  placedAt : Nat
  preempt : Preempt
  /-- An ordered block has committed a quantum (R411). -/
  committed : Bool
  deriving DecidableEq, Repr

/-- A saved block (R415 to R420). -/
structure SavedBlock where
  blk    : Block
  fibres : List Fibre
  slot   : Nat
  /-- The free values its state record was written from (R419, assumption 10). -/
  rec_   : Nat
  /-- The frames as they were written, by fibre index. -/
  frames : List (Nat × List Byte)
  deriving DecidableEq, Repr

/-- What a core holds beside its fibres. -/
structure CoreRec where
  /-- Scratchpad bytes that are not zero (R16). -/
  scratch  : List Host.Cell
  /-- Poisoned bytes of the scratchpad (R403). -/
  spoison  : List Nat
  copies   : List CopyCmd
  mat      : List MatCmd
  /-- Expander slots: block and its table; `none` is INVALID (R311). -/
  expander : List (Word × Nat × Nat × Option XTable)
  /-- The launch that reserved the core (R99). -/
  reserved : Option Word
  /-- Instruction lines that the L1 instruction cache holds, by physical address over 64, with their bytes, the oldest first
  (R16, R182). -/
  icache   : List (Nat × List Byte)
  /-- Lines of the quadrants' L0 instruction caches: quadrant, line and bytes (R16, R182). -/
  l0       : List (Nat × Nat × List Byte)
  /-- First-level TLB (R242). -/
  tlb      : List TlbEntry
  /-- Next command number of the copy engine and matrix unit. -/
  nextId   : Nat
  /-- Program order at which fibres placed from now on begin: command numbers that it yields are not used again (R259). -/
  seqBase  : Nat
  deriving DecidableEq, Repr

/-! ## Launches -/

/-- One stage of a launch (R101 to R105); a single-stage launch has one. -/
structure Stage where
  kdesc   : Word
  /-- The first image (R43); `none` before the eligibility check. -/
  first   : Option Desc
  qbuf    : Word
  /-- Frames of the output queue's 64 KiB pages in order, the control line first; empty for no queue. -/
  qpages  : List Nat
  cap     : Nat
  blocks  : Nat
  entb    : Nat
  maxb    : Nat
  minb    : Nat
  hi      : Nat
  lo      : Nat
  /-- Next block number to place, blocks exited, and the core of the last placement (R92, R97). -/
  next    : Nat
  exited  : List Nat
  lastCore : Option Nat
  /-- Sum of the lifetimes of exited blocks (R411). -/
  lifetimes : Nat
  /-- Output queue: enqueued, dequeued, closed (R102). -/
  enqn    : Nat
  deqn    : Nat
  closed  : Bool
  /-- Tickets passed by blocks that have not exited (R177, R414). -/
  tickets : List (Nat × BitVec 4)
  /-- Flushed blocks to place again (R414). -/
  again   : List Nat
  /-- Admission round of each block after the first placement step (R382). -/
  admits  : List (Nat × Nat)
  /-- Entries that blocks of an ordered launch had taken when they were flushed (R106, R414). -/
  taken   : List (Nat × Nat)
  deriving DecidableEq, Repr

/-- A block whose placement was refused: its stage and number, the quadrants in which it needs extended registers, and the
waiting cycles counted (R99). -/
structure Waiting where
  stage : Nat
  block : Nat
  quads : List Nat
  count : Nat
  deriving DecidableEq, Repr

/-- Where a launch stands. -/
inductive LaunchPhase where
  | queued | placing
  /-- A later descriptor read failed (R94): no further block is placed. -/
  | failed (status : BitVec 8)
  deriving DecidableEq, Repr

/-- An accepted launch that has not completed (R79, R84). -/
structure Launch where
  /-- Launch identifier (R84). -/
  id      : Word
  part    : Nat
  queue   : Nat
  asid    : Nat
  vf      : Nat
  /-- Order of acceptance in the partition, and the writes of Host-noncoherent lines made before it (R351). -/
  accept  : Nat
  seen    : Nat
  args    : Vector Word 8
  tag     : Word
  stagetab : Word
  clusters : BitVec 32
  ctl     : Word
  phase   : LaunchPhase
  stages  : List Stage
  nfault  : Nat
  /-- The block that waits for a core (R99). -/
  waiting : Option Waiting
  /-- Cores on which blocks were placed: the launch holds its cluster, span and grid barriers there (R95). -/
  held    : List Nat
  /-- Cluster, span and grid barriers (R95). -/
  bars    : List Barrier
  saved   : List SavedBlock
  /-- Current round (R382), and whether any block was placed. -/
  round   : Nat
  placed  : Bool
  deriving DecidableEq, Repr

/-! ## Partition registers, rings, links, device -/

/-- An event ring (R433 to R436). -/
structure Ring where
  cfg   : Word
  int   : BitVec 32
  prod  : BitVec 32
  cons  : BitVec 32
  /-- Records since the last interrupt and the cycle of the oldest (R436). -/
  count : Nat
  oldest : Nat
  deriving DecidableEq, Repr

/-- The control core's firmware (R82, R83). -/
structure Control where
  /-- Virtual address of the launch list it serves. -/
  list   : Option Word
  /-- The queue that refused a record, and since when. -/
  retry  : Option (Nat × Nat)
  deriving DecidableEq, Repr

/-- A partition: registers of R437 and what its placer, Almanac and boot agents hold. -/
structure Partn where
  lqcfg    : Table Word
  vfslice  : Table (BitVec 32)
  asidbase : Word
  tlbinv0  : Word
  tlbinv1  : BitVec 32
  pktdir   : Word
  systrap  : Word
  savehdlr : Word
  resthdlr : Word
  errtrans : Word
  errlast  : Word
  ctxctl   : Word
  stopring : Word
  stopcount : Word
  preemptcfg : BitVec 32
  preemptreq : BitVec 32
  savepool : Word
  evlost   : Word
  ccasid   : Word
  rings    : Table Ring
  /-- ASIDs of halted contexts (R406), and the next halt number (R408). -/
  halted   : List Nat
  haltSeq  : BitVec 16
  /-- Launch sequence number of each queue (R84), and launches accepted. -/
  qseq     : Table Nat
  accepts  : Nat
  /-- Placer: VF that holds the slice and since when; placements of each ASID in the round; the ASID whose turn it is;
  last placement of each queue, and placements made (R90). -/
  vf       : Option Nat
  vfSince  : Nat
  round    : Table Nat
  turn     : Option Nat
  qlast    : Table Nat
  places   : Nat
  /-- Captured tables with the bytes captured (R304). -/
  captured : Table XTable
  /-- Save slots in use (R416). -/
  slots    : List Nat
  control  : Control
  /-- Incarnations of agents (R424). -/
  incarn   : List (AgentKind × Nat × Nat)
  /-- Blocks a PREEMPTREQ waits for (R412). -/
  reqBlocks : List (Word × Nat × Nat)
  /-- The fibre that the Almanac serves at level 3 (R377). -/
  level3   : Option FibreId
  deriving DecidableEq, Repr

/-- What a link or queue is: a Spemer port, the link of the die fabric from a die to the one it ends on, the queue in front
of an L2 slice, or the link to the host (R422, R439, assumption 53). -/
inductive LinkKind where
  | spemer (port : Nat)
  | fabric (src dst : Nat)
  | queue (slice : Nat)
  | cxl
  deriving DecidableEq, Repr

/-- A flow-controlled link or queue (R422, R423). -/
structure Link where
  num      : Nat
  kind     : LinkKind
  /-- T (R422). -/
  total    : Nat
  /-- The four counts, as the last snapshot found them. -/
  counts   : Permits
  stopped  : Bool
  /-- Contexts whose traffic crossed it since the last check: partition and ASID. -/
  users    : List (Nat × Nat)
  deriving DecidableEq, Repr

/-- The die on which a link or queue ends: 0 to 3 are the compute dies, 4 is the I/O die (R13). -/
def LinkKind.die : LinkKind → Nat
  | .spemer _ | .cxl => 4
  | .fabric _ dst => dst
  | .queue slice => slice / 8

/-- The device block (R437, R446 to R449). -/
structure Dev where
  devid     : BitVec 8
  partcfg   : BitVec 8
  step      : BitVec 4
  inservice : BitVec 8
  repair    : Word
  attest    : Word
  /-- The firmware image that runs (R444, R449): 0 is the one stored with the device; each that was loaded has a number of its
  own. -/
  image     : Nat
  /-- Bytes 0 to 31 of the attestation buffer, as the host left them before its request (R445). -/
  nonce     : List Byte
  /-- Half whose image is loading, and whether a register that locks DEVID was written (R438). -/
  configured : Bool
  /-- An attestation request in progress (R445). -/
  attesting : Bool
  /-- Agents that have failed and not rejoined (R426). -/
  failed    : List (AgentKind × Nat)
  deriving DecidableEq, Repr

/-! ## The memory system -/

/-- States of a Sealed page (R235). -/
inductive SealState where
  | opened | isSealed | draining
  deriving DecidableEq, Repr

/-- A copy of a line in a core's L1, as a home records it, with the incarnation of the core (R226, R235, R424). -/
structure Copy where
  line   : Nat
  core   : Nat
  incarn : Nat
  deriving DecidableEq, Repr

/-- A Sealed page: base, size, state, the copies counted, and the incarnation and count of the copies of each other device. A
page of another device is listed for the copies that this device's cores hold of it. -/
structure SealRec where
  page   : Nat
  bits   : Nat
  st     : SealState
  copies : List Copy
  remote : Table (Nat × Nat)
  deriving DecidableEq, Repr

/-- An exclusive claim: its line, the fibre that holds it, and the incarnation of its core (R377, R424). -/
structure Claim where
  line   : Nat
  fibre  : FibreId
  incarn : Nat
  deriving DecidableEq, Repr

/-- A partial of a Commutative element (R236): element address, device and core, value. -/
structure Partial where
  pa   : Nat
  dev  : Nat
  core : Nat
  val  : BitVec 64
  /-- Partition and ASID of the context that contributed (R426). -/
  part : Nat
  asid : Nat
  deriving DecidableEq, Repr

/-- A shadow byte of a copy into space 0 (R260): the engine and command that wrote it, or a remote copy. -/
structure Shadow where
  pa     : Nat
  byte   : Byte
  /-- Device, core and command number of the copy; launch it belongs to. -/
  owner  : Nat × Nat × Nat
  launch : Word
  landed : Bool
  /-- Order of writing: the later write stands (R259). -/
  ord    : Nat
  /-- Poisoned (R403). -/
  bad    : Bool
  deriving DecidableEq, Repr

/-- A metadata record (R302). -/
structure Granule where
  states : Vector (BitVec 2) 64
  table  : BitVec 16
  deriving DecidableEq, Repr

/-- An ordered update held at an HRU or deferred with its quantum (R386). -/
structure HruEntry where
  /-- Its number: two updates may be alike in everything else. -/
  num     : Nat
  launch  : Word
  round   : Nat
  gfib    : Nat × Nat × Nat
  lclock  : Word
  lane    : Nat
  fibre   : FibreId
  core    : Nat
  asid    : Nat
  /-- Incarnation of the core that sent it (R424). -/
  incarn  : Nat
  part    : Part
  size    : Nat
  op      : UpdOp
  val     : BitVec 64
  committed : Bool
  /-- Deferred with its quantum, not in the buffer. -/
  deferred : Bool
  deriving DecidableEq, Repr

/-- What fences of one scope by the fibres of one quadrant have put in order so far (R349). -/
structure FenceView where
  scope : Scope
  core  : Nat
  quad  : Nat
  base  : Nat
  view  : Table Nat
  deriving DecidableEq, Repr

/-- How old the Host-noncoherent lines may be that a fibre reads (R348, R349), as numbers of writes of such lines that it reads
nothing older than: what its launch (R351) and fences have put before it, in every line and by line; what its own accesses of
a line have met; and what stood before the last of these, which a fence of the fibre passes on with them. -/
structure HncView where
  id    : FibreId
  base  : Nat
  view  : Table Nat
  own   : Table Nat
  cbase : Nat
  carry : Table Nat
  deriving DecidableEq, Repr

/-- What lies behind translation: stacks, homes, directory and their bookkeeping. -/
structure MemSys where
  /-- Bytes of the stacks by physical address, in canonical form (R222). -/
  mem     : List Host.Cell
  /-- Key epoch of each stack; 0 is the initialised memory (R443). -/
  keys    : Table Nat
  /-- Bytes that homes hold over the stacks, and the lines that are dirty (R225, R266), each with the contexts (partition
  and ASID) that wrote it since it was clean (R426), the latest first. -/
  home    : List Host.Cell
  dirty   : Table (List (Nat × Nat))
  /-- Directory (R226). -/
  dir     : List Copy
  /-- The hint that an access last gave a line: its rank for eviction (R146). -/
  hints   : Table Hint
  /-- Mailbox lines the host holds (R238). -/
  hostDir : List Nat
  /-- Metadata records (R302). -/
  granules : Table Granule
  /-- Coded blocks of which homes keep the code and its decoded values: first byte and length (R285). -/
  coded   : Table Nat
  /-- Granules whose records the controllers' line-metadata caches hold, the oldest first (R20, R307). -/
  metas   : List Nat
  seals   : List SealRec
  partials : List Partial
  shadows : List Shadow
  /-- Poisoned bytes (R403). -/
  poison  : List Nat
  /-- Exclusive claims (R377). -/
  claims  : List Claim
  /-- Second-level TLBs by slice (R242). -/
  tlb2    : Table (List TlbEntry)
  hru     : List HruEntry
  /-- HRUs in fallback: slice, launch and round (R386). -/
  fallback : List (Nat × Word × Nat)
  /-- The number of the next update. -/
  hruNum  : Nat
  /-- Writes of Host-noncoherent lines so far, the bytes that each replaced (number, address, byte), what fibres have seen of
  them, and the fences (R349). -/
  hncNum  : Nat
  hncLog  : List (Nat × Nat × Byte)
  hncViews : List HncView
  hncFences : List FenceView
  /-- Lines of event rings with the writes of Host-noncoherent lines that came before their latest record (R351). -/
  hncRecs : Table Nat
  deriving DecidableEq, Repr

/-! ## The machine -/

/-- A message to another device. -/
inductive RemoteMsg where
  /-- A write of a copy or a publish to foreign memory (R258, R264), with its poison (R403). -/
  | write (pa : Nat) (byte : Byte) (bad : Bool)
  | publish (page : Nat)
  /-- A `red` to a foreign Commutative element (R241). -/
  | red (pa : Nat) (val : BitVec 64)
  /-- Copies of a foreign Sealed page dropped (R235). -/
  | drop (page n : Nat)
  /-- A device that holds copies of a Sealed page of this one is to drop them (R235). -/
  | recall (dev page : Nat)
  deriving DecidableEq, Repr

/-- What leaves the device. -/
inductive Out where
  /-- An MSI-X message: `vf` none for the physical function (R436, R440). -/
  | msix (vf : Option Nat) (entry : Nat)
  /-- Bytes that a host read or another device's request received, with the incarnation of the agent that sends them (R424). -/
  | data (incarn : Nat) (bytes : List Byte)
  /-- A poison response (R308) or an error response (R447), tagged alike. -/
  | poisonResp (incarn : Nat) | errorResp (incarn : Nat)
  /-- A message to another device, with the incarnation of the core that sent it, or of this device's link endpoint where none
  did (R424). -/
  | remote (incarn : Nat) (m : RemoteMsg)
  /-- LOSTPERMIT reported to the peer of a Spemer link, with the incarnation of the link (R423, R424). -/
  | lostpermit (incarn link : Nat)
  deriving DecidableEq, Repr

/-- What may come next; the model's own ordering of agents (assumption 1). -/
inductive Activity where
  /-- A fibre issues its next instruction; `ahead` leaves a tracked access unfinished. -/
  | issue (f : FibreId) (ahead : Bool)
  /-- An event of the opcode table. -/
  | event (e : Instr)
  /-- Cycles pass. -/
  | tick (n : Nat)
  /-- The oldest unfinished access of a fibre begins to be performed part by part (R250, R370). -/
  | loosen (f : FibreId)
  /-- The next part of an access that is being performed takes its place (R250, R343, R349). -/
  | performPart (f : FibreId) (seq : Nat)
  /-- From now on reads of Host-noncoherent lines return what the last `n` writes of such lines had not replaced, where
  R348 and R349 permit it. -/
  | stale (n : Nat)
  /-- A copy engine moves up to `n` bytes of a command (R259). -/
  | copyMove (core id n : Nat)
  /-- A control core serves one record of its launch list (R83). -/
  | control (part : Nat)
  /-- The host reads a register through the BAR0 of a function: none for the physical function (R439, R440). -/
  | regRead (vf : Option Nat) (off : Nat)
  /-- Software tells the control core which launch list to serve (R82). -/
  | serveList (part : Nat) (list : Word)
  deriving DecidableEq, Repr

/-- The machine. -/
structure State where
  /-- Device time in cycles (R7, R430). -/
  clock    : Nat
  fibres   : List Fibre
  blocks   : List Block
  cores    : Table CoreRec
  launches : List Launch
  parts    : Vector Partn 8
  dev      : Dev
  links    : List Link
  /-- The cycle of the last check of each die's Vigil (R422). -/
  vigils   : Vector Nat 5
  msys     : MemSys
  /-- MODEL: the fibre that issues in this step, and whether its access stays unfinished (assumption 2). -/
  cur      : FibreId
  ahead    : Bool
  /-- Shared registers written in this cycle: owner, register, the writer's slot-fibre index, lanes (R128). -/
  sameCycle : List (FibreId × Nat × Nat × BitVec 32)
  /-- MODEL: how far back reads of Host-noncoherent lines look (assumption 46). -/
  lag      : Nat
  /-- MODEL: what comes next (assumption 1). -/
  agenda   : List Activity
  /-- MODEL: free values drawn so far (assumption 4). -/
  freeCtr  : Nat
  /-- MODEL: what has left the device (assumption 3). -/
  outbox   : List Out
  deriving DecidableEq, Repr

/-! ## Reset -/

/-- A core with nothing on it. -/
def CoreRec.init : CoreRec :=
  ⟨[], [], [], [], [], none, [], [], [], 1, 0⟩

/-- A ring register set at 0. -/
def Ring.init : Ring := ⟨0, 0, 0, 0, 0, 0⟩

/-- A partition's registers after reset (R404, R412, R447; the others are assumption 5). -/
def Partn.init : Partn where
  lqcfg := []
  vfslice := []
  asidbase := 0
  tlbinv0 := 0
  tlbinv1 := 0
  pktdir := 0
  systrap := 0
  savehdlr := 0
  resthdlr := 0
  errtrans := 0
  errlast := 0
  ctxctl := 0
  stopring := 0
  stopcount := 0
  preemptcfg := 0x00100040
  preemptreq := 0
  savepool := 0
  evlost := 0
  ccasid := 0
  rings := []
  halted := []
  haltSeq := 0
  qseq := []
  accepts := 0
  vf := none
  vfSince := 0
  round := []
  turn := none
  qlast := []
  places := 0
  captured := []
  slots := []
  control := ⟨none, none⟩
  incarn := []
  reqBlocks := []
  level3 := none

/-- The memory system after reset: every line zero, every record, directory and TLB clear (R447). -/
def MemSys.init : MemSys :=
  ⟨[], [], [], [], [], [], [], [], [], [], [], [], [], [], [], [], [], [], 0, 0, [], [], [], []⟩

/-- A link at rest: no total is configured (R422). -/
def Link.init (num : Nat) (kind : LinkKind) : Link := ⟨num, kind, 0, ⟨0, 0, 0, 0⟩, false, []⟩

/-- The eight Spemer links, then for each die the links of the fabric from each other die, then the queues of the slices, then
the link to the host (assumption 53). -/
def Link.all : List Link :=
  ((List.range 8).map fun i => Link.init i (.spemer i)) ++
  ((List.range 5).flatMap fun d => ((List.range 5).filter (· != d)).map fun e =>
    Link.init (8 + 4 * d + (if e < d then e else e - 1)) (.fabric e d)) ++
  ((List.range 32).map fun k => Link.init (28 + k) (.queue k)) ++ [Link.init 60 .cxl]

/-- The machine right after reset: STEP 0, READY 0, nothing placed (R447; assumption 5 for the registers without a
reset value). -/
def State.reset : State where
  clock := 0
  fibres := []
  blocks := []
  cores := []
  launches := []
  parts := Vector.ofFn fun _ => Partn.init
  dev := ⟨0, 0, 0, 0xFF, 0, 0, 0, [], false, false, []⟩
  links := Link.all
  vigils := Vector.ofFn fun _ => 0
  msys := MemSys.init
  cur := ⟨0, 0⟩
  ahead := false
  sameCycle := []
  lag := 0
  agenda := []
  freeCtr := 0
  outbox := []

end Sys2Proof.Machine
end

