-- ==== Sys2Proof/Machine/Bits.lean ====
section
/-! DEFINITION. Helpers that no rule names: bit fields, sign extension, lanes, tables keyed by numbers, byte lists. -/

namespace Sys2Proof.Machine

/-- Bits `hi` to `lo` of a number. -/
def field (x hi lo : Nat) : Nat := x / 2 ^ lo % 2 ^ (hi + 1 - lo)

/-- Bits of a word as a number. -/
def wfield {n : Nat} (x : BitVec n) (hi lo : Nat) : Nat := field x.toNat hi lo

/-- The low `w` bits of a number read as two's complement. -/
def sext (w x : Nat) : Int :=
  let y := x % 2 ^ w
  if y < 2 ^ (w - 1) then (y : Int) else (y : Int) - (2 ^ w : Nat)

/-- An integer modulo 2^w, as a number. -/
def wrap (w : Nat) (x : Int) : Nat := (x % (2 ^ w : Nat)).toNat

/-- A 64-bit word from an integer, modulo 2^64. -/
def word (x : Int) : Word := BitVec.ofNat 64 (wrap 64 x)

/-- A word left-rotated, as numbers of `w` bits. -/
def rotl (w x c : Nat) : Nat :=
  let k := c % w
  (x * 2 ^ k % 2 ^ w) + x / 2 ^ (w - k)

/-- The number of set bits among the low `w`. -/
def popcount : Nat → Nat → Nat
  | 0, _ => 0
  | w + 1, x => x % 2 + popcount w (x / 2)

/-- The low `w` bits reversed. -/
def bitrev : Nat → Nat → Nat
  | 0, _ => 0
  | w + 1, x => (x % 2) * 2 ^ w + bitrev w (x / 2)

/-- The number of bits of `x`: 0 for 0, else one more than its logarithm. -/
def bitlen (x : Nat) : Nat := if x = 0 then 0 else Nat.log2 x + 1

/-- A vector register from a function of the lane. -/
def mkV (f : Nat → Elem) : VReg := Vector.ofFn fun i => f i.val

/-- The element of a lane. -/
def lane (v : VReg) (l : Nat) : Elem := if h : l < 32 then v[l] else 0

/-- A 32-bit mask from a test of the lane. -/
def mkMask (f : Nat → Bool) : BitVec 32 :=
  BitVec.ofNat 32 ((List.range 32).foldl (fun acc l => if f l then acc + 2 ^ l else acc) 0)

/-- The lanes of a mask, ascending. -/
def lanesOf (m : BitVec 32) : List Nat := (List.range 32).filter fun l => m.getLsbD l

/-- All ones. -/
def allOnes : BitVec 32 := 0xFFFFFFFF

/-- The lanes of `new` in the mask, of `old` elsewhere. -/
def mergeV (mask : BitVec 32) (new old : VReg) : VReg := mkV fun l => if mask.getLsbD l then lane new l else lane old l

/-- A zero register. -/
def zeroV : VReg := Vector.ofFn fun _ => 0

/-! ## Tables -/

/-- The entry of a key. -/
def Tab.get {α : Type} (t : Table α) (k : Nat) : Option α := (t.find? fun e => e.1 == k).map (·.2)

/-- The entry of a key, or a default. -/
def Tab.getD {α : Type} (t : Table α) (k : Nat) (d : α) : α := (Tab.get t k).getD d

/-- Sets the entry of a key, keeping the keys rising. -/
def Tab.set {α : Type} (t : Table α) (k : Nat) (v : α) : Table α :=
  match t with
  | [] => [(k, v)]
  | (j, w) :: r => if j < k then (j, w) :: Tab.set r k v else if j = k then (k, v) :: r else (k, v) :: (j, w) :: r

/-- Removes the entry of a key. -/
def Tab.del {α : Type} (t : Table α) (k : Nat) : Table α := t.filter fun e => e.1 != k

/-! ## Cells: bytes by address in canonical form -/

/-- The byte listed at an address. -/
def Cells.get (m : List Host.Cell) (a : Nat) : Option Byte := (m.find? fun c => c.1 == a).map (·.2)

/-- Lists a byte at an address, keeping addresses rising. -/
def Cells.put (m : List Host.Cell) (a : Nat) (b : Byte) : List Host.Cell :=
  match m with
  | [] => [(a, b)]
  | (c, d) :: r => if c < a then (c, d) :: Cells.put r a b else if c = a then (a, b) :: r else (a, b) :: (c, d) :: r

/-- Unlists an address. -/
def Cells.del (m : List Host.Cell) (a : Nat) : List Host.Cell := m.filter fun c => c.1 != a

/-- Writes a byte where an unlisted address reads as `d`: writing `d` unlists. -/
def Cells.write (d : Byte) (m : List Host.Cell) (a : Nat) (b : Byte) : List Host.Cell :=
  if b = d then Cells.del m a else Cells.put m a b

/-- Unlists every address of a range. -/
def Cells.clear (m : List Host.Cell) (lo n : Nat) : List Host.Cell := m.filter fun c => c.1 < lo || lo + n ≤ c.1

/-! ## Bytes -/

/-- The low `n` bytes of a number, lowest first (R2). -/
def bytesOf (n v : Nat) : List Byte := leBytes n v

/-- Bytes as a little-endian number (R2). -/
def natOf (bs : List Byte) : Nat := leNat bs

/-- Little-endian number of bytes `lo` to `lo + n - 1` of a list. -/
def natAt (bs : List Byte) (lo n : Nat) : Nat := leNat ((bs.drop lo).take n)

/-- Writes bytes over a list from a position. -/
def putAt (bs : List Byte) (lo : Nat) (new : List Byte) : List Byte :=
  bs.take lo ++ new ++ bs.drop (lo + new.length)

/-- The images of registers as one byte string (R3). -/
def imageOf (v : VReg) : List Byte := v.toList.flatMap fun e => leBytes 4 e.toNat

/-- The register whose 128-byte image this is (R3). -/
def ofImage (bs : List Byte) : VReg := mkV fun l => BitVec.ofNat 32 (natAt bs (4 * l) 4)

/-- Replaces the elements that a test picks. -/
def updIf {α : Type} (p : α → Bool) (f : α → α) (l : List α) : List α := l.map fun x => if p x then f x else x

/-- Adds an element that is not there. -/
def addNew {α : Type} [BEq α] (l : List α) (x : α) : List α := if l.contains x then l else l ++ [x]

end Sys2Proof.Machine
end

