-- ==== Sys2Proof/Machine/Alu.lean ====
section
/-! DEFINITION. What the integer instructions compute (07 R184 to R195), as functions of operand bits alone. An operand
and a result are 64 bits wide: an element of less than 64 bits lies in the low bits. -/

namespace Sys2Proof.Machine

/-- An operand read as its type: the low `w` bits, signed for `i` types (R184). -/
def IntTy.read (ty : IntTy) (x : BitVec 64) : Int :=
  if ty.unsigned then (x.toNat % 2 ^ ty.width : Nat) else sext ty.width x.toNat

/-- The least value of a type. -/
def IntTy.min (ty : IntTy) : Int := if ty.unsigned then 0 else -((2 ^ (ty.width - 1) : Nat) : Int)
/-- The greatest value of a type. -/
def IntTy.max (ty : IntTy) : Int :=
  if ty.unsigned then ((2 ^ ty.width : Nat) : Int) - 1 else ((2 ^ (ty.width - 1) : Nat) : Int) - 1

/-- A value held to the type's range. -/
def IntTy.clamp (ty : IntTy) (x : Int) : Int :=
  if x < IntTy.min ty then IntTy.min ty else if IntTy.max ty < x then IntTy.max ty else x

/-- A result formed modulo 2^w, or saturated, then extended by type (R184). -/
def IntTy.put (ty : IntTy) (sat : Bool) (x : Int) : BitVec 64 :=
  let y := if sat then IntTy.clamp ty x else x
  let m := wrap ty.width y
  if ty.unsigned then BitVec.ofNat 64 m else word (sext ty.width m)

/-- The low `w` bits of a bit pattern extended by type. -/
def IntTy.ext (ty : IntTy) (m : Nat) : BitVec 64 := IntTy.put ty false (m : Int)

/-- The low `w` bits of an operand. -/
def IntTy.low (ty : IntTy) (x : BitVec 64) : Nat := x.toNat % 2 ^ ty.width

/-- The two-operand group (R186). `c` is B as an unsigned 32-bit value. -/
inductive BinOp where
  | add | sub | mul | mulhi | min | max | shl | shr | rot | and | or | xor
  deriving DecidableEq, Repr

/-- R186. -/
def binOp (o : BinOp) (ty : IntTy) (sat : Bool) (a b : BitVec 64) : BitVec 64 :=
  let x := IntTy.read ty a
  let y := IntTy.read ty b
  let c := b.toNat % 2 ^ 32
  let w := ty.width
  match o with
  | .add => IntTy.put ty sat (x + y)
  | .sub => IntTy.put ty sat (x - y)
  | .mul => IntTy.put ty sat (x * y)
  | .mulhi => IntTy.put ty false (x * y / (2 ^ w : Nat))
  | .min => IntTy.put ty false (if x ≤ y then x else y)
  | .max => IntTy.put ty false (if x ≤ y then y else x)
  | .shl => IntTy.ext ty (if w ≤ c then 0 else IntTy.low ty a * 2 ^ c)
  | .shr => IntTy.put ty false (if w ≤ c then (if x < 0 then -1 else 0) else x / (2 ^ c : Nat))
  | .rot => IntTy.ext ty (rotl w (IntTy.low ty a) c)
  | .and => IntTy.ext ty (a &&& b).toNat
  | .or => IntTy.ext ty (a ||| b).toNat
  | .xor => IntTy.ext ty (a ^^^ b).toNat

/-- The one-operand group (R187). -/
inductive UnOp where
  | abs | not | popc | clz | brev | mov
  deriving DecidableEq, Repr

/-- R187. -/
def unOp (o : UnOp) (ty : IntTy) (sat : Bool) (a : BitVec 64) : BitVec 64 :=
  let w := ty.width
  match o with
  | .abs => let x := IntTy.read ty a; IntTy.put ty sat (if x < 0 then -x else x)
  | .not => IntTy.ext ty (~~~a).toNat
  | .popc => IntTy.ext ty (popcount w (IntTy.low ty a))
  | .clz => IntTy.ext ty (w - bitlen (IntTy.low ty a))
  | .brev => IntTy.ext ty (bitrev w (IntTy.low ty a))
  | .mov => IntTy.ext ty a.toNat

/-- `imad` (R188). -/
def imadOp (ty : IntTy) (sat : Bool) (a b c : BitVec 64) : BitVec 64 :=
  IntTy.put ty sat (IntTy.read ty a * IntTy.read ty b + IntTy.read ty c)

/-- `lop3` (R188): bit `i` is T[4 Ai + 2 Bi + Ci]. -/
def lop3Op (ty : IntTy) (t : BitVec 8) (a b c : BitVec 64) : BitVec 64 :=
  let bit := fun i =>
    t.getLsbD ((if a.getLsbD i then 4 else 0) + (if b.getLsbD i then 2 else 0) + (if c.getLsbD i then 1 else 0))
  IntTy.ext ty ((List.range ty.width).foldl (fun acc i => if bit i then acc + 2 ^ i else acc) 0)

/-- `bfext` (R188): the field sign-extended for `i` types. -/
def bfextOp (ty : IntTy) (pos len : Nat) (a : BitVec 64) : BitVec 64 :=
  let m := IntTy.low ty a / 2 ^ pos % 2 ^ len
  IntTy.put ty false (if ty.unsigned then (m : Int) else sext len m)

/-- `bfins` (R188). -/
def bfinsOp (ty : IntTy) (pos len : Nat) (a b : BitVec 64) : BitVec 64 :=
  let x := IntTy.low ty a
  let old := x / 2 ^ pos % 2 ^ len
  IntTy.ext ty (x - old * 2 ^ pos + b.toNat % 2 ^ len * 2 ^ pos)

/-- `ascale` (R188). -/
def ascaleOp (wide : Bool) (s : Nat) (a b c : BitVec 64) : BitVec 64 :=
  let ty : IntTy := if wide then .n64 else .n32
  IntTy.put ty false (IntTy.read ty a + IntTy.read ty b * (2 ^ s : Nat) + IntTy.read ty c)

/-- `lidx` (R192). -/
def lidxOp (ty : IntTy) (l : Nat) (a b : BitVec 64) : BitVec 64 :=
  IntTy.put ty false (IntTy.read ty a + (l : Int) * IntTy.read ty b)

/-- A condition of R189 on values of `w` bits. -/
def condOp (c : Cond) (w : Nat) (a b : BitVec 64) : Bool :=
  let x := a.toNat % 2 ^ w
  let y := b.toNat % 2 ^ w
  match c with
  | .eq => x == y
  | .ne => x != y
  | .lt => decide (sext w x < sext w y)
  | .le => decide (sext w x ≤ sext w y)
  | .lo => decide (x < y)
  | .ls => decide (x ≤ y)
  | .tst => (BitVec.ofNat 64 x &&& BitVec.ofNat 64 y) != 0

/-- `plop` on whole predicates (R190). -/
def plopOp (o : PlopOp) (a b : BitVec 32) : BitVec 32 :=
  match o with
  | .and => a &&& b
  | .or => a ||| b
  | .xor => a ^^^ b
  | .andn => a &&& ~~~b
  | .orn => a ||| ~~~b
  | .not => ~~~a
  | .mov => a

/-- The test of `bpr` and of `vote` on a predicate against the active set (R170, R193). -/
def predTest (c : BprCond) (p act : BitVec 32) : Bool :=
  match c with
  | .any => (p &&& act) != 0
  | .all => (act &&& ~~~p) == 0
  | .none => (p &&& act) == 0

/-- Rotation counts of the generator (R194). -/
def rngRot (i : Nat) : Nat := [13, 17, 5, 24, 9, 29, 16, 3, 21, 11].getD i 0

/-- One round of the generator (R194). -/
def rngRound (ks0 ks1 ks2 i x y : Nat) : Nat × Nat :=
  let ks := fun j => if j % 3 = 0 then ks0 else if j % 3 = 1 then ks1 else ks2
  let x' := (x + y + ks i) % 2 ^ 32
  let y' := (BitVec.ofNat 32 (rotl 32 y (rngRot i)) ^^^ BitVec.ofNat 32 x').toNat
  let y'' := if i % 2 = 1 then (y' + ks (i + 1) + i) % 2 ^ 32 else y'
  (x', y'')

/-- The generator `rng(c, k)` of R194, which stochastic rounding uses too (R66). -/
def rng (c k : Word) : Word :=
  let ks0 := wfield k 31 0
  let ks1 := wfield k 63 32
  let ks2 := (BitVec.ofNat 32 ks0 ^^^ BitVec.ofNat 32 ks1 ^^^ 0x9E3B71C5#32).toNat
  let r := (List.range 10).foldl (fun (p : Nat × Nat) i => rngRound ks0 ks1 ks2 i p.1 p.2) (wfield c 31 0, wfield c 63 32)
  BitVec.ofNat 64 (r.2 * 2 ^ 32 + r.1)

/-- A 16-bit immediate extended by type (R185). -/
def immOf (ty : IntTy) (i : BitVec 16) : BitVec 64 :=
  if ty.unsigned then i.setWidth 64 else word (sext 16 i.toNat)

/-- A 16-bit immediate sign-extended (R189, R195). -/
def immS (i : BitVec 16) : BitVec 64 := word (sext 16 i.toNat)

end Sys2Proof.Machine
end

