-- ==== Sys2Proof/Machine/Float.lean ====
section
/-! DEFINITION. Floating formats and rounding (03 R56 to R77) and the arithmetic of 08 R199 to R205, on exact integers:
a finite value is a sign, a significand and a power of two. Flags are the bits of `%xflags` (R70). -/

namespace Sys2Proof.Machine

/-- A value of a floating format (R56). -/
inductive FV where
  | nan (sig neg : Bool)
  | inf (neg : Bool)
  | fin (neg : Bool) (m : Nat) (e : Int)
  deriving DecidableEq, Repr

/-- INVALID, DIVZERO, OVERFLOW, UNDERFLOW, INEXACT (R70). -/
def fINVALID : BitVec 32 := 1
/-- R70. -/
def fDIVZERO : BitVec 32 := 2
/-- R70. -/
def fOVERFLOW : BitVec 32 := 4
/-- R70. -/
def fUNDERFLOW : BitVec 32 := 8
/-- R70. -/
def fINEXACT : BitVec 32 := 16

/-- A result with the classes it raises. -/
structure FRes where
  bits  : Nat
  flags : BitVec 32
  deriving DecidableEq, Repr

/-- Significand bits (with the hidden bit), exponent of the smallest normal, and the largest finite value as a
significand and an exponent (R56, R60). -/
structure FPar where
  p    : Nat
  emin : Int
  maxM : Nat
  maxE : Int
  /-- Bits of the significand field and of the whole format. -/
  mb   : Nat
  w    : Nat

/-- The parameters of a floating format (R56, R60). -/
def fpar : Fmt → FPar
  | .f64 => ⟨53, -1022, 2 ^ 53 - 1, 971, 52, 64⟩
  | .f16 => ⟨11, -14, 2 ^ 11 - 1, 5, 10, 16⟩
  | .bf16 => ⟨8, -126, 2 ^ 8 - 1, 120, 7, 16⟩
  | .e4m3 => ⟨4, -6, 7, 6, 3, 8⟩
  | .e5m2 => ⟨3, -14, 7, 13, 2, 8⟩
  | .e2m1 => ⟨2, 0, 3, 1, 1, 4⟩
  | .e5m3 => ⟨4, -14, 7, 14, 3, 8⟩
  | _ => ⟨24, -126, 2 ^ 24 - 1, 104, 23, 32⟩

/-- The sign, exponent and fraction fields of a format with its top bits at `w` (R57). -/
def fieldsOf (P : FPar) (x : Nat) : Bool × Nat × Nat :=
  (x / 2 ^ (P.w - 1) % 2 == 1, x / 2 ^ P.mb % 2 ^ (P.w - 1 - P.mb), x % 2 ^ P.mb)

/-- The finite value that exponent and fraction fields stand for (R56). -/
def finOf (P : FPar) (neg : Bool) (e m : Nat) : FV :=
  let q : Int := P.emin - (P.mb : Nat)
  if e = 0 then .fin neg m q else .fin neg (2 ^ P.mb + m) (q + (e : Int) - 1)

/-- The value of a bit pattern in a floating format (R56 to R60). -/
def decodeF (f : Fmt) (x : Nat) : FV :=
  let P := fpar f
  match f with
  | .e5m3 =>
    let c := x % 256
    if c = 255 then .nan false false else finOf P false (c / 8) (c % 8)
  | .e2m1 => let (s, e, m) := fieldsOf P (x % 16); finOf P s e m
  | .e4m3 =>
    let (s, e, m) := fieldsOf P (x % 256)
    if e = 15 ∧ m = 7 then .nan false s else finOf P s e m
  | _ =>
    let (s, e, m) := fieldsOf P (x % 2 ^ P.w)
    if e = 2 ^ (P.w - 1 - P.mb) - 1 then
      if m = 0 then .inf s else .nan (f != .e5m2 && m < 2 ^ (P.mb - 1)) s
    else finOf P s e m

/-- The NaN a result carries (R59); the sign matters for E5M2 and E4M3 only. -/
def nanBits (f : Fmt) (neg : Bool) : Nat :=
  match f with
  | .f64 => 0x7FF8000000000000
  | .f16 => 0x7E00
  | .bf16 => 0x7FC0
  | .e5m2 => if neg then 0xFE else 0x7E
  | .e4m3 => if neg then 0xFF else 0x7F
  | .e5m3 => 0xFF
  | .e2m1 => 0
  | _ => 0x7FC00000

/-- The sign bit. -/
def signBits (P : FPar) (neg : Bool) : Nat := if neg then 2 ^ (P.w - 1) else 0

/-- Infinity of the formats that have one. -/
def infBits (f : Fmt) (neg : Bool) : Nat :=
  let P := fpar f
  signBits P neg + (2 ^ (P.w - 1 - P.mb) - 1) * 2 ^ P.mb

/-- The pattern of an exactly representable finite value `n * 2^q`. -/
def encodeF (f : Fmt) (neg : Bool) (n : Nat) (q : Int) : Nat :=
  let P := fpar f
  let s := if f = .e5m3 then 0 else signBits P neg
  if n = 0 then s
  else
    let top : Int := q + (bitlen n : Nat) - 1
    if top < P.emin then s + n * 2 ^ (q - (P.emin - (P.mb : Nat))).toNat
    else
      let k : Int := (P.mb : Nat) + 1 - (bitlen n : Nat)
      let sig := if 0 ≤ k then n * 2 ^ k.toNat else n / 2 ^ (-k).toNat
      s + (top - P.emin + 1).toNat * 2 ^ P.mb + (sig - 2 ^ P.mb)

/-- The largest finite value of a format. -/
def maxBits (f : Fmt) (neg : Bool) : Nat := encodeF f neg (fpar f).maxM (fpar f).maxE

/-- Whether `a * 2^ea < b * 2^eb`. -/
def scaledLt (a : Nat) (ea : Int) (b : Nat) (eb : Int) : Bool :=
  if ea ≤ eb then decide (a < b * 2 ^ (eb - ea).toNat) else decide (a * 2 ^ (ea - eb).toNat < b)

/-- `m * 2^e`, with a remainder below the last bit when `sticky`, rounded to a multiple of `2^q`: the multiple and
whether it is inexact (R64, R65). `.sr` truncates. -/
def roundAt (r : Rnd) (neg : Bool) (m : Nat) (e : Int) (sticky : Bool) (q : Int) : Nat × Bool :=
  if q ≤ e then (m * 2 ^ (e - q).toNat, sticky)
  else
    let d := 2 ^ (q - e).toNat
    let n := m / d
    let t := m % d
    let inexact := t != 0 || sticky
    let up :=
      match r with
      | .rn => decide (d < 2 * t) || (decide (d = 2 * t) && (sticky || n % 2 == 1))
      | .ru => inexact && !neg
      | .rd => inexact && neg
      | _ => false
    (if up then n + 1 else n, inexact)

/-- The exponent of the last place: precision `p` at an unbounded exponent. -/
def lastPlace (P : FPar) (m : Nat) (e : Int) : Int := e + (bitlen m : Nat) - (P.p : Nat)

/-- The exponent of the last place with subnormal spacing below the smallest normal. -/
def lastPlaceSub (P : FPar) (m : Nat) (e : Int) : Int :=
  if lastPlace P m e < P.emin - (P.mb : Nat) then P.emin - (P.mb : Nat) else lastPlace P m e

/-- A nonzero magnitude below the smallest normal. -/
def isTiny (P : FPar) (m : Nat) (e : Int) : Bool := m != 0 && scaledLt m e 1 P.emin

/-- Whether IEEE 754 delivers infinity for an overflow in this mode and sign. -/
def overflowInf (r : Rnd) (neg : Bool) : Bool :=
  match r with
  | .rn | .sr => true
  | .rz => false
  | .ru => !neg
  | .rd => neg

/-- Rounds an exact magnitude to the multiple of the last place, by mode; under `.sr` by the stream word (R66). Gives the
multiple, its exponent, and whether it is inexact and tiny after rounding (R69). -/
def roundMag (P : FPar) (r : Rnd) (rnd : Nat) (neg : Bool) (m : Nat) (e : Int) (sticky : Bool) : Nat × Int × Bool × Bool :=
  let q := lastPlaceSub P m e
  let (n, inexact) := roundAt r neg m e sticky q
  match r with
  | .sr =>
    if inexact then
      let d := 2 ^ (q - e).toNat
      let n' := if 2 ^ 32 ≤ (m % d) * 2 ^ 32 / d + rnd then n + 1 else n
      (n', q, true, isTiny P n' q || n' == 0)
    else (n, q, false, isTiny P n q)
  | _ =>
    let q' := lastPlace P m e
    let n' := (roundAt r neg m e sticky q').1
    (n, q, inexact, isTiny P n' q' || n' == 0)

/-- The flag word of the conditions that hold. -/
def flagsOf (inv dz ov un ix : Bool) : BitVec 32 :=
  (if inv then fINVALID else 0) ||| (if dz then fDIVZERO else 0) ||| (if ov then fOVERFLOW else 0) |||
    (if un then fUNDERFLOW else 0) ||| (if ix then fINEXACT else 0)

/-- An FP32 or FP64 result of an exact nonzero or zero magnitude, rounded under R65 with the overflow and underflow of
R69 and the flush of R68. -/
def finish (f : Fmt) (r : Rnd) (rnd : Nat) (ftz neg : Bool) (m : Nat) (e : Int) (sticky : Bool) : FRes :=
  let P := fpar f
  if m = 0 ∧ sticky = false then ⟨signBits P neg, 0⟩
  else if ftz && isTiny P m e then ⟨signBits P neg, fUNDERFLOW ||| fINEXACT⟩
  else
    let (n, q, inexact, tiny) := roundMag P r rnd neg m e sticky
    if scaledLt P.maxM P.maxE n q then
      ⟨if overflowInf r neg then infBits f neg else maxBits f neg, fOVERFLOW ||| fINEXACT⟩
    else ⟨encodeF f neg n q, flagsOf false false false (tiny && inexact) inexact⟩

/-- The value after the input flush of R68. -/
def flushIn (f : Fmt) (ftz : Bool) (x : FV) : FV :=
  match x with
  | .fin s m e => if ftz && (f == .f32 || f == .f64) && isTiny (fpar f) m e then .fin s 0 e else .fin s m e
  | y => y

/-- An operand read under R68. -/
def readF (f : Fmt) (ftz : Bool) (x : BitVec 64) : FV := flushIn f ftz (decodeF f x.toNat)

/-- The format of a floating type. -/
def FTy.fmt : FTy → Fmt
  | .f32 => .f32
  | .f64 => .f64

/-- A signalling NaN. -/
def FV.isSNan : FV → Bool
  | .nan s _ => s
  | _ => false

/-- A NaN. -/
def FV.isNan : FV → Bool
  | .nan _ _ => true
  | _ => false

/-- A zero. -/
def FV.isZero : FV → Bool
  | .fin _ 0 _ => true
  | _ => false

/-- The sign. -/
def FV.neg : FV → Bool
  | .nan _ s => s
  | .inf s => s
  | .fin s _ _ => s

/-- The value with the sign inverted. -/
def FV.negate : FV → FV
  | .nan g s => .nan g (!s)
  | .inf s => .inf (!s)
  | .fin s m e => .fin (!s) m e

/-- A NaN result with INVALID when `inv`. -/
def nanRes (f : Fmt) (inv : Bool) : FRes := ⟨nanBits f false, if inv then fINVALID else 0⟩

/-- The exact sum of two finite values: sign, magnitude, exponent; an exact zero has the sign IEEE 754 gives it. -/
def addExact (r : Rnd) (s1 : Bool) (m1 : Nat) (e1 : Int) (s2 : Bool) (m2 : Nat) (e2 : Int) : Bool × Nat × Int :=
  let e := if e1 ≤ e2 then e1 else e2
  let x : Int := (m1 * 2 ^ (e1 - e).toNat : Nat)
  let y : Int := (m2 * 2 ^ (e2 - e).toNat : Nat)
  let z := (if s1 then -x else x) + (if s2 then -y else y)
  if z = 0 then (if s1 = s2 then s1 else r == .rd, 0, e) else (decide (z < 0), z.natAbs, e)

/-- round(A + B) (R199). -/
def faddV (f : Fmt) (r : Rnd) (ftz : Bool) (a b : FV) : FRes :=
  match a, b with
  | .nan g _, y => nanRes f (g || y.isSNan)
  | _, .nan g _ => nanRes f g
  | .inf s, .inf t => if s = t then ⟨infBits f s, 0⟩ else nanRes f true
  | .inf s, _ => ⟨infBits f s, 0⟩
  | _, .inf t => ⟨infBits f t, 0⟩
  | .fin s m e, .fin t n d => let (z, k, x) := addExact r s m e t n d; finish f r 0 ftz z k x false

/-- round(A × B) (R199). -/
def fmulV (f : Fmt) (r : Rnd) (ftz : Bool) (a b : FV) : FRes :=
  match a, b with
  | .nan g _, y => nanRes f (g || y.isSNan)
  | _, .nan g _ => nanRes f g
  | .inf s, y => if y.isZero then nanRes f true else ⟨infBits f (s != y.neg), 0⟩
  | x, .inf t => if x.isZero then nanRes f true else ⟨infBits f (t != x.neg), 0⟩
  | .fin s m e, .fin t n d => finish f r 0 ftz (s != t) (m * n) (e + d) false

/-- round(A × B + C), the product exact (R199). -/
def ffmaV (f : Fmt) (r : Rnd) (ftz : Bool) (a b c : FV) : FRes :=
  let invP :=
    match a, b with
    | .inf _, y => y.isZero
    | x, .inf _ => x.isZero
    | _, _ => false
  let sig := a.isSNan || b.isSNan || c.isSNan
  if a.isNan || b.isNan || c.isNan || invP then nanRes f (sig || invP)
  else
    let s := a.neg != b.neg
    match a, b, c with
    | .fin _ m e, .fin _ n d, .fin t k x =>
      let (z, j, y) := addExact r s (m * n) (e + d) t k x
      finish f r 0 ftz z j y false
    | .fin _ _ _, .fin _ _ _, .inf t => ⟨infBits f t, 0⟩
    | _, _, .inf t => if s = t then ⟨infBits f s, 0⟩ else nanRes f true
    | _, _, _ => ⟨infBits f s, 0⟩

/-- The value is below the other in the order of R200 (no NaN): −0 below +0. -/
def minLt (a b : FV) : Bool :=
  match a, b with
  | .inf s, .inf t => s && !t
  | .inf s, _ => s
  | _, .inf t => !t
  | .fin s m e, .fin t n d =>
    if m = 0 ∧ n = 0 then s && !t
    else if s ≠ t then s
    else if s then scaledLt n d m e else scaledLt m e n d
  | _, _ => false

/-- The pattern of a value of a format that has it exactly. -/
def bitsOf (f : Fmt) (x : FV) : Nat :=
  match x with
  | .nan _ s => nanBits f s
  | .inf s => infBits f s
  | .fin s m e => encodeF f s m e

/-- `fmin`, and `fmax` when `mx` (R200). -/
def fminV (f : Fmt) (mx : Bool) (a b : FV) : FRes :=
  let inv := if a.isSNan || b.isSNan then fINVALID else 0
  if a.isNan && b.isNan then ⟨nanBits f false, inv⟩
  else if a.isNan then ⟨bitsOf f b, inv⟩
  else if b.isNan then ⟨bitsOf f a, inv⟩
  else ⟨bitsOf f (if minLt a b = mx then b else a), inv⟩

/-- Numeric comparison of values that are not NaN, −0 equal to +0: less, equal. -/
def fcompare (a b : FV) : Bool × Bool :=
  if a.isZero && b.isZero then (false, true) else (minLt a b, !(minLt a b) && !(minLt b a))

/-- A condition of `fcmp` with its INVALID (R201). -/
def fcmpV (c : FCond) (a b : FV) : Bool × BitVec 32 :=
  let nan := a.isNan || b.isNan
  let sig := a.isSNan || b.isSNan
  let (lt, eq) := fcompare a b
  match c with
  | .eq => (!nan && eq, if sig then fINVALID else 0)
  | .lt => (!nan && lt, if nan then fINVALID else 0)
  | .le => (!nan && (lt || eq), if nan then fINVALID else 0)
  | .un => (nan, if sig then fINVALID else 0)

/-- The class bit of `fclass`, on raw bits (R202). -/
def fclassBit (f : Fmt) (x : BitVec 64) : Nat :=
  match decodeF f x.toNat with
  | .nan g _ => if g then 0 else 1
  | .inf s => if s then 2 else 9
  | .fin s m e =>
    if m = 0 then (if s then 5 else 6)
    else if isTiny (fpar f) m e then (if s then 4 else 7) else (if s then 3 else 8)

/-- `fscale` (R199): A × 2^n; an exponent beyond ±20000 acts as the bound does, past every format's range. -/
def fscaleV (f : Fmt) (r : Rnd) (ftz : Bool) (a : FV) (n : Int) : FRes :=
  match a with
  | .nan g _ => nanRes f g
  | .inf s => ⟨infBits f s, 0⟩
  | .fin s m e =>
    let k := if n < -20000 then -20000 else if 20000 < n then 20000 else n
    finish f r 0 ftz s m (e + k) false

/-- `frint` (R199). -/
def frintV (f : Fmt) (r : Rnd) (a : FV) : FRes :=
  match a with
  | .nan g _ => nanRes f g
  | .inf s => ⟨infBits f s, 0⟩
  | .fin s m e => if 0 ≤ e then ⟨encodeF f s m e, 0⟩ else ⟨encodeF f s (roundAt r s m e false 0).1 0, 0⟩

/-- The greatest number whose square is at most `m`, bit by bit from bit `i - 1`. -/
def isqrtFrom : Nat → Nat → Nat → Nat
  | 0, _, acc => acc
  | i + 1, m, acc => if (acc + 2 ^ i) * (acc + 2 ^ i) ≤ m then isqrtFrom i m (acc + 2 ^ i) else isqrtFrom i m acc

/-- Integer square root. -/
def isqrt (m : Nat) : Nat := isqrtFrom (bitlen m / 2 + 1) m 0

/-- `fsqrt` (R65, R204's NaN rule). DEDUCED (assumption 50): it raises INEXACT where the root is inexact, as R69 has it; R204, whose
table has no row for it, raises INEXACT on every finite input that the table does not list. -/
def fsqrtV (f : Fmt) (r : Rnd) (ftz : Bool) (a : FV) : FRes :=
  match a with
  | .nan g _ => nanRes f g
  | .inf s => if s then nanRes f true else ⟨infBits f false, 0⟩
  | .fin s m e =>
    if m = 0 then ⟨signBits (fpar f) s, 0⟩
    else if s then nanRes f true
    else
      let k : Nat := 2 * (fpar f).p + 8 + (if (e % 2 = 0) then 0 else 1)
      let x := m * 2 ^ k
      let y := isqrt x
      finish f r 0 ftz false y ((e - (k : Int)) / 2) (y * y != x)

/-- The delivered result with its flags (R204): INEXACT always, UNDERFLOW when tiny, OVERFLOW when infinite, and the
flush of R68. -/
def deliver (f : Fmt) (ftz neg : Bool) (bits : Nat) : FRes :=
  match decodeF f bits with
  | .fin _ m e =>
    let tiny := m == 0 || isTiny (fpar f) m e
    ⟨if tiny && ftz then signBits (fpar f) neg else bits, flagsOf false false false tiny true⟩
  | _ => ⟨bits, fINEXACT ||| fOVERFLOW⟩

/-- `frcp` (R203, R204): correctly rounded; every finite input but ±0 raises INEXACT, UNDERFLOW when the delivered result is
tiny, and OVERFLOW as R69 has it. -/
def frcpV (f : Fmt) (r : Rnd) (ftz : Bool) (a : FV) : FRes :=
  match a with
  | .nan g _ => nanRes f g
  | .inf s => ⟨signBits (fpar f) s, 0⟩
  | .fin s m e =>
    if m = 0 then ⟨infBits f s, fDIVZERO⟩
    else
      let k := bitlen m + (fpar f).p + 4
      let y := finish f r 0 false s (2 ^ k / m) (-(k : Int) - e) (2 ^ k % m != 0)
      let z := deliver f ftz s y.bits
      ⟨z.bits, z.flags ||| (y.flags &&& fOVERFLOW)⟩

/-! ## Conversions (R75 to R77, R209, R210) -/

/-- An integer destination: rounds, then checks the range (R77). -/
def toIntV (ty : IntTy) (r : Rnd) (x : FV) : BitVec 64 × BitVec 32 :=
  match x with
  | .nan _ _ => (0, fINVALID)
  | .inf s => (IntTy.put ty false (if s then IntTy.min ty else IntTy.max ty), fINVALID)
  | .fin s m e =>
    let (n, inexact) := if 0 ≤ e then (if 80 < e ∧ m ≠ 0 then 2 ^ 80 else m * 2 ^ e.toNat, false) else roundAt r s m e false 0
    let z : Int := if s then -(n : Int) else n
    if z < IntTy.min ty then (IntTy.put ty false (IntTy.min ty), fINVALID)
    else if IntTy.max ty < z then (IntTy.put ty false (IntTy.max ty), fINVALID)
    else (IntTy.put ty false z, if inexact then fINEXACT else 0)

/-- The floating part of R77: a value to a floating format. -/
def toFmtV (f : Fmt) (r : Rnd) (rnd : Nat) (nsat ftz : Bool) (x : FV) : FRes :=
  let P := fpar f
  match f with
  | .f32 | .f64 =>
    match x with
    | .nan g _ => nanRes f g
    | .inf s => ⟨infBits f s, 0⟩
    | .fin s m e => finish f r rnd ftz s m e false
  | .e5m3 =>
    match x with
    | .nan g _ => ⟨0xFF, if g then fINVALID else 0⟩
    | .inf s =>
      if s then ⟨0xFF, fINVALID⟩
      else if nsat then ⟨0xFF, fINVALID⟩ else ⟨0xFE, fOVERFLOW ||| fINEXACT⟩
    | .fin s m e =>
      if m = 0 then ⟨0, 0⟩
      else if s then ⟨0xFF, fINVALID⟩
      else
        let (n, q, inexact, tiny) := roundMag P r rnd false m e false
        if scaledLt P.maxM P.maxE n q then ⟨if nsat then 0xFF else 0xFE, fOVERFLOW ||| fINEXACT⟩
        else ⟨encodeF f false n q, flagsOf false false false (tiny && inexact) inexact⟩
  | _ =>
    let hasInf := f == .f16 || f == .bf16 || f == .e5m2
    match x with
    | .nan g s => if f = .e2m1 then ⟨0, fINVALID⟩ else ⟨nanBits f s, if g then fINVALID else 0⟩
    | .inf s =>
      if f = .e2m1 ∨ nsat = false then ⟨maxBits f s, fOVERFLOW ||| fINEXACT⟩
      else if hasInf then ⟨infBits f s, 0⟩
      else ⟨nanBits f s, fINVALID⟩
    | .fin s m e =>
      if m = 0 then ⟨signBits P s, 0⟩
      else
        let (n, q, inexact, tiny) := roundMag P r rnd s m e false
        if scaledLt P.maxM P.maxE n q then
          let v :=
            if f = .e2m1 ∨ nsat = false then maxBits f s
            else if hasInf then (if overflowInf r s then infBits f s else maxBits f s)
            else nanBits f s
          ⟨v, fOVERFLOW ||| fINEXACT⟩
        else ⟨encodeF f s n q, flagsOf false false false (tiny && inexact) inexact⟩

/-- The integer type of an integer format (R144). -/
def Fmt.intTy : Fmt → IntTy
  | .i8 => .i8 | .i16 => .i16 | .i64 => .i64 | .n8 => .n8 | .n16 => .n16 | .n32 => .n32 | .n64 => .n64
  | _ => .i32

/-- A source value of any format from the element's bits (R210). -/
def readFmt (f : Fmt) (ftz : Bool) (x : BitVec 64) : FV :=
  if f.isInt then
    let z := IntTy.read (Fmt.intTy f) x
    .fin (decide (z < 0)) z.natAbs 0
  else readF f ftz x

/-- A conversion (R210): the source element's bits to the destination format; `rnd` is the stream word of `.sr`. A
signalling source raises INVALID whatever the destination. -/
def convert (sf df : Fmt) (r : Rnd) (rnd : Nat) (nsat ftz : Bool) (x : BitVec 64) : BitVec 64 × BitVec 32 :=
  let v := readFmt sf ftz x
  let sig := if v.isSNan then fINVALID else 0
  if df.isInt then
    let (y, fl) := toIntV (Fmt.intTy df) r v
    (y, fl ||| sig)
  else
    let y := toFmtV df r rnd nsat ftz v
    (BitVec.ofNat 64 y.bits, y.flags ||| sig)

/-- Element `i` of a lane in a packed format (R53). -/
def elemAt (f : Fmt) (x : BitVec 64) (i : Nat) : BitVec 64 :=
  let w := (fpar f).w
  if f.perLane = 1 then x else BitVec.ofNat 64 (x.toNat / 2 ^ (w * i) % 2 ^ w)

/-- A lane with element `i` replaced (R53). -/
def setElem (f : Fmt) (x : BitVec 64) (i : Nat) (v : Nat) : BitVec 64 :=
  let w := (fpar f).w
  let old := x.toNat / 2 ^ (w * i) % 2 ^ w
  BitVec.ofNat 64 (x.toNat - old * 2 ^ (w * i) + v % 2 ^ w * 2 ^ (w * i))

/-- The product of an element with an E5M3 scale, exact in FP32 (R61), with INVALID of an infinity times a zero scale. -/
def scaleProduct (f : Fmt) (x scale : Nat) : FRes :=
  match decodeF f x, decodeF .e5m3 scale with
  | .nan _ _, _ => ⟨nanBits .f32 false, 0⟩
  | _, .nan _ _ => ⟨nanBits .f32 false, 0⟩
  | .inf s, y => if y.isZero then ⟨nanBits .f32 false, fINVALID⟩ else ⟨infBits .f32 s, 0⟩
  | .fin s m e, .fin _ n d => ⟨encodeF .f32 s (m * n) (if m * n = 0 then 0 else e + d), 0⟩
  | .fin _ _ _, .inf _ => ⟨nanBits .f32 false, 0⟩

end Sys2Proof.Machine
end

