-- ==== Sys2Proof/Machine/Codec.lean ====
section
/-! DEFINITION. The block code of coded arrays (12 R274 to R282). A block is a number whose bit `i` is bit `i` of the bit
string of R277; values are lists of element bit patterns in position order. -/

namespace Sys2Proof.Machine

/-- Type, dimensionality and rate of a coded array (R231, R274). -/
structure CodedPar where
  f64  : Bool
  d    : Nat
  rate : Nat
  deriving DecidableEq, Repr

namespace Coded

/-- Values of a block: 4^d. -/
def count (P : CodedPar) : Nat := 4 ^ P.d
/-- Block bytes *bb* (R274). -/
def bytes (P : CodedPar) : Nat := 4 ^ P.d * P.rate / 8
/-- Header bits *H*, width cap *C* (R277). -/
def hbits (P : CodedPar) : Nat := if P.f64 then 11 else 8
/-- R277. -/
def cap (P : CodedPar) : Nat := if P.f64 then 55 else 26
/-- Exponent of the quantum *u* for a header (R277). -/
def quantum (P : CodedPar) (e : Nat) : Int := (e : Int) + (P.d : Int) - (if P.f64 then 1074 else 149)
/-- Exponent of the bound below which a hint is accepted (R277). -/
def hintExp (P : CodedPar) (h : Nat) : Int := (h : Int) - (if P.f64 then 1020 else 124)
/-- Decode clamp *Q* (R277). -/
def clampQ (P : CodedPar) : Int := ((2 ^ ((if P.f64 then 54 else 25) - P.d) : Nat) : Int) - 1
/-- The element format. -/
def fmt (P : CodedPar) : Fmt := if P.f64 then .f64 else .f32

/-- The class of a position along an axis (R278): ll 0, hh 1, h1 and h2 2. -/
def cls (p : Nat) : Nat := if p = 0 then 0 else if p = 1 then 1 else 2

/-- The class sum of a coefficient (R278). -/
def sigma (d j : Nat) : Nat :=
  (List.range d).foldl (fun acc a => acc + cls (j / 4 ^ a % 4)) 0

/-- Positions in coefficient order (R278). -/
def order (d : Nat) : List Nat :=
  (List.range (2 * d + 1)).flatMap fun s => (List.range (4 ^ d)).filter fun j => sigma d j == s

/-- R279's widths by class sum, before the extra bits, with the bits left. -/
def widthsFrom (P : CodedPar) (q t : Nat) : List Nat → Nat → List Nat × Nat
  | [], left => ([], left)
  | s :: r, left =>
    let n := ((List.range (4 ^ P.d)).filter fun j => sigma P.d j == s).length
    let want : Int := if s < 2 * P.d then (q : Int) + t - 2 * s else (cap P : Nat)
    let w0 := min (min (cap P : Int) want) ((left / n : Nat) : Int)
    let w := if w0 < 2 then 0 else w0.toNat
    let (ws, l) := widthsFrom P q t r (left - n * w)
    (w :: ws, l)

/-- The extra bits of the last class sum (R279). -/
def extra (cap : Nat) : List (Nat × Nat) → Nat → Nat → List (Nat × Nat)
  | [], _, _ => []
  | (j, w) :: r, last, left =>
    if 0 < left ∧ last = 1 ∧ 2 ≤ w ∧ w < cap then (j, w + 1) :: extra cap r last (left - 1)
    else (j, w) :: extra cap r last left

/-- Every coefficient's position and width, in coefficient order (R278, R279). -/
def widths (P : CodedPar) : List (Nat × Nat) :=
  let n := 4 ^ P.d
  let B := n * P.rate - hbits P
  let q := (B + n - 1) / n
  let t := if P.d = 1 then 3 else if P.d = 2 then 5 else 8
  let (ws, left) := widthsFrom P q t (List.range (2 * P.d + 1)) B
  let all := (order P.d).map fun j => (j, ws.getD (sigma P.d j) 0)
  let lo := all.filter fun c => sigma P.d c.1 != 2 * P.d
  let hi := all.filter fun c => sigma P.d c.1 == 2 * P.d
  lo ++ extra (cap P) hi 1 left

/-- One lifting step forward on a group of four (R280): ll, hh, h1, h2 at positions 0 to 3. -/
def lift (p : Nat) (a b c d : Int) : Int :=
  let h1 := b - a
  let l1 := a + h1 / 2
  let h2 := d - c
  let l2 := c + h2 / 2
  let hh := l2 - l1
  if p = 0 then l1 + hh / 2 else if p = 1 then hh else if p = 2 then h1 else h2

/-- One lifting step back (R281). -/
def unlift (p : Nat) (ll hh h1 h2 : Int) : Int :=
  let l1 := ll - hh / 2
  let l2 := l1 + hh
  let a := l1 - h1 / 2
  let c := l2 - h2 / 2
  if p = 0 then a else if p = 1 then a + h1 else if p = 2 then c else c + h2

/-- A step on every group of four along an axis. -/
def alongAxis (step : Nat → Int → Int → Int → Int → Int) (axis : Nat) (q : List Int) : List Int :=
  let t := 4 ^ axis
  (List.range q.length).map fun j =>
    let p := j / t % 4
    let g := j - p * t
    step p (q.getD g 0) (q.getD (g + t) 0) (q.getD (g + 2 * t) 0) (q.getD (g + 3 * t) 0)

/-- Coefficients read from the code (R277, R281), as (position, value). -/
def readCoefs (cap code : Nat) : List (Nat × Nat) → Nat → List (Nat × Int)
  | [], _ => []
  | (j, w) :: r, pos =>
    if w = 0 then (j, 0) :: readCoefs cap code r pos
    else
      let m := code / 2 ^ (pos + 1) % 2 ^ (w - 1) * 2 ^ (cap - w)
      (j, if code / 2 ^ pos % 2 = 1 then -(m : Int) else (m : Int)) :: readCoefs cap code r (pos + w)

/-- Coefficients written as the code's bits from a position (R277). -/
def writeCoefs (cap : Nat) (q : List Int) : List (Nat × Nat) → Nat → Nat
  | [], _ => 0
  | (j, w) :: r, pos =>
    if w = 0 then writeCoefs cap q r pos
    else
      let c := q.getD j 0
      let m := c.natAbs / 2 ^ (cap - w)
      let s := if c < 0 ∧ m ≠ 0 then 1 else 0
      (s + 2 * m) * 2 ^ pos + writeCoefs cap q r (pos + w)

/-- The header *e* of a code (R277). -/
def header (P : CodedPar) (code : Nat) : Nat := code % 2 ^ hbits P

/-- Eight times the weight of a class sum in R283's bound. -/
def weight (d sig : Nat) : Nat :=
  (match d with
   | 1 => [8, 12, 12]
   | 2 => [8, 24, 42, 36, 18]
   | _ => [8, 36, 90, 135, 135, 81, 27]).getD sig 0

/-- Eight times the bound E(d, b) of R283, in quanta. -/
def errorBound (P : CodedPar) : Nat :=
  (List.range (2 * P.d + 1)).foldl (fun acc g =>
    let w := (widths P).foldl (fun m c => if sigma P.d c.1 = g then max m c.2 else m) 0
    acc + weight P.d g * (if 0 < w then 2 ^ (cap P - w) else if P.f64 then 2 ^ 54 else 2 ^ 25)) (8 * 4 ^ P.d)

/-- Whether finite bits of a sign lie below the largest finite number by at most E(d, b) × u (R283): every value that the
encoder was given then lies within the bound of them. -/
def nearLargest (P : CodedPar) (e : Nat) (neg : Bool) (bits : Nat) : Bool :=
  let F := fpar (fmt P)
  match decodeF (fmt P) bits with
  | .fin s m x => (s == neg) && decide (x ≤ F.maxE) &&
      !scaledLt (errorBound P) (quantum P e - 3) (F.maxM * 2 ^ (F.maxE - x).toNat - m) x
  | _ => false

/-- The bits of q × u (R281). A magnitude beyond the largest finite number is a free value within R283's bound of every value
the block can have been encoded from, else the largest finite number (assumption 11). -/
def valueBits (P : CodedPar) (e : Nat) (q : Int) : Nat :=
  let F := fpar (fmt P)
  let u := quantum P e
  if scaledLt F.maxM F.maxE q.natAbs u then
    let r := (Config.decodeBeyond P.f64 (decide (q < 0)) q.natAbs u).toNat % 2 ^ F.w
    if nearLargest P e (decide (q < 0)) r then r else encodeF (fmt P) (decide (q < 0)) F.maxM F.maxE
  else encodeF (fmt P) (decide (q < 0)) q.natAbs u

/-- The decoded values of a block (R281). -/
def decode (P : CodedPar) (code : Nat) : List Nat :=
  let e := header P code
  if e = 0 then List.replicate (count P) 0
  else
    let cs := readCoefs (cap P) code (widths P) (hbits P)
    let q0 := (List.range (count P)).map fun j => ((cs.find? fun c => c.1 == j).map (·.2)).getD 0
    let q := (List.range P.d).reverse.foldl (fun q a => alongAxis unlift a q) q0
    let Q := clampQ P
    q.map fun x => valueBits P e (if x < -Q then -Q else if Q < x then Q else x)

/-- The exponent field of a value is all ones (R276, R290). -/
def special (P : CodedPar) (x : Nat) : Bool :=
  if P.f64 then x / 2 ^ 52 % 2 ^ 11 == 2047 else x / 2 ^ 23 % 2 ^ 8 == 255

/-- Equal values, −0 equal to +0 (R280). -/
def sameValue (P : CodedPar) (x y : Nat) : Bool :=
  x == y || (x % 2 ^ ((if P.f64 then 64 else 32) - 1) == 0 && y % 2 ^ ((if P.f64 then 64 else 32) - 1) == 0)

/-- x / u truncated toward zero (R280). -/
def quantize (P : CodedPar) (e x : Nat) : Int :=
  match decodeF (fmt P) x with
  | .fin s m k =>
    let u := quantum P e
    let n := if u ≤ k then m * 2 ^ (k - u).toNat else m / 2 ^ (u - k).toNat
    if s then -(n : Int) else n
  | _ => 0

/-- The code of a block (R280), with the reference's code if one is given. -/
def encode (P : CodedPar) (ref : Option Nat) (xs : List Nat) : Nat :=
  let same :=
    match ref with
    | some r => (List.zip xs (decode P r)).all fun p => sameValue P p.1 p.2
    | none => false
  match ref, same with
  | some r, true => r
  | _, _ =>
    let w := if P.f64 then 63 else 31
    if xs.all fun x => x % 2 ^ w == 0 then 0
    else
      let h := (ref.map (header P)).getD 0
      let below := xs.all fun x =>
        match decodeF (fmt P) x with
        | .fin _ m k => scaledLt m k 1 (hintExp P h)
        | _ => true
      let ex := fun x => max 1 (if P.f64 then x / 2 ^ 52 % 2 ^ 11 else x / 2 ^ 23 % 2 ^ 8)
      let e := if h ≠ 0 ∧ below then h else xs.foldl (fun acc x => if x % 2 ^ w = 0 then acc else max acc (ex x)) 0
      let q := (List.range P.d).foldl (fun q a => alongAxis lift a q) (xs.map (quantize P e))
      e + writeCoefs (cap P) q (widths P) (hbits P)

end Coded

end Sys2Proof.Machine
end

