-- ==== Sys2Proof/Machine/PackTable.lean ====
section
/-! DEFINITION. Tables of packed lines and of the expander: R52's header, R296 to R301, and the streams of R312. -/

namespace Sys2Proof.Machine

/-- Exponent bits E and mantissa bits *m* of a coded element (R296). -/
def packFields : Fmt → Option (Nat × Nat)
  | .bf16 => some (8, 7)
  | .e4m3 => some (4, 3)
  | .e5m2 => some (5, 2)
  | _ => none

/-- The format of code 3, 4 or 5 (R296). -/
def packFmt (c : Nat) : Option Fmt :=
  if c = 3 then some .bf16 else if c = 4 then some .e4m3 else if c = 5 then some .e5m2 else none

/-- E of a format, 0 for a format that no table codes. -/
def packE (f : Fmt) : Nat := ((packFields f).map (·.1)).getD 0
/-- *m* of a format. -/
def packM (f : Fmt) : Nat := ((packFields f).map (·.2)).getD 0
/-- Bytes of an element (R296, R312). -/
def packBytes (f : Fmt) : Nat := (packE f + packM f + 1) / 8

/-- Symbol ZERO (R296). -/
def symZERO : Nat := 256

/-- Insertion by ascending (LEN, SYMBOL) (R297). Entries are (symbol, length). -/
def insertCode (e : Nat × Nat) : List (Nat × Nat) → List (Nat × Nat)
  | [] => [e]
  | x :: r => if e.2 < x.2 ∨ (e.2 = x.2 ∧ e.1 < x.1) then e :: x :: r else x :: insertCode e r

/-- Canonical codes of sorted entries (R297): `code` and `len` are the next code and the length it is for. -/
def assignCodes : List (Nat × Nat) → Nat → Nat → List (Nat × Nat × Nat)
  | [], _, _ => []
  | (s, l) :: r, code, len =>
    let c := code * 2 ^ (l - len)
    (s, l, c) :: assignCodes r (c + 1) l

/-- The codes of an exponent table (R297). -/
def canonical (es : List (Nat × Nat)) : List (Nat × Nat × Nat) :=
  let sorted := es.foldl (fun acc e => insertCode e acc) []
  assignCodes sorted 0 ((sorted.head?.map (·.2)).getD 0)

/-- ⌈log2 n⌉ (R300). -/
def clog2 (n : Nat) : Nat := if n ≤ 1 then 0 else Nat.log2 (n - 1) + 1

/-- The table that a header and its entries hold; `none` when it is not well formed (R52, R299 to R301). -/
def parseTable (header : Nat) (entries : List Nat) : Option XTable :=
  let count := field header 47 32
  let kind := field header 17 16
  let id := field header 15 0
  let fmts := entries.map fun e => field e 63 60
  match packFmt (fmts.headD 0) with
  | none => none
  | some f =>
    let hdrOk := field header 127 48 = 0 ∧ field header 31 18 = 0 ∧ kind ≤ 1 ∧ 1 ≤ count ∧ count ≤ 512 ∧ id ≠ 0
    let same := fmts.all fun c => c == fmts.headD 0
    if ¬hdrOk ∨ !same ∨ entries.length ≠ count then none
    else if kind = 0 then
      let syms := entries.map fun e => (field e 8 0, field e 19 16)
      let rsv := entries.all fun e => field e 59 20 == 0 && field e 15 9 == 0
      let range := syms.all fun p => 1 ≤ p.2 && p.2 ≤ 12
      let once := syms.all fun p => (syms.filter fun q => q.1 == p.1).length == 1
      let kraft := syms.foldl (fun acc p => acc + 2 ^ (12 - p.2)) 0
      if rsv && range && once && kraft ≤ 2 ^ 12 then
        some ⟨f, false, BitVec.ofNat 16 id, canonical syms, 0⟩
      else none
    else
      let rsv := entries.all fun e => field e 59 16 == 0 && field e 15 0 < 256 ^ packBytes f
      if rsv && 2 ≤ count then
        some ⟨f, true, BitVec.ofNat 16 id, (List.range count).map fun j => (j, clog2 count, field (entries.getD j 0) 15 0),
          clog2 count⟩
      else none

/-- The code of a symbol. -/
def codeOf (t : XTable) (sym : Nat) : Option (Nat × Nat) := (t.codes.find? fun c => c.1 == sym).map (·.2)

/-- The symbol that codes an element, and its raw value when it has one (R296). -/
def symbolOf (t : XTable) (x : Nat) : Nat × Option Nat :=
  let m := packM t.fmt
  let e := packE t.fmt
  if x = 0 ∧ (codeOf t symZERO).isSome then (symZERO, none)
  else (x / 2 ^ m % 2 ^ e, some (x / 2 ^ (e + m) * 2 ^ m + x % 2 ^ m))

/-- The element of a symbol and a raw value. A symbol that R301 lets a table hold and that is neither ZERO nor an exponent value
stands for an element that the manual does not state: a free value (assumption 64). -/
def elementOf (t : XTable) (sym raw : Nat) : Nat :=
  let m := packM t.fmt
  let e := packE t.fmt
  if sym = symZERO then 0
  else if 2 ^ e ≤ sym then (Config.symbolElement t.fmt.code sym raw).toNat % 2 ^ (1 + e + m)
  else raw / 2 ^ m * 2 ^ (e + m) + sym * 2 ^ m + raw % 2 ^ m

/-- The elements of a line's bytes (R298). -/
def lineElems (t : XTable) (bs : List Byte) : List Nat :=
  let w := packBytes t.fmt
  (List.range (bs.length / w)).map fun i => natAt bs (w * i) w

/-- The code field of elements: bits written and their number; a code's most significant bit stands lowest. -/
def codeField (t : XTable) : List Nat → Nat → Option (Nat × Nat)
  | [], pos => some (0, pos)
  | x :: r, pos =>
    match codeOf t (symbolOf t x).1 with
    | none => none
    | some (l, c) => (codeField t r (pos + l)).map fun p => (bitrev l c * 2 ^ pos + p.1, p.2)

/-- The raw field of elements from a position (R298). -/
def rawField (t : XTable) : List Nat → Nat → Nat × Nat
  | [], pos => (0, pos)
  | x :: r, pos =>
    match (symbolOf t x).2 with
    | none => rawField t r pos
    | some v =>
      let p := rawField t r (pos + packM t.fmt + 1)
      (v * 2 ^ pos + p.1, p.2)

/-- The 32-byte packed form of a line, when it packs with an exponent table (R298). -/
def packLine (t : XTable) (bs : List Byte) : Option (List Byte) :=
  if t.book then none
  else
    let es := lineElems t bs
    match codeField t es 0 with
    | none => none
    | some (code, pos) =>
      let r := rawField t es pos
      if r.2 ≤ 256 then some (bytesOf 32 (code + r.1)) else none

/-- The state a controller gives a line that is written whole (R303): 2 ZERO, 1 PACKED, 0 RAW. -/
def lineState (bound : Option XTable) (bs : List Byte) : BitVec 2 :=
  if bs.all fun b => b == 0 then 2
  else
    match bound with
    | some t => if (packLine t bs).isSome then 1 else 0
    | none => 0

/-! ## Streams (R312) -/

/-- What decoding a row of a stream gives. -/
inductive Expand (α : Type) where
  | ok (x : α) (pos : Nat)
  /-- A bit string that matches no code, or an index of COUNT or more. -/
  | noMatch
  /-- The source bit that could not be read. -/
  | need (bit : Nat)
  deriving Repr

/-- One symbol from bit `pos`: `fuel` bits at most, `code` the `len` bits read so far. -/
def readSymbol (t : XTable) (bit : Nat → Option Bool) : Nat → Nat → Nat → Nat → Expand Nat
  | 0, _, _, _ => .noMatch
  | fuel + 1, pos, code, len =>
    match bit pos with
    | none => .need pos
    | some b =>
      let code' := 2 * code + (if b then 1 else 0)
      match t.codes.find? fun c => c.2.1 == len + 1 && c.2.2 == code' with
      | some c => .ok c.1 (pos + 1)
      | none => readSymbol t bit fuel (pos + 1) code' (len + 1)

/-- The longest code of a table. -/
def maxLen (t : XTable) : Nat := t.codes.foldl (fun acc c => max acc c.2.1) 0

/-- `n` symbols. -/
def readSymbols (t : XTable) (bit : Nat → Option Bool) : Nat → Nat → Expand (List Nat)
  | 0, pos => .ok [] pos
  | n + 1, pos =>
    match readSymbol t bit (maxLen t) pos 0 0 with
    | .noMatch => .noMatch
    | .need b => .need b
    | .ok s p =>
      match readSymbols t bit n p with
      | .noMatch => .noMatch
      | .need b => .need b
      | .ok r q => .ok (s :: r) q

/-- `w` bits as a number, least significant first. -/
def readBits (bit : Nat → Option Bool) : Nat → Nat → Expand Nat
  | 0, pos => .ok 0 pos
  | w + 1, pos =>
    match bit pos with
    | none => .need pos
    | some b =>
      match readBits bit w (pos + 1) with
      | .noMatch => .noMatch
      | .need p => .need p
      | .ok v q => .ok ((if b then 1 else 0) + 2 * v) q

/-- The raw values of symbols, as elements (R296, R298). -/
def readRaws (t : XTable) (bit : Nat → Option Bool) : List Nat → Nat → Expand (List Nat)
  | [], pos => .ok [] pos
  | s :: r, pos =>
    match if s = symZERO then .ok 0 pos else readBits bit (packM t.fmt + 1) pos with
    | .noMatch => .noMatch
    | .need b => .need b
    | .ok v p =>
      match readRaws t bit r p with
      | .noMatch => .noMatch
      | .need b => .need b
      | .ok es q => .ok (elementOf t s v :: es) q

/-- `n` codebook indices as elements. -/
def readIndices (t : XTable) (bit : Nat → Option Bool) : Nat → Nat → Expand (List Nat)
  | 0, pos => .ok [] pos
  | n + 1, pos =>
    match readBits bit t.iw pos with
    | .noMatch => .noMatch
    | .need b => .need b
    | .ok j p =>
      match codeOf t j with
      | none => .noMatch
      | some (_, v) =>
        match readIndices t bit n p with
        | .noMatch => .noMatch
        | .need b => .need b
        | .ok es q => .ok (v :: es) q

/-- The elements of one destination row (R312). -/
def expandRow (t : XTable) (bit : Nat → Option Bool) (n : Nat) : Expand (List Nat) :=
  if t.book then readIndices t bit n 0
  else
    match readSymbols t bit n 0 with
    | .noMatch => .noMatch
    | .need b => .need b
    | .ok ss p => readRaws t bit ss p

end Sys2Proof.Machine
end

