-- ==== Sys2Proof/Machine/Memory.lean ====
section
/-! DEFINITION. Bytes behind translation: physical addresses (09 R222 to R224), homes over stacks (R225, R226), line
metadata (14 R302, R303), poison (21 R403), Commutative and Coded elements (R236, R237, 12 R276, R286), scratchpad
bytes, and what a write by one agent does to the others: conflicts (18 R373, R383) and wakes (07 R174). -/

namespace Sys2Proof.Machine

/-! ## Physical addresses -/

/-- DEVNUM (R222). -/
def paDev (pa : Nat) : Nat := field pa 51 44
/-- REGION (R222). -/
def paRegion (pa : Nat) : Nat := field pa 43 40
/-- STACK (R222). -/
def paStack (pa : Nat) : Nat := field pa 39 36
/-- OFFSET (R222). -/
def paOff (pa : Nat) : Nat := field pa 35 0
/-- Only offsets below 48 × 10^9 of REGION 0 are populated (R222). -/
def populated (pa : Nat) : Bool := paRegion pa == 0 && paOff pa < 48000000000

/-- Home slice of a line (R223). -/
def homeSlice (pa : Nat) : Nat :=
  let h := (field pa 6 6 + field pa 11 11 + field pa 16 16 + field pa 21 21 + field pa 26 26 + field pa 31 31) % 2
  2 * paStack pa + h

/-- The unified configuration (R22, R442). -/
def unified (s : State) : Bool := s.dev.partcfg == 0
/-- The partition of a die half (R22). -/
def partOfHalf (s : State) (h : Nat) : Nat := if unified s then 0 else h
/-- The partition of a core (R14, R22). -/
def partOfCore (s : State) (c : Nat) : Nat := partOfHalf s (c / 32)
/-- The partition of a stack (R14, R22). -/
def partOfStack (s : State) (k : Nat) : Nat := partOfHalf s (k / 2)
/-- Whether a partition is formed (R442). -/
def partFormed (s : State) (p : Nat) : Bool := if unified s then p == 0 else s.dev.partcfg.getLsbD p
/-- The cores of a partition, ascending. -/
def partCores (s : State) (p : Nat) : List Nat :=
  if unified s then List.range 256 else (List.range 32).map (· + 32 * p)
/-- The first stack of a partition and how many it has. -/
def partStacks (s : State) (p : Nat) : Nat × Nat := if unified s then (0, 16) else (2 * p, 2)
/-- Local memory of a partition: populated, of this device, in the partition's stacks. -/
def localTo (s : State) (p pa : Nat) : Bool :=
  paDev pa == s.dev.devid.toNat && populated pa && (partStacks s p).1 ≤ paStack pa &&
    paStack pa < (partStacks s p).1 + (partStacks s p).2
/-- A foreign frame (R241). -/
def foreignTo (s : State) (p pa : Nat) : Bool :=
  paDev pa != s.dev.devid.toNat || (paRegion pa == 0 && partOfStack s (paStack pa) != p)
/-- Of this device. -/
def ownDev (s : State) (pa : Nat) : Bool := paDev pa == s.dev.devid.toNat

/-- First byte of a partition's mailbox window (R238, R437; its place is assumption 6). -/
def mailboxBase (s : State) (p : Nat) : Nat :=
  s.dev.devid.toNat * 2 ^ 44 + (partStacks s p).1 * 2 ^ 36 + Config.mailboxOffset
/-- Inside a partition's mailbox window. -/
def inMailbox (s : State) (p pa : Nat) : Bool := mailboxBase s p ≤ pa && pa < mailboxBase s p + Config.mailboxSize
/-- The partition whose mailbox window holds an address. -/
def mailboxOf (s : State) (pa : Nat) : Option Nat :=
  (List.range 8).find? fun p => partFormed s p && inMailbox s p pa

/-! ## Agents (21 R424) -/

/-- The partition that keeps an agent's incarnation number. -/
def agentPart (s : State) (kind : AgentKind) (num : Nat) : Nat :=
  match kind with
  | .core | .copyEngine => partOfCore s num
  | .slice => partOfHalf s (num / 4)
  | .controller => partOfStack s num
  | .dieHalf => partOfHalf s num
  | .link | .device => 0

/-- The incarnation number of an agent; all start at 0. -/
def incarnation (s : State) (kind : AgentKind) (num : Nat) : Nat :=
  (((s.parts.getD (agentPart s kind num) Partn.init).incarn.find? fun x => x.1 == kind && x.2.1 == num).map (·.2.2)).getD 0

/-- An agent has failed and not rejoined, or the die half that it is part of has (R426). -/
def agentDown (s : State) (kind : AgentKind) (num : Nat) : Bool :=
  s.dev.failed != [] && (s.dev.failed.contains (kind, num) || match kind with
    | .core | .copyEngine => s.dev.failed.contains (.dieHalf, num / 32)
    | .slice => s.dev.failed.contains (.dieHalf, num / 4)
    | .controller => s.dev.failed.contains (.dieHalf, num / 2)
    | _ => false)

/-! ## Bytes of a stack and of its home -/

/-- What an unlisted address reads as: 0 under the keys of R447, a free value after the key was discarded (R443). -/
def stackDefault (ms : MemSys) (pa : Nat) : Byte :=
  let e := Tab.getD ms.keys (paStack pa) 0
  if e = 0 then 0 else Config.keyByte e (pa % 2 ^ 44)

/-- The byte of a stack. -/
def stackByte (ms : MemSys) (pa : Nat) : Byte := (Cells.get ms.mem pa).getD (stackDefault ms pa)
/-- The byte at the home: its own copy, else the stack's (R225). -/
def homeByte (ms : MemSys) (pa : Nat) : Byte := (Cells.get ms.home pa).getD (stackByte ms pa)

/-- A granule nothing has touched (R302). -/
def Granule.init : Granule := ⟨Vector.ofFn fun _ => 0, 0⟩
/-- The metadata record of an address. -/
def granOf (ms : MemSys) (pa : Nat) : Granule := Tab.getD ms.granules (pa / 4096) Granule.init
/-- Replaces a metadata record; one equal to the initial record is not listed. -/
def setGran (ms : MemSys) (pa : Nat) (g : Granule) : MemSys :=
  if g = Granule.init then { ms with granules := Tab.del ms.granules (pa / 4096) }
  else { ms with granules := Tab.set ms.granules (pa / 4096) g }
/-- The state of a line (R302). -/
def lineSt (ms : MemSys) (pa : Nat) : BitVec 2 := (granOf ms pa).states.getD (pa / 64 % 64) 0
/-- Sets the state of a line. -/
def setLineSt (ms : MemSys) (pa : Nat) (v : BitVec 2) : MemSys :=
  let g := granOf ms pa
  setGran ms pa { g with states := Vector.ofFn fun i => if i.val = pa / 64 % 64 then v else g.states.getD i.val 0 }

/-- A poisoned byte as its home reads it: poisoned itself, or unheld on a POISONED line (R308, R403). -/
def isPoison (ms : MemSys) (pa : Nat) : Bool :=
  ms.poison.contains pa || ((Cells.get ms.home pa).isNone && lineSt ms pa == 3)

/-- Writes a byte into a stack, keeping the canonical form. -/
def putStack (ms : MemSys) (pa : Nat) (b : Byte) : MemSys :=
  { ms with mem := Cells.write (stackDefault ms pa) ms.mem pa b }

/-- Writes a byte at its home (R225). What was poisoned there stays so: a write of less than a line clears no poison
(R403). On a POISONED line a home holds the bytes that were written and no others (R308). -/
def putHome (ms : MemSys) (pa : Nat) (b : Byte) : MemSys :=
  { ms with
    home := Cells.put ms.home pa b
    poison := if (Cells.get ms.home pa).isNone ∧ lineSt ms pa = 3 then addNew ms.poison pa else ms.poison }

/-- The contexts of a dirty line with one more, the latest first (R426). -/
def addContext (ctx : Option (Nat × Nat)) (old : List (Nat × Nat)) : List (Nat × Nat) :=
  match ctx with
  | none => old
  | some c => c :: old.filter (· != c)

/-- Writes bytes at their home from an address on; every line becomes dirty for a context. -/
def putHomes (ctx : Option (Nat × Nat)) : MemSys → Nat → List Byte → MemSys
  | ms, _, [] => ms
  | ms, pa, b :: bs =>
    putHomes ctx { putHome ms pa b with
      dirty := Tab.set ms.dirty (pa / 64) (addContext ctx (Tab.getD ms.dirty (pa / 64) [])) } (pa + 1) bs

/-- Bytes at the home. -/
def homeBytes (ms : MemSys) (pa n : Nat) : List Byte := (List.range n).map fun i => homeByte ms (pa + i)
/-- The bytes of a line that its home holds. -/
def heldBytes (ms : MemSys) (line : Nat) : List Host.Cell := ms.home.filter fun c => c.1 / 64 == line
/-- The home holds every byte of a line. -/
def holdsLine (ms : MemSys) (line : Nat) : Bool := (List.range 64).all fun i => (Cells.get ms.home (64 * line + i)).isSome

/-- A write of whole lines clears the poison of their bytes (R403): of the lines that lie wholly in `n` bytes from an address, and
of a POISONED line of which writes have now supplied every byte (R308). -/
def clearWhole (ms : MemSys) (pa n : Nat) : MemSys :=
  if ms.poison = [] then ms
  else { ms with poison := ms.poison.filter fun a =>
    !((decide (pa ≤ a / 64 * 64) && decide (a / 64 * 64 + 64 ≤ pa + n)) ||
      (decide (pa / 64 ≤ a / 64) && decide (a / 64 * 64 < pa + n) && lineSt ms a == 3 && holdsLine ms (a / 64))) }

/-- A controller's line-metadata cache takes in the record of an address (R20, R302). -/
def noteMeta (pa : Nat) (s : State) : State :=
  if s.msys.metas.contains (pa / 4096) then s else { s with msys := { s.msys with metas := s.msys.metas ++ [pa / 4096] } }
/-- A read of a line goes to its stack unless its home holds the whole of it, and brings the line's record in (R307). -/
def noteStack (line : Nat) (s : State) : State := if holdsLine s.msys line then s else noteMeta (64 * line) s

/-- The captured table that a granule's line packs with (R303, R304). -/
def boundTable (s : State) (pa : Nat) : Option XTable :=
  let t := (granOf s.msys pa).table
  if t = 0 then none else Tab.get (s.parts.getD (partOfStack s (paStack pa)) Partn.init).captured t.toNat

/-- Writes a whole line of 64 bytes into its stack: the controller sets its state (R303, R307, R308). -/
def putWholeLine (s : State) (pa : Nat) (bs : List Byte) : State :=
  let ms := (List.range 64).foldl (fun ms i => putStack ms (pa + i) (bs.getD i 0)) s.msys
  let st : BitVec 2 := if lineSt s.msys pa = 3 then 0 else lineState (boundTable s pa) bs
  noteMeta pa { s with msys := setLineSt ms pa st }

/-- Writes some bytes of a line into its stack: read, merged and stored RAW (assumption 12). -/
def putSomeBytes (s : State) (cells : List Host.Cell) : State :=
  cells.foldl (fun s c => noteMeta c.1 { s with msys := setLineSt (putStack s.msys c.1 c.2) c.1 0 }) s

/-! ## Scratchpad -/

/-- What a core holds. -/
def coreOf (s : State) (c : Nat) : CoreRec := Tab.getD s.cores c CoreRec.init
/-- Replaces what a core holds; a core with nothing on it is not listed. -/
def setCore (s : State) (c : Nat) (r : CoreRec) : State :=
  if r = CoreRec.init then { s with cores := Tab.del s.cores c } else { s with cores := Tab.set s.cores c r }
/-- A byte of a core's scratchpad. -/
def scrByte (s : State) (c off : Nat) : Byte := (Cells.get (coreOf s c).scratch off).getD 0
/-- Writes bytes of a core's scratchpad from an offset on; whole lines of 64 bytes lose their poison (R403). -/
def putScr (s : State) (c off : Nat) (bs : List Byte) : State :=
  let r := coreOf s c
  let sc := (bs.foldl (fun (p : List Host.Cell × Nat) b => (Cells.write 0 p.1 p.2 b, p.2 + 1)) (r.scratch, off)).1
  setCore s c { r with
    scratch := sc
    spoison := if r.spoison = [] then []
      else r.spoison.filter fun o => !(decide (off ≤ o / 64 * 64) && decide (o / 64 * 64 + 64 ≤ off + bs.length)) }

/-! ## What a write does to others -/

/-- The line of a location (R373). -/
def Loc.key : Loc → Option Nat × Nat
  | .dev pa => (none, pa / 64)
  | .scr c o => (some c, o / 64)

/-- The status of a fibre when a line is written: LINE on that line ends (R174). -/
def wakeLine (k : Option Nat × Nat) : FStatus → FStatus
  | .line pa => if k = (none, pa / 64) then .ready else .line pa
  | st => st

/-- A write by an agent to a line, as a fibre meets it: a conflict on a marked line or a line of the quantum's read set, where
the write is another's (R373, R383), and the end of `wline` (R174), which the fibre's own write can bring about too: one of its
handler that is performed later. -/
def meetWrite (clock : Nat) (who : Option FibreId) (k : Option Nat × Nat) (f : Fibre) : Fibre :=
  let hit := who != some f.id && ((f.unfin.any fun h => h.marks.contains k) || f.qlines.contains k)
  let woken := wakeLine k f.status
  { f with
    conflict := f.conflict || hit
    status := woken
    readySince := if woken = f.status then f.readySince else clock
    regs := { f.regs with frozen := wakeLine k f.regs.frozen } }

/-- The slice at which an address is served: that of the first byte of the coded block that it lies in, where a home keeps one
(R223, R285). -/
def servedBy (s : State) (pa : Nat) : Nat :=
  match s.msys.coded.find? fun b => decide (b.1 ≤ pa) && decide (pa < b.1 + b.2) with
  | some b => homeSlice b.1
  | none => homeSlice pa

/-- The links and queues from a die to an address of this device: the fabric to the die of its home and the home's queue. -/
def homePath (s : State) (die pa : Nat) : List LinkKind :=
  let home := servedBy s pa
  if die = home / 8 then [.queue home] else [.fabric die (home / 8), .queue home]

/-- The links and queues that an access of a core to an address crosses: to the home from the core's die; to another partition's
memory by way of the I/O die; to another device through the Spemer port that bits [8:6] choose (R22, R241, R422, R441,
assumption 53). -/
def linkPath (s : State) (core pa : Nat) : List LinkKind :=
  if !ownDev s pa then [.fabric (core / 64) 4, .spemer (pa / 64 % 8)]
  else if foreignTo s (partOfCore s core) pa then .fabric (core / 64) 4 :: homePath s 4 pa
  else homePath s (core / 64) pa

/-- Traffic of a context crosses the links on the way of an access of a core (R422, R441). -/
def useLink (core p asid pa : Nat) (s : State) : State :=
  let path := linkPath s core pa
  { s with links := updIf (fun l => path.contains l.kind) (fun l => { l with users := addNew l.users (p, asid) }) s.links }
/-- A link of a path has stopped (R423). -/
def pathStopped (s : State) (path : List LinkKind) : Bool := s.links.any fun l => l.stopped && path.contains l.kind
/-- A link on the way of an access of a core has stopped (R423). -/
def linkStopped (s : State) (core pa : Nat) : Bool :=
  (s.links.any fun l => l.stopped) && pathStopped s (linkPath s core pa)
/-- The agent that serves an address is down, a slice or controller of this device or another device: what is sent to it waits until
it rejoins (R425, R426). -/
def homeDown (s : State) (pa : Nat) : Bool :=
  s.dev.failed != [] && if ownDev s pa then
    paRegion pa == 0 && (agentDown s .slice (servedBy s pa) || agentDown s .controller (paStack pa))
  else agentDown s .device (paDev pa)
/-- An access of a core to an address cannot be served now. -/
def pathHeld (s : State) (core pa : Nat) : Bool := linkStopped s core pa || homeDown s pa
/-- An access of the host to an address cannot be served now: it comes over the link to the host and the fabric from the I/O
die. -/
def hostHeld (s : State) (pa : Nat) : Bool := pathStopped s (.cxl :: homePath s 4 pa) || homeDown s pa
/-- A request of another device to an address cannot be served now: it comes through the port that its bits [8:6] choose. -/
def peerHeld (s : State) (pa : Nat) : Bool := pathStopped s (.spemer (pa / 64 % 8) :: homePath s 4 pa) || homeDown s pa

/-- The core's own L1 copy of a line, as the home records it. -/
def copyOf (s : State) (line core : Nat) : Copy := ⟨line, core, incarnation s .core core⟩

/-- A writing event on a line: other fibres meet it, every L1 copy but the writing core's is invalidated (R225), and so is
a copy of the host (R238). -/
def noteWrite (who : Option FibreId) (core : Option Nat) (k : Option Nat × Nat) (s : State) : State :=
  let dir := if k.1 = none then s.msys.dir.filter fun d => d.line != k.2 || some d.core == core else s.msys.dir
  let hostDir := if k.1 = none ∧ s.msys.hostDir ≠ [] then s.msys.hostDir.filter (· != k.2) else s.msys.hostDir
  { s with fibres := s.fibres.map (meetWrite s.clock who k), msys := { s.msys with dir := dir, hostDir := hostDir } }

/-- Copies of a line lost by one core, or by every core: a conflict for the fibres there that marked it (R373). -/
def loseCopies (line : Nat) (core : Option Nat) (s : State) : State :=
  let meets := fun (f : Fibre) => match core with
    | some c => f.id.core == c
    | none => true
  { s with
    fibres := s.fibres.map fun f =>
      if meets f && (f.unfin.any fun h => h.marks.contains (none, line)) then { f with conflict := true } else f
    msys := { s.msys with dir := s.msys.dir.filter fun d => d.line != line || match core with
      | some c => d.core != c
      | none => false } }

/-- The lines of a range of bytes. -/
def linesOf (pa n : Nat) : List Nat := if n = 0 then [] else (List.range ((pa + n - 1) / 64 - pa / 64 + 1)).map (· + pa / 64)

/-- A write of bytes of device memory at their home by an agent. -/
def writeDev (who : Option FibreId) (core : Option Nat) (ctx : Option (Nat × Nat)) (pa : Nat) (bs : List Byte) (s : State) :
    State :=
  let s := { s with msys := clearWhole (putHomes ctx s.msys pa bs) pa bs.length }
  (linesOf pa bs.length).foldl (fun s l => noteWrite who core (none, l) s) s

/-- A write of bytes of a scratchpad by an agent. -/
def writeScr (who : Option FibreId) (c off : Nat) (bs : List Byte) (s : State) : State :=
  let s := putScr s c off bs
  (linesOf off bs.length).foldl (fun s l => noteWrite who none (some c, l) s) s

/-! ## Host-noncoherent lines (17 R348, R349) -/

/-- What a fibre has seen; one without a record has seen nothing. -/
def hncViewOf (ms : MemSys) (id : FibreId) : HncView := (ms.hncViews.find? fun v => v.id == id).getD ⟨id, 0, [], [], 0, []⟩
/-- Replaces what a fibre has seen. -/
def setHncView (ms : MemSys) (v : HncView) : MemSys := { ms with hncViews := ms.hncViews.filter (·.id != v.id) ++ [v] }
/-- What has been written so far comes before whatever a fibre reads from now on (R351). -/
def HncView.raise (n : Nat) (v : HncView) : HncView := { v with base := max v.base n }
/-- A fibre's access has met a line after its first `k` writes; what stood before the access is passed on with it (R349). -/
def HncView.meet (line k : Nat) (v : HncView) : HncView :=
  { v with own := Tab.set v.own line (max (Tab.getD v.own line 0) k), cbase := v.base, carry := v.view }

/-- How many of the writes a read of a line by a fibre follows, with `lag` of the latest left out where the fibre has seen
none of them. -/
def hncIndex (ms : MemSys) (lag : Nat) (id : FibreId) (line : Nat) : Nat :=
  let v := hncViewOf ms id
  max (max v.base (max (Tab.getD v.view line 0) (Tab.getD v.own line 0))) (ms.hncNum - lag)

/-- A byte of a Host-noncoherent line after the first `k` writes. -/
def hncByte (ms : MemSys) (k pa : Nat) : Byte :=
  ((ms.hncLog.find? fun r => decide (k ≤ r.1) && r.2.1 == pa).map (·.2.2)).getD (homeByte ms pa)

/-- The lines of Host-noncoherent parts of this device. -/
def hncLines (s : State) (a : LaneAcc) : List Nat :=
  a.parts.flatMap fun p => match p.loc, p.kind with
    | .dev pa, .hostNon => if ownDev s pa then linesOf pa p.len else []
    | _, _ => []

/-- Memory as a read by a fibre finds it: Host-noncoherent lines may stand as they were before writes that it has not seen
(assumption 46). -/
def staleView (id : FibreId) (lag : Nat) (accs : List LaneAcc) (s : State) : State :=
  if lag = 0 ∨ s.msys.hncLog = [] then s
  else
    (accs.flatMap (hncLines s)).foldl (fun t l =>
      { t with msys := (List.range 64).foldl (fun ms i =>
        { ms with home := Cells.put ms.home (64 * l + i) (hncByte s.msys (hncIndex s.msys lag id l) (64 * l + i)) }) t.msys }) s

/-- The device lines that elements touch. -/
def devLines (accs : List LaneAcc) : List Nat :=
  accs.flatMap fun a => a.parts.flatMap fun p => match p.loc with
    | .dev pa => linesOf pa p.len
    | .scr _ _ => []

/-- A fibre that reads lines of event rings has what came before their records behind it (R351). -/
def seeRecords (id : FibreId) (lines : List Nat) (s : State) : State :=
  let n := lines.foldl (fun n l => max n (Tab.getD s.msys.hncRecs l 0)) 0
  if n = 0 then s else { s with msys := setHncView s.msys ((hncViewOf s.msys id).raise n) }

/-- A fibre has read lines: it reads nothing older there again (R348), nor anywhere after a record that it has read (R351). -/
def seeHnc (id : FibreId) (lag : Nat) (accs : List LaneAcc) (s : State) : State :=
  if s.msys.hncNum = 0 then s
  else
    let ls := accs.flatMap (hncLines s)
    let v := ls.foldl (fun v l => v.meet l (hncIndex s.msys lag id l)) (hncViewOf s.msys id)
    seeRecords id (devLines accs) (if ls = [] then s else { s with msys := setHncView s.msys v })

/-- A write of bytes that Host-noncoherent lines may hold: what it replaces is kept, and a fibre that writes has seen it. -/
def logHnc (who : Option FibreId) (pas : List Nat) (s : State) : State :=
  let ms := s.msys
  let ms' := { ms with hncNum := ms.hncNum + 1, hncLog := ms.hncLog ++ pas.map fun a => (ms.hncNum, a, homeByte ms a) }
  match who with
  | none => { s with msys := ms' }
  | some id =>
    let v := ((pas.map (· / 64)).foldl addNew []).foldl (fun v l => v.meet l (ms.hncNum + 1)) (hncViewOf ms id)
    { s with msys := setHncView ms' v }

/-! ## Updates and Commutative elements -/

/-- Width of an update's element in bytes (R268). -/
def UpdOp.bytes : UpdOp → Nat
  | .int _ => 4
  | .flt .addF32 | .flt .minF32 | .flt .maxF32 => 4
  | .flt _ => 8

/-- The new value of an integer update of 32 bits (R268). -/
def atomVal (o : AtomOp) (a b : BitVec 64) : BitVec 64 :=
  let low := fun (x : BitVec 64) => BitVec.ofNat 64 (x.toNat % 2 ^ 32)
  match o with
  | .add => low (binOp .add .n32 false a b)
  | .smin => low (binOp .min .i32 false a b)
  | .smax => low (binOp .max .i32 false a b)
  | .umin => binOp .min .n32 false a b
  | .umax => binOp .max .n32 false a b
  | .and => binOp .and .n32 false a b
  | .or => binOp .or .n32 false a b
  | .xor => binOp .xor .n32 false a b

/-- The bits of a floating sum, nearest rounding, subnormals kept (R236, R268). -/
def faddBits (f : Fmt) (a b : BitVec 64) : BitVec 64 :=
  BitVec.ofNat 64 (faddV f .rn false (readF f false a) (readF f false b)).bits
/-- The bits of a floating minimum or maximum (R200, R268). -/
def fminBits (f : Fmt) (mx : Bool) (a b : BitVec 64) : BitVec 64 :=
  BitVec.ofNat 64 (fminV f mx (readF f false a) (readF f false b)).bits

/-- The new value of an update (R268). -/
def updVal (o : UpdOp) (a b : BitVec 64) : BitVec 64 :=
  match o with
  | .int i => atomVal i a b
  | .flt .addF32 => faddBits .f32 a b
  | .flt .addF64 => faddBits .f64 a b
  | .flt .minF32 => fminBits .f32 false a b
  | .flt .maxF32 => fminBits .f32 true a b
  | .flt .minF64 => fminBits .f64 false a b
  | .flt .maxF64 => fminBits .f64 true a b
  | .flt .addN64 => a + b

/-- Width of an element of a Commutative page in bytes (R231). -/
def commBytes (f : Fmt) : Nat :=
  match f with
  | .f64 | .i64 | .n64 => 8
  | _ => 4

/-- Keeps the low bytes of a value. -/
def lowBytes (n : Nat) (x : BitVec 64) : BitVec 64 := BitVec.ofNat 64 (x.toNat % 256 ^ n)

/-- The combining operation of a Commutative page (R236): OP 0 add, 1 min, 2 max, 3 and, 4 or, 5 xor. -/
def commVal (f : Fmt) (op : BitVec 3) (a b : BitVec 64) : BitVec 64 :=
  let fl := f == .f32 || f == .f64
  let ty := Fmt.intTy f
  let int := fun (o : BinOp) => lowBytes (commBytes f) (binOp o ty false a b)
  if op = 0 then (if fl then faddBits f a b else int .add)
  else if op = 1 then (if fl then fminBits f false a b else int .min)
  else if op = 2 then (if fl then fminBits f true a b else int .max)
  else if op = 3 then int .and
  else if op = 4 then int .or
  else int .xor

/-- The updates that match a Commutative page's FMT and OP (R269). -/
def commMatch (f : Fmt) (op : BitVec 3) (u : UpdOp) : Bool :=
  match u with
  | .int .add => op == 0 && (f == .i32 || f == .n32)
  | .int .and => op == 3 && (f == .i32 || f == .n32)
  | .int .or => op == 4 && (f == .i32 || f == .n32)
  | .int .xor => op == 5 && (f == .i32 || f == .n32)
  | .int .smin => op == 1 && f == .i32
  | .int .smax => op == 2 && f == .i32
  | .int .umin => op == 1 && f == .n32
  | .int .umax => op == 2 && f == .n32
  | .flt .addN64 => op == 0 && (f == .i64 || f == .n64)
  | .flt .addF32 => op == 0 && f == .f32
  | .flt .addF64 => op == 0 && f == .f64
  | .flt .minF32 => op == 1 && f == .f32
  | .flt .maxF32 => op == 2 && f == .f32
  | .flt .minF64 => op == 1 && f == .f64
  | .flt .maxF64 => op == 2 && f == .f64

/-- The order in which partials combine: element, then (DEVNUM, core index) (R236). -/
def Partial.before (a b : Partial) : Bool :=
  a.pa < b.pa || (a.pa == b.pa && (a.dev < b.dev || (a.dev == b.dev && a.core < b.core)))

/-- Adds a partial at its place. -/
def insertPartial (x : Partial) : List Partial → List Partial
  | [] => [x]
  | y :: r => if Partial.before x y then x :: y :: r else y :: insertPartial x r

/-- The combined value of an element (R236). -/
def commRead (ms : MemSys) (f : Fmt) (op : BitVec 3) (pa : Nat) : BitVec 64 :=
  let base := BitVec.ofNat 64 (natOf (homeBytes ms pa (commBytes f)))
  (ms.partials.filter fun p => p.pa == pa).foldl (fun x p => commVal f op x p.val) base

/-- A `red` of a core onto an element (R236): its partial takes the value, or combines with it. -/
def commRed (ms : MemSys) (f : Fmt) (op : BitVec 3) (pa dev core part asid : Nat) (v : BitVec 64) : MemSys :=
  let mine := fun (p : Partial) => p.pa == pa && p.dev == dev && p.core == core
  if ms.partials.any mine then
    { ms with partials := updIf mine (fun p => { p with val := commVal f op p.val v, part := part, asid := asid }) ms.partials }
  else { ms with partials := insertPartial ⟨pa, dev, core, lowBytes (commBytes f) v, part, asid⟩ ms.partials }

/-- Discards the partials of an element (R237). -/
def dropPartials (ms : MemSys) (pa : Nat) : MemSys := { ms with partials := ms.partials.filter fun p => p.pa != pa }

/-! ## Coded blocks -/

/-- The code parameters of a Coded page (R231). -/
def codedPar (dim : BitVec 2) (f64 : Bool) (rate : BitVec 7) : CodedPar := ⟨f64, dim.toNat, rate.toNat⟩

/-- The code of the block at an address. -/
def blockCode (ms : MemSys) (P : CodedPar) (pa : Nat) : Nat := natOf (homeBytes ms pa (Coded.bytes P))

/-- A home keeps a block that it serves (R285). -/
def keepBlock (ms : MemSys) (P : CodedPar) (pa : Nat) : MemSys := { ms with coded := Tab.set ms.coded pa (Coded.bytes P) }

/-- Lines whose home copies are what their stack holds are clean (R287). -/
def cleanLines (ms : MemSys) (lines : List Nat) : MemSys :=
  lines.foldl (fun ms l =>
    if (List.range 64).all fun i => homeByte ms (64 * l + i) == stackByte ms (64 * l + i) then
      { ms with dirty := Tab.del ms.dirty l }
    else ms) ms

/-- One merge: stored values by position, last standing, then encode with the current code as reference (R286). A copy whose
code is the one in memory is clean (R287). -/
def mergeBlock (who : Option FibreId) (core : Option Nat) (ctx : Option (Nat × Nat)) (P : CodedPar) (pa : Nat)
    (stores : List (Nat × Nat)) (s : State) : State :=
  let code := blockCode s.msys P pa
  let vals := stores.foldl (fun (v : List Nat) p => v.set p.1 p.2) (Coded.decode P code)
  let s := writeDev who core ctx pa (bytesOf (Coded.bytes P) (Coded.encode P (some code) vals)) s
  { s with msys := cleanLines (keepBlock s.msys P pa) (linesOf pa (Coded.bytes P)) }

/-! ## Reading a part of an access -/

/-- The bytes a read of a part returns. A byte of another device is a free value (assumption 8). -/
def readPart (s : State) (p : Part) : List Byte :=
  match p.loc with
  | .scr c o => (List.range p.len).map fun i => scrByte s c (o + i)
  | .dev pa =>
    match p.kind with
    | .coded dim f64 rate =>
      let P := codedPar dim f64 rate
      bytesOf p.len ((Coded.decode P (blockCode s.msys P pa)).getD p.idx 0)
    | .comm f op =>
      if ownDev s pa then bytesOf p.len (commRead s.msys f op pa).toNat
      else (List.range p.len).map fun i => Config.foreignByte s.freeCtr (pa + i)
    | _ =>
      if ownDev s pa then homeBytes s.msys pa p.len
      else (List.range p.len).map fun i => Config.foreignByte s.freeCtr (pa + i)

/-- The first poisoned byte that a read of a part meets (R403). -/
def partPoison (s : State) (p : Part) : Option Nat :=
  match p.loc with
  | .scr c o => (coreOf s c).spoison.find? fun a => decide (o ≤ a) && decide (a < o + p.len)
  | .dev pa =>
    let n := match p.kind with
      | .coded dim f64 rate => Coded.bytes (codedPar dim f64 rate)
      | _ => p.len
    ((List.range n).map (pa + ·)).find? fun a => isPoison s.msys a

/-- The value of a lane's element, from its parts (R250). -/
def readAcc (s : State) (a : LaneAcc) : BitVec 64 :=
  BitVec.ofNat 64 (a.parts.foldl (fun acc p => acc + natOf (readPart s p) * 256 ^ p.off) 0)

/-- The lines of a lane's element; a coded element's line is its block's first (R285). -/
def accKeys (a : LaneAcc) : List (Option Nat × Nat) :=
  a.parts.flatMap fun p =>
    match p.loc with
    | .scr c o => (linesOf o p.len).map fun l => (some c, l)
    | .dev pa =>
      match p.kind with
      | .coded .. => [(none, pa / 64)]
      | _ => (linesOf pa p.len).map fun l => (none, l)

/-- The lines of an operation's accesses, device lines first by ascending address. -/
def DevOp.accs : DevOp → List LaneAcc
  | .load a .. | .store a .. | .atom a .. | .cas a .. | .red a .. | .ldacc _ _ a _ | .stacc _ _ a => a
  | _ => []
/-- Lines an operation touches. -/
def DevOp.keys (o : DevOp) : List (Option Nat × Nat) := (o.accs.flatMap accKeys).foldl addNew []

/-- It makes writing events. -/
def DevOp.writes : DevOp → Bool
  | .store .. | .atom .. | .cas .. | .red .. | .stacc .. => true
  | _ => false

/-- Page kinds that L1 caches (R233). -/
def PageKind.cachedL1 : PageKind → Bool
  | .normal | .sealed | .coded .. | .hostNon => true
  | _ => false

/-- The Sealed page that holds an address. -/
def sealOf (ms : MemSys) (pa : Nat) : Option SealRec := ms.seals.find? fun r => r.page ≤ pa && pa < r.page + 2 ^ r.bits

/-- A home takes a clean copy of a line (R240); poison goes with it (R403). Of a POISONED line there is nothing to take (R308). -/
def holdLine (ms : MemSys) (line : Nat) : MemSys :=
  if lineSt ms (64 * line) = 3 then ms
  else (List.range 64).foldl (fun ms i =>
    let a := 64 * line + i
    if (Cells.get ms.home a).isSome then ms else putHome ms a (stackByte ms a)) ms

/-- A core keeps copies of lines of another device's SEALED page (R235), listed by frame of 64 KiB. -/
def holdForeign (core pa n : Nat) (s : State) : State :=
  let page := pa / 65536 * 65536
  let old := (s.msys.seals.find? fun r => r.page == page).getD ⟨page, 16, .isSealed, [], []⟩
  let new := { old with copies := (linesOf pa n).foldl (fun c l => addNew c (copyOf s l core)) old.copies }
  { s with msys := { s.msys with seals := (s.msys.seals.filter fun r => r.page != page) ++ [new] } }

/-- A line of a page that L1 caches enters a core's L1: its directory entry (R226), or a counted copy of a SEALED page (R235).
A DRAINING page makes no copies. -/
def enterL1 (core line pa : Nat) (kind : PageKind) (s : State) : State :=
  match kind, ((sealOf s.msys pa).map fun r => r.st : Option SealState) with
  | .sealed, some .draining => s
  | .sealed, some .isSealed =>
    { s with msys := { s.msys with
      seals := updIf (fun (r : SealRec) => decide (r.page ≤ pa) && decide (pa < r.page + 2 ^ r.bits))
        (fun r => { r with copies := addNew r.copies (copyOf s line core) }) s.msys.seals } }
  | _, _ => { s with msys := { s.msys with dir := addNew s.msys.dir (copyOf s line core) } }

/-- What a read leaves behind in caches: the controller's metadata record (R20), the core's L1 copy, unless its hint is `.nol1`
(R146), the home's copy of a coded block (R285), the clean home line of a Host-noncoherent page (R240, R266). -/
def noteRead (core : Nat) (hint : Hint) (p : Part) (s : State) : State :=
  match p.loc with
  | .scr _ _ => s
  | .dev pa =>
    if !ownDev s pa then (if p.kind = .sealed ∧ hint ≠ .nol1 then holdForeign core pa p.len s else s)
    else if paRegion pa ≠ 0 then s
    else
    let s := (linesOf pa p.len).foldl (fun s l => noteStack l s) s
    if !p.kind.cachedL1 then s
    else
      let lines := match p.kind with
        | .coded .. => [pa / 64]
        | _ => linesOf pa p.len
      let s := match p.kind with
        | .coded dim f64 rate => { s with msys := keepBlock s.msys (codedPar dim f64 rate) pa }
        | _ => s
      lines.foldl (fun s l =>
        let s := if hint = .nol1 then s else enterL1 core l pa p.kind s
        if p.kind = .hostNon then { s with msys := holdLine s.msys l } else s) s

/-- The rank for eviction that an access with a hint gives lines (R146). -/
def rankKeys (hint : Hint) (keys : List (Option Nat × Nat)) (s : State) : State :=
  match hint with
  | .keep | .stream => { s with msys := { s.msys with
      hints := keys.foldl (fun t k => if k.1 = none then Tab.set t k.2 hint else t) s.msys.hints } }
  | _ => s
/-- The same of the lines that elements touch. -/
def rankLines (hint : Hint) (accs : List LaneAcc) (s : State) : State := rankKeys hint (accs.flatMap accKeys) s

/-! ## Writing a part of an access -/

/-- A store's bytes for a part that is not on a Coded page (R237, R250). -/
def writePart (who : Option FibreId) (core : Option Nat) (ctx : Option (Nat × Nat)) (p : Part) (bs : List Byte) (s : State) :
    State :=
  match p.loc with
  | .scr c o => writeScr who c o bs s
  | .dev pa =>
    let s := match p.kind with
      | .comm _ _ => { s with msys := dropPartials s.msys pa }
      | .hostNon => logHnc who ((List.range bs.length).map (pa + ·)) s
      | _ => s
    writeDev who core ctx pa bs s

/-- An element's parts cut at lines, each an event of its own (R250); one on a Coded page stays whole. -/
def LaneAcc.cut (a : LaneAcc) : List LaneAcc :=
  a.parts.flatMap fun p =>
    let piece := fun (at_ : Nat) (loc : Nat → Loc) => (linesOf at_ p.len).map fun l =>
      let lo := max at_ (64 * l)
      { a with parts := [{ p with off := p.off + (lo - at_), len := min (at_ + p.len) (64 * l + 64) - lo, loc := loc lo }] }
    match p.loc, p.kind with
    | .dev _, .coded .. => [{ a with parts := [p] }]
    | .dev pa, _ => piece pa .dev
    | .scr c o, _ => piece o (.scr c)

/-- The position, block and parameters of an access on a Coded page. -/
def codedAcc (a : LaneAcc) : Option (Nat × CodedPar × Nat) :=
  match a.parts with
  | [p] =>
    match p.loc, p.kind with
    | .dev pa, .coded dim f64 rate => some (pa, codedPar dim f64 rate, p.idx)
    | _, _ => none
  | _ => none

/-- A store's events in ascending lane order; the lanes that name one Coded block form one merge at the first of them
(R250, R286). `seen` holds the blocks already merged. -/
def storeAccs (who : Option FibreId) (core : Option Nat) (ctx : Option (Nat × Nat)) (all : List (LaneAcc × Nat)) :
    List (LaneAcc × Nat) → List Nat → State → State
  | [], _, s => s
  | (a, v) :: r, seen, s =>
    match codedAcc a with
    | some (pa, P, _) =>
      if seen.contains pa then storeAccs who core ctx all r seen s
      else
        let stores := all.filterMap fun (b, w) =>
          match codedAcc b with
          | some (qa, _, j) => if qa = pa then some (j, w) else none
          | none => none
        storeAccs who core ctx all r (pa :: seen) (mergeBlock who core ctx P pa stores s)
    | none =>
      let s := a.parts.foldl (fun s p => writePart who core ctx p (bytesOf p.len (v / 256 ^ p.off)) s) s
      storeAccs who core ctx all r seen s

end Sys2Proof.Machine
end

