-- ==== Sys2Proof/Machine/Halt.lean ====
section
/-! DEFINITION. Event rings and completion records (23 R430 to R436), the end of a launch, context halts and stop records
(21 R404 to R410). -/

namespace Sys2Proof.Machine

/-! ## Partitions -/

/-- The registers of a partition. -/
def partn (s : State) (p : Nat) : Partn := s.parts.getD p Partn.init
/-- Changes the registers of a partition. -/
def updPart (s : State) (p : Nat) (f : Partn → Partn) : State :=
  { s with parts := Vector.ofFn fun i => if i.val = p then f (s.parts.getD i.val Partn.init) else s.parts.getD i.val Partn.init }

/-- Adds to a counter that stops at 2^64 − 1 (R404). -/
def satInc (x : Word) : Word := if x = BitVec.allOnes 64 then x else x + 1
/-- Counts a transient failure (R402). -/
def countTrans (p : Nat) (s : State) : State := updPart s p fun P => { P with errtrans := satInc P.errtrans }
/-- Counts a lasting failure (R402). -/
def countLast (p : Nat) (s : State) : State := updPart s p fun P => { P with errlast := satInc P.errlast }

/-! ## Event rings -/

/-- A ring's registers. -/
def ringOf (P : Partn) (r : Nat) : Ring := Tab.getD P.rings r Ring.init
/-- Replaces a ring's registers. -/
def setRing (s : State) (p r : Nat) (R : Ring) : State :=
  updPart s p fun P => { P with rings := if R = Ring.init then Tab.del P.rings r else Tab.set P.rings r R }

/-- The MSI-X message of a ring (R433, R436, R440). -/
def sendInterrupt (p r : Nat) (R : Ring) (s : State) : State :=
  let vec := wfield R.int 30 20
  if R.int.getLsbD 31 then { s with outbox := s.outbox ++ [.msix none vec] }
  else if vec < 32 then { s with outbox := s.outbox ++ [.msix (some (8 * p + r / 32)) vec] }
  else s

/-- A record of an event ring (R430), without PHASE, as a number of 256 bits. -/
structure EvRec where
  time   : Nat
  launch : Word
  tag    : Word
  nfault : Nat
  hcause : BitVec 8
  evttag : BitVec 16
  kind   : BitVec 4
  status : BitVec 8
  deriving DecidableEq, Repr

/-- The bits of a record (R430). -/
def EvRec.bits (e : EvRec) (phase : Nat) : Nat :=
  e.status.toNat + phase * 2 ^ 8 + e.kind.toNat * 2 ^ 12 + e.evttag.toNat * 2 ^ 16 + e.hcause.toNat * 2 ^ 40 +
    min e.nfault 65535 * 2 ^ 48 + e.tag.toNat * 2 ^ 64 + e.launch.toNat * 2 ^ 128 + e.time % 2 ^ 64 * 2 ^ 192

/-- Fibres that wait for a line. -/
def lineWaiters (s : State) (line : Nat) : List FibreId :=
  (s.fibres.filter fun f => (if f.regs.level = 0 then [f.status] else [f.status, f.regs.frozen]).any fun x => match x with
    | .line pa => pa / 64 == line
    | _ => false).map (·.id)

/-- A record has been written to a line of a ring: whoever reads the line from now on, or was waiting for it, has what came before
the record behind it (R351). -/
def noteRecord (line : Nat) (waiters : List FibreId) (s : State) : State :=
  let n := s.msys.hncNum
  if n = 0 then s
  else
    let ms := { s.msys with hncRecs := Tab.set s.msys.hncRecs line n }
    { s with msys := waiters.foldl (fun ms id => setHncView ms ((hncViewOf ms id).raise n)) ms }

/-- Writes a record to a ring (R433 to R436); a record that is not written is counted by EVLOST. -/
def writeRecord (p r : Nat) (e : EvRec) (s : State) : State :=
  let R := ringOf (partn s p) r
  let cap := 2 ^ (6 + wfield R.cfg 11 8)
  let lost := updPart s p fun P => { P with evlost := P.evlost + 1 }
  if 256 ≤ r ∨ R.cfg.getLsbD 0 = false then lost
  else if cap ≤ (R.prod - R.cons).toNat then lost
  else
    let n := R.prod.toNat
    let base := wfield R.cfg 51 12 * 2 ^ 12
    let pa := base + 32 * (n % cap)
    let s := noteRecord (pa / 64) (lineWaiters s (pa / 64)) (writeDev none none none pa (bytesOf 32 (EvRec.bits e ((n / cap + 1) % 2))) s)
    let R' := { R with
      prod := R.prod + 1
      count := R.count + 1
      oldest := if R.count = 0 then s.clock else R.oldest }
    if max 1 (wfield R.int 7 0) ≤ R'.count then
      sendInterrupt p r R (setRing s p r { R' with count := 0, oldest := 0 })
    else setRing s p r R'

/-! ## Launches -/

/-- The launch of an identifier. -/
def launch? (s : State) (id : Word) : Option Launch := s.launches.find? fun L => L.id == id
/-- Changes a launch. -/
def updLaunch (s : State) (id : Word) (f : Launch → Launch) : State :=
  { s with launches := updIf (fun L => L.id == id) f s.launches }
/-- RING of a launch (R80). -/
def Launch.ring (L : Launch) : Nat := wfield L.ctl 63 48

/-- Writes the KIND 0 record of a launch (R431): none on success with NOREC = 1 (R80). -/
def completionRecord (L : Launch) (status hcause : BitVec 8) (s : State) : State :=
  if status = 0 ∧ L.ctl.getLsbD 20 = true then s
  else writeRecord L.part L.ring ⟨s.clock, L.id, L.tag, L.nfault, hcause, 0, 0, status⟩ s

/-- The end of a launch: its record, then what it held goes: its barriers, its reservations (R99), its unpublished
shadow bytes (R260). Its queue signals the control core (R83). -/
def endLaunch (L : Launch) (status hcause : BitVec 8) (s : State) : State :=
  let s := completionRecord L status hcause s
  let s := { s with
    launches := s.launches.filter fun M => M.id != L.id
    cores := (s.cores.map fun c => (c.1, if c.2.reserved = some L.id then { c.2 with reserved := none } else c.2)).filter
      fun c => c.2 != CoreRec.init
    msys := { s.msys with
      shadows := s.msys.shadows.filter fun b => b.launch != L.id
      fallback := s.msys.fallback.filter fun b => b.2.1 != L.id } }
  updPart s L.part fun P =>
    match P.control.retry with
    | some (q, _) => if q = L.queue then { P with control := { P.control with retry := none } } else P
    | none => P

/-! ## Context halts -/

/-- The engine kinds of a stop record (R408). -/
inductive Engine where
  | core | copyEngine | matrix | hru | controller | link | control | almanac | placer
  deriving DecidableEq, Repr

/-- KIND of R408. -/
def Engine.code : Engine → Nat
  | .core => 1 | .copyEngine => 2 | .matrix => 3 | .hru => 4 | .controller => 5 | .link => 6 | .control => 7
  | .almanac => 8 | .placer => 9

/-- The halt causes of R405. -/
inductive HaltCause where
  | uncorrectable | poison | lostpermit | protection | doubletrap | softerror | metadata | kill | badsave | nohandler
  | agentloss
  deriving DecidableEq, Repr

/-- Codes of R405. -/
def HaltCause.code : HaltCause → BitVec 8
  | .uncorrectable => 1 | .poison => 2 | .lostpermit => 3 | .protection => 4 | .doubletrap => 5 | .softerror => 6
  | .metadata => 7 | .kill => 8 | .badsave => 9 | .nohandler => 10 | .agentloss => 11

/-- One engine's part in a halt. -/
structure StopRec where
  kind   : Engine
  agent  : Nat
  addr   : Nat
  pc     : Word
  launch : Word
  origin : Bool
  deriving DecidableEq, Repr

/-- The bits of a stop record (R408). -/
def StopRec.bits (r : StopRec) (time asid : Nat) (cause : BitVec 8) (seq : BitVec 16) : Nat :=
  seq.toNat + asid * 2 ^ 16 + (if r.origin then 2 ^ 29 else 0) + cause.toNat * 2 ^ 32 + r.kind.code * 2 ^ 40 +
    r.agent * 2 ^ 48 + time % 2 ^ 64 * 2 ^ 256 + r.launch.toNat * 2 ^ 320 + r.pc.toNat * 2 ^ 384 + r.addr % 2 ^ 64 * 2 ^ 448

/-- Writes one stop record to the partition's stop ring (R409); STOPCOUNT counts it in any case. -/
def writeStop (p asid : Nat) (cause : BitVec 8) (seq : BitVec 16) (s : State) (r : StopRec) : State :=
  let P := partn s p
  let n := P.stopcount.toNat
  let s :=
    if P.stopring.getLsbD 0 then
      let base := wfield P.stopring 51 12 * 2 ^ 12
      let slot := n % 2 ^ (6 + wfield P.stopring 11 8)
      writeDev none none none (base + 64 * slot) (bytesOf 64 (StopRec.bits r s.clock asid cause seq)) s
    else s
  updPart s p fun P => { P with stopcount := P.stopcount + 1 }

/-- A launch of the context (R405). -/
def Launch.inContext (L : Launch) (p asid : Nat) : Bool := L.part == p && L.asid == asid
/-- The identifiers of a context's live launches. -/
def contextLaunches (s : State) (p asid : Nat) : List Word :=
  (s.launches.filter fun L => Launch.inContext L p asid).map (·.id)

/-- The placer has blocks of a launch to place, or to place again (R408). -/
def Launch.toPlace (L : Launch) : Bool :=
  L.phase == .queued || !L.saved.isEmpty || (L.phase == .placing &&
    (L.stages.isEmpty || (List.range L.stages.length).any fun k => match L.stages[k]? with
      | none => false
      | some g => !g.again.isEmpty || (if k = 0 then decide (g.next < g.blocks)
          else match L.stages[k - 1]? with
            | none => false
            | some q => !q.closed || q.enqn != q.deqn)))

/-- A fibre has a quantum that has begun and not committed (R381): its first begins at placement. -/
def Fibre.inQuantum (f : Fibre) : Bool :=
  f.status != .exited && (f.qcount == 0 || f.seq != f.qseq || f.unfin != [] || f.status == .commit)

/-- The engines that hold work or state of the context (R408), ascending. -/
def stopHolders (s : State) (p asid : Nat) : List StopRec :=
  let ids := contextLaunches s p asid
  let mine := fun (l : Word) => ids.contains l
  let first := fun (ls : List Word) => ((ls.find? mine).getD 0)
  let cores := (List.range 256).filterMap fun c =>
    let ls := (s.fibres.filter fun f => f.id.core == c && mine f.launch).map (·.launch)
    if ls.isEmpty then none else some ⟨.core, c, 0, 0, first ls, false⟩
  let copies := s.cores.filterMap fun c =>
    let ls := (c.2.copies.filter fun x => mine x.launch).map (·.launch)
    if ls.isEmpty then none else some ⟨.copyEngine, c.1, 0, 0, first ls, false⟩
  let mats := s.cores.filterMap fun c =>
    let ls := (c.2.mat.filter fun x => mine x.launch).map (·.launch)
    if ls.isEmpty then none else some ⟨.matrix, c.1, 0, 0, first ls, false⟩
  let hrus := (List.range 32).filterMap fun k =>
    let held := s.msys.hru.filter fun h => mine h.launch && (match h.part.loc with
      | .dev pa => homeSlice pa == k
      | .scr _ _ => false)
    if held.isEmpty then none else some ⟨.hru, k, 0, 0, first (held.map (·.launch)), false⟩
  let saved := (s.launches.filter fun L => mine L.id).flatMap fun L => L.saved.flatMap (·.fibres)
  let quanta := (s.fibres ++ saved).filter fun f => mine f.launch && f.inQuantum
  let ordered := quanta.filter fun f => ((launch? s f.launch).map fun L =>
    L.stages.any fun g => (g.first.map fun d => d.sync.getLsbD 20).getD false).getD false
  let almanac := if ordered.isEmpty then [] else [⟨.almanac, 0, 0, 0, first (ordered.map (·.launch)), false⟩]
  let queued := s.launches.filter fun L => Launch.inContext L p asid && L.toPlace
  let placer := match queued with
    | [] => []
    | L :: _ => [⟨.placer, 0, 0, 0, L.id, false⟩]
  cores ++ copies ++ mats ++ hrus ++ almanac ++ placer

/-- Where program order begins on a core for fibres placed after some have left it, so that no command number comes again (R259). -/
def seqAfter (core : Nat) (gone : List Fibre) (base : Nat) : Nat :=
  gone.foldl (fun m f => if f.id.core = core then max m f.seq else m) base

/-- Everything of the context stops and is released (R407); what was performed stands. Copies of another device's Sealed
pages are dropped, and their homes are told (R235). -/
def stopContext (p asid : Nat) (s : State) : State :=
  let ids := contextLaunches s p asid
  let mine := fun (l : Word) => ids.contains l
  let gone := s.fibres.filter fun f => mine f.launch
  let onCore := fun (c : Nat) => gone.any fun f => f.id.core == c
  let told := (s.msys.seals.filter fun r => paDev r.page != s.dev.devid.toNat).filterMap fun r =>
    let n : Nat := (r.copies.filter fun c => onCore c.core).length
    if n = 0 then none else some (Out.remote (incarnation s .link 0) (.drop r.page n))
  { s with
    outbox := s.outbox ++ told
    fibres := s.fibres.filter fun f => !mine f.launch
    blocks := s.blocks.filter fun b => !mine b.launch
    cores := ((gone.foldl (fun t f => Tab.set t f.id.core (coreOf s f.id.core)) s.cores).map fun c => (c.1, { c.2 with
      copies := c.2.copies.filter fun x => !mine x.launch
      mat := c.2.mat.filter fun x => !mine x.launch
      expander := c.2.expander.filter fun x => !mine x.1
      seqBase := seqAfter c.1 gone c.2.seqBase
      reserved := match c.2.reserved with
        | some l => if mine l then none else some l
        | none => none })).filter fun c => c.2 != CoreRec.init
    msys := { s.msys with
      shadows := s.msys.shadows.filter fun b => !mine b.launch
      hru := s.msys.hru.filter fun h => !mine h.launch
      fallback := s.msys.fallback.filter fun b => !mine b.2.1
      claims := s.msys.claims.filter fun c => !(gone.any fun f => f.id == c.fibre)
      hncViews := s.msys.hncViews.filter fun v => !(gone.any fun f => f.id == v.id)
      seals := s.msys.seals.map fun r => { r with copies := r.copies.filter fun c => !onCore c.core } } }

/-- The order in which the Almanac serves fibres at level 3 (R377): launch acceptance, then global fibre identifier. -/
def serveKey (s : State) (f : Fibre) : List Nat :=
  [((launch? s f.launch).map (·.accept)).getD 0, f.stage, f.block, f.index]

/-- The Almanac of a partition takes its next fibre at level 3 when it serves none that is still there (R377). -/
def serveNext (p : Nat) (s : State) : State :=
  let here := s.fibres.filter fun f => partOfCore s f.id.core == p && f.escLevel == 3
  if here.any fun f => (partn s p).level3 == some f.id then s
  else
    let best := here.foldl (fun (b : Option Fibre) f => match b with
      | none => some f
      | some g => if decide (serveKey s f < serveKey s g) then some f else some g) none
    updPart s p fun P => { P with level3 := best.map (·.id) }

/-- Halts a context (R405 to R410): `origin` is the engine that raised the halt. The halt line reaches every engine at
once (assumption 13). -/
def haltContext (p asid : Nat) (cause : HaltCause) (origin : StopRec) (s : State) : State :=
  let P := partn s p
  let seq := P.haltSeq
  let ids := contextLaunches s p asid
  let others := (stopHolders s p asid).filter fun r => !(r.kind == origin.kind && r.agent == origin.agent)
  let savedSlots := (s.launches.filter fun L => Launch.inContext L p asid).flatMap fun L => L.saved.map (·.slot)
  let busySlots := (s.blocks.filter fun b => ids.contains b.launch).filterMap fun b =>
    match b.preempt with
    | .saving k | .inSave k _ | .restoring k _ _ => some k
    | _ => none
  let s1 := ({ origin with origin := true } :: others).foldl (writeStop p asid cause.code seq) s
  let s2 := updPart s1 p fun P => { P with
    halted := addNew P.halted asid
    haltSeq := seq + 1
    slots := P.slots.filter fun k => !(savedSlots.contains k || busySlots.contains k)
    reqBlocks := P.reqBlocks.filter fun b => !ids.contains b.1
    preemptreq := if P.preemptreq.getLsbD 31 && (P.reqBlocks.all fun b => ids.contains b.1)
      then P.preemptreq &&& 0x7FFFFFFF else P.preemptreq
    lqcfg := P.lqcfg.map fun q => (q.1, if wfield q.2 44 32 = asid then q.2 &&& ~~~0x80#64 else q.2) }
  let s3 := serveNext p (stopContext p asid s2)
  (s.launches.filter fun L => Launch.inContext L p asid).foldl (fun s L => endLaunch L 1 cause.code s) s3

/-- A halt raised by a fibre at its core. -/
def haltByFibre (f : Fibre) (cause : HaltCause) (addr : Nat) (s : State) : State :=
  let p := partOfCore s f.id.core
  match launch? s f.launch with
  | some L => haltContext p L.asid cause ⟨.core, f.id.core, addr, f.regs.pc, f.launch, true⟩ s
  | none => s

/-! ## Lines written back -/

/-- Writes a dirty line of a home into its stack (R266, R287, R303). A line of which the home holds only some bytes is a
partial write, which a POISONED line refuses: the contexts that made it halt with METADATA (R307, R308). -/
def writeBack (line : Nat) (s : State) : State :=
  match Tab.get s.msys.dirty line with
  | none => s
  | some ctxs =>
    let held := heldBytes s.msys line
    let clean := { s with msys := { s.msys with dirty := Tab.del s.msys.dirty line } }
    if held.length = 64 then putWholeLine clean (64 * line) (held.map (·.2))
    else if lineSt s.msys (64 * line) = 3 then
      let s := { clean with msys := { clean.msys with home := clean.msys.home.filter fun c => c.1 / 64 != line } }
      match ctxs with
      | c :: _ =>
        ctxs.foldl (fun s c => haltContext c.1 c.2 .metadata ⟨.controller, paStack (64 * line), 64 * line, 0, 0, true⟩ s)
          (countLast c.1 s)
      | [] => s
    else putSomeBytes clean held

/-- A home lets a line go: written back if dirty, then no longer held. -/
def dropHomeLine (line : Nat) (s : State) : State :=
  let s := writeBack line s
  { s with msys := { s.msys with home := s.msys.home.filter fun c => c.1 / 64 != line, dirty := Tab.del s.msys.dirty line } }

/-- A line is discarded without being written (R266, `inval`). -/
def discardHomeLine (line : Nat) (s : State) : State :=
  { s with msys := { s.msys with
      home := s.msys.home.filter fun c => c.1 / 64 != line
      dirty := Tab.del s.msys.dirty line
      dir := s.msys.dir.filter fun d => d.line != line
      hncLog := s.msys.hncLog.filter fun r => r.2.1 / 64 != line } }

end Sys2Proof.Machine
end

