-- ==== Sys2Proof/Machine/Translate.lean ====
section
/-! DEFINITION. Pointers, translation and the checks of an access (09 R218 to R246, 10 R251, R255, 12 R276). Nothing here
changes the state: a check answers the parts of the access, or the fault, wait or violation it meets. -/

namespace Sys2Proof.Machine

/-! ## Pointers -/

/-- SPACE (R218). -/
def ptrSpace (p : Word) : Nat := wfield p 63 60
/-- RANK (R218). -/
def ptrRank (p : Word) : Nat := wfield p 54 52
/-- ADDR (R218). -/
def ptrAddr (p : Word) : Nat := wfield p 51 0
/-- A pointer with another ADDR; SPACE, RANK and the reserved bits stay (R218). -/
def ptrSet (p : Word) (addr : Nat) : Word := BitVec.ofNat 64 (p.toNat / 2 ^ 52 * 2 ^ 52 + addr % 2 ^ 52)
/-- A pointer plus an offset, modulo 2^52 within ADDR (R218). -/
def ptrAdd (p : Word) (off : Int) : Word := ptrSet p (wrap 52 ((ptrAddr p : Int) + off))
/-- A pointer from SPACE, RANK and ADDR. -/
def ptrMake (space rank addr : Nat) : Word := BitVec.ofNat 64 (space * 2 ^ 60 + rank * 2 ^ 52 + addr % 2 ^ 52)

/-! ## Faults on access (R245) -/

/-- The rows of R245 in table order. -/
inductive AFault where
  | notMapped | write | exec | badpte | space | reserved | range | kind | sealed | align | remote | hostAtomic
  deriving DecidableEq, Repr

/-- Place in the table of R245. -/
def AFault.rank : AFault → Nat
  | .notMapped => 0 | .write => 1 | .exec => 2 | .badpte => 3 | .space => 4 | .reserved => 5 | .range => 6 | .kind => 7
  | .sealed => 8 | .align => 9 | .remote => 10 | .hostAtomic => 11

/-- Cause codes (R397). -/
def AFault.cause : AFault → BitVec 8
  | .notMapped | .write | .exec | .badpte => 0x10
  | .space | .reserved | .range | .kind | .sealed | .align => 0x11
  | .remote => 0x12
  | .hostAtomic => 0x13

/-- Sub-causes (R245). -/
def AFault.sub : AFault → Nat
  | .notMapped => 1 | .write => 2 | .exec => 3 | .badpte => 4
  | .space => 1 | .reserved => 2 | .range => 3 | .kind => 4 | .sealed => 5 | .align => 6
  | .remote => 0 | .hostAtomic => 0

/-- The first fault in table order. -/
def firstFault : List AFault → Option AFault
  | [] => none
  | f :: r =>
    match firstFault r with
    | none => some f
    | some g => some (if f.rank ≤ g.rank then f else g)

/-! ## Translation (R227 to R232, R242) -/

/-- What a translation gives. -/
inductive Tr where
  | leaf (l : Leaf)
  | fault (f : AFault)
  /-- A page-table entry that cannot be read (R402, R403). -/
  | unread (pa : Nat)
  /-- A page-table entry at an unpopulated address (R224). -/
  | violation (pa : Nat)
  /-- The walk waits: a link on its way has stopped, or a home is down (R423, R425). -/
  | wait
  deriving DecidableEq, Repr

/-- The kind of a leaf, `none` when KIND or KPARAM is outside R230 and R231. -/
def leafKind (e : Nat) : Option PageKind :=
  let k := field e 10 8
  let kp := field e 61 52
  if k = 3 then
    let f := Fmt.ofCode (BitVec.ofNat 4 (field kp 6 3))
    let op := BitVec.ofNat 3 (field kp 2 0)
    let known := f == .f64 || f == .f32 || f == .i32 || f == .i64 || f == .n32 || f == .n64
    let fl := f == .f64 || f == .f32
    if field kp 9 7 = 0 ∧ known = true ∧ op.toNat ≤ 5 ∧ ¬(fl = true ∧ 3 ≤ op.toNat) then some (.comm f op) else none
  else if k = 4 then
    let ty : FTy := if field kp 7 7 = 1 then .f64 else .f32
    if codedRate ty (field kp 9 8) (field kp 6 0) then
      some (.coded (BitVec.ofNat 2 (field kp 9 8)) (field kp 7 7 == 1) (BitVec.ofNat 7 (field kp 6 0)))
    else none
  else if kp ≠ 0 then none
  else if k = 0 then some .normal
  else if k = 1 then some .strong
  else if k = 2 then some .sealed
  else if k = 5 then some .hostCoh
  else if k = 6 then some .hostNon
  else none

/-- Bits of the page that a leaf at a level maps (R228). -/
def levelBits (lvl : Nat) : Nat := if lvl = 1 then 16 else if lvl = 2 then 21 else if lvl = 3 then 30 else 39
/-- The index of a level (R228). -/
def levelIndex (lvl va : Nat) : Nat :=
  if lvl = 4 then field va 51 39 else if lvl = 3 then field va 38 30 else if lvl = 2 then field va 29 21 else field va 20 16

/-- A leaf entry, or BADPTE (R230 to R232). -/
def readLeaf (s : State) (p lvl e : Nat) : Tr :=
  let base := field e 51 16 * 2 ^ 16
  match leafKind e with
  | none => .fault .badpte
  | some k =>
    let x := field e 3 3 == 1
    let bad := lvl == 4 || field e 63 62 != 0 || field e 15 11 != 0 || field e 7 4 != 0 ||
      base % 2 ^ levelBits lvl != 0 || (x && k != .normal) ||
      (k == .hostCoh && !(inMailbox s p base && inMailbox s p (base + 2 ^ levelBits lvl - 1)))
    if bad then .fault .badpte else .leaf ⟨base, levelBits lvl, field e 2 2 == 1, x, k⟩

/-- A table entry of 8 bytes read at its home, or what the read meets: an unpopulated address (R224), poison (R403). -/
def readEntry (s : State) (pa : Nat) : Except Tr Nat :=
  if !populated pa then .error (.violation pa)
  else
    match ((List.range 8).map (pa + ·)).find? fun a => isPoison s.msys a with
    | some a => .error (.unread a)
    | none => .ok (natOf (homeBytes s.msys pa 8))

/-- The walk from a level down (R228). -/
def walkFrom (s : State) (p va : Nat) : Nat → Nat → Tr
  | 0, _ => .fault .badpte
  | lvl + 1, t =>
    match readEntry s (t + 8 * levelIndex (lvl + 1) va) with
    | .error t => t
    | .ok e =>
      if field e 0 0 = 0 then .fault .notMapped
      else if field e 1 1 = 1 then readLeaf s p (lvl + 1) e
      else
        let next := field e 51 8 * 2 ^ 8
        let align := if lvl + 1 = 2 then 256 else 4096
        if lvl = 0 ∨ field e 63 52 ≠ 0 ∨ field e 7 2 ≠ 0 ∨ next % align ≠ 0 ∨ localTo s p next = false then .fault .badpte
        else walkFrom s p va lvl next

/-- The walk of an address in an ASID of a partition (R227, R228, R232). DEDUCED (assumption 61): an entry of the ASID table that
lies outside local memory is taken as malformed. -/
def walk (s : State) (p asid va : Nat) : Tr :=
  let at_ := (partn s p).asidbase.toNat + 8 * asid
  if localTo s p at_ = false then .fault .badpte
  else
    match readEntry s at_ with
    | .error t => t
    | .ok e =>
      if field e 0 0 = 0 then .fault .notMapped
      else
        let root := field e 51 16 * 2 ^ 16
        if field e 63 52 ≠ 0 ∨ field e 15 1 ≠ 0 ∨ localTo s p root = false then .fault .badpte
        else walkFrom s p va 4 root

/-- The entries that a walk reads from a table of a level down. -/
def readsFrom (s : State) (p va : Nat) : Nat → Nat → List Nat
  | 0, _ => []
  | lvl + 1, t =>
    let at_ := t + 8 * levelIndex (lvl + 1) va
    at_ :: match readEntry s at_ with
      | .error _ => []
      | .ok e =>
        if field e 0 0 = 0 ∨ field e 1 1 = 1 ∨ localTo s p (field e 51 8 * 2 ^ 8) = false then []
        else readsFrom s p va lvl (field e 51 8 * 2 ^ 8)

/-- The addresses of the entries that a walk reads: that of the ASID table, then one a level (R227, R228). -/
def walkReads (s : State) (p asid va : Nat) : List Nat :=
  let at_ := (partn s p).asidbase.toNat + 8 * asid
  if localTo s p at_ = false then []
  else at_ :: match readEntry s at_ with
    | .error _ => []
    | .ok e =>
      if field e 0 0 = 0 ∨ localTo s p (field e 51 16 * 2 ^ 16) = false then []
      else readsFrom s p va 4 (field e 51 16 * 2 ^ 16)

/-- A cached translation of an address. -/
def TlbEntry.covers (e : TlbEntry) (asid va : Nat) : Bool :=
  e.asid == asid && e.vbase ≤ va && va < e.vbase + 2 ^ e.leaf.bits

/-- The translation that a core's TLB holds, or its slice's (R242). -/
def tlbHit (s : State) (core asid va : Nat) : Option TlbEntry :=
  ((coreOf s core).tlb.find? fun e => TlbEntry.covers e asid va).orElse fun _ =>
    (Tab.getD s.msys.tlb2 (core / 8) []).find? fun e => TlbEntry.covers e asid va

/-- The translation a core uses: its TLB, its slice's, else a walk (R242), which waits where it cannot be served now. -/
def translate (s : State) (core p asid va : Nat) : Tr :=
  match tlbHit s core asid va with
  | some e => .leaf e.leaf
  | none =>
    if (s.dev.failed != [] || s.links.any (·.stopped)) && (walkReads s p asid va).any (pathHeld s core) then .wait
    else walk s p asid va

/-- The reads of a walk for an address cross the links on their way (R422) and bring metadata records in (R20). -/
def noteWalk (core p asid va : Nat) (s : State) : State :=
  (walkReads s p asid va).foldl (fun s a => noteStack (a / 64) (useLink core p asid a s)) s

/-- Adds a translation to a TLB of `n` entries, the oldest leaving a full one. -/
def addTlb (n : Nat) (e : TlbEntry) (t : List TlbEntry) : List TlbEntry :=
  if t.contains e then t else if t.length < n then t ++ [e] else t.drop 1 ++ [e]

/-- A fill writes both levels (R242). -/
def fillTlb (core : Nat) (e : TlbEntry) (s : State) : State :=
  let r := coreOf s core
  let s := setCore s core { r with tlb := addTlb 192 e r.tlb }
  { s with msys := { s.msys with tlb2 := Tab.set s.msys.tlb2 (core / 8) (addTlb 4096 e (Tab.getD s.msys.tlb2 (core / 8) [])) } }

/-- The translation of an access: walked unless a TLB holds it, and then in both (R242). -/
def useTlb (core p : Nat) (e : TlbEntry) (s : State) : State :=
  fillTlb core e (if (tlbHit s core e.asid e.vbase).isSome then s else noteWalk core p e.asid e.vbase s)

/-- The entry that caches a leaf for an address. -/
def tlbEntry (asid va : Nat) (l : Leaf) : TlbEntry := ⟨asid, va / 2 ^ l.bits * 2 ^ l.bits, l⟩

/-- The physical address of a byte on a leaf. -/
def Leaf.pa (l : Leaf) (va : Nat) : Nat := l.base + va % 2 ^ l.bits

/-! ## The checks of an access -/

/-- Who accesses: core, partition, ASID, launch and stage, and the states that held operations of its own give Sealed pages
(R265, R383): page, size, state, the latest first. -/
structure Ctx where
  core   : Nat
  part   : Nat
  asid   : Nat
  launch : Word
  stage  : Nat
  seals  : List (Nat × Nat × SealState)
  deriving DecidableEq, Repr

/-- What an access does, as the checks see it. -/
inductive AccKind where
  | load | const | store | atom
  | red (u : UpdOp)
  /-- `ldacc` and `stacc` (R255). -/
  | accLoad | accStore
  /-- The record read of `launch` (R84), the read of `wline` (R174), a table read of `expload`. -/
  | record | line
  deriving DecidableEq, Repr

/-- Writes to memory. -/
def AccKind.writes : AccKind → Bool
  | .store | .atom | .red _ | .accStore => true
  | _ => false

/-- What the check of one lane gives. -/
structure LaneChk where
  faults : List AFault
  parts  : List Part
  /-- A protection violation (R224, R437) at a physical address. -/
  viol   : Option Nat
  /-- A page-table entry that cannot be read. -/
  unread : Option Nat
  /-- The access waits: a DRAINING page (R235). -/
  wait   : Bool
  /-- Its translation waits (R423, R425). -/
  stall  : Bool
  fills  : List TlbEntry
  deriving DecidableEq, Repr

/-- No part, no fault. -/
def LaneChk.none : LaneChk := ⟨[], [], Option.none, Option.none, false, false, []⟩
/-- One fault. -/
def LaneChk.bad (f : AFault) : LaneChk := { LaneChk.none with faults := [f] }
/-- Two checks together. -/
def LaneChk.and (a b : LaneChk) : LaneChk :=
  ⟨a.faults ++ b.faults, a.parts ++ b.parts, a.viol.orElse fun _ => b.viol, a.unread.orElse fun _ => b.unread,
    a.wait || b.wait, a.stall || b.stall, a.fills ++ b.fills⟩

/-- The block of a launch stage on a core (R95, R219). -/
def blockOn (s : State) (launch : Word) (stage core : Nat) : Option Block :=
  s.blocks.find? fun b => b.launch == launch && b.stage == stage && b.core == core
/-- STORAGE.SCRATCH in bytes (R39). -/
def Desc.scratch (d : Desc) : Nat := wfield d.storage 27 18 * 1024

/-- The core whose scratchpad a pointer of SPACE 1 or 2 names (R219). -/
def scratchCore (c : Ctx) (p : Word) : Nat := if ptrSpace p = 2 then 8 * (c.core / 8) + ptrRank p else c.core

/-- Bytes of a scratchpad (R219). -/
def checkScratch (s : State) (c : Ctx) (p : Word) (n : Nat) : LaneChk :=
  let k := scratchCore c p
  match blockOn s c.launch c.stage k with
  | none => .bad .range
  | some b =>
    if ptrAddr p + n ≤ Desc.scratch b.desc then
      { LaneChk.none with parts := [⟨0, n, .scr k (b.scrBase + ptrAddr p), .normal, 0⟩] }
    else .bad .range

/-- Tag faults of a pointer (R245). -/
def tagFaults (p : Word) : List AFault :=
  (if 4 ≤ ptrSpace p then [AFault.space] else []) ++
    (if wfield p 59 55 ≠ 0 ∨ (ptrRank p ≠ 0 ∧ ptrSpace p ≠ 2) then [AFault.reserved] else [])

/-- The space of a pointer as the operation sees it: `ldc` takes SPACE 0 as 3 (R251). -/
def spaceOf (k : AccKind) (p : Word) : Nat := if k = .const ∧ ptrSpace p = 0 then 3 else ptrSpace p

/-- A space the operation does not accept (R245, R251, R253, R255, R269). -/
def spaceFault (k : AccKind) (sp : Nat) : Option AFault :=
  match k with
  | .load => none
  | .const => if sp = 1 ∨ sp = 2 then some .space else none
  | .store => if sp = 3 then some .kind else none
  | .atom | .red _ => if sp = 1 ∨ sp = 2 then some .space else if sp = 3 then some .kind else none
  | .accLoad | .accStore => if sp = 2 ∨ sp = 3 then some .kind else none
  | .record | .line => if sp ≠ 0 then some .space else none

/-- The state of a Sealed page; absent records are OPEN (R235). The state of a page of another device is a free value
(assumption 8). -/
def sealState (s : State) (pa : Nat) : SealState :=
  if ownDev s pa then ((sealOf s.msys pa).map (·.st)).getD .opened
  else if (Config.foreignByte s.freeCtr (pa / 2 ^ 16 * 2 ^ 16)).getLsbD 0 then .isSealed else .opened

/-- The state of a Sealed page as an access finds it: as held operations of its own quantum leave it, else as its home has it. -/
def sealSeen (s : State) (c : Ctx) (pa : Nat) : SealState :=
  ((c.seals.find? fun r => decide (r.1 ≤ pa) && decide (pa < r.1 + 2 ^ r.2.1)).map (·.2.2)).getD (sealState s pa)

/-- Faults of an operation on a page's kind (R233 to R239, R241, R255), for bytes at `pa` of an element of `n` bytes that starts
at address `start`. -/
def kindFaults (s : State) (c : Ctx) (k : AccKind) (sp n start pa : Nat) (l : Leaf) : List AFault :=
  let foreign := foreignTo s c.part pa
  let wr := if k.writes && !l.w then [AFault.write] else []
  let c3 := if sp = 3 ∧ l.w = true then [AFault.kind] else []
  let remote := if foreign then [AFault.remote] else []
  wr ++ c3 ++
  match k, l.kind with
  | .load, .comm f _ | .const, .comm f _ =>
    (if n ≠ commBytes f then [AFault.kind] else []) ++ (if start % n ≠ 0 then [AFault.align] else [])
  | .store, .comm f _ =>
    (if n ≠ commBytes f then [AFault.kind] else []) ++ (if start % n ≠ 0 then [AFault.align] else []) ++ remote
  | .red u, .comm f op => if commMatch f op u then [] else [AFault.kind]
  | _, .comm _ _ => AFault.kind :: remote
  | _, .coded .. => AFault.kind :: remote
  | .load, .sealed | .const, .sealed | .accLoad, .sealed =>
    if foreign ∧ sealState s pa ≠ .isSealed then [AFault.remote] else []
  | .store, .sealed | .accStore, .sealed | .atom, .sealed | .red _, .sealed =>
    (if sealSeen s c pa = .isSealed then [AFault.sealed] else []) ++ remote
  | .record, .sealed | .record, .hostNon | .line, .sealed | .line, .hostNon => AFault.kind :: remote
  | .atom, .hostNon | .red _, .hostNon => AFault.hostAtomic :: remote
  | _, _ => remote

/-- Whether bytes lie in the buffer of a live stage queue (R102). -/
def inStageQueue (s : State) (pa n : Nat) : Bool :=
  s.launches.any fun L => L.stages.any fun g => (List.range g.qpages.length).any fun i =>
    let lo := g.qpages.getD i 0
    let len := min 65536 (64 + 64 * g.cap - 65536 * i)
    decide (lo < pa + n) && decide (pa < lo + len)

/-- An access that can be one aligned access of 8 bytes; the others reach no register (R437). -/
def AccKind.oneWord : AccKind → Bool
  | .accLoad | .accStore | .record => false
  | _ => true

/-- A protection violation of an access to `n` bytes at a physical address, of an element of `whole` bytes (R102, R224, R437):
a store to a live stage queue's buffer, an unpopulated address, of this device or another, or a device register reached otherwise
than by an aligned 8-byte access of its own partition's page through a Strong page. -/
def violation (s : State) (p : Nat) (k : AccKind) (n whole pa : Nat) (kind : PageKind) : Bool :=
  if ownDev s pa ∧ paRegion pa = 0xF then
    !(kind == .strong && k.oneWord && whole == 8 && pa % 8 == 0 && field pa 39 20 == p)
  else !(populated pa && populated (pa + n - 1)) || (k.writes && ownDev s pa && inStageQueue s pa n)

/-- The bytes of one page from a virtual address. -/
def checkPage (s : State) (c : Ctx) (k : AccKind) (sp off n whole va : Nat) : LaneChk :=
  match translate s c.core c.part c.asid va with
  | .fault f => .bad f
  | .unread a => { LaneChk.none with unread := some a }
  | .violation a => { LaneChk.none with viol := some a }
  | .wait => { LaneChk.none with stall := true }
  | .leaf l =>
    let pa := l.pa va
    let fs := kindFaults s c k sp whole ((va + 2 ^ 52 - off) % 2 ^ 52) pa l
    let draining := l.kind == .sealed && k.writes && ownDev s pa && sealSeen s c pa == .draining
    { faults := fs
      parts := [⟨off, n, .dev pa, l.kind, 0⟩]
      viol := if violation s c.part k n whole pa l.kind then some pa else Option.none
      unread := Option.none
      wait := draining
      stall := false
      fills := [tlbEntry c.asid va l] }

/-- The pieces of a range of bytes on pages of 64 KiB: place, length, address modulo 2^52. -/
def pieces (addr n : Nat) : List (Nat × Nat × Nat) :=
  let room := 2 ^ 16 - addr % 2 ^ 16
  if n ≤ room then [(0, n, addr)] else [(0, room, addr), (room, n - room, (addr + room) % 2 ^ 52)]

/-- The checks of `n` bytes at a pointer, natural alignment included where the operation or the page asks for it. -/
def checkBytes (s : State) (c : Ctx) (k : AccKind) (n : Nat) (p : Word) : LaneChk :=
  match tagFaults p with
  | f :: r => { LaneChk.none with faults := f :: r ++ (spaceFault k (spaceOf k p)).toList }
  | [] =>
    let sp := spaceOf k p
    match spaceFault k sp with
    | some f => .bad f
    | none =>
      if sp = 1 ∨ sp = 2 then checkScratch s c p n
      else
        let align := match k with
          | .atom | .red _ => if ptrAddr p % n ≠ 0 then [AFault.align] else []
          | _ => []
        (pieces (ptrAddr p) n).foldl (fun acc q => acc.and (checkPage s c k sp q.1 q.2.1 n q.2.2))
          { LaneChk.none with faults := align }

/-- An element access of a Coded page (R276): block address, position, element width and stored value. -/
def checkCoded (s : State) (c : Ctx) (k : AccKind) (n : Nat) (p : Word) (idx : Option Int) (val : Nat) (l : Leaf)
    (P : CodedPar) : LaneChk :=
  let pa := l.pa (ptrAddr p)
  let sp := spaceOf k p
  let j := idx.getD 0
  let fs := (if k.writes && !l.w then [AFault.write] else []) ++
    (if sp = 3 ∧ l.w = true then [AFault.kind] else []) ++
    (if k = .store ∧ sp = 3 then [AFault.kind] else []) ++
    (if pa % Coded.bytes P ≠ 0 then [AFault.align] else []) ++
    (if idx.isNone then [AFault.kind] else []) ++
    (if idx.isSome ∧ (j < 0 ∨ (Coded.count P : Int) ≤ j) then [AFault.range] else []) ++
    (if n ≠ (if P.f64 then 8 else 4) then [AFault.kind] else []) ++
    (if k = .store ∧ Coded.special P val = true then [AFault.kind] else []) ++
    (if foreignTo s c.part pa then [AFault.remote] else [])
  { faults := fs
    parts := [⟨0, n, .dev pa, l.kind, j.toNat⟩]
    viol := if violation s c.part k (Coded.bytes P) n pa l.kind then some pa else Option.none
    unread := Option.none
    wait := false
    stall := false
    fills := [tlbEntry c.asid (ptrAddr p) l] }

/-- The address of a lane (R248) and its checks: `base` is A with *disp* added and `idx` the index, unscaled; `coded`
says that the instruction reaches Coded elements (`ld`, `ldc`, `st`). -/
def checkElem (s : State) (c : Ctx) (k : AccKind) (coded : Bool) (n : Nat) (base : Word) (idx : Option Int) (val : Nat) :
    Word × LaneChk :=
  let plain := ptrAdd base (idx.getD 0 * n)
  let sp := spaceOf k base
  let onCoded :=
    if coded && (tagFaults base).isEmpty && (sp == 0 || sp == 3) then
      match translate s c.core c.part c.asid (ptrAddr base) with
      | .leaf l =>
        match l.kind with
        | .coded dim f64 rate => some (l, codedPar dim f64 rate)
        | _ => none
      | _ => none
    else none
  match onCoded with
  | some (l, P) => (base, checkCoded s c k n base idx val l P)
  | none => (plain, checkBytes s c k n plain)

/-- What the checks of a whole instruction give (R234, R245, R246). -/
inductive Chk where
  | ok (accs : List LaneAcc) (fills : List TlbEntry)
  | fault (f : AFault) (mask : BitVec 32) (addr : Word)
  | violation (pa : Nat)
  | unread (pa : Nat)
  | wait
  deriving DecidableEq, Repr

/-- The lanes together: the fault first in table order that any lane raises, with the lanes that raise it. DEDUCED (assumption 62):
the lanes of `%tmask` are those that raise the same row of R245, cause and sub-cause. -/
def combine (ls : List (Nat × Word × LaneChk)) : Chk :=
  if ls.any fun x => x.2.2.stall then .wait
  else match ls.findSome? fun x => x.2.2.unread with
  | some a => .unread a
  | none =>
    match firstFault (ls.flatMap fun x => x.2.2.faults) with
    | some f =>
      let hit := ls.filter fun x => x.2.2.faults.contains f
      .fault f (mkMask fun l => hit.any fun x => x.1 % 32 == l) ((hit.head?.map (·.2.1)).getD 0)
    | none =>
      match ls.findSome? fun x => x.2.2.viol with
      | some pa => .violation pa
      | none =>
        if ls.any fun x => x.2.2.wait then .wait
        else .ok (ls.map fun x => ⟨x.1, x.2.1, x.2.2.parts⟩) (ls.flatMap fun x => x.2.2.fills)

/-- Whether an access reaches a Strong or Host-coherent page (R254). -/
def touchesUncached (accs : List LaneAcc) : Bool :=
  accs.any fun a => a.parts.any fun p => p.kind == .strong || p.kind == .hostCoh
/-- Whether an access reaches scratchpad. -/
def touchesScratch (accs : List LaneAcc) : Bool :=
  accs.any fun a => a.parts.any fun p => match p.loc with
    | .scr _ _ => true
    | .dev _ => false

end Sys2Proof.Machine
end

