-- ==== Sys2Proof/Machine/Ops.lean ====
section
/-! DEFINITION. The shared operations over fibres: registers, windows (05 R126, R127),
taking a trap and returning from one (21 R396 to R401, R450, R451), retirement, barriers and tickets (07 R175 to R178),
the pool of extended registers (05 R120 to R125), and the end of a fibre, a block and a launch (07 R173). -/

namespace Sys2Proof.Machine

/-! ## Fibres, blocks and launches -/

/-- The resident fibre at a place. -/
def fibre? (s : State) (id : FibreId) : Option Fibre := s.fibres.find? fun f => f.id == id
/-- Changes the fibre at a place. -/
def updFibre (s : State) (id : FibreId) (g : Fibre → Fibre) : State :=
  { s with fibres := updIf (fun f => f.id == id) g s.fibres }

/-- The block a fibre belongs to. -/
def inBlock (b : Block) (f : Fibre) : Bool := b.launch == f.launch && b.stage == f.stage && b.num == f.block
/-- The block of a fibre. -/
def blockOf (s : State) (f : Fibre) : Option Block := s.blocks.find? fun b => inBlock b f
/-- Changes a block. -/
def updBlock (s : State) (launch : Word) (stage num : Nat) (g : Block → Block) : State :=
  { s with blocks := updIf (fun b => b.launch == launch && b.stage == stage && b.num == num) g s.blocks }
/-- A descriptor of zeros. -/
def Desc.zero : Desc := ⟨0, 0, 0, 0, 0, 0, false⟩
/-- The descriptor image a fibre's block was placed under (R43). -/
def descOf (s : State) (f : Fibre) : Desc := ((blockOf s f).map (·.desc)).getD Desc.zero
/-- Changes a stage of a launch. -/
def updStage (s : State) (launch : Word) (stage : Nat) (g : Stage → Stage) : State :=
  updLaunch s launch fun L => { L with stages := L.stages.mapIdx fun i x => if i = stage then g x else x }
/-- A stage of a launch. -/
def stage? (s : State) (launch : Word) (stage : Nat) : Option Stage := (launch? s launch).bind fun L => L.stages[stage]?

/-- The first image of a launch's first stage (R43). -/
def firstDesc (L : Launch) : Desc := ((L.stages.head?.bind (·.first))).getD Desc.zero
/-- SYNC.ORDERED (R40). -/
def Desc.ordered (d : Desc) : Bool := d.sync.getLsbD 20
/-- An ordered launch (R381). -/
def isOrdered (s : State) (launch : Word) : Bool := ((launch? s launch).map fun L => (firstDesc L).ordered).getD false
/-- The quantum Q (R381): that of stage 0 for the fibres of every stage (assumption 57). -/
def quantum (s : State) (launch : Word) : Nat :=
  ((launch? s launch).map fun L => 2 ^ wfield (firstDesc L).sync 27 23).getD 1
/-- The ASID a fibre runs in (R227). -/
def asidOf (s : State) (f : Fibre) : Nat := ((launch? s f.launch).map (·.asid)).getD 0
/-- Who accesses, for a fibre, with the states that it knows Sealed pages to have. -/
def ctxFor (s : State) (f : Fibre) (seals : List (Nat × Nat × SealState)) : Ctx :=
  ⟨f.id.core, partOfCore s f.id.core, asidOf s f, f.launch, f.stage, seals⟩
/-- A block's handlers run under a saving pre-emption: their accesses are those of an ordinary launch (R418). -/
def inSaveHandler (s : State) (f : Fibre) : Bool :=
  match blockOf s f with
  | none => false
  | some b =>
    match b.preempt with
    | .inSave _ _ | .restoring _ _ _ => f.regs.level == 2
    | _ => false
/-- A fibre has exited; an ordered one may still run a handler for a copy of its own (R262, R384). -/
def Fibre.left (f : Fibre) : Bool := f.status == .exited || (f.regs.level != 0 && f.regs.frozen == .exited)
/-- No access of the fibre is unfinished (R370). -/
def Fibre.settled (f : Fibre) : Bool := f.unfin == [] && f.moving == []
/-- A fibre whose operations are held with its quantum (R383). -/
def heldMode (s : State) (f : Fibre) : Bool := isOrdered s f.launch && !inSaveHandler s f && !f.left
/-- The states that its quantum's held `seal` and `unseal` give Sealed pages, the latest first (R265, R383). -/
def heldSeals (f : Fibre) : List (Nat × Nat × SealState) :=
  (f.unfin.filterMap fun h => match h.op with
    | .vseal page bits => some (page, bits, SealState.isSealed)
    | .vunseal page bits => some (page, bits, .opened)
    | _ => none).reverse
/-- Who accesses, for a fibre. -/
def ctxOf (s : State) (f : Fibre) : Ctx := ctxFor s f (if heldMode s f then heldSeals f else [])

/-! ## Registers -/

/-- A vector register. -/
def Fibre.vreg (f : Fibre) (n : Nat) : VReg := f.regs.v.getD n zeroV
/-- A scalar register. -/
def Fibre.sreg (f : Fibre) (n : Nat) : Word := f.regs.s.getD n 0
/-- A predicate; `p0` reads all ones (R117). -/
def Fibre.preg (f : Fibre) (n : Nat) : BitVec 32 := if n = 0 then allOnes else f.regs.p.getD n 0
/-- A vector register that is present (R118). -/
def Fibre.present (f : Fibre) (n : Nat) : Bool := n < 32 + f.regs.ext
/-- FTZ (R68, R71). -/
def Fibre.ftz (f : Fibre) : Bool := f.regs.xen.getLsbD 16
/-- EN (R71). -/
def Fibre.en (f : Fibre) : BitVec 32 := f.regs.xen &&& 0x1F

/-- Two fibres of one group (R109). -/
def sameGroup (f g : Fibre) : Bool :=
  f.id.core == g.id.core && f.id.pos / 4 == g.id.pos / 4 && f.launch == g.launch && f.stage == g.stage && f.block == g.block

/-- The window a fibre receives: its owner, base and length (R126, R127). -/
def windowIn (s : State) (f : Fibre) : Option (Fibre × Nat × Nat) :=
  s.fibres.findSome? fun a =>
    match a.window with
    | some (base, len, partner) =>
      if sameGroup a f && a.id != f.id && f.id.pos % 4 == partner && len != 0 then some (a, base, len) else none
    | none => none

/-- The register that `w i` names: its owner and number (R127). -/
def windowReg (s : State) (f : Fibre) (i : Nat) : Option (Fibre × Nat) :=
  match windowIn s f with
  | some (a, base, len) => if i < len then some (a, base + i) else none
  | none => none

/-- A write of a register clears its poison (R403). -/
def Fibre.unpoison (r : RegId) (f : Fibre) : Fibre := { f with poison := f.poison.filter (· != r) }

/-- A register run with one write made; `p0` discards (R117, R142). -/
def FRegs.put (w : RegWrite) (r : FRegs) : FRegs :=
  match w with
  | .v n mask val => { r with v := r.v.setIfInBounds n (mergeV mask val (r.v.getD n zeroV)) }
  | .s n val => { r with s := r.s.setIfInBounds n val }
  | .p n mask val => if n = 0 then r else { r with p := r.p.setIfInBounds n ((val &&& mask) ||| (r.p.getD n 0 &&& ~~~mask)) }
  | .w _ _ _ => r

/-- The register a write names. -/
def RegWrite.id : RegWrite → RegId
  | .v n _ _ => .v n
  | .w n _ _ => .w n
  | .s n _ => .s n
  | .p n _ _ => .p n

/-- Whether a write replaces the whole register. -/
def RegWrite.whole : RegWrite → Bool
  | .v _ mask _ | .w _ mask _ | .p _ mask _ => mask == allOnes
  | .s _ _ => true

/-- One write of a fibre's own register. -/
def Fibre.write (f : Fibre) (w : RegWrite) : Fibre :=
  let f := if w.whole && f.poison != [] then f.unpoison w.id else f
  { f with regs := f.regs.put w }

/-- Writes of a fibre's own registers, in order. -/
def Fibre.writeAll (f : Fibre) (ws : List RegWrite) : Fibre := ws.foldl Fibre.write f

/-- Raised flags become set (R70). -/
def Fibre.raise (f : Fibre) (flags : BitVec 32) : Fibre := { f with regs := { f.regs with xflags := f.regs.xflags ||| flags } }

/-- The writes of `ws` that go to windows, as writes of their owners' registers (R127). -/
def windowWrites (s : State) (f : Fibre) (ws : List RegWrite) : List (FibreId × RegWrite) :=
  ws.filterMap fun w =>
    match w with
    | .w i mask val => (windowReg s f i).map fun a => (a.1.id, .v a.2 mask val)
    | _ => none

/-- A partner's write of a register: it stands in every checkpoint of the owner too, so that no rollback loses it (R126). -/
def Fibre.partnerWrite (w : RegWrite) (f : Fibre) : Fibre :=
  { f.write w with unfin := f.unfin.map fun h => { h with snap := h.snap.put w } }

/-- Makes the window writes of a fibre. -/
def putWindows (s : State) (f : Fibre) (ws : List RegWrite) : State :=
  (windowWrites s f ws).foldl (fun s x => updFibre s x.1 (Fibre.partnerWrite x.2)) s

/-- The shared register that a write of a fibre names: its owner and number (R126, R127). -/
def sharedReg (s : State) (f : Fibre) (w : RegWrite) : Option (FibreId × Nat) :=
  match w with
  | .w i _ _ => (windowReg s f i).map fun a => (a.1.id, a.2)
  | .v n _ _ =>
    match f.window with
    | some (base, len, _) => if base ≤ n ∧ n < base + len then some (f.id, n) else none
    | none => none
  | _ => none

/-- A write with lanes left out. -/
def RegWrite.without (m : BitVec 32) : RegWrite → RegWrite
  | .v n mask val => .v n (mask &&& ~~~m) val
  | .w n mask val => .w n (mask &&& ~~~m) val
  | x => x

/-- The lanes of a write. -/
def RegWrite.lanes : RegWrite → BitVec 32
  | .v _ mask _ | .w _ mask _ | .p _ mask _ => mask
  | .s _ _ => allOnes

/-- Of two writes of one shared register in one cycle that of the lower slot-fibre index stands (R128): the writes of a fibre
without the lanes that such a write has made already. -/
def standing (s : State) (f : Fibre) (ws : List RegWrite) : List RegWrite :=
  if s.sameCycle = [] then ws
  else ws.map fun w => match sharedReg s f w with
    | none => w
    | some (o, n) =>
      w.without ((s.sameCycle.filter fun x => x.1 == o && x.2.1 == n && decide (x.2.2.1 < f.id.pos % 4)).foldl
        (fun m x => m ||| x.2.2.2) 0)

/-- Notes the writes of shared registers that a fibre makes in this cycle (R128). -/
def noteShared (f : Fibre) (ws : List RegWrite) (s : State) : State :=
  { s with sameCycle := s.sameCycle ++ ws.filterMap fun w =>
      (sharedReg s f w).map fun x => (x.1, x.2, f.id.pos % 4, w.lanes) }

/-- All registers with a pending bit (R148). -/
def Fibre.pending (f : Fibre) : List RegId := f.pend.flatMap (·.marks)

/-- The partner's outstanding variable-latency writes into the registers the two share (R127). -/
def sharedPending (s : State) (f : Fibre) : Bool :=
  (match windowIn s f with
    | some (a, base, len) => a.pending.any fun r => match r with
      | .v n => decide (base ≤ n) && decide (n < base + len)
      | _ => false
    | none => false) ||
  (match f.window with
    | some (_, len, partner) =>
      s.fibres.any fun g => sameGroup g f && g.id != f.id && g.id.pos % 4 == partner &&
        g.pending.any fun r => match r with
          | .w i => decide (i < len)
          | _ => false
    | none => false)

/-- The partner's outstanding writes into a fibre's own outgoing window (R126, R173). -/
def partnerWrites (s : State) (f : Fibre) : Bool :=
  match f.window with
  | some (_, len, partner) =>
    s.fibres.any fun g => sameGroup g f && g.id != f.id && g.id.pos % 4 == partner &&
      g.pending.any fun r => match r with
        | .w i => decide (i < len)
        | _ => false
  | none => false

/-! ## Trap registers (R155, R246, R451) -/

/-- How the upper half of a 16-byte word is read (R138, R154). -/
inductive Layout where
  | w | d | e
  deriving DecidableEq, Repr

/-- The 16-byte layout of an opcode; W where it has none (R155). -/
def layoutOf (op : Nat) : Layout :=
  if 0xB0 ≤ op ∧ op ≤ 0xBA then .d
  else if 0xD0 ≤ op ∧ op ≤ 0xD4 then .d
  else if op = 0xBD ∨ (0xE0 ≤ op ∧ op ≤ 0xE3) then .e
  else .w

/-- `%tf0` (R155). -/
def tf0Of (w : Nat) (len reason : Nat) : Word :=
  BitVec.ofNat 64 (reason * 2 ^ 56 + len * 2 ^ 48 + field w 63 57 * 2 ^ 25 + field w 24 18 * 2 ^ 18 + field w 17 15 * 2 ^ 15 +
    field w 14 0)

/-- `%tf1` (R155). -/
def tf1Of (w : Nat) (len : Nat) : Word :=
  let sc := if len = 8 ∨ len = 0 then 0 else if len = 16 ∧ layoutOf (field w 14 7) = .w then 0 else field w 79 64
  BitVec.ofNat 64 (sc * 2 ^ 32 + field w 56 41 * 2 ^ 16 + field w 40 25)

/-- `%tf2` (R155). -/
def tf2Of (w : Nat) (len : Nat) : Word :=
  if len = 12 then BitVec.ofNat 64 (field w 95 80)
  else if len = 16 then
    match layoutOf (field w 14 7) with
    | .w => BitVec.ofNat 64 (field w 127 64)
    | .d => word (sext 48 (field w 127 80))
    | .e => BitVec.ofNat 64 (field w 127 80)
  else 0

/-- The trap registers of a cause that fills the fields of R155. -/
def wordRegs (cause : BitVec 8) (w : BitVec 128) (len reason : Nat) (pc : Word) : TRegs :=
  { tcause := cause.setWidth 32, tpc := pc, tmask := 0, tinst := w
    tf0 := tf0Of w.toNat len reason, tf1 := tf1Of w.toNat len, tf2 := tf2Of w.toNat len
    tf3 := pc + BitVec.ofNat 64 len }

/-- The trap registers of a cause that names `%tf0` and `%tf1` itself (R124, R181, R246). -/
def plainRegs (cause : BitVec 8) (w : BitVec 128) (len : Nat) (pc : Word) (tf0 tf1 : Word) (mask : BitVec 32) : TRegs :=
  { tcause := cause.setWidth 32, tpc := pc, tmask := mask, tinst := w, tf0 := tf0, tf1 := tf1, tf2 := 0
    tf3 := pc + BitVec.ofNat 64 len }

/-- The word of an instruction, zero above its length. -/
def wordOf (i : Instr) : BitVec 128 := (i.toRaw.map Raw.toBits).getD 0
/-- The length of an instruction's word in bytes. -/
def lenOf (i : Instr) : Nat := (i.toRaw.map fun r => r.len.bytes).getD 0

/-! ## Taking a trap (R399) -/

/-- The descriptor's HANDLER. -/
def handlerOf (s : State) (f : Fibre) : Word := (descOf s f).handler

/-- Where a trap goes: the target, and whether it is the user handler (R399). -/
def trapTarget (s : State) (f : Fibre) (sys : Bool) : Word × Bool :=
  if sys || f.regs.level = 1 || handlerOf s f = 0 then ((partn s (partOfCore s f.id.core)).systrap, false)
  else (handlerOf s f, true)

/-- The registers of a fibre that has entered a handler. -/
def FRegs.enter (r : FRegs) (t : TRegs) (level back : Nat) (target : Word) (frozen : FStatus) (ret : Option Resume) : FRegs :=
  { r with
    t := t, level := level, back := back, pc := target
    frozen := if r.level = 0 then frozen else r.frozen
    resume := ret :: r.resume }

/-- Takes a trap (R399, R451): counts it in NFAULT (R430), writes the trap registers, sets NEST and SYS, raises the level
and puts the pc at the handler; at level 2, or with no handler, the context halts. `frozen` is the state the fibre
returns to at level 0 and `ret` how. -/
def enterTrap (id : FibreId) (t : Trap) (frozen : FStatus) (ret : Option Resume) (s : State) : State :=
  match fibre? s id with
  | none => s
  | some f =>
    if f.regs.level = 2 then haltByFibre f .doubletrap 0 s
    else
      let (target, user) := trapTarget s f t.sys
      if target = 0 then haltByFibre f .nohandler 0 s
      else
        let cause := t.regs.tcause ||| (if f.regs.level = 1 then 0x400 else 0) ||| (if user then 0 else 0x800)
        let regs := { t.regs with tcause := cause }
        let s := updLaunch s f.launch fun L => { L with nfault := L.nfault + 1 }
        updFibre s id fun f => { f with
          regs := f.regs.enter regs (if user then 1 else 2) (if user then 0 else f.regs.level) target frozen ret
          status := .ready, readySince := s.clock, waitTrap := none, follow := none, winWait := false }

/-- PARKED ends where nothing that a fibre waited for is outstanding any more (R111). -/
def settleParked (s : State) : State :=
  { s with fibres := s.fibres.map fun f =>
      if f.status == .parked && f.pend == [] && !sharedPending s f then
        { f with status := if f.isCur then .current else .ready, readySince := s.clock }
      else f }

/-- The state a fibre is frozen in: what waits goes on waiting, and a fibre that could issue is READY. -/
def FStatus.freeze : FStatus → FStatus
  | .current | .parked => .ready
  | x => x

/-- Nothing stands in the way of trap entry: no outstanding result, and the fibre not speculative; inside a quantum the
fibre freezes where it is (R376, R387, R399). -/
def canEnter (s : State) (f : Fibre) : Bool := f.pend == [] && (f.settled || heldMode s f)

/-- A trap arises (R376, R450): it is entered at once where that can be, and otherwise waits; of two, the one earlier in
program order stands. -/
def raiseTrap (id : FibreId) (t : Trap) (s : State) : State :=
  match fibre? s id with
  | none => s
  | some f =>
    let stands := match f.waitTrap with
      | some w => decide (t.seq < w.seq)
      | none => true
    if !stands then s
    else if canEnter s f then enterTrap id t f.status.freeze none s
    else updFibre s id fun f => { f with waitTrap := some t, follow := none, winWait := false }

/-! ## Retirement -/

/-- An instruction retires (R380): the pc goes on, `%lclock` counts it at level 0, and the fibre is its slot's current
fibre unless it waits or has exited. -/
def Fibre.retire (f : Fibre) (pc : Word) : Fibre :=
  let st := match f.status with
    | .ready | .parked => .current
    | x => x
  { f with
    regs := { f.regs with pc := pc, lclock := if f.regs.level = 0 then f.regs.lclock + 1 else f.regs.lclock }
    seq := f.seq + 1, status := st, isCur := st == .current, follow := none }

/-! ## The pool of extended registers (R120 to R122) -/

/-- Copies a fibre released that have neither landed nor been abandoned (R173). -/
def copiesOut (s : State) (f : Fibre) : Bool := (coreOf s f.id.core).copies.any fun c => c.fibre == f.id && !c.landed

/-- Units of an extended run. -/
def runUnits (r : FRegs) : List Nat := if r.ext = 0 then [] else (List.range (r.ext / 16)).map (· + r.unit0)
/-- The units a fibre keeps from the pool: held, or held at a checkpoint or at the start of its quantum (R122). -/
def fibreUnits (s : State) (f : Fibre) : List Nat :=
  if f.left && !copiesOut s f then []
  else runUnits f.regs ++ f.unfin.flatMap (fun h => runUnits h.snap) ++ (if isOrdered s f.launch then runUnits f.qstart else [])
/-- Units of a quadrant that are held. -/
def heldUnits (s : State) (core quad : Nat) : List Nat :=
  (s.fibres.filter fun f => f.id.core == core && f.id.pos / 16 == quad).flatMap (fibreUnits s)
/-- A run of `n` units from `u` is free. -/
def runFree (held : List Nat) (u n : Nat) : Bool := u + n ≤ 16 && (List.range n).all fun i => !held.contains (u + i)
/-- First fit (R96, R120). -/
def firstFit (held : List Nat) (n : Nat) : Option Nat := (List.range 16).find? fun u => runFree held u n

/-- Where the extended block of a fibre stands when it is granted `n` registers now; `none` when it cannot be. -/
def grantUnits (s : State) (f : Fibre) (n : Nat) : Option Nat :=
  let held := heldUnits s f.id.core (f.id.pos / 16)
  let h := f.regs.ext
  if h = 0 then firstFit held (n / 16)
  else if runFree held (f.regs.unit0 + h / 16) ((n - h) / 16) then some f.regs.unit0
  else none

/-- The registers after a grant: new ones read as zero (R120). -/
def FRegs.grow (r : FRegs) (n unit0 : Nat) : FRegs :=
  { r with
    ext := n, unit0 := unit0
    v := Vector.ofFn fun i => if 32 + r.ext ≤ i.val ∧ i.val < 32 + n then zeroV else r.v.getD i.val zeroV }

/-- A register whose poison stays when a fibre goes from `h` extended registers to `n`: not one that is new or gone (R120,
R403). -/
def RegId.keeps (h n : Nat) : RegId → Bool
  | .v i => decide (i < 32 + min h n)
  | _ => true

/-- A fibre with `n` extended registers from a unit on, more than it had (R120). -/
def Fibre.grown (n unit0 : Nat) (f : Fibre) : Fibre :=
  { f with regs := f.regs.grow n unit0, poison := f.poison.filter (RegId.keeps f.regs.ext n) }
/-- A fibre cut to `n` extended registers (R122). -/
def Fibre.shrunk (n : Nat) (f : Fibre) : Fibre :=
  { f with regs := { f.regs with ext := n }, poison := f.poison.filter (RegId.keeps f.regs.ext n) }

/-- Fibres of a quadrant with a pending blocking request, oldest first (R121); a tie goes to the lower position. -/
def pendingAcquires (s : State) (core quad : Nat) : List Fibre :=
  let fs := s.fibres.filter fun f => f.id.core == core && f.id.pos / 16 == quad && f.acquire.isSome
  let before := fun (a b : Fibre) =>
    let x : Nat := (a.acquire.map (·.since)).getD 0
    let y : Nat := (b.acquire.map (·.since)).getD 0
    decide (x < y) || (x == y && decide (a.id.pos ≤ b.id.pos))
  fs.mergeSort before

/-- The bottom pc that a frozen fibre goes on from moves past its instruction. -/
def bumpResume (len : Nat) : List (Option Resume) → List (Option Resume)
  | [] => []
  | [some r] => [some { r with pc := r.pc + BitVec.ofNat 64 len }]
  | x :: r => x :: bumpResume len r

/-- A blocking request is granted: the fibre leaves ACQUIRE past its `regacq`, or will at its `rett` (R262). -/
def grantAcquire (clock n unit0 : Nat) (f : Fibre) : Fibre :=
  let p := (f.acquire.map (·.pred)).getD 0
  let f : Fibre := { f.grown n unit0 with acquire := none, stuckFor := 0 }
  let regs := f.regs.put (.p p allOnes allOnes)
  let f : Fibre := { f with regs := regs }
  if f.status = .acquire then
    { f with
      regs := { regs with
        pc := regs.pc + 8, lclock := if regs.level = 0 then regs.lclock + 1 else regs.lclock }
      seq := f.seq + 1, status := .ready, readySince := clock }
  else
    { f with regs := { regs with frozen := .ready, resume := bumpResume 8 regs.resume, lclock := regs.lclock + 1 } }

/-- Grants pending requests of a quadrant oldest first, as far as they go (R121). -/
def grantPending (core quad : Nat) : Nat → State → State
  | 0, s => s
  | fuel + 1, s =>
    match pendingAcquires s core quad with
    | [] => s
    | f :: _ =>
      let n := (f.acquire.map (·.n)).getD 0
      match grantUnits s f n with
      | none => s
      | some u => grantPending core quad fuel (updFibre s f.id (grantAcquire s.clock n u))

/-- Grants after units of a fibre's quadrant may have returned to the pool. -/
def regrant (id : FibreId) (s : State) : State := grantPending id.core (id.pos / 16) 16 s

/-! ## Barriers and tickets (R175 to R178) -/

/-- Which barrier of a level a fibre names: the slot, the quadrant, and the cluster or stack group in which its block was placed
first: membership is fixed at placement (R175). -/
def barInst (lvl : BarLevel) (f : Fibre) : Nat :=
  match lvl with
  | .slot => f.id.pos / 4
  | .gang => f.id.pos / 16
  | .block | .grid => 0
  | .cluster => f.home / 8
  | .span => f.home / 16

/-- Levels above the block, whose barriers the launch holds (R95). -/
def BarLevel.wide : BarLevel → Bool
  | .cluster | .span | .grid => true
  | _ => false

/-- The count a descriptor declares for a level (R40). -/
def barCount (d : Desc) : BarLevel → Nat
  | .slot => wfield d.sync 1 0
  | .gang => wfield d.sync 4 2
  | .block => wfield d.sync 9 5
  | .cluster => wfield d.sync 13 10
  | .span => wfield d.sync 16 14
  | .grid => wfield d.sync 19 17

/-- A fresh barrier. -/
def Barrier.new (lvl : BarLevel) (inst num : Nat) : Barrier := ⟨lvl, inst, num, 0, []⟩
/-- Names the same barrier. -/
def Barrier.same (b : Barrier) (lvl : BarLevel) (inst num : Nat) : Bool := b.lvl == lvl && b.inst == inst && b.num == num
/-- The barrier of a list, fresh if unlisted. -/
def barGet (bs : List Barrier) (lvl : BarLevel) (inst num : Nat) : Barrier :=
  (bs.find? fun b => b.same lvl inst num).getD (Barrier.new lvl inst num)
/-- Replaces the barrier of a list. -/
def barPut (bs : List Barrier) (b : Barrier) : List Barrier :=
  if bs.any fun c => c.same b.lvl b.inst b.num then updIf (fun c => c.same b.lvl b.inst b.num) (fun _ => b) bs else bs ++ [b]

/-- The barrier a fibre names. -/
def barOf (s : State) (f : Fibre) (lvl : BarLevel) (num : Nat) : Barrier :=
  let bs := if BarLevel.wide lvl then ((launch? s f.launch).map fun L => L.bars).getD []
    else ((blockOf s f).map fun k => k.bars).getD []
  barGet bs lvl (barInst lvl f) num
/-- Changes the barrier a fibre names. -/
def setBar (s : State) (f : Fibre) (b : Barrier) : State :=
  if BarLevel.wide b.lvl then updLaunch s f.launch fun L => { L with bars := barPut L.bars b }
  else updBlock s f.launch f.stage f.block fun k => { k with bars := barPut k.bars b }

/-- The members of the barrier a fibre names, saved ones among them (R175). -/
def barMembers (s : State) (f : Fibre) (lvl : BarLevel) : List Fibre :=
  let saved := ((launch? s f.launch).map fun L => L.saved.flatMap (·.fibres)).getD []
  (s.fibres ++ saved).filter fun g =>
    g.launch == f.launch &&
    match lvl with
    | .slot => g.stage == f.stage && g.block == f.block && g.id.core == f.id.core && g.id.pos / 4 == f.id.pos / 4
    | .gang => g.stage == f.stage && g.block == f.block && g.id.pos / 16 == f.id.pos / 16
    | .block => g.stage == f.stage && g.block == f.block
    | .cluster => g.home / 8 == f.home / 8
    | .span => g.home / 16 == f.home / 16
    | .grid => true

/-- A fibre's arrival phase at a barrier (R176). -/
def arrivedAt (f : Fibre) (lvl : BarLevel) (num : Nat) : Nat := ((f.arrived.find? fun a => a.1 == (lvl, num)).map (·.2)).getD 0
/-- Arrives at the next phase. -/
def Fibre.arrive (f : Fibre) (lvl : BarLevel) (num : Nat) : Fibre :=
  let n := arrivedAt f lvl num + 1
  { f with arrived := (f.arrived.filter fun a => a.1 != (lvl, num)) ++ [((lvl, num), n)] }

/-- Completes the phases of a barrier that are complete (R176); a saved fibre has neither arrived nor exited (R418). -/
def completePhases (members : List Fibre) : Nat → Barrier → Barrier
  | 0, b => b
  | fuel + 1, b =>
    let ph := b.done + 1
    let here := fun (f : Fibre) => f.status != .saved && decide (ph ≤ arrivedAt f b.lvl b.num)
    if (members.any fun f => !f.left && here f) && (members.all fun f => f.left || here f) &&
        (b.copies.all fun c => c.1 != ph) then
      completePhases members fuel { b with done := ph }
    else b

/-- A wait whose phase is complete ends: the arrival that followed it is made, and `bar` then waits on it. -/
def endWait (clock : Nat) (done : Nat) (f : Fibre) : Fibre :=
  match f.status with
  | .barrier lvl num phase arrive again =>
    if done < phase then f
    else if arrive && f.regs.level == 0 then
      let f := f.arrive lvl num
      if again then { f with status := .barrier lvl num (phase + 1) false true }
      else { f with status := .ready, readySince := clock }
    else { f with status := .ready, readySince := clock }
  | _ => f

/-- Settles one barrier: phases complete, waits end, arrivals that waited are made, as long as something moves. A member that
was frozen in its wait makes the arrival it waited for at its `rett` (R262); a wait of its handler ends as any other. -/
def settleBarrier (f : Fibre) (lvl : BarLevel) (num : Nat) : Nat → State → State
  | 0, s => s
  | fuel + 1, s =>
    let b := barOf s f lvl num
    let members := barMembers s f lvl
    let b' := completePhases members 64 b
    let s := if b' = b then s else setBar s f b'
    let waits := fun (g : Fibre) => match g.status with
      | .barrier l n ph _ _ => l == lvl && n == num && decide (ph ≤ b'.done)
      | _ => false
    let ids := (members.filter waits).map (·.id)
    if ids.isEmpty then s
    else
      settleBarrier f lvl num fuel
        { s with fibres := updIf (fun g => ids.contains g.id) (endWait s.clock b'.done) s.fibres }

/-- `barv`, `barw` and `bar` take effect (R176). A frozen member does not arrive: an arrival in a handler is owed, and made
once the fibre is back at level 0 (assumption 49). -/
def barrierOp (id : FibreId) (lvl : BarLevel) (num : Nat) (arrive wait : Bool) (s : State) : State :=
  match fibre? s id with
  | none => s
  | some f =>
    let b := barOf s f lvl num
    let ph := arrivedAt f lvl num
    let s :=
      if arrive && f.regs.level != 0 then
        updFibre s id fun f => { f with
          owed := f.owed ++ [(lvl, num)]
          status := if wait && decide (b.done < ph) then .barrier lvl num ph false true else f.status }
      else if arrive then
        if b.done < ph then updFibre s id fun f => { f with status := .barrier lvl num ph true wait }
        else
          updFibre s id fun f =>
            let f := f.arrive lvl num
            if wait then { f with status := .barrier lvl num (ph + 1) false true } else f
      else if b.done < ph then updFibre s id fun f => { f with status := .barrier lvl num ph false true }
      else s
    settleBarrier f lvl num (2 * (barMembers s f lvl).length + 2) s

/-- An arrival that a handler asked for is made (R176). -/
def payArrival (f : Fibre) (s : State) : State :=
  match f.owed with
  | [] => s
  | (lvl, num) :: rest => barrierOp f.id lvl num true false (updFibre s f.id fun f => { f with owed := rest })

/-- Every barrier that a fibre is a member of is settled again: it has exited, or copies have arrived. -/
def settleAll (f : Fibre) (s : State) : State :=
  let d := descOf s f
  let go := fun (lvl : BarLevel) (s : State) => (List.range (barCount d lvl)).foldl
    (fun s n => settleBarrier f lvl n (2 * (barMembers s f lvl).length + 2) s) s
  go .grid (go .span (go .cluster (go .block (go .gang (go .slot s)))))

/-- Whether block `b` of a stage has passed a ticket (R177, R178). -/
def ticketPassed (g : Stage) (b t : Nat) : Bool :=
  g.exited.contains b || g.tickets.any fun x => x.1 == b && x.2.getLsbD t
/-- Every lower block has passed ticket `t`. -/
def ticketOpen (g : Stage) (b t : Nat) : Bool := (List.range b).all fun c => ticketPassed g c t
/-- Passes a ticket for a block. -/
def passTicket (b t : Nat) (g : Stage) : Stage :=
  let old := ((g.tickets.find? fun x => x.1 == b).map (·.2)).getD 0
  { g with tickets := (g.tickets.filter fun x => x.1 != b) ++ [(b, old ||| BitVec.ofNat 4 (2 ^ t))] }

/-- Waits on tickets of a stage that have been passed end. -/
def settleTickets (launch : Word) (stage : Nat) (s : State) : State :=
  match stage? s launch stage with
  | none => s
  | some g =>
    let ready := fun (f : Fibre) => f.launch == launch && f.stage == stage
    { s with fibres := s.fibres.map fun f =>
        if ready f then
          match f.status with
          | .ticket t => if ticketOpen g f.block t then { f with status := .ready, readySince := s.clock } else f
          | _ =>
            match f.regs.frozen with
            | .ticket t =>
              if ticketOpen g f.block t then { f with regs := { f.regs with frozen := .ready } } else f
            | _ => f
        else f }

/-! ## The end of a block and of a launch (R105, R173) -/

/-- The bytes of a place in a stage's output queue (R102). -/
def queueAddr (g : Stage) (off : Nat) : Nat := g.qpages.getD (off / 65536) 0 + off % 65536

/-- Partition and ASID of a launch (R405). -/
def contextOf (s : State) (launch : Word) : Option (Nat × Nat) := (launch? s launch).map fun L => (L.part, L.asid)

/-- The control line of a stage's output queue is rewritten (R102), for the context of its launch (R426). -/
def writeControlLine (launch : Word) (g : Stage) (s : State) : State :=
  if g.qpages = [] then s
  else writeDev none none (contextOf s launch) (queueAddr g 0)
    (bytesOf 64 (g.enqn % 2 ^ 32 + g.deqn % 2 ^ 32 * 2 ^ 32 + (if g.closed then 2 ^ 64 else 0))) s

/-- The input queue of a stage: the stage before it. -/
def inputOf (L : Launch) (k : Nat) : Option Stage := if k = 0 then none else L.stages[k - 1]?
/-- Entries in an output queue (R102). -/
def Stage.occupancy (g : Stage) : Nat := g.enqn - g.deqn

/-- All blocks of a stage are placed and have exited, and none will follow (R105). Entries that no block has taken keep a stage
waiting in an ordered launch too (assumption 57). -/
def stageDone (s : State) (L : Launch) (k : Nat) : Bool :=
  match L.stages[k]? with
  | none => false
  | some g =>
    let live := s.blocks.any fun b => b.launch == L.id && b.stage == k
    let saved := L.saved.any fun b => b.blk.stage == k
    let noMore := match inputOf L k with
      | none => g.next == g.blocks
      | some q => q.closed && q.occupancy == 0
    !live && !saved && g.again.isEmpty && noMore

/-- Closes the output queues of stages that are done, in stage order (R105). -/
def closeQueues (id : Word) : Nat → Nat → State → State
  | 0, _, s => s
  | fuel + 1, k, s =>
    match launch? s id with
    | none => s
    | some L =>
      match L.stages[k]? with
      | none => s
      | some g =>
        if stageDone s L k && !g.closed && g.qpages != [] then
          let s := updStage s id k fun g => { g with closed := true }
          closeQueues id fuel (k + 1) (writeControlLine id { g with closed := true } s)
        else closeQueues id fuel (k + 1) s

/-- A launch that has nothing left to place or run completes (R105, R173, R431). -/
def finishLaunch (id : Word) (s : State) : State :=
  let s := closeQueues id 4 0 s
  match launch? s id with
  | none => s
  | some L =>
    let live := s.blocks.any fun b => b.launch == id
    match L.phase with
    | .queued => s
    | .failed st => if live || !L.saved.isEmpty then s else endLaunch L st 0 s
    | .placing =>
      if !live && L.stages != [] && stageDone s L (L.stages.length - 1) && L.saved.isEmpty then endLaunch L 0 0 s else s

/-- A request to pre-empt that names a block has been served for it (R412). -/
def serveRequest (p : Nat) (b : Word × Nat × Nat) (s : State) : State :=
  updPart s p fun P =>
    let rest := P.reqBlocks.filter (· != b)
    { P with
      reqBlocks := rest
      preemptreq := if rest = [] ∧ P.reqBlocks ≠ [] then P.preemptreq &&& 0x7FFFFFFF else P.preemptreq }

/-- A block leaves its core: its fibres and everything it held there (R95) but its expander slot, which it keeps until its last
fibre exits (R311). -/
def liftBlock (b : Block) (s : State) : State :=
  let r := coreOf s b.core
  let mine := fun (l : Word) (st n : Nat) => l == b.launch && st == b.stage && n == b.num
  let s := setCore s b.core { r with
    copies := r.copies.filter fun c => !mine c.launch c.stage c.block
    mat := r.mat.filter fun c => !mine c.launch c.stage c.block
    seqBase := seqAfter b.core (s.fibres.filter (inBlock b)) r.seqBase }
  let s := { s with
    fibres := s.fibres.filter fun f => !inBlock b f
    blocks := s.blocks.filter fun k => !mine k.launch k.stage k.num
    msys := { s.msys with hncViews := s.msys.hncViews.filter fun v => !(s.fibres.any fun f => inBlock b f && f.id == v.id) } }
  serveNext (partOfCore s b.core) s

/-- The expander slots of a block are free again, on whatever cores it took them (R311). -/
def dropSlots (b : Block) (s : State) : State :=
  let mine := fun (e : Word × Nat × Nat × Option XTable) => e.1 == b.launch && e.2.1 == b.stage && e.2.2.1 == b.num
  if s.cores.any fun c => c.2.expander.any mine then
    let cores := s.cores.map fun c => (c.1, { c.2 with expander := c.2.expander.filter fun e => !mine e })
    { s with cores := cores.filter fun c => c.2 != CoreRec.init }
  else s

/-- A block leaves its core with its expander slot: it has ended, or will start again (R311, R414). -/
def removeBlock (b : Block) (s : State) : State := dropSlots b (liftBlock b s)

/-- The last fibre of a block has exited: its tickets pass, its resources go, and its launch may complete (R173, R178). -/
def endBlock (b : Block) (s : State) : State :=
  let p := partOfCore s b.core
  let s := removeBlock b s
  let s := updStage s b.launch b.stage fun g => { g with
    exited := g.exited ++ [b.num]
    tickets := g.tickets.filter fun x => x.1 != b.num
    lifetimes := g.lifetimes + (s.clock - b.placedAt) }
  let s := match b.preempt with
    | .saving k | .inSave k _ | .restoring k _ _ => updPart s p fun P => { P with slots := P.slots.filter (· != k) }
    | _ => s
  let s := serveRequest p (b.launch, b.stage, b.num) s
  finishLaunch b.launch (settleTickets b.launch b.stage s)

/-- A block ends when all its fibres have exited and, in an ordered launch, their copies have landed or been abandoned and
their handlers have run (R173, R262, R384). -/
def tryEndBlock (b : Block) (s : State) : State :=
  if (s.fibres.filter (inBlock b)).all fun g => g.status == .exited && !copiesOut s g && g.copyFaults == [] then endBlock b s
  else s

/-! ## Admission rounds (R382) -/

/-- The placement set of a launch (R93). -/
def placementSet (s : State) (L : Launch) : List Nat :=
  (partCores s L.part).filter fun c => L.clusters == 0 || L.clusters.getLsbD (c / 8)

/-- Admission rounds that a commit of the current round fixes (R382): of block `c + P` where block `c` has exited, and of
the blocks of the next stage whose last entry was enqueued or whose input closed. -/
def noteAdmissions (before : List Stage) (done : List (Nat × Nat)) (P : Nat) (L : Launch) : Launch :=
  let put := fun (b : Nat) (g : Stage) => { g with admits := (g.admits.filter fun a => a.1 != b) ++ [(b, L.round + 1)] }
  { L with
    stages := L.stages.mapIdx fun k g =>
      let g := (done.filter fun d => d.1 == k).foldl (fun g d => put (d.2 + P) g) g
      if k = 0 ∨ g.entb = 0 then g
      else
        match before[k - 1]?, L.stages[k - 1]? with
        | some q, some q' =>
          let n := q'.enqn / g.entb
          let g := (List.range (n - q.enqn / g.entb)).foldl (fun g i => put (q.enqn / g.entb + i) g) g
          if q'.closed && !q.closed && q'.enqn % g.entb != 0 then put n g else g
        | _, _ => g }

/-- The blocks of a launch all of whose fibres have exited, with their stages. -/
def exitedBlocks (s : State) (id : Word) : List (Nat × Nat) :=
  (s.blocks.filter fun b => b.launch == id && (s.fibres.filter (inBlock b)).all (·.left)).map fun b => (b.stage, b.num)

/-- What a change of a launch's blocks and queues fixes for later blocks' admission. -/
def settleAdmissions (id : Word) (s s' : State) : State :=
  match launch? s id, launch? s' id with
  | some L, some L' =>
    if !(firstDesc L).ordered then s'
    else
      let blocks := fun (g : State) => (g.blocks.filter fun b => b.launch == id).map fun b => (b.stage, b.num)
      let gone := (blocks s).filter fun b => !(blocks s').contains b || (exitedBlocks s' id).contains b
      let fresh := gone.filter fun b => !(exitedBlocks s id).contains b &&
        ((exitedBlocks s' id).contains b || ((L'.stages[b.1]?).map fun g => g.exited.contains b.2).getD false)
      updLaunch s' id (noteAdmissions L.stages fresh (placementSet s L').length)
  | _, _ => s'

/-! ## Exit (R173) -/

/-- What `exit` does at retirement (R173). -/
def retireExit (id : FibreId) (s : State) : State :=
  match fibre? s id with
  | none => s
  | some f =>
    let s := updFibre s id fun f => { f with status := .exited, isCur := false, window := none, winWait := false }
    let s := settleAll f s
    let s := regrant id s
    match blockOf s f with
    | none => s
    | some b => tryEndBlock b s

end Sys2Proof.Machine
end

