-- ==== Sys2Proof/Machine/Preempt.lean ====
section
/-! DEFINITION. Rollback (18 R374), discarding a quantum (R383, R387), and the methods of pre-emption (21 R411 to R416). -/

namespace Sys2Proof.Machine

/-! ## Rollback -/

/-- The status after a rollback: the fibre is READY, or stays CURRENT (R374). -/
def backStatus : FStatus → FStatus
  | .current => .current
  | _ => .ready

/-- A fibre put back to registers and a place in program order; later results are discarded, earlier ones survive
(assumption 14). -/
def Fibre.restore (f : Fibre) (regs : FRegs) (seq : Nat) : Fibre :=
  { f with
    regs := regs, seq := seq, unfin := [], conflict := false, waitTrap := none, acquire := none, winWait := false
    pend := f.pend.filter fun p => p.seq < seq
    status := backStatus f.status, committing := false, qheld := [], follow := none }

/-- Claims of a fibre end (R377). -/
def dropClaims (id : FibreId) (s : State) : State :=
  { s with msys := { s.msys with claims := s.msys.claims.filter fun c => c.2 != id } }

/-- A rollback to the checkpoint (R374). With `count` it counts in `%rbcount` and `%rbnow`; without, it is the rollback
of R415. -/
def rollbackFibre (id : FibreId) (count : Bool) (s : State) : State :=
  match fibre? s id with
  | none => s
  | some f =>
    match f.unfin with
    | [] => s
    | h :: _ =>
      let s := updFibre s id fun f =>
        let f := f.restore h.snap h.seq
        if count then { f with rbcount := f.rbcount + 1, rbnow := f.rbnow + 1 } else f
      settleParked (regrant id (dropClaims id s))

/-- A fibre has a quantum that can be discarded: it has begun, and its commit has not (R344, R387). A fibre that waits between
quanta and one that has exited have none. -/
def Fibre.discardable (f : Fibre) : Bool :=
  !f.left && !f.committing && (f.seq != f.qseq || f.unfin != [] || f.status == .commit)

/-- The updates that a fibre's discarded instructions sent out are removed (R386). -/
def dropUpdates (id : FibreId) (s : State) : State :=
  { s with msys := { s.msys with hru := s.msys.hru.filter fun e => e.fibre != id || e.committed } }

/-- An uncommitted quantum is discarded (R383, R387). With `count` it is a re-execution. -/
def discardQuantum (id : FibreId) (count : Bool) (s : State) : State :=
  match fibre? s id with
  | none => s
  | some f =>
    if !f.discardable then s
    else
    let s := updFibre s id fun f =>
      let f := f.restore f.qstart f.qseq
      let f := { f with qlines := [], qwrites := [], qundo := [] }
      if count then { f with rbcount := f.rbcount + 1, qredo := f.qredo + 1, rbnow := f.rbnow + 1 } else f
    regrant id (dropClaims id (dropUpdates id s))

/-! ## Methods (R411 to R414) -/

/-- IDEM (R40). -/
def Desc.idem (d : Desc) : Bool := d.sync.getLsbD 21
/-- A co-resident launch (R98). -/
def Launch.coResident (L : Launch) : Bool :=
  let d := firstDesc L
  wfield d.sync 13 10 != 0 || wfield d.sync 16 14 != 0 || wfield d.sync 19 17 != 0

/-- The fibres of a block. -/
def fibresOf (s : State) (b : Block) : List Fibre := s.fibres.filter (inBlock b)

/-- The estimate *rem* is within the drain window (R411). -/
def drainFits (s : State) (p : Nat) (L : Launch) (b : Block) : Bool :=
  let n := (L.stages.map fun g => g.exited.length).foldl (· + ·) 0
  let total := (L.stages.map (·.lifetimes)).foldl (· + ·) 0
  n != 0 && decide (total ≤ n * (wfield (partn s p).preemptcfg 15 0 * 1024 + (s.clock - b.placedAt)))

/-- The lowest free save slot (R416). -/
def freeSlot (P : Partn) : Option Nat :=
  if P.savepool.getLsbD 0 then (List.range (wfield P.savepool 63 52)).find? fun k => !P.slots.contains k else none

/-- The methods of R411; `drainOn` is the DRAIN of a block that nothing else can be done with. -/
inductive Method where
  | drain | drainOn | flush | save
  deriving DecidableEq, Repr

/-- The choice of R411. -/
def chooseMethod (s : State) (p : Nat) (L : Launch) (b : Block) (drainAllowed : Bool) : Method :=
  let P := partn s p
  if drainAllowed && drainFits s p L b then .drain
  else if Desc.idem b.desc || ((firstDesc L).ordered && !b.committed) then .flush
  else if P.savehdlr != 0 && P.resthdlr != 0 && (freeSlot P).isSome && (fibresOf s b).all fun f => f.regs.level != 2 then .save
  else .drainOn

/-- A number put in its place in a rising list. -/
def insertNat (n : Nat) : List Nat → List Nat
  | [] => [n]
  | x :: r => if n < x then n :: x :: r else if n = x then x :: r else x :: insertNat n r

/-- The block is to be placed again; the entries that it took of its stage's input stay taken (R106, assumption 57). -/
def Stage.flushed (b : Block) (g : Stage) : Stage :=
  { g with
    again := insertNat b.num g.again
    taken := if b.deqCount = 0 then g.taken else (g.taken.filter fun t => t.1 != b.num) ++ [(b.num, b.deqCount)] }

/-- FLUSH (R414): the block stops and will be placed again; a flushed co-resident launch resets its barriers. A launch that places
no further block may end with it (R94, assumption 57). -/
def flushBlock (p : Nat) (L : Launch) (b : Block) (s : State) : State :=
  let ids := (fibresOf s b).map (·.id)
  let dead := ((coreOf s b.core).copies.filter fun c => c.launch == b.launch && c.stage == b.stage && c.block == b.num &&
    !c.landed).map (·.id)
  let s := removeBlock b s
  let s := { s with msys := { s.msys with
    hru := s.msys.hru.filter fun e => !(ids.contains e.fibre && e.launch == b.launch) || e.committed
    claims := s.msys.claims.filter fun c => !ids.contains c.2
    shadows := s.msys.shadows.filter fun x => x.landed || !(x.owner.2.1 == b.core && dead.contains x.owner.2.2) } }
  let s := updStage s b.launch b.stage (Stage.flushed b)
  let s := if L.coResident then updLaunch s b.launch fun L => { L with bars := [] } else s
  let s := (List.range 4).foldl (fun s q => grantPending b.core q 16 s) s
  finishLaunch b.launch (serveRequest p (b.launch, b.stage, b.num) s)

/-- A block drains, from now on where it did not yet (R413). -/
def drainBlock (b : Block) (s : State) : State :=
  updBlock s b.launch b.stage b.num fun k => { k with preempt := match k.preempt with
    | .drain t again => .drain t again
    | _ => .drain s.clock false }

/-- The uncommitted quanta of an ordered block are discarded (R411). -/
def discardAll (L : Launch) (b : Block) (s : State) : State :=
  if (firstDesc L).ordered then ((fibresOf s b).map (·.id)).foldl (fun s id => discardQuantum id false s) s else s

/-- FLUSH takes effect once no quantum of the block is in the middle of its commit (R360, R414, assumption 51). -/
def flushWhenCommitted (p : Nat) (L : Launch) (b : Block) (s : State) : State :=
  if (fibresOf s b).any (·.committing) then updBlock s b.launch b.stage b.num fun k => { k with preempt := .flushing }
  else flushBlock p L b (discardAll L b s)

/-- A method takes effect on a block (R411, R413 to R415). A block of a co-resident launch for which no slot is left drains. -/
def applyMethod (p : Nat) (m : Method) (L : Launch) (b : Block) (s : State) : State :=
  let ids := (fibresOf s b).map (·.id)
  match m with
  | .drain => drainBlock b s
  | .drainOn => drainBlock b (discardAll L b s)
  | .flush => flushWhenCommitted p L b s
  | .save =>
    match freeSlot (partn s p) with
    | none => drainBlock b (discardAll L b s)
    | some k =>
      let s := if (firstDesc L).ordered then discardAll L b s else ids.foldl (fun s id => rollbackFibre id false s) s
      let s := updPart s p fun P => { P with slots := insertNat k P.slots }
      updBlock s b.launch b.stage b.num fun x => { x with preempt := .saving k }

/-- A block that is not in the hands of a pre-emption already. -/
def Block.free (b : Block) : Bool :=
  match b.preempt with
  | .none => true
  | _ => false

/-- A block for which a method can be chosen: not one that is on its way to a save slot, or back from one (R411). -/
def Block.choosable (b : Block) : Bool :=
  match b.preempt with
  | .none | .drain _ _ => true
  | _ => false

/-- Pre-empts one block; for a co-resident launch, every block of it by the method of its first (R411). -/
def preemptBlock (p : Nat) (drainAllowed : Bool) (b : Block) (s : State) : State :=
  match launch? s b.launch with
  | none => s
  | some L =>
    if L.coResident then
      let all := s.blocks.filter fun k => k.launch == b.launch
      let first := (all.find? fun k => k.num == 0 && k.stage == 0).getD b
      let m := chooseMethod s p L first drainAllowed
      (all.filter (·.choosable)).foldl (fun s k => applyMethod p m L k s) s
    else applyMethod p (chooseMethod s p L b drainAllowed) L b s

/-- Issue has stopped for a fibre of a block that is going to a stopping point (R415): its handlers of level 2 go on, and so does
the rest of a quantum that has begun to commit. -/
def stopped (s : State) (f : Fibre) : Bool :=
  match blockOf s f with
  | none => false
  | some b =>
    match b.preempt with
    | .saving _ | .flushing => f.regs.level != 2 && !f.committing
    | _ => false

end Sys2Proof.Machine
end

