-- ==== Sys2Proof/Machine/Regs.lean ====
section
/-! DEFINITION. The device registers (23 R433, R437 to R449, 04 R86, R88, 09 R227, R244, 14 R304, 21 R401 to R416): what a
read returns and what a write does, whether a fibre writes through a Strong page or the host over CXL.io. -/

namespace Sys2Proof.Machine

/-- Keeps the bits of a word that a mask names; reserved bits ignore writes (R11). -/
def keep (mask v : Nat) : Word := BitVec.ofNat 64 v &&& BitVec.ofNat 64 mask

/-- READY (R446). -/
def ready (s : State) : Bool := s.dev.step == 4 || s.dev.step == 6

/-- First ASID and count of a partition (R227). -/
def asidRange (s : State) (p : Nat) : Nat × Nat := if unified s then (0, 8192) else (1024 * p, 1024)
/-- An ASID of a partition's range (R227). -/
def asidIn (s : State) (p asid : Nat) : Bool := (asidRange s p).1 ≤ asid && asid < (asidRange s p).1 + (asidRange s p).2

/-- A register that fixes the device's number was written (R438). -/
def noteConfigured (s : State) : State := { s with dev := { s.dev with configured := true } }

/-- LQCFG*q* (R88, R227, R406). -/
def writeLqcfg (p q : Nat) (v : Word) (s : State) : State :=
  let w := keep 0x1FFF0FF700FF v.toNat
  let asid := wfield w 44 32
  let w := if asidIn s p asid then w else w &&& ~~~0x80#64
  if w.getLsbD 7 ∧ (partn s p).halted.contains asid = true then s
  else updPart s p fun P => { P with lqcfg := if w = 0 then Tab.del P.lqcfg q else Tab.set P.lqcfg q w }

/-- A translation that an invalidation covers (R244). -/
def invCovers (mode asid va : Nat) (e : TlbEntry) : Bool :=
  if mode = 0 then TlbEntry.covers e asid va else if mode = 1 then e.asid == asid else true

/-- Entries dropped from every TLB of a partition (R244). -/
def dropTlbs (p : Nat) (hit : TlbEntry → Bool) (s : State) : State :=
  { s with
    cores := (s.cores.map fun c =>
      (c.1, if partOfCore s c.1 == p then { c.2 with tlb := c.2.tlb.filter fun e => !hit e } else c.2)).filter
        fun c => c.2 != CoreRec.init
    msys := { s.msys with tlb2 := s.msys.tlb2.map fun t =>
      (t.1, if partOfCore s (8 * t.1) == p then t.2.filter fun e => !hit e else t.2) } }

/-- The accesses translated under covered entries are performed, or discarded by a rollback (R244). DEDUCED (assumption 21): the
page of a MODE 0 invalidation is what TLBINV0 holds now, also where it was written after GO. -/
def invDone (s : State) (p : Nat) : Bool :=
  let P := partn s p
  let hit := invCovers (wfield P.tlbinv1 30 29) (wfield P.tlbinv1 12 0) (wfield P.tlbinv0 51 16 * 65536)
  s.fibres.all fun f => partOfCore s f.id.core != p ||
    !((f.unfin.any fun h => h.fills.any hit) || f.moving.any fun m => m.fills.any hit)

/-- TLBINV1 (R244). -/
def writeTlbinv1 (p : Nat) (v : BitVec 32) (s : State) : State :=
  let P := partn s p
  let mode := wfield v 30 29
  if P.tlbinv1.getLsbD 31 ∨ mode = 3 ∨ v.getLsbD 31 = false then s
  else
    let s := updPart s p fun P => { P with tlbinv1 := v &&& 0xE0001FFF }
    dropTlbs p (invCovers mode (wfield v 12 0) (wfield P.tlbinv0 51 16 * 65536)) s

/-- CTXCTL (R406): a halt with cause KILL raised by the placer, or a clear. Both are complete at once (assumption 13). -/
def writeCtxctl (p : Nat) (v : Word) (s : State) : State :=
  let op := wfield v 62 61
  let asid := wfield v 12 0
  if v.getLsbD 63 = false ∨ 2 ≤ op ∨ asidIn s p asid = false then s
  else
    let s := updPart s p fun P => { P with ctxctl := v &&& 0x6000000000001FFF }
    if op = 0 then haltContext p asid .kill ⟨.placer, 0, 0, 0, 0, true⟩ s
    else updPart s p fun P => { P with halted := P.halted.filter (· != asid) }

/-- The blocks that a request names (R412). -/
def requested (s : State) (p mode target : Nat) : List Block :=
  s.blocks.filter fun b => partOfCore s b.core == p &&
    match launch? s b.launch with
    | none => false
    | some L => if mode = 0 then b.core == target else if mode = 1 then L.asid == target else L.vf == target

/-- One block for each that a request has a method chosen for: of a co-resident launch, which follows one choice, the first (R411). -/
def firstChoices (s : State) : List Block → List Word → List Block
  | [], _ => []
  | b :: r, seen =>
    if ((launch? s b.launch).map (·.coResident)).getD false then
      (if seen.contains b.launch then firstChoices s r seen else b :: firstChoices s r (b.launch :: seen))
    else b :: firstChoices s r seen

/-- PREEMPTREQ (R411, R412). A block that is coming back from a save slot is chosen for once it is back. -/
def writePreemptreq (p : Nat) (v : BitVec 32) (s : State) : State :=
  let mode := wfield v 30 29
  if (partn s p).preemptreq.getLsbD 31 ∨ v.getLsbD 31 = false ∨ mode = 3 then s
  else
    let bs := requested s p mode (wfield v 12 0)
    let ids := bs.map fun b => (b.launch, b.stage, b.num)
    let s := updPart s p fun P => { P with
      preemptreq := if bs = [] then v &&& 0x60001FFF else v &&& 0xE0001FFF, reqBlocks := ids }
    (firstChoices s bs []).foldl (fun s b => match blockOn s b.launch b.stage b.core with
      | some k => if k.choosable then preemptBlock p true k s else s
      | none => s) s

/-- A level-2 handler address: a write with a nonzero reserved bit is ignored (R401). -/
def handlerOk (v : Word) : Bool := wfield v 63 52 == 0 && wfield v 4 0 == 0

/-- EVRINGCFG*r* (R433). -/
def writeRingCfg (p r : Nat) (v : Word) (s : State) : State :=
  let w := keep 0xFFFFFFFFFFF01 v.toNat
  let base := wfield w 51 12 * 4096
  let ok := wfield w 11 8 ≤ 10 && inMailbox s p base
  let R := ringOf (partn s p) r
  noteConfigured (setRing s p r { R with cfg := if ok then w else w &&& ~~~1#64, prod := 0, cons := 0, count := 0, oldest := 0 })

/-- A counter of R404: a write of 0 clears it. -/
def writeCounter (p : Nat) (last : Bool) (v : Word) (s : State) : State :=
  if v = 0 then updPart s p fun P => if last then { P with errlast := 0 } else { P with errtrans := 0 } else s

/-- A read of a partition's register page (R437). -/
def regRead (s : State) (p off : Nat) : Word :=
  let P := partn s p
  if off < 0x2000 then Tab.getD P.lqcfg (off / 8) 0
  else if off < 0x2040 then (Tab.getD P.vfslice ((off - 0x2000) / 8) 0).setWidth 64
  else if off = 0x2040 then P.asidbase
  else if off = 0x2048 then BitVec.ofNat 64 ((asidRange s p).1 + (asidRange s p).2 * 2 ^ 16)
  else if off = 0x2050 then P.tlbinv0
  else if off = 0x2058 then P.tlbinv1.setWidth 64
  else if off = 0x2060 then P.pktdir
  else if off = 0x2068 then P.systrap
  else if off = 0x2070 then P.savehdlr
  else if off = 0x2078 then P.resthdlr
  else if off = 0x2080 then P.errtrans
  else if off = 0x2088 then P.errlast
  else if off = 0x2090 then P.ctxctl
  else if off = 0x2098 then P.stopring
  else if off = 0x20A0 then P.stopcount
  else if off = 0x20A8 then P.preemptcfg.setWidth 64
  else if off = 0x20B0 then P.preemptreq.setWidth 64
  else if off = 0x20B8 then P.savepool
  else if off = 0x20C0 then BitVec.ofNat 64 (mailboxBase s p)
  else if off = 0x20C8 then P.evlost
  else if off = 0x20D0 then P.ccasid
  else if 0x10000 ≤ off ∧ off < 0x12000 then
    let R := ringOf P ((off - 0x10000) / 32)
    let k := off % 32 / 8
    if k = 0 then R.cfg else if k = 1 then R.int.setWidth 64 else if k = 2 then R.prod.setWidth 64 else R.cons.setWidth 64
  else 0

/-- A write of a partition's register page (R437). -/
def regWrite (p off : Nat) (v : Word) (s : State) : State :=
  let lo := v.setWidth 32
  if off < 0x2000 then writeLqcfg p (off / 8) v s
  else if off < 0x2040 then updPart s p fun P => { P with vfslice := Tab.set P.vfslice ((off - 0x2000) / 8) (lo &&& 0xFFFF) }
  else if off = 0x2040 then noteConfigured (updPart s p fun P => { P with asidbase := v })
  else if off = 0x2050 then updPart s p fun P => { P with tlbinv0 := keep 0xFFFFFFFFF0000 v.toNat }
  else if off = 0x2058 then writeTlbinv1 p lo s
  else if off = 0x2060 then noteConfigured (updPart s p fun P => { P with pktdir := keep 0xFFFFFFFF80001 v.toNat })
  else if off = 0x2068 then if handlerOk v then updPart s p fun P => { P with systrap := v } else s
  else if off = 0x2070 then if handlerOk v then updPart s p fun P => { P with savehdlr := v } else s
  else if off = 0x2078 then if handlerOk v then updPart s p fun P => { P with resthdlr := v } else s
  else if off = 0x2080 then writeCounter p false v s
  else if off = 0x2088 then writeCounter p true v s
  else if off = 0x2090 then writeCtxctl p v s
  else if off = 0x2098 then noteConfigured (updPart s p fun P => { P with stopring := keep 0xFFFFFFFFFFF01 v.toNat })
  else if off = 0x20A8 then updPart s p fun P => { P with preemptcfg := lo }
  else if off = 0x20B0 then writePreemptreq p lo s
  else if off = 0x20B8 then updPart s p fun P => { P with savepool := keep 0xFFFFFFFFFFE00001 v.toNat }
  else if off = 0x20D0 then updPart s p fun P => { P with ccasid := keep 0x1FFF v.toNat }
  else if 0x10000 ≤ off ∧ off < 0x12000 then
    let r := (off - 0x10000) / 32
    let k := off % 32 / 8
    let R := ringOf (partn s p) r
    if k = 0 then writeRingCfg p r v s
    else if k = 1 then setRing s p r { R with int := lo }
    else if k = 3 then setRing s p r { R with cons := lo }
    else s
  else s

end Sys2Proof.Machine
end

