-- ==== Sys2Proof/Machine/Launch.lean ====
section
/-! DEFINITION. Launch records and queues (04 R79 to R88) and the stage queues of `enq` and `deq` (R102, R103, R106). -/

namespace Sys2Proof.Machine

/-! ## Launch records -/

/-- The rejection codes of R85. -/
inductive Reject where
  | align | qdisabled | record | qfull
  deriving DecidableEq, Repr

/-- Codes of R85. -/
def Reject.code : Reject → Word
  | .align => 1 | .qdisabled => 2 | .record => 3 | .qfull => 4

/-- CTL of a record (R79, R80). -/
def recCtl (r : Nat) : Word := BitVec.ofNat 64 (field r 191 128)
/-- QUEUE (R80). -/
def recQueue (r : Nat) : Nat := field r 137 128
/-- STAGES (R80). -/
def recStages (r : Nat) : Nat := field r 146 144
/-- GX × GY × GZ (R79, R81). -/
def recBlocks (r : Nat) : Nat := field r 319 288 * field r 351 320 * field r 383 352

/-- The clusters of a partition as a mask (R79, R14). -/
def clusterMask (s : State) (p : Nat) : Nat := if unified s then 0xFFFFFFFF else 0xF * 2 ^ (4 * p)

/-- The conditions of RECORD (R85). -/
def recordBad (s : State) (p r : Nat) : Bool :=
  let n := recStages r
  let kdesc := field r 63 0
  let tab := field r 447 384
  let cl := field r 287 256
  field r 255 192 != 0 || field r 127 64 != 0 || field r 175 149 != 0 || field r 143 138 != 0 || n == 0 || 4 < n ||
    (n == 1 && (kdesc == 0 || kdesc % 64 != 0 || tab != 0 || recBlocks r == 0 || 2 ^ 32 ≤ recBlocks r)) ||
    (2 ≤ n && (kdesc != 0 || field r 383 288 != 0 || tab == 0 || tab % 64 != 0)) ||
    (BitVec.ofNat 32 cl &&& ~~~(BitVec.ofNat 32 (clusterMask s p))) != 0

/-- Launches of a queue that have not completed (R84). -/
def queueLoad (s : State) (p q : Nat) : Nat := (s.launches.filter fun L => L.part == p && L.queue == q).length

/-- The judgement of a record (R85): `from_` is the issuing fibre's VF and ASID, `none` for the control core (R86). The
lowest code is reported. -/
def judge (s : State) (p : Nat) (from_ : Option (Nat × Nat)) (rec r : Nat) : Option Reject :=
  let q := recQueue r
  let cfg := Tab.getD (partn s p).lqcfg q 0
  let differs := match from_ with
    | some (vf, asid) => wfield cfg 18 16 != vf || wfield cfg 44 32 != asid
    | none => false
  if rec % 128 ≠ 0 then some .align
  else if cfg.getLsbD 7 = false ∨ differs = true then some .qdisabled
  else if recordBad s p r then some .record
  else if 64 ≤ queueLoad s p q then some .qfull
  else none

/-- A stage that holds nothing yet. -/
def Stage.init (kdesc : Word) (blocks : Nat) : Stage :=
  { kdesc := kdesc, first := none, qbuf := 0, qpages := [], cap := 0, blocks := blocks, entb := 0, maxb := 0, minb := 0
    hi := 0, lo := 0, next := 0, exited := [], lastCore := none, lifetimes := 0, enqn := 0, deqn := 0, closed := false
    tickets := [], again := [], admits := [], taken := [] }

/-- Accepts or rejects a record and gives the status word (R84). -/
def acceptLaunch (p : Nat) (from_ : Option (Nat × Nat)) (rec r : Nat) (s : State) : State × Word :=
  match judge s p from_ rec r with
  | some e => (s, BitVec.ofNat 64 (2 ^ 63) ||| e.code)
  | none =>
    let q := recQueue r
    let P := partn s p
    let cfg := Tab.getD P.lqcfg q 0
    let seq := Tab.getD P.qseq q 0 + 1
    let id := BitVec.ofNat 64 (p * 2 ^ 60 + q * 2 ^ 50 + seq % 2 ^ 50)
    let L : Launch :=
      { id := id, part := p, queue := q, asid := wfield cfg 44 32, vf := wfield cfg 18 16, accept := P.accepts
        args := Vector.ofFn fun j => BitVec.ofNat 64 (field r (575 + 64 * j.val) (512 + 64 * j.val))
        tag := BitVec.ofNat 64 (field r 511 448), stagetab := BitVec.ofNat 64 (field r 447 384)
        clusters := BitVec.ofNat 32 (field r 287 256), ctl := recCtl r, phase := .queued, seen := s.msys.hncNum
        stages := if recStages r = 1 then [Stage.init (BitVec.ofNat 64 (field r 63 0)) (recBlocks r)] else []
        nfault := 0, waiting := none, held := [], bars := [], saved := [], round := 1, placed := false }
    let s := { s with launches := s.launches ++ [L] }
    (updPart s p fun P => { P with qseq := Tab.set P.qseq q seq, accepts := P.accepts + 1 }, id)

/-! ## Stage queues -/

/-- An entry of an ordered launch's queue has been taken by the block it belongs to, or never will be: the block has exited
(R106). -/
def entryTaken (s : State) (L : Launch) (stage n : Nat) : Bool :=
  match L.stages[stage + 1]? with
  | none => true
  | some h =>
    h.entb == 0 || h.exited.contains (n / h.entb) || (h.taken.any fun t => t.1 == n / h.entb && decide (n % h.entb < t.2)) ||
      ((s.blocks.filter fun b => b.launch == L.id) ++ L.saved.map (·.blk)).any fun b =>
        b.stage == stage + 1 && b.num == n / h.entb && decide (n % h.entb < b.deqCount)

/-- A queue has no room: it holds CAP entries, or in an ordered launch the entry in the next one's place is still to be taken
(R103, R106). -/
def queueFull (s : State) (launch : Word) (stage : Nat) (g : Stage) : Bool :=
  g.occupancy == g.cap || (decide (g.cap ≤ g.enqn) && match launch? s launch with
    | some L => !entryTaken s L stage (g.enqn - g.cap)
    | none => false)

/-- `enq` on the output queue of a stage (R102, R103): the status, FULL changing nothing. -/
def doEnq (launch : Word) (stage : Nat) (entry : List Byte) (s : State) : State × Word :=
  match stage? s launch stage with
  | none => (s, 1)
  | some g =>
    if queueFull s launch stage g then (s, 1)
    else
      let off := 64 + 64 * (g.enqn % g.cap)
      let s := writeDev none none (contextOf s launch) (queueAddr g off) (entry.take 64) s
      let g' := { g with enqn := g.enqn + 1 }
      (writeControlLine launch g' (updStage s launch stage fun _ => g'), 0)

/-- The bytes of an entry of a queue. -/
def entryBytes (s : State) (g : Stage) (n : Nat) : List Byte := homeBytes s.msys (queueAddr g (64 + 64 * (n % g.cap))) 64

/-- What a `deq` of a block finds (R103, R104; R106 in an ordered launch): the position of the entry that it takes, or the
status that it answers without one. -/
def deqFinds (L : Launch) (q g : Stage) (b : Block) : Nat ⊕ Nat :=
  if (firstDesc L).ordered then
    let n := b.num * g.entb + b.deqCount
    if b.deqCount < g.entb ∧ n < q.enqn then .inl n
    else if b.deqCount = g.entb ∨ q.closed = true then .inr 2
    else .inr 1
  else if b.withdrawn then .inr 3
  else if q.occupancy = 0 then .inr (if q.closed then 2 else 1)
  else .inl q.deqn

/-- The launch, input queue and stage of a block that executes `deq`. -/
def deqOf (s : State) (launch : Word) (stage block : Nat) : Option (Launch × Stage × Stage × Block) :=
  match launch? s launch, s.blocks.find? fun b => b.launch == launch && b.stage == stage && b.num == block with
  | some L, some b =>
    match inputOf L stage, L.stages[stage]? with
    | some q, some g => some (L, q, g, b)
    | _, _ => none
  | _, _ => none

/-- `deq` by a block of a stage (R103): the status and the entry. -/
def doDeq (launch : Word) (stage block : Nat) (s : State) : State × Nat × List Byte :=
  match deqOf s launch stage block with
  | none => (s, 2, [])
  | some (L, q, g, b) =>
    match deqFinds L q g b with
    | .inr status => (s, status, [])
    | .inl n =>
      let q' := { q with deqn := q.deqn + 1 }
      let t := updStage s launch (stage - 1) fun _ => q'
      let t := updBlock t launch stage block fun b => { b with deqCount := b.deqCount + 1 }
      (finishLaunch launch (writeControlLine launch q' t), 0, entryBytes s q n)

/-- The first poisoned byte of the entry that a `deq` takes (R403). -/
def deqPoison (s : State) (launch : Word) (stage block : Nat) : Option Nat :=
  match deqOf s launch stage block with
  | none => none
  | some (L, q, g, b) =>
    match deqFinds L q g b with
    | .inr _ => none
    | .inl n => ((List.range 64).map (queueAddr q (64 + 64 * (n % q.cap)) + ·)).find? fun a => isPoison s.msys a

/-- What `deq` writes to its register (R180). -/
def deqReg (status : Nat) (entry : List Byte) : VReg :=
  mkV fun l => if l < 16 then (if status = 0 then BitVec.ofNat 32 (natAt entry (4 * l) 4) else 0)
    else if l = 16 then BitVec.ofNat 32 status else 0

end Sys2Proof.Machine
end

