-- ==== Sys2Proof/Machine/Copy.lean ====
section
/-! DEFINITION. The copy engine as a fibre meets it: release (10 R256 to R260), shadows and `publish` (R260, R264), and
what a fence waits for (R271). The engine's own steps are in Engine.lean. -/

namespace Sys2Proof.Machine

/-- Source pointer of row `r` (R257). -/
def CopyCmd.srcRow (c : CopyCmd) (r : Nat) : Word :=
  match c.index with
  | some g => ptrAdd c.src (g.getD r 0 * c.sstride)
  | none => ptrAdd c.src (r * c.sstride)
/-- Destination pointer of row `r` (R257). -/
def CopyCmd.dstRow (c : CopyCmd) (r : Nat) : Word := ptrAdd c.dst (r * c.dstride)

/-- Who accesses, for a copy. -/
def copyCtx (s : State) (c : CopyCmd) : Ctx :=
  ⟨c.fibre.core, partOfCore s c.fibre.core, ((launch? s c.launch).map (·.asid)).getD 0, c.launch, c.stage, []⟩

/-- Frames of 64 KiB that `n` bytes from a pointer of space 0 or 3 touch, as far as they translate. -/
def framesOf (s : State) (x : Ctx) (p : Word) (n : Nat) : List Nat :=
  if ptrSpace p = 1 ∨ ptrSpace p = 2 then []
  else ((pieces (ptrAddr p) n).map fun q => translate s x.core x.part x.asid q.2.2).filterMap fun t => match t with
    | .leaf l => some (l.pa (ptrAddr p) / 65536)
    | _ => none

/-- The destination frames of a copy into space 0. -/
def copyFrames (s : State) (c : CopyCmd) : List Nat :=
  (List.range c.rows).flatMap fun r =>
    let p := c.dstRow r
    let lo := ptrAddr p
    ((List.range ((lo + c.rowBytes - 1) / 65536 - lo / 65536 + 1)).flatMap fun i =>
      framesOf s (copyCtx s c) (ptrSet p (if i = 0 then lo else (lo / 65536 + i) * 65536)) 1)

/-- A copy that reads or writes foreign memory (R241, R271). -/
def copyForeign (s : State) (c : CopyCmd) : Bool :=
  let x := copyCtx s c
  let src := (List.range c.rows).flatMap fun r => framesOf s x (c.srcRow r) c.rowBytes
  (src ++ copyFrames s c).any fun g => foreignTo s x.part (g * 65536)

/-- The fibre's released copies that have neither landed nor been abandoned. -/
def openCopies (s : State) (id : FibreId) : List CopyCmd :=
  (coreOf s id.core).copies.filter fun c => c.fibre == id && !c.landed

/-- Releases a command to the core's engine (R259); a copy with BAR = 1 registers on its barrier (R176). -/
def releaseCopy (c : CopyCmd) (s : State) : State :=
  match fibre? s c.fibre with
  | none => s
  | some f =>
    let id := c.id
    let (bar, s) := match c.bar with
      | none => (none, s)
      | some (num, _) =>
        let b := barOf s f .block num
        let ph := max (b.done + 1) (arrivedAt f .block num + 1)
        (some (num, ph), setBar s f { b with copies := b.copies ++ [(ph, id)] })
    let r := coreOf s c.fibre.core
    setCore s c.fibre.core { r with copies := r.copies ++ [{ c with bar := bar }] }

/-- The copies of a fibre that hold a `publish` of frames back (R264). -/
def publishWaits (s : State) (id : FibreId) (frames : List Nat) : Bool :=
  (openCopies s id).any fun c => c.table.isNone && ptrSpace c.dst == 0 && (copyFrames s c).any fun g => frames.contains g

/-- The shadow bytes that a `publish` makes visible, by address the one written last (R259, R264). -/
def publishBytes (s : State) (frames : List Nat) : List Shadow :=
  let bytes := (s.msys.shadows.filter fun b => b.landed && frames.contains (b.pa / 65536) && ownDev s b.pa).mergeSort fun a b => a.ord ≤ b.ord
  bytes.foldl (fun l b => l.filter (fun x => x.pa != b.pa) ++ [b]) []

/-- A `publish` would write a page that is SEALED or DRAINING: it waits until the page is OPEN (R235, R355, assumption 52). -/
def publishSealed (s : State) (frames : List Nat) : Bool :=
  (publishBytes s frames).any fun b => sealState s b.pa != .opened

/-- One `publish` (R264, R353): every landed shadow byte of the frames replaces the visible byte, the later write
standing, and the shadow empties. Poisoned bytes arrive poisoned; a line written whole loses what was poisoned (R403). -/
def doPublish (who : Option FibreId) (core : Option Nat) (ctx : Option (Nat × Nat)) (frames : List Nat) (s : State) : State :=
  let mine := fun (b : Shadow) => b.landed && frames.contains (b.pa / 65536)
  let bytes := publishBytes s frames
  let whole := fun (l : Nat) => decide ((bytes.filter fun (b : Shadow) => b.pa / 64 == l).length = 64)
  let s := if bytes = [] then s else logHnc who (bytes.map fun (b : Shadow) => b.pa) s
  let s := bytes.foldl (fun s (b : Shadow) => writeDev who core ctx b.pa [b.byte] s) s
  let s := { s with msys := { s.msys with
    poison := (bytes.filter fun (b : Shadow) => b.bad).foldl (fun p (b : Shadow) => addNew p b.pa)
      (if s.msys.poison = [] then [] else s.msys.poison.filter fun a => !whole (a / 64)) } }
  let s := { s with msys := { s.msys with shadows := s.msys.shadows.filter fun b => !mine b } }
  let far := frames.filter fun g => !ownDev s (g * 65536)
  let from_ := match core with
    | some c => incarnation s .core c
    | none => incarnation s .link 0
  { s with outbox := s.outbox ++ far.map fun g => .remote from_ (.publish (g * 65536)) }

end Sys2Proof.Machine
end

