-- ==== Sys2Proof/Machine/MatrixCore.lean ====
section
/-! DEFINITION. What the matrix unit computes (15 R313 to R324, R336, R338) from latched operands and tiles. -/

namespace Sys2Proof.Machine

/-! ## Tiles and views (R313) -/

/-- A tile of zeros (R314). -/
def Tile.zero : Tile := Vector.ofFn fun _ => Vector.ofFn fun _ => 0
/-- Word `c` of row `r` of the image. -/
def tileWord (t : Tile) (r c : Nat) : Elem := (t.getD r (Vector.ofFn fun _ => 0)).getD c 0
/-- A tile from its words. -/
def mkTile (g : Nat → Nat → Elem) : Tile := Vector.ofFn fun r => Vector.ofFn fun c => g r.val c.val
/-- Element of the FP64 view. -/
def tile64 (t : Tile) (r c : Nat) : BitVec 64 := tileWord t r (2 * c + 1) ++ tileWord t r (2 * c)
/-- A tile from an FP64 view over an image: rows 32 to 63 stay (R313). -/
def mkTile64 (old : Tile) (g : Nat → Nat → BitVec 64) : Tile :=
  mkTile fun r c =>
    if 32 ≤ r then tileWord old r c
    else if c % 2 = 0 then (g r (c / 2)).setWidth 32 else (g r (c / 2)).extractLsb' 32 32
/-- The 256 bytes of a row. -/
def tileRow (t : Tile) (r : Nat) : List Byte := (List.range 64).flatMap fun c => leBytes 4 (tileWord t r c).toNat
/-- A tile with a row's bytes replaced. -/
def setTileRow (t : Tile) (r : Nat) (bs : List Byte) : Tile :=
  mkTile fun q c => if q = r then BitVec.ofNat 32 (natAt bs (4 * c) 4) else tileWord t q c

/-! ## Exact sums (R323) -/

/-- A product of two values, exact. -/
def exactProduct (a b : FV) : FV :=
  match a, b with
  | .nan _ _, _ | _, .nan _ _ => .nan false false
  | .inf s, .inf t => .inf (s != t)
  | .inf s, .fin t m _ | .fin t m _, .inf s => if m = 0 then .nan false false else .inf (s != t)
  | .fin s m e, .fin t n k => .fin (s != t) (m * n) (e + k)

/-- Two exact integers times powers of two, added. -/
def addScaled (a b : Int × Int) : Int × Int :=
  if a.2 ≤ b.2 then (a.1 + b.1 * (2 ^ (b.2 - a.2).toNat : Nat), a.2) else (a.1 * (2 ^ (a.2 - b.2).toNat : Nat) + b.1, b.2)

/-- The chunk sum S (R323). -/
def chunkSum (ps : List FV) : FV :=
  let nan := ps.any fun p => match p with
    | .nan _ _ => true
    | _ => false
  let inf := fun (neg : Bool) => ps.any fun p => match p with
    | .inf s => s == neg
    | _ => false
  if nan || (inf true && inf false) then .nan false false
  else if inf true then .inf true
  else if inf false then .inf false
  else
    let t : Int × Int := ps.foldl (fun acc p => match p with
      | .fin s m e => addScaled acc (if s then -(m : Int) else (m : Int), e)
      | _ => acc) (0, 0)
    if t.1 = 0 then .fin false 0 0 else .fin (decide (t.1 < 0)) t.1.natAbs t.2

/-! ## Shapes (R315) -/

/-- Rows and columns M = N (R315). -/
def MatForm.size : MatForm → Nat
  | .mma .f64 _ | .mmac => 32
  | _ => 64
/-- K of one command (R315). -/
def MatForm.k : MatForm → Nat
  | .mma f _ | .mmas f _ => match f with
    | .e2m1 => 64
    | .bf16 | .f16 => 16
    | .f32 => 4
    | .f64 => 8
    | _ => 32
  | .mmap p => 32 * (8 / p)
  | .mmac => 4
/-- Bytes of an A row (R315). -/
def MatForm.rowBytes : MatForm → Nat
  | .mma .f32 _ => 16
  | .mma .f64 _ => 64
  | .mma .. | .mmas .. | .mmac => 32
  | .mmap p => p * (32 * (8 / p) / 8)
/-- B registers (R315). -/
def MatForm.bRegs : MatForm → Nat
  | .mma .f32 _ | .mmac => 8
  | .mma .. | .mmas .. => 16
  | .mmap p => 32 * (8 / p) / 2
/-- Chunks, or single steps, of a command (R315). -/
def MatForm.chunks : MatForm → Nat
  | .mma .e2m1 _ | .mmas .e2m1 _ => 2
  | .mma .f32 _ | .mmac => 4
  | .mma .f64 _ => 8
  | .mmap p => 8 / p
  | _ => 1
/-- Single steps (R321, R322). -/
def MatForm.single : MatForm → Bool
  | .mma .f32 _ | .mma .f64 _ | .mmac => true
  | _ => false

/-! ## Operands (R316 to R319) -/

/-- Element `i` of `w` bits of a byte string (R53, R316, R318). -/
def packedElem (w : Nat) (bs : List Byte) (i : Nat) : Nat :=
  if w = 4 then natAt bs (i / 2) 1 / 16 ^ (i % 2) % 16 else natAt bs (i * (w / 8)) (w / 8)

/-- Element `e` of a row of `p` planes, of `n` bytes each (R317). -/
def planeElem (p n : Nat) (row : List Byte) (e : Nat) : Int :=
  let bits := (List.range p).foldl (fun acc i => 2 * acc + natAt row (n * i + e / 8) 1 / 2 ^ (e % 8) % 2) 0
  sext p bits * (2 ^ (8 - p) : Nat)

/-- An integer as a value. -/
def intV (x : Int) : FV := .fin (decide (x < 0)) x.natAbs 0

/-- Element (i, k) of A: `row` is the gathered row. -/
def aElem (c : MatCmd) (i k : Nat) (row : List Byte) : FV :=
  match c.form with
  | .mma f _ => readFmt f false (BitVec.ofNat 64 (packedElem (fpar f).w row k))
  | .mmas f _ =>
    let g := (MatForm.k c.form) / 32
    let x := packedElem (fpar f).w row k
    readF .f32 false (BitVec.ofNat 64 (scaleProduct f x (natAt c.scales (i * g + k / 32) 1)).bits)
  | .mmap p => intV (planeElem p (32 * (8 / p) / 8) row k)
  | .mmac => .nan false false

/-- Element (k, n) of B. -/
def bElem (c : MatCmd) (k n : Nat) : FV :=
  let K := MatForm.k c.form
  match c.form with
  | .mma _ f => readFmt f false (BitVec.ofNat 64 (packedElem (fpar f).w c.bfrag (n * K + k)))
  | .mmas _ f =>
    let g := K / 32
    let x := packedElem (fpar f).w c.bfrag (n * K + k)
    readF .f32 false (BitVec.ofNat 64 (scaleProduct f x (natAt c.scales (128 + n * g + k / 32) 1)).bits)
  | .mmap _ => intV (sext 8 (natAt c.bfrag (n * K + k) 1))
  | .mmac => .nan false false

/-! ## Accumulation (R320 to R322) -/

/-- The FP32 or FP64 value of bits. -/
def valueOf (f : Fmt) (x : Nat) : FV := readF f false (BitVec.ofNat 64 x)

/-- One element of a chunked form (R320), as FP32 bits. -/
def chunked (c : MatCmd) (acc0 i j : Nat) (row : List Byte) : Nat :=
  let K := MatForm.k c.form
  let step := min 32 K
  (List.range (MatForm.chunks c.form)).foldl (fun acc t =>
    let ps := (List.range step).map fun k => exactProduct (aElem c i (step * t + k) row) (bElem c (step * t + k) j)
    (faddV .f32 .rn false (valueOf .f32 acc) (chunkSum ps)).bits) acc0

/-- One element of a single-step form (R321). -/
def fusedSum (c : MatCmd) (f : Fmt) (acc0 i j : Nat) (row : List Byte) : Nat :=
  (List.range (MatForm.k c.form)).foldl (fun acc k =>
    (ffmaV f .rn false (aElem c i k row) (bElem c k j) (valueOf f acc)).bits) acc0

/-- One element of `mmac` (R322): real and imaginary bits. -/
def complexSum (c : MatCmd) (re0 im0 j : Nat) (row : List Byte) : Nat × Nat :=
  (List.range 4).foldl (fun (acc : Nat × Nat) k =>
    let v := fun (bs : List Byte) (at_ : Nat) => valueOf .f32 (natAt bs at_ 4)
    let ar := v row (8 * k)
    let ai := v row (8 * k + 4)
    let br := v c.bfrag (8 * (j * 4 + k))
    let bi := v c.bfrag (8 * (j * 4 + k) + 4)
    let fma := fun (x y : FV) (z : Nat) => (ffmaV .f32 .rn false x y (valueOf .f32 z)).bits
    (fma ai.negate bi (fma ar br acc.1), fma ai br (fma ar bi acc.2))) (re0, im0)

/-- The tile D of a command from tiles C and D and its gathered rows (R336). -/
def matResult (c : MatCmd) (tc td : Tile) (rows : List (List Byte)) : Tile :=
  let row := fun i => rows.getD i []
  match c.form with
  | .mma .f64 _ =>
    mkTile64 td fun i j =>
      BitVec.ofNat 64 (fusedSum c .f64 (if c.cz then 0 else (tile64 tc i j).toNat) i j (row i))
  | .mma .f32 _ =>
    mkTile fun i j => BitVec.ofNat 32 (fusedSum c .f32 (if c.cz then 0 else (tileWord tc i j).toNat) i j (row i))
  | .mmac =>
    mkTile64 td fun i j =>
      let p := complexSum c (if c.cz then 0 else (tileWord tc i (2 * j)).toNat)
        (if c.cz then 0 else (tileWord tc i (2 * j + 1)).toNat) j (row i)
      BitVec.ofNat 64 (p.2 * 2 ^ 32 + p.1)
  | _ =>
    mkTile fun i j => BitVec.ofNat 32 (chunked c (if c.cz then 0 else (tileWord tc i j).toNat) i j (row i))

/-! ## Accumulator instructions (R338) -/

/-- `acscl`. -/
def acsclTile (wide : Bool) (tc td : Tile) (s : BitVec 64) : Tile :=
  if wide then
    mkTile64 td fun r c => BitVec.ofNat 64 (fmulV .f64 .rn false (valueOf .f64 (tile64 tc r c).toNat) (readF .f64 false s)).bits
  else
    let k := readF .f32 false (BitVec.ofNat 64 (s.toNat % 2 ^ 32))
    mkTile fun r c => BitVec.ofNat 32 (fmulV .f32 .rn false (valueOf .f32 (tileWord tc r c).toNat) k).bits

/-- `accvt`: `narrow` is FP64 to FP32. -/
def accvtTile (narrow : Bool) (tc td : Tile) : Tile :=
  if narrow then
    mkTile fun r c =>
      if r < 32 ∧ c < 32 then BitVec.ofNat 32 (convert .f64 .f32 .rn 0 false false (tile64 tc r c)).1.toNat else 0
  else mkTile64 td fun r c => (convert .f32 .f64 .rn 0 false false ((tileWord tc r c).setWidth 64)).1

end Sys2Proof.Machine
end

