-- ==== Sys2Proof/Machine/Operands.lean ====
section
/-! DEFINITION. Operand fields and destinations: what they name, when they are refused, and what they read and write
(03 R54, 05 R118, R127, R129, R130, 06 R141, R142, 07 R162). A lane reads 64 bits: a pair whole, an element of 32 bits
zero-extended, a scalar whole. -/

namespace Sys2Proof.Machine

/-! ## Crossbar patterns (R129) -/

/-- The lane a pattern reads for lane `l`. -/
def patLane (kind : BitVec 3) (k l : Nat) : Nat :=
  if kind = 1 then (l + k) % 32
  else if kind = 2 then k % 32
  else if kind = 3 then (BitVec.ofNat 5 l ^^^ BitVec.ofNat 5 k).toNat
  else if kind = 4 then (BitVec.ofNat 5 l ^^^ BitVec.ofNat 5 (2 ^ k - 1)).toNat
  else l

/-- The byte or nibble that kinds 5 and 6 select, extended. -/
def patPart (kind : BitVec 3) (k : Nat) (e : Elem) : Elem :=
  if kind = 5 then
    let b := e.toNat / 256 ^ (k % 4) % 256
    if 4 ≤ k then BitVec.ofInt 32 (sext 8 b) else BitVec.ofNat 32 b
  else if kind = 6 then
    let b := e.toNat / 16 ^ (k % 8) % 16
    if 8 ≤ k then BitVec.ofInt 32 (sext 4 b) else BitVec.ofNat 32 b
  else e

/-- A pattern within its limits (R129, R130). -/
def patOk (o : Opnd) (wide : Bool) : Bool :=
  let k := o.k.toNat
  if o.kind = 0 then k == 0
  else if o.kind = 4 then k ≤ 5
  else if o.kind = 5 then !wide && k ≤ 7
  else if o.kind = 6 then !wide && k ≤ 15
  else o.kind != 7

/-! ## Source operands -/

/-- A vector source field that is refused (R54, R118, R130). -/
def vecBad (s : State) (f : Fibre) (wide : Bool) (o : Opnd) : Bool :=
  let n := o.num.toNat
  if !o.cls then !f.present n || (wide && n % 2 == 1) || !patOk o wide
  else if n < 32 then o.kind != 0 || o.k != 0
  else if 64 ≤ n ∧ n < 96 then
    match windowReg s f (n - 64) with
    | none => true
    | some (_, r) => (wide && (r % 2 == 1 || (windowReg s f (n - 63)).isNone)) || !patOk o wide
  else true

/-- A scalar source field that is refused (R162). -/
def scaBad (o : Opnd) : Bool := !(o.cls && o.num.toNat < 32 && o.kind == 0 && o.k == 0)
/-- A predicate source field that is refused (R162). -/
def predBad (o : Opnd) : Bool := !(!o.cls && o.num.toNat < 8 && o.kind == 0 && o.k == 0)

/-- The registers a vector source names (R148, R150). -/
def vecNames (wide : Bool) (o : Opnd) : List RegId :=
  let n := o.num.toNat
  if !o.cls then (if wide then [.v n, .v (n + 1)] else [.v n])
  else if n < 32 then [.s n]
  else (if wide then [.w (n - 64), .w (n - 63)] else [.w (n - 64)])
/-- The register a scalar source names. -/
def scaNames (o : Opnd) : List RegId := [.s o.num.toNat]
/-- The register a predicate source names; `p0` has no pending bit. -/
def predNames (o : Opnd) : List RegId := if o.num = 0 then [] else [.p o.num.toNat]

/-- The register `n` of a field of class 0, or the window register of class 1; zero where none. A shared register reads as the
latest write left it, before a hold point too (R127, assumption 59). -/
def fieldReg (s : State) (f : Fibre) (o : Opnd) (plus : Nat) : VReg :=
  let n := o.num.toNat
  if !o.cls then f.vreg (n + plus)
  else
    match windowReg s f (n - 64 + plus) with
    | some (a, r) => a.vreg r
    | none => zeroV

/-- What lane `l` of a vector source reads (R129). -/
def readLane (s : State) (f : Fibre) (wide : Bool) (o : Opnd) (l : Nat) : BitVec 64 :=
  let n := o.num.toNat
  if o.cls && n < 32 then f.sreg n
  else
    let j := patLane o.kind o.k.toNat l
    if wide then (lane (fieldReg s f o 1) j) ++ (lane (fieldReg s f o 0) j)
    else (patPart o.kind o.k.toNat (lane (fieldReg s f o 0) j)).setWidth 64

/-- What a float operand reads: a selected byte or nibble is not sign-extended (R53). -/
def readLaneF (s : State) (f : Fibre) (wide : Bool) (o : Opnd) (l : Nat) : BitVec 64 :=
  let o' : Opnd := if o.kind = 5 then { o with k := o.k &&& 3 } else if o.kind = 6 then { o with k := o.k &&& 7 } else o
  readLane s f wide o' l

/-- What a scalar source reads. -/
def readSca (f : Fibre) (o : Opnd) : Word := f.sreg o.num.toNat
/-- What a predicate source reads. -/
def readPred (f : Fibre) (o : Opnd) : BitVec 32 := f.preg o.num.toNat

/-! ## Destinations (R142) -/

/-- A vector destination that is refused. -/
def vdstBad (s : State) (f : Fibre) (wide wd : Bool) (d : BitVec 7) : Bool :=
  let n := d.toNat
  if !wd then !f.present n || (wide && n % 2 == 1)
  else if 32 ≤ n then true
  else
    match windowReg s f n with
    | none => true
    | some (_, r) => wide && (r % 2 == 1 || (windowReg s f (n + 1)).isNone)

/-- The registers a vector destination names. -/
def vdstNames (wide wd : Bool) (d : BitVec 7) : List RegId :=
  let n := d.toNat
  if wd then (if wide then [.w n, .w (n + 1)] else [.w n]) else (if wide then [.v n, .v (n + 1)] else [.v n])

/-- The writes that put a value in each lane of a mask of a vector destination. -/
def vdstPut (wide wd : Bool) (d : BitVec 7) (mask : BitVec 32) (x : Nat → BitVec 64) : List RegWrite :=
  let n := d.toNat
  let lo := mkV fun l => (x l).setWidth 32
  let hi := mkV fun l => (x l).extractLsb' 32 32
  if wd then (if wide then [.w n mask lo, .w (n + 1) mask hi] else [.w n mask lo])
  else (if wide then [.v n mask lo, .v (n + 1) mask hi] else [.v n mask lo])

/-- The register a predicate destination names. -/
def pdstNames (d : BitVec 3) : List RegId := if d = 0 then [] else [.p d.toNat]

/-! ## Guards and active lanes (R4, R147) -/

/-- The guard mask: lanes where the guard passes. -/
def guardMask (f : Fibre) (h : Hdr) : BitVec 32 := if h.n then ~~~(f.preg h.g.toNat) else f.preg h.g.toNat
/-- The active lanes of a per-lane instruction. -/
def activeMask (f : Fibre) (h : Hdr) : BitVec 32 := f.regs.em &&& guardMask f h
/-- The register a guard names. -/
def guardNames (h : Hdr) : List RegId := if h.g = 0 then [] else [.p h.g.toNat]

end Sys2Proof.Machine
end

