-- ==== Sys2Proof/Machine/Access.lean ====
section
/-! DEFINITION. Performing the operations that fibres send out (`DevOp`): each takes its place in the total order of
device accesses as one event group (10 R250, R269, 17 R343 to R357), in ascending lanes, from operands captured at issue.
One operation answers for all of them, whether it is performed at issue, later (18 R370) or at a commit (R384). -/

namespace Sys2Proof.Machine

/-- What performing gives: the state, the register writes of its result, and whether it was performed; `ok` false leaves
the operation waiting. -/
structure Perf where
  s      : State
  writes : List RegWrite
  ok     : Bool

/-- Performed without a result. -/
def Perf.done (s : State) : Perf := ⟨s, [], true⟩
/-- Waits. -/
def Perf.waits (s : State) : Perf := ⟨s, [], false⟩

/-! ## Results -/

/-- The register writes that deliver loaded or old values, by lane (R184, R253): `vals` pairs a lane (for `ldblk`, lane
+ 32 times the register) with 64 bits. -/
def destWrites (dest : Dest) (vals : List (Nat × BitVec 64)) : List RegWrite :=
  let at_ := fun (l : Nat) => ((vals.find? fun v => v.1 == l).map (·.2)).getD 0
  match dest with
  | .sca n => [.s n (at_ 0)]
  | .vec wd n pair => vdstPut pair wd (BitVec.ofNat 7 n) (mkMask fun l => vals.any fun v => v.1 == l) at_
  | .blk wd n =>
    ((List.range 8).filter fun i => vals.any fun v => v.1 / 32 == i).flatMap fun i =>
      vdstPut false wd (BitVec.ofNat 7 (n + i)) (mkMask fun l => vals.any fun v => v.1 == l + 32 * i) fun l => at_ (l + 32 * i)

/-- A loaded element extended by its type (R184, R253). -/
def extendLoad (size : Nat) (signed : Bool) (x : BitVec 64) : BitVec 64 :=
  if signed then word (sext (8 * size) x.toNat) else BitVec.ofNat 64 (x.toNat % 256 ^ size)

/-! ## Values -/

/-- The device register an element names, if it names one (R437). -/
def regOf (a : LaneAcc) : Option Nat :=
  match a.parts with
  | [p] => match p.loc with
    | .dev pa => if paRegion pa = 0xF then some (pa % 2 ^ 20) else none
    | .scr _ _ => none
  | _ => none

/-- The device address of an access that has one part. -/
def LaneAcc.pa (a : LaneAcc) : Nat :=
  match a.parts with
  | [⟨_, _, .dev pa, _, _⟩] => pa
  | _ => 0

/-- The value an element reads: of a device register or of memory. -/
def loadValue (s : State) (p : Nat) (a : LaneAcc) : BitVec 64 :=
  match regOf a with
  | some off => regRead s p off
  | none => readAcc s a

/-- A register whose 8-byte slot an update or a store names is written; a fibre that waits for the line meets the write (R174). -/
def storeReg (who : Option FibreId) (core : Option Nat) (p off pa : Nat) (v : Word) (s : State) : State :=
  noteWrite who core (none, pa / 64) (regWrite p off v s)

/-- The first poisoned byte that reads of elements meet (R403). -/
def accsPoison (s : State) (accs : List LaneAcc) : Option Nat := accs.findSome? fun a => a.parts.findSome? (partPoison s)

/-- A byte of another device was among those read: the next such byte is another free value (assumption 8). -/
def drawFree (accs : List LaneAcc) (s : State) : State :=
  let far := accs.flatMap fun a => a.parts.filterMap fun q => match q.loc with
    | .dev pa => if ownDev s pa then none else some pa
    | .scr _ _ => none
  if far.isEmpty then s
  else { s with freeCtr := s.freeCtr + 1 }

/-- What reads of elements by a fibre leave behind: in caches, and in what the fibre has seen of Host-noncoherent lines. -/
def noteReads (id : FibreId) (hint : Hint) (lag : Nat) (accs : List LaneAcc) (s : State) : State :=
  seeHnc id lag accs (accs.foldl (fun s a => a.parts.foldl (fun s p => noteRead id.core hint p s) s) s)

/-- Reads of elements by a fibre (R250): the values by lane, or the poisoned byte that they meet. -/
def readElems (id : FibreId) (f : Fibre) (hint : Hint) (accs : List LaneAcc) (s : State) :
    Except Nat (State × List (Nat × BitVec 64)) :=
  match accsPoison s accs with
  | some pa => .error pa
  | none =>
    let lag := if heldMode s f then 0 else s.lag
    let v := staleView id lag accs s
    let vals := accs.map fun a => (a.lane, loadValue v (partOfCore s id.core) a)
    .ok (drawFree accs (noteReads id hint lag accs s), vals)

/-- The first poisoned byte of a coded block that stores merge into (R286, R403). -/
def mergePoison (s : State) (accs : List LaneAcc) : Option Nat := accsPoison s (accs.filter fun a => (codedAcc a).isSome)

/-! ## Accesses by parts (R250, R343) -/

/-- Elements and their operands, cut at lines. -/
def cutWith {α : Type} (accs : List LaneAcc) (xs : List α) : List (LaneAcc × α) :=
  (List.zip accs xs).flatMap fun x => x.1.cut.map fun a => (a, x.2)

/-- Stores with those that name one Coded block together, at the place of the first (R286). -/
def groupBlocks : Nat → List (LaneAcc × Nat) → List (LaneAcc × Nat)
  | 0, l => l
  | _, [] => []
  | n + 1, x :: r =>
    match codedAcc x.1 with
    | none => x :: groupBlocks n r
    | some (pa, _, _) =>
      let same := fun (y : LaneAcc × Nat) => (codedAcc y.1).any fun z => z.1 == pa
      x :: r.filter same ++ groupBlocks n (r.filter fun y => !same y)

/-- An access cut into its events. -/
def DevOp.cutLines : DevOp → DevOp
  | .load accs size sg dest hint => .load (accs.flatMap (·.cut)) size sg dest hint
  | .store accs size data =>
    let c := cutWith accs data
    let c := groupBlocks c.length c
    .store (c.map (·.1)) size (c.map (·.2))
  | .atom accs size o vals dest => let c := cutWith accs vals; .atom (c.map (·.1)) size o (c.map (·.2)) dest
  | .red accs size o vals k => let c := cutWith accs vals; .red (c.map (·.1)) size o (c.map (·.2)) k
  | .cas accs size xchg vals cmps dest =>
    let c := cutWith accs (List.zip vals cmps)
    .cas (c.map (·.1)) size xchg (c.map (·.2.1)) (c.map (·.2.2)) dest
  | .ldacc t wide accs hint => .ldacc t wide (accs.flatMap (·.cut)) hint
  | .stacc t wide accs => .stacc t wide (accs.flatMap (·.cut))
  | o => o

/-- How many of an access's next elements make consecutive events: the stores that name one Coded block (R286), else one. -/
def DevOp.step : DevOp → Nat
  | .store (a :: rest) _ _ =>
    match codedAcc a with
    | some (pa, _, _) => 1 + (rest.takeWhile fun b => (codedAcc b).any fun x => x.1 == pa).length
    | none => 1
  | _ => 1

/-- An access of the first `n` elements, and of the others. -/
def DevOp.splitAt (n : Nat) : DevOp → DevOp × DevOp
  | .load accs size sg dest hint => (.load (accs.take n) size sg dest hint, .load (accs.drop n) size sg dest hint)
  | .store accs size data => (.store (accs.take n) size (data.take n), .store (accs.drop n) size (data.drop n))
  | .atom accs size o vals dest =>
    (.atom (accs.take n) size o (vals.take n) dest, .atom (accs.drop n) size o (vals.drop n) dest)
  | .red accs size o vals k => (.red (accs.take n) size o (vals.take n) k, .red (accs.drop n) size o (vals.drop n) k)
  | .cas accs size xchg vals cmps dest =>
    (.cas (accs.take n) size xchg (vals.take n) (cmps.take n) dest, .cas (accs.drop n) size xchg (vals.drop n) (cmps.drop n) dest)
  | .ldacc t wide accs hint => (.ldacc t wide (accs.take n) hint, .ldacc t wide (accs.drop n) hint)
  | .stacc t wide accs => (.stacc t wide (accs.take n), .stacc t wide (accs.drop n))
  | o => (o, o)

/-! ## Updates -/

/-- One lane's update, as one event at the home's HRU (R236, R269): the state and the old value. -/
def updateLane (f : FibreId) (p asid : Nat) (op : UpdOp) (a : LaneAcc) (v : BitVec 64) (s : State) : State × BitVec 64 :=
  match a.parts with
  | [q] =>
    match q.loc with
    | .scr _ _ => (s, 0)
    | .dev pa =>
      match q.kind with
      | .comm fmt o =>
        if ownDev s pa then
          let s := { s with msys := commRed s.msys fmt o pa s.dev.devid.toNat f.core p asid v }
          (noteWrite (some f) (some f.core) (none, pa / 64) s, 0)
        else ({ s with outbox := s.outbox ++ [.remote (incarnation s .core f.core) (.red pa v)] }, 0)
      | _ =>
        let old := loadValue s p a
        let new := updVal op old v
        match regOf a with
        | some off => (storeReg (some f) (some f.core) p off pa new s, old)
        | none => (writeDev (some f) (some f.core) (some (p, asid)) pa (bytesOf op.bytes new.toNat) s, old)
  | _ => (s, 0)

/-- One lane of `atomcas` (R268). -/
def casLane (f : FibreId) (p asid size : Nat) (xchg : Bool) (a : LaneAcc) (v c : BitVec 64) (s : State) : State × BitVec 64 :=
  match a.parts with
  | [q] =>
    match q.loc with
    | .scr _ _ => (s, 0)
    | .dev pa =>
      let old := loadValue s p a
      let new := if xchg ∨ old = lowBytes size c then lowBytes size v else old
      match regOf a with
      | some off => (storeReg (some f) (some f.core) p off pa new s, old)
      | none => (writeDev (some f) (some f.core) (some (p, asid)) pa (bytesOf size new.toNat) s, old)
  | _ => (s, 0)

/-- Lanes in order, each with its operand: the state and the old values by lane. -/
def foldLanes (g : LaneAcc → BitVec 64 → State → State × BitVec 64) (accs : List LaneAcc) (vals : List (BitVec 64))
    (s : State) : State × List (Nat × BitVec 64) :=
  (List.zip accs vals).foldl (fun (acc : State × List (Nat × BitVec 64)) x =>
    let (s, old) := g x.1 x.2 acc.1
    (s, acc.2 ++ [(x.1.lane, old)])) (s, [])

/-- Every own-device element of an update, poisoned or not (R403). -/
def updatePoison (s : State) (accs : List LaneAcc) : Option Nat := accsPoison s accs

/-! ## Ordered updates (R386) -/

/-- The key of an ordered update before another's. -/
def HruEntry.before (a b : HruEntry) : Bool :=
  let k := fun (e : HruEntry) => [e.round, e.gfib.1, e.gfib.2.1, e.gfib.2.2, e.lclock.toNat, e.lane]
  decide (k a < k b)

/-- The slice whose HRU holds an update. -/
def HruEntry.slice (e : HruEntry) : Nat :=
  match e.part.loc with
  | .dev pa => homeSlice pa
  | .scr _ _ => 0

/-- The committed update of smallest key of one HRU. -/
def nextUpdate (s : State) (slice : Nat) : Option HruEntry :=
  ((s.msys.hru.filter fun e => e.committed && e.slice == slice).foldl (fun acc e =>
    match acc with
    | none => some e
    | some b => if e.before b then some e else some b) none)

/-- Applies one committed update (R386). An HRU that meets poison halts the context (R403). -/
def applyUpdate (e : HruEntry) (s : State) : State :=
  let s := { s with msys := { s.msys with hru := s.msys.hru.filter (·.num != e.num) } }
  let p := partOfCore s e.core
  match partPoison s e.part with
  | some pa => haltContext p e.asid .poison ⟨.hru, e.slice, pa, 0, e.launch, true⟩ s
  | none => (updateLane e.fibre p e.asid e.op ⟨e.lane, 0, [e.part]⟩ e.val s).1

/-- A fibre's commit has begun and waits: the lines of what it has performed and of the rest, and the pages that the rest
publishes, are held for it, so that no event from outside falls within the quantum (R360, assumption 51). -/
def Fibre.holdsLine (k : Option Nat × Nat) (g : Fibre) : Bool :=
  g.committing && (g.qheld.contains k || g.unfin.any fun h => match h.op with
    | .publish frames => k.1 == none && frames.contains (k.2 / 1024)
    | _ => false)
/-- A line is held so for another fibre. -/
def commitHolds (s : State) (id : Option FibreId) (k : Option Nat × Nat) : Bool :=
  s.fibres.any fun g => id != some g.id && g.holdsLine k

/-- A line that a write of an agent waits for: claimed by another fibre (R377), or held by a commit. -/
def lineHeld (s : State) (id : Option FibreId) (k : Option Nat × Nat) : Bool :=
  (k.1 == none && s.msys.claims.any fun c => c.line == k.2 && id != some c.fibre) || commitHolds s id k

/-- Applies the committed updates of every HRU in key order, so that whatever follows their commits in the total order meets
them (R360, R386). -/
def drainHru : Nat → State → State
  | 0, s => s
  | fuel + 1, s =>
    let heads := ((s.msys.hru.map (·.slice)).foldl addNew []).filterMap fun k => nextUpdate s k
    match heads.foldl (fun (acc : Option HruEntry) e => match acc with
      | none => some e
      | some b => if e.before b then some e else some b) none with
    | none => s
    | some e => drainHru fuel (applyUpdate e s)

/-- The machine with every committed update applied. -/
def drained (s : State) : State := if s.msys.hru = [] then s else drainHru s.msys.hru.length s

/-- At execution (R386): each active lane's update is held in its HRU, or deferred and the HRU enters fallback; one whose slice
is down takes none (R426). -/
def holdUpdates (f : Fibre) (accs : List LaneAcc) (size : Nat) (op : UpdOp) (vals : List (BitVec 64)) (asid : Nat) (s : State) :
    State :=
  (List.zip accs vals).foldl (fun s x =>
    match x.1.parts with
    | [p] =>
      let e : HruEntry :=
        { num := s.msys.hruNum, launch := f.launch, round := f.qround, gfib := (f.stage, f.block, f.index), lclock := f.regs.lclock
          lane := x.1.lane, fibre := f.id, core := f.id.core, asid := asid, incarn := incarnation s .core f.id.core, part := p, size := size, op := op, val := x.2
          committed := false, deferred := false }
      let k := e.slice
      let full := 16 ≤ (s.msys.hru.filter fun h => h.slice == k && !h.deferred).length
      if full || agentDown s .slice k || s.msys.fallback.contains (k, f.launch, f.qround) then
        { s with msys := { s.msys with
          hru := s.msys.hru ++ [{ e with deferred := true }], hruNum := s.msys.hruNum + 1
          fallback := addNew s.msys.fallback (k, f.launch, f.qround) } }
      else { s with msys := { s.msys with hru := s.msys.hru ++ [e], hruNum := s.msys.hruNum + 1 } }
    | _ => s) s

/-- At commit (R386): the updates of one instruction are committed, deferred ones delivered and counted. -/
def commitUpdates (f : Fibre) (lclock : Word) (s : State) : State :=
  let mine := fun (e : HruEntry) => e.fibre == f.id && e.launch == f.launch && e.lclock == lclock && !e.committed
  let late := (s.msys.hru.filter fun e => mine e && e.deferred).length
  let s := updFibre s f.id fun f => { f with hrufb := f.hrufb + BitVec.ofNat 64 late }
  { s with msys := { s.msys with hru := updIf mine (fun e => { e with committed := true, deferred := false }) s.msys.hru } }

/-! ## Tiles -/

/-- Tile `t` of a fibre's block. -/
def tileOf (s : State) (f : Fibre) (t : Nat) : Tile := ((blockOf s f).map fun b => b.tiles.getD t Tile.zero).getD Tile.zero
/-- Words of a tile's image, by row and column. -/
abbrev TileArea := Nat → Nat → Bool
/-- The whole image. -/
def allWords : TileArea := fun _ _ => true
/-- The FP64 and complex views: rows 0 to 31 (R313). -/
def wideWords : TileArea := fun r _ => decide (r < 32)
/-- The words of a view. -/
def viewWords (wide : Bool) : TileArea := if wide then wideWords else allWords
/-- The view that a command accumulates in (R315). -/
def MatForm.wide : MatForm → Bool
  | .mma .f64 _ | .mmac => true
  | _ => false

/-- A poisoned word of a tile in an area (R402, R403). -/
def Block.tileBad (b : Block) (t : Nat) (area : TileArea) : Bool :=
  b.tilePoison.any fun x => x.1 == t && area (x.2 / 64) (x.2 % 64)
/-- Puts a tile into a block; the words that were written lose their poison (R403). -/
def Block.putTile (t : Nat) (v : Tile) (area : TileArea) (b : Block) : Block :=
  { b with
    tiles := b.tiles.set t v
    tilePoison := b.tilePoison.filter fun x => !(x.1 == t && area (x.2 / 64) (x.2 % 64)) }
/-- Replaces a tile of a fibre's block, of which an area was written. -/
def setTile (s : State) (f : Fibre) (t : Nat) (v : Tile) (area : TileArea) : State :=
  updBlock s f.launch f.stage f.block (Block.putTile t v area)
/-- A poisoned word in what is read of a tile (R403). -/
def tilePoison (s : State) (f : Fibre) (t : Nat) (area : TileArea) : Bool :=
  ((blockOf s f).map fun b => b.tileBad t area).getD false

/-- The words of a row that bytes `off` to `off + n - 1` of it reach. -/
def rowWords (r off n : Nat) : TileArea := fun q c => q == r && decide (off < 4 * c + 4) && decide (4 * c < off + n)
/-- The words of a row of a tile that a lane mask names in `acrd` and `acwr` (R339). -/
def laneWords (wide half : Bool) (row : Nat) (mask : BitVec 32) : TileArea := fun r c =>
  r == row && if wide then mask.getLsbD (c / 2) else (c / 32 == (if half then 1 else 0)) && mask.getLsbD (c % 32)

/-- Bytes put into a row of a tile from an offset on (R255). -/
def putRowBytes (t : Tile) (r off : Nat) (bs : List Byte) : Tile := setTileRow t r (putAt (tileRow t r) off bs)

/-- The offsets in a block's allocation of the bytes of an A row at offset `o` (R316, R317): those of the planes that are
read, and no others (R63). -/
def rowOffsets (form : MatForm) (o : Nat) : List Nat :=
  let n := MatForm.k form / 8
  match form with
  | .mmap p => (List.range p).flatMap fun q => (List.range n).map fun i => o - o % 512 + 64 * q + o % 512 / 8 + i
  | _ => (List.range (MatForm.rowBytes form)).map (o + ·)

/-- The bytes of the A rows of a command, from its block's scratchpad (R316, R317, R328). -/
def gatherRows (s : State) (b : Block) (c : MatCmd) : List (List Byte) :=
  c.rows.map fun o => (rowOffsets c.form o).map fun i => scrByte s b.core (b.scrBase + i)

/-- A gather would read a poisoned byte (R403). -/
def rowsPoison (s : State) (b : Block) (c : MatCmd) : Bool :=
  let bad := (coreOf s b.core).spoison
  bad != [] && c.rows.any fun o => (rowOffsets c.form o).any fun i => bad.contains (b.scrBase + i)

/-- Accepts a matrix command (R326, R329): a follow-on waits for its copy; one whose copy was abandoned is discarded
(R262); any other gathers now. -/
def acceptMat (f : Fibre) (c : MatCmd) (s : State) : State :=
  match blockOf s f with
  | none => s
  | some b =>
    let r := coreOf s f.id.core
    let waits := match c.waits with
      | none => none
      | some k => if r.copies.any fun x => x.id == k && x.fibre == f.id && !x.landed then some k else none
    if c.waits = some 0 then s
    else
      if waits.isNone && rowsPoison s b c then
        haltContext (partOfCore s b.core) (asidOf s f) .poison ⟨.matrix, b.core, 0, 0, b.launch, true⟩ s
      else
        let c' := { c with
          id := r.nextId, waits := waits
          arows := if waits.isSome then none else some (gatherRows s b c) }
        setCore s f.id.core { r with mat := r.mat ++ [c'], nextId := r.nextId + 1 }

/-- The tiles that a command names: it counts as writing both (R325). -/
def MatCmd.tiles (c : MatCmd) : List Nat := if c.cz then [c.d] else [c.d, c.c]

/-- An accepted command of the block that has not finished, or a row move of it that is under way, names one of the tiles (R152,
R326). -/
def tileBusy (s : State) (f : Fibre) (ts : List Nat) : Bool :=
  ((coreOf s f.id.core).mat.any fun c => c.launch == f.launch && c.stage == f.stage && c.block == f.block &&
    ts.any fun t => c.tiles.contains t) ||
  s.fibres.any fun g => g.launch == f.launch && g.stage == f.stage && g.block == f.block &&
    g.moving.any fun m => match m.op with
      | .ldacc t .. | .stacc t .. => ts.contains t
      | _ => false

/-- The tiles that an operation names (R152). -/
def DevOp.tiles : DevOp → List Nat
  | .ldacc t .. | .stacc t .. | .acz t | .acwr _ t _ _ _ _ _ | .acrd _ t _ _ _ _ => [t]
  | .acscl _ d c _ | .accvt _ d c => [d, c]
  | .mat c => c.tiles
  | _ => []

/-- The command port refuses an operation now (R152, R327). -/
def portRefuses (s : State) (f : Fibre) (op : DevOp) : Bool :=
  (op.tiles != [] && tileBusy s f op.tiles) || match op with
    | .mat _ => decide (8 ≤ (coreOf s f.id.core).mat.length)
    | _ => false

/-! ## Sealed pages (R235) -/

/-- Changes the record of a Sealed page, made OPEN where none is held. -/
def updSeal (s : State) (page bits : Nat) (g : SealRec → SealRec) : State :=
  let base : SealRec := (s.msys.seals.find? fun r => r.page == page).getD ⟨page, bits, .opened, [], []⟩
  { s with msys := { s.msys with seals := (s.msys.seals.filter fun r => r.page != page) ++ [g base] } }

/-- Recall of a page's copies by its home: the cores of this device drop theirs at once (R235). -/
def recallCopies (page bits : Nat) (s : State) : State :=
  let held := ((s.msys.seals.find? fun r => r.page == page).map fun r => r.copies.map (·.line)).getD []
  let lines := (s.msys.dir.filter fun d => decide (page ≤ 64 * d.line) && decide (64 * d.line < page + 2 ^ bits)).map (·.line) ++ held
  let s := lines.foldl (fun s l => loseCopies l none s) s
  updSeal s page bits fun r => { r with copies := [] }

/-- `unseal` (R235, R265): a SEALED page enters DRAINING and its copies are recalled; the instruction completes when the
page is OPEN. -/
def doUnseal (f : Fibre) (page bits : Nat) (s : State) : Perf :=
  let st := sealState s page
  if f.unsealing = some page then
    if st = .draining then .waits s else .done (updFibre s f.id fun f => { f with unsealing := none })
  else
    match st with
    | .opened => .done s
    | .draining => .waits s
    | .isSealed =>
      let s := recallCopies page bits (updSeal s page bits fun r => { r with st := .draining })
      let remote := ((s.msys.seals.find? fun r => r.page == page).map fun r => r.remote).getD []
      if remote = [] then .done (updSeal s page bits fun r => { r with st := .opened })
      else
        let s := { s with outbox := s.outbox ++ remote.map fun d => .remote (incarnation s .link 0) (.recall d.1 page) }
        .waits (updFibre s f.id fun f => { f with unsealing := some page })

/-- An operation writes into a page. -/
def DevOp.writesIn (page bits : Nat) (o : DevOp) : Bool :=
  let inside := fun (pa : Nat) => decide (page ≤ pa) && decide (pa < page + 2 ^ bits)
  (o.writes && o.accs.any fun a => a.parts.any fun q => match q.loc with
    | .dev pa => inside pa
    | .scr _ _ => false) || match o with
  | .publish frames => frames.any fun g => inside (65536 * g)
  | _ => false

/-- A write to a page has been issued by another fibre and not been performed: `seal` waits for it (R235). What an ordered fibre
holds counts once its quantum's commit has begun. -/
def sealWaits (s : State) (id : FibreId) (page bits : Nat) : Bool :=
  s.fibres.any fun g => g.id != id && (!heldMode s g || g.committing) &&
    (g.unfin.any (fun h => h.op.writesIn page bits) || g.moving.any fun m => m.op.writesIn page bits)

/-- A page becomes SEALED (R235). A quantum that holds a write to it is executed again: that write is no earlier one, and the
page no longer takes it (assumption 52). -/
def sealPage (id : FibreId) (page bits : Nat) (s : State) : State :=
  let s := updSeal s page bits fun r => { r with st := .isSealed }
  let late := fun (g : Fibre) => g.id != id && heldMode s g && !g.committing && g.unfin.any fun h => h.op.writesIn page bits
  { s with fibres := updIf late (fun g => { g with conflict := true }) s.fibres }

/-! ## Lines that are held (R360, R377) -/

/-- A line that a write of a fibre names is held for another. -/
def claimed (s : State) (f : FibreId) (accs : List LaneAcc) : Bool := accs.any fun a => (accKeys a).any (lineHeld s (some f))
/-- A line that a read names is held by a commit. -/
def commitHeld (s : State) (f : FibreId) (accs : List LaneAcc) : Bool :=
  accs.any fun a => (accKeys a).any (commitHolds s (some f))
/-- A line that a `publish` writes is held for another. -/
def publishHeld (s : State) (f : FibreId) (frames : List Nat) : Bool :=
  s.msys.shadows.any fun b => b.landed && frames.contains (b.pa / 65536) && lineHeld s (some f) (none, b.pa / 64)
/-- A line at an address is held for another: `enq` and `deq` wait for theirs (R102). -/
def linesHeld (s : State) (f : FibreId) (pas : List Nat) : Bool := pas.any fun a => lineHeld s (some f) (none, a / 64)
/-- A line at an address is held by a commit. -/
def commitHeldAt (s : State) (f : FibreId) (pas : List Nat) : Bool := pas.any fun a => commitHolds s (some f) (none, a / 64)

/-! ## Addresses of operations -/

/-- The device addresses of elements. -/
def devAddrs (accs : List LaneAcc) : List Nat :=
  accs.flatMap fun a => a.parts.filterMap fun q => match q.loc with
    | .dev pa => some pa
    | .scr _ _ => none

/-- The control line and the entry of a queue that an operation reaches. -/
def queueAddrs (g : Stage) (n : Nat) : List Nat :=
  if g.qpages = [] then [] else [queueAddr g 0, queueAddr g (64 + 64 * (n % g.cap))]

/-- The device addresses that an operation of a fibre reaches, each line of it by one (R423). -/
def DevOp.addrs (s : State) (f : Fibre) : DevOp → List Nat
  | .publish frames => (publishBytes s frames).map (·.pa) ++ (frames.map (65536 * ·)).filter fun pa => !ownDev s pa
  | .flush ls | .inval ls => ls.map fun x => 64 * x.1
  | .vseal page _ | .vunseal page _ => [page]
  | .launch _ (some accs) _ => devAddrs accs
  | .wline pa _ | .pkbind pa _ _ => [pa]
  | .enq _ _ => ((stage? s f.launch f.stage).map fun g => queueAddrs g g.enqn).getD []
  | .deq _ => (((launch? s f.launch).bind fun L => inputOf L f.stage).map fun g => queueAddrs g g.deqn).getD []
  | o => devAddrs o.accs

/-! ## Fences (R349) -/

/-- Whether the scope of a fence around a fibre of a core and quadrant includes another place (R18, R19). -/
def scopeIncludes (s : State) (scope : Scope) (core quad core' quad' : Nat) : Bool :=
  match scope with
  | .quad => core == core' && quad == quad'
  | .core => core == core'
  | .slice => core / 8 == core' / 8
  | .stack => core / 16 == core' / 16
  | .device => partOfCore s core == partOfCore s core'

/-- The later of two counts by line. -/
def joinViews (a b : Table Nat) : Table Nat := b.foldl (fun t x => Tab.set t x.1 (max (Tab.getD t x.1 0) x.2)) a

/-- A fence of a fibre takes its place among the fences (R271, R349): what earlier fences put in order whose scopes and its own
include each other's fibres comes before the fibre's accesses from now on; and what its own accesses have met, with what stood
before the last of them, later fences may put in order. -/
def fenceOrder (id : FibreId) (scope : Scope) (s : State) : State :=
  if s.msys.hncNum = 0 then s
  else
    let quad := id.pos / 16
    let met := s.msys.hncFences.filter fun F => scopeIncludes s F.scope F.core F.quad id.core quad &&
      scopeIncludes s scope id.core quad F.core F.quad
    let v := met.foldl (fun (v : HncView) F => { v with base := max v.base F.base, view := joinViews v.view F.view })
      (hncViewOf s.msys id)
    let mine := fun (F : FenceView) => F.scope == scope && F.core == id.core && F.quad == quad
    let old := (s.msys.hncFences.find? mine).getD ⟨scope, id.core, quad, 0, []⟩
    let new := { old with base := max old.base v.cbase, view := joinViews old.view (joinViews v.carry v.own) }
    let ms := setHncView s.msys v
    { s with msys := { ms with hncFences := (ms.hncFences.filter fun F => !mine F) ++ [new] } }

/-! ## Binding a granule (14 R302 to R304, R309) -/

/-- The granules of a partition that are bound to a table. -/
def boundGranules (s : State) (p : Nat) (id : BitVec 16) : List Nat :=
  (s.msys.granules.filter fun g => g.2.table == id && partOfStack s (paStack (4096 * g.1)) == p).map (·.1)

/-- The capture of a table is released once no granule of the partition remains bound to it (R304). -/
def releaseCapture (p : Nat) (id : BitVec 16) (s : State) : State :=
  if (boundGranules s p id).isEmpty then updPart s p fun P => { P with captured := Tab.del P.captured id.toNat } else s

/-- A poisoned granule: a line of it is POISONED (R307). -/
def Granule.poisoned (g : Granule) : Bool := (List.range 64).any fun i => g.states.getD i 0 == 3

/-- The result word of `pkstat` (R309). -/
def pkWord (s : State) (pa status : Nat) : Word :=
  BitVec.ofNat 64 (status * 2 ^ 56 + (granOf s.msys pa).table.toNat * 2 ^ 32 + (lineSt s.msys pa).toNat)

/-- The directory entry of a table (R304). -/
def dirEntry (s : State) (p id : Nat) : Nat := natOf (homeBytes s.msys (wfield (partn s p).pktdir 51 19 * 2 ^ 19 + 8 * id) 8)

/-- The table that a directory entry leads to, parsed (R301, R304). -/
def dirTable (s : State) (p id : Nat) : Option XTable :=
  let e := dirEntry s p id
  if e % 2 = 0 then none
  else
    let at_ := field e 51 6 * 64
    let header := natOf (homeBytes s.msys at_ 16)
    let count := field header 47 32
    if 512 < count then none
    else parseTable header ((List.range count).map fun j => natOf (homeBytes s.msys (at_ + 16 + 8 * j) 8))

/-- What a binding of a granule to table `id` answers, and the table captured for it (R309). -/
def bindStatus (s : State) (p pa : Nat) (tid : Word) : Nat × Option XTable :=
  let P := partn s p
  let g := granOf s.msys pa
  let id := BitVec.ofNat 16 tid.toNat
  let dead := if g.poisoned then 3 else 0
  if wfield tid 63 16 ≠ 0 then (1, none)
  else if id = g.table ∨ id = 0 then (dead, none)
  else if P.pktdir.getLsbD 0 = false then (1, none)
  else
    let table := match Tab.get P.captured id.toNat with
      | some t => some t
      | none => dirTable s p id.toNat
    match table with
    | none => (1, none)
    | some t =>
      let freed := if g.table ≠ 0 ∧ boundGranules s p g.table = [pa / 4096] then 1 else 0
      if t.book then (1, none)
      else if (Tab.get P.captured id.toNat).isNone ∧ 256 + freed ≤ P.captured.length then (2, none)
      else (dead, some t)

/-- `pkstat.bind` (R309): PACKED lines are expanded and stored RAW and TABLE is written, as one event. -/
def bindGranule (p pa : Nat) (tid : Word) (s : State) : State × Word :=
  let r := bindStatus s p pa tid
  let g := granOf s.msys pa
  let id := BitVec.ofNat 16 tid.toNat
  if r.1 ≠ 0 ∨ id = g.table then (s, pkWord s pa r.1)
  else
    let g' : Granule := ⟨Vector.ofFn fun i => if g.states.getD i.val 0 = 1 then 0 else g.states.getD i.val 0, id⟩
    let s := match r.2 with
      | some t => updPart s p fun P => { P with captured := Tab.set P.captured id.toNat t }
      | none => s
    let s := { s with msys := setGran s.msys pa g' }
    let s := if g.table = 0 then s else releaseCapture p g.table s
    (s, pkWord s pa 0)

/-- A poisoned byte of the directory entry or of the table that a binding reads (R403). -/
def bindPoison (s : State) (p : Nat) (tid : Word) : Option Nat :=
  let id := tid.toNat % 2 ^ 16
  if wfield tid 63 16 ≠ 0 then none
  else if (Tab.get (partn s p).captured id).isSome || id = 0 || (partn s p).pktdir.getLsbD 0 = false then none
  else
    let at_ := wfield (partn s p).pktdir 51 19 * 2 ^ 19 + 8 * id
    let t := field (dirEntry s p id) 51 6 * 64
    let count := field (natOf (homeBytes s.msys t 16)) 47 32
    let table := if dirEntry s p id % 2 = 0 then [] else List.range (16 + if count ≤ 512 then 8 * count else 0)
    (((List.range 8).map (at_ + ·)) ++ table.map (t + ·)).find? fun a => isPoison s.msys a

/-! ## Instruction caches -/

/-- Instruction lines leave a core's caches: one, or every one (R182). -/
def dropInstr (core : Nat) (line : Option Nat) (s : State) : State :=
  let r := coreOf s core
  setCore s core (match line with
    | some l => { r with icache := r.icache.filter fun e => e.1 != l, l0 := r.l0.filter fun e => e.2.1 != l }
    | none => { r with icache := [], l0 := [] })

/-! ## Performing -/

/-- The pages a flush or invalidation acts on, line by line (R266). -/
def doLines (flush : Bool) (lines : List (Nat × PageKind)) (s : State) : State :=
  lines.foldl (fun s x =>
    match x.2 with
    | .coded dim f64 rate =>
      if flush then
        let bb := Coded.bytes (codedPar dim f64 rate)
        (linesOf (64 * x.1 / bb * bb) bb).foldl (fun s l => writeBack l s) s
      else s
    | .normal | .sealed => if flush then writeBack x.1 s else s
    | .hostNon => if flush then writeBack x.1 s else discardHomeLine x.1 (loseCopies x.1 none s)
    | _ => s) s

/-- The stores that name device registers, in their order (R437). -/
def storeRegs (id : FibreId) (p : Nat) (xs : List (LaneAcc × Nat)) (s : State) : State :=
  xs.foldl (fun s x => match regOf x.1 with
    | some off => storeReg (some id) (some id.core) p off x.1.pa (BitVec.ofNat 64 x.2) s
    | none => s) s

/-- Performs an operation of fibre `f` in `s` that the command port accepts; one that must wait leaves `s0`. -/
def performFor (id : FibreId) (f : Fibre) (op : DevOp) (s0 s : State) : Perf :=
  let p := partOfCore s id.core
  let asid := asidOf s f
  let ctx := some (p, asid)
  let held := heldMode s f
  match op with
  | .load accs size signed dest hint =>
    if commitHeld s id accs then .waits s0
    else
      match readElems id f hint accs s with
      | .error pa => .done (haltByFibre f .poison pa s)
      | .ok (s, vals) => ⟨s, destWrites dest (vals.map fun x => (x.1, extendLoad size signed x.2)), true⟩
  | .store accs _ data =>
    if claimed s id accs then .waits s0
    else
      match mergePoison s accs with
      | some pa => .done (haltByFibre f .poison pa s)
      | none =>
        let plain := (List.zip accs data).filter fun x => (regOf x.1).isNone
        .done (storeRegs id p (List.zip accs data) (storeAccs (some id) (some id.core) ctx plain plain [] s))
  | .atom accs _ o vals dest =>
    if claimed s id accs then .waits s0
    else
      match updatePoison s accs with
      | some pa => .done (haltByFibre f .poison pa s)
      | none =>
        let r := foldLanes (updateLane id p asid o) accs vals (seeRecords id (devLines accs) s)
        ⟨r.1, destWrites dest r.2, true⟩
  | .cas accs size xchg vals cmps dest =>
    if claimed s id accs then .waits s0
    else
      match updatePoison s accs with
      | some pa => .done (haltByFibre f .poison pa s)
      | none =>
        let r := (List.zip accs (List.zip vals cmps)).foldl (fun (acc : State × List (Nat × BitVec 64)) x =>
          let (s, old) := casLane id p asid size xchg x.1 x.2.1 x.2.2 acc.1
          (s, acc.2 ++ [(x.1.lane, old)])) (seeRecords id (devLines accs) s, [])
        ⟨r.1, destWrites dest r.2, true⟩
  | .red accs _ o vals lclock =>
    if claimed s id accs then .waits s0
    else if held then .done (commitUpdates f lclock s)
    else
      match updatePoison s accs with
      | some pa => .done (haltByFibre f .poison pa s)
      | none => .done (foldLanes (updateLane id p asid o) accs vals s).1
  | .ldacc tile _ accs hint =>
    if commitHeld s id accs then .waits s0
    else
      match accsPoison s accs with
      | some pa => .done (haltByFibre f .poison pa s)
      | none =>
        let v := staleView id s.lag accs s
        let t := accs.foldl (fun t a => a.parts.foldl (fun t q => putRowBytes t a.lane q.off (readPart v q)) t) (tileOf s f tile)
        let area : TileArea := fun r c => accs.any fun a => a.parts.any fun q => rowWords a.lane q.off q.len r c
        .done (drawFree accs (setTile (noteReads id hint s.lag accs s) f tile t area))
  | .stacc tile _ accs =>
    if claimed s id accs then .waits s0
    else if tilePoison s f tile (fun r c => accs.any fun a => a.parts.any fun q => rowWords a.lane q.off q.len r c) then
      .done (haltByFibre f .poison 0 s)
    else
      let t := tileOf s f tile
      .done (accs.foldl (fun s a => a.parts.foldl (fun s q =>
        writePart (some id) (some id.core) ctx q (((tileRow t a.lane).drop q.off).take q.len) s) s) s)
  | .copy c =>
    if !f.committing && (partn s p).level3.isSome && (partn s p).level3 != some id then .waits s0
    else .done (releaseCopy c s)
  | .publish frames =>
    if publishWaits s id frames || publishHeld s id frames || publishSealed s frames then .waits s0
    else
      match s.msys.shadows.find? fun b => b.landed && frames.contains (b.pa / 65536) && inStageQueue s b.pa 1 with
      | some b => .done (haltByFibre f .protection b.pa s)
      | none => .done (doPublish (some id) (some id.core) ctx frames s)
  | .vseal page bits =>
    match sealState s page with
    | .opened => if sealWaits s id page bits then .waits s0 else .done (sealPage id page bits s)
    | .isSealed => .done s
    | .draining => .waits s0
  | .vunseal page bits => doUnseal f page bits s
  | .flush lines => .done (doLines true lines s)
  | .inval lines => if commitHeldAt s id (lines.map fun x => 64 * x.1) then .waits s0 else .done (doLines false lines s)
  | .fence scope => if (openCopies s id).any (copyForeign s) then .waits s0 else .done (fenceOrder id scope s)
  | .mat c => .done (acceptMat f c s)
  | .acz d => .done (setTile s f d Tile.zero allWords)
  | .acscl wide d c x =>
    if tilePoison s f c (viewWords wide) then .done (haltByFibre f .poison 0 s)
    else .done (setTile s f d (acsclTile wide (tileOf s f c) (tileOf s f d) x) (viewWords wide))
  | .accvt narrow d c =>
    if tilePoison s f c (if narrow then wideWords else fun r c => decide (r < 32) && decide (c < 32)) then
      .done (haltByFibre f .poison 0 s)
    else .done (setTile s f d (accvtTile narrow (tileOf s f c) (tileOf s f d)) (viewWords !narrow))
  | .acwr wide d half row mask lo hi =>
    let t := tileOf s f d
    .done (setTile s f d (if wide then
        mkTile fun r c => if r = row ∧ mask.getLsbD (c / 2) = true then (if c % 2 = 0 then lane lo (c / 2) else lane hi (c / 2))
          else tileWord t r c
      else
        mkTile fun r c =>
          let l := c - (if half then 32 else 0)
          if r = row ∧ (if half then 32 ≤ c else c < 32) ∧ mask.getLsbD l = true then lane lo l else tileWord t r c)
      (laneWords wide half row mask))
  | .acrd wide tile half row mask dest =>
    if tilePoison s f tile (laneWords wide half row mask) then .done (haltByFibre f .poison 0 s)
    else
      let t := tileOf s f tile
      let x := fun (l : Nat) =>
        if wide then tile64 t row l else (tileWord t row (l + (if half then 32 else 0))).setWidth 64
      ⟨s, destWrites dest ((lanesOf mask).map fun l => (l, x l)), true⟩
  | .launch rec pa dest =>
    match pa with
    | none => .done s
    | some accs =>
      if commitHeld s id accs then .waits s0
      else match accsPoison s accs with
      | some a => .done (haltByFibre f .poison a s)
      | none =>
        let s := seeRecords id (devLines accs) s
        let r := natOf (accs.flatMap fun a => a.parts.flatMap (readPart s))
        let vf := ((launch? s f.launch).map (·.vf)).getD 0
        let (s', st) := acceptLaunch p (some (vf, asid)) rec.toNat r s
        ⟨s', [.s dest st], true⟩
  | .enq data dest =>
    if linesHeld s id (op.addrs s f) then .waits s0 else
    let (s', st) := doEnq f.launch f.stage data s
    if held && st != 0 then .waits s0 else ⟨s', [.s dest st], true⟩
  | .deq dest =>
    if linesHeld s id (op.addrs s f) then .waits s0
    else
      match deqPoison s f.launch f.stage f.block with
      | some pa => .done (haltByFibre f .poison pa s)
      | none =>
        let (s', st, entry) := doDeq f.launch f.stage f.block s
        ⟨s', [.v dest allOnes (deqReg st entry)], true⟩
  | .barrier lvl num arrive wait => .done (barrierOp id lvl num arrive wait s)
  | .icinv line => .done (dropInstr id.core line s)
  | .wline pa expect =>
    let a : LaneAcc := ⟨0, 0, [⟨0, 8, .dev pa, .strong, 0⟩]⟩
    if commitHeld s id [a] then .waits s0
    else match accsPoison s [a] with
    | some x => .done (haltByFibre f .poison x s)
    | none =>
      let s := seeRecords id [pa / 64] s
      if loadValue s p a ≠ expect then .done s
      else .done (updFibre s id fun f => { f with status := .line pa })
  | .pkbind pa tid dest =>
    match bindPoison s p tid with
    | some a => .done (haltByFibre f .poison a s)
    | none =>
      let (s', x) := bindGranule p pa tid s
      ⟨s', [.s dest x], true⟩
  | .owed => .done (payArrival f s)
  | .exit => .done (retireExit id s)

/-- A link on the way to an address that an operation reaches has stopped, or the agent it goes to is down (R423, R426). -/
def pathsHeld (s : State) (id : FibreId) (pas : List Nat) : Bool :=
  (s.dev.failed != [] || s.links.any (·.stopped)) && pas.any fun pa => paRegion pa != 0xF && pathHeld s id.core pa
/-- The same of elements. -/
def accsHeld (s : State) (id : FibreId) (accs : List LaneAcc) : Bool := pathsHeld s id (devAddrs accs)

/-- The traffic to addresses crosses the links on its way (R422). -/
def crossTo (s : State) (f : Fibre) (pas : List Nat) : State :=
  ((pas.filter fun pa => paRegion pa != 0xF).map (· / 64)).foldl addNew [] |>.foldl (fun t l =>
    useLink f.id.core (partOfCore s f.id.core) (asidOf s f) (64 * l) t) s
/-- The same of elements. -/
def crossLinks (s : State) (f : Fibre) (accs : List LaneAcc) : State := crossTo s f (devAddrs accs)

/-- Performs an operation of a fibre that the command port has accepted: its events take their places now, after the updates
already committed (R370, R386). -/
def performPast (id : FibreId) (op : DevOp) (s0 : State) : Perf :=
  let s := drained s0
  match fibre? s id with
  | none => .done s
  | some f =>
    let pas := op.addrs s f
    if pathsHeld s id pas then .waits s0 else performFor id f op s0 (crossTo s f pas)

/-- Performs an operation of a fibre, unless the command port refuses it (R152). -/
def performOp (id : FibreId) (op : DevOp) (s0 : State) : Perf :=
  if ((fibre? s0 id).any fun f => portRefuses s0 f op) then .waits s0 else performPast id op s0

end Sys2Proof.Machine
end

