-- ==== Sys2Proof/Machine/Flags.lean ====
section
/-! DEFINITION. Sticky flags and arithmetic traps of per-lane results (03 R69 to R72). The flags a computation raises are
formed with its value in Float.lean and SpecialFn.lean; here lanes become the flags set, the lanes written and the trap. -/

namespace Sys2Proof.Machine

/-- What one lane computes: bits and raised classes. -/
structure LaneRes where
  bits  : BitVec 64
  flags : BitVec 32
  deriving DecidableEq, Repr

/-- A lane is faulting when it raises an enabled class (R72). -/
def LaneRes.faulting (en : BitVec 32) (r : LaneRes) : Bool := (r.flags &&& en) != 0

/-- The faulting lanes of a mask (R72). -/
def faultMask (act en : BitVec 32) (x : Nat → LaneRes) : BitVec 32 :=
  mkMask fun l => act.getLsbD l && (x l).faulting en

/-- The flags that the lanes of a mask raise (R70). -/
def raisedFlags (mask : BitVec 32) (x : Nat → LaneRes) : BitVec 32 :=
  (lanesOf mask).foldl (fun acc l => acc ||| (x l).flags) 0

/-- The cause of the first class in the order INVALID to INEXACT (R72, R397). -/
def classCause (flags : BitVec 32) : BitVec 8 :=
  if flags.getLsbD 0 then 0x08 else if flags.getLsbD 1 then 0x09 else if flags.getLsbD 2 then 0x0A
  else if flags.getLsbD 3 then 0x0B else 0x0C

/-- The arithmetic trap of a word, if any lane is faulting (R72, R451). -/
def arithTrap (i : Instr) (f : Fibre) (act : BitVec 32) (x : Nat → LaneRes) : Option Trap :=
  let bad := faultMask act f.en x
  if bad = 0 then none
  else
    let cause := classCause (raisedFlags bad x &&& f.en)
    some { cause := cause, sys := false, seq := f.seq
           regs := { wordRegs cause (wordOf i) (lenOf i) 0 f.regs.pc with tmask := bad } }

end Sys2Proof.Machine
end

