-- ==== Sys2Proof/Machine/Issue.lean ====
section
/-! DEFINITION. Issue of one instruction by one fibre: what holds it back, the checks of R157 in their order, the traps
they raise, and how each kind of effect is carried out (06 R147 to R157, 18 R370 to R377, R381 to R386). Every
instruction is a `Plan`, and its effect one `Eff`. -/

namespace Sys2Proof.Machine

/-- What an instruction does once its checks have passed. -/
inductive Eff where
  /-- Register writes of fixed latency, flags, and an arithmetic trap (R72, R148). -/
  | fixed (ws : List RegWrite) (flags : BitVec 32) (trap : Option Trap)
  /-- Register writes of variable latency; `marks` are the pending bits (R148). -/
  | late (marks : List RegId) (ws : List RegWrite)
  /-- The same of class F or of `frcenc`: flags and an arithmetic trap come with them (R72, R151). -/
  | lateF (marks : List RegId) (ws : List RegWrite) (flags : BitVec 32) (trap : Option Trap)
  /-- A branch (R165). -/
  | jump (ws : List RegWrite) (pc : Word)
  /-- The instruction retires, and something else of the machine changes. -/
  | act (g : State → State)
  /-- An operation leaves the fibre. `tracked` ones may stay unfinished (R370); `ends` ones end a quantum (R381). -/
  | op (o : DevOp) (marks : List RegId) (tracked ends : Bool) (fills : List TlbEntry)
  /-- A trap at issue. -/
  | trap (t : Trap)
  /-- The context halts. -/
  | halt (c : HaltCause) (addr : Nat)
  /-- It waits: it does not retire. -/
  | wait (s : State)

/-- How an instruction is checked and what it does. -/
structure Plan where
  /-- Acts once for the fibre (R147). -/
  uniform : Bool
  /-- An access instruction (R377). -/
  access  : Bool
  /-- ILLEGAL, CONTEXT (R156). -/
  context : Bool
  /-- OPERAND (R157, check 6). -/
  operand : Bool
  /-- Registers named as sources, `em` among them, as destinations, and as made absent or unshared (R150). -/
  srcs    : List RegId
  dests   : List RegId
  gone    : List RegId
  /-- Waits until the fibre is not speculative (R375). -/
  nonspec : Bool
  /-- Fixed writes made whatever guard and `em` hold (R66). -/
  always  : List RegWrite
  /-- Ends a window, so that its partner waits with it (R126). -/
  shares  : Bool := false
  /-- The hint of its accesses (R146). -/
  hint    : Hint := .none
  /-- The effect, given the active mask, or the guard mask of a uniform instruction. -/
  own     : BitVec 32 → Eff

/-! ## Traps at issue -/

/-- A trap whose registers are the fields of R155. -/
def wordTrap (cause : BitVec 8) (i : Instr) (f : Fibre) (reason : Nat) : Trap :=
  { cause := cause, sys := false, regs := wordRegs cause (wordOf i) (lenOf i) reason f.regs.pc, seq := f.seq }
/-- ILLEGAL with a reason (R156). -/
def illegalTrap (i : Instr) (f : Fibre) (reason : Nat) : Trap := wordTrap 0x01 i f reason
/-- HAZARD (R150). -/
def hazardTrap (i : Instr) (f : Fibre) : Trap := wordTrap 0x04 i f 0
/-- OPERAND (R118, R130). -/
def operandTrap (i : Instr) (f : Fibre) : Trap := wordTrap 0x05 i f 0
/-- REGISTER (R124). -/
def registerTrap (i : Instr) (f : Fibre) (sub n : Nat) : Trap :=
  { cause := 0x06, sys := false, seq := f.seq
    regs := plainRegs 0x06 (wordOf i) (lenOf i) f.regs.pc (BitVec.ofNat 64 sub) (BitVec.ofNat 64 n) 0 }
/-- A fault of R245 (R246). -/
def accessTrap (i : Instr) (f : Fibre) (e : AFault) (mask : BitVec 32) (addr : Word) : Trap :=
  { cause := e.cause, sys := e.cause == 0x10, seq := f.seq
    regs := plainRegs e.cause (wordOf i) (lenOf i) f.regs.pc (BitVec.ofNat 64 e.sub) addr mask }

/-- The effect after the checks of an access. -/
def afterChecks (i : Instr) (f : Fibre) (s : State) (c : Chk) (k : List LaneAcc → List TlbEntry → Eff) : Eff :=
  match c with
  | .ok accs fills => k accs fills
  | .fault e mask addr => .trap (accessTrap i f e mask addr)
  | .violation pa => .halt .protection pa
  | .unread pa => .halt .uncorrectable pa
  | .wait => .wait s

/-! ## What holds an instruction back -/

/-- Vector and scalar registers, which take entries of the undo log (R372). -/
def undoRegs (rs : List RegId) : List RegId :=
  rs.filter fun r => match r with
    | .v _ | .s _ => true
    | _ => false

/-- The status lets the fibre issue (R111). -/
def FStatus.issues : FStatus → Bool
  | .ready | .current | .parked => true
  | _ => false

/-- A pending result may still raise an arithmetic trap (R151). -/
def awaitsFlags (f : Fibre) : Bool := f.en != 0 && f.pend.any fun p => p.arith

/-- The fibre cannot issue now: it waits for a trap, a rollback, a copy fault's entry, a stopping point, or its state does
not issue (R111, R373, R376, R415, R450). -/
def cannotIssue (s : State) (f : Fibre) : Bool :=
  !f.status.issues || f.waitTrap.isSome || (f.conflict && !heldMode s f) || (f.copyFaults != [] && f.regs.level != 2) ||
    stopped s f

/-- A threshold of `%escthr`; 0 is taken as 1. -/
def threshold (f : Fibre) (hi lo : Nat) : Nat := max 1 (wfield f.escthr hi lo)
/-- Rollbacks at which a level is entered (R377). -/
def levelAt (f : Fibre) (level : Nat) : Nat :=
  (if 1 ≤ level then threshold f 7 0 else 0) + (if 2 ≤ level then threshold f 15 8 else 0) +
    (if 3 ≤ level then threshold f 23 16 else 0)
/-- The fibre has reached the count of its next level, which it enters before anything else (R377). -/
def ladderDue (f : Fibre) : Bool := decide (f.escLevel < 3) && decide (levelAt f (f.escLevel + 1) ≤ f.rbnow.toNat)

/-- The ladder of R377 holds the instruction back; the rest of a quantum in the middle of its commit goes on (assumption 51). -/
def ladderHolds (s : State) (f : Fibre) (P : Plan) : Bool :=
  ladderDue f || (decide (1 ≤ f.escLevel) && !f.settled && !heldMode s f) ||
    (P.access && !f.committing && match (partn s (partOfCore s f.id.core)).level3 with
      | some g => g != f.id
      | none => false)

/-- Its quantum has reached its length (R381). -/
def quantumDue (s : State) (f : Fibre) : Bool :=
  heldMode s f && f.regs.level == 0 && f.regs.lclock.toNat % quantum s f.launch == 0 && f.regs.lclock != f.qstart.lclock

/-- The quantum of a fibre ends: it enters COMMIT (R382). -/
def endQuantum (id : FibreId) (s : State) : State := updFibre s id fun f => { f with status := .commit, isCur := false }

/-- An arrival that a handler asked for is due (R176): it waits until the fibre is not speculative (R375), and in an ordered launch
it ends a quantum and is made at its commit (R384). -/
def arriveOwed (f : Fibre) (s : State) : State :=
  if heldMode s f then
    endQuantum f.id (updFibre s f.id fun g => { g with unfin := g.unfin ++
      [{ seq := f.seq, op := .owed, snap := f.regs, written := f.qundo, marks := [], early := false, vals := [], recheck := false
         fills := [] }] })
  else if f.settled then payArrival f s
  else s

/-- Names a window register whose owner waits to change its window (R126). -/
def windowWaits (s : State) (f : Fibre) (P : Plan) : Bool :=
  (P.srcs ++ P.dests).any (fun r => match r with
    | .w _ => true
    | _ => false) && match windowIn s f with
    | some (a, _, _) => a.winWait
    | none => false

/-- Registers an instruction names (R150). -/
def Plan.names (P : Plan) (h : Hdr) : List RegId :=
  guardNames h ++ (if P.uniform then [] else [.em]) ++ P.srcs ++ P.dests ++ P.gone

/-- A named register is pending. -/
def hazard (f : Fibre) (rs : List RegId) : Bool := rs.any fun r => f.pending.contains r

/-- Lanes in which the instruction executes. -/
def execMask (f : Fibre) (h : Hdr) (P : Plan) : BitVec 32 := if P.uniform then guardMask f h else activeMask f h

/-- Entries of the undo log that first writes would take (R372). -/
def newUndo (log dests : List RegId) : Nat := ((undoRegs dests).filter fun r => !log.contains r).length

/-- Registers that an instruction writes which executes in lanes `m`, each once (R66, R372). -/
def Plan.written (P : Plan) (m : BitVec 32) : List RegId :=
  ((if m = 0 then [] else P.dests) ++ P.always.map (·.id)).foldl addNew []

/-- The log of a checkpoint has no room for first writes (R372). -/
def undoFull (s : State) (f : Fibre) (dests : List RegId) : Bool :=
  if heldMode s f then decide (64 < f.qundo.length + newUndo f.qundo dests)
  else match f.unfin with
    | [] => false
    | h :: _ => decide (64 < (undoRegs h.written).length + newUndo h.written dests)

/-- Entries taken at issue. -/
def Fibre.reserve (held : Bool) (dests : List RegId) (f : Fibre) : Fibre :=
  { f with
    unfin := if held then f.unfin else f.unfin.map fun h => { h with written := (undoRegs dests).foldl addNew h.written }
    qundo := if held then (undoRegs dests).foldl addNew f.qundo else f.qundo }

/-! ## Carrying out an effect -/

/-- The address of the following word. -/
def nextPc (i : Instr) (f : Fibre) : Word := f.regs.pc + BitVec.ofNat 64 (lenOf i)

/-- Adds an outstanding result. -/
def Fibre.owe (p : Pend) (f : Fibre) : Fibre := if p.marks = [] ∧ p.trap = none then f else { f with pend := f.pend ++ [p] }

/-- The checkpoint of a fibre retires (R371, R377): the ladder starts again and units released since return (R122). -/
def checkpointRetires (id : FibreId) (s : State) : State :=
  let s := updFibre s id fun f => { f with rbnow := 0, escLevel := 0 }
  let p := partOfCore s id.core
  let s := if (partn s p).level3 = some id then serveNext p s else s
  regrant id (dropClaims id s)

/-- Claims of a level-2 instruction (R377): a slice holds at most 16, and a refused claim is not taken. Of lines of which a commit
holds one, none is claimed (assumption 51). -/
def takeClaims (id : FibreId) (o : DevOp) (s : State) : State :=
  let lines := ((o.keys.filter fun k => k.1 == none).map (·.2)).mergeSort (· ≤ ·)
  if lines.any fun l => commitHolds s (some id) (none, l) then s
  else lines.foldl (fun s l =>
    let slice := servedBy s (64 * l)
    let there := s.msys.claims.filter fun c => servedBy s (64 * c.line) == slice
    if 16 ≤ there.length ∨ lineHeld s (some id) (none, l) = true ∨ s.msys.claims.any (fun c => c.line == l) = true then s
    else { s with msys := { s.msys with claims := s.msys.claims ++ [⟨l, id, incarnation s .core id.core⟩] } }) s

/-- The machine as the fibre's own unfinished or held operations would leave memory and its tiles (R370, R383): used to read
early values. -/
def virtualOp (f : Fibre) (o : DevOp) (s : State) : State :=
  let p := partOfCore s f.id.core
  let asid := asidOf s f
  match o with
  | .store accs _ data => storeAccs (some f.id) (some f.id.core) none (List.zip accs data) (List.zip accs data) [] s
  | .atom accs _ u vals _ | .red accs _ u vals _ => (foldLanes (updateLane f.id p asid u) accs vals s).1
  | .cas accs size xchg vals cmps _ =>
    (List.zip accs (List.zip vals cmps)).foldl (fun s x => (casLane f.id p asid size xchg x.1 x.2.1 x.2.2 s).1) s
  | .publish frames => doPublish (some f.id) (some f.id.core) none frames s
  | .inval lines => doLines false lines s
  | .enq data _ => (doEnq f.launch f.stage data s).1
  | .mat c =>
    match blockOf s f, c.waits with
    | some b, none =>
      setTile s f c.d (matResult c (tileOf s f c.c) (tileOf s f c.d) (gatherRows s b c)) (viewWords (MatForm.wide c.form))
    | _, _ => s
  | .ldacc .. | .stacc .. | .acz .. | .acscl .. | .accvt .. | .acwr .. =>
    let v := { s with msys := { s.msys with claims := [] } }
    (performFor f.id f o v v).s
  | _ => s

/-- The machine as the fibre's earlier operations leave it. -/
def virtualView (f : Fibre) (before : List DevOp) (s : State) : State := before.foldl (fun s b => virtualOp f b s) (drained s)

/-- The writes of a load that reads elements in a state (R184, R253), or the poisoned byte that it meets. -/
def loadFrom (p : Nat) (o : DevOp) (v : State) : Except Nat (List RegWrite) :=
  match o with
  | .load accs size signed dest _ =>
    match accsPoison v accs with
    | some pa => .error pa
    | none => .ok (destWrites dest (accs.map fun a => (a.lane, extendLoad size signed (loadValue v p a))))
  | _ => .ok []

/-- What an early read of a load gives after the fibre's earlier operations: its writes, or a poisoned byte. -/
def earlyLoad (f : Fibre) (before : List DevOp) (o : DevOp) (s : State) : Except Nat (List RegWrite) :=
  loadFrom (partOfCore s f.id.core) o (virtualView f before s)

/-- A tile that a held or unfinished row store depends on is still to be written by a command, or by a row move under way: what a
load after the store reads is not known yet (R152, R326). -/
def tilesAwaited (s : State) (f : Fibre) (before : List DevOp) : Bool :=
  (before.any fun o => match o with
    | .stacc .. => true
    | _ => false) && before.any fun o => o.tiles != [] && tileBusy s f o.tiles

/-- An early value cannot be obtained now: a commit holds a line of it (R360), a link on the way has stopped or the home is down
(R423, R426), or an earlier row store's tile is awaited. -/
def earlyWaits (s : State) (f : Fibre) (before : List DevOp) (accs : List LaneAcc) : Bool :=
  commitHeld s f.id accs || accsHeld s f.id accs || tilesAwaited s f before

/-- The copy that a released command binds the fibre's next instruction to (R329). -/
def DevOp.binds : DevOp → Option Nat
  | .copy c => if c.follow then some c.id else none
  | _ => none

/-- An operation performed at issue. -/
def issueNow (i : Instr) (f : Fibre) (P : Plan) (o : DevOp) (marks : List RegId) (tracked : Bool) (s : State) : State :=
  let r := performOp f.id o s
  if r.ok then
    let s := updFibre r.s f.id fun g =>
      { Fibre.owe ⟨f.seq, marks, some r.writes, 0, none, false⟩ ((g.reserve false P.dests).retire (nextPc i f)) with
        follow := o.binds }
    if tracked && (f.rbnow != 0 || f.escLevel != 0) then checkpointRetires f.id s else s
  else r.s

/-- The fibre holds as many unfinished access instructions as it may (R370). -/
def Fibre.accessesFull (f : Fibre) : Bool := decide (32 ≤ f.unfin.length + f.moving.length)

/-- An access left unfinished (R370, R371). -/
def issueAhead (i : Instr) (f : Fibre) (P : Plan) (o : DevOp) (marks : List RegId) (fills : List TlbEntry) (s : State) : State :=
  if f.accessesFull then s
  else
    let s := if f.escLevel = 2 ∧ f.unfin = [] then takeClaims f.id o s else s
    let rec_ : Held :=
      { seq := f.seq, op := o, snap := f.regs, written := [], marks := [], early := false, vals := [], recheck := false, fills := fills }
    updFibre s f.id fun g =>
      let g := { g with unfin := g.unfin ++ [rec_] }
      Fibre.owe ⟨f.seq, marks, none, 0, none, false⟩ ((g.reserve false P.dests).retire (nextPc i f))

/-- An access whose events take their places one by one from now on (R250, R343): nothing of it is undone. One that names a busy
tile waits (R152). -/
def issueLoose (i : Instr) (f : Fibre) (P : Plan) (o : DevOp) (marks : List RegId) (fills : List TlbEntry) (s : State) : State :=
  if f.accessesFull || portRefuses s f o then s
  else updFibre s f.id fun g =>
    let g := { g with moving := g.moving ++ [({ seq := f.seq, op := o.cutLines, got := [], writes := [], fills := fills } : Moving)] }
    Fibre.owe ⟨f.seq, marks, none, 0, none, false⟩ ((g.reserve false P.dests).retire (nextPc i f))

/-- Lines new to a set. -/
def newLines (old new : List (Option Nat × Nat)) : Nat := (new.filter fun k => !old.contains k).length

/-- A result that is known before its commit: `enq` never answers FULL in an ordered launch (R106). -/
def heldResult : DevOp → Option (List RegWrite)
  | .enq _ d => some [.s d 0]
  | _ => none

/-- What an operation of a quantum may still change, at its commit, of what an early read after it saw: bytes that a `publish`
makes visible, rows that a tile gives, entries of a queue (R383, assumption 51). -/
def DevOp.disturbs (s : State) (f : Fibre) (keys : List (Option Nat × Nat)) (o : DevOp) : Bool :=
  match o with
  | .publish frames => keys.any fun k => k.1 == none && frames.contains (k.2 / 1024)
  | .stacc .. => o.keys.any fun k => keys.contains k
  | .enq .. => ((stage? s f.launch f.stage).map (·.qpages)).getD [] |>.any fun a => keys.any fun k => k.1 == none && k.2 / 1024 == a / 65536
  | _ => false

/-- The claims of other ordered fibres end where the Almanac serves one at level 3 (R377, assumption 51). -/
def clearClaims (id : FibreId) (s : State) : State :=
  { s with msys := { s.msys with claims := s.msys.claims.filter fun c => c.fibre == id || !((fibre? s c.fibre).any (heldMode s)) } }

/-- No other fibre is in the middle of a commit, and none has a claim: the rest of a quantum may be executed while its first events
stand (assumption 51). -/
def mayBegin (s : State) (f : Fibre) : Bool :=
  f.committing || !(s.fibres.any (fun g => g.committing && g.id != f.id) || s.msys.claims.any fun c => c.fibre != f.id)

/-- An operation of a quantum at level 3, served by the Almanac: its events are performed at once, at the fibre's turn, with no early
value (R377). -/
def issueServed (i : Instr) (f : Fibre) (P : Plan) (o : DevOp) (marks : List RegId) (s : State) : State :=
  let s := if f.committing then s else clearClaims f.id s
  if !mayBegin s f then s
  else
    let t := match o with
      | .red accs size u vals _ => holdUpdates f accs size u vals (asidOf s f) s
      | _ => s
    let r := performOp f.id o t
    if r.ok then
      updBlock (updFibre r.s f.id fun g =>
        { Fibre.owe ⟨f.seq, marks, some r.writes, 0, none, false⟩ ((g.reserve true P.dests).retire (nextPc i f)) with
          follow := o.binds, committing := true, qheld := o.keys.foldl addNew g.qheld }) f.launch f.stage f.block
        fun b => { b with committed := true }
    else match o with
      | .red .. => s
      | _ => r.s

/-- The lines that an operation adds to the read set of its quantum, and to the write set (R381). -/
def DevOp.readLines : DevOp → List (Option Nat × Nat)
  | .load accs .. => (accs.flatMap accKeys).foldl addNew []
  | _ => []
/-- The same of the write set. -/
def DevOp.writeLines : DevOp → List (Option Nat × Nat)
  | .store accs .. | .atom accs .. | .cas accs .. => (accs.flatMap accKeys).foldl addNew []
  | _ => []

/-- A load inside a quantum obtains its early value now (R383). -/
def issueEarly (i : Instr) (f : Fibre) (P : Plan) (o : DevOp) (accs : List LaneAcc) (hint : Hint) (marks : List RegId)
    (fills : List TlbEntry) (s : State) : State :=
  let before := f.unfin.map (·.op)
  if earlyWaits s f before accs then s
  else
    match earlyLoad f before o s with
    | .error pa => haltByFibre f .poison pa s
    | .ok ws =>
      updFibre (drawFree accs (noteReads f.id hint 0 accs (crossLinks s f accs))) f.id fun g =>
        Fibre.owe ⟨f.seq, marks, some ws, 0, none, false⟩
          ((Fibre.reserve true P.dests { g with
            unfin := g.unfin ++
              [{ seq := f.seq, op := o, snap := f.regs, written := f.qundo, marks := [], early := true, vals := ws
                 recheck := before.any (DevOp.disturbs s f o.keys), fills := fills }] }).retire (nextPc i f))

/-- An operation inside a quantum (R381, R383, R384, R386): reads obtain early values now; everything else is held. `icinv` acts on
the caches at its retirement, and again at the commit (R182). -/
def issueHeld (i : Instr) (f : Fibre) (P : Plan) (o : DevOp) (marks : List RegId) (tracked ends : Bool) (fills : List TlbEntry)
    (s : State) : State :=
  let first := f.seq == f.qseq
  let early := tracked && match o with
    | .load .. => true
    | _ => false
  let rl := if early then o.readLines else []
  if !first && decide (256 < f.qlines.length + newLines f.qlines rl) then endQuantum f.id s
  else if !first && decide (64 < f.qwrites.length + newLines f.qwrites o.writeLines) then endQuantum f.id s
  else
    let s := if f.escLevel = 2 then takeClaims f.id o s else s
    let note := fun (g : Fibre) => { g with qlines := rl.foldl addNew g.qlines, qwrites := o.writeLines.foldl addNew g.qwrites }
    let sets := fun (t : State) => if (fibre? t f.id).any fun g => g.seq != f.seq then updFibre t f.id note else t
    if f.escLevel = 3 && !ends then sets (issueServed i f P o marks s)
    else match o, tracked with
    | .load accs _ _ _ hint, true => sets (issueEarly i f P o accs hint marks fills s)
    | _, _ =>
      let s := match o with
        | .red accs size u vals _ => holdUpdates f accs size u vals (asidOf s f) s
        | .icinv line => dropInstr f.id.core line s
        | _ => s
      let s := sets (updFibre s f.id fun g =>
        { Fibre.owe ⟨f.seq, marks, heldResult o, 0, none, false⟩
          ((Fibre.reserve true P.dests { g with
            unfin := g.unfin ++
              [{ seq := f.seq, op := o, snap := f.regs, written := f.qundo, marks := [], early := false, vals := [], recheck := false
                 fills := fills }] }).retire (nextPc i f)) with
          follow := o.binds })
      if ends then endQuantum f.id s else s

/-- Register writes, flags and retirement of a result of fixed latency. -/
def retireFixed (f : Fibre) (dests : List RegId) (ws : List RegWrite) (flags : BitVec 32) (pc : Word) (s : State) : State :=
  let ws := standing s f ws
  let s := putWindows (noteShared f ws s) f ws
  updFibre s f.id fun g => (((g.writeAll ws).raise flags).reserve (heldMode s f) dests).retire pc

/-- Writes a window register (R127). -/
def Plan.windowed (P : Plan) : Bool := P.dests.any fun r => match r with
  | .w _ => true
  | _ => false

/-- A translation fault comes from a walk, whose reads cross links and bring records in (R232, R422). -/
def walkedTo (f : Fibre) (t : Trap) (s : State) : State :=
  if t.cause = 0x10 then noteWalk f.id.core (partOfCore s f.id.core) (asidOf s f) (ptrAddr t.regs.tf1) s else s

/-- Carries out an effect. -/
def carry (i : Instr) (f : Fibre) (P : Plan) (s : State) : Eff → State
  | .wait s' => s'
  | .trap t => raiseTrap f.id t (walkedTo f t s)
  | .halt c a => if !f.settled && !heldMode s f then s else haltByFibre f c a s
  | .jump ws pc => retireFixed f P.dests ws 0 pc s
  | .fixed ws flags trap =>
    let s := retireFixed f P.dests ws flags (nextPc i f) s
    match trap with
    | none => s
    | some t => raiseTrap f.id t s
  | .late marks ws =>
    updFibre s f.id fun g =>
      Fibre.owe ⟨f.seq, marks, some ws, 0, none, false⟩ ((g.reserve (heldMode s f) P.dests).retire (nextPc i f))
  | .lateF marks ws flags trap =>
    updFibre s f.id fun g =>
      Fibre.owe ⟨f.seq, marks, some ws, flags, trap, true⟩ ((g.reserve (heldMode s f) P.dests).retire (nextPc i f))
  | .act g => g (retireFixed f [] [] 0 (nextPc i f) s)
  | .op o marks tracked ends fills =>
    let s := fills.foldl (fun s e => useTlb f.id.core (partOfCore s f.id.core) e s) s
    let s := rankLines P.hint o.accs s
    if heldMode s f then issueHeld i f P o marks tracked ends fills s
    else if tracked && !P.windowed && ((s.ahead && decide (f.escLevel < 3)) || !f.settled) then issueAhead i f P o marks fills s
    else if s.ahead && o.accs != [] then issueLoose i f P o marks fills s
    else issueNow i f P o marks tracked s

/-! ## Issue -/

/-- Whether an instruction waits although its checks have passed: for the fibre to be non-speculative (R375). -/
def mustWait (s : State) (f : Fibre) (P : Plan) : Bool := (P.nonspec || P.windowed) && !f.settled && !heldMode s f

/-- Fixed writes that a word makes whatever guard and `em` hold (R66). -/
def putAlways (f : Fibre) (P : Plan) (s : State) : State :=
  if P.always = [] then s else updFibre s f.id fun g => g.writeAll P.always

/-- A register that is read is poisoned: the fibre's own, or its partner's through a window (R127, R403). -/
def readsPoison (s : State) (f : Fibre) (rs : List RegId) : Bool :=
  rs.any fun r => f.poison.contains r || match r with
    | .w i => (windowReg s f i).any fun a => a.1.poison.contains (.v a.2)
    | _ => false

/-- An instruction waits, and with one that ends a window its partner does (R126). -/
def waitFor (f : Fibre) (P : Plan) (s : State) : State :=
  if P.shares then updFibre s f.id fun g => { g with winWait := g.window.isSome } else s

/-- One instruction of a fibre after it may issue: the checks of R157 from check 5 on, then its effect. -/
def issueChecked (i : Instr) (h : Hdr) (f : Fibre) (P : Plan) (s : State) : State :=
  if P.context then raiseTrap f.id (illegalTrap i f 8) s
  else if windowWaits s f P then s
  else if P.operand then raiseTrap f.id (operandTrap i f) s
  else if hazard f (P.names h) then raiseTrap f.id (hazardTrap i f) s
  else
    let m := execMask f h P
    if m ≠ 0 ∧ readsPoison s f (P.srcs ++ guardNames h) then carry i f P s (.halt .poison 0)
    else if m ≠ 0 ∧ mustWait s f P then waitFor f P s
    else if undoFull s f (P.written m) then (if heldMode s f && f.seq != f.qseq then endQuantum f.id s else s)
    else if m = 0 then retireFixed f (P.written m) [] 0 (nextPc i f) (putAlways f P s)
    else carry i f P (putAlways f P s) (P.own m)

/-- One instruction of a fibre: it waits, makes an arrival that it owes, parks, ends its quantum, or issues. -/
def issueFor (i : Instr) (h : Hdr) (f : Fibre) (P : Plan) (s : State) : State :=
  if cannotIssue s f || ladderHolds s f P || awaitsFlags f then s
  else if f.owed != [] && f.regs.level == 0 then arriveOwed f s
  else if quantumDue s f then endQuantum f.id s
  else if h.h && (f.pend != [] || sharedPending s f) then updFibre s f.id fun g => { g with status := .parked }
  else issueChecked i h f P s

/-- The meaning of an instruction word: the selected fibre issues it. -/
def issueWord (i : Instr) (h : Hdr) (plan : State → Fibre → Plan) (s : State) : Host.Outcome State Fault Refusal :=
  match fibre? s s.cur with
  | none => .fault .noFibre
  | some f => .next (issueFor i h f (plan s f) s)

end Sys2Proof.Machine
end

