-- ==== Sys2Proof/Machine/Save.lean ====
section
/-! DEFINITION. Saving a block and restoring it (21 R415 to R420): the stopping point, frames, the SAVE and RESTORE
entries, and what their `rett` does. -/

namespace Sys2Proof.Machine

/-- Virtual address of a save slot (R416). -/
def slotAddr (P : Partn) (k : Nat) : Nat := (wfield P.savepool 51 21 + k) * 2 ^ 21

/-- The translated address of a device access in a context's ASID. -/
def devTranslate (s : State) (core p asid va : Nat) (write : Bool) : Option Nat :=
  match translate s core p asid va with
  | .leaf l => if (write && !l.w) || !populated (l.pa va) || !ownDev s (l.pa va) then none else some (l.pa va)
  | _ => none

/-- Writes bytes that lie on one page of 64 KiB in a context's ASID; `none` where they cannot be written. -/
def devWrite (core p asid va : Nat) (bs : List Byte) (s : State) : Option State :=
  (devTranslate s core p asid va true).map fun pa => writeDev none none (some (p, asid)) pa bs s

/-- The frame of a fibre (R417). -/
def frameOf (f : Fibre) : List Byte :=
  bytesOf 4 f.regs.em.toNat ++ ((List.range 7).flatMap fun i => bytesOf 4 (f.preg (i + 1)).toNat) ++
    (List.range 4).flatMap fun i => bytesOf 8 (f.sreg (28 + i)).toNat

/-- The state that a stopping point records (R415): waiting on a line, a barrier or a ticket, or for registers. -/
def recordedStatus (f : Fibre) : FStatus :=
  let st := if f.regs.level = 0 then f.status else f.regs.frozen
  match st with
  | .current | .parked | .commit => .ready
  | x => x

/-- STATE of `%tf0` (R418). -/
def saveState (level : Nat) (st : FStatus) : Nat :=
  if level = 1 then 5
  else match st with
    | .barrier .. | .ticket _ => 2
    | .acquire => 3
    | .line _ => 4
    | _ => 0

/-- The length of the word at an address: 0 where none can be read there (R451, assumption 63). -/
def wordLength (s : State) (core p asid : Nat) (pc : Word) : Nat :=
  match translate s core p asid (ptrAddr pc) with
  | .leaf l =>
    let pa := l.pa (ptrAddr pc)
    if ownDev s pa && populated pa then (((Len.ofCode ((homeByte s.msys pa).extractLsb' 0 2)).map (·.bytes)).getD 0) else 0
  | _ => 0

/-- The trap registers of a SAVE or RESTORE entry: `%tf3` is 0 for SAVE (R418), and names the word after that at `%tpc`, of `len`
bytes, for RESTORE (R420, R451). -/
def saveRegs (cause : BitVec 32) (r : SaveRec) (len : Nat) : TRegs :=
  { tcause := cause, tpc := r.pc, tmask := 0, tinst := 0, tf0 := r.tf0, tf1 := r.slot, tf2 := r.frame
    tf3 := if cause.toNat % 256 = 0x19 then r.pc + BitVec.ofNat 64 len else 0 }

/-- The lowest fibre index of a block that has not exited. -/
def firstIndex (fs : List Fibre) : Nat :=
  (fs.filter fun f => !f.left).foldl (fun m f => min m f.index) 64

/-- What the block's copies and commands have left to do (R415). -/
def blockBusy (s : State) (b : Block) : Bool :=
  let r := coreOf s b.core
  let mine := fun (l : Word) (st n : Nat) => l == b.launch && st == b.stage && n == b.num
  (r.copies.any fun c => mine c.launch c.stage c.block && !c.landed) || r.mat.any fun c => mine c.launch c.stage c.block

/-- The block has reached its stopping point (R415). -/
def atStop (s : State) (b : Block) : Bool :=
  !blockBusy s b && (fibresOf s b).all fun f =>
    !f.committing && f.pend == [] && f.settled && f.regs.level != 2 && f.waitTrap.isNone && f.copyFaults == []

/-- A fibre enters SAVE or RESTORE at level 2 (R399, R418, R420). -/
def enterSave (cause : BitVec 32) (target : Word) (r : SaveRec) (len clock : Nat) (f : Fibre) : Fibre :=
  let nest : BitVec 32 := if cause = 0x18 ∧ r.level = 1 then 0x400 else 0
  { f with
    saveRec := some r, status := .ready, readySince := clock, waitTrap := none, acquire := none
    regs := { f.regs with t := saveRegs (cause ||| nest ||| 0x800) r len, level := 2, back := r.level, pc := target } }

/-- The record of one fibre at the stopping point. -/
def saveRecOf (slot : Nat) (first : Nat) (f : Fibre) : SaveRec :=
  let st := recordedStatus f
  let lvl := f.regs.level
  { status := st, acquire := f.acquire.map (·.n), level := lvl, back := f.regs.back, tregs := f.regs.t
    tf0 := BitVec.ofNat 64 (saveState lvl st * 2 ^ 56 + (if f.index = first then 256 else 0) + f.index)
    slot := BitVec.ofNat 64 slot, frame := BitVec.ofNat 64 (slot + 256 + 64 * f.index), pc := f.regs.pc }

/-- A halt of a block's context raised by its core. -/
def haltBlock (b : Block) (cause : HaltCause) (addr : Nat) (s : State) : State :=
  match launch? s b.launch with
  | some L => haltContext L.part L.asid cause ⟨.core, b.core, addr, 0, b.launch, true⟩ s
  | none => s

/-- The places of a slot that the device reads and writes: the record and the frames of fibres (R416). -/
def slotPlaces (slot : Nat) (frames : List Nat) : List (Nat × Nat) := (slot, 256) :: frames.map fun i => (slot + 256 + 64 * i, 64)
/-- The bytes of a slot that the device reads and writes, as far as they translate. -/
def slotBytes (s : State) (core p asid slot : Nat) (frames : List Nat) : List Nat :=
  (slotPlaces slot frames).flatMap fun x => match devTranslate s core p asid x.1 false with
    | some pa => (List.range x.2).map (pa + ·)
    | none => []
/-- The device's access to a slot waits: its translation, a link on the way, or the home cannot serve it (R423, R426), or a line is
held for a fibre (R360, R377). -/
def slotHeld (s : State) (core p asid slot : Nat) (frames : List Nat) : Bool :=
  translate s core p asid slot == .wait || (slotBytes s core p asid slot frames).any fun a =>
    a % 64 == 0 && (((s.dev.failed != [] || s.links.any (·.stopped)) && pathHeld s core a) || lineHeld s none (none, a / 64))
/-- A poisoned byte of the record and frames in a slot (R403). -/
def slotPoison (s : State) (core p asid slot : Nat) (frames : List Nat) : Option Nat :=
  (slotBytes s core p asid slot frames).find? fun a => isPoison s.msys a
/-- The device's accesses to a slot cross the links on their way (R422). -/
def crossSlot (core p asid slot : Nat) (frames : List Nat) (s : State) : State :=
  ((slotBytes s core p asid slot frames).filter fun a => a % 64 == 0).foldl (fun s a => useLink core p asid a s) s

/-- The stopping point (R415, R417, R418): frames are written and every fibre not EXITED enters SAVE. -/
def stopBlock (b : Block) (s : State) : State :=
  match b.preempt, launch? s b.launch with
  | .saving k, some L =>
    let p := L.part
    let P := partn s p
    if !atStop s b then s
    else if P.savehdlr = 0 then haltBlock b .nohandler 0 s
    else
      let slot := slotAddr P k
      let fs := fibresOf s b
      let first := firstIndex fs
      let places := fs.map (·.index)
      if slotHeld s b.core p L.asid slot places then s
      else
      let s := crossSlot b.core p L.asid slot places s
      let written := fs.foldl (fun (o : Option State) f =>
        o.bind (devWrite b.core p L.asid (slot + 256 + 64 * f.index) (frameOf f))) (some s)
      match written with
      | none => haltBlock b .badsave 0 s
      | some s =>
        let s := { s with fibres := updIf (fun f => inBlock b f && f.status != .exited) (fun f =>
          enterSave 0x18 P.savehdlr (saveRecOf slot first f) 0 s.clock f) s.fibres }
        updBlock s b.launch b.stage b.num fun b => { b with preempt := .inSave k (fs.map fun f => (f.index, frameOf f)) }
  | _, _ => s

/-- The device's own part of the block state record (R419). -/
def recordImage (n : Nat) : List Byte := (List.range 256).map (Config.saveRecordByte n)

/-- Every fibre of a block has left by the `rett` of its SAVE (R418): the record is written and the block's resources
are released but its expander slot, no fibre of it having exited with the others (R311). -/
def finishSave (b : Block) (s : State) : State :=
  match b.preempt, launch? s b.launch with
  | .inSave k frames, some L =>
    let fs := fibresOf s b
    let slot := slotAddr (partn s L.part) k
    if !(fs.all fun f => f.status == .saved || f.status == .exited) || slotHeld s b.core L.part L.asid slot [] then s
    else
      let s := crossSlot b.core L.part L.asid slot [] s
      match devWrite b.core L.part L.asid slot (recordImage s.freeCtr) s with
      | none => haltBlock b .badsave 0 s
      | some t =>
        let saved : SavedBlock := ⟨{ b with preempt := .none }, fs, k, s.freeCtr, frames⟩
        let t := liftBlock b { t with freeCtr := s.freeCtr + 1 }
        let t := updLaunch t b.launch fun L => { L with saved := L.saved ++ [saved] }
        serveRequest L.part (b.launch, b.stage, b.num) t
  | _, _ => s

/-- `rett` of a SAVE (R418): the fibre leaves its core. -/
def leaveSave (f : Fibre) (s : State) : State :=
  let s := updFibre s f.id fun f => { f with status := .saved, isCur := false }
  match blockOf s f with
  | some b => finishSave b s
  | none => s

/-- Bytes of a block's context as the device reads them, if they translate. -/
def devRead (s : State) (core p asid va n : Nat) : Option (List Byte) :=
  (devTranslate s core p asid va false).map fun pa => homeBytes s.msys pa n

/-- The state record and the frames of a block in a slot are checked (R419): they hold what the device wrote. -/
def slotIntact (s : State) (core p asid slot rec_ : Nat) (frames : List (Nat × List Byte)) : Bool :=
  devRead s core p asid slot 256 == some (recordImage rec_) &&
    frames.all fun x => devRead s core p asid (slot + 256 + 64 * x.1) 64 == some x.2

/-- A saved block's record and frames are checked (R419). -/
def savedIntact (s : State) (L : Launch) (core : Nat) (b : SavedBlock) : Bool :=
  slotIntact s core L.part L.asid (slotAddr (partn s L.part) b.slot) b.rec_ b.frames

/-- A fibre that its RESTORE has brought back, from the frame as the slot holds it (R420). -/
def Fibre.restored (r : SaveRec) (image : List Byte) (clock : Nat) (f : Fibre) : Fibre :=
  let at_ := fun (lo n : Nat) => natAt image lo n
  let st : FStatus := match r.status with
    | .line _ | .acquire => .ready
    | x => x
  let regs : FRegs := { f.regs with
    em := BitVec.ofNat 32 (at_ 0 4)
    p := Vector.ofFn fun i => if i.val = 0 then f.regs.p.getD 0 0 else BitVec.ofNat 32 (at_ (4 * i.val) 4)
    s := Vector.ofFn fun i => if i.val < 28 then f.sreg i.val else BitVec.ofNat 64 (at_ (32 + 8 * (i.val - 28)) 8)
    t := if r.level = 1 then r.tregs else f.regs.t
    level := r.level, back := if r.level = 1 then r.back else 0
    frozen := st, pc := r.pc }
  { f with
    saveRec := none, status := if r.level = 1 then .ready else st, isCur := false, readySince := clock, regs := regs
    qstart := regs, qseq := f.seq }

/-- A method is chosen for a block that has come back from its slot and that a request names (R412). -/
def chooseAgain (p : Nat) (b : Block) (s : State) : State :=
  if (partn s p).reqBlocks.contains (b.launch, b.stage, b.num) then match blockOn s b.launch b.stage b.core with
    | some k => if k.choosable then preemptBlock p true k s else s
    | none => s
  else s

/-- `rett` of a RESTORE (R420): the record and the frames are checked, and the fibre goes on; after the last one the slot is
freed. -/
def leaveRestore (f : Fibre) (r : SaveRec) (s : State) : State :=
  match blockOf s f with
  | none => s
  | some b =>
    match b.preempt with
    | .restoring k rec_ frames =>
      let p := partOfCore s b.core
      let asid := asidOf s f
      let slot := slotAddr (partn s p) k
      let places := frames.map (·.1)
      if slotHeld s b.core p asid slot places then s
      else match slotPoison s b.core p asid slot places with
      | some a => haltBlock b .poison a s
      | none =>
      if !slotIntact s b.core p asid slot rec_ frames then haltBlock b .badsave 0 s
      else
        let s := crossSlot b.core p asid slot places s
        let image := (devRead s b.core p asid (slot + 256 + 64 * f.index) 64).getD []
        let s := updFibre s f.id (Fibre.restored r image s.clock)
        let s := settleAll f (settleTickets b.launch b.stage s)
        if (fibresOf s b).any fun g => g.saveRec.isSome then s
        else
          let s := updPart s p fun P => { P with slots := P.slots.filter (· != k) }
          chooseAgain p b (updBlock s b.launch b.stage b.num fun b => { b with preempt := .none })
    | _ => updFibre s f.id (Fibre.restored r (frameOf f) s.clock)

end Sys2Proof.Machine
end

