-- ==== Sys2Proof/Machine/Control.lean ====
section
/-! DEFINITION. The meanings of opcodes 0x00 to 0x1F (07 R164 to R183): branches, the execution mask, the fibre's own
instructions, waiting, barriers, tickets, launches, queues, traps and special registers. -/

namespace Sys2Proof.Machine

/-- A plan of a uniform instruction that names nothing. -/
def Plan.uni (own : BitVec 32 → Eff) : Plan :=
  { uniform := true, access := false, context := false, operand := false, srcs := [], dests := [], gone := [],
    nonspec := false, always := [], own := own }

/-- Nothing is written. -/
def Eff.none : Eff := .fixed [] 0 Option.none

/-! ## No operation and branches (R139, R165) -/

/-- `nop` (R171). -/
def nopPlan (_ : State) (_ : Fibre) : Plan := Plan.uni fun _ => .none
/-- NOP_8B. -/
def execNop8 (x : OpH) (s : State) := issueWord (.nop8 x) x.h nopPlan s
/-- NOP_12B. -/
def execNop12 (x : OpH) (s : State) := issueWord (.nop12 x) x.h nopPlan s

/-- The target of an IMM16 (R139). -/
def target16 (pc : Word) (off : BitVec 16) : Word := pc + word (4 * sext 16 off.toNat)

/-- `bra` (R165). -/
def braPlan (target : Word → Word) (_ : State) (f : Fibre) : Plan := Plan.uni fun _ => .jump [] (target f.regs.pc)
/-- BRA_12B. -/
def execBra12 (x : OpBr12) (s : State) := issueWord (.bra12 x) x.h (braPlan fun pc => target16 pc x.off) s
/-- BRA_16B. -/
def execBra16 (x : OpBr16) (s : State) := issueWord (.bra16 x) x.h (braPlan fun pc => pc + x.off) s

/-- `brx` and `ret` (R165): the scalar is used whole. -/
def brxPlan (a : Opnd) (_ : State) (f : Fibre) : Plan :=
  { Plan.uni fun _ => .jump [] (readSca f a) with operand := scaBad a, srcs := scaNames a }
/-- BRX. -/
def execBrx (x : OpA) (s : State) := issueWord (.brx x) x.h (brxPlan x.a) s
/-- RET. -/
def execRet (x : OpA) (s : State) := issueWord (.ret x) x.h (brxPlan x.a) s

/-- `call` (R165). -/
def callPlan (len : Nat) (d : BitVec 5) (target : Word → Word) (_ : State) (f : Fibre) : Plan :=
  { Plan.uni fun _ => .jump [.s d.toNat (f.regs.pc + BitVec.ofNat 64 len)] (target f.regs.pc) with dests := [.s d.toNat] }
/-- CALL_12B. -/
def execCall12 (x : OpCall12) (s : State) := issueWord (.call12 x) x.h (callPlan 12 x.d fun pc => target16 pc x.off) s
/-- CALL_16B. -/
def execCall16 (x : OpCall16) (s : State) := issueWord (.call16 x) x.h (callPlan 16 x.d fun pc => pc + x.off) s
/-- CALLX. -/
def execCallx (x : OpDA) (s : State) :=
  issueWord (.callx x) x.h (fun s f =>
    { callPlan 8 x.d (fun _ => readSca f x.a) s f with operand := scaBad x.a, srcs := scaNames x.a }) s

/-! ## The end of a fibre, yielding (R171, R173) -/

/-- `exit` (R173). -/
def exitPlan (s : State) (f : Fibre) : Plan :=
  { Plan.uni fun _ =>
      let held := heldMode s f
      if f.pend != [] || partnerWrites s f || (!held && copiesOut s f) then
        .wait (updFibre s f.id fun f => { f with winWait := f.window.isSome })
      else .op .exit [] false true [] with nonspec := true, shares := true }
/-- EXIT. -/
def execExit (x : OpH) (s : State) := issueWord (.exit x) x.h exitPlan s

/-- Fibres of a slot other than one. -/
def slotMates (s : State) (id : FibreId) : List Fibre :=
  s.fibres.filter fun g => g.id.core == id.core && g.id.pos / 4 == id.pos / 4 && g.id != id

/-- The READY fibre of a slot that has been READY longest; a tie goes to the lower index (R112). -/
def nextReady (gs : List Fibre) : Option Fibre :=
  (gs.filter fun g => g.status == .ready).foldl (fun best g => match best with
    | none => some g
    | some b =>
      if g.readySince < b.readySince ∨ (g.readySince = b.readySince ∧ g.id.pos < b.id.pos) then some g else some b) none

/-- A fibre becomes its slot's current one: the cycle after `clock` is the hand-over (R112). -/
def Fibre.current (clock : Nat) (f : Fibre) : Fibre := { f with isCur := true, status := .current, curSince := clock + 1 }

/-- Issue of a slot passes from a fibre to another, `want` if it names a READY fibre, else the one READY longest (R112,
R171): the next cycle is the hand-over. With no other fibre READY nothing changes. -/
def handOver (id : FibreId) (want : Option Nat) (s : State) : State :=
  let mates := slotMates s id
  let named := want.bind fun t => mates.find? fun g => g.id.pos % 4 == t && g.status == .ready
  match named.orElse fun _ => nextReady mates with
  | none => s
  | some g =>
    let s := updFibre s id fun f => { f with
      isCur := false
      status := if f.status = .current then .ready else f.status
      readySince := if f.status = .current then s.clock else f.readySince }
    updFibre s g.id (Fibre.current s.clock)

/-- `yield` and `fsw` (R171). -/
def yieldPlan (want : Option Nat) (_ : State) (f : Fibre) : Plan := Plan.uni fun _ => .act (handOver f.id want)
/-- YIELD. -/
def execYield (x : OpH) (s : State) := issueWord (.yield x) x.h (yieldPlan none) s
/-- FSW. -/
def execFsw (x : OpFsw) (s : State) := issueWord (.fsw x) x.h (yieldPlan (some x.t.toNat)) s

/-! ## Barriers and tickets (R73, R175 to R177) -/

/-- `bar`, `barv`, `barw`. -/
def barPlan (i : Instr) (x : OpBar) (arrive wait : Bool) (s : State) (f : Fibre) : Plan :=
  { Plan.uni fun _ =>
      let ovbar := arrive && f.regs.xen.getLsbD 8
      if ovbar && f.pending.contains .xflags then .wait s
      else if ovbar && f.regs.xflags.getLsbD 2 then .trap (wordTrap 0x0A i f 0)
      else .op (.barrier x.lvl x.num.toNat arrive wait) [] false true []
    with context := decide (barCount (descOf s f) x.lvl ≤ x.num.toNat), nonspec := arrive }
/-- BAR. -/
def execBar (x : OpBar) (s : State) := issueWord (.bar x) x.h (barPlan (.bar x) x true true) s
/-- BARV. -/
def execBarv (x : OpBar) (s : State) := issueWord (.barv x) x.h (barPlan (.barv x) x true false) s
/-- BARW. -/
def execBarw (x : OpBar) (s : State) := issueWord (.barw x) x.h (barPlan (.barw x) x false true) s

/-- `tkwait` (R177). -/
def tkwaitPlan (t : Nat) (s : State) (f : Fibre) : Plan :=
  { Plan.uni fun _ =>
      match stage? s f.launch f.stage with
      | some g =>
        if ticketOpen g f.block t then .none
        else .act fun s => updFibre s f.id fun f => { f with status := .ticket t, isCur := false }
      | none => .none
    with context := isOrdered s f.launch }
/-- TKWAIT. -/
def execTkwait (x : OpTk) (s : State) := issueWord (.tkwait x) x.h (tkwaitPlan x.t.toNat) s

/-- `tkpass` (R177). -/
def tkpassPlan (t : Nat) (s : State) (f : Fibre) : Plan :=
  { Plan.uni fun _ => .act fun s =>
      settleTickets f.launch f.stage (updStage s f.launch f.stage (passTicket f.block t))
    with context := isOrdered s f.launch, nonspec := true }
/-- TKPASS. -/
def execTkpass (x : OpTk) (s : State) := issueWord (.tkpass x) x.h (tkpassPlan x.t.toNat) s

/-! ## Extended registers and windows (R120 to R126) -/

/-- The registers from `32 + n` to `32 + h`. -/
def extRegs (n h : Nat) : List RegId := (List.range (h - n)).map fun i => .v (32 + n + i)

/-- A shrink to `n` registers would make absent a register of the live window (R122). -/
def shrinkHitsWindow (f : Fibre) (n : Nat) : Bool :=
  match f.window with
  | some (base, len, _) => decide (base < 32 + f.regs.ext) && decide (32 + n < base + len)
  | none => false

/-- The block is cut to `n` registers; its units return to the pool when they may (R122). -/
def shrinkTo (f : Fibre) (n : Nat) (s : State) : State :=
  regrant f.id (updFibre s f.id (Fibre.shrunk n))

/-- Writes a predicate at once; `p0` discards. -/
def putPred (f : Fibre) (d : Nat) (v : BitVec 32) (s : State) : State := updFibre s f.id fun f => f.write (.p d allOnes v)

/-- `regacq` (R120, R121, R125, R385). DEDUCED (assumption 63): a request that needs no more than the fibre holds succeeds at once
(R120), a non-blocking one too while a blocking request of the quadrant is pending. -/
def regacqPlan (i : Instr) (x : OpRegacq) (s : State) (f : Fibre) : Plan :=
  let n := 16 * x.n.toNat
  let h := f.regs.ext
  let d := if x.nb then x.d.toNat else 0
  { Plan.uni fun _ =>
      let older := pendingAcquires s f.id.core (f.id.pos / 16) != []
      let room := if older then none else grantUnits s f n
      let yes := fun (g : State → State) => Eff.act fun s => putPred f d allOnes (g s)
      if 16 * wfield (descOf s f).storage 6 4 < n then .trap (registerTrap i f 2 n)
      else if n = h then yes fun s => s
      else if n < h then
        if shrinkHitsWindow f n then .trap (registerTrap i f 3 n) else yes (shrinkTo f n)
      else if 0 < h ∧ 16 < f.regs.unit0 + n / 16 then .trap (registerTrap i f 5 n)
      else match room with
        | some u => yes fun s => updFibre s f.id (Fibre.grown n u)
        | none =>
          if x.nb && !isOrdered s f.launch then .act (putPred f d 0)
          else .wait (updFibre s f.id fun f => { f with acquire := some ⟨n, s.clock, 0, d, wordOf i⟩, status := .acquire, isCur := false })
    with dests := pdstNames (BitVec.ofNat 3 d), gone := extRegs n h }
/-- REGACQ. -/
def execRegacq (x : OpRegacq) (s : State) := issueWord (.regacq x) x.h (regacqPlan (.regacq x) x) s

/-- `regrel` (R122, R171). -/
def regrelPlan (i : Instr) (_ : State) (f : Fibre) : Plan :=
  { Plan.uni fun _ =>
      if f.regs.ext = 0 then .none
      else if shrinkHitsWindow f 0 then .trap (registerTrap i f 3 0)
      else .act (shrinkTo f 0)
    with gone := extRegs 0 f.regs.ext }
/-- REGREL. -/
def execRegrel (x : OpH) (s : State) := issueWord (.regrel x) x.h (regrelPlan (.regrel x)) s

/-- The fibre at an index of the slot, of the fibre's own group. -/
def groupMate (s : State) (f : Fibre) (t : Nat) : Option Fibre :=
  s.fibres.find? fun g => sameGroup g f && g.id.pos % 4 == t

/-- `win` (R126). The registers that it makes unshared are those of the old span that the new one leaves out, whoever the partner
is (R150, assumption 59). -/
def winPlan (i : Instr) (x : OpWin) (s : State) (f : Fibre) : Plan :=
  let base := x.base.toNat
  let len := x.len.toNat
  let t := x.partner.toNat
  let keeps := fun (r : Nat) => base ≤ r && r < base + len
  { Plan.uni fun _ =>
      let taken := match groupMate s f t with
        | some g => match windowIn s g with
          | some (a, _, _) => a.id != f.id
          | none => false
        | none => false
      if f.pend != [] || partnerWrites s f then .wait (updFibre s f.id fun f => { f with winWait := f.window.isSome })
      else if wfield (descOf s f).storage 12 7 < len then .trap (registerTrap i f 2 len)
      else if isOrdered s f.launch then .trap (registerTrap i f 4 len)
      else if taken then .trap (registerTrap i f 3 len)
      else .act fun s => updFibre s f.id fun f =>
        { f with winWait := false, window := if len = 0 then none else some (base, len, t) }
    with
    operand := (List.range len).any (fun j => !f.present (base + j)) || t == f.id.pos % 4 || (groupMate s f t).isNone
    nonspec := true
    shares := true
    gone := match f.window with
      | some (b, l, _) => ((List.range l).map (b + ·)).filterMap fun r => if keeps r then none else some (.v r)
      | none => [] }
/-- WIN. -/
def execWin (x : OpWin) (s : State) := issueWord (.win x) x.h (winPlan (.win x) x) s

/-! ## Waiting on a line, launches, queues (R84, R174, R179, R180) -/

/-- `wline` (R174). -/
def wlinePlan (i : Instr) (x : OpAB) (s : State) (f : Fibre) : Plan :=
  { Plan.uni fun _ =>
      let a := readSca f x.a &&& ~~~7#64
      afterChecks i f s (combine [(0, a, checkBytes s (ctxOf s f) .line 8 a)]) fun accs fills =>
        match accs with
        | [⟨_, _, [⟨_, _, .dev pa, _, _⟩]⟩] => .op (.wline pa (readSca f x.b)) [] false true fills
        | _ => .none
    with operand := scaBad x.a || scaBad x.b, srcs := scaNames x.a ++ scaNames x.b, nonspec := true, access := true }
/-- WLINE. -/
def execWline (x : OpAB) (s : State) := issueWord (.wline x) x.h (wlinePlan (.wline x) x) s

/-- `launch` (R84, R179). -/
def launchPlan (i : Instr) (x : OpDA) (s : State) (f : Fibre) : Plan :=
  { Plan.uni fun _ =>
      let a := readSca f x.a
      afterChecks i f s (combine [(0, a, checkBytes s (ctxOf s f) .record 128 a)]) fun accs fills =>
        .op (.launch (BitVec.ofNat 64 (ptrAddr a)) (some accs) x.d.toNat) [.s x.d.toNat] false true fills
    with operand := scaBad x.a, srcs := scaNames x.a, dests := [.s x.d.toNat], nonspec := true, access := true }
/-- LAUNCH. -/
def execLaunch (x : OpDA) (s : State) := issueWord (.launch x) x.h (launchPlan (.launch x) x) s

/-- `qend` (R171). -/
def qendPlan (s : State) (f : Fibre) : Plan :=
  Plan.uni fun _ => if heldMode s f then .act (endQuantum f.id) else .none
/-- QEND. -/
def execQend (x : OpH) (s : State) := issueWord (.qend x) x.h qendPlan s

/-- Stages of a launch, for the misuse check of `enq` and `deq` (R103). -/
def stageCount (s : State) (f : Fibre) : Nat := ((launch? s f.launch).map fun L => L.stages.length).getD 0

/-- `enq` (R103, R180). -/
def enqPlan (x : OpDA) (s : State) (f : Fibre) : Plan :=
  { Plan.uni fun _ =>
      .op (.enq ((List.range 16).flatMap fun l => bytesOf 4 (readLane s f false x.a l).toNat) x.d.toNat) [.s x.d.toNat]
        false false []
    with
    context := decide (stageCount s f ≤ f.stage + 1), operand := vecBad s f false x.a, srcs := vecNames false x.a
    dests := [.s x.d.toNat], nonspec := true, access := true }
/-- ENQ. -/
def execEnq (x : OpDA) (s : State) := issueWord (.enq x) x.h (enqPlan x) s

/-- `deq` (R103, R180). -/
def deqPlan (x : OpDeq) (s : State) (f : Fibre) : Plan :=
  { Plan.uni fun _ => .op (.deq x.d.toNat) [.v x.d.toNat] false true []
    with
    context := f.stage == 0
    operand := vdstBad s f false false x.d
    dests := vdstNames false false x.d
    nonspec := true
    access := true }
/-- DEQ. -/
def execDeq (x : OpDeq) (s : State) := issueWord (.deq x) x.h (deqPlan x) s

/-! ## Traps (R181, R397, R400, R418, R420) -/

/-- `trap` (R181). -/
def trapPlan (i : Instr) (x : OpTrap) (_ : State) (f : Fibre) : Plan :=
  Plan.uni fun _ => .trap
    { cause := 0x14, sys := x.sys, seq := f.seq
      regs := plainRegs 0x14 (wordOf i) (lenOf i) f.regs.pc (x.code.setWidth 64) 0 0 }
/-- TRAP. -/
def execTrap (x : OpTrap) (s : State) := issueWord (.trap x) x.h (trapPlan (.trap x) x) s

/-- Where `rett` resumes for the cause that `%tcause` holds (R158, R397, R398). -/
def resumePoint (t : TRegs) : Word :=
  let cause := wfield t.tcause 7 0
  let op := wfield t.tinst 14 7
  if t.tcause.getLsbD 9 then t.tpc
  else if cause = 0x01 ∨ (0x11 ≤ cause ∧ cause ≤ 0x14) then t.tf3
  else if cause = 0x02 then (if wfield t.tf0 63 56 = 0x10 then t.tf3 else t.tpc)
  else if 0x08 ≤ cause ∧ cause ≤ 0x0C then (if cause = 0x0A ∧ (op = 0x09 ∨ op = 0x0A) then t.tpc else t.tf3)
  else t.tpc

/-- The engine resumes a copy that stopped at a fault (R262). -/
def resumeCopy (core : Nat) (id : Option Nat) (s : State) : State :=
  match id with
  | none => s
  | some k => setCore s core { coreOf s core with
      copies := updIf (fun c => c.id == k) (fun c => { c with stopped := false }) (coreOf s core).copies }

/-- `rett` returns a fibre one level (R400): to level 0 in the state it was frozen in. -/
def returnTrap (f : Fibre) (s : State) : State :=
  let top := (f.regs.resume.head?).getD none
  let level := if f.regs.level = 2 then f.regs.back else 0
  let pc := match top with
    | some r => r.pc
    | none => resumePoint f.regs.t
  let s := updFibre s f.id fun g => { g with
    status := if level = 0 then g.regs.frozen else .ready
    isCur := false, readySince := s.clock, seq := g.seq + 1, follow := top.bind (·.follow)
    regs := { g.regs with
      level := level, back := 0, pc := pc, resume := g.regs.resume.drop 1
      frozen := if level = 0 then .ready else g.regs.frozen } }
  let s := resumeCopy f.id.core (top.bind (·.copy)) s
  match (if level = 0 then f.regs.frozen else .ready) with
  | .barrier lvl num _ _ _ => settleBarrier f lvl num (2 * (barMembers s f lvl).length + 2) s
  | .exited => match blockOf s f with
    | some b => settleAdmissions f.launch s (tryEndBlock b s)
    | none => s
  | _ => s

/-- `rett` (R400, R418, R420). A SAVE or RESTORE handler's own accesses are performed first. -/
def rettPlan (s : State) (f : Fibre) : Plan :=
  { Plan.uni fun _ =>
      let cause := wfield f.regs.t.tcause 7 0
      let handler := f.regs.level == 2 && (cause == 0x18 || cause == 0x19)
      if f.pend != [] || (handler && !f.settled) then .wait s
      else if handler && cause == 0x18 then .wait (leaveSave f s)
      else if handler then match f.saveRec with
        | some r => .wait (leaveRestore f r s)
        | none => .wait (returnTrap f s)
      else .wait (returnTrap f s)
    with context := f.regs.level == 0 }
/-- RETT. -/
def execRett (x : OpH) (s : State) := issueWord (.rett x) x.h rettPlan s

/-! ## The execution mask and predicates (R167 to R170) -/

/-- The new `em` (R169). -/
def emNext (op : EmOp) (f : Fibre) (a : Opnd) : BitVec 32 :=
  match op with
  | .set => readPred f a
  | .and => f.regs.em &&& readPred f a
  | .andn => f.regs.em &&& ~~~(readPred f a)
  | .ld => (readSca f a).setWidth 32

/-- `emset` (R169). -/
def emsetPlan (x : OpEmset) (_ : State) (f : Fibre) : Plan :=
  { Plan.uni fun _ =>
      let em := emNext x.op f x.a
      .act fun s => updFibre s f.id fun f => { f with regs := { f.regs with em := em } }
    with
    operand := if x.op = .ld then scaBad x.a else predBad x.a
    srcs := (if x.op = .ld then scaNames x.a else predNames x.a), dests := [.em] }
/-- EMSET. -/
def execEmset (x : OpEmset) (s : State) := issueWord (.emset x) x.h (emsetPlan x) s

/-- `emget` (R167). -/
def emgetPlan (x : OpD) (_ : State) (f : Fibre) : Plan :=
  { Plan.uni fun _ => .fixed [.s x.d.toNat (f.regs.em.setWidth 64)] 0 none with srcs := [.em], dests := [.s x.d.toNat] }
/-- EMGET. -/
def execEmget (x : OpD) (s : State) := issueWord (.emget x) x.h (emgetPlan x) s

/-- `bpr` (R165, R170). -/
def bprPlan (len : Nat) (c : BprCond) (a : Opnd) (target : Word → Word) (_ : State) (f : Fibre) : Plan :=
  { Plan.uni fun m =>
      if predTest c (readPred f a) (f.regs.em &&& m) then .jump [] (target f.regs.pc)
      else .jump [] (f.regs.pc + BitVec.ofNat 64 len)
    with operand := predBad a, srcs := .em :: predNames a }
/-- BPR_12B. -/
def execBpr12 (x : OpBpr12) (s : State) := issueWord (.bpr12 x) x.h (bprPlan 12 x.c x.a fun pc => target16 pc x.off) s
/-- BPR_16B. -/
def execBpr16 (x : OpBpr16) (s : State) := issueWord (.bpr16 x) x.h (bprPlan 16 x.c x.a fun pc => pc + x.off) s

/-! ## The instruction cache and special registers (R119, R182, R183, R378, R379) -/

/-- The physical line that an address names, if it translates. DESIGN CHOICE (assumption 63): the bits of a tag are ignored. -/
def lineOf (s : State) (f : Fibre) (p : Word) : Option Nat :=
  let c := ctxOf s f
  match translate s c.core c.part c.asid (ptrAddr p) with
  | .leaf l => some (l.pa (ptrAddr p) / 64)
  | _ => none

/-- `icinv` (R182). An address that does not translate names no line. -/
def icinvPlan (x : OpIcinv) (s : State) (f : Fibre) : Plan :=
  match x.line with
  | none => { Plan.uni fun _ => .op (.icinv none) [] false false [] with nonspec := true }
  | some a =>
    { Plan.uni fun _ => match lineOf s f (readSca f a) with
        | some l => .op (.icinv (some l)) [] false false []
        | none => .none
      with operand := scaBad a, srcs := scaNames a, nonspec := true }
/-- ICINV. -/
def execIcinv (x : OpIcinv) (s : State) := issueWord (.icinv x) x.h (icinvPlan x) s

/-- The value of a special register (R119, R379). -/
def srdValue (s : State) (f : Fibre) (num : Nat) : Word :=
  let n := fun (k : Nat) => BitVec.ofNat 64 k
  let t := f.regs.t
  let timed := fun (v : Word) => if isOrdered s f.launch then 0 else v
  match num with
  | 0x01 => n f.index
  | 0x02 => n f.block
  | 0x03 => n (wfield (descOf s f).fibres 6 0)
  | 0x04 => n f.gindex
  | 0x05 => n f.id.core
  | 0x06 => n f.id.pos
  | 0x07 => n f.stage
  | 0x08 => f.launch
  | 0x09 => f.regs.lclock
  | 0x0A => n f.regs.ext
  | 0x10 => t.tcause.setWidth 64
  | 0x11 => t.tpc
  | 0x12 => t.tmask.setWidth 64
  | 0x14 => t.tf0
  | 0x15 => t.tf1
  | 0x16 => t.tf2
  | 0x17 => t.tf3
  | 0x18 => f.regs.xflags.setWidth 64
  | 0x19 => f.regs.xen.setWidth 64
  | 0x20 => f.escthr.setWidth 64
  | 0x21 => timed f.rbcount
  | 0x22 => timed f.esc1
  | 0x23 => timed f.esc2
  | 0x24 => timed f.esc3
  | 0x25 => timed f.qredo
  | 0x26 => f.qcount
  | 0x27 => timed f.hrufb
  | 0x28 => timed f.rbnow
  | _ => 0

/-- What `srd` writes. -/
def srdWrites (s : State) (f : Fibre) (num d : Nat) : List RegWrite :=
  if num = 0 then [.v d allOnes (mkV fun l => BitVec.ofNat 32 l)]
  else if num = 0x13 then
    [.s d (f.regs.t.tinst.extractLsb' 0 64), .s (d + 1) (f.regs.t.tinst.extractLsb' 64 64)]
  else [.s d (srdValue s f num)]

/-- `srd` (R183). -/
def srdPlan (x : OpSrd) (s : State) (f : Fibre) : Plan :=
  let num := x.num.toNat
  let d := x.d.toNat
  { Plan.uni fun _ => .fixed (srdWrites s f num d) 0 none
    with
    operand := if num = 0 then vdstBad s f false false x.d else num == 0x13 && d % 2 == 1
    srcs := if num = 0x18 then [.xflags] else []
    dests := if num = 0 then [.v d] else if num = 0x13 then [.s d, .s (d + 1)] else [.s d] }
/-- SRD. -/
def execSrd (x : OpSrd) (s : State) := issueWord (.srd x) x.h (srdPlan x) s

/-- What `swr` changes: reserved bits are ignored (R11, R183, R378). -/
def swrPut (num : Nat) (v : BitVec 32) (f : Fibre) : Fibre :=
  if num = 0x18 then { f with regs := { f.regs with xflags := v &&& 0x1F } }
  else if num = 0x19 then { f with regs := { f.regs with xen := v &&& 0x1011F } }
  else if num = 0x20 then { f with escthr := v &&& 0xFFFFFF }
  else f

/-- `swr` (R183). -/
def swrPlan (x : OpSwr) (_ : State) (f : Fibre) : Plan :=
  { Plan.uni fun _ =>
      let v := (readSca f x.a).setWidth 32
      .act fun s => updFibre s f.id (swrPut x.num.toNat v)
    with operand := scaBad x.a, srcs := scaNames x.a, dests := (if x.num = 0x18 then [.xflags] else []), nonspec := true }
/-- SWR. -/
def execSwr (x : OpSwr) (s : State) := issueWord (.swr x) x.h (swrPlan x) s

end Sys2Proof.Machine
end

