-- ==== Sys2Proof/Machine/Fetch.lean ====
section
/-! DEFINITION. Fetching and decoding the next word of a fibre (06 R132 to R135, R155 to R157, 07 R165, R182, 21 R398):
translation of its fetch block, the instruction cache, and the traps that stand before issue. -/

namespace Sys2Proof.Machine

/-! ## The fetch block -/

/-- What fetching a block gives: its bytes from the word's first byte to the block's end, with the leaf that mapped it. -/
inductive Fetched where
  | bytes (bs : List Byte) (l : Leaf)
  | fault (f : AFault)
  | halt (c : HaltCause) (addr : Nat)
  /-- A link on the way has stopped, or an agent is down (R423, R426). -/
  | wait
  deriving DecidableEq, Repr

/-- The bytes of an instruction line as a quadrant's L0 cache holds it, else as the core's L1 instruction cache does (R182). -/
def heldLine (s : State) (core quad line : Nat) : Option (List Byte) :=
  match (coreOf s core).l0.find? fun e => e.1 == quad && e.2.1 == line with
  | some e => some e.2.2
  | none => ((coreOf s core).icache.find? fun e => e.1 == line).map (·.2)

/-- The bytes of an instruction line: as the caches hold it, else as its home does (R182). -/
def lineBytes (s : State) (core quad line : Nat) : List Byte := (heldLine s core quad line).getD (homeBytes s.msys (64 * line) 64)

/-- The fetch of the block that holds a word (R133, R157 check 1, R165, R224, R398, R403). DESIGN CHOICE (assumption 63): a fetch from
a foreign frame takes a fetch fault, REMOTE. -/
def fetchBlock (s : State) (x : Ctx) (quad : Nat) (pc : Word) : Fetched :=
  if wfield pc 63 52 ≠ 0 then .fault .space
  else
    match translate s x.core x.part x.asid pc.toNat with
    | .fault f => .fault f
    | .unread a => .halt .uncorrectable a
    | .violation a => .halt .protection a
    | .wait => .wait
    | .leaf l =>
      let pa := l.pa pc.toNat
      let base := pa / 32 * 32
      let held := (heldLine s x.core quad (pa / 64)).isSome
      if !l.x then .fault .exec
      else if foreignTo s x.part pa then .fault .remote
      else if paRegion pa ≠ 0 ∨ populated pa = false then .halt .protection pa
      else if !held && pathHeld s x.core pa then .wait
      else
        match (if held then none else ((List.range 32).map (base + ·)).find? fun a => isPoison s.msys a) with
        | some a => .halt .poison a
        | none => .bytes (((lineBytes s x.core quad (pa / 64)).drop (pa % 64)).take (32 - pa % 32)) l

/-- Lines of an L0 instruction cache and of a core's L1 instruction cache: 16 KiB and 64 KiB (R16). -/
def l0Lines : Nat := 256
/-- The same of the L1 instruction cache. -/
def l1iLines : Nat := 1024

/-- A line enters the caches on its way to a quadrant, unless a byte of it is poisoned; a full cache lets its oldest line go
(R16, R182). -/
def fillInstr (core quad line : Nat) (s : State) : State :=
  let r := coreOf s core
  if r.l0.any fun e => e.1 == quad && e.2.1 == line then s
  else if (heldLine s core quad line).isNone && (List.range 64).any fun i => isPoison s.msys (64 * line + i) then s
  else
    let bs := lineBytes s core quad line
    let mine := r.l0.filter fun e => e.1 == quad
    let l0 := if l0Lines ≤ mine.length then (match mine with
      | e :: _ => r.l0.erase e
      | [] => r.l0) else r.l0
    let icache := if r.icache.any fun e => e.1 == line then r.icache
      else (if l1iLines ≤ r.icache.length then r.icache.drop 1 else r.icache) ++ [(line, bs)]
    setCore s core { r with icache := icache, l0 := l0 ++ [(quad, line, bs)] }

/-- A line is fetched: from its home, where no cache of the core holds it. -/
def fetchLine (x : Ctx) (quad va : Nat) (l : Leaf) (s : State) : State :=
  let line := l.pa va / 64
  let s := useTlb x.core x.part (tlbEntry x.asid va l) s
  fillInstr x.core quad line
    (if (heldLine s x.core quad line).isSome then s else noteStack line (useLink x.core x.part x.asid (64 * line) s))

/-- The L0 prefetches the block at an address; whatever stands in the way of it, it raises nothing (R133). -/
def prefetchBlock (x : Ctx) (quad va : Nat) (s : State) : State :=
  match translate s x.core x.part x.asid va with
  | .leaf l =>
    let pa := l.pa va
    if l.x && !foreignTo s x.part pa && populated pa && !pathHeld s x.core pa then fetchLine x quad va l s else s
  | _ => s

/-- What a fetch leaves behind: the translation, and the line in the instruction caches, with that of the next sequential block
(R16, R133). -/
def noteFetch (x : Ctx) (quad : Nat) (pc : Word) (l : Leaf) (s : State) : State :=
  let s := fetchLine x quad pc.toNat l s
  let next := (pc.toNat / 32 + 1) * 32 % 2 ^ 52
  if next % 64 = 0 then prefetchBlock x quad next s else s

/-- The trap of a fetch fault (R398): `pc` is the instruction it is taken at and `at_` the fetch address. -/
def fetchTrap (f : Fibre) (e : AFault) (pc at_ : Word) : Trap :=
  { cause := e.cause, sys := true, seq := f.seq
    regs := { tcause := e.cause.setWidth 32 ||| 0x200, tpc := pc, tmask := 0, tinst := 0
              tf0 := BitVec.ofNat 64 e.sub, tf1 := at_, tf2 := 0, tf3 := pc } }

/-! ## The word -/

/-- REASON codes of R156 for a word that is no instruction. -/
def reasonCode : Reason → Nat
  | .opcode => 1 | .length => 2 | .sub => 3 | .mod => 4 | .field => 5 | .special => 6 | .noLength | .short => 0x12

/-- The bits of a word whose fields lie wholly in its first `k` bytes; the others read as 0 (R155). -/
def wholeFields (w k : Nat) : Nat :=
  let keep := if k < 8 then 25 else if k < 12 then 64
    else match layoutOf (field w 14 7) with
      | .w => 64
      | .d => 80
      | .e => 96
  w % 2 ^ keep

/-- BOUNDARY, MISALIGNED (R155). -/
def misalignedTrap (f : Fibre) : Trap :=
  { cause := 0x02, sys := false, seq := f.seq
    regs := { tcause := 0x02, tpc := f.regs.pc, tmask := 0, tinst := 0, tf0 := BitVec.ofNat 64 (0x11 * 2 ^ 56), tf1 := 0
              tf2 := 0, tf3 := f.regs.pc } }
/-- LENGTH (R135, R155), from the bytes up to the block's end. -/
def lengthTrap (f : Fibre) (bs : List Byte) : Trap :=
  let w := natOf (bs.take 8)
  { cause := 0x03, sys := false, seq := f.seq
    regs := { wordRegs 0x03 (BitVec.ofNat 128 (wholeFields w (min 8 bs.length))) 0 0x12 f.regs.pc with
              tinst := BitVec.ofNat 128 w } }
/-- BOUNDARY, CROSS (R133, R155): the bytes up to the block's end. -/
def crossTrap (f : Fibre) (len : Nat) (bs : List Byte) : Trap :=
  let w := natOf bs
  { cause := 0x02, sys := false, seq := f.seq
    regs := { wordRegs 0x02 (BitVec.ofNat 128 (wholeFields w bs.length)) len 0x10 f.regs.pc with
              tinst := BitVec.ofNat 128 w } }

/-- What stands at a fibre's pc. -/
inductive NextWord where
  | instr (i : Instr)
  /-- No instruction (check 5 of R157): its H bit and its trap. -/
  | bad (hold : Bool) (t : Trap)
  /-- Checks 1 to 4 of R157. -/
  | trap (t : Trap)
  | halt (c : HaltCause) (addr : Nat)
  | wait
  deriving DecidableEq, Repr

/-- The word that bytes hold, as far as their block's end (R132 to R135, R155, R157). -/
def wordAt (f : Fibre) (bs : List Byte) : NextWord :=
  if f.regs.pc.toNat % 4 ≠ 0 then .trap (misalignedTrap f)
  else
    match Len.ofCode ((bs.headD 0).extractLsb' 0 2) with
    | none => .trap (lengthTrap f bs)
    | some l =>
      if bs.length < l.bytes then .trap (crossTrap f l.bytes bs)
      else
        let w := BitVec.ofNat 128 (natOf (bs.take l.bytes))
        match decode bs with
        | .ok (i, _) => .instr i
        | .error e =>
          .bad (w.getLsbD 2)
            { cause := 0x01, sys := false, seq := f.seq, regs := wordRegs 0x01 w l.bytes (reasonCode e) f.regs.pc }

/-- The next word of a fibre, and the state after its fetch. -/
def nextWord (s : State) (f : Fibre) : State × NextWord :=
  let x := ctxOf s f
  match fetchBlock s x (f.id.pos / 16) f.regs.pc with
  | .fault e => (s, .trap (fetchTrap f e f.regs.pc f.regs.pc))
  | .halt c a => (s, .halt c a)
  | .wait => (s, .wait)
  | .bytes bs l => (noteFetch x (f.id.pos / 16) f.regs.pc l s, wordAt f bs)

/-- The word after a copy with FOLLOW = 1 as far as R256 needs it: a matrix command, another word, or no fetch. -/
inductive Follower where
  | matrix | other
  | fault (e : AFault)
  | halt (c : HaltCause) (addr : Nat)
  | wait
  deriving DecidableEq, Repr

/-- What the header of the word after a copy names (R256). DEDUCED (assumption 63): its OP and L alone say whether it is a matrix
command, whatever the rest of the word holds. -/
def follower (s : State) (f : Fibre) : Follower :=
  match fetchBlock s (ctxOf s f) (f.id.pos / 16) (f.regs.pc + 16) with
  | .fault e => .fault e
  | .halt c a => .halt c a
  | .wait => .wait
  | .bytes bs _ =>
    let w := natOf (bs.take 2)
    if 0xE0 ≤ field w 14 7 ∧ field w 14 7 ≤ 0xE3 ∧ field w 1 0 = 2 then .matrix else .other

/-! ## What happens before issue -/

/-- A fibre whose next word is no instruction, or cannot be fetched: it waits, ends its quantum, parks, traps or halts its
context. -/
def issueNone (f : Fibre) (w : NextWord) (s : State) : State :=
  if cannotIssue s f || ladderDue f then s
  else if f.owed != [] && f.regs.level == 0 then arriveOwed f s
  else if quantumDue s f then endQuantum f.id s
  else
    match w with
    | .instr _ | .wait => s
    | .trap t => raiseTrap f.id t s
    | .halt c a => if !f.settled && !heldMode s f then s else haltByFibre f c a s
    | .bad hold t =>
      if awaitsFlags f then s
      else if hold && (f.pend != [] || sharedPending s f) then updFibre s f.id fun g => { g with status := .parked }
      else raiseTrap f.id t s

end Sys2Proof.Machine
end

