-- ==== Sys2Proof/Machine/Async.lean ====
section
/-! DEFINITION. The events that move fibres on between their instructions: results written (06 R148), issue passing to
another fibre (05 R112), trap entry (21 R399, R450), accesses performed, rollbacks and the ladder (18 R370 to R377), and
the REGISTER traps of waiting requests (05 R123, R125). An event whose conditions do not hold changes nothing. -/

namespace Sys2Proof.Machine

/-! ## Results (R148, R149) -/

/-- Registers with a result's writes made and its flags set. -/
def FRegs.deliver (p : Pend) (ws : List RegWrite) (r : FRegs) : FRegs :=
  let r := ws.foldl (fun r w => r.put w) r
  { r with xflags := r.xflags ||| p.flags }

/-- A result is written: it leaves the outstanding ones, and it stands in every later checkpoint (assumption 14). -/
def Fibre.deliver (p : Pend) (ws : List RegWrite) (f : Fibre) : Fibre :=
  let g := (f.writeAll ws).raise p.flags
  { g with
    pend := g.pend.filter fun q => q.seq != p.seq
    unfin := g.unfin.map fun h => if p.seq < h.seq then { h with snap := h.snap.deliver p ws } else h
    qstart := if p.seq < g.qseq then g.qstart.deliver p ws else g.qstart }

/-- A result of a fibre is written (R72, R127, R148). -/
def deliverPend (id : FibreId) (p : Pend) (ws : List RegWrite) (s : State) : State :=
  match fibre? s id with
  | none => s
  | some f =>
    let ws := standing s f ws
    let s := updFibre (putWindows (noteShared f ws s) f ws) id fun f => f.deliver p ws
    let s := settleParked s
    match p.trap with
    | some t => raiseTrap id t s
    | none => s

/-- Lines of early values that a fibre takes: an access marks them (R373). -/
def Fibre.markEarly (seq : Nat) (keys : List (Option Nat × Nat)) (f : Fibre) : Fibre :=
  { f with unfin := f.unfin.map fun h => if h.seq = seq then { h with marks := keys, early := true } else h }

/-- The accesses of a fibre before a place in program order that are still to be performed. -/
def Fibre.earlierOps (seq : Nat) (f : Fibre) : List DevOp :=
  ((f.moving.filter fun m => m.seq < seq).map (·.op)) ++ (f.unfin.filter fun g => g.seq < seq).map (·.op)

/-- An early value may be taken for an unfinished access (R370, R377). -/
def mayReadEarly (s : State) (f : Fibre) : Bool :=
  !heldMode s f && !f.conflict && decide (f.escLevel < 3) && !ladderDue f

/-- VARIABLE_LATENCY_WRITE (R148): the result of the instruction at a place in program order is written, an unfinished
load obtaining an early value (R370). -/
def execVariableLatencyWrite (id : FibreId) (seq : Nat) (s : State) : Host.Outcome State Fault Refusal :=
  .next <| match fibre? s id with
  | none => s
  | some f =>
    match f.pend.find? fun p => p.seq == seq with
    | none => s
    | some p =>
      match p.writes with
      | some ws => deliverPend id p ws s
      | none =>
        match f.unfin.find? fun h => h.seq == seq with
        | none => s
        | some h =>
          match h.op with
          | .load accs _ _ _ hint =>
            if h.early || !mayReadEarly s f || earlyWaits s f (f.earlierOps seq) accs then s
            else
              match earlyLoad f (f.earlierOps seq) h.op s with
              | .error _ => s
              | .ok ws =>
                let s := updFibre (drawFree accs (noteReads id hint 0 accs (crossLinks s f accs))) id (Fibre.markEarly seq h.op.keys)
                deliverPend id p ws s
          | _ => s

/-! ## Slots (R112) -/

/-- The fibre of a slot that is its current one. -/
def slotCurrent (s : State) (core slot : Nat) : Option Fibre :=
  s.fibres.find? fun f => f.id.core == core && f.id.pos / 4 == slot && f.isCur

/-- A slot's turn (R112): a slot with no current fibre takes the fibre READY longest; a current fibre gives issue up once it has
left CURRENT or another has been READY for 12 cycles while it was current. One that has left CURRENT and is the fibre READY longest
is current again. -/
def slotTurn (core slot : Nat) (s : State) : State :=
  let here := s.fibres.filter fun f => f.id.core == core && f.id.pos / 4 == slot
  match slotCurrent s core slot, nextReady here with
  | _, none => s
  | none, some g => updFibre s g.id (Fibre.current s.clock)
  | some f, some g =>
    if f.status = .current ∧ s.clock < max g.readySince f.curSince + 12 then s
    else if g.id = f.id then updFibre s f.id fun f => { f with status := .current }
    else handOver f.id none s

/-- SLOT_HANDOVER (R112). -/
def execSlotHandover (core slot : Nat) (s : State) : Host.Outcome State Fault Refusal := .next (slotTurn core slot s)

/-! ## Trap entry (R262, R376, R399, R450) -/

/-- The trap of a copy fault (R262, R451). -/
def copyTrap (f : Fibre) (c : CopyFault) : Trap :=
  let len := ((Len.ofCode (c.inst.extractLsb' 0 2)).map (·.bytes)).getD 0
  { cause := c.cause, sys := c.cause == 0x10, seq := f.seq
    regs := { tcause := c.cause.setWidth 32, tpc := c.pc, tmask := 1, tinst := c.inst, tf0 := BitVec.ofNat 64 c.sub
              tf1 := c.addr, tf2 := BitVec.ofNat 64 c.done, tf3 := c.pc + BitVec.ofNat 64 len } }

/-- TRAP_ENTRY (R399): a waiting trap is entered once nothing stands in its way; then held copy faults, one at a time. -/
def execTrapEntry (id : FibreId) (s : State) : Host.Outcome State Fault Refusal :=
  .next <| match fibre? s id with
  | none => s
  | some f =>
    if f.status == .saved || !canEnter s f then s
    else
      match f.waitTrap, f.copyFaults with
      | some t, _ => enterTrap id t .ready none s
      | none, [] => s
      | none, c :: rest =>
        if f.regs.level = 2 then s
        else
          let ret : Resume := ⟨f.regs.pc, if c.resumes then some c.id else none, f.follow⟩
          enterTrap id (copyTrap f c) f.status.freeze (some ret) (updFibre s id fun f => { f with copyFaults := rest })

/-! ## Unfinished accesses (R370 to R374) -/

/-- The oldest unfinished access of a fibre has been performed with a result (R371). -/
def Fibre.finish (h : Held) (ws : List RegWrite) (early : Bool) (f : Fibre) : Fibre :=
  { f with
    unfin := f.unfin.filter fun g => g.seq != h.seq
    pend := if early then f.pend
      else updIf (fun p => p.seq == h.seq) (fun p => { p with writes := some ws }) f.pend }

/-- An element of a Host-noncoherent page. -/
def LaneAcc.loose (a : LaneAcc) : Bool := a.parts.any fun p => p.kind == .hostNon

/-- Of two events of one fibre the earlier in program order comes first: on one line (R348), and where neither is on a
Host-noncoherent page (R349). -/
def accOrdered (a b : LaneAcc) : Bool := (!a.loose && !b.loose) || (accKeys a).any fun k => (accKeys b).contains k

/-- An operation waits for an access of its fibre that is still being performed (R370). -/
def opWaits (m : Moving) (o : DevOp) : Bool :=
  o.accs.isEmpty || m.op.accs.any fun a => o.accs.any fun b => accOrdered a b

/-- ACCESS_PERFORMED (R370): the oldest unfinished access of a fibre takes its place in the total order. An early value
stands. -/
def execAccessPerformed (id : FibreId) (s : State) : Host.Outcome State Fault Refusal :=
  .next <| match fibre? s id with
  | none => s
  | some f =>
    if heldMode s f || f.conflict || ladderDue f then s
    else
      match f.unfin with
      | [] => s
      | h :: _ =>
        if f.moving.any fun m => opWaits m h.op then s
        else if h.early then
          if commitHeld s id h.op.accs then s else
          let hint := match h.op with
            | .load _ _ _ _ x => x
            | _ => .none
          checkpointRetires id (updFibre (noteReads id hint 0 h.op.accs s) id (Fibre.finish h [] true))
        else
          let r := performOp id h.op s
          if r.ok then checkpointRetires id (updFibre r.s id (Fibre.finish h r.writes false)) else r.s

/-- The oldest unfinished access of a fibre begins to be performed event by event; no rollback reaches it from now on
(assumption 54). -/
def loosen (id : FibreId) (s : State) : State :=
  match fibre? s id with
  | none => s
  | some f =>
    match f.unfin with
    | [] => s
    | h :: rest =>
      if heldMode s f || f.conflict || h.early || f.escLevel != 0 || h.op.accs.isEmpty then s
      else
        let m : Moving := { seq := h.seq, op := h.op.cutLines, got := [], writes := [], fills := h.fills }
        checkpointRetires id (updFibre s id fun f => { f with unfin := rest, moving := f.moving ++ [m] })

/-- Values read by lane, with more of their bytes. -/
def addBytes (got new : List (Nat × BitVec 64)) : List (Nat × BitVec 64) :=
  new.foldl (fun t x => if t.any (fun y => y.1 == x.1) then t.map fun y => if y.1 = x.1 then (y.1, y.2 + x.2) else y else t ++ [x]) got

/-- What an access that has been performed event by event answers. -/
def Moving.result (m : Moving) : List RegWrite :=
  match m.op with
  | .load _ size signed dest _ => destWrites dest (m.got.map fun x => (x.1, extendLoad size signed x.2))
  | _ => m.writes

/-- The next event of an access that is being performed: those of other agents may have come between (R250, R343). With the last one
the access is performed, and a checkpoint retires where the ladder stood at it (R377). -/
def performPart (id : FibreId) (seq : Nat) (s0 : State) : State :=
  match fibre? s0 id with
  | none => s0
  | some f0 =>
    match f0.moving.find? fun m => m.seq == seq with
    | none => s0
    | some m =>
      let (now, later) := m.op.splitAt m.op.step
      if (f0.moving.takeWhile fun x => x.seq != seq).any fun x => opWaits x now then s0
      else
        let s := drained s0
        let done := fun (s : State) (got : List (Nat × BitVec 64)) (ws : List RegWrite) =>
          let m' := { m with op := later, got := addBytes m.got got, writes := m.writes ++ ws }
          if later.accs.isEmpty then
            let s := updFibre s id fun f => { f with
              moving := f.moving.filter fun x => x.seq != seq
              pend := updIf (fun p => p.seq == seq) (fun p => { p with writes := some m'.result }) f.pend }
            if f0.unfin == [] && (f0.rbnow != 0 || f0.escLevel != 0) then checkpointRetires id s else s
          else updFibre s id fun f => { f with moving := updIf (fun x => x.seq == seq) (fun _ => m') f.moving }
        match now with
        | .load accs _ _ _ hint =>
          if accsHeld s id accs || commitHeld s id accs then s0
          else match readElems id f0 hint accs (crossLinks s f0 accs) with
            | .error pa => haltByFibre f0 .poison pa s
            | .ok (s, vals) => done s vals []
        | _ =>
          let r := performPast id now s0
          if r.ok then done r.s [] r.writes else r.s

/-- ROLLBACK (R374): a conflict returns the fibre to its checkpoint. -/
def execRollback (id : FibreId) (s : State) : Host.Outcome State Fault Refusal :=
  .next <| match fibre? s id with
  | none => s
  | some f => if f.conflict && f.unfin != [] && !heldMode s f && !ladderDue f then rollbackFibre id true s else s

/-! ## The ladder (R377, R378) -/

/-- A fibre enters a level from the one below. -/
def escalate (id : FibreId) (level : Nat) (count : Fibre → Fibre) (s : State) : State :=
  match fibre? s id with
  | none => s
  | some f =>
    if f.escLevel + 1 = level ∧ levelAt f level ≤ f.rbnow.toNat then
      serveNext (partOfCore s id.core) (updFibre s id fun f => count { f with escLevel := level })
    else s

/-- ESCALATE_LEVEL_1. -/
def execEscalateLevel1 (id : FibreId) (s : State) : Host.Outcome State Fault Refusal :=
  .next (escalate id 1 (fun f => { f with esc1 := f.esc1 + 1 }) s)
/-- ESCALATE_LEVEL_2. -/
def execEscalateLevel2 (id : FibreId) (s : State) : Host.Outcome State Fault Refusal :=
  .next (escalate id 2 (fun f => { f with esc2 := f.esc2 + 1 }) s)
/-- ESCALATE_LEVEL_3. -/
def execEscalateLevel3 (id : FibreId) (s : State) : Host.Outcome State Fault Refusal :=
  .next (escalate id 3 (fun f => { f with esc3 := f.esc3 + 1 }) s)

/-! ## Requests for registers that wait (R123, R125) -/

/-- The resident fibres of a quadrant. -/
def quadFibres (s : State) (core quad : Nat) : List Fibre :=
  s.fibres.filter fun f => f.id.core == core && f.id.pos / 16 == quad

/-- A fibre waits in ACQUIRE. -/
def Fibre.acquiring (f : Fibre) : Bool := f.status == .acquire && f.regs.level == 0 && f.acquire.isSome
/-- BARRIER, LINE, COMMIT, FROZEN or EXITED. -/
def Fibre.stuck (f : Fibre) : Bool :=
  f.regs.level != 0 || match f.status with
    | .barrier .. | .ticket _ | .line _ | .commit | .exited | .saved => true
    | _ => false

/-- A fibre of a quadrant is in ACQUIRE, and every other of it is too, or in a state that R123 names. -/
def quadStuck (s : State) (core quad : Nat) : Bool :=
  let fs := quadFibres s core quad
  (fs.any (·.acquiring)) && fs.all fun f => f.acquiring || f.stuck

/-- A quadrant has met the condition of R123 through a whole cycle. -/
def regDeadlock (s : State) (core quad : Nat) : Bool :=
  quadStuck s core quad && (quadFibres s core quad).all fun f => decide (1 ≤ f.stuckFor)

/-- Launch accepted latest, then highest global fibre identifier (R123). -/
def youngest (s : State) (fs : List Fibre) : Option Fibre :=
  fs.foldl (fun (b : Option Fibre) f => match b with
    | none => some f
    | some g => if decide (serveKey s g < serveKey s f) then some f else some g) none

/-- A waiting request is withdrawn and its fibre takes REGISTER at its `regacq` (R123 to R125). -/
def withdrawAcquire (f : Fibre) (sub : Nat) (s : State) : State :=
  match f.acquire with
  | none => s
  | some a =>
    let s := updFibre s f.id fun f => { f with acquire := none, status := .ready, readySince := s.clock, stuckFor := 0 }
    raiseTrap f.id { cause := 0x06, sys := false, seq := f.seq
                     regs := plainRegs 0x06 a.inst 8 f.regs.pc (BitVec.ofNat 64 sub) (BitVec.ofNat 64 a.n) 0 } s

/-- Grants of every quadrant that has requests pending (R121). -/
def grantAll (s : State) : State :=
  (s.fibres.filter (·.acquire.isSome)).foldl (fun s f => regrant f.id s) s

/-- The condition of a quadrant begins anew (R123). -/
def restartStuck (core quad : Nat) (s : State) : State :=
  { s with fibres := updIf (fun f => f.id.core == core && f.id.pos / 16 == quad) (fun f => { f with stuckFor := 0 }) s.fibres }

/-- REGISTER_DEADLOCK (R123): the request of the fibre that comes last is withdrawn; whether the condition holds again is told
from the next cycle on. -/
def execRegisterDeadlock (core quad : Nat) (s : State) : Host.Outcome State Fault Refusal :=
  let s := grantPending core quad 16 s
  .next <|
    if regDeadlock s core quad then
      match youngest s ((quadFibres s core quad).filter (·.acquiring)) with
      | some f => withdrawAcquire f 1 (restartStuck core quad s)
      | none => s
    else s

/-- ACQUIRE_STALLED (R125): a quadrant that is deadlocked takes DEADLOCK instead. -/
def execAcquireStalled (id : FibreId) (s : State) : Host.Outcome State Fault Refusal :=
  .next <| match fibre? s id with
  | none => s
  | some f =>
    if f.acquiring && decide (4096 ≤ (f.acquire.map (·.counted)).getD 0) && !quadStuck s id.core (id.pos / 16) then
      withdrawAcquire f 6 s
    else s

/-- Cycles pass: waiting requests count the cycles in which their fibre is not FROZEN and their quadrant does not meet the
condition of R123 (R125), and fibres the cycles for which they have been in a state that R123 names. -/
def countAcquires (n : Nat) (s : State) : State :=
  { s with fibres := s.fibres.map fun f =>
      let f' := { f with stuckFor := if f.acquiring || f.stuck then f.stuckFor + n else 0 }
      if f.acquiring && !quadStuck s f.id.core (f.id.pos / 16) then
        { f' with acquire := f.acquire.map fun a => { a with counted := a.counted + n } }
      else f' }

end Sys2Proof.Machine
end

