-- ==== Sys2Proof/Machine/Integer.lean ====
section
/-! DEFINITION. The meanings of the vector integer and scalar instructions, opcodes 0x20 to 0x4B (07 R184 to R195). -/

namespace Sys2Proof.Machine

/-! ## Shapes of plans -/

/-- A per-lane instruction of fixed latency: its vector sources, its vector destination, its result by lane. -/
def lanePlan (s : State) (f : Fibre) (wide wd : Bool) (d : BitVec 7) (ops : List Opnd) (res : Nat → BitVec 64) : Plan :=
  { Plan.uni fun m => .fixed (vdstPut wide wd d m res) 0 none with
    uniform := false
    operand := ops.any (vecBad s f wide) || vdstBad s f wide wd d
    srcs := ops.flatMap (vecNames wide)
    dests := vdstNames wide wd d }

/-- A type of 64 bits fills pairs (R54, R184). -/
def IntTy.wide (ty : IntTy) : Bool := ty.width == 64

/-- The two-operand group, 8 bytes (R185, R186). -/
def bin8Plan (o : BinOp) (x : OpV8) (s : State) (f : Fibre) : Plan :=
  let w := IntTy.wide x.ty
  lanePlan s f w x.wd x.d [x.a, x.b] fun l => binOp o x.ty x.sat (readLane s f w x.a l) (readLane s f w x.b l)
/-- The two-operand group, 12 bytes: B is IMM16 extended by type (R185). -/
def bin12Plan (o : BinOp) (x : OpV12) (s : State) (f : Fibre) : Plan :=
  let w := IntTy.wide x.ty
  lanePlan s f w x.wd x.d [x.a] fun l => binOp o x.ty x.sat (readLane s f w x.a l) (immOf x.ty x.imm)
/-- The one-operand group (R187). -/
def unPlan (o : UnOp) (x : OpV1) (s : State) (f : Fibre) : Plan :=
  let w := IntTy.wide x.ty
  lanePlan s f w x.wd x.d [x.a] fun l => unOp o x.ty x.sat (readLane s f w x.a l)

/-! ## The two-operand and one-operand groups -/

/-- IADD_8B. -/
def execIadd8 (x : OpV8) (s : State) := issueWord (.iadd8 x) x.h (bin8Plan .add x) s
/-- IADD_12B. -/
def execIadd12 (x : OpV12) (s : State) := issueWord (.iadd12 x) x.h (bin12Plan .add x) s
/-- ISUB_8B. -/
def execIsub8 (x : OpV8) (s : State) := issueWord (.isub8 x) x.h (bin8Plan .sub x) s
/-- ISUB_12B. -/
def execIsub12 (x : OpV12) (s : State) := issueWord (.isub12 x) x.h (bin12Plan .sub x) s
/-- IMUL_8B. -/
def execImul8 (x : OpV8) (s : State) := issueWord (.imul8 x) x.h (bin8Plan .mul x) s
/-- IMUL_12B. -/
def execImul12 (x : OpV12) (s : State) := issueWord (.imul12 x) x.h (bin12Plan .mul x) s
/-- IMULHI_8B. -/
def execImulhi8 (x : OpV8) (s : State) := issueWord (.imulhi8 x) x.h (bin8Plan .mulhi x) s
/-- IMULHI_12B. -/
def execImulhi12 (x : OpV12) (s : State) := issueWord (.imulhi12 x) x.h (bin12Plan .mulhi x) s
/-- IMIN_8B. -/
def execImin8 (x : OpV8) (s : State) := issueWord (.imin8 x) x.h (bin8Plan .min x) s
/-- IMIN_12B. -/
def execImin12 (x : OpV12) (s : State) := issueWord (.imin12 x) x.h (bin12Plan .min x) s
/-- IMAX_8B. -/
def execImax8 (x : OpV8) (s : State) := issueWord (.imax8 x) x.h (bin8Plan .max x) s
/-- IMAX_12B. -/
def execImax12 (x : OpV12) (s : State) := issueWord (.imax12 x) x.h (bin12Plan .max x) s
/-- SHL_8B. -/
def execShl8 (x : OpV8) (s : State) := issueWord (.shl8 x) x.h (bin8Plan .shl x) s
/-- SHL_12B. -/
def execShl12 (x : OpV12) (s : State) := issueWord (.shl12 x) x.h (bin12Plan .shl x) s
/-- SHR_8B. -/
def execShr8 (x : OpV8) (s : State) := issueWord (.shr8 x) x.h (bin8Plan .shr x) s
/-- SHR_12B. -/
def execShr12 (x : OpV12) (s : State) := issueWord (.shr12 x) x.h (bin12Plan .shr x) s
/-- ROT_8B. -/
def execRot8 (x : OpV8) (s : State) := issueWord (.rot8 x) x.h (bin8Plan .rot x) s
/-- ROT_12B. -/
def execRot12 (x : OpV12) (s : State) := issueWord (.rot12 x) x.h (bin12Plan .rot x) s
/-- AND_8B. -/
def execAnd8 (x : OpV8) (s : State) := issueWord (.and8 x) x.h (bin8Plan .and x) s
/-- AND_12B. -/
def execAnd12 (x : OpV12) (s : State) := issueWord (.and12 x) x.h (bin12Plan .and x) s
/-- OR_8B. -/
def execOr8 (x : OpV8) (s : State) := issueWord (.or8 x) x.h (bin8Plan .or x) s
/-- OR_12B. -/
def execOr12 (x : OpV12) (s : State) := issueWord (.or12 x) x.h (bin12Plan .or x) s
/-- XOR_8B. -/
def execXor8 (x : OpV8) (s : State) := issueWord (.xor8 x) x.h (bin8Plan .xor x) s
/-- XOR_12B. -/
def execXor12 (x : OpV12) (s : State) := issueWord (.xor12 x) x.h (bin12Plan .xor x) s
/-- IABS. -/
def execIabs (x : OpV1) (s : State) := issueWord (.iabs x) x.h (unPlan .abs x) s
/-- NOT. -/
def execVnot (x : OpV1) (s : State) := issueWord (.vnot x) x.h (unPlan .not x) s
/-- POPC. -/
def execPopc (x : OpV1) (s : State) := issueWord (.popc x) x.h (unPlan .popc x) s
/-- CLZ. -/
def execClz (x : OpV1) (s : State) := issueWord (.clz x) x.h (unPlan .clz x) s
/-- BREV. -/
def execBrev (x : OpV1) (s : State) := issueWord (.brev x) x.h (unPlan .brev x) s
/-- MOV. -/
def execMov (x : OpV1) (s : State) := issueWord (.mov x) x.h (unPlan .mov x) s

/-! ## Comparisons and predicates (R189, R190) -/

/-- A per-lane instruction that sets bits of a predicate. -/
def predPlan (d : BitVec 3) (operand : Bool) (srcs : List RegId) (res : BitVec 32) : Plan :=
  { Plan.uni fun m => .fixed [.p d.toNat m res] 0 none with
    uniform := false, operand := operand, srcs := srcs, dests := pdstNames d }

/-- ICMP_8B. -/
def execIcmp8 (x : OpCmp8) (s : State) :=
  issueWord (.icmp8 x) x.h (fun s f =>
    predPlan x.d (vecBad s f false x.a || vecBad s f false x.b) (vecNames false x.a ++ vecNames false x.b)
      (mkMask fun l => condOp x.c 32 (readLane s f false x.a l) (readLane s f false x.b l))) s
/-- ICMP_12B. -/
def execIcmp12 (x : OpCmp12) (s : State) :=
  issueWord (.icmp12 x) x.h (fun s f =>
    predPlan x.d (vecBad s f false x.a) (vecNames false x.a)
      (mkMask fun l => condOp x.c 32 (readLane s f false x.a l) (immS x.imm))) s
/-- PLOP. -/
def execPlop (x : OpPlop) (s : State) :=
  issueWord (.plop x) x.h (fun _ f =>
    predPlan x.d (predBad x.a || predBad x.b) (predNames x.a ++ predNames x.b)
      (plopOp x.op (readPred f x.a) (readPred f x.b))) s

/-! ## Forms of three inputs, indices, generators and immediates (R188, R191, R192, R194) -/

/-- LIDX. -/
def execLidx (x : OpV8) (s : State) :=
  issueWord (.lidx x) x.h (fun s f =>
    let w := IntTy.wide x.ty
    lanePlan s f w x.wd x.d [x.a, x.b] fun l => lidxOp x.ty l (readLane s f w x.a l) (readLane s f w x.b l)) s
/-- IMAD. -/
def execImad (x : OpV3) (s : State) :=
  issueWord (.imad x) x.h (fun s f =>
    let w := IntTy.wide x.ty
    lanePlan s f w x.wd x.d [x.a, x.b, x.c] fun l =>
      imadOp x.ty x.sat (readLane s f w x.a l) (readLane s f w x.b l) (readLane s f w x.c l)) s
/-- LOP3. -/
def execLop3 (x : OpLop3) (s : State) :=
  issueWord (.lop3 x) x.h (fun s f =>
    let w := IntTy.wide x.ty
    lanePlan s f w x.wd x.d [x.a, x.b, x.c] fun l =>
      lop3Op x.ty x.t (readLane s f w x.a l) (readLane s f w x.b l) (readLane s f w x.c l)) s
/-- BFEXT. -/
def execBfext (x : OpBfext) (s : State) :=
  issueWord (.bfext x) x.h (fun s f =>
    let w := IntTy.wide x.ty
    lanePlan s f w x.wd x.d [x.a] fun l => bfextOp x.ty x.pos.toNat x.len.toNat (readLane s f w x.a l)) s
/-- BFINS. -/
def execBfins (x : OpBfins) (s : State) :=
  issueWord (.bfins x) x.h (fun s f =>
    let w := IntTy.wide x.ty
    lanePlan s f w x.wd x.d [x.a, x.b] fun l =>
      bfinsOp x.ty x.pos.toNat x.len.toNat (readLane s f w x.a l) (readLane s f w x.b l)) s
/-- SEL. -/
def execSel (x : OpSel) (s : State) :=
  issueWord (.sel x) x.h (fun s f =>
    let w := IntTy.wide x.ty
    let P := lanePlan s f w x.wd x.d [x.a, x.b] fun l =>
      IntTy.ext x.ty (if (readPred f x.p).getLsbD l then readLane s f w x.a l else readLane s f w x.b l).toNat
    { P with operand := P.operand || predBad x.p, srcs := P.srcs ++ predNames x.p }) s
/-- ASCALE. -/
def execAscale (x : OpAscale) (s : State) :=
  issueWord (.ascale x) x.h (fun s f =>
    lanePlan s f x.wide x.wd x.d [x.a, x.b, x.c] fun l =>
      ascaleOp x.wide x.s.toNat (readLane s f x.wide x.a l) (readLane s f x.wide x.b l) (readLane s f x.wide x.c l)) s
/-- RNG: counter and key are 64 bits wide. -/
def execRng (x : OpRng) (s : State) :=
  issueWord (.rng x) x.h (fun s f =>
    let P := lanePlan s f x.wide x.wd x.d [] fun l =>
      let c := readLane s f true x.a l + (if x.step then BitVec.ofNat 64 l else 0)
      let z := rng c (readLane s f true x.b l)
      if x.wide then z else BitVec.ofNat 64 (z.toNat % 2 ^ 32)
    { P with
      operand := P.operand || vecBad s f true x.a || vecBad s f true x.b
      srcs := vecNames true x.a ++ vecNames true x.b }) s
/-- MOVI_12B. -/
def execMovi12 (x : OpMovi12) (s : State) :=
  issueWord (.movi12 x) x.h (fun s f =>
    lanePlan s f (IntTy.wide x.ty) x.wd x.d [] fun _ => IntTy.ext x.ty (immOf x.ty x.imm).toNat) s
/-- MOVI_16B. -/
def execMovi16 (x : OpMovi16) (s : State) :=
  issueWord (.movi16 x) x.h (fun s f => lanePlan s f (IntTy.wide x.ty) x.wd x.d [] fun _ => IntTy.ext x.ty x.imm.toNat) s

/-! ## Across lanes (R193) -/

/-- PERM. -/
def execPerm (x : OpV8) (s : State) :=
  issueWord (.perm x) x.h (fun s f =>
    let w := IntTy.wide x.ty
    let res := fun (l : Nat) => IntTy.ext x.ty (readLane s f w x.a ((readLane s f w x.b l).toNat % 32)).toNat
    { lanePlan s f w x.wd x.d [x.a, x.b] res with
      own := fun m => .late (.xflags :: vdstNames w x.wd x.d) (vdstPut w x.wd x.d m res) }) s
/-- VTOS. -/
def execVtos (x : OpVtos) (s : State) :=
  issueWord (.vtos x) x.h (fun s f =>
    let w := IntTy.wide x.ty
    { Plan.uni fun _ => .late [.xflags, .s x.d.toNat] [.s x.d.toNat (IntTy.ext x.ty (readLane s f w x.a 0).toNat)] with
      operand := vecBad s f w x.a, srcs := vecNames w x.a, dests := [.s x.d.toNat] }) s

/-- Every active lane holds the same element (R193). -/
def uniformLanes (act : BitVec 32) (x : Nat → BitVec 64) : Bool :=
  match lanesOf act with
  | [] => true
  | l :: r => r.all fun k => x k == x l

/-- VOTE. -/
def execVote (x : OpVote) (s : State) :=
  issueWord (.vote x) x.h (fun s f =>
    let p := readPred f x.a
    let ones := fun (b : Bool) => if b then allOnes else 0
    let pd := BitVec.ofNat 3 x.d.toNat
    let dest := if x.op = .ballot then [RegId.s x.d.toNat] else pdstNames pd
    { Plan.uni fun m =>
        let w : RegWrite := match x.op with
          | .any => .p pd.toNat allOnes (ones (predTest .any p m))
          | .all => .p pd.toNat allOnes (ones (predTest .all p m))
          | .ballot => .s x.d.toNat ((p &&& m).setWidth 64)
          | .uni => .p pd.toNat allOnes (ones (uniformLanes m (readLane s f false x.a)))
        .late (.xflags :: dest) [w]
      with
      uniform := false
      operand := if x.op = .uni then vecBad s f false x.a else predBad x.a
      srcs := if x.op = .uni then vecNames false x.a else predNames x.a
      dests := dest }) s

/-! ## Scalar instructions (R195) -/

/-- A scalar instruction: its sources, its destination, its result. -/
def scaPlan (d : BitVec 5) (ops : List Opnd) (res : Word) : Plan :=
  { Plan.uni fun _ => .fixed [.s d.toNat res] 0 none with
    operand := ops.any scaBad, srcs := ops.flatMap scaNames, dests := [.s d.toNat] }

/-- Two scalar operands. -/
def sca8Plan (o : BinOp) (x : OpS8) (_ : State) (f : Fibre) : Plan :=
  scaPlan x.d [x.a, x.b] (binOp o x.ty x.sat (readSca f x.a) (readSca f x.b))
/-- A scalar operand and IMM16. -/
def sca12Plan (o : BinOp) (x : OpS12) (_ : State) (f : Fibre) : Plan :=
  scaPlan x.d [x.a] (binOp o x.ty x.sat (readSca f x.a) (immOf x.ty x.imm))

/-- SADD_8B. -/
def execSadd8 (x : OpS8) (s : State) := issueWord (.sadd8 x) x.h (sca8Plan .add x) s
/-- SADD_12B. -/
def execSadd12 (x : OpS12) (s : State) := issueWord (.sadd12 x) x.h (sca12Plan .add x) s
/-- SSUB_8B. -/
def execSsub8 (x : OpS8) (s : State) := issueWord (.ssub8 x) x.h (sca8Plan .sub x) s
/-- SSUB_12B. -/
def execSsub12 (x : OpS12) (s : State) := issueWord (.ssub12 x) x.h (sca12Plan .sub x) s
/-- SMUL_8B. -/
def execSmul8 (x : OpS8) (s : State) := issueWord (.smul8 x) x.h (sca8Plan .mul x) s
/-- SMUL_12B. -/
def execSmul12 (x : OpS12) (s : State) := issueWord (.smul12 x) x.h (sca12Plan .mul x) s
/-- SSHL_8B. -/
def execSshl8 (x : OpS8) (s : State) := issueWord (.sshl8 x) x.h (sca8Plan .shl x) s
/-- SSHL_12B. -/
def execSshl12 (x : OpS12) (s : State) := issueWord (.sshl12 x) x.h (sca12Plan .shl x) s
/-- SSHR_8B. -/
def execSshr8 (x : OpS8) (s : State) := issueWord (.sshr8 x) x.h (sca8Plan .shr x) s
/-- SSHR_12B. -/
def execSshr12 (x : OpS12) (s : State) := issueWord (.sshr12 x) x.h (sca12Plan .shr x) s
/-- SAND_8B. -/
def execSand8 (x : OpS8) (s : State) := issueWord (.sand8 x) x.h (sca8Plan .and x) s
/-- SAND_12B. -/
def execSand12 (x : OpS12) (s : State) := issueWord (.sand12 x) x.h (sca12Plan .and x) s
/-- SOR_8B. -/
def execSor8 (x : OpS8) (s : State) := issueWord (.sor8 x) x.h (sca8Plan .or x) s
/-- SOR_12B. -/
def execSor12 (x : OpS12) (s : State) := issueWord (.sor12 x) x.h (sca12Plan .or x) s
/-- SXOR_8B. -/
def execSxor8 (x : OpS8) (s : State) := issueWord (.sxor8 x) x.h (sca8Plan .xor x) s
/-- SXOR_12B. -/
def execSxor12 (x : OpS12) (s : State) := issueWord (.sxor12 x) x.h (sca12Plan .xor x) s
/-- SMIN_8B. -/
def execSmin8 (x : OpS8) (s : State) := issueWord (.smin8 x) x.h (sca8Plan .min x) s
/-- SMIN_12B. -/
def execSmin12 (x : OpS12) (s : State) := issueWord (.smin12 x) x.h (sca12Plan .min x) s
/-- SMAX_8B. -/
def execSmax8 (x : OpS8) (s : State) := issueWord (.smax8 x) x.h (sca8Plan .max x) s
/-- SMAX_12B. -/
def execSmax12 (x : OpS12) (s : State) := issueWord (.smax12 x) x.h (sca12Plan .max x) s

/-- `scmp`: a predicate written all ones or all zero. -/
def scmpPlan (c : Cond) (d : BitVec 3) (ops : List Opnd) (a b : Word) : Plan :=
  { Plan.uni fun _ => .fixed [.p d.toNat allOnes (if condOp c 64 a b then allOnes else 0)] 0 none with
    operand := ops.any scaBad, srcs := ops.flatMap scaNames, dests := pdstNames d }
/-- SCMP_8B. -/
def execScmp8 (x : OpCmp8) (s : State) :=
  issueWord (.scmp8 x) x.h (fun _ f => scmpPlan x.c x.d [x.a, x.b] (readSca f x.a) (readSca f x.b)) s
/-- SCMP_12B. -/
def execScmp12 (x : OpCmp12) (s : State) :=
  issueWord (.scmp12 x) x.h (fun _ f => scmpPlan x.c x.d [x.a] (readSca f x.a) (immS x.imm)) s
/-- SMOV_8B. -/
def execSmov8 (x : OpDA) (s : State) := issueWord (.smov8 x) x.h (fun _ f => scaPlan x.d [x.a] (readSca f x.a)) s
/-- SMOV_12B. -/
def execSmov12 (x : OpSmov12) (s : State) := issueWord (.smov12 x) x.h (fun _ _ => scaPlan x.d [] (immS x.imm)) s
/-- SMOV_16B. -/
def execSmov16 (x : OpSmov16) (s : State) := issueWord (.smov16 x) x.h (fun _ _ => scaPlan x.d [] x.imm) s

end Sys2Proof.Machine
end

