-- ==== Sys2Proof/Machine/SpecialFn.lean ====
section
/-! DEFINITION. The special functions of 08 R203 and R204. The inputs that R204 lists give its results. On every other
finite input the manual states a bound and no value: the result is the free value `Config.special` where that lies within
the bound, and otherwise the nearest value (assumption 7). The bound is judged on an enclosure of the exact result,
computed here in fixed point. -/

namespace Sys2Proof.Machine

/-- The special functions whose results have a bound. -/
inductive SpecFn where
  | rsqrt | exp2 | log2 | sin | cos
  deriving DecidableEq, Repr

/-- An exact result lies between `lo` and `hi` times `2^e`; `neg` is its sign. -/
structure Encl where
  neg : Bool
  lo  : Nat
  hi  : Nat
  e   : Int

/-- Fraction bits of the fixed-point sums. -/
def fixBits : Nat := 320

/-- The odd or even Taylor sum of sine (`i = 1`) or cosine (`i = 0`), or of the exponential (`step = 1`), at `y`
in units of 2^-fixBits: `n` further terms from the term `t` with index `i`; `alt` alternates signs. -/
def taylor (step : Nat) (alt : Bool) : Nat → Nat → Nat → Nat → Int → Int
  | 0, _, _, _, acc => acc
  | n + 1, i, t, y2, acc =>
    let d := if step = 2 then (i + 1) * (i + 2) else i + 1
    let t' := t * y2 / 2 ^ fixBits / d
    let sgn : Int := if alt && n % 2 = 1 then -1 else 1
    taylor step alt n (i + step) t' y2 (acc + sgn * t')

/-- The sum z + z^3/3 + z^5/5 + ... : `n` further terms from the power `t = z^i`. -/
def atanhSum : Nat → Nat → Nat → Nat → Nat → Nat
  | 0, _, _, _, acc => acc
  | n + 1, i, t, z2, acc =>
    let t' := t * z2 / 2 ^ fixBits
    atanhSum n (i + 2) t' z2 (acc + t' / (i + 2))

/-- The inverse tangent sum z − z^3/3 + z^5/5 − … for z = 1/k. -/
def atanInv (k : Nat) : Int :=
  (List.range 80).foldl
    (fun (acc : Int) i =>
      let t : Int := ((2 ^ fixBits / k ^ (2 * i + 1) / (2 * i + 1) : Nat) : Int)
      if i % 2 = 0 then acc + t else acc - t) 0

/-- π in units of 2^-fixBits, by Machin's formula; 80 terms of base 5 reach 2^-370. -/
def piFix : Nat := (16 * atanInv 5 - 4 * atanInv 239).toNat

/-- ln 2 in units of 2^-fixBits: twice the inverse hyperbolic tangent of 1/3. -/
def ln2Fix : Nat := let z := 2 ^ fixBits / 3; 2 * atanhSum 110 1 z (z * z / 2 ^ fixBits) z

/-- A margin past every rounding of the fixed-point sums. -/
def margin : Nat := 2 ^ 40

/-- m * 2^e in units of 2^-fixBits, rounded down; small numbers may round to 0. -/
def toFix (m : Nat) (e : Int) : Nat :=
  let k : Int := e + (fixBits : Nat)
  if 0 ≤ k then m * 2 ^ k.toNat else m / 2 ^ (-k).toNat

/-- sin(π t) for 0 < t ≤ 1/2, with t = m * 2^e. -/
def sinEncl (m : Nat) (e : Int) : Encl :=
  if e + (bitlen m : Nat) < -100 then
    -- sin(πt) lies within a factor 1 − 2^-150 of πt
    let v := piFix * m
    ⟨false, v - v / 2 ^ 150 - 1, v + v / 2 ^ 150 + 1, e - (fixBits : Nat)⟩
  else
    let y := toFix (m * piFix) (e - (fixBits : Nat))
    let s := (taylor 2 true 80 1 y (y * y / 2 ^ fixBits) y).toNat
    ⟨false, s - margin, s + margin, -(fixBits : Nat)⟩

/-- 2^x for x = ±m * 2^e. -/
def exp2Encl (s : Bool) (m : Nat) (e : Int) : Encl :=
  let x : Int := if s then -(toFix m e : Int) else (toFix m e : Int)
  let n := x / (2 ^ fixBits : Nat)
  let t := (x % (2 ^ fixBits : Nat)).toNat
  let y := t * ln2Fix / 2 ^ fixBits
  let v := (taylor 1 false 90 0 (2 ^ fixBits) y (2 ^ fixBits : Nat)).toNat
  ⟨false, v - margin, v + margin, n - (fixBits : Nat)⟩

/-- log2 of m * 2^e, not a power of two. -/
def log2Encl (m : Nat) (e : Int) : Encl :=
  let k := bitlen m - 1
  let big : Int := e + (k : Nat)
  -- z = (u − 1)/(u + 1) for the significand u = m / 2^k
  let z := (m - 2 ^ k) * 2 ^ fixBits / (m + 2 ^ k)
  let ln := 2 * atanhSum 110 1 z (z * z / 2 ^ fixBits) z
  let f := ln * 2 ^ fixBits / ln2Fix
  let v : Int := big * (2 ^ fixBits : Nat) + (f : Int)
  ⟨decide (v < 0), v.natAbs - margin, v.natAbs + margin, -(fixBits : Nat)⟩

/-- 1/√(m * 2^e). -/
def rsqrtEncl (m : Nat) (e : Int) : Encl :=
  let m' := if e % 2 = 0 then m else 2 * m
  let e' := if e % 2 = 0 then e else e - 1
  let k := fixBits + bitlen m
  let r := isqrt (2 ^ (2 * k) / m')
  ⟨false, r - 1, r + 2, -(k : Int) - e' / 2⟩

/-- Whether a candidate finite value is within `bound` ulp of every point of the enclosure. -/
def withinUlp (f : Fmt) (bound : Nat) (c : Encl) (r : FV) : Bool :=
  match r with
  | .fin s m e =>
    let P := fpar f
    let q := lastPlaceSub P c.lo c.e
    let x := if e < c.e then e else c.e
    let base := if q < x then q else x
    let up := fun (n : Nat) (d : Int) => n * 2 ^ (d - base).toNat
    let v := up m e
    let b := bound * up 1 q
    (s == c.neg || m == 0) && up c.hi c.e ≤ v + b && v ≤ up c.lo c.e + b
  | _ => false

/-- A result with a bound: the free value within it, else the nearest (assumption 7). The free value sees the operand's own
bits alone: of a scalar the low 32 for `f32` (R196, R197). -/
def bounded (op : BitVec 8) (f : Fmt) (bound : Nat) (ftz : Bool) (x : BitVec 64) (c : Encl) : FRes :=
  let w := (fpar f).w
  let r := (Config.special op (f == .f64) (BitVec.ofNat 64 (x.toNat % 2 ^ w))).toNat % 2 ^ w
  let bits := if withinUlp f bound c (decodeF f r) then r else (finish f .rn 0 false c.neg c.lo c.e true).bits
  deliver f ftz c.neg bits

/-- The exact integer value of a finite number, if it is one. -/
def asInt (m : Nat) (e : Int) : Option Nat :=
  if 0 ≤ e then some (m * 2 ^ e.toNat) else if m % 2 ^ (-e).toNat = 0 then some (m / 2 ^ (-e).toNat) else none

/-- Whether m is a power of two, with its logarithm. -/
def pow2 (m : Nat) : Option Nat := if m ≠ 0 ∧ m = 2 ^ (bitlen m - 1) then some (bitlen m - 1) else none

/-- sin(πx) or cos(πx) on a finite x = ±m * 2^e (R203, R204). -/
def trig (op : BitVec 8) (f : Fmt) (bound : Nat) (ftz isCos s : Bool) (m : Nat) (e : Int) (x : BitVec 64) : FRes :=
  let P := fpar f
  let one := fun (neg : Bool) => encodeF f neg 1 0
  match asInt m e with
  | some n => if isCos then ⟨one (n % 2 == 1), 0⟩ else ⟨signBits P s, 0⟩
  | none =>
    -- e < 0: x in units of 2^e; a half-turn is u units
    let u := 2 ^ (-e).toNat
    let n := m / u
    let t := m % u
    if 2 * t = u then
      -- n + 1/2; a negative input n + 1/2 has the odd n of its own sign
      if isCos then ⟨0, 0⟩ else ⟨one ((n % 2 == 1) != s), 0⟩
    else if isCos then
      -- cos is even; cos(π(n + t)) = ± cos(πt), and cos(πt) = sin(π(1/2 − t))
      let neg := (n % 2 == 1) != decide (u < 2 * t)
      let d := if 2 * t < u then u - 2 * t else 2 * t - u
      bounded op f bound ftz x { sinEncl d (e - 1) with neg := neg }
    else
      let neg := (n % 2 == 1) != s
      let d := if 2 * t < u then t else u - t
      bounded op f bound ftz x { sinEncl d e with neg := neg }

/-- A special function with a bound (R203, R204) on an operand already read under R68. DEDUCED (assumption 50): `fexp2` of an integer
whose power is a subnormal gives that power with no flag, as the table of R204 has it, under `%xen`.FTZ = 1 too, where R68 taken
alone would deliver zero. A power far below the smallest subnormal is a free value within the bound as any other (assumption 7). -/
def specialV (fn : SpecFn) (op : BitVec 8) (f : Fmt) (ftz : Bool) (x : BitVec 64) : FRes :=
  let P := fpar f
  let b := if f = .f64 then 2 else 1
  match fn, readF f ftz x with
  | _, .nan g _ => nanRes f g
  | .rsqrt, .inf s => if s then nanRes f true else ⟨0, 0⟩
  | .rsqrt, .fin s m e =>
    if m = 0 then ⟨infBits f s, fDIVZERO⟩
    else if s then nanRes f true
    else
      match pow2 m with
      | some k =>
        if (e + (k : Nat)) % 2 = 0 then ⟨encodeF f false 1 (-((e + (k : Nat)) / 2)), 0⟩
        else bounded op f 1 ftz x (rsqrtEncl m e)
      | none => bounded op f 1 ftz x (rsqrtEncl m e)
  | .exp2, .inf s => if s then ⟨0, 0⟩ else ⟨infBits f false, 0⟩
  | .exp2, .fin s m e =>
    if m = 0 then ⟨encodeF f false 1 0, 0⟩
    else if 20 < e + (bitlen m : Nat) then
      -- beyond every format's range: below, the bound is the same from 2^-2000 down
      if s then bounded op f b ftz x ⟨false, 1, 1, -2000⟩ else deliver f ftz false (infBits f false)
    else
      match asInt m e with
      | some n =>
        let k : Int := if s then -(n : Int) else n
        if k < P.emin - (P.mb : Nat) then bounded op f b ftz x ⟨false, 1, 1, max k (-2000)⟩
        else if P.maxE + (P.p : Nat) - 1 < k then deliver f ftz false (infBits f false)
        else ⟨encodeF f false 1 k, 0⟩
      | none =>
        let c := exp2Encl s m e
        if scaledLt P.maxM P.maxE c.lo c.e && scaledLt 1 (P.maxE + (P.p : Nat)) c.lo c.e then
          deliver f ftz false (infBits f false)
        else bounded op f b ftz x c
  | .log2, .inf s => if s then nanRes f true else ⟨infBits f false, 0⟩
  | .log2, .fin s m e =>
    if m = 0 then ⟨infBits f true, fDIVZERO⟩
    else if s then nanRes f true
    else
      match pow2 m with
      | some k =>
        let n : Int := e + (k : Nat)
        ⟨encodeF f (decide (n < 0)) n.natAbs 0, 0⟩
      | none => bounded op f b ftz x (log2Encl m e)
  | .sin, .inf _ => nanRes f true
  | .cos, .inf _ => nanRes f true
  | .sin, .fin s m e => trig op f b ftz false s m e x
  | .cos, .fin s m e => trig op f b ftz true s m e x

end Sys2Proof.Machine
end

