-- ==== Sys2Proof/Machine/FloatOps.lean ====
section
/-! DEFINITION. The meanings of the floating-point and conversion instructions, opcodes 0x50 to 0x69 and 0x90 to 0x97 (08
R196 to R217): flags and faulting lanes under R69 to R72, cross-lane forms under R205 and R206. -/

namespace Sys2Proof.Machine

/-! ## Effects of float results -/

/-- The effect of lane results: non-faulting active lanes are written and raise their flags; a faulting lane traps (R72). -/
def floatEff (i : Instr) (f : Fibre) (late wide wd : Bool) (d : BitVec 7) (x : Nat → LaneRes) (m : BitVec 32) : Eff :=
  let ok := m &&& ~~~(faultMask m f.en x)
  let ws := vdstPut wide wd d ok fun l => (x l).bits
  let fl := raisedFlags ok x
  if late then .lateF (.xflags :: vdstNames wide wd d) ws fl (arithTrap i f m x) else .fixed ws fl (arithTrap i f m x)

/-- A per-lane float instruction: sources with their width, destination, results by lane. -/
def floatPlan (i : Instr) (s : State) (f : Fibre) (late : Bool) (ops : List (Bool × Opnd)) (wide wd : Bool) (d : BitVec 7)
    (x : Nat → LaneRes) : Plan :=
  { Plan.uni (floatEff i f late wide wd d x) with
    uniform := false
    operand := ops.any (fun o => vecBad s f o.1 o.2) || vdstBad s f wide wd d
    srcs := ops.flatMap fun o => vecNames o.1 o.2
    dests := vdstNames wide wd d }

/-- A result of a format as a lane's result. -/
def FRes.lane (r : FRes) : LaneRes := ⟨BitVec.ofNat 64 r.bits, r.flags⟩

/-- `f64` fills pairs (R196). -/
def FTy.wide (ty : FTy) : Bool := ty == .f64

/-- Two operands read under R68. -/
def f2Plan (i : Instr) (x : OpF2) (g : Fmt → Bool → FV → FV → FRes) (s : State) (f : Fibre) : Plan :=
  let w := FTy.wide x.ty
  let F := FTy.fmt x.ty
  let rd := fun (o : Opnd) (l : Nat) => readF F f.ftz (readLaneF s f w o l)
  floatPlan i s f false [(w, x.a), (w, x.b)] w x.wd x.d fun l => (g F f.ftz (rd x.a l) (rd x.b l)).lane
/-- Three operands read under R68. -/
def f3Plan (i : Instr) (x : OpF3) (g : FV → FV → FV → FV × FV × FV) (s : State) (f : Fibre) : Plan :=
  let w := FTy.wide x.ty
  let F := FTy.fmt x.ty
  let rd := fun (o : Opnd) (l : Nat) => readF F f.ftz (readLaneF s f w o l)
  floatPlan i s f false [(w, x.a), (w, x.b), (w, x.c)] w x.wd x.d fun l =>
    let (a, b, c) := g (rd x.a l) (rd x.b l) (rd x.c l)
    (ffmaV F x.rnd f.ftz a b c).lane
/-- One operand as raw bits. -/
def f1Plan (i : Instr) (x : OpF1) (late : Bool) (g : Fmt → Bool → BitVec 64 → FRes) (s : State) (f : Fibre) : Plan :=
  let w := FTy.wide x.ty
  floatPlan i s f late [(w, x.a)] w x.wd x.d fun l => (g (FTy.fmt x.ty) f.ftz (readLaneF s f w x.a l)).lane

/-! ## Arithmetic (R199, R200) -/

/-- FADD. -/
def execFadd (x : OpF2) (s : State) := issueWord (.fadd x) x.h (f2Plan (.fadd x) x fun F z a b => faddV F x.rnd z a b) s
/-- FSUB. -/
def execFsub (x : OpF2) (s : State) :=
  issueWord (.fsub x) x.h (f2Plan (.fsub x) x fun F z a b => faddV F x.rnd z a b.negate) s
/-- FMUL. -/
def execFmul (x : OpF2) (s : State) := issueWord (.fmul x) x.h (f2Plan (.fmul x) x fun F z a b => fmulV F x.rnd z a b) s
/-- FFMA. -/
def execFfma (x : OpF3) (s : State) := issueWord (.ffma x) x.h (f3Plan (.ffma x) x fun a b c => (a, b, c)) s
/-- FFMS. -/
def execFfms (x : OpF3) (s : State) := issueWord (.ffms x) x.h (f3Plan (.ffms x) x fun a b c => (a, b, c.negate)) s
/-- FNFMA. -/
def execFnfma (x : OpF3) (s : State) := issueWord (.fnfma x) x.h (f3Plan (.fnfma x) x fun a b c => (a.negate, b, c)) s
/-- FMIN. -/
def execFmin (x : OpF2) (s : State) := issueWord (.fmin x) x.h (f2Plan (.fmin x) x fun F _ a b => fminV F false a b) s
/-- FMAX. -/
def execFmax (x : OpF2) (s : State) := issueWord (.fmax x) x.h (f2Plan (.fmax x) x fun F _ a b => fminV F true a b) s

/-- The sign bit of a format, as a mask. -/
def signMask (F : Fmt) : BitVec 64 := BitVec.ofNat 64 (2 ^ ((fpar F).w - 1))
/-- FABS. -/
def execFabs (x : OpF1) (s : State) :=
  issueWord (.fabs x) x.h (f1Plan (.fabs x) x false fun F _ a => ⟨(a &&& ~~~(signMask F)).toNat, 0⟩) s
/-- FNEG. -/
def execFneg (x : OpF1) (s : State) :=
  issueWord (.fneg x) x.h (f1Plan (.fneg x) x false fun F _ a => ⟨(a ^^^ signMask F).toNat, 0⟩) s
/-- FCPSGN. -/
def execFcpsgn (x : OpF2) (s : State) :=
  issueWord (.fcpsgn x) x.h (fun s f =>
    let w := FTy.wide x.ty
    let k := signMask (FTy.fmt x.ty)
    floatPlan (.fcpsgn x) s f false [(w, x.a), (w, x.b)] w x.wd x.d fun l =>
      ⟨(readLaneF s f w x.a l &&& ~~~k) ||| (readLaneF s f w x.b l &&& k), 0⟩) s
/-- FSCALE: B is a signed integer of 32 bits. -/
def execFscale (x : OpF2) (s : State) :=
  issueWord (.fscale x) x.h (fun s f =>
    let w := FTy.wide x.ty
    let F := FTy.fmt x.ty
    floatPlan (.fscale x) s f false [(w, x.a), (w, x.b)] w x.wd x.d fun l =>
      (fscaleV F x.rnd f.ftz (readF F f.ftz (readLaneF s f w x.a l)) (sext 32 (readLane s f w x.b l).toNat)).lane) s
/-- FRINT. -/
def execFrint (x : OpF1) (s : State) :=
  issueWord (.frint x) x.h (f1Plan (.frint x) x false fun F z a => frintV F x.rnd (readF F z a)) s

/-! ## Comparison and classification (R201, R202) -/

/-- FCMP. -/
def execFcmp (x : OpFcmp) (s : State) :=
  issueWord (.fcmp x) x.h (fun s f =>
    let w := FTy.wide x.ty
    let F := FTy.fmt x.ty
    let rd := fun (o : Opnd) (l : Nat) => readF F f.ftz (readLaneF s f w o l)
    let r := fun (l : Nat) => fcmpV x.c (rd x.a l) (rd x.b l)
    let lanes := fun (l : Nat) => (⟨0, (r l).2⟩ : LaneRes)
    { Plan.uni fun m =>
        let ok := m &&& ~~~(faultMask m f.en lanes)
        .fixed [.p x.d.toNat ok (mkMask fun l => (r l).1)] (raisedFlags ok lanes) (arithTrap (.fcmp x) f m lanes)
      with
      uniform := false
      operand := vecBad s f w x.a || vecBad s f w x.b
      srcs := vecNames w x.a ++ vecNames w x.b
      dests := pdstNames x.d }) s
/-- FCLASS: one register of 32-bit elements, on raw bits. -/
def execFclass (x : OpF1) (s : State) :=
  issueWord (.fclass x) x.h (fun s f =>
    let w := FTy.wide x.ty
    floatPlan (.fclass x) s f false [(w, x.a)] false x.wd x.d fun l =>
      ⟨BitVec.ofNat 64 (2 ^ fclassBit (FTy.fmt x.ty) (readLaneF s f w x.a l)), 0⟩) s

/-! ## Special functions (R203, R204) -/

/-- FRCP. -/
def execFrcp (x : OpF1) (s : State) :=
  issueWord (.frcp x) x.h (f1Plan (.frcp x) x true fun F z a => frcpV F x.rnd z (readF F z a)) s
/-- FSQRT. -/
def execFsqrt (x : OpF1) (s : State) :=
  issueWord (.fsqrt x) x.h (f1Plan (.fsqrt x) x true fun F z a => fsqrtV F x.rnd z (readF F z a)) s
/-- FRSQRT. -/
def execFrsqrt (x : OpF1) (s : State) :=
  issueWord (.frsqrt x) x.h (f1Plan (.frsqrt x) x true fun F z a => specialV .rsqrt 0x61 F z a) s
/-- FEXP2. -/
def execFexp2 (x : OpF1) (s : State) :=
  issueWord (.fexp2 x) x.h (f1Plan (.fexp2 x) x true fun F z a => specialV .exp2 0x63 F z a) s
/-- FLOG2. -/
def execFlog2 (x : OpF1) (s : State) :=
  issueWord (.flog2 x) x.h (f1Plan (.flog2 x) x true fun F z a => specialV .log2 0x64 F z a) s
/-- FSIN. -/
def execFsin (x : OpF1) (s : State) :=
  issueWord (.fsin x) x.h (f1Plan (.fsin x) x true fun F z a => specialV .sin 0x65 F z a) s
/-- FCOS. -/
def execFcos (x : OpF1) (s : State) :=
  issueWord (.fcos x) x.h (f1Plan (.fcos x) x true fun F z a => specialV .cos 0x66 F z a) s

/-! ## Sums and extremes across lanes (R205, R206) -/

/-- The effect of a cross-lane result: one value for every active lane, or, with a faulting lane, no write and no flag. -/
def crossEff (i : Instr) (f : Fibre) (wide wd : Bool) (d : BitVec 7) (m : BitVec 32) (v : BitVec 64) (flags : Nat → BitVec 32) :
    Eff :=
  let lanes := fun (l : Nat) => (⟨0, flags l⟩ : LaneRes)
  let marks := RegId.xflags :: vdstNames wide wd d
  match arithTrap i f m lanes with
  | none => .lateF marks (vdstPut wide wd d m fun _ => v) (raisedFlags m lanes) none
  | some t => .lateF marks [] 0 (some t)

/-- A value with its signalling mark dropped, and INVALID if it had one. -/
def quiet (x : FV) : FV × BitVec 32 :=
  match x with
  | .nan true s => (.nan false s, fINVALID)
  | y => (y, 0)

/-- The steps of R205 over the active lanes: the accumulator and the flags by lane. -/
def crossFold (F : Fmt) (step : FV → FV → FRes) (x : Nat → FV) : List Nat → FV × List (Nat × BitVec 32)
  | [] => (.nan false false, [])
  | l :: r =>
    let (a0, f0) := quiet (x l)
    r.foldl (fun (acc : FV × List (Nat × BitVec 32)) k =>
      let z := step acc.1 (x k)
      (readF F false (BitVec.ofNat 64 z.bits), acc.2 ++ [(k, z.flags)])) (a0, [(l, f0)])

/-- `fsum`, `flmax`, `flmin`. -/
def crossPlan (i : Instr) (x : OpF1) (step : Fmt → Bool → FV → FV → FRes) (s : State) (f : Fibre) : Plan :=
  let w := FTy.wide x.ty
  let F := FTy.fmt x.ty
  { floatPlan i s f true [(w, x.a)] w x.wd x.d (fun _ => ⟨0, 0⟩) with
    own := fun m =>
      let r := crossFold F (step F f.ftz) (fun l => readF F f.ftz (readLaneF s f w x.a l)) (lanesOf m)
      let v := match r.1 with
        | .nan _ _ => nanBits F false
        | y => bitsOf F y
      crossEff i f w x.wd x.d m (BitVec.ofNat 64 v) fun l => ((r.2.find? fun e => e.1 == l).map (·.2)).getD 0 }
/-- FSUM. -/
def execFsum (x : OpF1) (s : State) := issueWord (.fsum x) x.h (crossPlan (.fsum x) x fun F z a b => faddV F x.rnd z a b) s
/-- FLMAX. -/
def execFlmax (x : OpF1) (s : State) := issueWord (.flmax x) x.h (crossPlan (.flmax x) x fun F _ a b => fminV F true a b) s
/-- FLMIN. -/
def execFlmin (x : OpF1) (s : State) := issueWord (.flmin x) x.h (crossPlan (.flmin x) x fun F _ a b => fminV F false a b) s

/-! ## Conversions (R209 to R214) -/

/-- A format of 64 bits fills pairs. -/
def Fmt.wide : Fmt → Bool
  | .f64 | .i64 | .n64 => true
  | _ => false

/-- The stream registers of `.sr` (R66): key and counter. -/
def streamRegs (j : BitVec 4) : Nat × Nat := (2 * j.toNat, 2 * j.toNat + 1)
/-- The stream word of a counter value (R66). -/
def streamWord (f : Fibre) (j : BitVec 4) (n : Nat) : Nat :=
  (rng (f.sreg (streamRegs j).2 + BitVec.ofNat 64 n) (f.sreg (streamRegs j).1)).toNat % 2 ^ 32

/-- A conversion plan with its stream: the stream registers are named and the counter advances by `n` (R66). -/
def withStream (P : Plan) (f : Fibre) (rnd : Rnd) (j : BitVec 4) (n : Nat) : Plan :=
  if rnd = .sr then
    { P with
      srcs := P.srcs ++ [.s (streamRegs j).1, .s (streamRegs j).2]
      dests := P.dests ++ [.s (streamRegs j).2]
      always := [.s (streamRegs j).2 (f.sreg (streamRegs j).2 + BitVec.ofNat 64 n)] }
  else P

/-- CVT. -/
def execCvt (x : OpCvt) (s : State) :=
  issueWord (.cvt x) x.h (fun s f =>
    let sw := Fmt.wide x.sfmt
    let dw := Fmt.wide x.dfmt
    let P := floatPlan (.cvt x) s f true [(sw, x.a)] dw x.wd x.d fun l =>
      let raw := if x.sfmt.isInt then readLane s f sw x.a l else readLaneF s f sw x.a l
      let r := convert x.sfmt x.dfmt x.rnd (if x.rnd = .sr then streamWord f x.stream l else 0) x.nsat f.ftz
        (elemAt x.sfmt raw x.sel.toNat)
      ⟨r.1, r.2⟩
    withStream P f x.rnd x.stream 32) s

/-- PACK. -/
def execPack (x : OpPack) (s : State) :=
  issueWord (.pack x) x.h (fun s f =>
    let P := floatPlan (.pack x) s f true [(false, x.a), (false, x.b), (false, x.c)] false x.wd x.d fun l =>
      let cv := fun (o : Opnd) (n : Nat) =>
        convert .f32 x.dfmt x.rnd (if x.rnd = .sr then streamWord f x.stream (n + l) else 0) x.nsat f.ftz (readLaneF s f false o l)
      let ya := cv x.a 0
      let yb := cv x.b 32
      let c := BitVec.ofNat 64 ((readLane s f false x.c l).toNat % 2 ^ 32)
      let p := 2 * x.pos.toNat
      ⟨setElem x.dfmt (setElem x.dfmt c p ya.1.toNat) (p + 1) yb.1.toNat, ya.2 ||| yb.2⟩
    withStream P f x.rnd x.stream 64) s

/-- PK2. -/
def execPk2 (x : OpPk2) (s : State) :=
  issueWord (.pk2 x) x.h (fun s f =>
    let F : Fmt := if x.bf then .bf16 else .f16
    floatPlan (.pk2 x) s f true [(false, x.a), (false, x.b)] false x.wd x.d fun l =>
      let ya := convert .f32 F x.rnd 0 x.nsat f.ftz (readLaneF s f false x.a l)
      let yb := convert .f32 F x.rnd 0 x.nsat f.ftz (readLaneF s f false x.b l)
      ⟨BitVec.ofNat 64 (ya.1.toNat % 2 ^ 16 + yb.1.toNat % 2 ^ 16 * 2 ^ 16), ya.2 ||| yb.2⟩) s

/-- Two elements of a lane as FP32 values, the second in the upper half of a pair (R214). -/
def unpackLane (F : Fmt) (ftz : Bool) (raw : BitVec 64) (j : Nat) : LaneRes :=
  let lo := convert F .f32 .rn 0 false ftz (elemAt F raw (2 * j))
  let hi := convert F .f32 .rn 0 false ftz (elemAt F raw (2 * j + 1))
  ⟨BitVec.ofNat 64 (hi.1.toNat % 2 ^ 32 * 2 ^ 32 + lo.1.toNat % 2 ^ 32), lo.2 ||| hi.2⟩
/-- UNPACK. -/
def execUnpack (x : OpUnpack) (s : State) :=
  issueWord (.unpack x) x.h (fun s f =>
    floatPlan (.unpack x) s f true [(false, x.a)] true x.wd x.d fun l =>
      unpackLane x.sfmt f.ftz (readLaneF s f false x.a l) x.pair.toNat) s
/-- UPK2. -/
def execUpk2 (x : OpUpk2) (s : State) :=
  issueWord (.upk2 x) x.h (fun s f =>
    floatPlan (.upk2 x) s f true [(false, x.a)] true x.wd x.d fun l =>
      unpackLane (if x.bf then .bf16 else .f16) f.ftz (readLaneF s f false x.a l) 0) s

/-! ## Scales and bit planes (R215 to R217) -/

/-- SCAPPLY. -/
def execScapply (x : OpScapply) (s : State) :=
  issueWord (.scapply x) x.h (fun s f =>
    floatPlan (.scapply x) s f true [(false, x.a), (false, x.b)] false x.wd x.d fun l =>
      (scaleProduct x.sfmt (elemAt x.sfmt (readLaneF s f false x.a l) x.sel.toNat).toNat
        ((readLaneF s f false x.b l).toNat % 256)).lane) s

/-- The greater magnitude of two, NaNs passed over: `none` where nothing has been met. -/
def maxMag (acc : Option FV) (x : FV) : Option FV :=
  match x with
  | .nan _ _ => acc
  | .inf _ => some (.inf false)
  | .fin _ m e =>
    match acc with
    | none => some (.fin false m e)
    | some (.fin _ n d) => some (if scaledLt n d m e then .fin false m e else .fin false n d)
    | some y => some y

/-- The exponent that `scfind` chooses (R216). -/
def scaleExp (F : Fmt) (amax : Option FV) : Int :=
  match amax with
  | none => 0
  | some (.fin _ m e) =>
    if m = 0 then 0
    else
      let P := fpar F
      match (List.range 31).find? fun (k : Nat) => !scaledLt P.maxM (P.maxE + (k : Int) - 14) m e with
      | some k => (k : Int) - 14
      | none => 16
  | some _ => 16

/-- SCFIND. -/
def execScfind (x : OpScfind) (s : State) :=
  issueWord (.scfind x) x.h (fun s f =>
    let v := fun (l : Nat) => readF .f32 f.ftz (readLaneF s f false x.a l)
    { floatPlan (.scfind x) s f true [(false, x.a)] false x.wd x.d (fun _ => ⟨0, 0⟩) with
      own := fun m =>
        let e := scaleExp x.dfmt ((lanesOf m).foldl (fun acc l => maxMag acc (v l)) none)
        let code := if x.out then encodeF .f32 false 1 (-e) else (e + 15).toNat * 8
        crossEff (.scfind x) f false x.wd x.d m (BitVec.ofNat 64 code) fun l => if (v l).isSNan then fINVALID else 0 }) s

/-- Byte form to plane form (R217): lane 4 × (7 − p) + w. -/
def toPlanes (x : Nat → BitVec 64) (l : Nat) : BitVec 64 :=
  let p := 7 - l / 4
  let w := l % 4
  let bit := fun (j : Nat) => (x (j / 4)).getLsbD (8 * (j % 4) + p)
  BitVec.ofNat 64 ((List.range 32).foldl (fun acc i => if bit (32 * w + i) then acc + 2 ^ i else acc) 0)
/-- Plane form to byte form with the first `k` planes (R217). -/
def toBytes (k : Nat) (x : Nat → BitVec 64) (l : Nat) : BitVec 64 :=
  let elem := fun (j : Nat) => (List.range 8).foldl (fun acc p =>
    if 8 - k ≤ p ∧ (x (4 * (7 - p) + j / 32)).getLsbD (j % 32) = true then acc + 2 ^ p else acc) 0
  BitVec.ofNat 64 ((List.range 4).foldl (fun acc b => acc + elem (4 * l + b) * 256 ^ b) 0)
/-- BPEXT. -/
def execBpext (x : OpBpext) (s : State) :=
  issueWord (.bpext x) x.h (fun s f =>
    let a := readLane s f false x.a
    floatPlan (.bpext x) s f true [(false, x.a)] false x.wd x.d fun l =>
      ⟨if x.dir then toBytes x.k.toNat a l else toPlanes a l, 0⟩) s

end Sys2Proof.Machine
end

