-- ==== Sys2Proof/Machine/MemOps.lean ====
section
/-! DEFINITION. The meanings of loads, stores, accumulator loads and stores, copies, page and line operations, opcodes
0xB0 to 0xC3 (10 R247 to R267). -/

namespace Sys2Proof.Machine

/-! ## Addresses (R247, R248) -/

/-- How an address operand is read. -/
inductive AddrMode where
  /-- A tagged pointer. -/
  | ptr
  /-- A 32-bit offset in the own core's scratchpad, or in the cluster's. -/
  | own | cluster
  deriving DecidableEq, Repr

/-- The operands of an address: A, the index if there is one, and the displacement. -/
structure AddrArg where
  mode : AddrMode
  a    : Opnd
  c    : Option Opnd
  disp : Int
  deriving DecidableEq, Repr

/-- An index field: 0x0000 is none (R247). -/
def indexOf (c : Opnd) : Option Opnd := if c = ⟨0, 0, false, 0⟩ then none else some c

/-- The address operands of an 8-byte form. -/
def arg8 (mode : AddrMode) (a : Opnd) : AddrArg := ⟨mode, a, none, 0⟩
/-- Of a 12-byte form. -/
def arg12 (mode : AddrMode) (a c : Opnd) (disp : BitVec 16) : AddrArg := ⟨mode, a, indexOf c, sext 16 disp.toNat⟩
/-- Of a 16-byte form. -/
def arg16 (mode : AddrMode) (a c : Opnd) (disp : BitVec 48) : AddrArg := ⟨mode, a, indexOf c, sext 48 disp.toNat⟩

/-- A pointer is a scalar or a pair; an offset is not a pair (R247). -/
def AddrArg.wide (x : AddrArg) : Bool := x.mode == .ptr
/-- An address operand that is refused. -/
def AddrArg.bad (s : State) (f : Fibre) (x : AddrArg) : Bool := vecBad s f x.wide x.a || x.c.any (vecBad s f false)
/-- The registers it names. -/
def AddrArg.names (x : AddrArg) : List RegId :=
  vecNames x.wide x.a ++ match x.c with
    | some c => vecNames false c
    | none => []

/-- The effective address of a lane and its checks (R248, R276). -/
def AddrArg.check (s : State) (f : Fibre) (x : AddrArg) (k : AccKind) (coded : Bool) (n val l : Nat) : Word × LaneChk :=
  let idx := x.c.map fun c => sext 32 (readLane s f false c l).toNat
  let low : Nat := (readLane s f false x.a l).toNat % 2 ^ 32
  let off : Int := idx.getD 0 * n + x.disp
  match x.mode with
  | .ptr => checkElem s (ctxOf s f) k coded n (ptrAdd (readLane s f true x.a l) x.disp) idx val
  | .own => checkElem s (ctxOf s f) k false n (ptrMake 1 0 (wrap 32 (low + off))) none val
  | .cluster => checkElem s (ctxOf s f) k false n (ptrMake 2 (low / 2 ^ 29) (wrap 29 (low % 2 ^ 29 + off))) none val

/-! ## Effects of accesses (R252, R254) -/

/-- An access that may not run ahead waits for the fibre to be non-speculative. -/
def irrevocable (s : State) (f : Fibre) (now : Bool) (e : Eff) : Eff :=
  if now && !f.settled && !heldMode s f then .wait s else e

/-- A load: uncached pages are irrevocable, and end a quantum (R254, R381). -/
def loadEff (s : State) (f : Fibre) (size : Nat) (signed : Bool) (dest : Dest) (hint : Hint) (marks : List RegId)
    (accs : List LaneAcc) (fills : List TlbEntry) : Eff :=
  let now := touchesUncached accs
  irrevocable s f now (.op (.load accs size signed dest hint) marks (!now) now fills)

/-- A store: scratchpad and uncached pages are irrevocable. -/
def storeEff (s : State) (f : Fibre) (size : Nat) (data : List Nat) (accs : List LaneAcc) (fills : List TlbEntry) : Eff :=
  let now := touchesUncached accs || touchesScratch accs
  irrevocable s f now (.op (.store accs size data) [] (!now) false fills)

/-! ## Vector loads and stores (R253) -/

/-- Element size in bytes. -/
def tyBytes (ty : IntTy) : Nat := ty.width / 8

/-- A vector load. -/
def ldPlan (i : Instr) (k : AccKind) (ty : IntTy) (wd : Bool) (d : BitVec 7) (hint : Hint) (x : AddrArg) (s : State)
    (f : Fibre) : Plan :=
  let w := IntTy.wide ty
  let n := tyBytes ty
  { Plan.uni fun m =>
      afterChecks i f s (combine ((lanesOf m).map fun l => (l, x.check s f k true n 0 l))) fun accs fills =>
        loadEff s f n (!ty.unsigned) (.vec wd d.toNat w) hint (vdstNames w wd d) accs fills
    with
    uniform := false
    access := true
    hint := hint
    operand := x.bad s f || vdstBad s f w wd d
    srcs := x.names
    dests := vdstNames w wd d }

/-- A vector store. -/
def stPlan (i : Instr) (ty : IntTy) (hint : Hint) (b : Opnd) (x : AddrArg) (s : State) (f : Fibre) : Plan :=
  let w := IntTy.wide ty
  let n := tyBytes ty
  let val := fun (l : Nat) => (readLane s f w b l).toNat % 256 ^ n
  { Plan.uni fun m =>
      afterChecks i f s (combine ((lanesOf m).map fun l => (l, x.check s f .store true n (val l) l))) fun accs fills =>
        storeEff s f n ((lanesOf m).map val) accs fills
    with
    uniform := false
    access := true
    hint := hint
    operand := x.bad s f || vecBad s f w b
    srcs := x.names ++ vecNames w b }

/-- LD_8B. -/
def execLd8 (x : OpLd8) (s : State) := issueWord (.ld8 x) x.h (ldPlan (.ld8 x) .load x.ty x.wd x.d x.hint (arg8 .ptr x.a)) s
/-- LD_12B. -/
def execLd12 (x : OpLd12) (s : State) :=
  issueWord (.ld12 x) x.h (ldPlan (.ld12 x) .load x.ty x.wd x.d x.hint (arg12 .ptr x.a x.c x.disp)) s
/-- LD_16B. -/
def execLd16 (x : OpLd16) (s : State) :=
  issueWord (.ld16 x) x.h (ldPlan (.ld16 x) .load x.ty x.wd x.d x.hint (arg16 .ptr x.a x.c x.disp)) s
/-- LDS_8B. -/
def execLds8 (x : OpLd8) (s : State) := issueWord (.lds8 x) x.h (ldPlan (.lds8 x) .load x.ty x.wd x.d x.hint (arg8 .own x.a)) s
/-- LDS_12B. -/
def execLds12 (x : OpLd12) (s : State) :=
  issueWord (.lds12 x) x.h (ldPlan (.lds12 x) .load x.ty x.wd x.d x.hint (arg12 .own x.a x.c x.disp)) s
/-- LDS_16B. -/
def execLds16 (x : OpLd16) (s : State) :=
  issueWord (.lds16 x) x.h (ldPlan (.lds16 x) .load x.ty x.wd x.d x.hint (arg16 .own x.a x.c x.disp)) s
/-- LDR_8B. -/
def execLdr8 (x : OpLd8) (s : State) := issueWord (.ldr8 x) x.h (ldPlan (.ldr8 x) .load x.ty x.wd x.d x.hint (arg8 .cluster x.a)) s
/-- LDR_12B. -/
def execLdr12 (x : OpLd12) (s : State) :=
  issueWord (.ldr12 x) x.h (ldPlan (.ldr12 x) .load x.ty x.wd x.d x.hint (arg12 .cluster x.a x.c x.disp)) s
/-- LDR_16B. -/
def execLdr16 (x : OpLd16) (s : State) :=
  issueWord (.ldr16 x) x.h (ldPlan (.ldr16 x) .load x.ty x.wd x.d x.hint (arg16 .cluster x.a x.c x.disp)) s
/-- LDC_8B. -/
def execLdc8 (x : OpLd8) (s : State) := issueWord (.ldc8 x) x.h (ldPlan (.ldc8 x) .const x.ty x.wd x.d x.hint (arg8 .ptr x.a)) s
/-- LDC_12B. -/
def execLdc12 (x : OpLd12) (s : State) :=
  issueWord (.ldc12 x) x.h (ldPlan (.ldc12 x) .const x.ty x.wd x.d x.hint (arg12 .ptr x.a x.c x.disp)) s
/-- LDC_16B. -/
def execLdc16 (x : OpLd16) (s : State) :=
  issueWord (.ldc16 x) x.h (ldPlan (.ldc16 x) .const x.ty x.wd x.d x.hint (arg16 .ptr x.a x.c x.disp)) s

/-- ST_8B. -/
def execSt8 (x : OpSt8) (s : State) := issueWord (.st8 x) x.h (stPlan (.st8 x) x.ty x.hint x.b (arg8 .ptr x.a)) s
/-- ST_12B. -/
def execSt12 (x : OpSt12) (s : State) :=
  issueWord (.st12 x) x.h (stPlan (.st12 x) x.ty x.hint x.b (arg12 .ptr x.a x.c x.disp)) s
/-- ST_16B. -/
def execSt16 (x : OpSt16) (s : State) :=
  issueWord (.st16 x) x.h (stPlan (.st16 x) x.ty x.hint x.b (arg16 .ptr x.a x.c x.disp)) s
/-- STS_8B. -/
def execSts8 (x : OpSt8) (s : State) := issueWord (.sts8 x) x.h (stPlan (.sts8 x) x.ty x.hint x.b (arg8 .own x.a)) s
/-- STS_12B. -/
def execSts12 (x : OpSt12) (s : State) :=
  issueWord (.sts12 x) x.h (stPlan (.sts12 x) x.ty x.hint x.b (arg12 .own x.a x.c x.disp)) s
/-- STS_16B. -/
def execSts16 (x : OpSt16) (s : State) :=
  issueWord (.sts16 x) x.h (stPlan (.sts16 x) x.ty x.hint x.b (arg16 .own x.a x.c x.disp)) s
/-- STR_8B. -/
def execStr8 (x : OpSt8) (s : State) := issueWord (.str8 x) x.h (stPlan (.str8 x) x.ty x.hint x.b (arg8 .cluster x.a)) s
/-- STR_12B. -/
def execStr12 (x : OpSt12) (s : State) :=
  issueWord (.str12 x) x.h (stPlan (.str12 x) x.ty x.hint x.b (arg12 .cluster x.a x.c x.disp)) s
/-- STR_16B. -/
def execStr16 (x : OpSt16) (s : State) :=
  issueWord (.str16 x) x.h (stPlan (.str16 x) x.ty x.hint x.b (arg16 .cluster x.a x.c x.disp)) s

/-! ## Register blocks (R253) -/

/-- Registers of a count code. -/
def BlkCount.regs : BlkCount → Nat
  | .x1 => 1 | .x2 => 2 | .x4 => 4 | .x8 => 8

/-- The elements of a block access in ascending lane and register: lane + 32 × register, address, checks. -/
def blkChecks (s : State) (f : Fibre) (k : AccKind) (n : Nat) (base : Word) (m : BitVec 32) : List (Nat × Word × LaneChk) :=
  (lanesOf m).flatMap fun (l : Nat) => (List.range n).map fun (i : Nat) =>
    let ea := ptrAdd base (128 * i + 4 * l)
    (l + 32 * i, ea, checkBytes s (ctxOf s f) k 4 ea)

/-- `ldblk`. -/
def ldblkPlan (i : Instr) (cnt : BlkCount) (wd : Bool) (d : BitVec 7) (hint : Hint) (a : Opnd) (disp : Int) (s : State)
    (f : Fibre) : Plan :=
  let n := BlkCount.regs cnt
  let regs := (List.range n).flatMap fun j => vdstNames false wd (d + BitVec.ofNat 7 j)
  { Plan.uni fun m =>
      afterChecks i f s (combine (blkChecks s f .load n (ptrAdd (readSca f a) disp) m)) fun accs fills =>
        loadEff s f 4 false (.blk wd d.toNat) hint regs accs fills
    with
    uniform := false
    access := true
    hint := hint
    operand := scaBad a || d.toNat % n != 0 || (List.range n).any fun j => vdstBad s f false wd (d + BitVec.ofNat 7 j)
    srcs := scaNames a
    dests := regs }

/-- `stblk`. -/
def stblkPlan (i : Instr) (cnt : BlkCount) (hint : Hint) (a b : Opnd) (disp : Int) (s : State) (f : Fibre) : Plan :=
  let n := BlkCount.regs cnt
  let r := b.num.toNat
  { Plan.uni fun m =>
      afterChecks i f s (combine (blkChecks s f .store n (ptrAdd (readSca f a) disp) m)) fun accs fills =>
        storeEff s f 4 ((lanesOf m).flatMap fun l => (List.range n).map fun j => (lane (f.vreg (r + j)) l).toNat) accs fills
    with
    uniform := false
    access := true
    hint := hint
    operand := scaBad a || b.cls || b.kind != 0 || b.k != 0 || r % n != 0 || (List.range n).any fun j => !f.present (r + j)
    srcs := scaNames a ++ (List.range n).map fun j => .v (r + j) }

/-- LDBLK_8B. -/
def execLdblk8 (x : OpLdblk8) (s : State) := issueWord (.ldblk8 x) x.h (ldblkPlan (.ldblk8 x) x.cnt x.wd x.d x.hint x.a 0) s
/-- LDBLK_12B. -/
def execLdblk12 (x : OpLdblk12) (s : State) :=
  issueWord (.ldblk12 x) x.h (ldblkPlan (.ldblk12 x) x.cnt x.wd x.d x.hint x.a (sext 16 x.disp.toNat)) s
/-- LDBLK_16B. -/
def execLdblk16 (x : OpLdblk16) (s : State) :=
  issueWord (.ldblk16 x) x.h (ldblkPlan (.ldblk16 x) x.cnt x.wd x.d x.hint x.a (sext 48 x.disp.toNat)) s
/-- STBLK_8B. -/
def execStblk8 (x : OpStblk8) (s : State) := issueWord (.stblk8 x) x.h (stblkPlan (.stblk8 x) x.cnt x.hint x.a x.b 0) s
/-- STBLK_12B. -/
def execStblk12 (x : OpStblk12) (s : State) :=
  issueWord (.stblk12 x) x.h (stblkPlan (.stblk12 x) x.cnt x.hint x.a x.b (sext 16 x.disp.toNat)) s
/-- STBLK_16B. -/
def execStblk16 (x : OpStblk16) (s : State) :=
  issueWord (.stblk16 x) x.h (stblkPlan (.stblk16 x) x.cnt x.hint x.a x.b (sext 48 x.disp.toNat)) s

/-! ## Scalar loads and stores (R253) -/

/-- `ldsc`. -/
def ldscPlan (i : Instr) (ty : IntTy) (d : BitVec 5) (hint : Hint) (a : Opnd) (disp : Int) (s : State) (f : Fibre) : Plan :=
  let n := tyBytes ty
  let ea := ptrAdd (readSca f a) disp
  { Plan.uni fun _ =>
      afterChecks i f s (combine [(0, ea, checkBytes s (ctxOf s f) .load n ea)]) fun accs fills =>
        loadEff s f n (!ty.unsigned) (.sca d.toNat) hint [.s d.toNat] accs fills
    with access := true, hint := hint, operand := scaBad a, srcs := scaNames a, dests := [.s d.toNat] }

/-- `stsc`. -/
def stscPlan (i : Instr) (ty : IntTy) (hint : Hint) (a b : Opnd) (disp : Int) (s : State) (f : Fibre) : Plan :=
  let n := tyBytes ty
  let ea := ptrAdd (readSca f a) disp
  { Plan.uni fun _ =>
      afterChecks i f s (combine [(0, ea, checkBytes s (ctxOf s f) .store n ea)]) fun accs fills =>
        storeEff s f n [(readSca f b).toNat % 256 ^ n] accs fills
    with access := true, hint := hint, operand := scaBad a || scaBad b, srcs := scaNames a ++ scaNames b }

/-- LDSC_8B. -/
def execLdsc8 (x : OpLdsc8) (s : State) := issueWord (.ldsc8 x) x.h (ldscPlan (.ldsc8 x) x.ty x.d x.hint x.a 0) s
/-- LDSC_12B. -/
def execLdsc12 (x : OpLdsc12) (s : State) :=
  issueWord (.ldsc12 x) x.h (ldscPlan (.ldsc12 x) x.ty x.d x.hint x.a (sext 16 x.disp.toNat)) s
/-- LDSC_16B. -/
def execLdsc16 (x : OpLdsc16) (s : State) :=
  issueWord (.ldsc16 x) x.h (ldscPlan (.ldsc16 x) x.ty x.d x.hint x.a (sext 48 x.disp.toNat)) s
/-- STSC_8B. -/
def execStsc8 (x : OpSt8) (s : State) := issueWord (.stsc8 x) x.h (stscPlan (.stsc8 x) x.ty x.hint x.a x.b 0) s
/-- STSC_12B. -/
def execStsc12 (x : OpStsc12) (s : State) :=
  issueWord (.stsc12 x) x.h (stscPlan (.stsc12 x) x.ty x.hint x.a x.b (sext 16 x.disp.toNat)) s
/-- STSC_16B. -/
def execStsc16 (x : OpStsc16) (s : State) :=
  issueWord (.stsc16 x) x.h (stscPlan (.stsc16 x) x.ty x.hint x.a x.b (sext 48 x.disp.toNat)) s

/-! ## Accumulator loads and stores (R255) -/

/-- STORAGE.ACC (R39). -/
def accTiles (s : State) (f : Fibre) : Nat := wfield (descOf s f).storage 17 13

/-- The fault of a uniform instruction names lane 0 (R252). -/
def Chk.uniform : Chk → Chk
  | .fault f _ addr => .fault f 1 addr
  | c => c

/-- The rows of a tile image, 64 of FP32 or 32 of FP64: place, address, checks. -/
def rowChecks (s : State) (f : Fibre) (k : AccKind) (wide : Bool) (ea : Word) (stride : Int) : List (Nat × Word × LaneChk) :=
  (List.range (if wide then 32 else 64)).map fun (r : Nat) =>
    let at_ := ptrAdd ea (r * stride)
    let c := checkBytes s (ctxOf s f) k 256 at_
    let bad := ptrAddr ea % 8 ≠ 0 ∨ stride % 8 ≠ 0
    (r, at_, if r = 0 ∧ bad then { c with faults := c.faults ++ [AFault.align] } else c)

/-- `ldacc` and `stacc`. -/
def accPlan (i : Instr) (store wide : Bool) (tile : Nat) (hint : Hint) (a b : Opnd) (disp : Int) (s : State) (f : Fibre) : Plan :=
  let ea := ptrAdd (readSca f a) disp
  let stride := sext 32 (readSca f b).toNat
  let k : AccKind := if store then .accStore else .accLoad
  { Plan.uni fun _ =>
      afterChecks i f s (combine (rowChecks s f k wide ea stride)).uniform fun accs fills =>
        .op (if store then .stacc tile wide accs else .ldacc tile wide accs hint) [] false false fills
    with
    access := true
    hint := hint
    operand := scaBad a || scaBad b || decide (accTiles s f ≤ tile)
    srcs := scaNames a ++ scaNames b
    nonspec := true }
/-- LDACC. -/
def execLdacc (x : OpLdacc) (s : State) :=
  issueWord (.ldacc x) x.h (accPlan (.ldacc x) false x.wide x.d.toNat x.hint x.a x.b (sext 16 x.disp.toNat)) s
/-- STACC: its IMM16 names the tile, so that it has no displacement. -/
def execStacc (x : OpStacc) (s : State) := issueWord (.stacc x) x.h (accPlan (.stacc x) true x.wide x.tile.toNat x.hint x.a x.b 0) s

/-! ## Copies (R256 to R261) -/

/-- The shape of a copy (R257). -/
structure Shape where
  rows : Nat
  rowBytes : Nat
  sstride : Int
  dstride : Int
  deriving DecidableEq, Repr

/-- The shape that a scalar pair holds. -/
def shapeOf (lo hi : Word) : Shape := ⟨wfield lo 63 32, wfield lo 31 0, sext 32 hi.toNat, sext 32 (wfield hi 63 32)⟩
/-- A shape outside the ranges of R257. -/
def Shape.bad (p : Shape) (gather : Bool) : Bool :=
  p.rows == 0 || decide ((if gather then 32 else 65536) < p.rows) || p.rowBytes == 0 || decide (65536 < p.rowBytes)

/-- The faults of a copy's pointers at issue (R258, R259): tags, spaces, and the scratch ranges of its rows. -/
def copyPtrFaults (s : State) (f : Fibre) (dst expand : Bool) (p : Word) (rows : List Word) (n : Nat) : List AFault :=
  match tagFaults p with
  | e :: r => e :: r
  | [] =>
    let sp := ptrSpace p
    (if dst ∧ (sp = 3 ∨ (expand = true ∧ sp ≠ 1)) then [AFault.kind] else []) ++
      (if dst ∧ sp = 0 ∧ ptrAddr p % 65536 ≠ 0 then [AFault.align] else []) ++
      (if (sp = 1 ∨ sp = 2) ∧ (rows.any fun q => (checkScratch s (ctxOf s f) q n).faults != []) = true then [AFault.range]
       else [])

/-- The fault of a copy at issue and the pointer it names: the first in the table order of R245, the shape before the
source and the source before the destination (R257). -/
def copyFault (s : State) (f : Fibre) (c : CopyCmd) (shapeBad : Bool) : Option (AFault × Word) :=
  let rs := if shapeBad then [] else List.range c.rows
  let all := (if shapeBad then [(AFault.range, c.src)] else []) ++
    (copyPtrFaults s f false c.expand c.src (rs.map c.srcRow) (if c.expand then 1 else c.rowBytes)).map (·, c.src) ++
    (copyPtrFaults s f true c.expand c.dst (rs.map c.dstRow) c.rowBytes).map (·, c.dst)
  match firstFault (all.map (·.1)) with
  | none => none
  | some e => all.find? fun x => x.1 == e

/-- The command number of a released command: one of the fibre's own, so that its core has no other like it. -/
def commandId (f : Fibre) : Nat := 64 * (f.seq + 1) + f.id.pos

/-- `copy`. -/
def copyPlan (i : Instr) (x : OpCopy) (s : State) (f : Fibre) : Plan :=
  let n := x.c.num.toNat
  let p := shapeOf (f.sreg n) (f.sreg (n + 1))
  let after := if x.follow then follower s f else .matrix
  { Plan.uni fun _ =>
      let shapeBad := p.bad x.gather
      let cmd : CopyCmd :=
        { id := commandId f, fibre := f.id, launch := f.launch, stage := f.stage, block := f.block, pc := f.regs.pc
          inst := wordOf i, src := readSca f x.a, dst := readSca f x.b, rows := p.rows, rowBytes := p.rowBytes
          sstride := p.sstride, dstride := p.dstride
          index := if x.gather then
              some ((List.range (min 32 p.rows)).map fun r => sext 32 (readLane s f false x.sd r).toNat) else none
          hint := x.hint, follow := x.follow, evt := if x.evt then some x.tag else none
          bar := if x.bar then some (x.barnum.toNat, 0) else none, expand := x.expand, table := none, capt := none, done := 0
          buf := [], strm := [], stopped := false, landed := false }
      match after with
      | .fault e => .trap (fetchTrap f e f.regs.pc (f.regs.pc + 16))
      | .halt c a => .halt c a
      | .wait => .wait s
      | _ =>
        match copyFault s f cmd shapeBad with
        | some (e, ptr) => .trap (accessTrap i f e 1 ptr)
        | none => .op (.copy cmd) [] false false []
    with
    access := true
    context := (x.bar && decide (barCount (descOf s f) .block ≤ x.barnum.toNat)) || after == .other
    operand := scaBad x.a || scaBad x.b || scaBad x.c || n % 2 == 1 || (x.gather && vecBad s f false x.sd)
    srcs := scaNames x.a ++ scaNames x.b ++ [.s n, .s (n + 1)] ++ (if x.gather then vecNames false x.sd else [])
    nonspec := true }
/-- COPY. -/
def execCopy (x : OpCopy) (s : State) := issueWord (.copy x) x.h (copyPlan (.copy x) x) s

/-! ## Publish, seal, unseal (R263 to R265) -/

/-- A page that a page operation reaches: its checks as one part at the address. -/
def checkFrame (s : State) (c : Ctx) (p : Word) : LaneChk :=
  match translate s c.core c.part c.asid (ptrAddr p) with
  | .fault e => .bad e
  | .unread a => { LaneChk.none with unread := some a }
  | .violation a => { LaneChk.none with viol := some a }
  | .wait => { LaneChk.none with stall := true }
  | .leaf l =>
    let pa := l.pa (ptrAddr p)
    { LaneChk.none with
      parts := [⟨0, 1, .dev pa, l.kind, l.bits⟩]
      viol := if !populated pa && !(ownDev s pa && l.kind == .strong && paRegion pa == 0xF) then some pa else none
      fills := [tlbEntry c.asid (ptrAddr p) l] }

/-- A page of a Coded kind. -/
def PageKind.isCoded : PageKind → Bool
  | .coded .. => true
  | _ => false

/-- A page that `publish` names: KIND where it is Coded (R276). -/
def publishFrame (s : State) (c : Ctx) (p : Word) : LaneChk :=
  let k := checkFrame s c p
  if k.fills.any fun e => e.leaf.kind.isCoded then { k with faults := [.kind] } else k

/-- The checks of `publish` (R264, R276). -/
def publishChecks (s : State) (f : Fibre) (p len : Word) : List (Nat × Word × LaneChk) :=
  match tagFaults p ++ (if ptrSpace p = 0 then [] else [AFault.space]) with
  | e :: r => [(0, p, { LaneChk.none with faults := e :: r })]
  | [] =>
    let own : List AFault := (if 2 ^ 30 < len.toNat then [AFault.range] else []) ++
      (if ptrAddr p % 65536 ≠ 0 then [AFault.align] else [])
    (0, p, { LaneChk.none with faults := own }) ::
      (List.range (if 2 ^ 30 < len.toNat then 0 else (len.toNat + 65535) / 65536)).map fun i =>
        let q := if i = 0 then p else ptrSet p ((ptrAddr p / 65536 + i) * 65536)
        (0, q, publishFrame s (ctxOf s f) q)

/-- `publish`. -/
def publishPlan (i : Instr) (x : OpAB) (s : State) (f : Fibre) : Plan :=
  { Plan.uni fun _ =>
      afterChecks i f s (combine (publishChecks s f (readSca f x.a) (readSca f x.b))) fun accs fills =>
        if accs.length ≤ 1 then .none
        else .op (.publish ((accs.drop 1).map fun a => a.pa / 65536)) [] false false fills
    with
    access := true, operand := scaBad x.a || scaBad x.b, srcs := scaNames x.a ++ scaNames x.b, nonspec := true }
/-- PUBLISH. -/
def execPublish (x : OpAB) (s : State) := issueWord (.publish x) x.h (publishPlan (.publish x) x) s

/-- The checks of `seal` and `unseal` (R265): KIND on a page of another kind and in a space that has no pages of kinds. -/
def sealChecks (s : State) (f : Fibre) (p : Word) : LaneChk :=
  match tagFaults p with
  | e :: r => { LaneChk.none with faults := e :: r }
  | [] =>
    if ptrSpace p ≠ 0 then .bad .kind
    else
      let c := checkFrame s (ctxOf s f) p
      match c.parts with
      | [⟨_, _, .dev pa, kind, _⟩] =>
        { c with faults := (if kind = .sealed then [] else [AFault.kind]) ++
            (if foreignTo s (ctxOf s f).part pa then [AFault.remote] else []) }
      | _ => c

/-- `seal` and `unseal`. -/
def sealPlan (i : Instr) (un : Bool) (x : OpA) (s : State) (f : Fibre) : Plan :=
  { Plan.uni fun _ =>
      let p := readSca f x.a
      afterChecks i f s (combine [(0, p, sealChecks s f p)]) fun accs fills =>
        match accs with
        | [⟨_, _, [⟨_, _, .dev pa, _, bits⟩]⟩] =>
          let page := pa / 2 ^ bits * 2 ^ bits
          .op (if un then .vunseal page bits else .vseal page bits) [] false false fills
        | _ => .none
    with access := true, operand := scaBad x.a, srcs := scaNames x.a, nonspec := true }
/-- SEAL. -/
def execVseal (x : OpA) (s : State) := issueWord (.vseal x) x.h (sealPlan (.vseal x) false x) s
/-- UNSEAL. -/
def execUnseal (x : OpA) (s : State) := issueWord (.vunseal x) x.h (sealPlan (.vunseal x) true x) s

/-! ## Flush, invalidate, prefetch (R266, R267) -/

/-- The checks of one line of `flush` or `inval`. DESIGN CHOICE (assumption 63): a line of a foreign frame takes REMOTE, as a store
does. -/
def lineCheck (s : State) (f : Fibre) (flush : Bool) (p : Word) : LaneChk :=
  let c := checkFrame s (ctxOf s f) p
  match c.parts with
  | [⟨_, _, .dev pa, kind, _⟩] =>
    { c with faults := (if kind.isCoded && !flush then [AFault.kind] else []) ++
        (if foreignTo s (ctxOf s f).part pa && paRegion pa != 0xF then [AFault.remote] else []) }
  | _ => c

/-- The checks of `flush` and `inval`. -/
def linesChecks (s : State) (f : Fibre) (flush : Bool) (p : Word) (n : Nat) : List (Nat × Word × LaneChk) :=
  match tagFaults p ++ (if ptrSpace p = 1 ∨ ptrSpace p = 2 then [AFault.space] else []) ++
      (if ptrSpace p = 3 then [AFault.kind] else []) with
  | e :: r => [(0, p, { LaneChk.none with faults := e :: r })]
  | [] => (List.range n).map fun i =>
      let q := if i = 0 then p else ptrSet p ((ptrAddr p / 64 + i) * 64)
      (0, q, lineCheck s f flush q)

/-- `flush` and `inval`. -/
def linesPlan (i : Instr) (flush : Bool) (a : Opnd) (n : Nat) (s : State) (f : Fibre) : Plan :=
  { Plan.uni fun _ =>
      afterChecks i f s (combine (linesChecks s f flush (readSca f a) n)) fun accs fills =>
        let lines := accs.filterMap fun x => match x.parts with
          | [⟨_, _, .dev pa, kind, _⟩] => some (pa / 64, kind)
          | _ => none
        .op (if flush then .flush lines else .inval lines) [] false false fills
    with access := true, operand := scaBad a, srcs := scaNames a, nonspec := true }
/-- FLUSH_8B. -/
def execFlush8 (x : OpA) (s : State) := issueWord (.flush8 x) x.h (linesPlan (.flush8 x) true x.a 1) s
/-- FLUSH_12B. -/
def execFlush12 (x : OpLines12) (s : State) := issueWord (.flush12 x) x.h (linesPlan (.flush12 x) true x.a x.n.toNat) s
/-- INVAL_8B. -/
def execInval8 (x : OpA) (s : State) := issueWord (.inval8 x) x.h (linesPlan (.inval8 x) false x.a 1) s
/-- INVAL_12B. -/
def execInval12 (x : OpLines12) (s : State) := issueWord (.inval12 x) x.h (linesPlan (.inval12 x) false x.a x.n.toNat) s

/-- The line that a `pref` brings in, as a part of an access; `none` where it does nothing (R267, R276, R403). -/
def prefPart (s : State) (f : Fibre) (p : Word) : Option Part :=
  let c := checkFrame s (ctxOf s f) p
  if tagFaults p ≠ [] ∨ ptrSpace p = 1 ∨ ptrSpace p = 2 ∨ c.faults ≠ [] ∨ c.viol.isSome = true ∨ c.stall = true then none
  else
    match c.parts, c.fills with
    | [⟨_, _, .dev pa, kind, _⟩], [t] =>
      let line := pa / 64 * 64
      if accsHeld s f.id [⟨0, 0, c.parts⟩] = true ∨ kindFaults s (ctxOf s f) .load (ptrSpace p) 1 pa pa t.leaf ≠ [] ∨ kind.isCoded = true ∨ kind.cachedL1 = false ∨
          (List.range 64).any (fun j => isPoison s.msys (line + j)) then none
      else some ⟨0, 1, .dev line, kind, 0⟩
    | _, _ => none

/-- `pref`: into the core's L1 and its home, or into the home only. No value changes. -/
def prefPlan (home : Bool) (hint : Hint) (a : Opnd) (disp : Int) (s : State) (f : Fibre) : Plan :=
  { Plan.uni fun _ =>
      match prefPart s f (ptrAdd (readSca f a) disp) with
      | none => .none
      | some q => .act fun s =>
        let s := crossLinks s f [⟨0, 0, [q]⟩]
        rankLines hint [⟨0, 0, [q]⟩] (noteRead f.id.core (if home then .nol1 else hint) q s)
    with uniform := false, operand := scaBad a, srcs := scaNames a }
/-- PREF_8B. -/
def execPref8 (x : OpPref8) (s : State) := issueWord (.pref8 x) x.h (prefPlan x.home x.hint x.a 0) s
/-- PREF_12B. -/
def execPref12 (x : OpPref12) (s : State) := issueWord (.pref12 x) x.h (prefPlan x.home x.hint x.a (sext 16 x.disp.toNat)) s

end Sys2Proof.Machine
end

