-- ==== Sys2Proof/Machine/AtomicOps.lean ====
section
/-! DEFINITION. The meanings of atomics, reductions and fences, opcodes 0xD0 to 0xD5 (10 R268 to R271). -/

namespace Sys2Proof.Machine

/-! ## Atomics that return and reductions (R268 to R270) -/

/-- Whether the operand is read as a float (R53, R268). -/
def UpdOp.isFloat : UpdOp → Bool
  | .int _ => false
  | .flt .addN64 => false
  | .flt _ => true

/-- The operand of a lane as the low bytes of B (R268), read as a float where the operation is one (R53). -/
def atomVals (s : State) (f : Fibre) (flt : Bool) (n : Nat) (b : Opnd) (m : BitVec 32) : List (BitVec 64) :=
  (lanesOf m).map fun l => lowBytes n (if flt then readLaneF s f (n == 8) b l else readLane s f (n == 8) b l)

/-- `atom` and `atomf`: they end an ordered fibre's quantum (R270). -/
def atomPlan (i : Instr) (u : UpdOp) (hint : Hint) (wd : Bool) (d : BitVec 7) (b : Opnd) (x : AddrArg) (s : State) (f : Fibre) : Plan :=
  let n := u.bytes
  let w := n == 8
  let dests := vdstNames w wd d
  { Plan.uni fun m =>
      afterChecks i f s (combine ((lanesOf m).map fun l => (l, x.check s f .atom false n 0 l))) fun accs fills =>
        let now := touchesUncached accs
        irrevocable s f now (.op (.atom accs n u (atomVals s f u.isFloat n b m) (.vec wd d.toNat w)) dests (!now) true fills)
    with
    uniform := false
    access := true
    hint := hint
    operand := x.bad s f || vecBad s f w b || vdstBad s f w wd d
    srcs := x.names ++ vecNames w b
    dests := dests }

/-- `red` and `redf`. -/
def redPlan (i : Instr) (u : UpdOp) (hint : Hint) (b : Opnd) (x : AddrArg) (s : State) (f : Fibre) : Plan :=
  let n := u.bytes
  let w := n == 8
  { Plan.uni fun m =>
      afterChecks i f s (combine ((lanesOf m).map fun l => (l, x.check s f (.red u) false n 0 l))) fun accs fills =>
        let now := touchesUncached accs
        irrevocable s f now (.op (.red accs n u (atomVals s f u.isFloat n b m) f.regs.lclock) [] (!now) false fills)
    with
    uniform := false
    access := true
    hint := hint
    operand := x.bad s f || vecBad s f w b
    srcs := x.names ++ vecNames w b }

/-- Bytes of an `atomcas` element, and whether it exchanges whatever the old value is. -/
def CasOp.shape : CasOp → Nat × Bool
  | .cas32 => (4, false) | .cas64 => (8, false) | .xchg32 => (4, true) | .xchg64 => (8, true)

/-- `atomcas`: SC is the compare value, and there is no index (R247). -/
def casPlan (i : Instr) (o : CasOp) (hint : Hint) (wd : Bool) (d : BitVec 7) (a b c : Opnd) (disp : Int) (s : State)
    (f : Fibre) : Plan :=
  let n := (CasOp.shape o).1
  let xchg := (CasOp.shape o).2
  let w := n == 8
  let x : AddrArg := ⟨.ptr, a, none, disp⟩
  let dests := vdstNames w wd d
  { Plan.uni fun m =>
      afterChecks i f s (combine ((lanesOf m).map fun l => (l, x.check s f .atom false n 0 l))) fun accs fills =>
        let now := touchesUncached accs
        let cmps := if xchg then (lanesOf m).map fun _ => 0 else atomVals s f false n c m
        irrevocable s f now
          (.op (.cas accs n xchg (atomVals s f false n b m) cmps (.vec wd d.toNat w)) dests (!now) true fills)
    with
    uniform := false
    access := true
    hint := hint
    operand := x.bad s f || vecBad s f w b || (!xchg && vecBad s f w c) || vdstBad s f w wd d
    srcs := x.names ++ vecNames w b ++ (if xchg then [] else vecNames w c)
    dests := dests }

/-- ATOM_8B. -/
def execAtom8 (x : OpAtom8 AtomOp) (s : State) :=
  issueWord (.atom8 x) x.h (atomPlan (.atom8 x) (.int x.op) x.hint x.wd x.d x.b (arg8 .ptr x.a)) s
/-- ATOM_12B. -/
def execAtom12 (x : OpAtom12 AtomOp) (s : State) :=
  issueWord (.atom12 x) x.h (atomPlan (.atom12 x) (.int x.op) x.hint x.wd x.d x.b (arg12 .ptr x.a x.c x.disp)) s
/-- ATOM_16B. -/
def execAtom16 (x : OpAtom16 AtomOp) (s : State) :=
  issueWord (.atom16 x) x.h (atomPlan (.atom16 x) (.int x.op) x.hint x.wd x.d x.b (arg16 .ptr x.a x.c x.disp)) s
/-- ATOMF_8B. -/
def execAtomf8 (x : OpAtom8 AtomfOp) (s : State) :=
  issueWord (.atomf8 x) x.h (atomPlan (.atomf8 x) (.flt x.op) x.hint x.wd x.d x.b (arg8 .ptr x.a)) s
/-- ATOMF_12B. -/
def execAtomf12 (x : OpAtom12 AtomfOp) (s : State) :=
  issueWord (.atomf12 x) x.h (atomPlan (.atomf12 x) (.flt x.op) x.hint x.wd x.d x.b (arg12 .ptr x.a x.c x.disp)) s
/-- ATOMF_16B. -/
def execAtomf16 (x : OpAtom16 AtomfOp) (s : State) :=
  issueWord (.atomf16 x) x.h (atomPlan (.atomf16 x) (.flt x.op) x.hint x.wd x.d x.b (arg16 .ptr x.a x.c x.disp)) s
/-- ATOMCAS_12B. -/
def execAtomcas12 (x : OpAtom12 CasOp) (s : State) :=
  issueWord (.atomcas12 x) x.h (casPlan (.atomcas12 x) x.op x.hint x.wd x.d x.a x.b x.c (sext 16 x.disp.toNat)) s
/-- ATOMCAS_16B. -/
def execAtomcas16 (x : OpAtom16 CasOp) (s : State) :=
  issueWord (.atomcas16 x) x.h (casPlan (.atomcas16 x) x.op x.hint x.wd x.d x.a x.b x.c (sext 48 x.disp.toNat)) s
/-- RED_8B. -/
def execRed8 (x : OpRed8 AtomOp) (s : State) := issueWord (.red8 x) x.h (redPlan (.red8 x) (.int x.op) x.hint x.b (arg8 .ptr x.a)) s
/-- RED_12B. -/
def execRed12 (x : OpRed12 AtomOp) (s : State) :=
  issueWord (.red12 x) x.h (redPlan (.red12 x) (.int x.op) x.hint x.b (arg12 .ptr x.a x.c x.disp)) s
/-- RED_16B. -/
def execRed16 (x : OpRed16 AtomOp) (s : State) :=
  issueWord (.red16 x) x.h (redPlan (.red16 x) (.int x.op) x.hint x.b (arg16 .ptr x.a x.c x.disp)) s
/-- REDF_8B. -/
def execRedf8 (x : OpRed8 AtomfOp) (s : State) :=
  issueWord (.redf8 x) x.h (redPlan (.redf8 x) (.flt x.op) x.hint x.b (arg8 .ptr x.a)) s
/-- REDF_12B. -/
def execRedf12 (x : OpRed12 AtomfOp) (s : State) :=
  issueWord (.redf12 x) x.h (redPlan (.redf12 x) (.flt x.op) x.hint x.b (arg12 .ptr x.a x.c x.disp)) s
/-- REDF_16B. -/
def execRedf16 (x : OpRed16 AtomfOp) (s : State) :=
  issueWord (.redf16 x) x.h (redPlan (.redf16 x) (.flt x.op) x.hint x.b (arg16 .ptr x.a x.c x.disp)) s

/-! ## Fences (R271) -/

/-- `fence`: every earlier access, flush and invalidation of the fibre has been performed once it is not speculative; it
waits for the fibre's copies of foreign memory. -/
def fencePlan (scope : Scope) (_ : State) (_ : Fibre) : Plan :=
  { Plan.uni fun _ => .op (.fence scope) [] false false [] with access := true, nonspec := true }
/-- FENCE. -/
def execFence (x : OpFence) (s : State) := issueWord (.fence x) x.h (fencePlan x.scope) s

end Sys2Proof.Machine
end

