-- ==== Sys2Proof/Machine/MatrixOps.lean ====
section
/-! DEFINITION. The meanings of the matrix commands and accumulator instructions, opcodes 0xE0 to 0xE8 (15 R325 to R340). -/

namespace Sys2Proof.Machine

/-! ## Matrix commands (R332 to R336) -/

/-- An operand that names a run of whole registers: CLASS, KIND and K are 0, the first is a multiple of `unit`, and all `n`
are present. -/
def runBad (f : Fibre) (o : Opnd) (unit n : Nat) : Bool :=
  o.cls || o.kind != 0 || o.k != 0 || o.num.toNat % unit != 0 || (List.range n).any fun j => !f.present (o.num.toNat + j)
/-- The registers of a run. -/
def runNames (o : Opnd) (n : Nat) : List RegId := (List.range n).map fun j => .v (o.num.toNat + j)
/-- The images of a run as one byte string (R3, R318). -/
def runBytes (f : Fibre) (o : Opnd) (n : Nat) : List Byte := (List.range n).flatMap fun j => imageOf (f.vreg (o.num.toNat + j))

/-- The index of every row of A, after its pattern (R316). -/
def rowIndices (s : State) (f : Fibre) (m : Nat) (a c : Opnd) : List Nat :=
  (List.range m).map fun i => (if i < 32 then readLane s f false a i else readLane s f false c (i - 32)).toNat % 2 ^ 32

/-- A row that ends beyond the allocation, or leaves its group (R316, R317, R335). -/
def rowRange (form : MatForm) (limit v : Nat) : Bool :=
  match form with
  | .mmap _ => decide (limit < v - v % 512 + 512) || decide (512 < v % 512 + MatForm.k form)
  | _ => decide (limit < v + MatForm.rowBytes form)

/-- The fault of a command's rows and its pointer: RANGE before ALIGN, the lowest row that raises it (R335). -/
def rowFault (s : State) (f : Fibre) (form : MatForm) (rows : List Nat) : Option (AFault × Word) :=
  match rows.find? (rowRange form (Desc.scratch (descOf s f))) with
  | some v => some (.range, ptrMake 1 0 v)
  | none => (rows.find? fun v => v % 8 != 0).map fun v => (.align, ptrMake 1 0 v)

/-- A matrix command: `c` is used by the forms of 64 rows, `sd` by `mmas`. -/
def matPlan (i : Instr) (form : MatForm) (d ctile : BitVec 4) (cz : Bool) (a b c : Opnd) (sd : Option Opnd) (s : State)
    (f : Fibre) : Plan :=
  let m := MatForm.size form
  let nb := MatForm.bRegs form
  let tall := m == 64
  let idxBad := fun (o : Opnd) => o.cls || vecBad s f false o
  { Plan.uni fun _ =>
      let rows := rowIndices s f m a c
      match rowFault s f form rows with
      | some (e, ptr) => .trap (accessTrap i f e 1 ptr)
      | none =>
        .op (.mat
          { id := 0, form := form, d := d.toNat, c := ctile.toNat, cz := cz, fibre := f.id, launch := f.launch
            stage := f.stage, block := f.block, rows := rows, bfrag := runBytes f b nb
            scales := match sd with
              | some o => runBytes f o 2
              | none => []
            arows := none, waits := f.follow, redo := none }) [] false false []
    with
    operand := decide (accTiles s f ≤ d.toNat) || (!cz && decide (accTiles s f ≤ ctile.toNat)) || idxBad a ||
      (tall && idxBad c) || runBad f b nb nb || sd.any fun o => runBad f o 2 2
    srcs := vecNames false a ++ (if tall then vecNames false c else []) ++ runNames b nb ++ match sd with
      | some o => runNames o 2
      | none => []
    nonspec := true }

/-- MMA. -/
def execMma (x : OpMma) (s : State) :=
  issueWord (.mma x) x.h (matPlan (.mma x) (.mma x.afmt x.bfmt) x.d x.ctile x.cz x.a x.b x.c none) s
/-- MMAC. -/
def execMmac (x : OpMmac) (s : State) :=
  issueWord (.mmac x) x.h (matPlan (.mmac x) .mmac x.d x.ctile x.cz x.a x.b ⟨0, 0, false, 0⟩ none) s
/-- MMAP. -/
def execMmap (x : OpMmap) (s : State) :=
  issueWord (.mmap x) x.h (matPlan (.mmap x) (.mmap x.planes.toNat) x.d x.ctile x.cz x.a x.b x.c none) s
/-- MMAS. -/
def execMmas (x : OpMmas) (s : State) :=
  issueWord (.mmas x) x.h (matPlan (.mmas x) (.mmas x.afmt x.bfmt) x.d x.ctile x.cz x.a x.b x.c (some x.sd)) s

/-! ## Accumulator instructions (R338 to R340) -/

/-- A uniform accumulator instruction on tiles. -/
def tilePlan (o : DevOp) (tiles : List (BitVec 4)) (s : State) (f : Fibre) : Plan :=
  { Plan.uni fun _ => .op o [] false false [] with
    operand := tiles.any fun t => decide (accTiles s f ≤ t.toNat), nonspec := true }

/-- ACZ. -/
def execAcz (x : OpAcz) (s : State) := issueWord (.acz x) x.h (tilePlan (.acz x.d.toNat) [x.d]) s
/-- ACSCL. -/
def execAcscl (x : OpAcscl) (s : State) :=
  issueWord (.acscl x) x.h (fun s f =>
    let P := tilePlan (.acscl x.wide x.d.toNat x.c.toNat (readSca f x.a)) [x.d, x.c] s f
    { P with operand := P.operand || scaBad x.a, srcs := scaNames x.a }) s
/-- ACCVT. -/
def execAccvt (x : OpAccvt) (s : State) :=
  issueWord (.accvt x) x.h (tilePlan (.accvt x.narrow x.d.toNat x.c.toNat) [x.d, x.c]) s
/-- ACRD: it ends an ordered fibre's quantum (R331). -/
def execAcrd (x : OpAcrd) (s : State) :=
  issueWord (.acrd x) x.h (fun s f =>
    let dests := vdstNames x.wide false x.d
    { Plan.uni fun m =>
        .op (.acrd x.wide x.tile.toNat x.half x.row.toNat m (.vec false x.d.toNat x.wide)) dests false true []
      with
      uniform := false
      operand := decide (accTiles s f ≤ x.tile.toNat) || vdstBad s f x.wide false x.d
      dests := dests }) s
/-- ACWR. -/
def execAcwr (x : OpAcwr) (s : State) :=
  issueWord (.acwr x) x.h (fun s f =>
    let v := fun (l : Nat) => readLane s f x.wide x.a l
    { Plan.uni fun m =>
        .op (.acwr x.wide x.d.toNat x.half x.row.toNat m (mkV fun l => (v l).setWidth 32)
          (mkV fun l => (v l).extractLsb' 32 32)) [] false false []
      with
      uniform := false
      operand := decide (accTiles s f ≤ x.d.toNat) || vecBad s f x.wide x.a
      srcs := vecNames x.wide x.a
      nonspec := true }) s

end Sys2Proof.Machine
end

