-- ==== Sys2Proof/Machine/CodecOps.lean ====
section
/-! DEFINITION. The meanings of the coding instructions (12 R288 to R291), of `expload` and `pkstat` (14 R309 to R312), and
of the words left to software (06 R159): opcodes 0xF0 to 0xFF. -/

namespace Sys2Proof.Machine

/-! ## Coded blocks in registers (R289) -/

/-- Blocks of one instruction. -/
def codecBlocks (P : CodedPar) : Nat := if P.d = 3 then 1 else 32 / 4 ^ P.d
/-- Value registers *V*. -/
def codecValues (P : CodedPar) : Nat := (if P.f64 then 2 else 1) * (if P.d = 3 then 2 else 1)
/-- Code registers *K*. -/
def codecCodes (P : CodedPar) : Nat := (codecBlocks P * Coded.bytes P + 127) / 128
/-- Bits of the code of block `g` in a byte string. -/
def codeAt (P : CodedPar) (bs : List Byte) (g : Nat) : Nat := natAt bs (g * Coded.bytes P) (Coded.bytes P)
/-- The block whose values lane `l` holds, and the place there of its value in register (or pair) `r`. -/
def codecPlace (P : CodedPar) (r l : Nat) : Nat × Nat := if P.d = 3 then (0, 32 * r + l) else (l / 4 ^ P.d, l % 4 ^ P.d)
/-- The lanes that hold a block's values. -/
def codecLanes (P : CodedPar) (g : Nat) : List Nat :=
  if P.d = 3 then List.range 32 else (List.range (4 ^ P.d)).map (g * 4 ^ P.d + ·)
/-- The values of a block in registers from `n` on. -/
def codecRead (P : CodedPar) (f : Fibre) (n g : Nat) : List Nat :=
  (List.range (Coded.count P)).map fun j =>
    let r := if P.d = 3 then j / 32 else 0
    let l := if P.d = 3 then j % 32 else g * 4 ^ P.d + j
    if P.f64 then (lane (f.vreg (n + 2 * r)) l).toNat + (lane (f.vreg (n + 2 * r + 1)) l).toNat * 2 ^ 32
    else (lane (f.vreg (n + r)) l).toNat

/-- FRCDEC. -/
def execFrcdec (x : OpFrcdec) (s : State) :=
  issueWord (.frcdec x) x.h (fun _ f =>
    let P : CodedPar := ⟨x.ty == .f64, x.dim.toNat, x.rate.toNat⟩
    let V := codecValues P
    let K := codecCodes P
    let n := x.d.toNat
    let dests := (List.range V).map fun j => RegId.v (n + j)
    { Plan.uni fun m =>
        let str := runBytes f x.a K
        let blocks := (List.range (codecBlocks P)).map fun g => Coded.decode P (codeAt P str g)
        let val := fun (r l : Nat) => (blocks.getD (codecPlace P r l).1 []).getD (codecPlace P r l).2 0
        .late dests ((List.range V).map fun j =>
          .v (n + j) m (mkV fun l =>
            if P.f64 then BitVec.ofNat 32 (val (j / 2) l / 2 ^ (32 * (j % 2))) else BitVec.ofNat 32 (val j l)))
      with
      uniform := false
      operand := runBad f x.a K K || n % V != 0 || (List.range V).any fun j => !f.present (n + j)
      srcs := runNames x.a K
      dests := dests }) s

/-- The bytes of registers from `n` on with the codes of the encoded blocks put in. -/
def codecPut (P : CodedPar) (old : List Byte) (codes : List (Nat × Nat)) : List Byte :=
  codes.foldl (fun bs c => putAt bs (c.1 * Coded.bytes P) (bytesOf (Coded.bytes P) c.2)) old

/-- FRCENC. -/
def execFrcenc (x : OpFrcenc) (s : State) :=
  issueWord (.frcenc x) x.h (fun _ f =>
    let P : CodedPar := ⟨x.ty == .f64, x.dim.toNat, x.rate.toNat⟩
    let V := codecValues P
    let K := codecCodes P
    let n := x.d.toNat
    let dests := (List.range K).map fun j => RegId.v (n + j)
    { Plan.uni fun m =>
        let gs := (List.range (codecBlocks P)).filter fun g => (codecLanes P g).any fun l => m.getLsbD l
        let vals := gs.map fun g => (g, codecRead P f x.a.num.toNat g)
        let bad := (vals.filter fun v => v.2.any (Coded.special P)).map (·.1)
        let ref := runBytes f x.b K
        let codes := vals.map fun v =>
          (v.1, Coded.encode P (if x.ref then some (codeAt P ref v.1) else none)
            (v.2.map fun y => if Coded.special P y then 0 else y))
        let old := (List.range K).flatMap fun j => imageOf (f.vreg (n + j))
        let new := codecPut P old codes
        let written := fun (at_ : Nat) => gs.any fun g => decide (g * Coded.bytes P < at_ + 4) &&
          decide (at_ < (g + 1) * Coded.bytes P)
        let flags := fun (l : Nat) => (⟨0, if bad.contains (codecPlace P 0 l).1 then fINVALID else 0⟩ : LaneRes)
        let marks := RegId.xflags :: dests
        match arithTrap (.frcenc x) f m flags with
        | some t => .lateF marks [] 0 (some t)
        | none =>
          .lateF marks ((List.range K).map fun j =>
            .v (n + j) (mkMask fun l => written (128 * j + 4 * l)) (ofImage ((new.drop (128 * j)).take 128)))
            (raisedFlags m flags) none
      with
      uniform := false
      operand := runBad f x.a V V || (x.ref && runBad f x.b K K) || n % K != 0 || (List.range K).any fun j => !f.present (n + j)
      srcs := runNames x.a V ++ (if x.ref then runNames x.b K else [])
      dests := dests }) s

/-- The code parameters that bits [9:0] of a scalar name, if R231 and R274 allow them. -/
def kparamOf (v : Word) : Option CodedPar :=
  let ty : FTy := if v.getLsbD 7 then .f64 else .f32
  if codedRate ty (wfield v 9 8) (wfield v 6 0) then some ⟨v.getLsbD 7, wfield v 9 8, wfield v 6 0⟩ else none

/-- FRCHDR. -/
def execFrchdr (x : OpFrchdr) (s : State) :=
  issueWord (.frchdr x) x.h (fun s f =>
    let P := kparamOf (readSca f x.b)
    let K := (P.map codecCodes).getD 1
    let dests := vdstNames false false x.d
    { Plan.uni fun m =>
        match P with
        | none => .trap (operandTrap (.frchdr x) f)
        | some P =>
          if runBad f x.a K K then .trap (operandTrap (.frchdr x) f)
          else
            let str := runBytes f x.a K
            .late dests (vdstPut false false x.d m fun l =>
              BitVec.ofNat 64 (Coded.header P (codeAt P str (codecPlace P 0 l).1)))
      with
      uniform := false
      operand := runBad f x.a 1 1 || scaBad x.b || vdstBad s f false false x.d
      srcs := runNames x.a K ++ scaNames x.b
      dests := dests }) s

/-! ## Packed lines and the expander (R309 to R311) -/

/-- `expload`: released to the copy engine as a command of its own. -/
def exploadPlan (i : Instr) (x : OpExpload) (_ : State) (f : Fibre) : Plan :=
  { Plan.uni fun _ =>
      let p := readSca f x.a
      let fs := tagFaults p ++ (if ptrSpace p = 0 then [] else [AFault.space]) ++
        (if ptrAddr p % 64 = 0 then [] else [AFault.align])
      match firstFault fs with
      | some e => .trap (accessTrap i f e 1 p)
      | none =>
        .op (.copy
          { id := commandId f, fibre := f.id, launch := f.launch, stage := f.stage, block := f.block, pc := f.regs.pc
            inst := wordOf i, src := p, dst := ptrMake 1 0 0, rows := 1, rowBytes := 0, sstride := 0, dstride := 0
            hint := .none, index := none, follow := false, evt := none, bar := none, expand := false, table := some x.id, capt := none, done := 0
            buf := [], strm := [], stopped := false, landed := false }) [] false false []
    with access := true, operand := scaBad x.a, srcs := scaNames x.a, nonspec := true }
/-- EXPLOAD. -/
def execExpload (x : OpExpload) (s : State) := issueWord (.expload x) x.h (exploadPlan (.expload x) x) s

/-- The checks of `pkstat` (R310). -/
def pkChecks (s : State) (f : Fibre) (bind : Bool) (p : Word) : LaneChk :=
  match tagFaults p ++ (if ptrSpace p = 1 ∨ ptrSpace p = 2 then [AFault.space] else []) with
  | e :: r => { LaneChk.none with faults := e :: r }
  | [] =>
    let c := checkFrame s (ctxOf s f) p
    match c.parts, c.fills with
    | [⟨_, _, .dev pa, kind, _⟩], [t] =>
      let refused := match kind with
        | .strong | .hostCoh | .comm .. | .coded .. => true
        | _ => false
      { c with faults := (if bind && !t.leaf.w then [AFault.write] else []) ++
          (if refused || (ptrSpace p == 3 && (bind || t.leaf.w)) then [AFault.kind] else []) ++
          (if foreignTo s (ctxOf s f).part pa then [AFault.remote] else []) }
    | _, _ => c

/-- PKSTAT_LINE: it waits for nothing and is no access (R309). -/
def execPkstatLine (x : OpDA) (s : State) :=
  issueWord (.pkstatLine x) x.h (fun s f =>
    let p := readSca f x.a
    { Plan.uni fun _ =>
        afterChecks (.pkstatLine x) f s (combine [(0, p, pkChecks s f false p)]) fun accs _ =>
          let pa := (accs.head?.map LaneAcc.pa).getD 0
          .late [.s x.d.toNat] [.s x.d.toNat (pkWord s pa (if (granOf s.msys pa).poisoned then 3 else 0))]
      with operand := scaBad x.a, srcs := scaNames x.a, dests := [.s x.d.toNat] }) s
/-- PKSTAT_BIND. -/
def execPkstatBind (x : OpDAB) (s : State) :=
  issueWord (.pkstatBind x) x.h (fun s f =>
    let p := readSca f x.a
    { Plan.uni fun _ =>
        afterChecks (.pkstatBind x) f s (combine [(0, p, pkChecks s f true p)]) fun accs fills =>
          .op (.pkbind ((accs.head?.map LaneAcc.pa).getD 0) (readSca f x.b) x.d.toNat) [.s x.d.toNat] false false fills
      with
      access := true
      operand := scaBad x.a || scaBad x.b
      srcs := scaNames x.a ++ scaNames x.b
      dests := [.s x.d.toNat]
      nonspec := true }) s

/-! ## Words left to software (R159) -/

/-- A word of opcodes 0xF8 to 0xFF: ILLEGAL, EMULATE, whatever its guard. -/
def emulate (i : Instr) (h : Hdr) (s : State) : Host.Outcome State Fault Refusal :=
  match fibre? s s.cur with
  | none => .fault .noFibre
  | some f => .next (issueNone f (.bad h.h (illegalTrap i f 7)) s)
/-- XOP_8B. -/
def execXop8 (x : OpXop8) (s : State) := emulate (.xop8 x) x.h s
/-- XOP_12B. -/
def execXop12 (x : OpXop12) (s : State) := emulate (.xop12 x) x.h s
/-- XOP_16B. -/
def execXop16 (x : OpXop16) (s : State) := emulate (.xop16 x) x.h s

end Sys2Proof.Machine
end

