-- ==== Sys2Proof/Machine/Ordered.lean ====
section
/-! DEFINITION. Ordered mode's own events (18 R381 to R387): the length of a quantum, the Almanac's rounds and commits, and
the updates that an HRU applies. -/

namespace Sys2Proof.Machine

/-- QUANTUM_LIMIT (R381): `%lclock` has reached a multiple of Q. -/
def execQuantumLimit (id : FibreId) (s : State) : Host.Outcome State Fault Refusal :=
  .next <| match fibre? s id with
  | none => s
  | some f => if f.status.issues && f.waitTrap.isNone && !awaitsFlags f && quantumDue s f then endQuantum id s else s

/-! ## Rounds (R382) -/

/-- A fibre between quanta waits for a barrier phase or a line: the commit that ends the wait gives its round (R382). -/
def Fibre.waitsRound (f : Fibre) : Bool :=
  let w := fun (x : FStatus) => match x with
    | .barrier .. | .line _ => true
    | _ => false
  f.status != .commit && (w f.status || w f.regs.frozen)

/-- The fibres of a launch whose quantum belongs to its current round (R382). -/
def roundMembers (s : State) (L : Launch) : List Fibre :=
  s.fibres.filter fun f => f.launch == L.id && !f.left && f.status != .saved && !f.waitsRound && decide (f.qround ≤ L.round)

/-- The admission round of a block (R382). -/
def admission (g : Stage) (b : Nat) : Nat := ((g.admits.find? fun a => a.1 == b).map (·.2)).getD 1

/-- Block `b` of stage `k` of an ordered launch may be placed: block `b − P` has exited (R100), and its input entries are
enqueued or its input has closed with some of them (R106). -/
def orderedReady (L : Launch) (P k b : Nat) : Bool :=
  match L.stages[k]? with
  | none => false
  | some g =>
    (b < P || g.exited.contains (b - P)) &&
    match inputOf L k with
    | none => b < g.blocks
    | some q => (b + 1) * g.entb ≤ q.enqn || (q.closed && b * g.entb < q.enqn)

/-- A later descriptor read has failed: no further block will be placed (R94). -/
def Launch.ended (L : Launch) : Bool :=
  match L.phase with
  | .failed _ => true
  | _ => false

/-- A block of the launch whose admission round has begun is not on a core: the round waits for it (R382), unless it will never
be placed (R43, assumption 56). -/
def roundLacksBlock (s : State) (L : Launch) : Bool :=
  let P := (placementSet s L).length
  (L.saved.any fun b => b.fibres.any fun f => !f.left && decide (f.qround ≤ L.round)) ||
    !L.ended && (List.range L.stages.length).any fun k => match L.stages[k]? with
      | none => false
      | some g =>
        (g.again.any fun b => admission g b ≤ L.round) ||
          (List.range P).any fun i => orderedReady L P k (g.next + i) && decide (admission g (g.next + i) ≤ L.round)

/-- A barrier phase to which every member has arrived waits for a copy: the next round does not begin (R382). -/
def phaseAwaitsCopy (s : State) (L : Launch) : Bool :=
  (s.blocks.filter fun b => b.launch == L.id).any fun b => b.bars.any fun r =>
    (r.copies.any fun c => c.1 == r.done + 1) &&
      (s.fibres.filter (inBlock b)).all fun f => f.left || decide (r.done + 1 ≤ arrivedAt f r.lvl r.num)

/-- The next round begins when the current one is complete (R382); fallback ends (R386), and a wait that goes on leads to
a later round. -/
def advanceRound (L : Launch) (s : State) : State :=
  let later := s.fibres.any fun f => f.launch == L.id && !f.left && decide (L.round < f.qround)
  if !(roundMembers s L).isEmpty || roundLacksBlock s L || phaseAwaitsCopy s L || !later then s
  else
    let s := updLaunch s L.id fun L => { L with round := L.round + 1 }
    { s with
      fibres := updIf (fun f => f.launch == L.id && f.waitsRound) (fun f => { f with qround := L.round + 2 }) s.fibres
      msys := { s.msys with fallback := s.msys.fallback.filter fun x => x.2 != (L.id, L.round) } }

/-- The fibre whose quantum commits next: the lowest global identifier of the round (R107, R382). -/
def nextCommit (s : State) (L : Launch) : Option Fibre :=
  (roundMembers s L).foldl (fun (b : Option Fibre) f => match b with
    | none => some f
    | some g => if decide (serveKey s f < serveKey s g) then some f else some g) none

/-! ## Commits (R383, R384) -/

/-- How far a commit comes: all of it, a load whose early value no longer stands, or an operation that waits. -/
inductive CommitEnd where
  | finished
  | stale (h : Held)
  | blocked
  deriving DecidableEq, Repr

/-- An element of another device: what its read returned stands. -/
def LaneAcc.foreign (s : State) (a : LaneAcc) : Bool := (devAddrs [a]).any fun pa => !ownDev s pa

/-- The early value of a held load is what the load returns at its place (R350, R383). -/
def stands (s : State) (f : Fibre) (h : Held) : Bool :=
  h.op.accs.any (LaneAcc.foreign s) || match loadFrom (partOfCore s f.id.core) h.op s with
    | .ok ws => ws == h.vals
    | .error _ => false

/-- The operations of a quantum take effect in program order, as far as none waits and no early value that an operation before it
could change has changed; their lines are noted. -/
def commitOps (id : FibreId) : Nat → State → State × CommitEnd
  | 0, s => (s, .blocked)
  | fuel + 1, s =>
    match fibre? s id with
    | none => (s, .finished)
    | some f =>
      match f.unfin with
      | [] => (s, .finished)
      | h :: _ =>
        let note := fun (f : Fibre) => { f with qheld := h.op.keys.foldl addNew f.qheld }
        if h.early then
          let s := drained s
          if commitHeld s id h.op.accs then (s, .blocked)
          else if h.recheck && !stands s f h then (s, .stale h)
          else commitOps id fuel (updFibre s id fun f => note (f.finish h [] true))
        else
          let r := performOp id h.op s
          if r.ok then commitOps id fuel (updFibre r.s id fun f => note (f.finish h r.writes false)) else (r.s, .blocked)

/-- A quantum has committed: the fibre's next one belongs to the next round. -/
def Fibre.nextQuantum (round clock : Nat) (f : Fibre) : Fibre :=
  let back := fun (x : FStatus) => if x = .commit then .ready else x
  let regs := { f.regs with frozen := back f.regs.frozen }
  { f with
    qcount := f.qcount + 1, qround := round + 1, regs := regs, qstart := regs, qseq := f.seq, qlines := [], qwrites := []
    qundo := [], conflict := false, committing := false, qheld := [], status := back f.status, readySince := clock }

/-- A block has committed events of a quantum (R411). -/
def noteCommit (f : Fibre) (s : State) : State :=
  updBlock s f.launch f.stage f.block fun b => { b with committed := true }

/-- A line that a quantum names, or publishes, is held for another. -/
def quantumHeld (s : State) (f : Fibre) : Bool :=
  f.unfin.any fun h => match h.op with
    | .publish frames => publishHeld s f.id frames
    | o => claimed s f.id o.accs

/-- The rest of a quantum is executed again from an operation on, what was before it having taken effect: its lines stay held
(assumption 51). -/
def Fibre.resumeQuantum (h : Held) (f : Fibre) : Fibre :=
  let g := f.restore h.snap h.seq
  { g with
    qstart := h.snap, qseq := h.seq, qlines := f.qlines.filter f.qheld.contains, qwrites := f.qwrites.filter f.qheld.contains
    qundo := h.written, committing := true, qheld := f.qheld }

/-- The rest of a quantum is discarded, with the updates that it holds (R386), and executed again; a conflict with another agent
counts as one of the quantum (R379). -/
def redoRest (id : FibreId) (h : Held) (conflict : Bool) (s : State) : State :=
  let s := updFibre s id fun f =>
    let f := f.resumeQuantum h
    if conflict then { f with rbcount := f.rbcount + 1, qredo := f.qredo + 1, rbnow := f.rbnow + 1 } else f
  regrant id (dropClaims id (dropUpdates id s))

/-- Where a quantum's commit stays with some of its operations: their lines and those of the rest are held (R360, assumption 51). -/
def holdQuantum (id : FibreId) (s : State) : State :=
  dropClaims id (updFibre s id fun f =>
    { f with committing := true, qheld := (f.unfin.flatMap fun h => h.op.keys).foldl addNew f.qheld })

/-- The quantum of a fibre in COMMIT at its turn (R383): discarded after a conflict, else its operations take effect. Where one
of them waits for what the ones before it began, or a load is to be executed again that depends on what they brought about, those
have taken effect and the commit goes on later; nothing comes between on their lines and those of the rest (R360, assumption 51).
A quantum that cannot begin so gives its claims up. -/
def commitQuantum (L : Launch) (f0 : Fibre) (s0 : State) : State :=
  let s := drained s0
  match fibre? s f0.id with
  | none => s
  | some f =>
    if f.conflict && !f.committing then discardQuantum f.id true s
    else
      match commitOps f.id (f.unfin.length + 1) s, f.conflict, f.unfin with
      | _, true, h :: _ => redoRest f.id h true s
      | (t, .finished), _, _ =>
        match fibre? t f.id with
        | none => t
        | some g =>
          if g.launch != f.launch then t
          else checkpointRetires f.id (noteCommit f (updFibre t f.id (Fibre.nextQuantum L.round t.clock)))
      | (t, .stale h), _, _ =>
        if mayBegin s f && !(!f.committing && quantumHeld s f) then noteCommit f (redoRest f.id h false t) else dropClaims f.id s
      | (t, .blocked), _, _ =>
        let begun := match fibre? t f.id with
          | some g => g.unfin.length != f.unfin.length || g.unsealing != f.unsealing
          | none => true
        if !f.committing && quantumHeld s f then dropClaims f.id s
        else if begun then noteCommit f (holdQuantum f.id t)
        else s

/-- A block whose flush waited for a commit is flushed after it (R414). -/
def finishFlush (f : Fibre) (s : State) : State :=
  match blockOf s f, launch? s f.launch with
  | some b, some L =>
    match b.preempt with
    | .flushing => flushWhenCommitted L.part L b s
    | _ => s
  | _, _ => s

/-- QUANTUM_COMMIT (R382 to R384): the next quantum of the round, at its turn. -/
def execQuantumCommit (launchId : Word) (s : State) : Host.Outcome State Fault Refusal :=
  .next <| match launch? s launchId with
  | none => s
  | some L0 =>
    if !(firstDesc L0).ordered then s
    else
      let s := advanceRound L0 s
      match launch? s launchId with
      | none => s
      | some L =>
        if roundLacksBlock s L then s
        else
          match nextCommit s L with
          | none => s
          | some f =>
            if f.status = .commit ∧ f.waitTrap = none ∧ awaitsFlags f = false ∧ ladderDue f = false then
              settleAdmissions launchId s (finishFlush f (commitQuantum L f s))
            else s

/-- HRU_UPDATE_APPLY (R386). -/
def execHruUpdateApply (slice : Nat) (s : State) : Host.Outcome State Fault Refusal :=
  .next <| match nextUpdate s slice with
  | none => s
  | some e => if agentDown s .slice slice then s else applyUpdate e s

end Sys2Proof.Machine
end

