-- ==== Sys2Proof/Machine/Engine.lean ====
section
/-! DEFINITION. The engines' own steps: copies moving, landing, stopping at a fault and abandoned (10 R256 to R262), the
expander's tables and streams (14 R311, R312), and the matrix unit finishing commands (15 R326 to R330). -/

namespace Sys2Proof.Machine

/-! ## Where a copy reads and writes (R258) -/

/-- Bytes that lie on one page, or in one scratchpad. -/
structure Span where
  loc  : Loc
  len  : Nat
  kind : PageKind
  fill : Option TlbEntry
  deriving DecidableEq, Repr

/-- What reaching bytes gives a copy. -/
inductive Reach where
  | at (sp : Span)
  | stop (e : AFault)
  /-- A DRAINING page (R258), or a path that cannot serve it now (R423, R426). -/
  | wait
  | halt (c : HaltCause) (addr : Nat)
  deriving DecidableEq, Repr

/-- What a page's kind says of a copy (R258): its faults, and whether it waits. -/
def copyKind (s : State) (dst : Bool) (sp pa : Nat) (l : Leaf) : List AFault × Bool :=
  if dst then
    let w := if l.w then [] else [AFault.write]
    match l.kind with
    | .normal | .hostNon => (w, false)
    | .sealed =>
      match sealState s pa with
      | .opened => (w, false)
      | .isSealed => (w ++ [.sealed], false)
      | .draining => (w, true)
    | _ => (w ++ [.kind], false)
  else
    match l.kind with
    | .coded .. => ([.kind], false)
    | _ => (if sp = 3 ∧ l.w = true then [.kind] else [], false)

/-- Reaches `n` bytes at a pointer, on one page of 64 KiB or in one scratchpad. -/
def reach (s : State) (x : Ctx) (dst : Bool) (p : Word) (n : Nat) : Reach :=
  let sp := ptrSpace p
  if sp = 1 ∨ sp = 2 then
    let c := checkScratch s x p n
    match firstFault c.faults, c.parts with
    | none, [q] => .at ⟨q.loc, n, .normal, none⟩
    | some e, _ => .stop e
    | none, _ => .stop .range
  else
    match translate s x.core x.part x.asid (ptrAddr p) with
    | .fault e => .stop e
    | .unread a => .halt .uncorrectable a
    | .violation a => .halt .protection a
    | .wait => .wait
    | .leaf l =>
      let pa := l.pa (ptrAddr p)
      let k := copyKind s dst sp pa l
      match firstFault k.1 with
      | some e => .stop e
      | none =>
        if !(populated pa && populated (pa + n - 1)) || (dst && ownDev s pa && inStageQueue s pa n) then .halt .protection pa
        else if k.2 || (linesOf pa n).any (fun l => pathHeld s x.core (64 * l)) then .wait
        else .at ⟨.dev pa, n, l.kind, some (tlbEntry x.asid (ptrAddr p) l)⟩

/-- Bytes from a pointer to the end of its page. -/
def pageRoom (p : Word) : Nat := 65536 - ptrAddr p % 65536

/-! ## Engine order (R259) -/

/-- Commands of an engine before one, and from it on. -/
def splitAt (cs : List CopyCmd) (id : Nat) : List CopyCmd × List CopyCmd := (cs.takeWhile (·.id != id), cs.dropWhile (·.id != id))

/-- Two spans share a byte. -/
def Span.meets (a b : Span) : Bool :=
  match a.loc, b.loc with
  | .dev x, .dev y => decide (x < y + b.len) && decide (y < x + a.len)
  | .scr c x, .scr d y => c == d && decide (x < y + b.len) && decide (y < x + a.len)
  | _, _ => false

/-- The lines of a span. -/
def Span.keys (a : Span) : List (Option Nat × Nat) :=
  match a.loc with
  | .dev pa => (linesOf pa a.len).map fun l => (none, l)
  | .scr c o => (linesOf o a.len).map fun l => (some c, l)

/-- A line of a span is held by a commit that has begun (R360), for an engine that has no copy of that fibre on its way: a commit
may wait for those (R264). -/
def Span.held (s : State) (core : Nat) (a : Span) : Bool :=
  a.keys.any fun k => s.fibres.any fun g => g.holdsLine k && !((coreOf s core).copies.any fun c => c.fibre == g.id && !c.landed)

/-- The spans of a range from a pointer that can be reached. -/
def spansFrom (s : State) (x : Ctx) (dst : Bool) : Nat → Word → Nat → List Span
  | 0, _, _ => []
  | fuel + 1, p, n =>
    if n = 0 then []
    else
      let m := if ptrSpace p = 1 ∨ ptrSpace p = 2 then n else min n (pageRoom p)
      let rest := spansFrom s x dst fuel (ptrAdd p m) (n - m)
      match reach s x dst p m with
      | .at sp => sp :: rest
      | _ => rest

/-- Destination bytes that a command has not written yet. -/
def CopyCmd.remaining (s : State) (c : CopyCmd) : List Span :=
  if c.table.isSome || c.landed then []
  else
    let r0 := c.done / c.rowBytes
    (List.range (c.rows - r0)).flatMap fun i =>
      let off := if i = 0 then c.done % c.rowBytes else 0
      spansFrom s (copyCtx s c) true 3 (ptrAdd (c.dstRow (r0 + i)) off) (c.rowBytes - off)

/-- An earlier command of the engine has yet to write a byte of a span: the later one waits for it (R259). -/
def awaits (s : State) (earlier : List CopyCmd) (a : Span) : Bool :=
  earlier.any fun c => (c.remaining s).any (Span.meets a)

/-- The shadow byte of an earlier command of the engine at an address (R259): the last written. -/
def engineShadow (s : State) (core : Nat) (later : List Nat) (pa : Nat) : Option Shadow :=
  (s.msys.shadows.filter fun b => b.pa == pa && b.owner.1 == s.dev.devid.toNat && b.owner.2.1 == core &&
    !later.contains b.owner.2.2).foldl (fun (best : Option Shadow) b => match best with
      | none => some b
      | some x => if x.ord ≤ b.ord then some b else some x) none

/-- A byte as a copy reads it, and whether it is poisoned (R258, R259, R403). -/
def engineByte (s : State) (core : Nat) (later : List Nat) (sp : Span) (i : Nat) : Byte × Bool :=
  match sp.loc with
  | .scr c o => (scrByte s c (o + i), (coreOf s c).spoison.contains (o + i))
  | .dev pa0 =>
    let pa := pa0 + i
    match engineShadow s core later pa with
    | some b => (b.byte, b.bad)
    | none =>
      if !ownDev s pa then (Config.foreignByte s.freeCtr pa, false)
      else
        match sp.kind with
        | .comm f op =>
          let n := commBytes f
          (BitVec.ofNat 8 ((commRead s.msys f op (pa / n * n)).toNat / 256 ^ (pa % n)), isPoison s.msys pa)
        | _ => (homeByte s.msys pa, isPoison s.msys pa)

/-- The bytes of a span. -/
def engineBytes (s : State) (core : Nat) (later : List Nat) (sp : Span) : List (Byte × Bool) :=
  (List.range sp.len).map (engineByte s core later sp)

/-! ## What a command does next -/

/-- A command's next step. -/
inductive CopyNext where
  /-- It waits, or has nothing left to do. -/
  | idle
  /-- Bytes of its source, of its stream or of its table are read. -/
  | take (src : Span) (bs : List (Byte × Bool))
  /-- A row of a stream that has been read is expanded to the bytes that it will write. -/
  | form (bs : List (Byte × Bool))
  /-- Bytes that were read are written. -/
  | put (dst : Span) (bs : List (Byte × Bool))
  | stop (e : AFault) (addr : Word)
  | halt (c : HaltCause) (addr : Nat)
  deriving DecidableEq, Repr

/-- The table in a block's expander slot; the outer `none` is no slot. -/
def slotTable (r : CoreRec) (c : CopyCmd) : Option (Option XTable) :=
  (r.expander.find? fun e => e.1 == c.launch && e.2.1 == c.stage && e.2.2.1 == c.block).map fun e => e.2.2.2

/-- Commands of one block. -/
def CopyCmd.sameBlock (a b : CopyCmd) : Bool := a.launch == b.launch && a.stage == b.stage && a.block == b.block

/-- A read of up to `n` bytes from a pointer, on its page (R259). -/
def takeNext (s : State) (c : CopyCmd) (earlier : List CopyCmd) (later : List Nat) (p : Word) (n : Nat) : CopyNext :=
  let m := min n (pageRoom p)
  match reach s (copyCtx s c) false p m with
  | .stop e => .stop e p
  | .halt h a => .halt h a
  | .wait => .idle
  | .at a =>
    if m = 0 || a.held s c.fibre.core || awaits s earlier a then .idle else .take a (engineBytes s c.fibre.core later a)

/-- A write of up to `n` of the bytes that a copy has read, on one page of its destination (R259). -/
def putNext (s : State) (c : CopyCmd) (earlier : List CopyCmd) (n : Nat) : CopyNext :=
  let p := ptrAdd (c.dstRow (c.done / c.rowBytes)) (c.done % c.rowBytes)
  let m := min (min n c.buf.length) (pageRoom p)
  match reach s (copyCtx s c) true p m with
  | .stop e => .stop e p
  | .halt h a => .halt h a
  | .wait => .idle
  | .at b => if m = 0 || b.held s c.fibre.core || awaits s earlier b then .idle else .put b (c.buf.take m)

/-- The next step of a plain copy: it reads up to `n` bytes of the current row, then writes them (R259, R343). -/
def plainNext (s : State) (c : CopyCmd) (earlier : List CopyCmd) (later : List Nat) (n : Nat) : CopyNext :=
  if c.buf ≠ [] then putNext s c earlier n
  else
    let off := c.done % c.rowBytes
    takeNext s c earlier later (ptrAdd (c.srcRow (c.done / c.rowBytes)) off) (min n (c.rowBytes - off))

/-- The next step of an expanding copy: it reads the stream of a row byte by byte, as far as the row needs it, expands the row, and
writes it (R312). -/
def expandNext (s : State) (c : CopyCmd) (earlier : List CopyCmd) (later : List Nat) (n : Nat) : CopyNext :=
  if c.buf ≠ [] then putNext s c earlier n
  else
    let p := c.srcRow (c.done / c.rowBytes)
    if c.capt.isNone && earlier.any fun e => e.table.isSome && e.sameBlock c then .idle
    else
      match (c.capt.getD ((slotTable (coreOf s c.fibre.core) c).getD none)) with
      | none => .stop .kind p
      | some t =>
        let es := packBytes t.fmt
        if c.rowBytes % es ≠ 0 then .stop .range c.src
        else
          match expandRow t (fun b => (c.strm[b / 8]?).map fun v => v.1.getLsbD (b % 8)) (c.rowBytes / es) with
          | .noMatch => .stop .kind p
          | .need _ => takeNext s c earlier later (ptrAdd p c.strm.length) 1
          | .ok xs pos => .form ((xs.flatMap (bytesOf es)).map (·, (c.strm.take ((pos + 7) / 8)).any (·.2)))

/-- Bytes of a table as far as its header, if it has been read, says (R301): a COUNT above 512 is not well formed, and its entries
are not read. -/
def tableBytes (c : CopyCmd) : Nat :=
  if c.strm.length < 16 then 16
  else
    let count := field (natOf ((c.strm.take 16).map (·.1))) 47 32
    16 + if count ≤ 512 then 8 * count else 0

/-- The next step of an `expload`: it reads up to `n` bytes of its table (R311). The tables of a block are loaded in engine order. -/
def tableTake (s : State) (c : CopyCmd) (earlier : List CopyCmd) (later : List Nat) (n : Nat) : CopyNext :=
  if (earlier.any fun e => e.table.isSome && e.sameBlock c) || decide (tableBytes c ≤ c.strm.length) then .idle
  else takeNext s c earlier later (ptrAdd c.src c.strm.length) (min n (tableBytes c - c.strm.length))

/-- The next step of a command of a core, for up to `n` bytes. -/
def copyNext (s : State) (core : Nat) (c : CopyCmd) (n : Nat) : CopyNext :=
  let q := splitAt (coreOf s core).copies c.id
  let later := q.2.map (·.id)
  if c.stopped || c.landed || agentDown s .copyEngine core then .idle
  else if c.table.isSome then tableTake s c q.1 later n
  else if c.rows * c.rowBytes ≤ c.done then .idle
  else if c.expand then expandNext s c q.1 later n
  else plainNext s c q.1 later n

/-! ## Moving (R259, R260) -/

/-- Changes a command of a core. -/
def updCopy (core id : Nat) (g : CopyCmd → CopyCmd) (s : State) : State :=
  let r := coreOf s core
  setCore s core { r with copies := updIf (fun c => c.id == id) g r.copies }

/-- Writes a shadow byte of a copy; one into another device's memory travels to it. -/
def putShadow (b : Shadow) (s : State) : State :=
  let keep := s.msys.shadows.filter fun x => !(x.pa == b.pa && x.owner == b.owner)
  let ord := (s.msys.shadows.foldl (fun m x => max m x.ord) 0) + 1
  let s := { s with msys := { s.msys with shadows := keep ++ [{ b with ord := ord }] } }
  if ownDev s b.pa then s
  else
    let asid := ((launch? s b.launch).map (·.asid)).getD 0
    let core := b.owner.2.1
    useLink core (partOfCore s core) asid b.pa { s with
      outbox := s.outbox ++ [.remote (incarnation s .copyEngine core) (.write b.pa b.byte b.bad)] }

/-- Writes bytes that a copy moves: into scratchpad, or into shadows. -/
def putCopied (c : CopyCmd) (sp : Span) (bs : List (Byte × Bool)) (s : State) : State :=
  match sp.loc with
  | .scr k o =>
    let s := writeScr none k o (bs.map (·.1)) s
    let bad := (List.range bs.length).filterMap fun i => if ((bs[i]?).map (·.2)).getD false then some (o + i) else none
    if bad = [] then s
    else
      let r := coreOf s k
      setCore s k { r with spoison := bad.foldl addNew r.spoison }
  | .dev pa =>
    (List.range bs.length).foldl (fun s i =>
      let b := bs.getD i (0, false)
      putShadow ⟨pa + i, b.1, (s.dev.devid.toNat, c.fibre.core, c.id), c.launch, false, 0, b.2⟩ s) s

/-- What reaching a span leaves behind: the translation, and the links that it crosses (R242, R422). -/
def crossSpan (core asid : Nat) (a : Span) (s : State) : State :=
  let s := match a.fill with
    | some e => useTlb core (partOfCore s core) e s
    | none => s
  match a.loc with
  | .scr _ _ => s
  | .dev pa => (linesOf pa a.len).foldl (fun s l => useLink core (partOfCore s core) asid (64 * l) s) s

/-- What reading a span leaves behind beside: metadata records (R20), and a clean copy at the home of a Host-noncoherent page
(R240). -/
def noteSpan (core asid : Nat) (a : Span) (s : State) : State :=
  let s := crossSpan core asid a s
  match a.loc with
  | .scr _ _ => s
  | .dev pa =>
    if !ownDev s pa then { s with freeCtr := s.freeCtr + 1 }
    else
      (linesOf pa a.len).foldl (fun s l =>
        let s := noteStack l s
        if a.kind = .hostNon then { s with msys := holdLine s.msys l } else s) s

/-- A command after a read of its source: an expanding copy keeps the table that it is taken with (R312). -/
def CopyCmd.took (t : Option XTable) (bs : List (Byte × Bool)) (c : CopyCmd) : CopyCmd :=
  if c.table.isSome then { c with strm := c.strm ++ bs }
  else if c.expand then { c with strm := c.strm ++ bs, capt := some (c.capt.getD t) }
  else { c with buf := c.buf ++ bs }
/-- An expanding copy that has read a row's stream. -/
def CopyCmd.formed (t : Option XTable) (bs : List (Byte × Bool)) (c : CopyCmd) : CopyCmd :=
  { c with strm := [], buf := bs, capt := some (c.capt.getD t) }
/-- A copy that has written bytes. -/
def CopyCmd.wrote (n : Nat) (c : CopyCmd) : CopyCmd := { c with done := c.done + n, buf := c.buf.drop n }

/-- A copy engine reads or writes up to `n` bytes of a command (R259). Its reads follow the updates already committed (R386). -/
def copyMove (core id n : Nat) (s0 : State) : State :=
  let s := drained s0
  match (coreOf s core).copies.find? fun c => c.id == id with
  | none => s
  | some c =>
    let asid := (copyCtx s c).asid
    let table := (slotTable (coreOf s core) c).getD none
    match copyNext s core c n with
    | .take a bs => updCopy core id (CopyCmd.took table bs) (rankKeys c.hint a.keys (noteSpan core asid a s))
    | .form bs => updCopy core id (CopyCmd.formed table bs) s
    | .put d bs => updCopy core id (CopyCmd.wrote bs.length) (putCopied c d bs (crossSpan core asid d s))
    | .halt h a => haltContext (copyCtx s c).part asid h ⟨.copyEngine, core, a, 0, c.launch, true⟩ s
    | _ => s

/-! ## The end of a command (R261, R262) -/

/-- A command leaves its engine; what waited for it goes on. -/
def leaveEngine (core : Nat) (c : CopyCmd) (s : State) : State :=
  let r := coreOf s core
  let s := setCore s core { r with copies := r.copies.filter fun x => x.id != c.id }
  match fibre? s c.fibre with
  | none => s
  | some f =>
    let s := regrant f.id s
    match blockOf s f with
    | none => s
    | some b => if f.status == .exited then settleAdmissions c.launch s (tryEndBlock b s) else s

/-- The copy's arrival on its barrier (R176, R261). -/
def copyArrives (c : CopyCmd) (s : State) : State :=
  match c.bar, fibre? s c.fibre with
  | some (num, ph), some f =>
    let b := barOf s f .block num
    let s := setBar s f { b with copies := b.copies.filter (· != (ph, c.id)) }
    settleBarrier f .block num (2 * (barMembers s f .block).length + 2) s
  | _, _ => s

/-- The copy's event record (R256, R430). -/
def copyRecord (c : CopyCmd) (status : BitVec 8) (s : State) : State :=
  match c.evt, launch? s c.launch with
  | some tag, some L => writeRecord L.part L.ring ⟨s.clock, L.id, L.tag, 0, 0, tag, 1, status⟩ s
  | _, _ => s

/-- The follow-on command of a copy that has landed gathers its rows (R329). -/
def startFollowOn (core : Nat) (c : CopyCmd) (s : State) : State :=
  let r := coreOf s core
  match s.blocks.find? fun b => b.launch == c.launch && b.stage == c.stage && b.num == c.block with
  | none => s
  | some b =>
    let mine := fun (m : MatCmd) => m.waits == some c.id && m.fibre == c.fibre
    if r.mat.any fun m => mine m && rowsPoison s b m then
      haltContext (copyCtx s c).part (copyCtx s c).asid .poison ⟨.matrix, core, 0, 0, c.launch, true⟩ s
    else setCore s core { r with mat := updIf mine (fun m => { m with waits := none, arows := some (gatherRows s b m) }) r.mat }

/-- COPY_LANDING (R261): the follow-on, the barrier arrival and the event record, in this order. -/
def execCopyLanding (core id : Nat) (s : State) : Host.Outcome State Fault Refusal :=
  .next <| match (coreOf s core).copies.find? fun c => c.id == id with
  | none => s
  | some c =>
    if c.stopped || c.table.isSome || c.done < c.rows * c.rowBytes then s
    else
      let mine := fun (b : Shadow) => b.owner == (s.dev.devid.toNat, core, id)
      let s := { s with msys := { s.msys with shadows := updIf mine (fun b => { b with landed := true }) s.msys.shadows } }
      let s := updCopy core id (fun c => { c with landed := true }) s
      leaveEngine core c (copyRecord c 0 (copyArrives c (startFollowOn core c s)))

/-- A copy fault put in its place in engine order: the command numbers of one fibre rise (R259, R450). -/
def insertFault (x : CopyFault) : List CopyFault → List CopyFault
  | [] => [x]
  | y :: r => if x.id < y.id then x :: y :: r else y :: insertFault x r

/-- A fault of a released command reaches its fibre, which will freeze (R262, R450). -/
def holdCopyFault (c : CopyCmd) (e : AFault) (addr : Word) (resumes : Bool) (s : State) : State :=
  updFibre s c.fibre fun f => { f with
    copyFaults := insertFault ⟨e.cause, e.sub, addr, c.done, c.pc, c.inst, c.id, resumes⟩ f.copyFaults }

/-- Names of an abandoned copy become the name of no copy, which discards what is bound to it (R262, R329). -/
def unbind (id : Nat) (f : Fibre) : Fibre :=
  let sub := fun (o : Option Nat) => if o = some id then some 0 else o
  { f with
    follow := sub f.follow
    regs := { f.regs with resume := f.regs.resume.map fun r => r.map fun r => { r with follow := sub r.follow } }
    unfin := f.unfin.map fun h => match h.op with
      | .mat m => { h with op := .mat { m with waits := sub m.waits } }
      | _ => h }

/-- A command is abandoned (R262): its arrival and its record are made, its follow-on is discarded. -/
def abandonCopy (core : Nat) (c : CopyCmd) (e : AFault) (addr : Word) (s : State) : State :=
  let s := updFibre (holdCopyFault c e addr false s) c.fibre (unbind c.id)
  let r := coreOf s core
  let s := setCore s core { r with mat := r.mat.filter fun m => !(m.waits == some c.id && m.fibre == c.fibre) }
  let s := updCopy core c.id (fun c => { c with landed := true }) s
  leaveEngine core c (copyRecord c 5 (copyArrives c s))

/-! ## Tables (R311) -/

/-- An `expload` reads on, as far as nothing stands in its way: its header, then its entries, from page to page. -/
def tableFeed (core id : Nat) : Nat → State → State
  | 0, s => s
  | fuel + 1, s => tableFeed core id fuel (copyMove core id 65536 s)

/-- What an `expload` has read. -/
inductive TableRead where
  /-- Not the whole of it yet. -/
  | idle
  /-- A table, or one that is INVALID. -/
  | table (t : Option XTable)
  /-- A poisoned byte, by its place. -/
  | poison (k : Nat)
  deriving DecidableEq, Repr

/-- The table that an `expload` has read (R301, R311). -/
def tableNext (c : CopyCmd) : TableRead :=
  match c.table with
  | none => .idle
  | some id =>
    if c.strm.length < tableBytes c then .idle
    else
      match c.strm.findIdx? (·.2) with
      | some k => .poison k
      | none =>
        let bs := c.strm.map (·.1)
        match parseTable (natOf (bs.take 16)) ((List.range ((tableBytes c - 16) / 8)).map fun j => natAt bs (16 + 8 * j) 8) with
        | some t => .table (if t.id = id then some t else none)
        | none => .table none

/-- The physical address of a byte of a table, or its place in a scratchpad. -/
def tableAddr (s : State) (c : CopyCmd) (k : Nat) : Nat :=
  match reach s (copyCtx s c) false (ptrAdd c.src k) 1 with
  | .at ⟨.dev pa, _, _, _⟩ => pa
  | .at ⟨.scr _ o, _, _, _⟩ => o
  | _ => 0

/-- Expanding copies of a block that stand before a command in engine order are taken with the table that its slot holds
now (R312). -/
def captureEarlier (core : Nat) (c : CopyCmd) (s : State) : State :=
  let r := coreOf s core
  let ids := ((splitAt r.copies c.id).1.filter fun e => e.expand && e.sameBlock c && e.capt.isNone).map (·.id)
  setCore s core { r with
    copies := updIf (fun e => ids.contains e.id) (fun e => { e with capt := some ((slotTable r c).getD none) }) r.copies }

/-- EXPANDER_TABLE_READ (R311): what is left of the table is read, and the table goes to the block's slot, INVALID where it is not
well formed or has another ID; with all 8 slots held by other blocks, the fault of R262 is raised. -/
def execExpanderTableRead (core id : Nat) (s0 : State) : Host.Outcome State Fault Refusal :=
  let s := if (coreOf s0 core).copies.any fun c => c.id == id && c.table.isSome then tableFeed core id 4 s0 else s0
  .next <| match (coreOf s core).copies.find? fun c => c.id == id with
  | none => s
  | some c =>
    match tableNext c with
    | .table t =>
      let s := captureEarlier core c s
      let r := coreOf s core
      let mine := fun (e : Word × Nat × Nat × Option XTable) => e.1 == c.launch && e.2.1 == c.stage && e.2.2.1 == c.block
      if r.expander.any mine then
        leaveEngine core c (setCore s core { r with
          expander := updIf mine (fun e => (e.1, e.2.1, e.2.2.1, t)) r.expander })
      else if r.expander.length < 8 then
        leaveEngine core c (setCore s core { r with expander := r.expander ++ [(c.launch, c.stage, c.block, t)] })
      else abandonCopy core c .range c.src s
    | .poison k => haltContext (copyCtx s c).part (copyCtx s c).asid .poison ⟨.copyEngine, core, tableAddr s c k, 0, c.launch, true⟩ s
    | .idle => s

/-- The fault at which a command stands, if it stands at one. -/
def copyStop (s : State) (core : Nat) (c : CopyCmd) : Option (AFault × Word) :=
  match copyNext s core c 65536 with
  | .stop e a => some (e, a)
  | _ => none

/-- COPY_TRANSLATION_FAULT (R262): the command stops at the faulting page and its fibre will freeze. -/
def execCopyTranslationFault (core id : Nat) (s0 : State) : Host.Outcome State Fault Refusal :=
  let s := drained s0
  .next <| match (coreOf s core).copies.find? fun c => c.id == id with
  | none => s
  | some c =>
    match copyStop s core c with
    | some (e, a) =>
      if e.cause = 0x10 then holdCopyFault c e a true (updCopy core id (fun c => { c with stopped := true }) s) else s
    | none => s

/-- COPY_ABANDON (R262): an ADDRESS or REMOTE fault abandons the command. -/
def execCopyAbandon (core id : Nat) (s0 : State) : Host.Outcome State Fault Refusal :=
  let s := drained s0
  .next <| match (coreOf s core).copies.find? fun c => c.id == id with
  | none => s
  | some c =>
    match copyStop s core c with
    | some (e, a) => if e.cause = 0x10 then s else abandonCopy core c e a s
    | none => s

/-! ## The matrix unit (R326, R330) -/

/-- A command of a core's matrix unit with the fibre that issued it, if it runs. -/
def runningMat (s : State) (core id : Nat) : Option (MatCmd × List (List Byte) × Block) :=
  match (coreOf s core).mat.find? fun c => c.id == id with
  | none => none
  | some c =>
    match c.arows, s.blocks.find? fun b => b.launch == c.launch && b.stage == c.stage && b.num == c.block with
    | some rows, some b => some (c, rows, b)
    | _, _ => none

/-- The ASID and partition of a block. -/
def blockContext (s : State) (b : Block) : Nat × Nat := (partOfCore s b.core, ((launch? s b.launch).map (·.asid)).getD 0)

/-- A run-again chunk has succeeded: a transient failure (R402). -/
def countRedo (s : State) (c : MatCmd) (core : Nat) : State := if c.redo.isSome then countTrans (partOfCore s core) s else s

/-- MATRIX_COMMAND_FINISH (R320 to R326, R336). -/
def execMatrixCommandFinish (core id : Nat) (s : State) : Host.Outcome State Fault Refusal :=
  .next <| match runningMat s core id with
  | none => s
  | some (c, rows, b) =>
    let x := blockContext s b
    let area := viewWords (MatForm.wide c.form)
    if !c.cz && b.tileBad c.c area then
      haltContext x.1 x.2 .poison ⟨.matrix, core, 0, 0, c.launch, true⟩ s
    else
      let tile := fun (t : Nat) => b.tiles.getD t Tile.zero
      let d := matResult c (tile c.c) (tile c.d) rows
      let s := countRedo s c core
      let r := coreOf s core
      let s := setCore s core { r with mat := r.mat.filter fun m => m.id != id }
      updBlock s b.launch b.stage b.num (Block.putTile c.d d area)

/-- SOFT_ERROR (R330, R402): the chunk is run again; a second error in the same chunk halts the context. -/
def execSoftError (core id chunk : Nat) (s : State) : Host.Outcome State Fault Refusal :=
  .next <| match runningMat s core id with
  | none => s
  | some (c, _, b) =>
    let x := blockContext s b
    let past := match c.redo with
      | some k => decide (chunk < k)
      | none => false
    if past || decide (MatForm.chunks c.form ≤ chunk) then s
    else if c.redo = some chunk then
      haltContext x.1 x.2 .softerror ⟨.matrix, core, 0, 0, c.launch, true⟩ (countLast x.1 s)
    else
      let s := countRedo s c core
      let r := coreOf s core
      setCore s core { r with mat := updIf (fun m => m.id == id) (fun m => { m with redo := some chunk }) r.mat }

end Sys2Proof.Machine
end

