-- ==== Sys2Proof/Machine/Placer.lean ====
section
/-! DEFINITION. The placer (04 R89 to R106): reading descriptors and stage tables, eligibility, admission of blocks by
cores, placement of new, flushed and saved blocks, arbitration, reservation, withdrawal, and its part in pre-emption
(21 R411 to R421). -/

namespace Sys2Proof.Machine

/-! ## Reading descriptors and stage tables (R42, R43, R94, R101) -/

/-- What the placer reads. -/
inductive PlacerRead where
  | ok (n : Nat)
  | bad
  | halt (c : HaltCause) (addr : Nat)
  deriving DecidableEq, Repr

/-- Reads `n` bytes of a structure in the ASID of a launch (R94). -/
def placerRead (s : State) (L : Launch) (va : Word) (n : Nat) : PlacerRead :=
  if ptrSpace va ≠ 0 ∨ wfield va 59 52 ≠ 0 ∨ ptrAddr va % 64 ≠ 0 then .bad
  else
    (pieces (ptrAddr va) n).foldl (fun acc q =>
      match acc with
      | .ok x =>
        match walk s L.part L.asid q.2.2 with
        | .unread a => .halt .uncorrectable a
        | .violation a => .halt .protection a
        | .fault _ | .wait => .bad
        | .leaf l =>
          let pa := l.pa q.2.2
          if !(l.kind == .normal || l.kind == .strong) || !localTo s L.part pa then .bad
          else
            match ((List.range q.2.1).map (pa + ·)).find? fun a => isPoison s.msys a with
            | some a => .halt .poison a
            | none => .ok (x + natOf (homeBytes s.msys pa q.2.1) * 256 ^ q.1)
      | r => r) (.ok 0)

/-- A descriptor from the bits of its record (R37). -/
def Desc.ofBits (r : Nat) : Desc :=
  { entry := BitVec.ofNat 64 (field r 63 0), handler := BitVec.ofNat 64 (field r 127 64)
    fibres := BitVec.ofNat 32 (field r 159 128), storage := BitVec.ofNat 32 (field r 191 160)
    sync := BitVec.ofNat 32 (field r 223 192), format := BitVec.ofNat 32 (field r 255 224), reserved := field r 511 256 != 0 }

/-- Fibres of a quadrant (R38). -/
def Desc.quad (d : Desc) (q : Nat) : Nat := wfield d.fibres (11 + 5 * q) (7 + 5 * q)
/-- FIBRES.COUNT. -/
def Desc.count (d : Desc) : Nat := wfield d.fibres 6 0
/-- REGS − 2: units of a fibre's first extended block (R36, R39). -/
def Desc.units (d : Desc) : Nat := wfield d.storage 3 0 - 2
/-- QLOG. -/
def Desc.qlog (d : Desc) : Nat := wfield d.sync 27 23

/-- A code address of R37. -/
def codeAddr (v : Word) : Bool := wfield v 63 52 == 0 && wfield v 4 0 == 0

/-- A descriptor that fails R42. -/
def Desc.bad (d : Desc) : Bool :=
  let q := (List.range 4).map d.quad
  let regs := wfield d.storage 3 0
  wfield d.format 7 0 != 1 || d.reserved || wfield d.fibres 31 27 != 0 || wfield d.storage 31 28 != 0 ||
    wfield d.sync 31 28 != 0 || wfield d.format 31 13 != 0 || d.entry == 0 || !codeAddr d.entry || !codeAddr d.handler ||
    d.count == 0 || decide (64 < d.count) || (q.any fun n => decide (16 < n)) || d.count != q.foldl (· + ·) 0 ||
    decide (512 < wfield d.storage 27 18) || decide (16 < wfield d.storage 17 13) || decide (32 < wfield d.storage 12 7) ||
    decide (6 < wfield d.storage 6 4) || decide (regs < 2) || decide (8 < regs) || decide (wfield d.storage 6 4 < regs - 2) ||
    decide (16 < barCount d .block) || decide (4 < barCount d .gang) || decide (2 < barCount d .slot) ||
    decide (8 < barCount d .cluster) || decide (4 < barCount d .span) || decide (4 < barCount d .grid) ||
    (if d.ordered then decide (d.qlog < 8) || decide (16 < d.qlog) else d.qlog != 0)

/-- A quadrant would need more extended registers than its pool holds (R93). -/
def Desc.tooWide (d : Desc) : Bool := (List.range 4).any fun q => decide (16 < d.quad q * d.units)

/-- A later image differs from the first where it may not (R43). -/
def Desc.drifts (first d : Desc) : Bool :=
  let m : BitVec 32 := 0x0F9FFC00
  first.sync &&& m != d.sync &&& m || d.tooWide

/-- A descriptor image that the placer read. -/
inductive Image where
  | ok (d : Desc)
  | status (st : BitVec 8)
  | halt (c : HaltCause) (addr : Nat)
  deriving DecidableEq, Repr

/-- Reads and checks a descriptor (R42, R94). -/
def readImage (s : State) (L : Launch) (kdesc : Word) : Image :=
  match placerRead s L kdesc 64 with
  | .bad => .status 3
  | .halt c a => .halt c a
  | .ok n => if (Desc.ofBits n).bad then .status 3 else .ok (Desc.ofBits n)

/-- The image a block is placed under (R43). -/
def laterImage (s : State) (L : Launch) (g : Stage) : Image :=
  match readImage s L g.kdesc with
  | .ok d => if (g.first.getD Desc.zero).drifts d then .status 3 else .ok d
  | r => r

/-- The limits of R101 on the entry of stage `k` of `n`; `cap` is CAPLOG of the stage before. -/
def stageEntryBad (P n k : Nat) (ordered : Bool) (cap : Nat) (e : Nat) : Bool :=
  let last := k + 1 == n
  let qbuf := field e 511 448
  let entb := field e 351 336
  let maxb := field e 335 320
  let minb := field e 319 304
  let hi := field e 303 288
  let lo := field e 287 272
  let caplog := field e 259 256
  field e 447 384 != 0 || field e 271 260 != 0 || field e 255 64 != 0 || qbuf % 65536 != 0 || (last && qbuf != 0) ||
    decide (2 ^ 52 ≤ qbuf) || (if k = 0 then field e 383 352 == 0 else field e 383 352 != 0) ||
    (if ordered && k != 0 then entb == 0 || decide (4096 < entb) else entb != 0) || maxb == 0 || decide (P < maxb) ||
    (if k = 0 then minb != 0 else decide (maxb < minb) || decide (hi ≤ lo) || decide (2 ^ cap < hi)) ||
    (if last then caplog != 0 else decide (caplog < 6) || decide (12 < caplog))

/-- The stage of a table's entry. -/
def stageOfEntry (e : Nat) (d : Desc) (pages : List Nat) (last : Bool) : Stage :=
  { Stage.init (BitVec.ofNat 64 (field e 63 0)) (field e 383 352) with
    first := some d, qbuf := BitVec.ofNat 64 (field e 511 448), qpages := pages
    cap := if last then 0 else 2 ^ field e 259 256, entb := field e 351 336, maxb := field e 335 320
    minb := field e 319 304, hi := field e 303 288, lo := field e 287 272 }

/-- The frames of a queue buffer's pages, if each translates into local memory. -/
def queuePages (s : State) (L : Launch) (e : Nat) : Option (List Nat) :=
  let bytes := 64 + 64 * 2 ^ field e 259 256
  (List.range ((bytes + 65535) / 65536)).mapM fun i =>
    let va := field e 511 448 + 65536 * i
    match walk s L.part L.asid va with
    | .leaf l => if localTo s L.part (l.pa va) then some (l.pa va) else none
    | _ => none

/-! ## Eligibility (R89, R93) -/

/-- Earlier launches of a launch's queue that have not completed. -/
def queueBefore (s : State) (L : Launch) : List Launch :=
  s.launches.filter fun M => M.part == L.part && M.queue == L.queue && decide (M.accept < L.accept)

/-- A launch has placed all of its blocks; of a staged launch, those of stage 0. -/
def Launch.allPlaced (L : Launch) : Bool :=
  L.phase == .placing && match L.stages.head? with
    | some g => g.next == g.blocks
    | none => false

/-- AFTER (R80). -/
def Launch.after (L : Launch) : Bool := L.ctl.getLsbD 19

/-- Eligibility within the queue (R89). -/
def eligible (s : State) (L : Launch) : Bool :=
  let before := queueBefore s L
  before.isEmpty || if L.after then before.all fun M => M.id != L.id - 1 else before.all (·.allPlaced)

/-- Queue buffers of stages, in bytes (R102). -/
def queueBytes (gs : List Stage) : Nat := gs.foldl (fun n g => if g.qpages = [] then n else n + 64 + 64 * g.cap) 0

/-- Bytes that the live stage queues of a partition pin (R102). -/
def pinnedBytes (s : State) (p : Nat) : Nat :=
  (s.launches.filter fun L => L.part == p).foldl (fun n L => n + queueBytes L.stages) 0

/-- The stages of a staged launch, or the status it ends with (R42, R93, R94, R101). -/
inductive Checked where
  | ok (gs : List Stage)
  | status (st : BitVec 8)
  | halt (c : HaltCause) (addr : Nat)
  deriving DecidableEq, Repr

/-- The images of a launch's stages, or the first failure. -/
def readImages (s : State) (L : Launch) : List Word → Except Image (List Desc)
  | [] => .ok []
  | k :: r =>
    match readImage s L k with
    | .ok d => (readImages s L r).map (d :: ·)
    | x => .error x

/-- The checks of R93 on a launch at the head of eligibility. A stage descriptor that fails R42 is reported before an entry that
breaks R101 (assumption 57). -/
def checkLaunch (s : State) (L : Launch) : Checked :=
  let P := (placementSet s L).length
  let n := wfield L.ctl 18 16
  if n = 1 then
    match L.stages with
    | [g] =>
      match readImage s L g.kdesc with
      | .ok d =>
        let wide := barCount d .cluster != 0 || barCount d .span != 0 || barCount d .grid != 0
        if d.tooWide || (wide && decide (P < g.blocks)) then .status 2 else .ok [{ g with first := some d }]
      | .status st => .status st
      | .halt c a => .halt c a
    | _ => .status 3
  else
    match placerRead s L L.stagetab (64 * n) with
    | .bad => .status 4
    | .halt c a => .halt c a
    | .ok t =>
      let es := (List.range n).map fun k => t / 2 ^ (512 * k) % 2 ^ 512
      match readImages s L (es.map fun e => BitVec.ofNat 64 (field e 63 0)) with
      | .error (.status st) => .status st
      | .error (.halt c a) => .halt c a
      | .error (.ok _) => .status 3
      | .ok ds =>
        let ordered := (ds.headD Desc.zero).ordered
        let bad := (List.range n).any fun k =>
          stageEntryBad P n k ordered (if k = 0 then 0 else field (es.getD (k - 1) 0) 259 256) (es.getD k 0)
        let wide := ds.any fun d => barCount d .cluster != 0 || barCount d .span != 0 || barCount d .grid != 0
        if bad || wide then .status 4
        else
          let gs := (List.range n).mapM fun k =>
            let e := es.getD k 0
            let last := k + 1 == n
            (if last then some [] else queuePages s L e).map fun ps => stageOfEntry e (ds.getD k Desc.zero) ps last
          match gs with
          | none => .status 4
          | some gs => if ds.any (·.tooWide) then .status 2 else .ok gs

/-- The queue buffers of a launch have no room beside those that its partition pins: it stays ineligible (R102). -/
def pinsHeld (s : State) (L : Launch) : Bool :=
  match checkLaunch s L with
  | .ok gs => queueBytes gs != 0 && decide (2 ^ 22 < pinnedBytes s L.part + queueBytes gs)
  | _ => false

/-- LAUNCH_ELIGIBILITY_CHECK (R93, R102). -/
def execLaunchEligibilityCheck (launchId : Word) (s : State) : Host.Outcome State Fault Refusal :=
  .next <| match launch? s launchId with
  | none => s
  | some L =>
    if L.phase != .queued || !eligible s L then s
    else
      match checkLaunch s L with
      | .status st => endLaunch L st 0 s
      | .halt c a => haltContext L.part L.asid c ⟨.placer, 0, a, 0, L.id, true⟩ s
      | .ok gs =>
        if pinsHeld s L then s
        else
          let s := updLaunch s L.id fun L => { L with phase := .placing, stages := gs }
          gs.foldl (fun s g => writeControlLine L.id g s) s

/-! ## Admission (R95, R96, R99, R108) -/

/-- Positions of a slot that no resident fibre holds. A fibre that has exited keeps its position until its block ends
(assumption 57). -/
def freeInSlot (s : State) (core slot : Nat) : List Nat :=
  ((List.range 4).map (4 * slot + ·)).filter fun p => !(s.fibres.any fun f => f.id == ⟨core, p⟩)
/-- Blocks of a core, and what of a kind they hold together. -/
def coreSum (s : State) (core : Nat) (g : Block → Nat) : Nat :=
  (s.blocks.filter fun b => b.core == core).foldl (fun n b => n + g b) 0
/-- A block has a fibre in some positions. -/
def blockIn (s : State) (b : Block) (g : Nat → Bool) : Bool := s.fibres.any fun f => inBlock b f && g f.id.pos
/-- Slot barriers of a slot that are free. -/
def slotBarsFree (s : State) (core slot : Nat) : Nat :=
  2 - coreSum s core fun b => if blockIn s b fun p => p / 4 == slot then barCount b.desc .slot else 0
/-- Gang barriers of a quadrant that are free. -/
def gangBarsFree (s : State) (core q : Nat) : Nat :=
  4 - coreSum s core fun b => if blockIn s b fun p => p / 16 == q then barCount b.desc .gang else 0

/-- Sizes of a gang's groups. -/
def groupSizes (n : Nat) : List Nat := (List.range ((n + 3) / 4)).map fun k => min 4 (n - 4 * k)
/-- Positions of a gang's fibres: each group takes the lowest slot that has room (R108). -/
def placeGroups (free : Nat → List Nat) : List Nat → List Nat → Option (List Nat)
  | [], _ => some []
  | g :: r, slots =>
    match slots.find? fun t => g ≤ (free t).length with
    | none => none
    | some t => (placeGroups free r (slots.filter (· != t))).map ((free t).take g ++ ·)

/-- First units of runs, first fit, in order (R96). -/
def takeUnits (held : List Nat) : List Nat → Option (List Nat)
  | [] => some []
  | n :: r =>
    if n = 0 then (takeUnits held r).map (0 :: ·)
    else
      match firstFit held n with
      | none => none
      | some u => (takeUnits ((List.range n).map (· + u) ++ held) r).map (u :: ·)

/-- The first free range of scratchpad (R95). -/
def firstScratch (s : State) (core n : Nat) : Option Nat :=
  let used := (s.blocks.filter fun b => b.core == core).map fun b => (b.scrBase, Desc.scratch b.desc)
  ((List.range 512).map (1024 * ·)).find? fun a =>
    a + n ≤ 524288 && used.all fun u => u.2 == 0 || n == 0 || a + n ≤ u.1 || u.1 + u.2 ≤ a

/-- The barriers above the block are free for a launch at a core, or the launch holds them there already (R95). -/
def wideBarsFree (s : State) (L : Launch) (core : Nat) : Bool :=
  let ok := fun (lvl : BarLevel) (total : Nat) (same : Nat → Bool) =>
    let need := barCount (firstDesc L) lvl
    need == 0 || L.held.any same ||
      decide (need + (s.launches.filter fun M => M.id != L.id && M.part == L.part && M.held.any same).foldl
        (fun n M => n + barCount (firstDesc M) lvl) 0 ≤ total)
  ok .cluster 8 (fun c => c / 8 == core / 8) && ok .span 4 (fun c => c / 16 == core / 16) && ok .grid 4 (fun _ => true)

/-- A reservation for another launch keeps a block off a core (R99): `ext` says which quadrants' extended registers it
needs; where the waiting block needs them was found when it was refused. -/
def reservedAgainst (s : State) (L : Launch) (core : Nat) (d : Desc) (ext : Nat → Bool) : Bool :=
  match (coreOf s core).reserved with
  | none => false
  | some l =>
    l != L.id && match launch? s l with
      | none => false
      | some M =>
        Desc.scratch d != 0 || (List.range 4).any fun q => ext q && M.waiting.any fun w => w.quads.contains q

/-- A core that is in service and has not failed (R426, R449). -/
def coreInService (s : State) (core : Nat) : Bool :=
  s.dev.inservice.getLsbD (core / 32) && !s.dev.failed.contains (.core, core) && !s.dev.failed.contains (.dieHalf, core / 32)

/-- Where a block goes on a core. -/
structure Fit where
  pos   : List Nat
  units : List Nat
  scr   : Nat
  deriving DecidableEq, Repr

/-- The quadrant of a fibre index (R107). -/
def Desc.quadOf (d : Desc) (i : Nat) : Nat :=
  if i < d.quad 0 then 0 else if i < d.quad 0 + d.quad 1 then 1 else if i < d.quad 0 + d.quad 1 + d.quad 2 then 2 else 3
/-- The lowest index of a quadrant's gang. -/
def Desc.gangBase (d : Desc) (q : Nat) : Nat := ((List.range q).map d.quad).foldl (· + ·) 0

/-- The resources of a core for a block whose fibres take runs of `sizes` units (R95, R96, R108). -/
def coreFits (s : State) (L : Launch) (d : Desc) (sizes : List Nat) (core : Nat) : Option Fit :=
  let sizeIn := fun (q : Nat) => (sizes.drop (d.gangBase q)).take (d.quad q)
  let gangs := (List.range 4).mapM fun q =>
    let slots := ((List.range 4).map (4 * q + ·)).filter fun t => barCount d .slot ≤ slotBarsFree s core t
    if d.quad q != 0 && decide (gangBarsFree s core q < barCount d .gang) then none
    else
      match placeGroups (freeInSlot s core) (groupSizes (d.quad q)) slots, takeUnits (heldUnits s core q) (sizeIn q) with
      | some ps, some us => some (ps, us)
      | _, _ => none
  let tiles := coreSum s core fun b => wfield b.desc.storage 17 13
  let bars := coreSum s core fun b => barCount b.desc .block
  if !coreInService s core || reservedAgainst s L core d (fun q => (sizeIn q).any (· != 0)) || !wideBarsFree s L core ||
      decide (16 < tiles + wfield d.storage 17 13) || decide (16 < bars + barCount d .block) then none
  else
    match gangs, firstScratch s core (Desc.scratch d) with
    | some gs, some a => some ⟨gs.flatMap (·.1), gs.flatMap (·.2), a⟩
    | _, _ => none

/-- A core that admits a block (R95). -/
def admits (s : State) (L : Launch) (k : Nat) (d : Desc) (sizes : List Nat) (core : Nat) : Option Fit :=
  if (blockOn s L.id k core).isSome then none else coreFits s L d sizes core

/-! ## Placing a block (R107 to R110) -/

/-- The registers a fibre starts with (R110). -/
def initRegs (L : Launch) (d : Desc) (ext unit0 : Nat) : FRegs :=
  { pc := d.entry, em := allOnes, v := Vector.ofFn fun _ => zeroV
    s := Vector.ofFn fun i => if 8 ≤ i.val ∧ i.val < 16 then L.args.getD (i.val - 8) 0 else 0
    p := Vector.ofFn fun _ => 0, ext := ext, unit0 := unit0, xflags := 0, xen := if d.sync.getLsbD 22 then 0x10000 else 0
    lclock := 0, t := ⟨0, 0, 0, 0, 0, 0, 0, 0⟩, level := 0, back := 0, frozen := .ready, resume := [] }

/-- A fibre at its placement (R110, R378, R379): its place in program order begins where no command number is used again
(R259). -/
def newFibre (s : State) (L : Launch) (k b core round : Nat) (d : Desc) (fit : Fit) (i : Nat) : Fibre :=
  let regs := initRegs L d (16 * d.units) (fit.units.getD i 0)
  let seq := (coreOf s core).seqBase
  { id := ⟨core, fit.pos.getD i 0⟩, launch := L.id, stage := k, block := b, home := core, index := i
    gindex := i - d.gangBase (d.quadOf i), regs := regs, status := .ready, isCur := false, curSince := 0, readySince := s.clock, seq := seq
    pend := [], waitTrap := none, copyFaults := [], unfin := [], moving := [], conflict := false, escthr := 0x00100404, rbcount := 0
    esc1 := 0, esc2 := 0, esc3 := 0, qredo := 0, qcount := 0, hrufb := 0, rbnow := 0, escLevel := 0, window := none
    winWait := false, arrived := [], owed := [], acquire := none, qround := round, qstart := regs, qseq := seq, qlines := []
    qwrites := [], qundo := [], committing := false, qheld := [], follow := none, unsealing := none, poison := [], saveRec := none, stuckFor := 0 }

/-- The entries that a flushed block of an ordered launch had taken (R106). -/
def takenBefore (L : Launch) (k b : Nat) : Nat :=
  ((L.stages[k]?).bind fun g => (g.taken.find? fun t => t.1 == b).map (·.2)).getD 0

/-- A block at its placement. One that was flushed is not withdrawn any more, and goes on taking entries after those that it took
(R106, R414, assumption 57). -/
def newBlock (s : State) (L : Launch) (k b core : Nat) (d : Desc) (fit : Fit) : Block :=
  { launch := L.id, stage := k, num := b, core := core, desc := d, scrBase := fit.scr
    tiles := List.replicate (wfield d.storage 17 13) Tile.zero, tilePoison := [], bars := [], withdrawn := false
    deqCount := takenBefore L k b, placedAt := s.clock, preempt := .none, committed := false }

/-- The block that a launch waits to place is placed: its wait and its reservations end (R99). -/
def endWaiting (L : Launch) (k b : Nat) (s : State) : State :=
  if !(L.waiting.any fun w => w.stage == k && w.block == b) then s
  else
    let s := updLaunch s L.id fun L => { L with waiting := none }
    let cores := s.cores.map fun c => (c.1, if c.2.reserved = some L.id then { c.2 with reserved := none } else c.2)
    { s with cores := cores.filter fun c => c.2 != CoreRec.init }

/-- The events of a fibre that is placed follow the acceptance of its launch, and with it `n` writes of Host-noncoherent lines
(R351). -/
def seePlaced (n core : Nat) (pos : List Nat) (s : State) : State :=
  if n = 0 then s
  else pos.foldl (fun s i => { s with msys := setHncView s.msys ((hncViewOf s.msys ⟨core, i⟩).raise n) }) s

/-- What the placer keeps of a placement (R90, R97). -/
def notePlaced (L : Launch) (core : Nat) (s : State) : State :=
  let s := updLaunch s L.id fun L => { L with placed := true, held := addNew L.held core }
  updPart s L.part fun P => { P with places := P.places + 1, qlast := Tab.set P.qlast L.queue (P.places + 1) }

/-- Places block `b` of stage `k` on a core. -/
def placeAt (L : Launch) (k b core : Nat) (d : Desc) (fit : Fit) (s : State) : State :=
  let round := ((L.stages[k]?).map fun g => admission g b).getD 1
  let s := { s with
    fibres := s.fibres ++ (List.range d.count).map (newFibre s L k b core round d fit)
    blocks := s.blocks ++ [newBlock s L k b core d fit] }
  let s := updStage s L.id k fun g => { g with
    next := max g.next (b + 1), again := g.again.filter (· != b), lastCore := some core }
  notePlaced L core (endWaiting L k b (seePlaced L.seen core fit.pos s))

/-! ## Placing a saved block (R420) -/

/-- Units of each fibre of a saved block, by index: what it held. -/
def SavedBlock.sizes (b : SavedBlock) : List Nat :=
  (List.range b.blk.desc.count).map fun i =>
    ((b.fibres.find? fun f => f.index == i).map fun f => if f.left then 0 else f.regs.ext / 16).getD 0

/-- Places a saved block on a core: its fibres not EXITED enter RESTORE. The descriptor is not read again (assumption 57). What the
block's fibres had seen of Host-noncoherent lines went with the core: they read nothing older than now (assumption 46). -/
def restoreAt (L : Launch) (b : SavedBlock) (core : Nat) (fit : Fit) (s : State) : State :=
  let p := L.part
  let P := partn s p
  let at_ := fun (i : Nat) => fit.pos.getD i 0
  let newSlot := fun (t : Nat) => ((b.fibres.find? fun f => f.id.pos / 4 == t).map fun f => at_ f.index / 4).getD t
  match slotPoison s core p L.asid (slotAddr P b.slot) (b.frames.map (·.1)) with
  | some a => haltContext p L.asid .poison ⟨.core, core, a, 0, L.id, true⟩ s
  | none =>
  if savedIntact s L core b = false then haltContext p L.asid .badsave ⟨.core, core, 0, 0, L.id, true⟩ s
  else if P.resthdlr = 0 then haltContext p L.asid .nohandler ⟨.core, core, 0, 0, L.id, true⟩ s
  else
    let s := crossSlot core p L.asid (slotAddr P b.slot) (b.frames.map (·.1)) s
    let s := updLaunch s L.id fun L => { L with saved := L.saved.filter (· != b) }
    let renew := fun (f : Fibre) =>
      let init := initRegs L b.blk.desc f.regs.ext (fit.units.getD f.index 0)
      let regs := { init with
        pc := f.regs.pc, lclock := f.regs.lclock, t := f.regs.t, level := f.regs.level, back := f.regs.back
        frozen := f.regs.frozen, resume := f.regs.resume }
      let window := f.window.map fun w =>
        (w.1, w.2.1, ((b.fibres.find? fun g => g.id.pos / 4 == f.id.pos / 4 && g.id.pos % 4 == w.2.2).map
          fun g => at_ g.index % 4).getD w.2.2)
      let base := max f.seq (coreOf s core).seqBase
      let f := { f with
        id := ⟨core, at_ f.index⟩, regs := regs, window := window, isCur := false, seq := base, qseq := f.qseq + (base - f.seq)
        status := if f.left then .exited else f.status }
      match f.saveRec with
      | some r => if f.left then f else enterSave 0x19 P.resthdlr r (wordLength s core p L.asid r.pc) s.clock f
      | none => f
    let blk := { newBlock s L b.blk.stage b.blk.num core b.blk.desc fit with
      bars := b.blk.bars.map fun r => if r.lvl = .slot then { r with inst := newSlot r.inst } else r
      withdrawn := b.blk.withdrawn, deqCount := b.blk.deqCount, preempt := .restoring b.slot b.rec_ b.frames, committed := b.blk.committed }
    let s := { s with fibres := s.fibres ++ b.fibres.map renew, blocks := s.blocks ++ [blk] }
    notePlaced L core (endWaiting L b.blk.stage b.blk.num (seePlaced s.msys.hncNum core fit.pos s))

/-! ## A launch's candidates (R92, R97, R98, R100, R104, R106) -/

/-- What trying a launch gives: placements made, or a refusal; the state may have changed either way. -/
structure Tried where
  s : State
  n : Nat

/-- A failed later read (R94): no further block is placed. -/
def failLaunch (L : Launch) (st : BitVec 8) (s : State) : State :=
  finishLaunch L.id (updLaunch s L.id fun L => { L with phase := .failed st })

/-- The quadrants in which a block needs extended registers. -/
def extQuads (d : Desc) (sizes : List Nat) : List Nat :=
  (List.range 4).filter fun q => ((sizes.drop (d.gangBase q)).take (d.quad q)).any (· != 0)

/-- A block was refused by every core: the waiting time of its launch starts, or goes on (R99). -/
def startWaiting (L : Launch) (k b : Nat) (d : Desc) (sizes : List Nat) (s : State) : State :=
  let quads := extQuads d sizes
  updLaunch s L.id fun L =>
    match L.waiting with
    | none => { L with waiting := some ⟨k, b, quads, 0⟩ }
    | some w => if w.stage = k ∧ w.block = b then { L with waiting := some { w with quads := quads } } else L

/-- Cores in the order of R97: from the core after the last placement, wrapping around. -/
def scanOrder (S : List Nat) (last : Option Nat) : List Nat :=
  match last with
  | none => S
  | some c => S.filter (fun x => c < x) ++ S.filter (fun x => x ≤ c)

/-- The first core of a list that admits a block. -/
def findCore (s : State) (L : Launch) (k : Nat) (d : Desc) (sizes : List Nat) (cores : List Nat) : Option (Nat × Fit) :=
  cores.findSome? fun c => (admits s L k d sizes c).map fun f => (c, f)

/-- Runs of a block placed under an image. -/
def Desc.sizes (d : Desc) : List Nat := List.replicate d.count d.units

/-- One block of an ordinary or ordered launch: its cores are tried in order. -/
def tryBlock (L : Launch) (k b : Nat) (g : Stage) (cores : List Nat) (s : State) : Tried :=
  match laterImage s L g with
  | .status st => ⟨failLaunch L st s, 0⟩
  | .halt c a => ⟨haltContext L.part L.asid c ⟨.placer, 0, a, 0, L.id, true⟩ s, 0⟩
  | .ok d =>
    match findCore s L k d d.sizes cores with
    | some (c, fit) => ⟨placeAt L k b c d fit s, 1⟩
    | none =>
      if cores.all fun c => (coreFits s L d d.sizes c).isNone then ⟨startWaiting L k b d d.sizes s, 0⟩ else ⟨s, 0⟩

/-- All blocks of a co-resident launch in one step, or none (R98, R100). -/
def tryTogether (L : Launch) (g : Stage) (bs : List Nat) (S : List Nat) (s : State) : Tried :=
  match laterImage s L g with
  | .status st => ⟨failLaunch L st s, 0⟩
  | .halt c a => ⟨haltContext L.part L.asid c ⟨.placer, 0, a, 0, L.id, true⟩ s, 0⟩
  | .ok d =>
    let cores := if (firstDesc L).ordered then bs.map fun b => S.getD b 0
      else (S.filter fun c => (admits s L 0 d d.sizes c).isSome).take bs.length
    let fits := cores.filterMap fun c => (admits s L 0 d d.sizes c).map fun f => (c, f)
    if fits.length = bs.length then
      ⟨(List.zip bs fits).foldl (fun s x => placeAt L 0 x.1 x.2.1 d x.2.2 s) s, bs.length⟩
    else ⟨startWaiting L 0 (bs.headD 0) d d.sizes s, 0⟩

/-- Resident blocks of a stage. -/
def residents (s : State) (L : Launch) (k : Nat) : List Block := s.blocks.filter fun b => b.launch == L.id && b.stage == k

/-- A stage has room for one more resident block (R104); in an ordered launch MAXB bounds nothing (assumption 57). -/
def stageRoom (s : State) (L : Launch) (k : Nat) (g : Stage) : Bool :=
  (firstDesc L).ordered || decide (L.stages.length ≤ 1) || decide ((residents s L k).length < g.maxb)

/-- The flushed block that a stage places again now, the lowest first (R414). -/
def flushedBlock (s : State) (L : Launch) (k : Nat) (g : Stage) : Option Nat :=
  match g.again with
  | b :: _ => if stageRoom s L k g then some b else none
  | [] => none

/-- The unplaced block that a stage takes now (R104, R106). -/
def newestBlock (s : State) (L : Launch) (P k : Nat) (g : Stage) : Option Nat :=
  if (firstDesc L).ordered then (if orderedReady L P k g.next then some g.next else none)
  else
    let input := match inputOf L k with
      | none => decide (g.next < g.blocks)
      | some q => decide (g.hi < q.occupancy) || (q.closed && decide (0 < q.occupancy) && (residents s L k).isEmpty)
    let output := g.qpages.isEmpty || decide (g.occupancy < g.cap)
    if stageRoom s L k g && input && output then some g.next else none

/-- The next block of a stage: flushed blocks of the launch, of whatever stage, come before any that has not been placed
(R414). -/
def nextBlock (s : State) (L : Launch) (P k : Nat) (g : Stage) : Option Nat :=
  if L.stages.any fun h => h.again != [] then flushedBlock s L k g else newestBlock s L P k g

/-- Tries the blocks that a launch has to place: saved ones first, one at a time, then flushed ones, then new ones, by stage. A
launch of which a later read failed places its saved blocks and no other (assumption 57). -/
def tryLaunch (L : Launch) (s : State) : Tried :=
  let S := placementSet s L
  let ordered := (firstDesc L).ordered
  let pinned := fun (b : Nat) => if S.isEmpty then [] else [S.getD (b % S.length) 0]
  match L.saved.mergeSort fun a b => a.blk.stage < b.blk.stage || (a.blk.stage == b.blk.stage && a.blk.num ≤ b.blk.num) with
  | b :: _ =>
    let cores := if ordered then pinned b.blk.num else S
    match findCore s L b.blk.stage b.blk.desc b.sizes cores with
    | some (c, fit) =>
      if slotHeld s c L.part L.asid (slotAddr (partn s L.part) b.slot) (b.frames.map (·.1)) then ⟨s, 0⟩ else ⟨restoreAt L b c fit s, 1⟩
    | none =>
      if cores.all fun c => (coreFits s L b.blk.desc b.sizes c).isNone then ⟨startWaiting L b.blk.stage b.blk.num b.blk.desc b.sizes s, 0⟩
      else ⟨s, 0⟩
  | [] =>
    if L.phase != .placing then ⟨s, 0⟩
    else if L.coResident then
      match L.stages with
      | [g] =>
        let bs := if g.again.isEmpty then (List.range (g.blocks - g.next)).map (· + g.next) else g.again
        if bs.isEmpty || (residents s L 0).any (fun b => b.preempt == .flushing) then ⟨s, 0⟩ else tryTogether L g bs S s
      | _ => ⟨s, 0⟩
    else
      (List.range L.stages.length).foldl (fun (t : Tried) k =>
        if t.n != 0 then t
        else
          match launch? t.s L.id with
          | none => t
          | some M =>
            if M.phase != .placing then t
            else
              match M.stages[k]? with
              | none => t
              | some g =>
                match nextBlock t.s M S.length k g with
                | none => t
                | some b => tryBlock M k b g (if ordered then pinned b else scanOrder S g.lastCore) t.s) ⟨s, 0⟩

/-! ## Arbitration (R90) -/

/-- A launch has blocks left to place, or is to be checked. -/
def Launch.offers (s : State) (L : Launch) : Bool :=
  match L.phase with
  | .queued => eligible s L && !pinsHeld s L
  | .failed _ => !L.saved.isEmpty
  | .placing =>
    !L.saved.isEmpty || (List.range L.stages.length).any fun k => match L.stages[k]? with
      | none => false
      | some g => !g.again.isEmpty || (if k = 0 then decide (g.next < g.blocks) else
          match inputOf L k with
          | some q => !(q.closed && q.occupancy == 0)
          | none => false)

/-- Launches of a VF of a partition that offer something. -/
def offersOf (s : State) (p v : Nat) : List Launch := s.launches.filter fun L => L.part == p && L.vf == v && L.offers s

/-- SLICE of a VF (R88). -/
def sliceOf (P : Partn) (v : Nat) : Nat := wfield (Tab.getD P.vfslice v 0) 15 0

/-- The next VF after one that has a slice and an eligible launch, in ascending order around (R90). -/
def nextVf (s : State) (p from_ : Nat) : Option Nat :=
  ((List.range 8).map fun i => (from_ + 1 + i) % 8).find? fun v => sliceOf (partn s p) v != 0 && !(offersOf s p v).isEmpty

/-- The slice passes to a VF: a round begins afresh (R90). -/
def passSlice (p v : Nat) (s : State) : State :=
  updPart s p fun P => { P with vf := some v, vfSince := s.clock, round := [], turn := none }

/-- The VF that places blocks now, the slice having passed where its holder has nothing eligible. -/
def holdSlice (p : Nat) (s : State) : State :=
  let P := partn s p
  let keeps := match P.vf with
    | some v => sliceOf P v != 0 && !(offersOf s p v).isEmpty
    | none => false
  if keeps then s
  else
    match nextVf s p (P.vf.getD 7) with
    | some v => passSlice p v s
    | none => s

/-- A process's weight: that of its lowest-numbered enabled queue (R88). -/
def weightOf (P : Partn) (asid : Nat) : Nat :=
  match P.lqcfg.find? fun q => q.2.getLsbD 7 && wfield q.2 44 32 == asid with
  | some q => max 1 (wfield q.2 27 20)
  | none => 1

/-- The order of a process's launches: by queue priority, then the queue's last placement, then queue order (R90). -/
def launchKey (P : Partn) (L : Launch) : List Nat :=
  let prio := wfield (Tab.getD P.lqcfg L.queue 0) 6 0
  match Tab.get P.qlast L.queue with
  | none => [127 - prio, 0, L.queue, L.accept]
  | some n => [127 - prio, 1, n, L.accept]

/-- Tries a process's candidates in order. -/
def tryProcess (p v asid : Nat) (s : State) : Tried :=
  let P := partn s p
  let Ls := ((offersOf s p v).filter fun L => L.asid == asid).mergeSort fun a b => launchKey P a ≤ launchKey P b
  Ls.foldl (fun (t : Tried) L =>
    if t.n != 0 then t
    else
      match launch? t.s L.id with
      | some M => if M.phase = .queued then t else tryLaunch M t.s
      | none => t) ⟨s, 0⟩

/-- The process after one in a round, `none` where the round ends. -/
def nextAsid (asids : List Nat) (a : Nat) : Option Nat := asids.find? fun x => a < x

/-- The turn passes to a process; a new round counts afresh. -/
def giveTurn (p : Nat) (next : Option Nat) (asids : List Nat) (s : State) : State :=
  updPart s p fun P => match next with
    | some a => { P with turn := some a }
    | none => { P with turn := asids.head?, round := [] }

/-- The ASIDs of a VF with eligible launches, in ascending order. -/
def asidsOf (s : State) (p v : Nat) : List Nat := ((offersOf s p v).map (·.asid)).foldl (fun l a => insertNat a l) []

/-- A process has placed blocks: with its WEIGHT placements it yields the turn in the same cycle (R90). -/
def countPlacement (p v a n : Nat) (s : State) : State :=
  let s := updPart s p fun P => { P with round := Tab.set P.round a (Tab.getD P.round a 0 + n) }
  if weightOf (partn s p) a ≤ Tab.getD (partn s p).round a 0 then
    giveTurn p (nextAsid (asidsOf s p v) a) (asidsOf s p v) s
  else s

/-- Processes served in weighted rounds until one places a block or all were refused (R90). -/
def serveProcesses (p v : Nat) (asids : List Nat) : Nat → List Nat → State → State
  | 0, _, s => s
  | fuel + 1, tried, s =>
    let s := match (partn s p).turn with
      | none => giveTurn p none asids s
      | some a => if asids.contains a then s else giveTurn p (nextAsid asids a) asids s
    match (partn s p).turn with
    | none => s
    | some a =>
      let P := partn s p
      if weightOf P a ≤ Tab.getD P.round a 0 then serveProcesses p v asids fuel tried (giveTurn p (nextAsid asids a) asids s)
      else if asids.all tried.contains then s
      else if tried.contains a then serveProcesses p v asids fuel tried (giveTurn p (nextAsid asids a) asids s)
      else
        let t := tryProcess p v a s
        if t.n = 0 then serveProcesses p v asids fuel (a :: tried) (giveTurn p (nextAsid asids a) asids t.s)
        else countPlacement p v a t.n t.s

/-- PLACE_BLOCK (R90): one cycle of a partition's placer, after the grants of R96. -/
def execPlaceBlock (part : Nat) (s : State) : Host.Outcome State Fault Refusal :=
  let s := holdSlice part (grantAll s)
  .next <| match (partn s part).vf with
  | none => s
  | some v =>
    if sliceOf (partn s part) v = 0 then s
    else
      let asids := asidsOf s part v
      serveProcesses part v asids (2 * asids.length + 2) [] s

/-- TIME_SLICE_EXPIRY (R90). -/
def execTimeSliceExpiry (part : Nat) (s : State) : Host.Outcome State Fault Refusal :=
  let P := partn s part
  .next <| match P.vf with
  | none => s
  | some v =>
    if s.clock < P.vfSince + 1024 * sliceOf P v then s
    else
      match nextVf s part v with
      | some w => passSlice part w s
      | none => s

/-! ## Waiting and reservation (R99) -/

/-- The image of the block that a launch waits to place, and the units its fibres need: what a saved block held (R420), else
what its stage's descriptor says now (R43). -/
def waitingBlock (s : State) (L : Launch) (w : Waiting) : Option (Desc × List Nat) :=
  match L.saved.find? fun b => b.blk.stage == w.stage && b.blk.num == w.block with
  | some b => some (b.blk.desc, b.sizes)
  | none =>
    if L.ended then none
    else (L.stages[w.stage]?).bind fun g => match laterImage s L g with
      | .ok d => some (d, d.sizes)
      | _ => none

/-- Reserves a core. -/
def reserve (id : Word) (core : Nat) (s : State) : State := setCore s core { coreOf s core with reserved := some id }

/-- CORE_RESERVATION (R99). -/
def execCoreReservation (launchId : Word) (s : State) : Host.Outcome State Fault Refusal :=
  .next <| match launch? s launchId with
  | none => s
  | some L =>
    let S := placementSet s L
    let free := S.filter fun c => (coreOf s c).reserved.isNone
    let holds := s.cores.any fun c => c.2.reserved == some launchId
    match L.waiting with
    | none => s
    | some w =>
      if w.count < 4096 || holds then s
      else if L.coResident && L.saved.isEmpty then
        let need := ((L.stages.head?).map fun g => if g.again.isEmpty then g.blocks - g.next else g.again.length).getD 0
        if free.length < need then s else (free.take need).foldl (fun s c => reserve launchId c s) s
      else if (firstDesc L).ordered then
        let c := S.getD (w.block % S.length) 0
        if free.contains c then reserve launchId c s else s
      else
        match free with
        | c :: _ => reserve launchId c s
        | [] => s

/-- Cycles pass: the waiting time of launches whose VF holds the slice (R99). -/
def countWaiting (n : Nat) (s : State) : State :=
  { s with launches := s.launches.map fun L =>
      match L.waiting with
      | some w => if (partn s L.part).vf = some L.vf then { L with waiting := some { w with count := w.count + n } } else L
      | none => L }

/-- BLOCK_WITHDRAWAL (R104). -/
def execBlockWithdrawal (launchId : Word) (stage : Nat) (s : State) : Host.Outcome State Fault Refusal :=
  .next <| match launch? s launchId with
  | none => s
  | some L =>
    match inputOf L stage, L.stages[stage]? with
    | some q, some g =>
      let here := residents s L stage
      if (firstDesc L).ordered || g.lo ≤ q.occupancy || here.length ≤ g.minb || here.any (·.withdrawn) ||
          L.saved.any (fun b => b.blk.stage == stage && b.blk.withdrawn) ||
          (q.closed && q.occupancy != 0) then s
      else updBlock s launchId stage (here.foldl (fun m b => max m b.num) 0) fun b => { b with withdrawn := true }
    | _, _ => s

/-! ## Pre-emption (R411 to R421) -/

/-- The waiting block of a launch fits on a core once a block has left it. -/
def admitsWithout (s : State) (L : Launch) (w : Waiting) (core : Nat) (b : Block) : Bool :=
  match waitingBlock s L w with
  | none => false
  | some (d, sizes) => (admits (removeBlock b s) L w.stage d sizes core).isSome

/-- Which of two blocks is the younger (R411): later accepted, then of higher number. -/
def younger (s : State) (a b : Block) : Bool :=
  let k := fun (x : Block) => [((launch? s x.launch).map (·.accept)).getD 0, x.stage, x.num]
  decide (k b < k a)

/-- PLACER_PREEMPT_REQUEST (R411). -/
def execPlacerPreemptRequest (launchId : Word) (s : State) : Host.Outcome State Fault Refusal :=
  .next <| match launch? s launchId with
  | none => s
  | some L =>
    let P := partn s L.part
    let wait := wfield P.preemptcfg 31 16
    match L.waiting with
    | none => s
    | some w =>
      if wait = 0 ∨ w.count < 1024 * wait ∨ P.vf ≠ some L.vf then s
      else
        let cores := ((s.cores.filter fun c => c.2.reserved == some launchId).map (·.1)).filter fun c =>
          (s.blocks.filter fun b => b.core == c).all (·.free)
        let vfOf := fun (b : Block) => ((launch? s b.launch).map (·.vf)).getD 0
        let pick := cores.findSome? fun c =>
          (s.blocks.filter fun b => b.core == c && vfOf b != L.vf && admitsWithout s L w c b).foldl
            (fun (best : Option Block) b => match best with
              | none => some b
              | some x => if younger s b x then some b else some x) none
        match pick with
        | some b => preemptBlock L.part true b s
        | none => s

/-- A block that is still draining after the second choice goes on draining (R411). -/
def drainAgain (b : Block) : Block :=
  match b.preempt with
  | .drain t _ => { b with preempt := .drain t true }
  | _ => b

/-- DRAIN_TIMEOUT (R411). -/
def execDrainTimeout (launchId : Word) (stage block : Nat) (s : State) : Host.Outcome State Fault Refusal :=
  .next <| match s.blocks.find? fun b => b.launch == launchId && b.stage == stage && b.num == block, launch? s launchId with
  | some b, some L =>
    match b.preempt with
    | .drain t false =>
      if s.clock < t + 4 * 1024 * wfield (partn s L.part).preemptcfg 15 0 then s
      else
        let s := preemptBlock L.part false b s
        let mine := fun (k : Block) => k.launch == launchId && (L.coResident || (k.stage == stage && k.num == block))
        { s with blocks := updIf mine drainAgain s.blocks }
    | _ => s
  | _, _ => s

/-- SAVE_STOPPING_POINT (R415, R417, R418), and the end of a save whose record could not be written at once. -/
def execSaveStoppingPoint (launchId : Word) (stage block : Nat) (s : State) : Host.Outcome State Fault Refusal :=
  .next <| match s.blocks.find? fun b => b.launch == launchId && b.stage == stage && b.num == block with
  | some b => match b.preempt with
    | .inSave _ _ => finishSave b s
    | _ => stopBlock b s
  | none => s

/-! ## The control core (R82, R83) -/

/-- A word of a launch list that the control core reads. -/
def listAddr (s : State) (p : Nat) (va : Nat) : Option Nat :=
  match walk s p (wfield (partn s p).ccasid 12 0) va with
  | .leaf l => if ownDev s (l.pa va) && populated (l.pa va) then some (l.pa va) else none
  | _ => none

/-- The control core serves the next record of its list, if there is one and no refused record waits (R83). A control core serves
one list (assumption 57). It issues no `launch` until READY is 1 (R447). -/
def controlStep (p : Nat) (s : State) : State :=
  let P := partn s p
  if !ready s then s
  else match P.control.list, P.control.retry with
  | some list, none =>
    match listAddr s p list.toNat with
    | none => s
    | some at_ =>
      let word := fun (o : Nat) => natOf (homeBytes s.msys (at_ + o) 4)
      let slots := word 12
      let head := word 8
      if word 0 = head ∨ slots = 0 then s
      else
        let rec_ := list.toNat + 128 + 128 * (head % slots)
        match listAddr s p rec_ with
        | none => s
        | some ra =>
          let r := natOf (homeBytes s.msys ra 128)
          let x := acceptLaunch p none rec_ r s
          if x.2 = (BitVec.ofNat 64 (2 ^ 63) ||| Reject.qfull.code) then
            updPart s p fun P => { P with control := { P.control with retry := some (recQueue r, s.clock) } }
          else
            let s := if x.2.getLsbD 63 then
                writeRecord p (field r 191 176) ⟨s.clock, x.2, BitVec.ofNat 64 (field r 511 448), 0, 0, 0, 2, 6⟩ x.1
              else x.1
            writeDev none none (some (p, wfield P.ccasid 12 0)) (at_ + 8) (bytesOf 4 (head + 1)) s
  | _, _ => s

/-- LAUNCH_RETRY_TIMEOUT (R83): the refused record is retried. -/
def execLaunchRetryTimeout (part : Nat) (s : State) : Host.Outcome State Fault Refusal :=
  .next <| match (partn s part).control.retry with
  | none => s
  | some (_, since) =>
    if s.clock < since + 16384 then s
    else controlStep part (updPart s part fun P => { P with control := { P.control with retry := none } })

end Sys2Proof.Machine
end

