-- ==== Sys2Proof/Machine/Failures.lean ====
section
/-! DEFINITION. The memory system's own events (09 R226 to R243, 12 R287, 14 R303, R307), failures and their retries (21
R402 to R404, R422, R423), agents that fail and rejoin (R424 to R426), and requests of other devices (09 R241, 17 R359). -/

namespace Sys2Proof.Machine

/-! ## Caches, directories, walks -/

/-- PAGE_WALK (R228, R242): a walk that finds a well-formed leaf fills both levels; `vpage` is a page of 64 KiB. It waits where
an entry cannot be read now (R423, R425). -/
def execPageWalk (core asid vpage : Nat) (s : State) : Host.Outcome State Fault Refusal :=
  let p := partOfCore s core
  let va := vpage % 2 ^ 36 * 65536
  .next <| if core < 256 ∧ asidIn s p asid = true ∧ (walkReads s p asid va).any (pathHeld s core) = false then
      match walk s p asid va with
      | .leaf l => fillTlb core (tlbEntry asid va l) (noteWalk core p asid va s)
      | _ => s
    else s

/-- The L1 copies of a line are invalidated, core by core (R226). -/
def invalidateLine (line : Nat) (s : State) : State :=
  ((s.msys.dir.filter fun d => d.line == line).map (·.core)).foldl (fun s c => loseCopies line (some c) s) s

/-- DIRECTORY_EVICTION (R226): every copy that the entry of a line records is invalidated first, the host's too. -/
def execDirectoryEviction (pa : Nat) (s : State) : Host.Outcome State Fault Refusal :=
  let s := invalidateLine (pa / 64) s
  .next { s with msys := { s.msys with hostDir := s.msys.hostDir.filter (· != pa / 64) } }

/-- A copy of a line by a core. -/
def Copy.is (core line : Nat) (c : Copy) : Bool := c.core == core && c.line == line

/-- A core's counted copies of a line of a Sealed page are dropped; the home of another device's page is told (R235). -/
def dropCounted (core line : Nat) (s : State) : State :=
  let told := (s.msys.seals.filter fun r => r.copies.any (Copy.is core line) && !ownDev s r.page).map fun r =>
    Out.remote (incarnation s .link 0) (.drop r.page 1)
  { s with
    outbox := s.outbox ++ told
    msys := { s.msys with seals := s.msys.seals.map fun r => { r with copies := r.copies.filter fun c => !Copy.is core line c } } }

/-- A core holds a copy of a line. -/
def holdsCopy (s : State) (core line : Nat) : Bool :=
  s.msys.dir.any (Copy.is core line) || s.msys.seals.any fun r => r.copies.any (Copy.is core line)

/-- A core's copy of a line leaves its L1. -/
def dropCopy (core line : Nat) (s : State) : State := dropCounted core line (loseCopies line (some core) s)

/-- L1_EVICTION (R235, R373): a core drops its copy of a line of its own accord. -/
def execL1Eviction (core pa : Nat) (s : State) : Host.Outcome State Fault Refusal :=
  .next <| if holdsCopy s core (pa / 64) then dropCopy core (pa / 64) s else s

/-- SEALED_DRAIN_COMPLETE (R235): no copy is left, and the page enters OPEN. -/
def execSealedDrainComplete (page : Nat) (s : State) : Host.Outcome State Fault Refusal :=
  .next <| match s.msys.seals.find? fun r => r.page == page with
  | some r =>
    if r.st = .draining ∧ r.copies = [] ∧ r.remote = [] ∧ ownDev s page = true then
      updSeal s page r.bits fun r => { r with st := .opened }
    else s
  | none => s

/-- The lines that a home holds and lets go together: those of the coded block that an address lies in (R285), else the one. -/
def evictLines (s : State) (pa : Nat) : List Nat :=
  match s.msys.coded.find? fun b => decide (b.1 ≤ pa) && decide (pa < b.1 + b.2) with
  | some b => linesOf b.1 b.2
  | none => [pa / 64]

/-- A coded block leaves its home (R287): its L1 copies go, its code is written to its stack once if it is dirty. -/
def evictBlock (pa : Nat) (s : State) : State :=
  let ls := evictLines s pa
  let s := ls.foldl (fun s l => dropHomeLine l (invalidateLine l s)) s
  { s with msys := { s.msys with coded := s.msys.coded.filter fun b => !ls.contains (b.1 / 64) } }

/-- An address lies in a coded block that its home keeps. -/
def inCoded (s : State) (pa : Nat) : Bool := s.msys.coded.any fun b => decide (b.1 ≤ pa) && decide (pa < b.1 + b.2)

/-- A home lets a line go, or the coded block that it belongs to. -/
def evictHome (pa : Nat) (s : State) : State := if inCoded s pa then evictBlock pa s else dropHomeLine (pa / 64) s

/-- CODED_BLOCK_EVICTION (R287). -/
def execCodedBlockEviction (pa : Nat) (s : State) : Host.Outcome State Fault Refusal :=
  .next <| if inCoded s pa then evictBlock pa s else s

/-- HOME_WRITE_BACK (R303): a home evicts a dirty line, which its controller stores. The lines of a live stage queue are pinned
(R102). -/
def execHomeWriteBack (pa : Nat) (s : State) : Host.Outcome State Fault Refusal :=
  .next <| if inStageQueue s (pa / 64 * 64) 64 then s
    else if (evictLines s pa).any fun l => (Tab.get s.msys.dirty l).isSome then evictHome pa s
    else s

/-! ## What caches hold (R16) -/

/-- Lines of an L1 data cache and of an L2 slice: 128 KiB and 6 MiB (R16). -/
def l1dLines : Nat := 2048
/-- The same of an L2 slice. -/
def l2Lines : Nat := 98304

/-- The line that leaves a full cache (R146): of those marked `.stream` the oldest, else the oldest not marked `.keep`, else the
oldest (assumption 58). -/
def victim (s : State) (lines : List Nat) : Option Nat :=
  let hint := fun (l : Nat) => Tab.getD s.msys.hints l Hint.none
  ((lines.find? fun l => hint l == .stream).orElse fun _ => lines.find? fun l => hint l != .keep).orElse fun _ => lines.head?

/-- Lines of which a core holds copies. -/
def copiesOf (s : State) (core : Nat) : List Nat :=
  ((s.msys.dir ++ s.msys.seals.flatMap (·.copies)).filter fun c => c.core == core).map (·.line)

/-- A core's L1 lets lines go until it is not overfull. -/
def fitL1 (core : Nat) : Nat → State → State
  | 0, s => s
  | n + 1, s =>
    let ls := copiesOf s core
    if ls.length ≤ l1dLines then s
    else match victim s ls with
      | some l => fitL1 core n (dropCopy core l s)
      | none => s

/-- The lines of the buffers of live stage queues, pinned at their homes (R102). -/
def pinnedLines (s : State) : List Nat :=
  s.launches.flatMap fun L => L.stages.flatMap fun g => (List.range g.qpages.length).flatMap fun i =>
    linesOf (g.qpages.getD i 0) (min 65536 (64 + 64 * g.cap - 65536 * i))
/-- The lines of the coded blocks that homes keep (R285). -/
def codedLines (s : State) : List Nat := s.msys.coded.flatMap fun b => linesOf b.1 b.2

/-- The lines that a slice holds: those of which it holds bytes, those of its coded blocks, and pinned ones. -/
def linesAt (s : State) (slice : Nat) : List Nat :=
  ((s.msys.home.map (fun (c : Host.Cell) => c.1 / 64) ++ codedLines s ++ pinnedLines s).foldl addNew []).filter fun l => servedBy s (64 * l) == slice

/-- A slice lets lines go, none of them pinned, until it is not overfull. -/
def fitL2 (slice : Nat) : Nat → State → State
  | 0, s => s
  | n + 1, s =>
    let ls := linesAt s slice
    if ls.length ≤ l2Lines then s
    else match victim s (ls.filter fun l => !inStageQueue s (64 * l) 64) with
      | some l => fitL2 slice n (evictHome (64 * l) s)
      | none => s

/-- As many lines as all slices together may hold, counted high. -/
def l2Load (s : State) : Nat :=
  s.msys.home.length + s.msys.coded.foldl (fun n b => n + b.2 / 64 + 2) 0 +
    s.launches.foldl (fun n L => L.stages.foldl (fun n g => if g.qpages = [] then n else n + g.cap + 1) n) 0

/-- Caches that have taken in more than they hold let lines go as the cycle passes (R16, assumption 58). -/
def fitCaches (s : State) : State :=
  let s := if s.msys.dir.length + (s.msys.seals.flatMap (·.copies)).length ≤ l1dLines then s
    else (((s.msys.dir ++ s.msys.seals.flatMap (·.copies)).map (·.core)).foldl addNew []).foldl (fun s c =>
      fitL1 c (copiesOf s c).length s) s
  let s := if l2Load s ≤ l2Lines then s
    else (List.range 32).foldl (fun s k => fitL2 k (linesAt s k).length s) s
  if s.msys.metas = [] then s
  else
    let stack := fun (k : Nat) => s.msys.metas.filter fun g => paStack (4096 * g) == k
    { s with msys := { s.msys with metas := (List.range 16).flatMap fun k => (stack k).drop ((stack k).length - Config.metaRecords) } }

/-! ## Errors (R307, R402 to R404) -/

/-- The partition that owns an address of this device. -/
def partOfPa (s : State) (pa : Nat) : Nat := partOfStack s (paStack pa)

/-- METADATA_ERROR (R307): a record that the controller's cache does not hold cannot be read; a record that cannot be read twice
poisons its granule. -/
def execMetadataError (pa : Nat) (retryFails : Bool) (s : State) : Host.Outcome State Fault Refusal :=
  let p := partOfPa s pa
  .next <| if !(ownDev s pa && populated pa) || s.msys.metas.contains (pa / 4096) then s
    else if !retryFails then noteMeta pa (countTrans p s)
    else
      let id := (granOf s.msys pa).table
      let s := { s with msys := setGran s.msys pa ⟨Vector.ofFn fun _ => 3, 0⟩ }
      noteMeta pa (countLast p (if id = 0 then s else releaseCapture p id s))

/-- Poisons bytes of a line (R402, R403): with `held`, every byte of it as its home holds it; without, the bytes that its
home does not hold. -/
def poisonLine (held : Bool) (line : Nat) (s : State) : State :=
  { s with msys := (List.range 64).foldl (fun ms i =>
      let a := 64 * line + i
      if held || (Cells.get ms.home a).isNone then { ms with poison := addNew ms.poison a } else ms) s.msys }

/-- A link is known by its number. -/
def link? (s : State) (n : Nat) : Option Link := s.links.find? fun l => l.num == n
/-- Changes a link. -/
def updLink (n : Nat) (g : Link → Link) (s : State) : State := { s with links := updIf (fun l => l.num == n) g s.links }
/-- A failure at a link is counted in the partitions whose traffic crossed it, in partition 0 where none did. -/
def countLink (l : Link) (count : Nat → State → State) (s : State) : State :=
  let ps := (l.users.map (·.1)).foldl addNew []
  (if ps = [] then [0] else ps).foldl (fun s p => count p s) s

/-- LOSTPERMIT (R423): the link stops, and every context whose traffic crossed it since the previous check halts. -/
def lostPermit (l : Link) (s : State) : State :=
  let s := updLink l.num (fun l => { l with stopped := true, users := [] }) s
  l.users.foldl (fun s u => haltContext u.1 u.2 .lostpermit ⟨.link, l.num, l.num, 0, 0, true⟩ s) s

/-- The device at the other end of a Spemer link is told (R423). -/
def tellPeer (l : Link) (s : State) : State :=
  match l.kind with
  | .spemer _ => { s with outbox := s.outbox ++ [.lostpermit (incarnation s .link l.num) l.num] }
  | _ => s

/-- Poisons a register, where its fibre stands (R402). -/
def poisonReg (f : FibreId) (r : RegId) (s : State) : State :=
  updFibre s f fun f => { f with poison := addNew f.poison r }

/-- An uncorrectable error in a line of a core's L1: it is refetched from its home (R402), of this device or of another whose page
is SEALED; a line of the instruction cache likewise. -/
def l1Error (core pa : Nat) (retryFails : Bool) (s : State) : State :=
  let count := fun (p : Nat) (s : State) => if retryFails then countLast p s else countTrans p s
  let line := pa / 64
  if holdsCopy s core line then
    count (if ownDev s pa then partOfPa s pa else partOfCore s core) (if retryFails then dropCopy core line s else s)
  else
    let r := coreOf s core
    if r.icache.any fun e => e.1 == line then
      count (partOfCore s core) (setCore s core { r with icache := r.icache.filter fun e => e.1 != line })
    else s

/-- UNCORRECTABLE_ERROR (R402): retried once; the retry succeeds, or the failure is lasting. -/
def execUncorrectableError (site : ErrSite) (retryFails : Bool) (s : State) : Host.Outcome State Fault Refusal :=
  let line := fun (pa : Nat) (held : Bool) =>
    if !(ownDev s pa && populated pa) then s
    else if retryFails then countLast (partOfPa s pa) (poisonLine held (pa / 64) s) else countTrans (partOfPa s pa) s
  let reg := fun (f : FibreId) (g : State → State) =>
    match fibre? s f with
    | none => s
    | some f => if retryFails then countLast (partOfCore s f.id.core) (g s) else countTrans (partOfCore s f.id.core) s
  .next <| match site with
  | .l1Line core pa => l1Error core pa retryFails s
  | .cleanLine pa => if (Tab.get s.msys.dirty (pa / 64)).isSome then s else line pa true
  | .dirtyLine pa =>
    if (Tab.get s.msys.dirty (pa / 64)).isNone then s else countLast (partOfPa s pa) (poisonLine true (pa / 64) s)
  | .stackRead pa => line pa false
  | .pageTable pa => line pa true
  | .flit n =>
    match link? s n with
    | none => s
    | some l =>
      if !retryFails then countLink l countTrans s
      else
        tellPeer l (lostPermit l (countLink l countLast s))
  | .vreg f n => reg f (poisonReg f (.v n))
  | .sreg f n => reg f (poisonReg f (.s n))
  | .preg f n => reg f (poisonReg f (.p n))
  | .tile f t word =>
    reg f fun s => match fibre? s f with
      | none => s
      | some f => updBlock s f.launch f.stage f.block fun b =>
        if t < b.tiles.length ∧ word < 4096 then { b with tilePoison := addNew b.tilePoison (t, word) } else b

/-- CORRECTABLE_ERROR (R402): corrected in place and counted. -/
def execCorrectableError (part : Nat) (s : State) : Host.Outcome State Fault Refusal := .next (countTrans part s)

/-! ## Links (R422, R423) -/

/-- What a Vigil finds of one link or queue (R422): the sum of a snapshot's four counts is compared with T, and once more where it
differs. -/
def checkLink (l : Link) (first second : Permits) (s : State) : State :=
  let keep := fun (c : Permits) => updLink l.num (fun l => { l with counts := c, users := [] })
  if l.stopped then s
  else if first.sum = l.total then keep first s
  else if second.sum = l.total then keep second (countLink l countTrans s)
  else tellPeer l (lostPermit l (countLink l countLast (updLink l.num (fun l => { l with counts := second }) s)))

/-- The counts that a snapshot gives of a link; of one that it does not list, whole ones. -/
def countsOf (snap : List (Nat × Permits)) (l : Link) : Permits :=
  ((snap.find? fun x => x.1 == l.num).map (·.2)).getD ⟨l.total, 0, 0, 0⟩

/-- VIGIL_CHECK (R422): 2^20 cycles after its last check the Vigil of a die checks every link and queue that ends there, by a
snapshot and, where a sum differs, a second one; both list counts by link number. -/
def execVigilCheck (die : Nat) (first second : List (Nat × Permits)) (s : State) : Host.Outcome State Fault Refusal :=
  .next <| if 5 ≤ die ∨ s.clock < s.vigils.getD die 0 + 2 ^ 20 then s
    else
      let s := { s with vigils := s.vigils.setIfInBounds die s.clock }
      (s.links.filter fun l => l.kind.die == die).foldl (fun s l =>
        checkLink l (countsOf first l) (countsOf second l) s) s

/-- PEER_LOSTPERMIT (R423): the device at the other end of a Spemer link reports it. A report of an old incarnation of the link is
discarded (R425). -/
def execPeerLostpermit (m : PeerReport) (s : State) : Host.Outcome State Fault Refusal :=
  .next <| if m.incarn ≠ incarnation s .link m.link then s else match link? s m.link with
  | none => s
  | some l =>
    match l.kind with
    | .spemer _ => if l.stopped then s else lostPermit l s
    | _ => s

/-- LINK_RETURN_TO_SERVICE (R423): drained, its counts are T again. -/
def execLinkReturnToService (link : Nat) (s : State) : Host.Outcome State Fault Refusal :=
  .next <| match link? s link with
  | none => s
  | some l =>
    if l.stopped then updLink link (fun l => { l with stopped := false, users := [], counts := ⟨l.total, 0, 0, 0⟩ }) s else s

/-! ## Agents (R424 to R426) -/

/-- The cores, slices and copy engines that an agent is or holds. -/
def agentCores : AgentKind → Nat → List Nat
  | .core, n => [n]
  | .dieHalf, n => (List.range 32).map (32 * n + ·)
  | _, _ => []
/-- The slices of an agent. -/
def agentSlices : AgentKind → Nat → List Nat
  | .slice, n => [n]
  | .dieHalf, n => (List.range 4).map (4 * n + ·)
  | _, _ => []

/-- The context of a launch. -/
def launchContext (s : State) (id : Word) : List (Nat × Nat) := ((launch? s id).map fun L => [(L.part, L.asid)]).getD []

/-- The contexts with state held only in an agent (R426): another device holds the bytes that copies wrote there and no `publish` has
made visible. -/
def agentContexts (s : State) (kind : AgentKind) (num : Nat) : List (Nat × Nat) :=
  let cores := agentCores kind num
  let engines := if kind = .copyEngine then [num] else cores
  let slices := agentSlices kind num
  let inSlice := fun (pa : Nat) => slices.contains (servedBy s pa)
  let blocks := (s.blocks.filter fun b => cores.contains b.core).flatMap fun b => launchContext s b.launch
  let copies := (s.cores.filter fun c => engines.contains c.1).flatMap fun c => c.2.copies.flatMap fun x => launchContext s x.launch
  let partials := (s.msys.partials.filter fun p => p.dev == s.dev.devid.toNat && cores.contains p.core).map fun p => (p.part, p.asid)
  let dirty := (s.msys.dirty.filter fun d => inSlice (64 * d.1)).flatMap (·.2)
  let shadows := (s.msys.shadows.filter fun b => ownDev s b.pa && inSlice b.pa).flatMap fun b => launchContext s b.launch
  let held := (s.msys.hru.filter fun e => !e.deferred && slices.contains e.slice).flatMap fun e => launchContext s e.launch
  let far := if kind = .device then (s.msys.shadows.filter fun b => !ownDev s b.pa && paDev b.pa == num).flatMap fun b =>
    launchContext s b.launch else []
  (blocks ++ copies ++ partials ++ dirty ++ shadows ++ held ++ far).foldl addNew []

/-- AGENT_FAILURE (R426): recorded as raised by the placer (R408). -/
def execAgentFailure (kind : AgentKind) (num : Nat) (s : State) : Host.Outcome State Fault Refusal :=
  let s' := (agentContexts s kind num).foldl (fun s c =>
    haltContext c.1 c.2 .agentloss ⟨.placer, 0, 0, 0, 0, true⟩ s) s
  .next { s' with dev := { s'.dev with failed := addNew s'.dev.failed (kind, num) } }

/-- What a rejoin purges for a core (R425): the directory entries, sealed-copy counts and claims of its old incarnation, and its
caches, partials and TLB. -/
def purgeCore (core old : Nat) (s : State) : State :=
  let r := coreOf s core
  let s := setCore s core { r with icache := [], l0 := [], tlb := [] }
  let stale := fun (c : Copy) => c.core == core && c.incarn == old
  { s with msys := { s.msys with
    dir := s.msys.dir.filter fun d => !stale d
    seals := s.msys.seals.map fun x => { x with copies := x.copies.filter fun c => !stale c }
    partials := s.msys.partials.filter fun p => !(p.dev == s.dev.devid.toNat && p.core == core)
    claims := s.msys.claims.filter fun c => !(c.fibre.core == core && c.incarn == old) } }

/-- What a rejoin purges for a slice: its TLB, the lines, coded blocks and shadow bytes it held, and its HRU. Deferred updates are
with their quanta, not in it (R386). -/
def purgeSlice (slice : Nat) (s : State) : State :=
  let mine := fun (line : Nat) => servedBy s (64 * line) == slice
  { s with msys := { s.msys with
    tlb2 := Tab.del s.msys.tlb2 slice
    home := s.msys.home.filter fun c => !mine (c.1 / 64)
    dirty := s.msys.dirty.filter fun d => !mine d.1
    claims := s.msys.claims.filter fun c => !mine c.line
    shadows := s.msys.shadows.filter fun b => !(ownDev s b.pa && mine (b.pa / 64))
    coded := s.msys.coded.filter fun b => !mine (b.1 / 64)
    hru := s.msys.hru.filter fun e => e.deferred || e.slice != slice } }

/-- An agent's incarnation goes up by 1 and what its old one left is purged (R425). The cores and slices of a die half are agents
of their own, whose caches go with it. -/
def rejoin (kind : AgentKind) (num : Nat) (s : State) : State :=
  let n := incarnation s kind num + 1
  let s := (agentCores kind num).foldl (fun s c => purgeCore c (incarnation s .core c) s) s
  let s := (agentSlices kind num).foldl (fun s k => purgeSlice k s) s
  let s := if kind = .device then { s with msys := { s.msys with
      seals := s.msys.seals.map fun r => { r with remote := Tab.del r.remote num } } } else s
  let s := updPart s (agentPart s kind num) fun P => { P with
    incarn := (P.incarn.filter fun x => !(x.1 == kind && x.2.1 == num)) ++ [(kind, num, n)] }
  { s with dev := { s.dev with failed := s.dev.failed.filter (· != (kind, num)) } }

/-- AGENT_REJOIN (R425): an agent whose incarnation has reached 65,535 does not rejoin. -/
def execAgentRejoin (kind : AgentKind) (num : Nat) (s : State) : Host.Outcome State Fault Refusal :=
  .next <| if s.dev.failed.contains (kind, num) && decide (incarnation s kind num < 65535) then rejoin kind num s else s

/-! ## Other devices (R235, R236, R241, R359) -/

/-- A response leaves the device. -/
def send (o : Out) (s : State) : State := { s with outbox := s.outbox ++ [o] }

/-- Bytes that a request reads at their homes, or poison (R403), tagged by the slice that sends them (R424). -/
def answerRead (pa n : Nat) (s : State) : State :=
  let from_ := incarnation s .slice (servedBy s pa)
  match ((List.range n).map (pa + ·)).find? fun a => isPoison s.msys a with
  | some _ => send (.poisonResp from_) s
  | none => send (.data from_ (homeBytes s.msys pa n)) s

/-- The lines that a request reads, as its home meets them. -/
def remoteReads : RemoteOp → List Nat
  | .copyRead pa n | .sealedLoad pa n => linesOf pa n
  | .commLoad pa _ fmt => linesOf pa (commBytes fmt)
  | _ => []
/-- The address at which a request arrives. -/
def remotePa : RemoteOp → Nat
  | .copyRead pa _ | .copyWrite _ pa _ | .sealedLoad pa _ | .commRed _ pa _ _ _ | .commLoad pa _ _ | .publish pa | .dropSealed pa _ => pa

/-- A request of another device waits: its path or its home is down (R423, R425), a commit or a claim holds its lines (R360, R377), or
it would publish onto a page that takes no write (R235). -/
def remoteWaits (s : State) (o : RemoteOp) : Bool :=
  peerHeld s (remotePa o) || (remoteReads o).any (fun l => commitHolds s none (none, l)) || match o with
    | .commRed _ pa _ _ _ => lineHeld s none (none, pa / 64)
    | .publish page => publishSealed s [page / 65536] ||
      (publishBytes s [page / 65536]).any fun b => lineHeld s none (none, b.pa / 64)
    | _ => false

/-- What a request of another device does at its home (R359). -/
def remoteAccess (dev incarn : Nat) (o : RemoteOp) (s : State) : State :=
  let refuse := send (.errorResp (incarnation s .link (remotePa o / 64 % 8)))
  match o with
  | .copyRead pa n => answerRead pa n s
  | .copyWrite copy pa bytes =>
    (List.range bytes.length).foldl (fun s i =>
      let b := bytes.getD i (0, false)
      putShadow ⟨pa + i, b.1, (256, 0, copy), 0, true, 0, b.2⟩ s) s
  | .sealedLoad pa n =>
    match sealOf s.msys pa with
    | some r =>
      if r.st = .isSealed then
        answerRead pa n (updSeal s r.page r.bits fun r => { r with
          remote := Tab.set r.remote dev (incarn, (Tab.getD r.remote dev (incarn, 0)).2 + (linesOf pa n).length) })
      else refuse s
    | none => refuse s
  | .commRed core pa o fmt v =>
    noteWrite none none (none, pa / 64) { s with msys := commRed s.msys fmt o pa dev core 8 0 v }
  | .commLoad pa o fmt =>
    let n := commBytes fmt
    let from_ := incarnation s .slice (servedBy s pa)
    match ((List.range n).map (pa + ·)).find? fun a => isPoison s.msys a with
    | some _ => send (.poisonResp from_) s
    | none => send (.data from_ (bytesOf n (commRead s.msys fmt o pa).toNat)) s
  | .publish page => doPublish none none none [page / 65536] s
  | .dropSealed page n =>
    match sealOf s.msys page with
    | some r =>
      let left := (Tab.getD r.remote dev (incarn, 0)).2 - n
      updSeal s r.page r.bits fun r => { r with
        remote := if left = 0 then Tab.del r.remote dev else Tab.set r.remote dev (incarn, left) }
    | none => s

/-- REMOTE_DEVICE_ACCESS (R359): a request of another device is performed at its home here, unless it waits. A message of an
old incarnation of the device is discarded (R425), and the device answers none before READY is 1 (R447). -/
def execRemoteDeviceAccess (m : RemoteReq) (s : State) : Host.Outcome State Fault Refusal :=
  let pa := remotePa m.op
  .next <| if !ready s ∨ m.incarn ≠ incarnation s .device m.dev then s
    else if !(ownDev s pa && populated pa) then send (.errorResp (incarnation s .link (pa / 64 % 8))) s
    else
      let t := drained s
      if remoteWaits t m.op then s
      else remoteAccess m.dev m.incarn m.op ((remoteReads m.op).foldl (fun s l => noteStack l s) t)

/-- REMOTE_SEALED_RECALL (R235): this device drops its copies of a page of another device, listed by frames of 64 KiB. A recall of
an old incarnation of the owner is discarded (R425). -/
def execRemoteSealedRecall (m : RecallMsg) (s : State) : Host.Outcome State Fault Refusal :=
  let page := m.page
  .next <| if m.incarn ≠ incarnation s .device (paDev page) then s
  else match s.msys.seals.find? fun r => r.page == page / 65536 * 65536 with
  | some r =>
    if ownDev s page then s
    else
      let s := (r.copies.map (·.line)).foldl (fun s l => loseCopies l none s) s
      let s := { s with msys := { s.msys with seals := s.msys.seals.filter fun x => x.page != r.page } }
      send (.remote (incarnation s .link 0) (.drop page r.copies.length)) s
  | none => s

end Sys2Proof.Machine
end

