-- ==== Sys2Proof/Machine/HostEvents.lean ====
section
/-! DEFINITION. What the host and system software do to the device: register writes (04 R88, 09 R244, 21 R404 to R416, 23
R433 to R438), host accesses to memory (09 R238 to R240), partitions and keys (23 R442, R443), attestation (R445), and
power-on, sleep and repair (R446 to R449). -/

namespace Sys2Proof.Machine

/-! ## Register writes -/

/-- Whether a partition's registers answer: the partition is formed, and STEP is not 15 (R442, R447). -/
def answers (s : State) (p : Nat) : Bool := partFormed s p && s.dev.step != 15

/-- A function of the device reaches an offset of a partition's page (R440): the physical function all of it, VF `v` of the
partition the registers of rings 32v to 32v + 31. -/
def reaches (vf : Option Nat) (off : Nat) : Bool :=
  match vf with
  | none => true
  | some v => decide (0x10000 + 1024 * v ≤ off) && decide (off < 0x10000 + 1024 * (v + 1)) && decide (v < 8)

/-- A write of a partition's register at an offset of its page through a function (R437, R440); a fibre that waits for the line
meets it (R174). -/
def hostWriteBy (vf : Option Nat) (p off : Nat) (v : Word) (s : State) : State :=
  if answers s p && reaches vf off then
    storeReg none none p off (s.dev.devid.toNat * 2 ^ 44 + 0xF * 2 ^ 40 + p * 2 ^ 20 + off) v s
  else s
/-- The same through the physical function. -/
def hostWrite (p off : Nat) (v : Word) (s : State) : State := hostWriteBy none p off v s

/-- LQCFG_WRITE (R88, R227, R406). -/
def execLqcfgWrite (part : Nat) (q : BitVec 10) (v : Word) (s : State) : Host.Outcome State Fault Refusal :=
  .next (hostWrite part (8 * q.toNat) v s)

/-- The word that starts an invalidation or a pre-emption (R244, R412): GO, MODE and a number of 13 bits. -/
def goWord (mode num : Nat) : Word := BitVec.ofNat 64 (2 ^ 31 + mode * 2 ^ 29 + num % 8192)

/-- TLBINV_PAGE (R244): mode 0, the page of TLBINV0 in an ASID. -/
def execTlbinvPage (part asid : Nat) (s : State) : Host.Outcome State Fault Refusal :=
  .next (hostWrite part 0x2058 (goWord 0 asid) s)
/-- TLBINV_ASID (R244): mode 1. -/
def execTlbinvAsid (part asid : Nat) (s : State) : Host.Outcome State Fault Refusal :=
  .next (hostWrite part 0x2058 (goWord 1 asid) s)
/-- TLBINV_PARTITION (R244): mode 2. -/
def execTlbinvPartition (part : Nat) (s : State) : Host.Outcome State Fault Refusal :=
  .next (hostWrite part 0x2058 (goWord 2 0) s)

/-- TLB_INVALIDATION_COMPLETE (R244): the covered entries are dropped and their accesses performed, and GO clears. -/
def execTlbInvalidationComplete (part : Nat) (s : State) : Host.Outcome State Fault Refusal :=
  let P := partn s part
  .next <| if P.tlbinv1.getLsbD 31 && invDone s part then
      updPart (dropTlbs part (invCovers (wfield P.tlbinv1 30 29) (wfield P.tlbinv1 12 0) (wfield P.tlbinv0 51 16 * 65536)) s)
        part fun P => { P with tlbinv1 := P.tlbinv1 &&& 0x7FFFFFFF }
    else s

/-- The word that starts an operation on a context (R406). -/
def ctxWord (op asid : Nat) : Word := BitVec.ofNat 64 (2 ^ 63 + op * 2 ^ 61 + asid % 8192)

/-- CTXCTL_HALT (R406). -/
def execCtxctlHalt (part asid : Nat) (s : State) : Host.Outcome State Fault Refusal :=
  .next (hostWrite part 0x2090 (ctxWord 0 asid) s)
/-- CTXCTL_CLEAR (R406). -/
def execCtxctlClear (part asid : Nat) (s : State) : Host.Outcome State Fault Refusal :=
  .next (hostWrite part 0x2090 (ctxWord 1 asid) s)

/-- PREEMPTREQ_CORE (R412): mode 0. -/
def execPreemptreqCore (part target : Nat) (s : State) : Host.Outcome State Fault Refusal :=
  .next (hostWrite part 0x20B0 (goWord 0 target) s)
/-- PREEMPTREQ_ASID (R412): mode 1. -/
def execPreemptreqAsid (part target : Nat) (s : State) : Host.Outcome State Fault Refusal :=
  .next (hostWrite part 0x20B0 (goWord 1 target) s)
/-- PREEMPTREQ_VF (R412): mode 2. -/
def execPreemptreqVf (part target : Nat) (s : State) : Host.Outcome State Fault Refusal :=
  .next (hostWrite part 0x20B0 (goWord 2 target) s)

/-- EVRINGCFG_WRITE (R433). -/
def execEvringcfgWrite (fn : HostFn) (ring : BitVec 8) (v : Word) (s : State) : Host.Outcome State Fault Refusal :=
  .next (hostWriteBy fn.vf fn.part (0x10000 + 32 * ring.toNat) v s)

/-- EVCONS_WRITE (R434). -/
def execEvconsWrite (fn : HostFn) (ring : BitVec 8) (v : BitVec 32) (s : State) : Host.Outcome State Fault Refusal :=
  .next (hostWriteBy fn.vf fn.part (0x10000 + 32 * ring.toNat + 24) (v.setWidth 64) s)

/-- ERROR_COUNTER_WRITE (R404). -/
def execErrorCounterWrite (part : Nat) (last : Bool) (v : Word) (s : State) : Host.Outcome State Fault Refusal :=
  .next (hostWrite part (if last then 0x2088 else 0x2080) v s)

/-- The offset of a register in its partition's page (R437). -/
def regOffset : RegName → Nat
  | .vfslice v => 0x2000 + 8 * v.toNat
  | .asidbase => 0x2040
  | .tlbinv0 => 0x2050
  | .pktdir => 0x2060
  | .systrap => 0x2068
  | .savehdlr => 0x2070
  | .resthdlr => 0x2078
  | .stopring => 0x2098
  | .preemptcfg => 0x20A8
  | .savepool => 0x20B8
  | .ccasid => 0x20D0
  | .evringint r => 0x10000 + 32 * r.toNat + 8

/-- REGISTER_WRITE (R437). -/
def execRegisterWrite (fn : HostFn) (r : RegName) (v : Word) (s : State) : Host.Outcome State Fault Refusal :=
  .next (hostWriteBy fn.vf fn.part (regOffset r) v s)

/-- RING_TIME_INTERRUPT (R436): CTIME × 1,024 cycles have passed since the oldest record that no interrupt covers. -/
def execRingTimeInterrupt (part ring : Nat) (s : State) : Host.Outcome State Fault Refusal :=
  let R := ringOf (partn s part) ring
  let ctime := wfield R.int 19 8
  .next <| if R.count ≠ 0 ∧ ctime ≠ 0 ∧ R.oldest + ctime * 1024 ≤ s.clock then
      sendInterrupt part ring R (setRing s part ring { R with count := 0, oldest := 0 })
    else s

/-! ## Register reads -/

/-- The word of DEVSTAT (R446). -/
def devStat (s : State) : Word :=
  BitVec.ofNat 64 (s.dev.inservice.toNat * 2 ^ 16 + s.dev.step.toNat * 2 ^ 4 + if ready s then 1 else 0)

/-- A read of the device block (R437). -/
def devRegRead (s : State) (off : Nat) : Word :=
  if off = 0x00 then s.dev.devid.setWidth 64
  else if off = 0x08 then devStat s
  else if off = 0x10 then s.dev.partcfg.setWidth 64
  else if off = 0x18 then s.dev.repair
  else if off = 0x20 then s.dev.attest
  else 0

/-- The incarnation of the endpoint of the link to the host (R424). -/
def hostLink (s : State) : Nat := incarnation s .link 60

/-- The host reads the 8-byte slot at an offset of BAR0 (R437, R439): `vf` is VF 8p + v for VF v of partition p, whose BAR0 maps
its rings at the offsets that they have for the physical function. Where nothing answers (R442, R447) no data come. -/
def hostRead (vf : Option Nat) (off : Nat) (s : State) : State :=
  let p := off / 2 ^ 20
  if off % 8 ≠ 0 then s
  else if off < 2 ^ 23 then
    let own := match vf with
      | none => true
      | some f => f / 8 == p
    if own && reaches (vf.map (· % 8)) (off % 2 ^ 20) && answers s p then
      send (.data (hostLink s) (bytesOf 8 (regRead s p (off % 2 ^ 20)).toNat)) s
    else s
  else if vf.isNone && decide (off < 0x810000) && (s.dev.step != 15 || off == 0x800008) then
    send (.data (hostLink s) (bytesOf 8 (devRegRead s (off - 0x800000)).toNat)) s
  else s

/-! ## Host accesses to memory -/

/-- A request wakes a sleeping device (R448). -/
def wake (s : State) : State := if s.dev.step = 5 then { s with dev := { s.dev with step := 4 } } else s

/-- First byte and length of a host access. -/
def hostSpan : HostAcc → Nat × Nat
  | .read pa n => (pa, n)
  | .write pa bytes => (pa, bytes.length)

/-- The host holds the lines it has read or written in a mailbox window (R238). -/
def hostHolds (pa n : Nat) (s : State) : State :=
  { s with msys := { s.msys with hostDir := (linesOf pa n).foldl addNew s.msys.hostDir } }

/-- An error response to the host (R447). -/
def refuseHost (s : State) : State := send (.errorResp (hostLink s)) s

/-- HOST_MAILBOX_ACCESS (R238, R239): it enters the home and takes its place in the total order. It waits while a link on its way has
stopped (R423), while its home is down (R425) and while a line of it is claimed or held (R360, R377). -/
def execHostMailboxAccess (acc : HostAcc) (s : State) : Host.Outcome State Fault Refusal :=
  let (pa, n) := hostSpan acc
  let s := wake s
  .next <| if n = 0 then s
    else if !ready s then refuseHost s
    else if (mailboxOf s pa).isNone || mailboxOf s (pa + n - 1) != mailboxOf s pa then refuseHost s
    else if (linesOf pa n).any fun l => hostHeld s (64 * l) || lineHeld s none (none, l) then s
    else
      let s := drained s
      match acc with
      | .read pa n => hostHolds pa n (answerRead pa n ((linesOf pa n).foldl (fun s l => noteStack l s) s))
      | .write pa bytes => hostHolds pa bytes.length (writeDev none none none pa bytes s)

/-- A byte that the controller reads as poison: its line is POISONED, or the stack's own byte is poisoned (R308, R403). -/
def stackPoison (ms : MemSys) (pa : Nat) : Bool :=
  lineSt ms pa == 3 || (ms.poison.contains pa && (Cells.get ms.home pa).isNone)

/-- The bytes of a host write that fall in a line. -/
def lineCells (pa : Nat) (bytes : List Byte) (line : Nat) : List Host.Cell :=
  ((List.range bytes.length).map fun i => ((pa + i, bytes.getD i 0) : Host.Cell)).filter fun c => c.1 / 64 == line

/-- The poison of bytes that homes do not hold ends when the stack is written (R403). -/
def clearStackPoison (pa n : Nat) (ms : MemSys) : MemSys :=
  { ms with poison := ms.poison.filter fun a => !(pa ≤ a && a < pa + n && (Cells.get ms.home a).isNone) }

/-- An access of the host to an HDM-H address cannot be served now: it comes over the link to the host and the fabric to the die
of its controller (R423, R425). -/
def hdmHeld (s : State) (pa : Nat) : Bool :=
  pathStopped s [.cxl, .fabric 4 (paStack pa / 4)] || agentDown s .controller (paStack pa)

/-- HOST_HDM_H_ACCESS (R240): straight to the owning controller, past homes and directory, which needs the line's metadata record
(R307). -/
def execHostHdmHAccess (acc : HostAcc) (s : State) : Host.Outcome State Fault Refusal :=
  let (pa, n) := hostSpan acc
  let s := wake s
  let span := (List.range n).map (pa + ·)
  .next <| if n = 0 then s
    else if !ready s then refuseHost s
    else if !(span.all fun a => ownDev s a && populated a && (mailboxOf s a).isNone) then refuseHost s
    else if (linesOf pa n).any fun l => hdmHeld s (64 * l) then s
    else
      let from_ := incarnation s .controller (paStack pa)
      match acc with
      | .read pa n =>
        let s := (linesOf pa n).foldl (fun s l => noteMeta (64 * l) s) s
        if span.any (stackPoison s.msys) then send (.poisonResp from_) s
        else send (.data from_ (span.map (stackByte s.msys))) s
      | .write pa bytes =>
        let ls := linesOf pa bytes.length
        let whole := fun (l : Nat) => decide (pa ≤ 64 * l ∧ 64 * l + 64 ≤ pa + bytes.length)
        if ls.any fun l => !whole l && lineSt s.msys (64 * l) == 3 then
          send (.poisonResp from_) (ls.foldl (fun s l => noteMeta (64 * l) s) s)
        else
          let s := ls.foldl (fun s l =>
            let cells := lineCells pa bytes l
            if whole l then putWholeLine s (64 * l) (cells.map (·.2)) else putSomeBytes s cells) s
          { s with msys := clearStackPoison pa bytes.length s.msys }

/-! ## Partitions, keys and the device's number -/

/-- What stacks hold after their key is discarded (R443): every byte under key epoch `epoch`, and no metadata, copy,
directory entry, partial or poison of the old owner. Epoch 0 is memory initialised with zero (R447). -/
def rekey (mine : Nat → Bool) (epoch : Nat) (s : State) : State :=
  let old := fun (pa : Nat) => ownDev s pa && mine (paStack pa)
  let owned := (List.range 16).filter mine
  let ms := s.msys
  let keys := owned.foldl (fun t k => if epoch = 0 then Tab.del t k else Tab.set t k epoch) ms.keys
  { s with msys := { ms with
    mem := ms.mem.filter fun c => !mine (paStack c.1)
    keys := keys
    home := ms.home.filter fun c => !old c.1
    dirty := ms.dirty.filter fun d => !old (64 * d.1)
    dir := ms.dir.filter fun d => !old (64 * d.line)
    hostDir := ms.hostDir.filter fun l => !old (64 * l)
    granules := ms.granules.filter fun g => !old (4096 * g.1)
    seals := ms.seals.filter fun r => !old r.page
    partials := ms.partials.filter fun p => !old p.pa
    shadows := ms.shadows.filter fun x => !old x.pa
    poison := ms.poison.filter fun a => !old a
    claims := ms.claims.filter fun c => !old (64 * c.line)
    coded := ms.coded.filter fun b => !old b.1
    hints := ms.hints.filter fun h => !old (64 * h.1)
    metas := ms.metas.filter fun g => !old (4096 * g)
    hncLog := ms.hncLog.filter fun r => !old r.2.1
    hncRecs := ms.hncRecs.filter fun r => !old (64 * r.1)
    tlb2 := ms.tlb2.filter fun t => !mine (t.1 / 2) } }

/-- Draws a new key for stacks: a key epoch that no earlier key had. -/
def newKey (mine : Nat → Bool) (s : State) : State :=
  rekey mine (s.freeCtr + 1) { s with freeCtr := s.freeCtr + 1 }

/-- First-level TLBs and instruction lines of cores are dropped. -/
def clearCores (mine : Nat → Bool) (s : State) : State :=
  let all := s.cores.map fun c => (c.1, if mine c.1 then { c.2 with icache := [], l0 := [], tlb := [] } else c.2)
  { s with cores := all.filter fun c => c.2 != CoreRec.init }

/-- A partition as it is formed (R443, R412): its captured tables go, PREEMPTCFG starts over, and its placer, which has no
launch, starts over. -/
def Partn.form (P : Partn) : Partn :=
  { P with
    captured := [], preemptcfg := 0x00100040, vf := none, vfSince := 0, round := [], turn := none, qlast := [], places := 0
    slots := [], reqBlocks := [], level3 := none, control := ⟨none, none⟩ }

/-- The partitions of a new configuration are formed. The incarnation of every agent goes with the agent (R424). -/
def formPartitions (cfg : BitVec 8) (s : State) : State :=
  let incarn := s.parts.toList.flatMap (·.incarn)
  let s := { s with dev := { s.dev with partcfg := cfg } }
  let s := clearCores (fun _ => true) (newKey (fun _ => true) s)
  { s with parts := Vector.ofFn fun p =>
    { (s.parts.getD p.val Partn.init).form with incarn := incarn.filter fun x => agentPart s x.1 x.2.1 == p.val } }

/-- The number of bits of a value of PARTCFG. -/
def cfgBits (v : BitVec 8) : Nat := ((List.range 8).filter fun i => v.getLsbD i).length

/-- PARTCFG_WRITE (R22, R442, R443). -/
def execPartcfgWrite (v : Word) (s : State) : Host.Outcome State Fault Refusal :=
  let cfg := v.setWidth 8
  .next <| if s.dev.step = 15 then s
    else
      let s := noteConfigured s
      if s.launches = [] ∧ cfgBits cfg ≠ 1 then formPartitions cfg s else s

/-- A local physical address under another device number (R222). -/
def renumber (s : State) (n pa : Nat) : Nat := if ownDev s pa then n * 2 ^ 44 + pa % 2 ^ 44 else pa

/-- The device takes a number: every local physical address carries it (R222, R438). -/
def setDevid (n : BitVec 8) (s : State) : State :=
  let r := renumber s n.toNat
  let ms := s.msys
  { s with
    dev := { s.dev with devid := n }
    msys := { ms with
      mem := ms.mem.foldl (fun m c => Cells.write (stackDefault ms (r c.1)) m (r c.1) c.2) []
      home := ms.home.foldl (fun m c => Cells.put m (r c.1) c.2) []
      dirty := ms.dirty.foldl (fun t d => Tab.set t (r (64 * d.1) / 64) d.2) []
      dir := ms.dir.map fun d => { d with line := r (64 * d.line) / 64 }
      hostDir := ms.hostDir.map fun l => r (64 * l) / 64
      granules := ms.granules.foldl (fun t g => Tab.set t (r (4096 * g.1) / 4096) g.2) []
      seals := ms.seals.map fun x => { x with page := r x.page }
      partials := ms.partials.map fun x => { x with pa := r x.pa }
      shadows := ms.shadows.map fun x => { x with pa := r x.pa }
      poison := ms.poison.map r
      claims := ms.claims.map fun c => { c with line := r (64 * c.line) / 64 }
      coded := ms.coded.map fun b => (r b.1, b.2)
      hints := ms.hints.map fun h => (r (64 * h.1) / 64, h.2)
      metas := ms.metas.map fun g => r (4096 * g) / 4096
      hncLog := ms.hncLog.map fun x => (x.1, r x.2.1, x.2.2)
      hncFences := ms.hncFences.map fun F => { F with view := F.view.map fun x => (r (64 * x.1) / 64, x.2) }
      hncRecs := ms.hncRecs.map fun x => (r (64 * x.1) / 64, x.2) } }

/-- DEVID_WRITE (R438). -/
def execDevidWrite (v : Word) (s : State) : Host.Outcome State Fault Refusal :=
  .next <| if s.dev.step = 15 ∨ s.dev.configured = true ∨ s.launches ≠ [] then s else setDevid (v.setWidth 8) s

/-! ## Attestation -/

/-- The partition whose window holds the whole of a report's buffer (R445). -/
def attestPart (s : State) (buf : Nat) : Option Nat :=
  (mailboxOf s buf).bind fun p => if inMailbox s p (buf + 32767) then some p else none

/-- ATTEST_REQUEST (R445). -/
def execAttestRequest (v : Word) (s : State) : Host.Outcome State Fault Refusal :=
  let w := keep 0xFFFFFFFFFFFFF001 v.toNat
  .next <| if s.dev.step = 15 ∨ s.dev.attesting = true then s
    else
      let buf := wfield w 63 12 * 4096
      let ok := w.getLsbD 0 && (attestPart s buf).isSome
      noteConfigured { s with dev := { s.dev with
        attest := w, attesting := ok, nonce := if ok then homeBytes s.msys buf 32 else [] } }

/-- The bytes of a report (R445): the nonce as it stood before the request, the digest of the image that runs; `k` numbers the
signature. -/
def reportBytes (s : State) (k p : Nat) : List Byte :=
  s.dev.nonce ++ ((List.range 64).map (Config.imageByte s.dev.image)) ++ bytesOf 8 s.dev.devid.toNat ++ bytesOf 8 s.dev.partcfg.toNat ++
    bytesOf 8 p ++ bytesOf 8 (incarnation s .dieHalf p) ++
    ((List.range 29792).map fun i => Config.attestByte k i) ++ List.replicate 2848 0

/-- ATTEST_REPORT_COMPLETE (R445). -/
def execAttestReportComplete (s : State) : Host.Outcome State Fault Refusal :=
  let buf := wfield s.dev.attest 63 12 * 4096
  .next <| if s.dev.attesting = false then s
    else match attestPart s buf with
      | none => { s with dev := { s.dev with attesting := false, nonce := [] } }
      | some p =>
        let s := writeDev none none none buf (reportBytes s s.freeCtr p) s
        { s with
          freeCtr := s.freeCtr + 1
          dev := { s.dev with attesting := false, nonce := [], attest := s.dev.attest &&& ~~~1#64 } }

/-! ## Power-on, sleep and repair -/

/-- A step of DEVSTAT (R446). -/
def setStep (n : BitVec 4) (s : State) : State := { s with dev := { s.dev with step := n } }
/-- The word that REPAIR holds after a write. -/
def setRepair (v : Nat) (s : State) : State := { s with dev := { s.dev with repair := BitVec.ofNat 64 v } }

/-- Memory is initialised (R447): every line holds zero under new keys, and records, directories, TLBs and counters are clear. -/
def initMemory (s : State) : State :=
  { clearCores (fun _ => true) s with
    msys := MemSys.init
    parts := s.parts.map fun P => { P with errtrans := 0, errlast := 0, stopcount := 0, evlost := 0 } }

/-- POWER_ON_RESET (R447): whatever the device was doing ends, and the steps follow one another, one at a time: the firmware check,
the calibration, which gives every link its total, the initialisation of memory, and the stored configuration with READY. While the
device passes through them the event is the next of them (assumption 19). -/
def execPowerOnReset (s : State) : Host.Outcome State Fault Refusal :=
  .next <|
    if s.dev.step = 1 then setStep (if Config.firmwareOk s.freeCtr 0 then 2 else 15) { s with freeCtr := s.freeCtr + 1 }
    else if s.dev.step = 2 then setStep 3 { s with links := s.links.map fun l => { l with total := Config.permits l.num } }
    else if s.dev.step = 3 then setStep 4 (initMemory s)
    else setStep 1 { State.reset with agenda := s.agenda, freeCtr := s.freeCtr, outbox := s.outbox }

/-- REPAIR_SLEEP (R448): a sleeping device wakes first. -/
def execRepairSleep (s : State) : Host.Outcome State Fault Refusal :=
  .next <| if s.dev.step = 15 then s
    else
      let s := setRepair 1 (wake s)
      if s.launches = [] ∧ ready s = true then setStep 5 s else s

/-- DEVICE_WAKE (R448): the state is unchanged across the sleep. -/
def execDeviceWake (s : State) : Host.Outcome State Fault Refusal := .next (wake s)

/-- The contexts of a partition that have live launches (R405). -/
def partContexts (s : State) (p : Nat) : List Nat := ((s.launches.filter fun L => L.part == p).map (·.asid)).foldl addNew []

/-- INSERVICE bit of a half (R446). -/
def inService (s : State) (half : Nat) : Bool := s.dev.inservice.getLsbD half
/-- Sets or clears INSERVICE of a half. -/
def setService (half : Nat) (on : Bool) (s : State) : State :=
  let bit := BitVec.ofNat 8 (2 ^ half)
  { s with dev := { s.dev with inservice := if on then s.dev.inservice ||| bit else s.dev.inservice &&& ~~~bit } }

/-- REPAIR_TAKE_OUT (R449): the partition's contexts halt with cause KILL, its key is discarded, INSERVICE clears. -/
def execRepairTakeOut (half : BitVec 3) (s : State) : Host.Outcome State Fault Refusal :=
  let h := half.toNat
  .next <| if s.dev.step = 15 then s
    else
      let s := setRepair (h * 2 ^ 8 + 2 ^ 12) (wake s)
      if ready s = false ∨ inService s h = false then s
      else
        let p := partOfHalf s h
        let s := (partContexts s p).foldl (fun s a => haltContext p a .kill ⟨.placer, 0, 0, 0, 0, true⟩ s) s
        let mine := fun (k : Nat) => partOfStack s k == p
        let s := updPart (newKey mine s) p fun P => { P with captured := [] }
        setStep 6 (setService h false (clearCores (fun c => partOfCore s c == p) s))

/-- The agents of a die half (R424). -/
def halfAgents (h : Nat) : List (AgentKind × Nat) :=
  ((List.range 32).map fun i => (.core, 32 * h + i)) ++ ((List.range 32).map fun i => (.copyEngine, 32 * h + i)) ++
    ((List.range 4).map fun i => (.slice, 4 * h + i)) ++ ((List.range 2).map fun i => (.controller, 2 * h + i)) ++
    [(.dieHalf, h)]

/-- A half returns to service (R449): calibrated, its stacks zero under new keys, its agents rejoined (R425). No granule there is
bound any more, which releases tables (R302, R304). -/
def returnHalf (h : Nat) (s : State) : State :=
  let s := rekey (fun k => k / 2 == h) 0 s
  let p := partOfHalf s h
  let s := ((partn s p).captured.map (·.1)).foldl (fun s t => releaseCapture p (BitVec.ofNat 16 t) s) s
  let s := (halfAgents h).foldl (fun s a => if incarnation s a.1 a.2 < 65535 then rejoin a.1 a.2 s else s) s
  setStep 4 (setService h true s)

/-- REPAIR_RETURN (R449). -/
def execRepairReturn (half : BitVec 3) (s : State) : Host.Outcome State Fault Refusal :=
  let h := half.toNat
  .next <| if s.dev.step = 15 then s
    else
      let s := setRepair (h * 2 ^ 8 + 2 * 2 ^ 12) (wake s)
      if ready s = false ∨ inService s h = true then s else returnHalf h s

/-- REPAIR_LOAD_FIRMWARE (R444, R449): an image that fails leaves the half out of service, and STEP is 4 while other halves
serve. -/
def execRepairLoadFirmware (half : BitVec 3) (image : BitVec 48) (s : State) : Host.Outcome State Fault Refusal :=
  let h := half.toNat
  .next <| if s.dev.step = 15 then s
    else
      let s := setRepair (h * 2 ^ 8 + 3 * 2 ^ 12 + image.toNat * 2 ^ 16) (wake s)
      if ready s = false ∨ inService s h = true then s
      else
        let ok := Config.firmwareOk s.freeCtr image.toNat
        let image := s.freeCtr + 1
        let s := { s with freeCtr := image }
        if ok then returnHalf h { s with dev := { s.dev with image := image } } else setStep (if s.dev.inservice = 0 then 15 else 4) s

end Sys2Proof.Machine
end

