-- ==== Sys2Proof/Machine/Dispatch.lean ====
section
/-! DEFINITION. The meaning of every instruction and event: one arm per constructor, each one direct call of its meaning. -/

namespace Sys2Proof.Machine

/-- One row of the opcode table carried out. -/
def exec (i : Instr) (s : State) : Host.Outcome State Fault Refusal :=
  match i with
  | .nop8 x => Sys2Proof.Machine.execNop8 x s
  | .nop12 x => Sys2Proof.Machine.execNop12 x s
  | .bra12 x => Sys2Proof.Machine.execBra12 x s
  | .bra16 x => Sys2Proof.Machine.execBra16 x s
  | .brx x => Sys2Proof.Machine.execBrx x s
  | .call12 x => Sys2Proof.Machine.execCall12 x s
  | .call16 x => Sys2Proof.Machine.execCall16 x s
  | .callx x => Sys2Proof.Machine.execCallx x s
  | .ret x => Sys2Proof.Machine.execRet x s
  | .exit x => Sys2Proof.Machine.execExit x s
  | .yield x => Sys2Proof.Machine.execYield x s
  | .fsw x => Sys2Proof.Machine.execFsw x s
  | .bar x => Sys2Proof.Machine.execBar x s
  | .barv x => Sys2Proof.Machine.execBarv x s
  | .barw x => Sys2Proof.Machine.execBarw x s
  | .tkwait x => Sys2Proof.Machine.execTkwait x s
  | .tkpass x => Sys2Proof.Machine.execTkpass x s
  | .regacq x => Sys2Proof.Machine.execRegacq x s
  | .regrel x => Sys2Proof.Machine.execRegrel x s
  | .win x => Sys2Proof.Machine.execWin x s
  | .wline x => Sys2Proof.Machine.execWline x s
  | .launch x => Sys2Proof.Machine.execLaunch x s
  | .qend x => Sys2Proof.Machine.execQend x s
  | .trap x => Sys2Proof.Machine.execTrap x s
  | .rett x => Sys2Proof.Machine.execRett x s
  | .enq x => Sys2Proof.Machine.execEnq x s
  | .deq x => Sys2Proof.Machine.execDeq x s
  | .emset x => Sys2Proof.Machine.execEmset x s
  | .emget x => Sys2Proof.Machine.execEmget x s
  | .bpr12 x => Sys2Proof.Machine.execBpr12 x s
  | .bpr16 x => Sys2Proof.Machine.execBpr16 x s
  | .icinv x => Sys2Proof.Machine.execIcinv x s
  | .srd x => Sys2Proof.Machine.execSrd x s
  | .swr x => Sys2Proof.Machine.execSwr x s
  | .iadd8 x => Sys2Proof.Machine.execIadd8 x s
  | .iadd12 x => Sys2Proof.Machine.execIadd12 x s
  | .isub8 x => Sys2Proof.Machine.execIsub8 x s
  | .isub12 x => Sys2Proof.Machine.execIsub12 x s
  | .imul8 x => Sys2Proof.Machine.execImul8 x s
  | .imul12 x => Sys2Proof.Machine.execImul12 x s
  | .imulhi8 x => Sys2Proof.Machine.execImulhi8 x s
  | .imulhi12 x => Sys2Proof.Machine.execImulhi12 x s
  | .imin8 x => Sys2Proof.Machine.execImin8 x s
  | .imin12 x => Sys2Proof.Machine.execImin12 x s
  | .imax8 x => Sys2Proof.Machine.execImax8 x s
  | .imax12 x => Sys2Proof.Machine.execImax12 x s
  | .shl8 x => Sys2Proof.Machine.execShl8 x s
  | .shl12 x => Sys2Proof.Machine.execShl12 x s
  | .shr8 x => Sys2Proof.Machine.execShr8 x s
  | .shr12 x => Sys2Proof.Machine.execShr12 x s
  | .rot8 x => Sys2Proof.Machine.execRot8 x s
  | .rot12 x => Sys2Proof.Machine.execRot12 x s
  | .and8 x => Sys2Proof.Machine.execAnd8 x s
  | .and12 x => Sys2Proof.Machine.execAnd12 x s
  | .or8 x => Sys2Proof.Machine.execOr8 x s
  | .or12 x => Sys2Proof.Machine.execOr12 x s
  | .xor8 x => Sys2Proof.Machine.execXor8 x s
  | .xor12 x => Sys2Proof.Machine.execXor12 x s
  | .icmp8 x => Sys2Proof.Machine.execIcmp8 x s
  | .icmp12 x => Sys2Proof.Machine.execIcmp12 x s
  | .iabs x => Sys2Proof.Machine.execIabs x s
  | .vnot x => Sys2Proof.Machine.execVnot x s
  | .popc x => Sys2Proof.Machine.execPopc x s
  | .clz x => Sys2Proof.Machine.execClz x s
  | .brev x => Sys2Proof.Machine.execBrev x s
  | .mov x => Sys2Proof.Machine.execMov x s
  | .lidx x => Sys2Proof.Machine.execLidx x s
  | .plop x => Sys2Proof.Machine.execPlop x s
  | .imad x => Sys2Proof.Machine.execImad x s
  | .lop3 x => Sys2Proof.Machine.execLop3 x s
  | .bfext x => Sys2Proof.Machine.execBfext x s
  | .bfins x => Sys2Proof.Machine.execBfins x s
  | .sel x => Sys2Proof.Machine.execSel x s
  | .ascale x => Sys2Proof.Machine.execAscale x s
  | .rng x => Sys2Proof.Machine.execRng x s
  | .movi12 x => Sys2Proof.Machine.execMovi12 x s
  | .movi16 x => Sys2Proof.Machine.execMovi16 x s
  | .vote x => Sys2Proof.Machine.execVote x s
  | .perm x => Sys2Proof.Machine.execPerm x s
  | .vtos x => Sys2Proof.Machine.execVtos x s
  | .sadd8 x => Sys2Proof.Machine.execSadd8 x s
  | .sadd12 x => Sys2Proof.Machine.execSadd12 x s
  | .ssub8 x => Sys2Proof.Machine.execSsub8 x s
  | .ssub12 x => Sys2Proof.Machine.execSsub12 x s
  | .smul8 x => Sys2Proof.Machine.execSmul8 x s
  | .smul12 x => Sys2Proof.Machine.execSmul12 x s
  | .sshl8 x => Sys2Proof.Machine.execSshl8 x s
  | .sshl12 x => Sys2Proof.Machine.execSshl12 x s
  | .sshr8 x => Sys2Proof.Machine.execSshr8 x s
  | .sshr12 x => Sys2Proof.Machine.execSshr12 x s
  | .sand8 x => Sys2Proof.Machine.execSand8 x s
  | .sand12 x => Sys2Proof.Machine.execSand12 x s
  | .sor8 x => Sys2Proof.Machine.execSor8 x s
  | .sor12 x => Sys2Proof.Machine.execSor12 x s
  | .sxor8 x => Sys2Proof.Machine.execSxor8 x s
  | .sxor12 x => Sys2Proof.Machine.execSxor12 x s
  | .scmp8 x => Sys2Proof.Machine.execScmp8 x s
  | .scmp12 x => Sys2Proof.Machine.execScmp12 x s
  | .smin8 x => Sys2Proof.Machine.execSmin8 x s
  | .smin12 x => Sys2Proof.Machine.execSmin12 x s
  | .smax8 x => Sys2Proof.Machine.execSmax8 x s
  | .smax12 x => Sys2Proof.Machine.execSmax12 x s
  | .smov8 x => Sys2Proof.Machine.execSmov8 x s
  | .smov12 x => Sys2Proof.Machine.execSmov12 x s
  | .smov16 x => Sys2Proof.Machine.execSmov16 x s
  | .fadd x => Sys2Proof.Machine.execFadd x s
  | .fsub x => Sys2Proof.Machine.execFsub x s
  | .fmul x => Sys2Proof.Machine.execFmul x s
  | .ffma x => Sys2Proof.Machine.execFfma x s
  | .ffms x => Sys2Proof.Machine.execFfms x s
  | .fnfma x => Sys2Proof.Machine.execFnfma x s
  | .fmin x => Sys2Proof.Machine.execFmin x s
  | .fmax x => Sys2Proof.Machine.execFmax x s
  | .fabs x => Sys2Proof.Machine.execFabs x s
  | .fneg x => Sys2Proof.Machine.execFneg x s
  | .fcmp x => Sys2Proof.Machine.execFcmp x s
  | .fclass x => Sys2Proof.Machine.execFclass x s
  | .fscale x => Sys2Proof.Machine.execFscale x s
  | .fcpsgn x => Sys2Proof.Machine.execFcpsgn x s
  | .frint x => Sys2Proof.Machine.execFrint x s
  | .frcp x => Sys2Proof.Machine.execFrcp x s
  | .frsqrt x => Sys2Proof.Machine.execFrsqrt x s
  | .fsqrt x => Sys2Proof.Machine.execFsqrt x s
  | .fexp2 x => Sys2Proof.Machine.execFexp2 x s
  | .flog2 x => Sys2Proof.Machine.execFlog2 x s
  | .fsin x => Sys2Proof.Machine.execFsin x s
  | .fcos x => Sys2Proof.Machine.execFcos x s
  | .fsum x => Sys2Proof.Machine.execFsum x s
  | .flmax x => Sys2Proof.Machine.execFlmax x s
  | .flmin x => Sys2Proof.Machine.execFlmin x s
  | .cvt x => Sys2Proof.Machine.execCvt x s
  | .pack x => Sys2Proof.Machine.execPack x s
  | .unpack x => Sys2Proof.Machine.execUnpack x s
  | .scapply x => Sys2Proof.Machine.execScapply x s
  | .bpext x => Sys2Proof.Machine.execBpext x s
  | .pk2 x => Sys2Proof.Machine.execPk2 x s
  | .upk2 x => Sys2Proof.Machine.execUpk2 x s
  | .scfind x => Sys2Proof.Machine.execScfind x s
  | .ld8 x => Sys2Proof.Machine.execLd8 x s
  | .ld12 x => Sys2Proof.Machine.execLd12 x s
  | .ld16 x => Sys2Proof.Machine.execLd16 x s
  | .lds8 x => Sys2Proof.Machine.execLds8 x s
  | .lds12 x => Sys2Proof.Machine.execLds12 x s
  | .lds16 x => Sys2Proof.Machine.execLds16 x s
  | .ldr8 x => Sys2Proof.Machine.execLdr8 x s
  | .ldr12 x => Sys2Proof.Machine.execLdr12 x s
  | .ldr16 x => Sys2Proof.Machine.execLdr16 x s
  | .ldc8 x => Sys2Proof.Machine.execLdc8 x s
  | .ldc12 x => Sys2Proof.Machine.execLdc12 x s
  | .ldc16 x => Sys2Proof.Machine.execLdc16 x s
  | .ldblk8 x => Sys2Proof.Machine.execLdblk8 x s
  | .ldblk12 x => Sys2Proof.Machine.execLdblk12 x s
  | .ldblk16 x => Sys2Proof.Machine.execLdblk16 x s
  | .ldsc8 x => Sys2Proof.Machine.execLdsc8 x s
  | .ldsc12 x => Sys2Proof.Machine.execLdsc12 x s
  | .ldsc16 x => Sys2Proof.Machine.execLdsc16 x s
  | .st8 x => Sys2Proof.Machine.execSt8 x s
  | .st12 x => Sys2Proof.Machine.execSt12 x s
  | .st16 x => Sys2Proof.Machine.execSt16 x s
  | .sts8 x => Sys2Proof.Machine.execSts8 x s
  | .sts12 x => Sys2Proof.Machine.execSts12 x s
  | .sts16 x => Sys2Proof.Machine.execSts16 x s
  | .str8 x => Sys2Proof.Machine.execStr8 x s
  | .str12 x => Sys2Proof.Machine.execStr12 x s
  | .str16 x => Sys2Proof.Machine.execStr16 x s
  | .stblk8 x => Sys2Proof.Machine.execStblk8 x s
  | .stblk12 x => Sys2Proof.Machine.execStblk12 x s
  | .stblk16 x => Sys2Proof.Machine.execStblk16 x s
  | .stsc8 x => Sys2Proof.Machine.execStsc8 x s
  | .stsc12 x => Sys2Proof.Machine.execStsc12 x s
  | .stsc16 x => Sys2Proof.Machine.execStsc16 x s
  | .ldacc x => Sys2Proof.Machine.execLdacc x s
  | .stacc x => Sys2Proof.Machine.execStacc x s
  | .copy x => Sys2Proof.Machine.execCopy x s
  | .publish x => Sys2Proof.Machine.execPublish x s
  | .vseal x => Sys2Proof.Machine.execVseal x s
  | .vunseal x => Sys2Proof.Machine.execUnseal x s
  | .flush8 x => Sys2Proof.Machine.execFlush8 x s
  | .flush12 x => Sys2Proof.Machine.execFlush12 x s
  | .inval8 x => Sys2Proof.Machine.execInval8 x s
  | .inval12 x => Sys2Proof.Machine.execInval12 x s
  | .pref8 x => Sys2Proof.Machine.execPref8 x s
  | .pref12 x => Sys2Proof.Machine.execPref12 x s
  | .atom8 x => Sys2Proof.Machine.execAtom8 x s
  | .atom12 x => Sys2Proof.Machine.execAtom12 x s
  | .atom16 x => Sys2Proof.Machine.execAtom16 x s
  | .atomf8 x => Sys2Proof.Machine.execAtomf8 x s
  | .atomf12 x => Sys2Proof.Machine.execAtomf12 x s
  | .atomf16 x => Sys2Proof.Machine.execAtomf16 x s
  | .atomcas12 x => Sys2Proof.Machine.execAtomcas12 x s
  | .atomcas16 x => Sys2Proof.Machine.execAtomcas16 x s
  | .red8 x => Sys2Proof.Machine.execRed8 x s
  | .red12 x => Sys2Proof.Machine.execRed12 x s
  | .red16 x => Sys2Proof.Machine.execRed16 x s
  | .redf8 x => Sys2Proof.Machine.execRedf8 x s
  | .redf12 x => Sys2Proof.Machine.execRedf12 x s
  | .redf16 x => Sys2Proof.Machine.execRedf16 x s
  | .fence x => Sys2Proof.Machine.execFence x s
  | .mma x => Sys2Proof.Machine.execMma x s
  | .mmac x => Sys2Proof.Machine.execMmac x s
  | .mmap x => Sys2Proof.Machine.execMmap x s
  | .mmas x => Sys2Proof.Machine.execMmas x s
  | .acz x => Sys2Proof.Machine.execAcz x s
  | .acscl x => Sys2Proof.Machine.execAcscl x s
  | .accvt x => Sys2Proof.Machine.execAccvt x s
  | .acrd x => Sys2Proof.Machine.execAcrd x s
  | .acwr x => Sys2Proof.Machine.execAcwr x s
  | .frcdec x => Sys2Proof.Machine.execFrcdec x s
  | .frcenc x => Sys2Proof.Machine.execFrcenc x s
  | .frchdr x => Sys2Proof.Machine.execFrchdr x s
  | .expload x => Sys2Proof.Machine.execExpload x s
  | .pkstatLine x => Sys2Proof.Machine.execPkstatLine x s
  | .pkstatBind x => Sys2Proof.Machine.execPkstatBind x s
  | .xop8 x => Sys2Proof.Machine.execXop8 x s
  | .xop12 x => Sys2Proof.Machine.execXop12 x s
  | .xop16 x => Sys2Proof.Machine.execXop16 x s
  | .variableLatencyWrite f seq => Sys2Proof.Machine.execVariableLatencyWrite f seq s
  | .slotHandover core slot => Sys2Proof.Machine.execSlotHandover core slot s
  | .trapEntry f => Sys2Proof.Machine.execTrapEntry f s
  | .accessPerformed f => Sys2Proof.Machine.execAccessPerformed f s
  | .rollback f => Sys2Proof.Machine.execRollback f s
  | .escalateLevel1 f => Sys2Proof.Machine.execEscalateLevel1 f s
  | .escalateLevel2 f => Sys2Proof.Machine.execEscalateLevel2 f s
  | .escalateLevel3 f => Sys2Proof.Machine.execEscalateLevel3 f s
  | .registerDeadlock core quad => Sys2Proof.Machine.execRegisterDeadlock core quad s
  | .acquireStalled f => Sys2Proof.Machine.execAcquireStalled f s
  | .quantumLimit f => Sys2Proof.Machine.execQuantumLimit f s
  | .quantumCommit launchId => Sys2Proof.Machine.execQuantumCommit launchId s
  | .hruUpdateApply slice => Sys2Proof.Machine.execHruUpdateApply slice s
  | .copyLanding core id => Sys2Proof.Machine.execCopyLanding core id s
  | .copyTranslationFault core id => Sys2Proof.Machine.execCopyTranslationFault core id s
  | .copyAbandon core id => Sys2Proof.Machine.execCopyAbandon core id s
  | .expanderTableRead core id => Sys2Proof.Machine.execExpanderTableRead core id s
  | .matrixCommandFinish core id => Sys2Proof.Machine.execMatrixCommandFinish core id s
  | .softError core id chunk => Sys2Proof.Machine.execSoftError core id chunk s
  | .launchEligibilityCheck launchId => Sys2Proof.Machine.execLaunchEligibilityCheck launchId s
  | .placeBlock part => Sys2Proof.Machine.execPlaceBlock part s
  | .timeSliceExpiry part => Sys2Proof.Machine.execTimeSliceExpiry part s
  | .coreReservation launchId => Sys2Proof.Machine.execCoreReservation launchId s
  | .blockWithdrawal launchId stage => Sys2Proof.Machine.execBlockWithdrawal launchId stage s
  | .ringTimeInterrupt part ring => Sys2Proof.Machine.execRingTimeInterrupt part ring s
  | .launchRetryTimeout part => Sys2Proof.Machine.execLaunchRetryTimeout part s
  | .pageWalk core asid vpage => Sys2Proof.Machine.execPageWalk core asid vpage s
  | .directoryEviction pa => Sys2Proof.Machine.execDirectoryEviction pa s
  | .sealedDrainComplete page => Sys2Proof.Machine.execSealedDrainComplete page s
  | .codedBlockEviction pa => Sys2Proof.Machine.execCodedBlockEviction pa s
  | .metadataError pa retryFails => Sys2Proof.Machine.execMetadataError pa retryFails s
  | .uncorrectableError site retryFails => Sys2Proof.Machine.execUncorrectableError site retryFails s
  | .vigilCheck die first second => Sys2Proof.Machine.execVigilCheck die first second s
  | .agentFailure kind num => Sys2Proof.Machine.execAgentFailure kind num s
  | .agentRejoin kind num => Sys2Proof.Machine.execAgentRejoin kind num s
  | .placerPreemptRequest launchId => Sys2Proof.Machine.execPlacerPreemptRequest launchId s
  | .drainTimeout launchId stage block => Sys2Proof.Machine.execDrainTimeout launchId stage block s
  | .saveStoppingPoint launchId stage block => Sys2Proof.Machine.execSaveStoppingPoint launchId stage block s
  | .hostMailboxAccess acc => Sys2Proof.Machine.execHostMailboxAccess acc s
  | .hostHdmHAccess acc => Sys2Proof.Machine.execHostHdmHAccess acc s
  | .lqcfgWrite part q v => Sys2Proof.Machine.execLqcfgWrite part q v s
  | .tlbinvPage part asid => Sys2Proof.Machine.execTlbinvPage part asid s
  | .tlbinvAsid part asid => Sys2Proof.Machine.execTlbinvAsid part asid s
  | .tlbinvPartition part => Sys2Proof.Machine.execTlbinvPartition part s
  | .tlbInvalidationComplete part => Sys2Proof.Machine.execTlbInvalidationComplete part s
  | .ctxctlHalt part asid => Sys2Proof.Machine.execCtxctlHalt part asid s
  | .ctxctlClear part asid => Sys2Proof.Machine.execCtxctlClear part asid s
  | .preemptreqCore part target => Sys2Proof.Machine.execPreemptreqCore part target s
  | .preemptreqAsid part target => Sys2Proof.Machine.execPreemptreqAsid part target s
  | .preemptreqVf part target => Sys2Proof.Machine.execPreemptreqVf part target s
  | .partcfgWrite v => Sys2Proof.Machine.execPartcfgWrite v s
  | .devidWrite v => Sys2Proof.Machine.execDevidWrite v s
  | .attestRequest v => Sys2Proof.Machine.execAttestRequest v s
  | .attestReportComplete => Sys2Proof.Machine.execAttestReportComplete s
  | .repairSleep => Sys2Proof.Machine.execRepairSleep s
  | .deviceWake => Sys2Proof.Machine.execDeviceWake s
  | .repairTakeOut half => Sys2Proof.Machine.execRepairTakeOut half s
  | .repairReturn half => Sys2Proof.Machine.execRepairReturn half s
  | .repairLoadFirmware half image => Sys2Proof.Machine.execRepairLoadFirmware half image s
  | .evringcfgWrite fn ring v => Sys2Proof.Machine.execEvringcfgWrite fn ring v s
  | .evconsWrite fn ring v => Sys2Proof.Machine.execEvconsWrite fn ring v s
  | .errorCounterWrite part last v => Sys2Proof.Machine.execErrorCounterWrite part last v s
  | .registerWrite fn r v => Sys2Proof.Machine.execRegisterWrite fn r v s
  | .powerOnReset => Sys2Proof.Machine.execPowerOnReset s
  | .l1Eviction core pa => Sys2Proof.Machine.execL1Eviction core pa s
  | .homeWriteBack pa => Sys2Proof.Machine.execHomeWriteBack pa s
  | .remoteDeviceAccess m => Sys2Proof.Machine.execRemoteDeviceAccess m s
  | .remoteSealedRecall m => Sys2Proof.Machine.execRemoteSealedRecall m s
  | .peerLostpermit m => Sys2Proof.Machine.execPeerLostpermit m s
  | .linkReturnToService link => Sys2Proof.Machine.execLinkReturnToService link s
  | .correctableError part => Sys2Proof.Machine.execCorrectableError part s

end Sys2Proof.Machine
end

