-- ==== Sys2Proof/Machine/Agenda.lean ====
section
/-! DEFINITION. What a step does (assumption 1): the first activity of the agenda, or, when the agenda is empty, one that
the device chooses itself. Beside it stands the standard environment in which one word is placed to run next. -/

namespace Sys2Proof.Machine

/-! ## Activities -/

/-- Cycles pass: waits are counted (R99, R125), requests for registers are looked at again (R121), and caches that are overfull let
lines go (R16). -/
def pass (n : Nat) (s : State) : State :=
  fitCaches (grantAll (countWaiting n (countAcquires n { s with clock := s.clock + n, sameCycle := [] })))

/-- The state in which a fibre issues: its slot's turn has been settled (R112), and a cycle has passed. -/
def issueState (id : FibreId) (ahead : Bool) (s : State) : State :=
  pass 1 (slotTurn id.core (id.pos / 4) { s with cur := id, ahead := ahead })

/-- The fibre may issue in this cycle: it is its slot's current one, and the hand-over to it is past (R112). -/
def hasSlot (s : State) (f : Fibre) : Bool := f.isCur && decide (f.curSince < s.clock)

/-- Whether an outcome is anything but a given state. -/
def changes (s : State) (o : Host.Outcome State Fault Refusal) : Bool :=
  match o with
  | .next t => t != s
  | _ => true

/-- An instruction of the matrix and engine command port that names tiles or the matrix unit, opcodes 0xE0 to 0xEF (R113). -/
def onMatrixPort (i : Instr) : Bool := i.toRaw.any fun r => r.op.toNat / 16 == 14

/-- A fibre of a lower quadrant of the core stands at an instruction that the matrix unit would accept now: its port is served
first (R326, assumption 60). -/
def portTaken (s : State) (id : FibreId) : Bool :=
  s.fibres.any fun g => g.id.core == id.core && decide (g.id.pos / 16 < id.pos / 16) && hasSlot s g && !cannotIssue s g &&
    match nextWord { s with cur := g.id } g with
    | (t, .instr j) => onMatrixPort j && changes t (exec j t)
    | _ => false

/-- A slot's current fibre fetches and issues its next word. -/
def issueStep (id : FibreId) (s : State) : Host.Outcome State Fault Refusal :=
  match fibre? s id with
  | none => .next s
  | some f =>
    if !hasSlot s f then .next s
    else
      match nextWord s f with
      | (s', .instr i) => if onMatrixPort i && portTaken s id then .next s else exec i s'
      | (s', w) => .next (issueNone f w s')

/-- An event of the opcode table, not an instruction word. -/
def isEvent (e : Instr) : Bool := e.toRaw.isNone

/-- Software tells the control core which launch list to serve (R82). -/
def serveList (p : Nat) (list : Word) (s : State) : State :=
  updPart s p fun P => { P with control := { P.control with list := some list } }

/-- What the host does to the device, and reset: a device that is asleep meets it (R448). -/
def hostEvent (e : Instr) : Bool :=
  match e with
  | .lqcfgWrite .. | .tlbinvPage .. | .tlbinvAsid .. | .tlbinvPartition .. | .ctxctlHalt .. | .ctxctlClear .. | .preemptreqCore ..
  | .preemptreqAsid .. | .preemptreqVf .. | .evringcfgWrite .. | .evconsWrite .. | .errorCounterWrite .. | .registerWrite ..
  | .hostMailboxAccess .. | .hostHdmHAccess .. | .partcfgWrite .. | .devidWrite .. | .attestRequest .. | .powerOnReset
  | .repairSleep | .deviceWake | .repairTakeOut .. | .repairReturn .. | .repairLoadFirmware .. => true
  | _ => false

/-- An activity that takes place while the device is asleep: the host's, and the passing of time (R448). -/
def Activity.asleep : Activity → Bool
  | .event e => hostEvent e
  | .tick _ | .regRead _ _ | .serveList _ _ => true
  | _ => false

/-- An activity that leaves committed updates in their HRUs: the application of one of them, and what neither meets memory nor ends a
launch. Before any other they are applied, since what it brings about follows them in the total order (R360, R386, R432). -/
def Activity.leavesUpdates : Activity → Bool
  | .event (.hruUpdateApply _) => true
  | .tick _ | .stale _ | .regRead _ _ | .serveList _ _ => true
  | _ => false

/-- Carries out one activity. -/
def act (a : Activity) (s0 : State) : Host.Outcome State Fault Refusal :=
  let s := if a.leavesUpdates then s0 else drained s0
  if s0.dev.step = 5 ∧ a.asleep = false then .next s0
  else match a with
  | .issue id ahead => issueStep id (issueState id ahead s)
  | .event e => if isEvent e then exec e s else .next s
  | .tick n => .next (pass n s)
  | .loosen id => .next (loosen id s)
  | .performPart id seq => .next (performPart id seq s)
  | .stale n => .next { s with lag := n }
  | .regRead vf off => .next (hostRead vf off s)
  | .copyMove core id n => .next (copyMove core id n s)
  | .control p => .next (controlStep p s)
  | .serveList p list => .next (serveList p list s)

/-! ## The device's own choice -/

/-- Fibres after the one that issued last, then the others: each gets its turn. -/
def rotated (s : State) : List Fibre :=
  let after := (s.fibres.dropWhile fun f => f.id != s.cur).drop 1
  after ++ s.fibres.filter fun f => !(after.any fun g => g.id == f.id)

/-- Something the device may do of itself. -/
abbrev Choice := State → Host.Outcome State Fault Refusal

/-- What a fibre's own state brings about. -/
def fibreChoices (f : Fibre) : List Choice :=
  [execRollback f.id, execEscalateLevel1 f.id, execEscalateLevel2 f.id, execEscalateLevel3 f.id, execTrapEntry f.id] ++
    (f.pend.map fun p => execVariableLatencyWrite f.id p.seq) ++
    (f.moving.map fun m => fun s => .next (performPart f.id m.seq s)) ++
    [execAccessPerformed f.id, execQuantumLimit f.id, execRegisterDeadlock f.id.core (f.id.pos / 16), execAcquireStalled f.id,
      execSlotHandover f.id.core (f.id.pos / 4)]

/-- What a core's engines do. -/
def coreChoices (c : Nat × CoreRec) : List Choice :=
  (c.2.copies.flatMap fun x => [fun s => .next (copyMove c.1 x.id 65536 s), execExpanderTableRead c.1 x.id,
    execCopyLanding c.1 x.id, execCopyTranslationFault c.1 x.id, execCopyAbandon c.1 x.id]) ++
    c.2.mat.map fun m => execMatrixCommandFinish c.1 m.id

/-- What the placer and the Almanac do for a launch. -/
def launchChoices (L : Launch) : List Choice :=
  [execLaunchEligibilityCheck L.id, execQuantumCommit L.id, execCoreReservation L.id, execPlacerPreemptRequest L.id] ++
    (List.range L.stages.length).map fun k => execBlockWithdrawal L.id k

/-- What the placer does for a block. -/
def blockChoices (b : Block) : List Choice :=
  [execSaveStoppingPoint b.launch b.stage b.num, execDrainTimeout b.launch b.stage b.num]

/-- What a partition's engines do. -/
def partChoices (s : State) (p : Nat) : List Choice :=
  [execTimeSliceExpiry p, execPlaceBlock p, execLaunchRetryTimeout p, fun s => .next (controlStep p s),
    execTlbInvalidationComplete p] ++ (partn s p).rings.map fun r => execRingTimeInterrupt p r.1

/-- What the device may do of itself beside issuing, in the order in which it is tried, committed updates first: nothing that the
outside world, a failure or an eviction brings about. -/
def choices (s : State) : List Choice :=
  (if s.dev.step < 4 then [execPowerOnReset] else []) ++
    (((s.msys.hru.map (·.slice)).foldl addNew []).map fun k => execHruUpdateApply k) ++ s.fibres.flatMap fibreChoices ++
    s.cores.flatMap coreChoices ++ s.blocks.flatMap blockChoices ++ s.launches.flatMap launchChoices ++
    (s.msys.seals.map fun r => execSealedDrainComplete r.page) ++
    ((List.range 8).filter (partFormed s)).flatMap (partChoices s) ++
    (if s.dev.attesting then [execAttestReportComplete] else [])

/-- Issue by a fibre that is not held back, if more comes of it than the passing of a cycle. -/
def tryIssue (s : State) (f : Fibre) : Option (Host.Outcome State Fault Refusal) :=
  let ready := issueState f.id false s
  let o := issueStep f.id ready
  if !cannotIssue s f && changes ready o then some o else none

/-- What the device does where the agenda is empty: the first of its choices that does something, else the issue of one
word, else a cycle passes. -/
def choose (s : State) : Host.Outcome State Fault Refusal :=
  if s.dev.step = 5 then .next (pass 1 s)
  else match (choices s).findSome? fun c => if changes s (c s) then some (c s) else none with
  | some o => o
  | none => ((rotated s).findSome? (tryIssue s)).getD (.next (pass 1 s))

/-! ## The standard environment -/

/-- The entry at which a word is placed where no fibre can issue. -/
def stdEntry : Nat := 0x4100000000

/-- The descriptor of the standard environment: one fibre, no storage beside its registers. -/
def stdDesc : Desc :=
  { entry := BitVec.ofNat 64 stdEntry, handler := BitVec.ofNat 64 (stdEntry + 0x1000), fibres := 0x81, storage := 2, sync := 0
    format := 0, reserved := false }

/-- The launch of the standard environment: its one block is placed. -/
def stdLaunch : Launch :=
  { id := 1, part := 0, queue := 0, asid := 1, vf := 0, accept := 0, args := Vector.ofFn fun _ => 0, tag := 0, stagetab := 0
    clusters := 0, ctl := 0x10000, phase := .placing
    stages := [{ Stage.init 0 1 with first := some stdDesc, next := 1, lastCore := some 0 }]
    nfault := 0, waiting := none, held := [0], bars := [], saved := [], round := 1, placed := true, seen := 0 }

/-- Where the standard environment's fibre stands. -/
def stdFit : Fit := ⟨[0], [0], 0⟩

/-- The translation of the entry's page. -/
def stdTlb (s : State) : TlbEntry := ⟨1, stdEntry, ⟨s.dev.devid.toNat * 2 ^ 44, 16, true, true, .normal⟩⟩

/-- A machine in which one fibre of core 0 stands ready at `stdEntry`, mapped to the first page of stack 0. -/
def stdEnv (s : State) : State :=
  let s := setStep 4 s
  setCore
    { s with
      fibres := [{ newFibre s stdLaunch 0 0 0 1 stdDesc stdFit 0 with status := .current, isCur := true }]
      blocks := [newBlock s stdLaunch 0 0 0 stdDesc stdFit]
      launches := [stdLaunch] }
    0 { coreOf s 0 with tlb := stdTlb s :: (coreOf s 0).tlb }

/-- Bytes placed at a physical address, in the home and in no instruction cache; nothing there is poisoned. -/
def placeBytes (pa : Nat) (bs : List Byte) (s : State) : State :=
  let ms := putHomes none s.msys pa bs
  let cores := s.cores.map fun c => (c.1, { c.2 with icache := c.2.icache.filter (fun l => l.1 != pa / 64), l0 := c.2.l0.filter fun l => l.2.1 != pa / 64 })
  { s with
    msys := { ms with poison := ms.poison.filter fun a => a / 64 != pa / 64 }
    cores := cores.filter fun c => c.2 != CoreRec.init }

/-- Where a fibre fetches, if it can issue and the longest word fits. -/
def fetchPlace (s : State) (f : Fibre) : Option Nat :=
  if cannotIssue s f || !f.isCur then none
  else match fetchBlock s (ctxOf s f) (f.id.pos / 16) f.regs.pc with
    | .bytes bs l => if 16 ≤ bs.length ∧ f.regs.pc.toNat % 4 = 0 then some (l.pa f.regs.pc.toNat) else none
    | _ => none

/-- The first fibre that can fetch, with the place it fetches from. -/
def fetcher (s : State) : Option (FibreId × Nat) := s.fibres.findSome? fun f => (fetchPlace s f).map fun pa => (f.id, pa)

/-- Bytes placed where the next step fetches. -/
def placeNext (bs : List Byte) (s : State) : State :=
  let go := fun (s : State) (id : FibreId) (pa : Nat) =>
    let s := updFibre (placeBytes pa bs s) id fun f => { f with status := .current, curSince := s.clock }
    { s with agenda := .issue id false :: s.agenda }
  match fetcher s with
  | some (id, pa) => go s id pa
  | none =>
    let s := stdEnv s
    go s ⟨0, 0⟩ (s.dev.devid.toNat * 2 ^ 44)

end Sys2Proof.Machine
end

