-- ==== Sys2Proof/Machine/Step.lean ====
section
/-! DEFINITION. The step of the machine, and a word placed where the next step fetches. -/

namespace Sys2Proof.Machine

/-- One step: the first activity of the agenda, or the device's own choice where the agenda is empty. -/
def step (s : State) : Host.Outcome State Fault Refusal :=
  match s.agenda with
  | a :: rest => act a { s with agenda := rest }
  | [] => choose s

/-- The word whose bits are `w` stored where the next step fetches (assumption 15). -/
def State.withFetchWord (s : State) (nbits w : Nat) : State := placeNext (leBytes 16 (w % 2 ^ nbits)) s

end Sys2Proof.Machine
end

