-- ==== Sys2Proof/Safety.lean ====
section
/-! DEFINITION. What claims speak of: the canonical form of memory, a fibre that nothing holds back, and what an
instruction leaves as it was. -/

namespace Sys2Proof.Machine

/-! ## Canonical forms -/

/-- Addresses rise strictly. -/
def Cells.rising : List Host.Cell → Bool
  | [] => true
  | [_] => true
  | a :: b :: r => decide (a.1 < b.1) && Cells.rising (b :: r)

/-- The canonical form of memory: stacks list strictly rising addresses and no byte equal to what an unlisted address reads
as; homes list strictly rising addresses. -/
def Memory.wf (ms : MemSys) : Bool :=
  Cells.rising ms.mem && (ms.mem.all fun c => c.2 != stackDefault ms c.1) && Cells.rising ms.home

/-- The invariant of the machine's memory. -/
def State.Inv (s : State) : Prop := Memory.wf s.msys = true

/-! ## Reading a state -/

/-- Register `vn` of a fibre; zero where there is no fibre. -/
def vregAt (s : State) (id : FibreId) (n : Nat) : VReg := ((fibre? s id).map (·.vreg n)).getD zeroV
/-- Register `sn` of a fibre. -/
def sregAt (s : State) (id : FibreId) (n : Nat) : Word := ((fibre? s id).map (·.sreg n)).getD 0
/-- Predicate `pn` of a fibre. -/
def pregAt (s : State) (id : FibreId) (n : Nat) : BitVec 32 := ((fibre? s id).map (·.preg n)).getD 0
/-- The program counter of a fibre. -/
def pcAt (s : State) (id : FibreId) : Word := ((fibre? s id).map (·.regs.pc)).getD 0

/-- A fibre but for its vector registers, their poison, and what its checkpoints keep of them. -/
def Fibre.sansV (f : Fibre) : Fibre :=
  { f with
    regs := { f.regs with v := Vector.ofFn fun _ => zeroV }, poison := []
    unfin := f.unfin.map fun h => { h with snap := { h.snap with v := Vector.ofFn fun _ => zeroV } } }
/-- Register `vn` in the checkpoints of a fibre (R371). -/
def snapsAt (s : State) (id : FibreId) (n : Nat) : List VReg :=
  ((fibre? s id).map fun g => g.unfin.map fun h => h.snap.v.getD n zeroV).getD []

/-- The vector register that a destination field names: the fibre's own, or its partner's (R127, R142). -/
def destOf (s : State) (f : Fibre) (wd : Bool) (n : Nat) : Option (FibreId × Nat) :=
  if wd then (windowReg s f n).map fun a => (a.1.id, a.2) else some (f.id, n)

/-- Two states differ in their fibres alone. -/
def SameDevice (s t : State) : Prop := t = { s with fibres := t.fibres }

/-! ## A fibre that nothing holds back -/

/-- Nothing but its outstanding results and its own accesses holds the selected fibre back: it is READY, CURRENT or PARKED
(R111), it has no trap, rollback, copy fault or stopping point before it (R373, R376, R415, R450), owes no arrival of a
handler (R176), has no poison (R403), no window that changes (R126), no ladder stands (R377), no link or agent on the way of
an access is down (R423, R426), no commit is under way (R384), its accesses are performed at once, and no shared register
has been written in this cycle (R128). -/
structure Free (s : State) (f : Fibre) : Prop where
  sel      : fibre? s s.cur = some f
  status   : f.status.issues = true
  trap     : f.waitTrap = none
  conflict : f.conflict = false
  faults   : f.copyFaults = []
  going    : stopped s f = false
  owed     : f.owed = []
  poison   : f.poison = []
  shown    : ∀ i a, windowReg s f i = some a → a.1.poison.contains (.v a.2) = false
  window   : ∀ a b n, windowIn s f = some (a, b, n) → a.winWait = false
  level3   : (partn s (partOfCore s f.id.core)).level3 = none
  ladder   : f.escLevel = 0
  rolled   : f.rbnow = 0
  ahead    : s.ahead = false
  held     : s.msys.hru = []
  latest   : s.lag = 0
  cycle    : s.sameCycle = []
  links    : ∀ l ∈ s.links, l.stopped = false
  agents   : s.dev.failed = []
  commits  : ∀ g ∈ s.fibres, g.committing = false

/-- The same, with nothing of the fibre unfinished (R370), in a launch that is not ordered (R381). -/
structure Unheld (s : State) (f : Fibre) : Prop extends Free s f where
  unfin    : f.unfin = []
  moving   : f.moving = []
  plain    : heldMode s f = false

/-- The selected fibre issues at once: nothing holds it back, and no result is outstanding, its own or in registers it
shares (R127, R148). -/
structure Quiet (s : State) (f : Fibre) : Prop extends Unheld s f where
  pend   : f.pend = []
  shared : sharedPending s f = false

/-- The selected fibre issues in an ordered launch, within its quantum (R381, R383): no result is outstanding, and the
quantum has neither its length nor a full undo log with the registers `dests` in it. -/
structure InQuantum (s : State) (f : Fibre) (dests : List RegId) : Prop extends Free s f where
  quantum  : heldMode s f = true
  pend     : f.pend = []
  shared   : sharedPending s f = false
  short    : quantumDue s f = false
  room     : f.qundo.length + newUndo f.qundo dests ≤ 64

/-! ## What an instruction does to registers -/

/-- The selected fibre has retired its instruction and stands at `pc`; `chg` made its other changes. -/
def retiredAs (s : State) (f : Fibre) (pc : Word) (chg : Fibre → Fibre) : State :=
  updFibre s f.id fun g => (chg g).retire pc

/-- A per-lane result (R4, R147): in the lanes of `mask` the destination holds `res`, in the others what it held, in the
checkpoints of a partner too (R126); no other vector register of any fibre changes, the fibre itself is otherwise `after`,
and nothing else of the machine changes but the note of the writes to shared registers (R128). -/
structure WroteLanes (s t : State) (f after : Fibre) (wide wd : Bool) (d : BitVec 7) (mask : BitVec 32)
    (res : Nat → BitVec 64) : Prop where
  value  : ∀ id n l, destOf s f wd d.toNat = some (id, n) → n < 128 → l < 32 →
    lane (vregAt t id n) l = if mask.getLsbD l then (res l).setWidth 32 else lane (vregAt s id n) l
  high   : ∀ id n l, wide = true → destOf s f wd (d.toNat + 1) = some (id, n) → n < 128 → l < 32 →
    lane (vregAt t id n) l = if mask.getLsbD l then (res l).extractLsb' 32 32 else lane (vregAt s id n) l
  kept   : ∀ id n, destOf s f wd d.toNat ≠ some (id, n) → (wide = true → destOf s f wd (d.toNat + 1) ≠ some (id, n)) →
    vregAt t id n = vregAt s id n
  snaps  : ∀ id n, n < 128 → snapsAt t id n = (snapsAt s id n).map fun old =>
    if destOf s f wd d.toNat = some (id, n) then mergeV mask (mkV fun l => (res l).setWidth 32) old
    else if wide = true ∧ destOf s f wd (d.toNat + 1) = some (id, n) then mergeV mask (mkV fun l => (res l).extractLsb' 32 32) old
    else old
  self   : (fibre? t f.id).map Fibre.sansV = some after.sansV
  others : ∀ id, id ≠ f.id → (fibre? t id).map Fibre.sansV = (fibre? s id).map Fibre.sansV
  device : t = { noteShared f (vdstPut wide wd d mask res) s with fibres := t.fibres }

/-- Fibre `f` becomes `g`, and nothing else of the machine changes. -/
structure Became (s t : State) (f g : Fibre) : Prop where
  self   : fibre? t f.id = some g
  others : ∀ id, id ≠ f.id → fibre? t id = fibre? s id
  device : SameDevice s t

/-- A fibre but for its scalar registers. -/
def Fibre.sansS (f : Fibre) : Fibre := { f with regs := { f.regs with s := Vector.ofFn fun _ => 0 } }
/-- A fibre but for its predicates. -/
def Fibre.sansP (f : Fibre) : Fibre := { f with regs := { f.regs with p := Vector.ofFn fun _ => 0 } }

/-- A scalar result: `sd` holds `v`, every other scalar what it held, the fibre is otherwise `after`, and nothing else of
the machine changes. -/
structure WroteScalar (s t : State) (f after : Fibre) (d : BitVec 5) (v : Word) : Prop where
  value  : sregAt t f.id d.toNat = v
  kept   : ∀ n, n ≠ d.toNat → sregAt t f.id n = sregAt s f.id n
  self   : (fibre? t f.id).map Fibre.sansS = some after.sansS
  others : ∀ id, id ≠ f.id → fibre? t id = fibre? s id
  device : SameDevice s t

/-- A predicate result: in the lanes of `mask` predicate `pd` holds `bits`; `p0` discards (R117). -/
structure WrotePred (s t : State) (f after : Fibre) (d : BitVec 3) (mask bits : BitVec 32) : Prop where
  value  : d ≠ 0 → pregAt t f.id d.toNat = (bits &&& mask) ||| (pregAt s f.id d.toNat &&& ~~~mask)
  kept   : ∀ n, n ≠ d.toNat ∨ n = 0 → pregAt t f.id n = pregAt s f.id n
  self   : (fibre? t f.id).map Fibre.sansP = some after.sansP
  others : ∀ id, id ≠ f.id → fibre? t id = fibre? s id
  device : SameDevice s t

/-- A variable-latency result (R148): the instruction has retired, and the result is outstanding with its pending bits. -/
def Owes (s t : State) (f : Fibre) (pc : Word) (p : Pend) : Prop := Became s t f { f.retire pc with pend := [p] }

/-- The address after a word of `n` bytes. -/
def Fibre.past (f : Fibre) (n : Nat) : Word := f.regs.pc + BitVec.ofNat 64 n

/-! ## Instructions of one shape -/

/-- The two-operand group of 8 bytes (R185, R186). -/
def twoOperand8 : List ((OpV8 → Instr) × BinOp) :=
  [(.iadd8, .add), (.isub8, .sub), (.imul8, .mul), (.imulhi8, .mulhi), (.imin8, .min), (.imax8, .max), (.shl8, .shl),
    (.shr8, .shr), (.rot8, .rot), (.and8, .and), (.or8, .or), (.xor8, .xor)]
/-- The two-operand group of 12 bytes (R185, R186). -/
def twoOperand12 : List ((OpV12 → Instr) × BinOp) :=
  [(.iadd12, .add), (.isub12, .sub), (.imul12, .mul), (.imulhi12, .mulhi), (.imin12, .min), (.imax12, .max), (.shl12, .shl),
    (.shr12, .shr), (.rot12, .rot), (.and12, .and), (.or12, .or), (.xor12, .xor)]
/-- The one-operand group (R187). -/
def oneOperand : List ((OpV1 → Instr) × UnOp) :=
  [(.iabs, .abs), (.vnot, .not), (.popc, .popc), (.clz, .clz), (.brev, .brev), (.mov, .mov)]
/-- Scalar instructions of two operands, 8 bytes (R195). -/
def scalar8 : List ((OpS8 → Instr) × BinOp) :=
  [(.sadd8, .add), (.ssub8, .sub), (.smul8, .mul), (.sshl8, .shl), (.sshr8, .shr), (.sand8, .and), (.sor8, .or),
    (.sxor8, .xor), (.smin8, .min), (.smax8, .max)]
/-- Scalar instructions of two operands, 12 bytes (R195). -/
def scalar12 : List ((OpS12 → Instr) × BinOp) :=
  [(.sadd12, .add), (.ssub12, .sub), (.smul12, .mul), (.sshl12, .shl), (.sshr12, .shr), (.sand12, .and), (.sor12, .or),
    (.sxor12, .xor), (.smin12, .min), (.smax12, .max)]

/-! ## Floating results -/

/-- A state after the trap that an instruction raised with its results, if it raised one. -/
def thenTrap (id : FibreId) (r : Option Trap) (u : State) : State :=
  match r with
  | none => u
  | some k => raiseTrap id k u

/-- The lanes of `act` that are written: those that are not faulting (R72). -/
def soundLanes (f : Fibre) (act : BitVec 32) (res : Nat → LaneRes) : BitVec 32 := act &&& ~~~(faultMask act f.en res)

/-- A float result of fixed latency (R70, R72): the lanes that are not faulting are written and raise their flags; a
faulting lane makes the fibre take the arithmetic trap. -/
def FixedFloat (s t : State) (f : Fibre) (i : Instr) (pc : Word) (wide wd : Bool) (d : BitVec 7) (act : BitVec 32)
    (res : Nat → LaneRes) : Prop :=
  ∃ u, WroteLanes s u f ((f.raise (raisedFlags (soundLanes f act res) res)).retire pc) wide wd d (soundLanes f act res)
      (fun l => (res l).bits) ∧
    t = thenTrap f.id (arithTrap i f act res) u

/-- A float result of variable latency (R72, R148): its writes, flags and trap are outstanding. -/
def LateFloat (s t : State) (f : Fibre) (i : Instr) (pc : Word) (wide wd : Bool) (d : BitVec 7) (act : BitVec 32)
    (res : Nat → LaneRes) : Prop :=
  Owes s t f pc
    ⟨f.seq, .xflags :: vdstNames wide wd d,
      some (vdstPut wide wd d (soundLanes f act res) fun l => (res l).bits), raisedFlags (soundLanes f act res) res,
      arithTrap i f act res, true⟩

/-- Float instructions of two operands, as functions of the instruction, FTZ and what a lane of A and B reads. -/
def floatTwo : List ((OpF2 → Instr) × (OpF2 → Fmt → Bool → BitVec 64 → BitVec 64 → LaneRes)) :=
  [(.fadd, fun x F z a b => (faddV F x.rnd z (readF F z a) (readF F z b)).lane),
    (.fsub, fun x F z a b => (faddV F x.rnd z (readF F z a) (readF F z b).negate).lane),
    (.fmul, fun x F z a b => (fmulV F x.rnd z (readF F z a) (readF F z b)).lane),
    (.fmin, fun _ F z a b => (fminV F false (readF F z a) (readF F z b)).lane),
    (.fmax, fun _ F z a b => (fminV F true (readF F z a) (readF F z b)).lane),
    (.fcpsgn, fun _ F _ a b => ⟨(a &&& ~~~(signMask F)) ||| (b &&& signMask F), 0⟩)]

/-- Float instructions of three operands: what is done to A, B and C before A × B + C is formed and rounded once. -/
def floatThree : List ((OpF3 → Instr) × (FV → FV → FV → FV × FV × FV)) :=
  [(.ffma, fun a b c => (a, b, c)), (.ffms, fun a b c => (a, b, c.negate)), (.fnfma, fun a b c => (a.negate, b, c))]

/-- Float instructions of one operand and fixed latency. -/
def floatOne : List ((OpF1 → Instr) × (OpF1 → Fmt → Bool → BitVec 64 → LaneRes)) :=
  [(.fabs, fun _ F _ a => ⟨BitVec.ofNat 64 (a &&& ~~~(signMask F)).toNat, 0⟩),
    (.fneg, fun _ F _ a => ⟨BitVec.ofNat 64 (a ^^^ signMask F).toNat, 0⟩),
    (.frint, fun x F z a => (frintV F x.rnd (readF F z a)).lane)]

/-- The special functions (R203, R204). -/
def floatSpecial : List ((OpF1 → Instr) × (OpF1 → Fmt → Bool → BitVec 64 → LaneRes)) :=
  [(.frcp, fun x F z a => (frcpV F x.rnd z (readF F z a)).lane),
    (.fsqrt, fun x F z a => (fsqrtV F x.rnd z (readF F z a)).lane),
    (.frsqrt, fun _ F z a => (specialV .rsqrt 0x61 F z a).lane),
    (.fexp2, fun _ F z a => (specialV .exp2 0x63 F z a).lane),
    (.flog2, fun _ F z a => (specialV .log2 0x64 F z a).lane),
    (.fsin, fun _ F z a => (specialV .sin 0x65 F z a).lane),
    (.fcos, fun _ F z a => (specialV .cos 0x66 F z a).lane)]

/-- Combinations across lanes (R205): the step made with each further active lane. -/
def floatAcross : List ((OpF1 → Instr) × (OpF1 → Fmt → Bool → FV → FV → FRes)) :=
  [(.fsum, fun x F z a b => faddV F x.rnd z a b), (.flmax, fun _ F _ a b => fminV F true a b),
    (.flmin, fun _ F _ a b => fminV F false a b)]

/-- A cross-lane result (R206): one value for every active lane, or, with a faulting lane, nothing but the trap. -/
def AcrossLanes (s t : State) (f : Fibre) (i : Instr) (pc : Word) (wide wd : Bool) (d : BitVec 7) (act : BitVec 32)
    (v : BitVec 64) (flags : Nat → BitVec 32) : Prop :=
  Owes s t f pc (match arithTrap i f act fun l => ⟨0, flags l⟩ with
    | none => ⟨f.seq, .xflags :: vdstNames wide wd d, some (vdstPut wide wd d act fun _ => v),
        raisedFlags act fun l => ⟨0, flags l⟩, none, true⟩
    | some r => ⟨f.seq, .xflags :: vdstNames wide wd d, some [], 0, some r, true⟩)

/-- A fibre whose stream counter has moved on by `n`, where the rounding is `.sr` (R66). -/
def Fibre.streamed (f : Fibre) (rnd : Rnd) (j : BitVec 4) (n : Nat) : Fibre :=
  if rnd = .sr then
    { f with regs := { f.regs with
      s := f.regs.s.setIfInBounds (streamRegs j).2 (f.sreg (streamRegs j).2 + BitVec.ofNat 64 n) } }
  else f

/-- A conversion of variable latency (R66, R148, R198): its result is outstanding, and its stream has moved on. -/
def Converts (s t : State) (f : Fibre) (i : Instr) (pc : Word) (wide wd : Bool) (d : BitVec 7) (act : BitVec 32) (rnd : Rnd)
    (j : BitVec 4) (n : Nat) (res : Nat → LaneRes) : Prop :=
  Became s t f { (f.streamed rnd j n).retire pc with pend :=
    [⟨f.seq, .xflags :: vdstNames wide wd d,
      some (vdstPut wide wd d (soundLanes f act res) fun l => (res l).bits), raisedFlags (soundLanes f act res) res,
      arithTrap i f act res, true⟩] }

/-- What a stream gives for lane `l` of a conversion (R66). -/
def streamBits (f : Fibre) (rnd : Rnd) (j : BitVec 4) (l : Nat) : Nat := if rnd = .sr then streamWord f j l else 0

/-! ## Operations and traps -/

/-- What is left of an instruction whose operation has been performed (R148, R370): it retires, its result `ws` outstanding
where it has one; `dests` are noted in the undo log of each access the fibre has left unfinished (R372; a quiet fibre has
none); and the fibre's next instruction may be bound to a released copy (R329). -/
def afterOp (f : Fibre) (pc : Word) (dests marks : List RegId) (ws : List RegWrite) (follow : Option Nat) (s : State) : State :=
  updFibre s f.id fun g =>
    { Fibre.owe ⟨f.seq, marks, some ws, 0, none, false⟩ ((g.reserve false dests).retire pc) with follow := follow }

/-- The fibre waits at its instruction: nothing but `chg` of it changes. -/
def Waits (s t : State) (f : Fibre) (chg : Fibre → Fibre) : Prop := Became s t f (chg f)

/-- The translations that an instruction used are cached, those that no TLB held after a walk (R242). -/
def cached (f : Fibre) (fills : List TlbEntry) (s : State) : State :=
  fills.foldl (fun s e => useTlb f.id.core (partOfCore s f.id.core) e s) s

/-- A trap is entered (R399): where it goes, what the trap registers hold, the level, and that nothing else changes but the
launch's NFAULT. -/
structure Entered (s t : State) (f : Fibre) (r : Trap) (target : Word) (user : Bool) : Prop where
  pc     : pcAt t f.id = target
  level  : ∀ g, fibre? t f.id = some g → g.regs.level = (if user then 1 else 2) ∧
    g.regs.back = (if user then 0 else f.regs.level) ∧ g.status = .ready
  regs   : ∀ g, fibre? t f.id = some g → g.regs.t =
    { r.regs with tcause := r.regs.tcause ||| (if f.regs.level = 1 then 0x400 else 0) ||| (if user then 0 else 0x800) }
  vector : ∀ n, vregAt t f.id n = vregAt s f.id n
  scalar : ∀ n, sregAt t f.id n = sregAt s f.id n
  pred   : ∀ n, pregAt t f.id n = pregAt s f.id n
  kept   : ∀ g, fibre? t f.id = some g → g.regs.em = f.regs.em ∧ g.regs.xflags = f.regs.xflags ∧ g.regs.xen = f.regs.xen ∧
    g.regs.ext = f.regs.ext ∧ g.regs.unit0 = f.regs.unit0 ∧ g.regs.lclock = f.regs.lclock ∧ g.window = f.window ∧
    g.escthr = f.escthr
  rest   : ∃ regs, fibre? t f.id =
    some { f with regs := regs, status := .ready, readySince := s.clock, waitTrap := none, follow := none, winWait := false }
  others : ∀ id, id ≠ f.id → fibre? t id = fibre? s id
  counted : t.launches = updIf (fun L => L.id == f.launch) (fun L => { L with nfault := L.nfault + 1 }) s.launches
  device : t = { s with fibres := t.fibres, launches := t.launches }

/-! ## Accesses of one shape -/

/-- How an access instruction reads its operands: what it refuses, the elements it names with their checks, and the
registers its result goes to. -/
structure AccForm where
  h       : Hdr
  len     : Nat
  /-- Acts once for the fibre (R147). -/
  uniform : Bool
  refused : State → Fibre → Bool
  checks  : State → Fibre → BitVec 32 → List (Nat × Word × LaneChk)
  dests   : List RegId
  /-- Its hint (R146). -/
  hint    : Hint

/-- The lanes in which an access executes. -/
def AccForm.mask (x : AccForm) (f : Fibre) : BitVec 32 := if x.uniform then guardMask f x.h else activeMask f x.h

/-- A load: element size, sign extension, and where the values go. -/
structure LoadForm extends AccForm where
  size   : Nat
  signed : Bool
  dest   : Dest

/-- A load of one element a lane (R253). -/
def laneLoad (h : Hdr) (len : Nat) (hint : Hint) (k : AccKind) (ty : IntTy) (wd : Bool) (d : BitVec 7) (a : AddrArg) : LoadForm :=
  { h := h, len := len, uniform := false, hint := hint
    refused := fun s f => a.bad s f || vdstBad s f (IntTy.wide ty) wd d
    checks := fun s f m => (lanesOf m).map fun l => (l, a.check s f k true (tyBytes ty) 0 l)
    dests := vdstNames (IntTy.wide ty) wd d
    size := tyBytes ty, signed := !ty.unsigned, dest := .vec wd d.toNat (IntTy.wide ty) }
/-- A load of a register block (R253). -/
def blockLoad (h : Hdr) (len : Nat) (hint : Hint) (cnt : BlkCount) (wd : Bool) (d : BitVec 7) (a : Opnd) (disp : Int) : LoadForm :=
  let n := BlkCount.regs cnt
  { h := h, len := len, uniform := false, hint := hint
    refused := fun s f => scaBad a || d.toNat % n != 0 || (List.range n).any fun j => vdstBad s f false wd (d + BitVec.ofNat 7 j)
    checks := fun s f m => blkChecks s f .load n (ptrAdd (f.sreg a.num.toNat) disp) m
    dests := (List.range n).flatMap fun j => vdstNames false wd (d + BitVec.ofNat 7 j)
    size := 4, signed := false, dest := .blk wd d.toNat }
/-- A scalar load (R253). -/
def scalarLoad (h : Hdr) (len : Nat) (hint : Hint) (ty : IntTy) (d : BitVec 5) (a : Opnd) (disp : Int) : LoadForm :=
  { h := h, len := len, uniform := true, hint := hint
    refused := fun _ _ => scaBad a
    checks := fun s f _ =>
      [(0, ptrAdd (f.sreg a.num.toNat) disp, checkBytes s (ctxOf s f) .load (tyBytes ty) (ptrAdd (f.sreg a.num.toNat) disp))]
    dests := [.s d.toNat], size := tyBytes ty, signed := !ty.unsigned, dest := .sca d.toNat }

/-- The loads (R247, R253): of global memory, of the own and of the cluster's scratchpads, and of constant pages; of
register blocks; of scalars. -/
def loadForm : Instr → Option LoadForm
  | .ld8 x => some (laneLoad x.h 8 x.hint .load x.ty x.wd x.d (arg8 .ptr x.a))
  | .ld12 x => some (laneLoad x.h 12 x.hint .load x.ty x.wd x.d (arg12 .ptr x.a x.c x.disp))
  | .ld16 x => some (laneLoad x.h 16 x.hint .load x.ty x.wd x.d (arg16 .ptr x.a x.c x.disp))
  | .lds8 x => some (laneLoad x.h 8 x.hint .load x.ty x.wd x.d (arg8 .own x.a))
  | .lds12 x => some (laneLoad x.h 12 x.hint .load x.ty x.wd x.d (arg12 .own x.a x.c x.disp))
  | .lds16 x => some (laneLoad x.h 16 x.hint .load x.ty x.wd x.d (arg16 .own x.a x.c x.disp))
  | .ldr8 x => some (laneLoad x.h 8 x.hint .load x.ty x.wd x.d (arg8 .cluster x.a))
  | .ldr12 x => some (laneLoad x.h 12 x.hint .load x.ty x.wd x.d (arg12 .cluster x.a x.c x.disp))
  | .ldr16 x => some (laneLoad x.h 16 x.hint .load x.ty x.wd x.d (arg16 .cluster x.a x.c x.disp))
  | .ldc8 x => some (laneLoad x.h 8 x.hint .const x.ty x.wd x.d (arg8 .ptr x.a))
  | .ldc12 x => some (laneLoad x.h 12 x.hint .const x.ty x.wd x.d (arg12 .ptr x.a x.c x.disp))
  | .ldc16 x => some (laneLoad x.h 16 x.hint .const x.ty x.wd x.d (arg16 .ptr x.a x.c x.disp))
  | .ldblk8 x => some (blockLoad x.h 8 x.hint x.cnt x.wd x.d x.a 0)
  | .ldblk12 x => some (blockLoad x.h 12 x.hint x.cnt x.wd x.d x.a (sext 16 x.disp.toNat))
  | .ldblk16 x => some (blockLoad x.h 16 x.hint x.cnt x.wd x.d x.a (sext 48 x.disp.toNat))
  | .ldsc8 x => some (scalarLoad x.h 8 x.hint x.ty x.d x.a 0)
  | .ldsc12 x => some (scalarLoad x.h 12 x.hint x.ty x.d x.a (sext 16 x.disp.toNat))
  | .ldsc16 x => some (scalarLoad x.h 16 x.hint x.ty x.d x.a (sext 48 x.disp.toNat))
  | _ => none

/-- A store: the values of its elements, in their order. -/
structure StoreForm extends AccForm where
  data : State → Fibre → BitVec 32 → List Nat

/-- A store of one element a lane (R253). -/
def laneStore (h : Hdr) (len : Nat) (hint : Hint) (ty : IntTy) (b : Opnd) (a : AddrArg) : StoreForm :=
  let val := fun (s : State) (f : Fibre) (l : Nat) => (readLane s f (IntTy.wide ty) b l).toNat % 256 ^ tyBytes ty
  { h := h, len := len, uniform := false, hint := hint
    refused := fun s f => a.bad s f || vecBad s f (IntTy.wide ty) b
    checks := fun s f m => (lanesOf m).map fun l => (l, a.check s f .store true (tyBytes ty) (val s f l) l)
    dests := [], data := fun s f m => (lanesOf m).map (val s f) }
/-- A store of a register block (R253). -/
def blockStore (h : Hdr) (len : Nat) (hint : Hint) (cnt : BlkCount) (a b : Opnd) (disp : Int) : StoreForm :=
  let n := BlkCount.regs cnt
  let r := b.num.toNat
  { h := h, len := len, uniform := false, hint := hint
    refused := fun _ f => scaBad a || b.cls || b.kind != 0 || b.k != 0 || r % n != 0 || (List.range n).any fun j => !f.present (r + j)
    checks := fun s f m => blkChecks s f .store n (ptrAdd (f.sreg a.num.toNat) disp) m
    dests := []
    data := fun _ f m => (lanesOf m).flatMap fun l => (List.range n).map fun j => (lane (f.vreg (r + j)) l).toNat }
/-- A scalar store (R253). -/
def scalarStore (h : Hdr) (len : Nat) (hint : Hint) (ty : IntTy) (a b : Opnd) (disp : Int) : StoreForm :=
  { h := h, len := len, uniform := true, hint := hint
    refused := fun _ _ => scaBad a || scaBad b
    checks := fun s f _ =>
      [(0, ptrAdd (f.sreg a.num.toNat) disp, checkBytes s (ctxOf s f) .store (tyBytes ty) (ptrAdd (f.sreg a.num.toNat) disp))]
    dests := [], data := fun _ f _ => [(f.sreg b.num.toNat).toNat % 256 ^ tyBytes ty] }

/-- The stores (R247, R253). -/
def storeForm : Instr → Option StoreForm
  | .st8 x => some (laneStore x.h 8 x.hint x.ty x.b (arg8 .ptr x.a))
  | .st12 x => some (laneStore x.h 12 x.hint x.ty x.b (arg12 .ptr x.a x.c x.disp))
  | .st16 x => some (laneStore x.h 16 x.hint x.ty x.b (arg16 .ptr x.a x.c x.disp))
  | .sts8 x => some (laneStore x.h 8 x.hint x.ty x.b (arg8 .own x.a))
  | .sts12 x => some (laneStore x.h 12 x.hint x.ty x.b (arg12 .own x.a x.c x.disp))
  | .sts16 x => some (laneStore x.h 16 x.hint x.ty x.b (arg16 .own x.a x.c x.disp))
  | .str8 x => some (laneStore x.h 8 x.hint x.ty x.b (arg8 .cluster x.a))
  | .str12 x => some (laneStore x.h 12 x.hint x.ty x.b (arg12 .cluster x.a x.c x.disp))
  | .str16 x => some (laneStore x.h 16 x.hint x.ty x.b (arg16 .cluster x.a x.c x.disp))
  | .stblk8 x => some (blockStore x.h 8 x.hint x.cnt x.a x.b 0)
  | .stblk12 x => some (blockStore x.h 12 x.hint x.cnt x.a x.b (sext 16 x.disp.toNat))
  | .stblk16 x => some (blockStore x.h 16 x.hint x.cnt x.a x.b (sext 48 x.disp.toNat))
  | .stsc8 x => some (scalarStore x.h 8 x.hint x.ty x.a x.b 0)
  | .stsc12 x => some (scalarStore x.h 12 x.hint x.ty x.a x.b (sext 16 x.disp.toNat))
  | .stsc16 x => some (scalarStore x.h 16 x.hint x.ty x.a x.b (sext 48 x.disp.toNat))
  | _ => none

/-- An atomic or a reduction (R268, R269): the update, its operands, and the destination of an atomic. -/
structure UpdForm extends AccForm where
  op   : UpdOp
  vals : State → Fibre → BitVec 32 → List (BitVec 64)
  dest : Option Dest

/-- `atom` and `atomf` (R268). -/
def atomForm (h : Hdr) (len : Nat) (hint : Hint) (u : UpdOp) (wd : Bool) (d : BitVec 7) (b : Opnd) (a : AddrArg) : UpdForm :=
  let w := u.bytes == 8
  { h := h, len := len, uniform := false, hint := hint
    refused := fun s f => a.bad s f || vecBad s f w b || vdstBad s f w wd d
    checks := fun s f m => (lanesOf m).map fun l => (l, a.check s f .atom false u.bytes 0 l)
    dests := vdstNames w wd d, op := u, vals := fun s f m => atomVals s f u.isFloat u.bytes b m, dest := some (.vec wd d.toNat w) }
/-- `red` and `redf` (R269). -/
def redForm (h : Hdr) (len : Nat) (hint : Hint) (u : UpdOp) (b : Opnd) (a : AddrArg) : UpdForm :=
  { h := h, len := len, uniform := false, hint := hint
    refused := fun s f => a.bad s f || vecBad s f (u.bytes == 8) b
    checks := fun s f m => (lanesOf m).map fun l => (l, a.check s f (.red u) false u.bytes 0 l)
    dests := [], op := u, vals := fun s f m => atomVals s f u.isFloat u.bytes b m, dest := none }

/-- The atomics and reductions but for `atomcas` (R268, R269). -/
def updForm : Instr → Option UpdForm
  | .atom8 x => some (atomForm x.h 8 x.hint (.int x.op) x.wd x.d x.b (arg8 .ptr x.a))
  | .atom12 x => some (atomForm x.h 12 x.hint (.int x.op) x.wd x.d x.b (arg12 .ptr x.a x.c x.disp))
  | .atom16 x => some (atomForm x.h 16 x.hint (.int x.op) x.wd x.d x.b (arg16 .ptr x.a x.c x.disp))
  | .atomf8 x => some (atomForm x.h 8 x.hint (.flt x.op) x.wd x.d x.b (arg8 .ptr x.a))
  | .atomf12 x => some (atomForm x.h 12 x.hint (.flt x.op) x.wd x.d x.b (arg12 .ptr x.a x.c x.disp))
  | .atomf16 x => some (atomForm x.h 16 x.hint (.flt x.op) x.wd x.d x.b (arg16 .ptr x.a x.c x.disp))
  | .red8 x => some (redForm x.h 8 x.hint (.int x.op) x.b (arg8 .ptr x.a))
  | .red12 x => some (redForm x.h 12 x.hint (.int x.op) x.b (arg12 .ptr x.a x.c x.disp))
  | .red16 x => some (redForm x.h 16 x.hint (.int x.op) x.b (arg16 .ptr x.a x.c x.disp))
  | .redf8 x => some (redForm x.h 8 x.hint (.flt x.op) x.b (arg8 .ptr x.a))
  | .redf12 x => some (redForm x.h 12 x.hint (.flt x.op) x.b (arg12 .ptr x.a x.c x.disp))
  | .redf16 x => some (redForm x.h 16 x.hint (.flt x.op) x.b (arg16 .ptr x.a x.c x.disp))
  | _ => none

/-- `atomcas` (R268): size, whether it exchanges whatever it finds, operands, compare values. -/
structure CasForm extends AccForm where
  op   : CasOp
  vals : State → Fibre → BitVec 32 → List (BitVec 64)
  cmps : State → Fibre → BitVec 32 → List (BitVec 64)
  dest : Dest

/-- `atomcas` (R268). -/
def casFormOf (h : Hdr) (len : Nat) (hint : Hint) (o : CasOp) (wd : Bool) (d : BitVec 7) (a b c : Opnd) (disp : Int) : CasForm :=
  let n := (CasOp.shape o).1
  let w := n == 8
  { h := h, len := len, uniform := false, hint := hint
    refused := fun s f => AddrArg.bad s f ⟨.ptr, a, none, disp⟩ || vecBad s f w b || (!(CasOp.shape o).2 && vecBad s f w c) ||
      vdstBad s f w wd d
    checks := fun s f m => (lanesOf m).map fun l => (l, AddrArg.check s f ⟨.ptr, a, none, disp⟩ .atom false n 0 l)
    dests := vdstNames w wd d, op := o, vals := fun s f m => atomVals s f false n b m
    cmps := fun s f m => if (CasOp.shape o).2 then (lanesOf m).map fun _ => 0 else atomVals s f false n c m
    dest := .vec wd d.toNat w }
/-- The two forms of `atomcas`. -/
def casForm : Instr → Option CasForm
  | .atomcas12 x => some (casFormOf x.h 12 x.hint x.op x.wd x.d x.a x.b x.c (sext 16 x.disp.toNat))
  | .atomcas16 x => some (casFormOf x.h 16 x.hint x.op x.wd x.d x.a x.b x.c (sext 48 x.disp.toNat))
  | _ => none

/-! ## Barriers (R176) -/

/-- Phase `ph` of a barrier is complete: every member has arrived at it or has exited, a saved one neither, and every copy
registered on it has arrived; some member is left to see it. -/
def PhaseComplete (members : List Fibre) (b : Barrier) (ph : Nat) : Prop :=
  (∃ g ∈ members, g.left = false ∧ g.status ≠ .saved ∧ ph ≤ arrivedAt g b.lvl b.num) ∧
    (∀ g ∈ members, g.left = true ∨ (g.status ≠ .saved ∧ ph ≤ arrivedAt g b.lvl b.num)) ∧ ∀ c ∈ b.copies, c.1 ≠ ph

/-- A fibre waits on phase `ph` of a barrier. -/
def WaitsOn (g : Fibre) (lvl : BarLevel) (num ph : Nat) : Prop := ∃ a b, g.status = .barrier lvl num ph a b

/-- The barrier that a fibre names is at rest: it is kept by its block or launch, its next phase is not complete, no two fibres
stand at one place, its members are resident or saved, and none waits on a phase that is complete. -/
structure BarrierRests (s : State) (f : Fibre) (lvl : BarLevel) (num : Nat) : Prop where
  kept   : if BarLevel.wide lvl then (launch? s f.launch).isSome = true else (blockOf s f).isSome = true
  apart  : ∀ g ∈ s.fibres, fibre? s g.id = some g
  here   : ∀ g ∈ barMembers s f lvl, g ∈ s.fibres ∨ g.status = .saved
  next   : ¬ PhaseComplete (barMembers s f lvl) (barOf s f lvl num) ((barOf s f lvl num).done + 1)
  waits  : ∀ g ∈ barMembers s f lvl, ∀ ph, WaitsOn g lvl num ph → (barOf s f lvl num).done < ph

/-! ## What accesses leave -/

/-- A fibre after its own writes: it is what it was, but that a write ends a wait for its line, which the fibre is in or was frozen
in (R174). -/
structure OwnMet (f g : Fibre) : Prop where
  rest   : g = { f with status := g.status, readySince := g.readySince, regs := { f.regs with frozen := g.regs.frozen } }
  status : (g.status = f.status ∧ g.readySince = f.readySince) ∨ ((∃ pa, f.status = .line pa) ∧ g.status = .ready)
  frozen : g.regs.frozen = f.regs.frozen ∨ ((∃ pa, f.regs.frozen = .line pa) ∧ g.regs.frozen = .ready)

/-- What an access leaves before its events: its translations are cached (R242), its lines ranked by its hint (R146), and
its traffic counted on the links that it crosses (R422). -/
def prepared (f : Fibre) (hint : Hint) (accs : List LaneAcc) (fills : List TlbEntry) (s : State) : State :=
  crossLinks (rankLines hint accs (cached f fills s)) f accs

/-- What another operation of a fibre leaves before its events: its translations are cached (R242), and its traffic to the
addresses that it reaches is counted on the links that it crosses (R422). -/
def reaching (f : Fibre) (o : DevOp) (fills : List TlbEntry) (s : State) : State :=
  crossTo (cached f fills s) f (o.addrs (cached f fills s) f)

/-- The byte that elements with their values store to a device address: of the last element, in order, that covers it. -/
def storedDev (xs : List (LaneAcc × Nat)) (a : Nat) : Option Byte :=
  xs.foldl (fun acc x => x.1.parts.foldl (fun acc q => match q.loc with
    | .dev pa => if pa ≤ a ∧ a < pa + q.len then some (BitVec.ofNat 8 (x.2 / 256 ^ q.off / 256 ^ (a - pa))) else acc
    | .scr _ _ => acc) acc) none
/-- The same of a scratchpad byte. -/
def storedScr (xs : List (LaneAcc × Nat)) (c a : Nat) : Option Byte :=
  xs.foldl (fun acc x => x.1.parts.foldl (fun acc q => match q.loc with
    | .dev _ => acc
    | .scr k o => if k = c ∧ o ≤ a ∧ a < o + q.len then some (BitVec.ofNat 8 (x.2 / 256 ^ q.off / 256 ^ (a - o))) else acc)
    acc) none

/-- No byte of memory or of a scratchpad changes. -/
def SameMemory (s t : State) : Prop :=
  (∀ a, homeByte t.msys a = homeByte s.msys a) ∧ ∀ c a, scrByte t c a = scrByte s c a

/-- The registers and the pc of every fibre are what they were. -/
def SameRegisters (s t : State) : Prop :=
  ∀ id, (∀ n, vregAt t id n = vregAt s id n) ∧ (∀ n, sregAt t id n = sregAt s id n) ∧ (∀ n, pregAt t id n = pregAt s id n) ∧
    pcAt t id = pcAt s id

/-- The registers and the pc of every other fibre are what they were. -/
def SameOthers (s t : State) (f : Fibre) : Prop :=
  ∀ id, id ≠ f.id → (∀ n, vregAt t id n = vregAt s id n) ∧ (∀ n, sregAt t id n = sregAt s id n) ∧
    (∀ n, pregAt t id n = pregAt s id n) ∧ pcAt t id = pcAt s id

/-- The partials that stores leave: those of the elements of Commutative pages they name are gone (R237). -/
def partialsAfter (accs : List LaneAcc) (ps : List Partial) : List Partial :=
  ps.filter fun p => accs.all fun a => a.parts.all fun q => match q.loc, q.kind with
    | .dev pa, .comm _ _ => p.pa != pa
    | _, _ => true

/-- The line of a register at an offset of a partition's page is written: a fibre that waits for it meets the write (R174, R437). -/
def metWrite (s : State) (p off : Nat) (t : State) : State :=
  noteWrite none none (none, (s.dev.devid.toNat * 2 ^ 44 + 0xF * 2 ^ 40 + p * 2 ^ 20 + off) / 64) t

end Sys2Proof.Machine
end

