-- ==== Sys2Proof/Certificates/Slice0/Obligations.lean ====
section
/-! DEFINITION. The statements for the provers. Each docstring names the rules of spec/ that its statement formalises. -/

open Sys2Proof Sys2Proof.Machine

/-! ## Vector integer instructions -/

/-- R184 to R187: an integer word of one or two operands writes, in its active lanes, the result of its operation on
what the lanes of its operands read, or on IMM16 extended by type, and changes nothing else but the pc. -/
def Obligations.LaneOperations : Prop :=
  (∀ p ∈ twoOperand8, ∀ (x : OpV8) (s : State) (f : Fibre), Quiet s f →
    vecBad s f (IntTy.wide x.ty) x.a = false → vecBad s f (IntTy.wide x.ty) x.b = false →
    vdstBad s f (IntTy.wide x.ty) x.wd x.d = false → activeMask f x.h ≠ 0 →
    ∃ t, exec (p.1 x) s = .next t ∧
      WroteLanes s t f (f.retire (f.past 8)) (IntTy.wide x.ty) x.wd x.d (activeMask f x.h) fun l =>
        binOp p.2 x.ty x.sat (readLane s f (IntTy.wide x.ty) x.a l) (readLane s f (IntTy.wide x.ty) x.b l)) ∧
  (∀ p ∈ twoOperand12, ∀ (x : OpV12) (s : State) (f : Fibre), Quiet s f →
    vecBad s f (IntTy.wide x.ty) x.a = false → vdstBad s f (IntTy.wide x.ty) x.wd x.d = false → activeMask f x.h ≠ 0 →
    ∃ t, exec (p.1 x) s = .next t ∧
      WroteLanes s t f (f.retire (f.past 12)) (IntTy.wide x.ty) x.wd x.d (activeMask f x.h) fun l =>
        binOp p.2 x.ty x.sat (readLane s f (IntTy.wide x.ty) x.a l) (immOf x.ty x.imm)) ∧
  ∀ p ∈ oneOperand, ∀ (x : OpV1) (s : State) (f : Fibre), Quiet s f →
    vecBad s f (IntTy.wide x.ty) x.a = false → vdstBad s f (IntTy.wide x.ty) x.wd x.d = false → activeMask f x.h ≠ 0 →
    ∃ t, exec (p.1 x) s = .next t ∧
      WroteLanes s t f (f.retire (f.past 8)) (IntTy.wide x.ty) x.wd x.d (activeMask f x.h) fun l =>
        unOp p.2 x.ty x.sat (readLane s f (IntTy.wide x.ty) x.a l)

/-- R188, R191, R192, R194: the lane forms of three inputs, lane index, bit fields, select, scaled address, generator
and immediate. -/
def Obligations.LaneForms : Prop :=
  (∀ (x : OpV8) (s : State) (f : Fibre), Quiet s f → vecBad s f (IntTy.wide x.ty) x.a = false →
    vecBad s f (IntTy.wide x.ty) x.b = false → vdstBad s f (IntTy.wide x.ty) x.wd x.d = false → activeMask f x.h ≠ 0 →
    ∃ t, exec (.lidx x) s = .next t ∧ WroteLanes s t f (f.retire (f.past 8)) (IntTy.wide x.ty) x.wd x.d (activeMask f x.h)
      fun l => lidxOp x.ty l (readLane s f (IntTy.wide x.ty) x.a l) (readLane s f (IntTy.wide x.ty) x.b l)) ∧
  (∀ (x : OpV3) (s : State) (f : Fibre), Quiet s f → vecBad s f (IntTy.wide x.ty) x.a = false →
    vecBad s f (IntTy.wide x.ty) x.b = false → vecBad s f (IntTy.wide x.ty) x.c = false →
    vdstBad s f (IntTy.wide x.ty) x.wd x.d = false → activeMask f x.h ≠ 0 →
    ∃ t, exec (.imad x) s = .next t ∧ WroteLanes s t f (f.retire (f.past 12)) (IntTy.wide x.ty) x.wd x.d (activeMask f x.h)
      fun l => imadOp x.ty x.sat (readLane s f (IntTy.wide x.ty) x.a l) (readLane s f (IntTy.wide x.ty) x.b l)
        (readLane s f (IntTy.wide x.ty) x.c l)) ∧
  (∀ (x : OpLop3) (s : State) (f : Fibre), Quiet s f → vecBad s f (IntTy.wide x.ty) x.a = false →
    vecBad s f (IntTy.wide x.ty) x.b = false → vecBad s f (IntTy.wide x.ty) x.c = false →
    vdstBad s f (IntTy.wide x.ty) x.wd x.d = false → activeMask f x.h ≠ 0 →
    ∃ t, exec (.lop3 x) s = .next t ∧ WroteLanes s t f (f.retire (f.past 12)) (IntTy.wide x.ty) x.wd x.d (activeMask f x.h)
      fun l => lop3Op x.ty x.t (readLane s f (IntTy.wide x.ty) x.a l) (readLane s f (IntTy.wide x.ty) x.b l)
        (readLane s f (IntTy.wide x.ty) x.c l)) ∧
  (∀ (x : OpBfext) (s : State) (f : Fibre), Quiet s f → vecBad s f (IntTy.wide x.ty) x.a = false →
    vdstBad s f (IntTy.wide x.ty) x.wd x.d = false → activeMask f x.h ≠ 0 →
    ∃ t, exec (.bfext x) s = .next t ∧ WroteLanes s t f (f.retire (f.past 12)) (IntTy.wide x.ty) x.wd x.d (activeMask f x.h)
      fun l => bfextOp x.ty x.pos.toNat x.len.toNat (readLane s f (IntTy.wide x.ty) x.a l)) ∧
  (∀ (x : OpBfins) (s : State) (f : Fibre), Quiet s f → vecBad s f (IntTy.wide x.ty) x.a = false →
    vecBad s f (IntTy.wide x.ty) x.b = false → vdstBad s f (IntTy.wide x.ty) x.wd x.d = false → activeMask f x.h ≠ 0 →
    ∃ t, exec (.bfins x) s = .next t ∧ WroteLanes s t f (f.retire (f.past 12)) (IntTy.wide x.ty) x.wd x.d (activeMask f x.h)
      fun l => bfinsOp x.ty x.pos.toNat x.len.toNat (readLane s f (IntTy.wide x.ty) x.a l)
        (readLane s f (IntTy.wide x.ty) x.b l)) ∧
  (∀ (x : OpSel) (s : State) (f : Fibre), Quiet s f → vecBad s f (IntTy.wide x.ty) x.a = false →
    vecBad s f (IntTy.wide x.ty) x.b = false → predBad x.p = false → vdstBad s f (IntTy.wide x.ty) x.wd x.d = false →
    activeMask f x.h ≠ 0 →
    ∃ t, exec (.sel x) s = .next t ∧ WroteLanes s t f (f.retire (f.past 12)) (IntTy.wide x.ty) x.wd x.d (activeMask f x.h)
      fun l => IntTy.ext x.ty (if (f.preg x.p.num.toNat).getLsbD l then readLane s f (IntTy.wide x.ty) x.a l
        else readLane s f (IntTy.wide x.ty) x.b l).toNat) ∧
  (∀ (x : OpAscale) (s : State) (f : Fibre), Quiet s f → vecBad s f x.wide x.a = false → vecBad s f x.wide x.b = false →
    vecBad s f x.wide x.c = false → vdstBad s f x.wide x.wd x.d = false → activeMask f x.h ≠ 0 →
    ∃ t, exec (.ascale x) s = .next t ∧ WroteLanes s t f (f.retire (f.past 12)) x.wide x.wd x.d (activeMask f x.h)
      fun l => ascaleOp x.wide x.s.toNat (readLane s f x.wide x.a l) (readLane s f x.wide x.b l) (readLane s f x.wide x.c l)) ∧
  (∀ (x : OpRng) (s : State) (f : Fibre), Quiet s f → vecBad s f true x.a = false → vecBad s f true x.b = false →
    vdstBad s f x.wide x.wd x.d = false → activeMask f x.h ≠ 0 →
    ∃ t, exec (.rng x) s = .next t ∧ WroteLanes s t f (f.retire (f.past 12)) x.wide x.wd x.d (activeMask f x.h)
      fun l => if x.wide then
          rng (readLane s f true x.a l + if x.step then BitVec.ofNat 64 l else 0) (readLane s f true x.b l)
        else BitVec.ofNat 64 ((rng (readLane s f true x.a l + if x.step then BitVec.ofNat 64 l else 0)
          (readLane s f true x.b l)).toNat % 2 ^ 32)) ∧
  (∀ (x : OpMovi12) (s : State) (f : Fibre), Quiet s f → vdstBad s f (IntTy.wide x.ty) x.wd x.d = false →
    activeMask f x.h ≠ 0 →
    ∃ t, exec (.movi12 x) s = .next t ∧ WroteLanes s t f (f.retire (f.past 12)) (IntTy.wide x.ty) x.wd x.d (activeMask f x.h)
      fun _ => IntTy.ext x.ty (immOf x.ty x.imm).toNat) ∧
  (∀ (x : OpMovi16) (s : State) (f : Fibre), Quiet s f → vdstBad s f (IntTy.wide x.ty) x.wd x.d = false →
    activeMask f x.h ≠ 0 →
    ∃ t, exec (.movi16 x) s = .next t ∧ WroteLanes s t f (f.retire (f.past 16)) (IntTy.wide x.ty) x.wd x.d (activeMask f x.h)
      fun _ => IntTy.ext x.ty x.imm.toNat)

/-- R189, R190: `icmp` and `plop` write their bit of the destination predicate in every active lane and keep the
others. -/
def Obligations.LanePredicates : Prop :=
  (∀ (x : OpCmp8) (s : State) (f : Fibre), Quiet s f → vecBad s f false x.a = false → vecBad s f false x.b = false →
    activeMask f x.h ≠ 0 →
    ∃ t, exec (.icmp8 x) s = .next t ∧ WrotePred s t f (f.retire (f.past 8)) x.d (activeMask f x.h)
      (mkMask fun l => condOp x.c 32 (readLane s f false x.a l) (readLane s f false x.b l))) ∧
  (∀ (x : OpCmp12) (s : State) (f : Fibre), Quiet s f → vecBad s f false x.a = false → activeMask f x.h ≠ 0 →
    ∃ t, exec (.icmp12 x) s = .next t ∧ WrotePred s t f (f.retire (f.past 12)) x.d (activeMask f x.h)
      (mkMask fun l => condOp x.c 32 (readLane s f false x.a l) (immS x.imm))) ∧
  (∀ (x : OpPlop) (s : State) (f : Fibre), Quiet s f → predBad x.a = false → predBad x.b = false → activeMask f x.h ≠ 0 →
    ∃ t, exec (.plop x) s = .next t ∧ WrotePred s t f (f.retire (f.past 8)) x.d (activeMask f x.h)
      (plopOp x.op (f.preg x.a.num.toNat) (f.preg x.b.num.toNat)))

/-- R148, R193: `perm`, `vtos` and `vote` retire with their result outstanding. -/
def Obligations.CrossLane : Prop :=
  (∀ (x : OpV8) (s : State) (f : Fibre), Quiet s f → vecBad s f (IntTy.wide x.ty) x.a = false →
    vecBad s f (IntTy.wide x.ty) x.b = false → vdstBad s f (IntTy.wide x.ty) x.wd x.d = false → activeMask f x.h ≠ 0 →
    ∃ t, exec (.perm x) s = .next t ∧ Owes s t f (f.past 8)
      ⟨f.seq, .xflags :: vdstNames (IntTy.wide x.ty) x.wd x.d,
        some (vdstPut (IntTy.wide x.ty) x.wd x.d (activeMask f x.h) fun l =>
          IntTy.ext x.ty (readLane s f (IntTy.wide x.ty) x.a ((readLane s f (IntTy.wide x.ty) x.b l).toNat % 32)).toNat),
        0, none, false⟩) ∧
  (∀ (x : OpVtos) (s : State) (f : Fibre), Quiet s f → vecBad s f (IntTy.wide x.ty) x.a = false → guardMask f x.h ≠ 0 →
    ∃ t, exec (.vtos x) s = .next t ∧ Owes s t f (f.past 8)
      ⟨f.seq, [.xflags, .s x.d.toNat], some [.s x.d.toNat (IntTy.ext x.ty (readLane s f (IntTy.wide x.ty) x.a 0).toNat)],
        0, none, false⟩) ∧
  (∀ (x : OpVote) (s : State) (f : Fibre), Quiet s f → activeMask f x.h ≠ 0 →
    (x.op = .ballot → predBad x.a = false →
      ∃ t, exec (.vote x) s = .next t ∧ Owes s t f (f.past 8)
        ⟨f.seq, [.xflags, .s x.d.toNat], some [.s x.d.toNat ((f.preg x.a.num.toNat &&& activeMask f x.h).setWidth 64)],
          0, none, false⟩) ∧
    (∀ c, (x.op = .any ∧ c = BprCond.any) ∨ (x.op = .all ∧ c = BprCond.all) → predBad x.a = false →
      ∃ t, exec (.vote x) s = .next t ∧ Owes s t f (f.past 8)
        ⟨f.seq, .xflags :: pdstNames (BitVec.ofNat 3 x.d.toNat),
          some [.p (BitVec.ofNat 3 x.d.toNat).toNat allOnes
            (if predTest c (f.preg x.a.num.toNat) (activeMask f x.h) then allOnes else 0)], 0, none, false⟩) ∧
    (x.op = .uni → vecBad s f false x.a = false →
      ∃ t, exec (.vote x) s = .next t ∧ Owes s t f (f.past 8)
        ⟨f.seq, .xflags :: pdstNames (BitVec.ofNat 3 x.d.toNat),
          some [.p (BitVec.ofNat 3 x.d.toNat).toNat allOnes
            (if uniformLanes (activeMask f x.h) (readLane s f false x.a) then allOnes else 0)], 0, none, false⟩))

/-! ## Scalar instructions -/

/-- R195: scalar words, guard permitting, write one scalar register, or for a comparison one predicate, and nothing
else. -/
def Obligations.ScalarForms : Prop :=
  (∀ p ∈ scalar8, ∀ (x : OpS8) (s : State) (f : Fibre), Quiet s f → scaBad x.a = false → scaBad x.b = false →
    guardMask f x.h ≠ 0 →
    ∃ t, exec (p.1 x) s = .next t ∧ WroteScalar s t f (f.retire (f.past 8)) x.d
      (binOp p.2 x.ty x.sat (f.sreg x.a.num.toNat) (f.sreg x.b.num.toNat))) ∧
  (∀ p ∈ scalar12, ∀ (x : OpS12) (s : State) (f : Fibre), Quiet s f → scaBad x.a = false → guardMask f x.h ≠ 0 →
    ∃ t, exec (p.1 x) s = .next t ∧ WroteScalar s t f (f.retire (f.past 12)) x.d
      (binOp p.2 x.ty x.sat (f.sreg x.a.num.toNat) (immOf x.ty x.imm))) ∧
  (∀ (x : OpDA) (s : State) (f : Fibre), Quiet s f → scaBad x.a = false → guardMask f x.h ≠ 0 →
    ∃ t, exec (.smov8 x) s = .next t ∧ WroteScalar s t f (f.retire (f.past 8)) x.d (f.sreg x.a.num.toNat)) ∧
  (∀ (x : OpSmov12) (s : State) (f : Fibre), Quiet s f → guardMask f x.h ≠ 0 →
    ∃ t, exec (.smov12 x) s = .next t ∧ WroteScalar s t f (f.retire (f.past 12)) x.d (immS x.imm)) ∧
  (∀ (x : OpSmov16) (s : State) (f : Fibre), Quiet s f → guardMask f x.h ≠ 0 →
    ∃ t, exec (.smov16 x) s = .next t ∧ WroteScalar s t f (f.retire (f.past 16)) x.d x.imm) ∧
  (∀ (x : OpCmp8) (s : State) (f : Fibre), Quiet s f → scaBad x.a = false → scaBad x.b = false → guardMask f x.h ≠ 0 →
    ∃ t, exec (.scmp8 x) s = .next t ∧ WrotePred s t f (f.retire (f.past 8)) x.d allOnes
      (if condOp x.c 64 (f.sreg x.a.num.toNat) (f.sreg x.b.num.toNat) then allOnes else 0)) ∧
  (∀ (x : OpCmp12) (s : State) (f : Fibre), Quiet s f → scaBad x.a = false → guardMask f x.h ≠ 0 →
    ∃ t, exec (.scmp12 x) s = .next t ∧ WrotePred s t f (f.retire (f.past 12)) x.d allOnes
      (if condOp x.c 64 (f.sreg x.a.num.toNat) (immS x.imm) then allOnes else 0))

/-! ## Floating point and conversions -/

/-- R72, R199, R200: float arithmetic of two and three operands, minimum, maximum and sign copy. -/
def Obligations.FloatArithmetic : Prop :=
  (∀ p ∈ floatTwo, ∀ (x : OpF2) (s : State) (f : Fibre), Quiet s f → vecBad s f (FTy.wide x.ty) x.a = false →
    vecBad s f (FTy.wide x.ty) x.b = false → vdstBad s f (FTy.wide x.ty) x.wd x.d = false → activeMask f x.h ≠ 0 →
    ∃ t, exec (p.1 x) s = .next t ∧
      FixedFloat s t f (p.1 x) (f.past 8) (FTy.wide x.ty) x.wd x.d (activeMask f x.h) fun l =>
        p.2 x (FTy.fmt x.ty) f.ftz (readLaneF s f (FTy.wide x.ty) x.a l) (readLaneF s f (FTy.wide x.ty) x.b l)) ∧
  (∀ p ∈ floatThree, ∀ (x : OpF3) (s : State) (f : Fibre), Quiet s f → vecBad s f (FTy.wide x.ty) x.a = false →
    vecBad s f (FTy.wide x.ty) x.b = false → vecBad s f (FTy.wide x.ty) x.c = false →
    vdstBad s f (FTy.wide x.ty) x.wd x.d = false → activeMask f x.h ≠ 0 →
    ∃ t, exec (p.1 x) s = .next t ∧
      FixedFloat s t f (p.1 x) (f.past 12) (FTy.wide x.ty) x.wd x.d (activeMask f x.h) fun l =>
        let r := p.2 (readF (FTy.fmt x.ty) f.ftz (readLaneF s f (FTy.wide x.ty) x.a l))
          (readF (FTy.fmt x.ty) f.ftz (readLaneF s f (FTy.wide x.ty) x.b l))
          (readF (FTy.fmt x.ty) f.ftz (readLaneF s f (FTy.wide x.ty) x.c l))
        (ffmaV (FTy.fmt x.ty) x.rnd f.ftz r.1 r.2.1 r.2.2).lane)

/-- R72, R199, R201, R202: sign, rounding to an integer, scaling by a power of two, classification and comparison. -/
def Obligations.FloatForms : Prop :=
  (∀ p ∈ floatOne, ∀ (x : OpF1) (s : State) (f : Fibre), Quiet s f → vecBad s f (FTy.wide x.ty) x.a = false →
    vdstBad s f (FTy.wide x.ty) x.wd x.d = false → activeMask f x.h ≠ 0 →
    ∃ t, exec (p.1 x) s = .next t ∧
      FixedFloat s t f (p.1 x) (f.past 8) (FTy.wide x.ty) x.wd x.d (activeMask f x.h) fun l =>
        p.2 x (FTy.fmt x.ty) f.ftz (readLaneF s f (FTy.wide x.ty) x.a l)) ∧
  (∀ (x : OpF2) (s : State) (f : Fibre), Quiet s f → vecBad s f (FTy.wide x.ty) x.a = false →
    vecBad s f (FTy.wide x.ty) x.b = false → vdstBad s f (FTy.wide x.ty) x.wd x.d = false → activeMask f x.h ≠ 0 →
    ∃ t, exec (.fscale x) s = .next t ∧
      FixedFloat s t f (.fscale x) (f.past 8) (FTy.wide x.ty) x.wd x.d (activeMask f x.h) fun l =>
        (fscaleV (FTy.fmt x.ty) x.rnd f.ftz (readF (FTy.fmt x.ty) f.ftz (readLaneF s f (FTy.wide x.ty) x.a l))
          (sext 32 (readLane s f (FTy.wide x.ty) x.b l).toNat)).lane) ∧
  (∀ (x : OpF1) (s : State) (f : Fibre), Quiet s f → vecBad s f (FTy.wide x.ty) x.a = false →
    vdstBad s f false x.wd x.d = false → activeMask f x.h ≠ 0 →
    ∃ t, exec (.fclass x) s = .next t ∧ WroteLanes s t f (f.retire (f.past 8)) false x.wd x.d (activeMask f x.h) fun l =>
      BitVec.ofNat 64 (2 ^ fclassBit (FTy.fmt x.ty) (readLaneF s f (FTy.wide x.ty) x.a l))) ∧
  (∀ (x : OpFcmp) (s : State) (f : Fibre), Quiet s f → vecBad s f (FTy.wide x.ty) x.a = false →
    vecBad s f (FTy.wide x.ty) x.b = false → activeMask f x.h ≠ 0 →
    let r := fun (l : Nat) => fcmpV x.c (readF (FTy.fmt x.ty) f.ftz (readLaneF s f (FTy.wide x.ty) x.a l))
      (readF (FTy.fmt x.ty) f.ftz (readLaneF s f (FTy.wide x.ty) x.b l))
    let ok := soundLanes f (activeMask f x.h) fun l => ⟨0, (r l).2⟩
    ∃ t u, exec (.fcmp x) s = .next t ∧
      WrotePred s u f ((f.raise (raisedFlags ok fun l => ⟨0, (r l).2⟩)).retire (f.past 8)) x.d ok (mkMask fun l => (r l).1) ∧
      t = thenTrap f.id (arithTrap (.fcmp x) f (activeMask f x.h) fun l => ⟨0, (r l).2⟩) u)

/-- R148, R203, R205, R206, R216: the special functions, and the combinations across lanes. Where R203 states a bound
and no value, the value is a free one (log 7): the statement holds for every choice. -/
def Obligations.FloatLate : Prop :=
  (∀ p ∈ floatSpecial, ∀ (x : OpF1) (s : State) (f : Fibre), Quiet s f → vecBad s f (FTy.wide x.ty) x.a = false →
    vdstBad s f (FTy.wide x.ty) x.wd x.d = false → activeMask f x.h ≠ 0 →
    ∃ t, exec (p.1 x) s = .next t ∧
      LateFloat s t f (p.1 x) (f.past 8) (FTy.wide x.ty) x.wd x.d (activeMask f x.h) fun l =>
        p.2 x (FTy.fmt x.ty) f.ftz (readLaneF s f (FTy.wide x.ty) x.a l)) ∧
  (∀ p ∈ floatAcross, ∀ (x : OpF1) (s : State) (f : Fibre), Quiet s f → vecBad s f (FTy.wide x.ty) x.a = false →
    vdstBad s f (FTy.wide x.ty) x.wd x.d = false → activeMask f x.h ≠ 0 →
    let r := crossFold (FTy.fmt x.ty) (p.2 x (FTy.fmt x.ty) f.ftz)
      (fun l => readF (FTy.fmt x.ty) f.ftz (readLaneF s f (FTy.wide x.ty) x.a l)) (lanesOf (activeMask f x.h))
    ∃ t, exec (p.1 x) s = .next t ∧
      AcrossLanes s t f (p.1 x) (f.past 8) (FTy.wide x.ty) x.wd x.d (activeMask f x.h)
        (BitVec.ofNat 64 (match r.1 with
          | .nan _ _ => nanBits (FTy.fmt x.ty) false
          | y => bitsOf (FTy.fmt x.ty) y))
        fun l => ((r.2.find? fun e => e.1 == l).map (·.2)).getD 0) ∧
  (∀ (x : OpScfind) (s : State) (f : Fibre), Quiet s f → vecBad s f false x.a = false → vdstBad s f false x.wd x.d = false →
    activeMask f x.h ≠ 0 →
    let v := fun (l : Nat) => readF .f32 f.ftz (readLaneF s f false x.a l)
    let e := scaleExp x.dfmt ((lanesOf (activeMask f x.h)).foldl (fun acc l => maxMag acc (v l)) none)
    ∃ t, exec (.scfind x) s = .next t ∧
      AcrossLanes s t f (.scfind x) (f.past 12) false x.wd x.d (activeMask f x.h)
        (BitVec.ofNat 64 (if x.out then encodeF .f32 false 1 (-e) else (e + 15).toNat * 8))
        fun l => if (v l).isSNan then fINVALID else 0)

/-- R66, R198, R209 to R215, R217: conversions, packing, unpacking, scales and bit planes. -/
def Obligations.Conversions : Prop :=
  (∀ (x : OpCvt) (s : State) (f : Fibre), Quiet s f → vecBad s f (Fmt.wide x.sfmt) x.a = false →
    vdstBad s f (Fmt.wide x.dfmt) x.wd x.d = false → activeMask f x.h ≠ 0 →
    ∃ t, exec (.cvt x) s = .next t ∧
      Converts s t f (.cvt x) (f.past 12) (Fmt.wide x.dfmt) x.wd x.d (activeMask f x.h) x.rnd x.stream 32 fun l =>
        let raw := if x.sfmt.isInt then readLane s f (Fmt.wide x.sfmt) x.a l else readLaneF s f (Fmt.wide x.sfmt) x.a l
        let r := convert x.sfmt x.dfmt x.rnd (streamBits f x.rnd x.stream l) x.nsat f.ftz (elemAt x.sfmt raw x.sel.toNat)
        ⟨r.1, r.2⟩) ∧
  (∀ (x : OpPack) (s : State) (f : Fibre), Quiet s f → vecBad s f false x.a = false → vecBad s f false x.b = false →
    vecBad s f false x.c = false → vdstBad s f false x.wd x.d = false → activeMask f x.h ≠ 0 →
    ∃ t, exec (.pack x) s = .next t ∧
      Converts s t f (.pack x) (f.past 12) false x.wd x.d (activeMask f x.h) x.rnd x.stream 64 fun l =>
        let cv := fun (o : Opnd) (n : Nat) =>
          convert .f32 x.dfmt x.rnd (streamBits f x.rnd x.stream (n + l)) x.nsat f.ftz (readLaneF s f false o l)
        let old := BitVec.ofNat 64 ((readLane s f false x.c l).toNat % 2 ^ 32)
        ⟨setElem x.dfmt (setElem x.dfmt old (2 * x.pos.toNat) (cv x.a 0).1.toNat) (2 * x.pos.toNat + 1) (cv x.b 32).1.toNat,
          (cv x.a 0).2 ||| (cv x.b 32).2⟩) ∧
  (∀ (x : OpPk2) (s : State) (f : Fibre), Quiet s f → vecBad s f false x.a = false → vecBad s f false x.b = false →
    vdstBad s f false x.wd x.d = false → activeMask f x.h ≠ 0 →
    ∃ t, exec (.pk2 x) s = .next t ∧ LateFloat s t f (.pk2 x) (f.past 8) false x.wd x.d (activeMask f x.h) fun l =>
      let cv := fun (o : Opnd) =>
        convert .f32 (if x.bf then .bf16 else .f16) x.rnd 0 x.nsat f.ftz (readLaneF s f false o l)
      ⟨BitVec.ofNat 64 ((cv x.a).1.toNat % 2 ^ 16 + (cv x.b).1.toNat % 2 ^ 16 * 2 ^ 16), (cv x.a).2 ||| (cv x.b).2⟩) ∧
  (∀ (x : OpUnpack) (s : State) (f : Fibre), Quiet s f → vecBad s f false x.a = false → vdstBad s f true x.wd x.d = false →
    activeMask f x.h ≠ 0 →
    ∃ t, exec (.unpack x) s = .next t ∧ LateFloat s t f (.unpack x) (f.past 12) true x.wd x.d (activeMask f x.h) fun l =>
      unpackLane x.sfmt f.ftz (readLaneF s f false x.a l) x.pair.toNat) ∧
  (∀ (x : OpUpk2) (s : State) (f : Fibre), Quiet s f → vecBad s f false x.a = false → vdstBad s f true x.wd x.d = false →
    activeMask f x.h ≠ 0 →
    ∃ t, exec (.upk2 x) s = .next t ∧ LateFloat s t f (.upk2 x) (f.past 8) true x.wd x.d (activeMask f x.h) fun l =>
      unpackLane (if x.bf then .bf16 else .f16) f.ftz (readLaneF s f false x.a l) 0) ∧
  (∀ (x : OpScapply) (s : State) (f : Fibre), Quiet s f → vecBad s f false x.a = false → vecBad s f false x.b = false →
    vdstBad s f false x.wd x.d = false → activeMask f x.h ≠ 0 →
    ∃ t, exec (.scapply x) s = .next t ∧ LateFloat s t f (.scapply x) (f.past 12) false x.wd x.d (activeMask f x.h) fun l =>
      (scaleProduct x.sfmt (elemAt x.sfmt (readLaneF s f false x.a l) x.sel.toNat).toNat
        ((readLaneF s f false x.b l).toNat % 256)).lane) ∧
  (∀ (x : OpBpext) (s : State) (f : Fibre), Quiet s f → vecBad s f false x.a = false → vdstBad s f false x.wd x.d = false →
    activeMask f x.h ≠ 0 →
    ∃ t, exec (.bpext x) s = .next t ∧ LateFloat s t f (.bpext x) (f.past 12) false x.wd x.d (activeMask f x.h) fun l =>
      ⟨if x.dir then toBytes x.k.toNat (readLane s f false x.a) l else toPlanes (readLane s f false x.a) l, 0⟩)

/-! ## Control, the fibre itself, traps -/

/-- R139, R165, R171: `nop`, branches and returns write nothing but the pc. -/
def Obligations.Branches : Prop :=
  (∀ p ∈ [(Instr.nop8, 8), (Instr.nop12, 12)], ∀ (x : OpH) (s : State) (f : Fibre), Quiet s f → guardMask f x.h ≠ 0 →
    ∃ t, exec (p.1 x) s = .next t ∧ Became s t f (f.retire (f.past p.2))) ∧
  (∀ (x : OpBr12) (s : State) (f : Fibre), Quiet s f → guardMask f x.h ≠ 0 →
    ∃ t, exec (.bra12 x) s = .next t ∧ Became s t f (f.retire (f.regs.pc + word (4 * sext 16 x.off.toNat)))) ∧
  (∀ (x : OpBr16) (s : State) (f : Fibre), Quiet s f → guardMask f x.h ≠ 0 →
    ∃ t, exec (.bra16 x) s = .next t ∧ Became s t f (f.retire (f.regs.pc + x.off))) ∧
  (∀ c ∈ [Instr.brx, Instr.ret], ∀ (x : OpA) (s : State) (f : Fibre), Quiet s f → scaBad x.a = false → guardMask f x.h ≠ 0 →
    ∃ t, exec (c x) s = .next t ∧ Became s t f (f.retire (f.sreg x.a.num.toNat)))

/-- R165: `call` and `callx` write the address of the following word and go to their target. -/
def Obligations.Calls : Prop :=
  (∀ (x : OpCall12) (s : State) (f : Fibre), Quiet s f → guardMask f x.h ≠ 0 →
    ∃ t, exec (.call12 x) s = .next t ∧
      WroteScalar s t f (f.retire (f.regs.pc + word (4 * sext 16 x.off.toNat))) x.d (f.past 12)) ∧
  (∀ (x : OpCall16) (s : State) (f : Fibre), Quiet s f → guardMask f x.h ≠ 0 →
    ∃ t, exec (.call16 x) s = .next t ∧ WroteScalar s t f (f.retire (f.regs.pc + x.off)) x.d (f.past 16)) ∧
  (∀ (x : OpDA) (s : State) (f : Fibre), Quiet s f → scaBad x.a = false → guardMask f x.h ≠ 0 →
    ∃ t, exec (.callx x) s = .next t ∧ WroteScalar s t f (f.retire (f.sreg x.a.num.toNat)) x.d (f.past 8))

/-- R170: the condition of `bpr` against the active set, and its reserved codes. -/
def Obligations.BranchOnPredicate : Prop :=
  let test := fun (c : BprCond) (p act : BitVec 32) => match c with
    | .any => p &&& act ≠ 0
    | .all => act &&& ~~~p = 0
    | .none => p &&& act = 0
  (∀ (x : OpBpr12) (s : State) (f : Fibre), Quiet s f → predBad x.a = false → guardMask f x.h ≠ 0 →
    ∃ t g, exec (.bpr12 x) s = .next t ∧ Became s t f g ∧
      (test x.c (f.preg x.a.num.toNat) (f.regs.em &&& guardMask f x.h) →
        g = f.retire (f.regs.pc + word (4 * sext 16 x.off.toNat))) ∧
      (¬ test x.c (f.preg x.a.num.toNat) (f.regs.em &&& guardMask f x.h) → g = f.retire (f.past 12))) ∧
  (∀ (x : OpBpr16) (s : State) (f : Fibre), Quiet s f → predBad x.a = false → guardMask f x.h ≠ 0 →
    ∃ t g, exec (.bpr16 x) s = .next t ∧ Became s t f g ∧
      (test x.c (f.preg x.a.num.toNat) (f.regs.em &&& guardMask f x.h) → g = f.retire (f.regs.pc + x.off)) ∧
      (¬ test x.c (f.preg x.a.num.toNat) (f.regs.em &&& guardMask f x.h) → g = f.retire (f.past 16))) ∧
  (∀ p act, (test .all p 0 ∧ test .none p 0 ∧ ¬ test .any p 0) ∧ (act = 0 → test .all p act)) ∧
  (∀ c, BprCond.code c = match c with
    | .any => 0
    | .all => 1
    | .none => 2) ∧
  ∀ r : Raw, r.op = 0x1A → r.len ≠ .b8 → 3 ≤ r.sub.toNat → decodeRaw r = .error .sub

/-- R169: what `emset` makes of `em`, by its SUB, and its reserved codes. -/
def Obligations.MaskSet : Prop :=
  (∀ (x : OpEmset) (s : State) (f : Fibre), Quiet s f → (x.op = .ld → scaBad x.a = false) →
    (x.op ≠ .ld → predBad x.a = false) → guardMask f x.h ≠ 0 →
    ∃ t g, exec (.emset x) s = .next t ∧ Became s t f g ∧
      g = { f.retire (f.past 8) with regs := { (f.retire (f.past 8)).regs with em := g.regs.em } } ∧
      (x.op.code = 0 → g.regs.em = f.preg x.a.num.toNat) ∧
      (x.op.code = 1 → g.regs.em = f.regs.em &&& f.preg x.a.num.toNat) ∧
      (x.op.code = 2 → g.regs.em = f.regs.em &&& ~~~ f.preg x.a.num.toNat) ∧
      (x.op.code = 3 → g.regs.em = (f.sreg x.a.num.toNat).setWidth 32)) ∧
  ∀ r : Raw, r.op = 0x18 → r.len = .b8 → 4 ≤ r.sub.toNat → decodeRaw r = .error .sub

/-- R119, R167, R183: `emget`, `srd` and `swr`. -/
def Obligations.SpecialRegisters : Prop :=
  (∀ (x : OpD) (s : State) (f : Fibre), Quiet s f → guardMask f x.h ≠ 0 →
    ∃ t, exec (.emget x) s = .next t ∧ WroteScalar s t f (f.retire (f.past 8)) x.d (f.regs.em.setWidth 64)) ∧
  (∀ (x : OpSrd) (s : State) (f : Fibre), Quiet s f → guardMask f x.h ≠ 0 →
    (x.num = 0 → vdstBad s f false false x.d = false →
      ∃ t, exec (.srd x) s = .next t ∧
        WroteLanes s t f (f.retire (f.past 8)) false false x.d allOnes fun l => BitVec.ofNat 64 l) ∧
    (x.num = 0x13 → x.d.toNat % 2 = 0 →
      ∃ t, exec (.srd x) s = .next t ∧ Became s t f
        ({ f with regs := { f.regs with
          s := (f.regs.s.setIfInBounds x.d.toNat (f.regs.t.tinst.extractLsb' 0 64)).setIfInBounds (x.d.toNat + 1)
            (f.regs.t.tinst.extractLsb' 64 64) } }.retire (f.past 8))) ∧
    (x.num ≠ 0 → x.num ≠ 0x13 → ∀ d : BitVec 5, x.d.toNat = d.toNat →
      ∃ t, exec (.srd x) s = .next t ∧ WroteScalar s t f (f.retire (f.past 8)) d (srdValue s f x.num.toNat))) ∧
  (∀ (x : OpSwr) (s : State) (f : Fibre), Quiet s f → scaBad x.a = false → guardMask f x.h ≠ 0 →
    let v := (f.sreg x.a.num.toNat).setWidth 32
    ∃ t, exec (.swr x) s = .next t ∧ Became s t f (
      if x.num = 0x18 then { f.retire (f.past 8) with regs := { (f.retire (f.past 8)).regs with xflags := v &&& 0x1F } }
      else if x.num = 0x19 then { f.retire (f.past 8) with regs := { (f.retire (f.past 8)).regs with xen := v &&& 0x1011F } }
      else if x.num = 0x20 then { f.retire (f.past 8) with escthr := v &&& 0xFFFFFF }
      else f.retire (f.past 8)))

/-- R190: the table of `plop`, its unused SB, and its reserved code. -/
def Obligations.PredicateTable : Prop :=
  (∀ (x : OpPlop) (s : State) (f : Fibre), Quiet s f → predBad x.a = false → predBad x.b = false → activeMask f x.h ≠ 0 →
    ∃ t, exec (.plop x) s = .next t ∧ ∀ l < 32, x.d ≠ 0 →
      (pregAt t f.id x.d.toNat).getLsbD l =
        if (activeMask f x.h).getLsbD l then
          (let a := (f.preg x.a.num.toNat).getLsbD l
           let b := (f.preg x.b.num.toNat).getLsbD l
           match x.op.code.toNat with
            | 0 => a && b
            | 1 => a || b
            | 2 => a != b
            | 3 => a && !b
            | 4 => a || !b
            | 5 => !a
            | _ => a)
        else (f.preg x.d.toNat).getLsbD l) ∧
  (∀ r : Raw, r.op = 0x3E → r.len = .b8 → r.sub = 7 → decodeRaw r = .error .sub) ∧
  ∀ (r : Raw) (x : OpPlop), decodeRaw r = .ok (.plop x) → (x.op = .not ∨ x.op = .mov) → r.sb = 0

/-- R112, R171: `yield` and `fsw` retire and hand issue over. -/
def Obligations.HandOver : Prop :=
  (∀ (x : OpH) (s : State) (f : Fibre), Quiet s f → guardMask f x.h ≠ 0 →
    ∃ u, Became s u f (f.retire (f.past 8)) ∧ exec (.yield x) s = .next (handOver f.id none u)) ∧
  (∀ (x : OpFsw) (s : State) (f : Fibre), Quiet s f → guardMask f x.h ≠ 0 →
    ∃ u, Became s u f (f.retire (f.past 8)) ∧ exec (.fsw x) s = .next (handOver f.id (some x.t.toNat) u)) ∧
  (∀ (s : State) (id : FibreId) (want : Option Nat), (∀ g ∈ slotMates s id, g.status ≠ .ready) → handOver id want s = s) ∧
  ∀ (s : State) (id : FibreId) (t : Nat) (g : Fibre), g ∈ slotMates s id → g.id.pos % 4 = t → g.status = .ready →
    (fibre? (handOver id (some t) s) g.id).map (·.status) = some .current

/-- R175, R176: `bar`, `barv` and `barw` on the barrier they name, at rest before: an arrival at an incomplete phase
waits in BARRIER and comes after it, one at the next phase counts, and where it completes the phase every wait on it
ends; `barw` waits for the fibre's last arrival alone. R73: an arrival with OVERFLOW set and enabled traps. That a
handler's arrival is owed until the fibre is back at level 0 is the model's choice (log 49). -/
def Obligations.Barriers : Prop :=
  (∀ p ∈ [(Instr.bar, true, true), (Instr.barv, true, false), (Instr.barw, false, true)],
    ∀ (x : OpBar) (s : State) (f : Fibre), Quiet s f → x.num.toNat < barCount (descOf s f) x.lvl → guardMask f x.h ≠ 0 →
    (p.2.1 = true → f.regs.xen.getLsbD 8 = true → f.regs.xflags.getLsbD 2 = false) →
    exec (p.1 x) s = .next (afterOp f (f.past 8) [] [] [] none (barrierOp f.id x.lvl x.num.toNat p.2.1 p.2.2 s))) ∧
  (∀ (s : State) (f : Fibre) (lvl : BarLevel) (num : Nat) (arrive wait : Bool), fibre? s f.id = some f →
    f.status.issues = true → BarrierRests s f lvl num →
    let b := barOf s f lvl num
    let ph := arrivedAt f lvl num
    let t := barrierOp f.id lvl num arrive wait s
    (f.regs.level = 0 → arrive = true → b.done < ph → Became s t f { f with status := .barrier lvl num ph true wait }) ∧
    (arrive = false → wait = true → b.done < ph → Became s t f { f with status := .barrier lvl num ph false true }) ∧
    (arrive = false → (wait = false ∨ ph ≤ b.done) → t = s) ∧
    (f.regs.level ≠ 0 → arrive = true → Became s t f { f with
      owed := f.owed ++ [(lvl, num)]
      status := if wait = true ∧ b.done < ph then .barrier lvl num ph false true else f.status }) ∧
    (f.regs.level = 0 → arrive = true → ph = b.done →
      let g := { f.arrive lvl num with status := if wait then .barrier lvl num (ph + 1) false true else f.status }
      (((∃ k ∈ barMembers s f lvl, k ≠ f ∧ k.left = false ∧ (k.status = .saved ∨ arrivedAt k lvl num ≤ ph)) ∨
          ∃ c ∈ b.copies, c.1 = ph + 1) → Became s t f g) ∧
      ((∀ k ∈ barMembers s f lvl, k ≠ f → k.left = true ∨ (k.status ≠ .saved ∧ ph < arrivedAt k lvl num)) →
        (∀ c ∈ b.copies, c.1 ≠ ph + 1) →
        barOf t f lvl num = { b with done := ph + 1 } ∧
        fibre? t f.id = some (endWait s.clock (ph + 1) g) ∧
        ∀ k ∈ barMembers s f lvl, k ≠ f → k.status ≠ .saved →
          (WaitsOn k lvl num (ph + 1) → fibre? t k.id = some (endWait s.clock (ph + 1) k)) ∧
          (¬ WaitsOn k lvl num (ph + 1) → fibre? t k.id = some k)))) ∧
  (∀ (f : Fibre) (lvl : BarLevel) (num : Nat), arrivedAt (f.arrive lvl num) lvl num = arrivedAt f lvl num + 1) ∧
  (∀ (clock ph num : Nat) (lvl : BarLevel) (f : Fibre) (arrive again : Bool), f.regs.level = 0 →
    f.status = .barrier lvl num ph arrive again → endWait clock ph f =
      if arrive then
        (if again then { f.arrive lvl num with status := .barrier lvl num (ph + 1) false true }
        else { f.arrive lvl num with status := .ready, readySince := clock })
      else { f with status := .ready, readySince := clock }) ∧
  (∀ c ∈ [Instr.bar, Instr.barv], ∀ (x : OpBar) (s : State) (f : Fibre), Quiet s f →
    x.num.toNat < barCount (descOf s f) x.lvl → guardMask f x.h ≠ 0 → f.regs.xen.getLsbD 8 = true →
    f.regs.xflags.getLsbD 2 = true →
    exec (c x) s = .next (raiseTrap f.id (wordTrap 0x0A (c x) f 0) s)) ∧
  ∀ c ∈ [Instr.bar, Instr.barv, Instr.barw], ∀ (x : OpBar) (s : State) (f : Fibre), Quiet s f →
    barCount (descOf s f) x.lvl ≤ x.num.toNat → exec (c x) s = .next (raiseTrap f.id (illegalTrap (c x) f 8) s)

/-- R177: `tkwait` goes on where every lower block has passed the ticket and waits otherwise; `tkpass` passes it for
the block; both take ILLEGAL, CONTEXT in an ordered launch. -/
def Obligations.Tickets : Prop :=
  (∀ (x : OpTk) (s : State) (f : Fibre) (g : Stage), Quiet s f → isOrdered s f.launch = false →
    stage? s f.launch f.stage = some g → guardMask f x.h ≠ 0 →
    ∃ t, exec (.tkwait x) s = .next t ∧ Became s t f (
      if ticketOpen g f.block x.t.toNat then f.retire (f.past 8)
      else { f.retire (f.past 8) with status := .ticket x.t.toNat, isCur := false })) ∧
  (∀ (x : OpTk) (s : State) (f : Fibre), Quiet s f → isOrdered s f.launch = false → guardMask f x.h ≠ 0 →
    ∃ u, Became s u f (f.retire (f.past 8)) ∧
      exec (.tkpass x) s =
        .next (settleTickets f.launch f.stage (updStage u f.launch f.stage (passTicket f.block x.t.toNat)))) ∧
  (∀ (b t : Nat) (g : Stage), t < 4 → ticketPassed (passTicket b t g) b t = true) ∧
  ∀ c ∈ [Instr.tkwait, Instr.tkpass], ∀ (x : OpTk) (s : State) (f : Fibre), Quiet s f → isOrdered s f.launch = true →
    exec (c x) s = .next (raiseTrap f.id (illegalTrap (c x) f 8) s)

/-- R120 to R122: what `regacq` and `regrel` do in each case, and the REGISTER traps they take (R124). -/
def Obligations.RegisterBlocks : Prop :=
  (∀ (x : OpRegacq) (s : State) (f : Fibre), Quiet s f → guardMask f x.h ≠ 0 →
    let n := 16 * x.n.toNat
    let d := if x.nb then x.d.toNat else 0
    let max := 16 * wfield (descOf s f).storage 6 4
    let older := pendingAcquires s f.id.core (f.id.pos / 16)
    let told := fun (ok : BitVec 32) (r : FRegs) => r.put (.p d allOnes ok)
    let done := f.retire (f.past 8)
    (max < n → exec (.regacq x) s = .next (raiseTrap f.id (registerTrap (.regacq x) f 2 n) s)) ∧
    (n ≤ max → n = f.regs.ext →
      ∃ t, exec (.regacq x) s = .next t ∧ Became s t f { done with regs := told allOnes done.regs }) ∧
    (n ≤ max → n < f.regs.ext → shrinkHitsWindow f n = true →
      exec (.regacq x) s = .next (raiseTrap f.id (registerTrap (.regacq x) f 3 n) s)) ∧
    (n ≤ max → n < f.regs.ext → shrinkHitsWindow f n = false →
      ∃ u, Became s u f { done with regs := { done.regs with ext := n } } ∧
        exec (.regacq x) s = .next (putPred f d allOnes (regrant f.id u))) ∧
    (n ≤ max → f.regs.ext < n → 0 < f.regs.ext → 16 < f.regs.unit0 + n / 16 →
      exec (.regacq x) s = .next (raiseTrap f.id (registerTrap (.regacq x) f 5 n) s)) ∧
    (n ≤ max → f.regs.ext < n → (0 < f.regs.ext → f.regs.unit0 + n / 16 ≤ 16) → ∀ u, older = [] → grantUnits s f n = some u →
      ∃ t, exec (.regacq x) s = .next t ∧ Became s t f { done with regs := told allOnes (done.regs.grow n u) }) ∧
    (n ≤ max → f.regs.ext < n → (0 < f.regs.ext → f.regs.unit0 + n / 16 ≤ 16) → (older ≠ [] ∨ grantUnits s f n = none) →
      (x.nb = true → isOrdered s f.launch = false →
        ∃ t, exec (.regacq x) s = .next t ∧ Became s t f { done with regs := told 0 done.regs }) ∧
      (x.nb = false → ∃ t, exec (.regacq x) s = .next t ∧
        Became s t f { f with acquire := some ⟨n, s.clock, 0, d, wordOf (.regacq x)⟩, status := .acquire, isCur := false }))) ∧
  (∀ (x : OpH) (s : State) (f : Fibre), Quiet s f → guardMask f x.h ≠ 0 →
    (f.regs.ext = 0 → ∃ t, exec (.regrel x) s = .next t ∧ Became s t f (f.retire (f.past 8))) ∧
    (f.regs.ext ≠ 0 → shrinkHitsWindow f 0 = true →
      exec (.regrel x) s = .next (raiseTrap f.id (registerTrap (.regrel x) f 3 0) s)) ∧
    (f.regs.ext ≠ 0 → shrinkHitsWindow f 0 = false →
      ∃ u, Became s u f { f.retire (f.past 8) with regs := { (f.retire (f.past 8)).regs with ext := 0 } } ∧
        exec (.regrel x) s = .next (regrant f.id u))) ∧
  ∀ (f : Fibre) (n : Nat), f.regs.ext ≤ n → f.present (32 + n) = false

/-- R126: `win` declares, replaces or withdraws the fibre's outgoing window, and where it traps. R128: of the writes
of one shared register in one cycle, `c`, that of the lower slot-fibre index stands. That the operand conditions hold
for length 0 too is the model's reading (log 33). -/
def Obligations.Windows : Prop :=
  (∀ p ∈ twoOperand8, ∀ (x : OpV8) (s : State) (f : Fibre) (c : List (FibreId × Nat × Nat × BitVec 32)) (owner : FibreId)
      (n : Nat), Quiet s f → IntTy.wide x.ty = false → vecBad s f false x.a = false → vecBad s f false x.b = false →
    vdstBad s f false x.wd x.d = false → activeMask f x.h ≠ 0 → n < 128 →
    sharedReg s f (if x.wd then .w x.d.toNat allOnes zeroV else .v x.d.toNat allOnes zeroV) = some (owner, n) →
    ∃ t, exec (p.1 x) { s with sameCycle := c } = .next t ∧ ∀ l < 32, lane (vregAt t owner n) l =
      if (activeMask f x.h).getLsbD l = true ∧
          ∀ e ∈ c, e.1 = owner → e.2.1 = n → e.2.2.1 < f.id.pos % 4 → e.2.2.2.getLsbD l = false then
        (binOp p.2 x.ty x.sat (readLane s f false x.a l) (readLane s f false x.b l)).setWidth 32
      else lane (vregAt s owner n) l) ∧
  ∀ (x : OpWin) (s : State) (f : Fibre), Quiet s f → guardMask f x.h ≠ 0 → partnerWrites s f = false →
    (∀ j < x.len.toNat, x.base.toNat + j < 32 + f.regs.ext) → x.partner.toNat ≠ f.id.pos % 4 →
    ∀ g, groupMate s f x.partner.toNat = some g →
    let max := wfield (descOf s f).storage 12 7
    let taken := ∃ a b n, windowIn s g = some (a, b, n) ∧ a.id ≠ f.id
    (max < x.len.toNat → exec (.win x) s = .next (raiseTrap f.id (registerTrap (.win x) f 2 x.len.toNat) s)) ∧
    (x.len.toNat ≤ max → isOrdered s f.launch = true →
      exec (.win x) s = .next (raiseTrap f.id (registerTrap (.win x) f 4 x.len.toNat) s)) ∧
    (x.len.toNat ≤ max → isOrdered s f.launch = false → taken →
      exec (.win x) s = .next (raiseTrap f.id (registerTrap (.win x) f 3 x.len.toNat) s)) ∧
    (x.len.toNat ≤ max → isOrdered s f.launch = false → ¬ taken →
      ∃ t, exec (.win x) s = .next t ∧ Became s t f { f.retire (f.past 12) with
        winWait := false
        window := if x.len = 0 then none else some (x.base.toNat, x.len.toNat, x.partner.toNat) })

/-- R84, R85, R171, R174, R182: `wline`, `launch`, `qend` and `icinv`; what accepting a launch record leaves, and the
code that a rejected one gets. Which instruction lines a core keeps is the model's choice (log 23): the statement says
only which of them go. -/
def Obligations.Launching : Prop :=
  (∀ (x : OpAB) (s : State) (f : Fibre) (accs : List LaneAcc) (fills : List TlbEntry) (pa : Nat), Quiet s f →
    scaBad x.a = false → scaBad x.b = false → guardMask f x.h ≠ 0 →
    combine [(0, f.sreg x.a.num.toNat &&& ~~~7#64,
      checkBytes s (ctxOf s f) .line 8 (f.sreg x.a.num.toNat &&& ~~~7#64))] = .ok accs fills →
    (∃ a b c d e g, accs = [⟨a, b, [⟨c, d, .dev pa, e, g⟩]⟩]) →
    let word : LaneAcc := ⟨0, 0, [⟨0, 8, .dev pa, .strong, 0⟩]⟩
    let r := reaching f (.wline pa (f.sreg x.b.num.toNat)) fills s
    let u := seeRecords f.id [pa / 64] r
    accsPoison r [word] = none →
    (loadValue u (partOfCore s f.id.core) word ≠ f.sreg x.b.num.toNat →
      exec (.wline x) s = .next (afterOp f (f.past 8) [] [] [] none u)) ∧
    (loadValue u (partOfCore s f.id.core) word = f.sreg x.b.num.toNat →
      exec (.wline x) s = .next (afterOp f (f.past 8) [] [] [] none (updFibre u f.id fun g => { g with status := .line pa })))) ∧
  (∀ (x : OpDA) (s : State) (f : Fibre) (accs : List LaneAcc) (fills : List TlbEntry), Quiet s f →
    scaBad x.a = false → guardMask f x.h ≠ 0 →
    combine [(0, f.sreg x.a.num.toNat, checkBytes s (ctxOf s f) .record 128 (f.sreg x.a.num.toNat))] = .ok accs fills →
    let v := reaching f (.launch (BitVec.ofNat 64 (ptrAddr (f.sreg x.a.num.toNat))) (some accs) x.d.toNat) fills s
    accsPoison v accs = none →
    let u := seeRecords f.id (devLines accs) v
    let r := acceptLaunch (partOfCore s f.id.core) (some (((launch? s f.launch).map (·.vf)).getD 0, asidOf s f))
      (ptrAddr (f.sreg x.a.num.toNat)) (natOf (accs.flatMap fun a => a.parts.flatMap (readPart u))) u
    exec (.launch x) s = .next (afterOp f (f.past 8) [.s x.d.toNat] [.s x.d.toNat] [.s x.d.toNat r.2] none r.1)) ∧
  (∀ (p : Nat) (sender : Option (Nat × Nat)) (rec r : Nat) (s : State),
    let cfg := Tab.getD (partn s p).lqcfg (recQueue r) 0
    let differs := ∃ vf asid, sender = some (vf, asid) ∧ (wfield cfg 18 16 ≠ vf ∨ wfield cfg 44 32 ≠ asid)
    (rec % 128 ≠ 0 → judge s p sender rec r = some .align) ∧
    (rec % 128 = 0 → (cfg.getLsbD 7 = false ∨ differs) → judge s p sender rec r = some .qdisabled) ∧
    (rec % 128 = 0 → cfg.getLsbD 7 = true → ¬ differs →
      (recordBad s p r = true → judge s p sender rec r = some .record) ∧
      (recordBad s p r = false → 64 ≤ queueLoad s p (recQueue r) → judge s p sender rec r = some .qfull) ∧
      (recordBad s p r = false → queueLoad s p (recQueue r) < 64 → judge s p sender rec r = none)) ∧
    (∀ e, judge s p sender rec r = some e →
      acceptLaunch p sender rec r s = (s, BitVec.ofNat 64 (2 ^ 63) ||| e.code)) ∧
    (judge s p sender rec r = none → p < 8 → ∃ t L, acceptLaunch p sender rec r s = (t, L.id) ∧
      t = { s with launches := s.launches ++ [L], parts := t.parts } ∧ (∀ q, q ≠ p → partn t q = partn s q) ∧
      (partn t p).accepts = (partn s p).accepts + 1 ∧
      L.id = BitVec.ofNat 64 (p * 2 ^ 60 + recQueue r * 2 ^ 50 + (Tab.getD (partn s p).qseq (recQueue r) 0 + 1) % 2 ^ 50) ∧
      L.part = p ∧ L.queue = recQueue r ∧ L.asid = wfield cfg 44 32 ∧ L.vf = wfield cfg 18 16 ∧
      L.accept = (partn s p).accepts ∧ L.phase = .queued ∧ L.nfault = 0 ∧ L.ctl = recCtl r ∧
      L.clusters = BitVec.ofNat 32 (field r 287 256) ∧ L.stagetab = BitVec.ofNat 64 (field r 447 384) ∧
      L.tag = BitVec.ofNat 64 (field r 511 448) ∧
      (∀ j < 8, L.args.getD j 0 = BitVec.ofNat 64 (field r (575 + 64 * j) (512 + 64 * j))) ∧
      L.stages = if recStages r = 1 then [Stage.init (BitVec.ofNat 64 (field r 63 0)) (recBlocks r)] else [])) ∧
  (∀ (x : OpH) (s : State) (f : Fibre), Quiet s f → guardMask f x.h ≠ 0 →
    ∃ t, exec (.qend x) s = .next t ∧ Became s t f (f.retire (f.past 8))) ∧
  (∀ (x : OpIcinv) (s : State) (f : Fibre), Quiet s f → guardMask f x.h ≠ 0 →
    (∀ a, x.line = some a → scaBad a = false) →
    let kept := fun (keep : Nat → Bool) => afterOp f (f.past 8) [] [] [] none
      (setCore s f.id.core { coreOf s f.id.core with
        icache := (coreOf s f.id.core).icache.filter fun e => keep e.1
        l0 := (coreOf s f.id.core).l0.filter fun e => keep e.2.1 })
    (x.line = none → exec (.icinv x) s = .next (kept fun _ => false)) ∧
    (∀ a l, x.line = some a → lineOf s f (f.sreg a.num.toNat) = some l → exec (.icinv x) s = .next (kept fun k => k != l)) ∧
    (∀ a, x.line = some a → lineOf s f (f.sreg a.num.toNat) = none →
      ∃ t, exec (.icinv x) s = .next t ∧ Became s t f (f.retire (f.past 8))))

/-- R102, R103, R106, R180: `enq` and `deq` on the queues beside their stage: when a queue is full, where an entry and
the control line are written, which entry a block takes or what it is told, and what its register holds then. A queue
whose lines another fibre holds makes them wait, which is the model's reading of R377 (log 51). -/
def Obligations.StageQueues : Prop :=
  (∀ (x : OpDA) (s : State) (f : Fibre), Quiet s f → f.stage + 1 < stageCount s f → vecBad s f false x.a = false →
    guardMask f x.h ≠ 0 →
    let entry := (List.range 16).flatMap fun l => bytesOf 4 (readLane s f false x.a l).toNat
    let o := DevOp.enq entry x.d.toNat
    let r := doEnq f.launch f.stage entry (reaching f o [] s)
    (linesHeld s f.id (o.addrs s f) = false →
      exec (.enq x) s = .next (afterOp f (f.past 8) [.s x.d.toNat] [.s x.d.toNat] [.s x.d.toNat r.2] none r.1)) ∧
    (linesHeld s f.id (o.addrs s f) = true → exec (.enq x) s = .next s)) ∧
  (∀ (x : OpDeq) (s : State) (f : Fibre), Quiet s f → f.stage ≠ 0 → vdstBad s f false false x.d = false →
    guardMask f x.h ≠ 0 →
    let o := DevOp.deq x.d.toNat
    let r := doDeq f.launch f.stage f.block (reaching f o [] s)
    (linesHeld s f.id (o.addrs s f) = false → deqPoison s f.launch f.stage f.block = none →
      exec (.deq x) s = .next (afterOp f (f.past 8) [.v x.d.toNat] [.v x.d.toNat]
        [.v x.d.toNat allOnes (deqReg r.2.1 r.2.2)] none r.1)) ∧
    (linesHeld s f.id (o.addrs s f) = true → exec (.deq x) s = .next s)) ∧
  (∀ (l : Word) (k : Nat) (s : State) (g : Stage), stage? s l k = some g →
    (g.occupancy = g.cap → queueFull s l k g = true) ∧
    (g.occupancy ≠ g.cap → g.enqn < g.cap → queueFull s l k g = false) ∧
    (∀ L h, g.occupancy ≠ g.cap → launch? s l = some L → L.stages[k + 1]? = some h → h.entb = 0 → queueFull s l k g = false)) ∧
  (∀ (l : Word) (k : Nat) (e : List Byte) (s : State) (g : Stage), stage? s l k = some g →
    (queueFull s l k g = true → doEnq l k e s = (s, 1)) ∧
    (queueFull s l k g = false → e.length = 64 → ∃ t, doEnq l k e s = (t, 0) ∧
      stage? t l k = some { g with enqn := g.enqn + 1 } ∧ SameRegisters s t ∧ t.blocks = s.blocks ∧
      (∀ c a, scrByte t c a = scrByte s c a) ∧
      ∀ a, homeByte t.msys a =
        if g.qpages ≠ [] ∧ queueAddr g 0 ≤ a ∧ a < queueAddr g 0 + 64 then
          BitVec.ofNat 8 (((g.enqn + 1) % 2 ^ 32 + g.deqn % 2 ^ 32 * 2 ^ 32 + if g.closed then 2 ^ 64 else 0) /
            256 ^ (a - queueAddr g 0))
        else if queueAddr g (64 + 64 * (g.enqn % g.cap)) ≤ a ∧ a < queueAddr g (64 + 64 * (g.enqn % g.cap)) + 64 then
          e.getD (a - queueAddr g (64 + 64 * (g.enqn % g.cap))) 0
        else homeByte s.msys a)) ∧
  (∀ (L : Launch) (q g : Stage) (b : Block),
    ((firstDesc L).ordered = false →
      (b.withdrawn = true → deqFinds L q g b = .inr 3) ∧
      (b.withdrawn = false → q.occupancy = 0 → deqFinds L q g b = .inr (if q.closed then 2 else 1)) ∧
      (b.withdrawn = false → q.occupancy ≠ 0 → deqFinds L q g b = .inl q.deqn)) ∧
    ((firstDesc L).ordered = true →
      (b.deqCount < g.entb → b.num * g.entb + b.deqCount < q.enqn → deqFinds L q g b = .inl (b.num * g.entb + b.deqCount)) ∧
      (b.deqCount = g.entb → deqFinds L q g b = .inr 2))) ∧
  (∀ (l : Word) (k num : Nat) (s : State) (L : Launch) (q g : Stage) (b : Block), deqOf s l k num = some (L, q, g, b) →
    (∀ st, deqFinds L q g b = .inr st → doDeq l k num s = (s, st, [])) ∧
    ∀ n, deqFinds L q g b = .inl n → ∃ u, doDeq l k num s = (finishLaunch l u, 0, entryBytes s q n) ∧
      entryBytes s q n = homeBytes s.msys (queueAddr q (64 + 64 * (n % q.cap))) 64 ∧
      stage? u l (k - 1) = some { q with deqn := q.deqn + 1 } ∧ SameRegisters s u ∧
      (u.blocks.find? fun b => b.launch == l && b.stage == k && b.num == num) = some { b with deqCount := b.deqCount + 1 } ∧
      ∀ a, homeByte u.msys a =
        if q.qpages ≠ [] ∧ queueAddr q 0 ≤ a ∧ a < queueAddr q 0 + 64 then
          BitVec.ofNat 8 ((q.enqn % 2 ^ 32 + (q.deqn + 1) % 2 ^ 32 * 2 ^ 32 + if q.closed then 2 ^ 64 else 0) /
            256 ^ (a - queueAddr q 0))
        else homeByte s.msys a) ∧
  (∀ (st : Nat) (e : List Byte), ∀ l < 32, lane (deqReg st e) l =
    if l < 16 then (if st = 0 then BitVec.ofNat 32 (natAt e (4 * l) 4) else 0)
    else if l = 16 then BitVec.ofNat 32 st else 0) ∧
  (∀ (x : OpDA) (s : State) (f : Fibre), Quiet s f → stageCount s f ≤ f.stage + 1 →
    exec (.enq x) s = .next (raiseTrap f.id (illegalTrap (.enq x) f 8) s)) ∧
  ∀ (x : OpDeq) (s : State) (f : Fibre), Quiet s f → f.stage = 0 →
    exec (.deq x) s = .next (raiseTrap f.id (illegalTrap (.deq x) f 8) s)

/-- R173, R176, R178: `exit` retires, and its fibre has left: it waits for the partner's writes and the fibre's own
copies; the fibre is EXITED, its window is withdrawn, it counts as arrived at every barrier; with its last fibre a
block goes, and has passed every ticket. That an exited fibre keeps its place until its block ends is the model's
choice (log 57). -/
def Obligations.Exits : Prop :=
  (∀ (x : OpH) (s : State) (f : Fibre), Quiet s f → guardMask f x.h ≠ 0 → partnerWrites s f = false → copiesOut s f = false →
    exec (.exit x) s = .next (afterOp f (f.past 8) [] [] [] none (retireExit f.id s))) ∧
  (∀ (x : OpH) (s : State) (f : Fibre), Quiet s f → guardMask f x.h ≠ 0 → (partnerWrites s f = true ∨ copiesOut s f = true) →
    ∃ t, exec (.exit x) s = .next t ∧ Waits s t f fun g => { g with winWait := g.window.isSome }) ∧
  (∀ (s : State) (f g : Fibre) (b : Block), fibre? s f.id = some f → f.acquire = none → (∀ k ∈ s.fibres, fibre? s k.id = some k) →
    blockOf s f = some b → g ∈ s.fibres → inBlock b g = true → g.id ≠ f.id → g.status ≠ .exited →
    let t := retireExit f.id s
    fibre? t f.id = some { f with status := .exited, isCur := false, window := none, winWait := false } ∧
    (∀ id, sregAt t id = sregAt s id) ∧ t.msys = s.msys ∧
    ∀ (lvl : BarLevel) (num : Nat), num < barCount (descOf s f) lvl →
      (BarLevel.wide lvl = true → (launch? s f.launch).isSome = true) →
      (∃ k ∈ barMembers s f lvl, k ≠ f ∧ k.left = false ∧ k.status ≠ .saved ∧
        (barOf s f lvl num).done < arrivedAt k lvl num) →
      (∀ k ∈ barMembers s f lvl, k ≠ f → k.left = true ∨
        (k.status ≠ .saved ∧ (barOf s f lvl num).done < arrivedAt k lvl num)) →
      (∀ c ∈ (barOf s f lvl num).copies, c.1 ≠ (barOf s f lvl num).done + 1) →
      (barOf s f lvl num).done < (barOf t f lvl num).done) ∧
  ∀ (s : State) (f : Fibre) (b : Block), fibre? s f.id = some f → f.acquire = none → f.copyFaults = [] → copiesOut s f = false →
    (∀ k ∈ s.fibres, fibre? s k.id = some k) → blockOf s f = some b → (∀ g ∈ s.fibres, inBlock b g = true → g = f) →
    ∃ u, retireExit f.id s = finishLaunch b.launch u ∧ (∀ g ∈ u.fibres, inBlock b g = false) ∧
      (∀ k ∈ u.blocks, ¬ (k.launch = b.launch ∧ k.stage = b.stage ∧ k.num = b.num)) ∧
      ∀ g, stage? u b.launch b.stage = some g → b.num ∈ g.exited ∧ ∀ t, ticketPassed g b.num t = true

/-- R155, R181, R399: `trap` enters a handler: the system's where SYS is set or no user handler is declared, else the
user's, with CODE in `%tf0`, the word in `%tinst` and the address after it in `%tf3`. -/
def Obligations.TrapWord : Prop :=
  ∀ (x : OpTrap) (s : State) (f : Fibre), Quiet s f → guardMask f x.h ≠ 0 → f.regs.level = 0 →
    let user := x.sys = false ∧ handlerOf s f ≠ 0
    let target := if x.sys then (partn s (partOfCore s f.id.core)).systrap
      else if handlerOf s f = 0 then (partn s (partOfCore s f.id.core)).systrap else handlerOf s f
    target ≠ 0 →
    ∃ t g, exec (.trap x) s = .next t ∧ fibre? t f.id = some g ∧
      g.regs.pc = target ∧ g.regs.level = (if user then 1 else 2) ∧ g.regs.back = 0 ∧
      g.regs.t.tcause = 0x14 ||| (if user then 0 else 0x800) ∧ g.regs.t.tpc = f.regs.pc ∧ g.regs.t.tmask = 0 ∧
      g.regs.t.tinst = wordOf (.trap x) ∧ g.regs.t.tf0 = x.code.setWidth 64 ∧ g.regs.t.tf3 = f.past 12 ∧
      g.regs.v = f.regs.v ∧ g.regs.s = f.regs.s ∧ g.regs.p = f.regs.p ∧ g.regs.em = f.regs.em ∧
      g.regs.xflags = f.regs.xflags ∧ g.regs.xen = f.regs.xen ∧
      (∀ id, id ≠ f.id → fibre? t id = fibre? s id) ∧ t = { s with fibres := t.fibres, launches := t.launches }

/-- R399, R405, R430: trap entry by a fibre that nothing holds back: its target and level, NEST and SYS, the trap
registers, NFAULT, and that every other register keeps its value; at level 2 the context halts. -/
def Obligations.TrapEntry : Prop :=
  ∀ (r : Trap) (s : State) (f : Fibre), Quiet s f →
    (f.regs.level = 2 → raiseTrap f.id r s = haltByFibre f .doubletrap 0 s) ∧
    (f.regs.level ≠ 2 → ∀ target user, trapTarget s f r.sys = (target, user) →
      (target = 0 → raiseTrap f.id r s = haltByFibre f .nohandler 0 s) ∧
      (target ≠ 0 → Entered s (raiseTrap f.id r s) f r target user)) ∧
    (trapTarget s f r.sys).2 = (!r.sys && f.regs.level != 1 && handlerOf s f != 0)

/-- R158, R262, R397, R398, R400: `rett` goes down one level, to level 0 in the state the fibre was frozen in, and
resumes where the row of the cause says, or where a copy's fault found the fibre; at level 0 it takes ILLEGAL,
CONTEXT. That it resumes by the trap registers as the handler left them is the model's reading (log 42). -/
def Obligations.ReturnFromTrap : Prop :=
  (∀ (x : OpH) (s : State) (f : Fibre), Quiet s f → f.regs.level = 0 →
    exec (.rett x) s = .next (raiseTrap f.id (illegalTrap (.rett x) f 8) s)) ∧
  (∀ (x : OpH) (s : State) (f : Fibre), Quiet s f → guardMask f x.h ≠ 0 → (f.regs.level = 1 ∨ f.regs.level = 2) →
    (f.regs.level = 2 → wfield f.regs.t.tcause 7 0 ≠ 0x18 ∧ (wfield f.regs.t.tcause 7 0 = 0x19 → f.saveRec = none)) →
    let top := f.regs.resume.head?.getD none
    let level := if f.regs.level = 2 then f.regs.back else 0
    let state := if level = 0 then f.regs.frozen else .ready
    ∃ t u, exec (.rett x) s = .next t ∧
      Became s u f { f with
        status := state, isCur := false, readySince := s.clock, seq := f.seq + 1, follow := top.bind (·.follow)
        regs := { f.regs with
          level := level, back := 0, resume := f.regs.resume.drop 1
          pc := match top with
            | some r => r.pc
            | none => resumePoint f.regs.t
          frozen := if level = 0 then .ready else f.regs.frozen } } ∧
      let v := resumeCopy f.id.core (top.bind (·.copy)) u
      ((∀ l n a b c, state ≠ .barrier l n a b c) → state ≠ .exited → t = v) ∧
      (∀ l n a b c, state = .barrier l n a b c → t = settleBarrier f l n (2 * (barMembers v f l).length + 2) v) ∧
      (state = .exited → ∀ b, blockOf s f = some b → t = settleAdmissions f.launch v (tryEndBlock b v))) ∧
  (∀ (core : Nat) (s : State), resumeCopy core none s = s ∧
    ∀ k, (coreOf (resumeCopy core (some k) s) core).copies =
      updIf (fun c => c.id == k) (fun c => { c with stopped := false }) (coreOf s core).copies) ∧
  (∀ (x : OpH) (s : State) (f : Fibre), Quiet s f → guardMask f x.h ≠ 0 → f.regs.level = 2 →
    (wfield f.regs.t.tcause 7 0 = 0x18 → exec (.rett x) s = .next (leaveSave f s)) ∧
    (wfield f.regs.t.tcause 7 0 = 0x19 → ∀ r, f.saveRec = some r → exec (.rett x) s = .next (leaveRestore f r s))) ∧
  ∀ t : TRegs,
    let cause := wfield t.tcause 7 0
    let op := wfield t.tinst 14 7
    (t.tcause.getLsbD 9 = true → resumePoint t = t.tpc) ∧
    (t.tcause.getLsbD 9 = false →
      (cause ∈ [0x01, 0x11, 0x12, 0x13, 0x14] → resumePoint t = t.tf3) ∧
      (cause = 0x02 → wfield t.tf0 63 56 = 0x10 → resumePoint t = t.tf3) ∧
      (cause = 0x02 → wfield t.tf0 63 56 = 0x11 → resumePoint t = t.tpc) ∧
      (cause ∈ [0x08, 0x09, 0x0B, 0x0C] → resumePoint t = t.tf3) ∧
      (cause = 0x0A → op ≠ 0x09 → op ≠ 0x0A → resumePoint t = t.tf3) ∧
      (cause = 0x0A → (op = 0x09 ∨ op = 0x0A) → resumePoint t = t.tpc) ∧
      (cause ∈ [0x03, 0x04, 0x05, 0x06, 0x10] → resumePoint t = t.tpc))

/-- R118, R130, R147, R148, R150, R157: an operand that may not be read takes OPERAND, a word with no active lane only
retires, one that names a pending register takes HAZARD, and one with H set waits, PARKED, for what is outstanding. -/
def Obligations.IssueChecks : Prop :=
  ∀ p ∈ twoOperand8, ∀ (x : OpV8) (s : State) (f : Fibre),
    (Quiet s f → (vecBad s f (IntTy.wide x.ty) x.a = true ∨ vecBad s f (IntTy.wide x.ty) x.b = true ∨
        vdstBad s f (IntTy.wide x.ty) x.wd x.d = true) →
      exec (p.1 x) s = .next (raiseTrap f.id (operandTrap (p.1 x) f) s)) ∧
    (Quiet s f → vecBad s f (IntTy.wide x.ty) x.a = false → vecBad s f (IntTy.wide x.ty) x.b = false →
      vdstBad s f (IntTy.wide x.ty) x.wd x.d = false → activeMask f x.h = 0 →
      ∃ t, exec (p.1 x) s = .next t ∧ Became s t f (f.retire (f.past 8))) ∧
    (Unheld s f → awaitsFlags f = false → f.pend ≠ [] → x.h.h = true →
      ∃ t, exec (p.1 x) s = .next t ∧ Became s t f { f with status := .parked }) ∧
    (Unheld s f → awaitsFlags f = false → x.h.h = false → vecBad s f (IntTy.wide x.ty) x.a = false →
      vecBad s f (IntTy.wide x.ty) x.b = false → vdstBad s f (IntTy.wide x.ty) x.wd x.d = false →
      (∃ r ∈ f.pending, r ∈ guardNames x.h ++ [.em] ++ vecNames (IntTy.wide x.ty) x.a ++ vecNames (IntTy.wide x.ty) x.b ++
        vdstNames (IntTy.wide x.ty) x.wd x.d) →
      ∃ t, exec (p.1 x) s = .next t ∧ Became s t f { f with waitTrap := some (hazardTrap (p.1 x) f), follow := none, winWait := false })

/-! ## Memory -/

/-- R247, R252, R253: a load whose checks let it through retires with the values of its elements outstanding, extended
by type; no byte of memory and no other fibre changes. R370, R371: where it runs ahead, it is left unfinished with its
checkpoint, and its result awaits it. R383: within a quantum it reads an early value behind the operations that the
quantum holds, and is kept with it. -/
def Obligations.Loads : Prop :=
  (∀ (i : Instr) (L : LoadForm) (s : State) (f : Fibre) (accs : List LaneAcc) (fills : List TlbEntry),
    loadForm i = some L → Quiet s f → L.refused s f = false → L.mask f ≠ 0 → combine (L.checks s f (L.mask f)) = .ok accs fills →
    accsPoison s accs = none →
    ∃ t, exec i s = .next t ∧
      fibre? t f.id = some { f.retire (f.past L.len) with pend := [⟨f.seq, L.dests, some (destWrites L.dest (accs.map fun a =>
        (a.lane, extendLoad L.size L.signed (loadValue (prepared f L.hint accs fills s) (partOfCore s f.id.core) a)))),
        0, none, false⟩] } ∧
      (∀ id, id ≠ f.id → fibre? t id = fibre? s id) ∧ SameMemory s t) ∧
  (∀ (i : Instr) (L : LoadForm) (s : State) (f : Fibre) (accs : List LaneAcc) (fills : List TlbEntry),
    loadForm i = some L → Quiet s f →
    let u := { s with ahead := true }
    L.refused u f = false → L.mask f ≠ 0 → combine (L.checks u f (L.mask f)) = .ok accs fills → touchesUncached accs = false →
    (∀ n, RegId.w n ∉ L.dests) →
    ∃ t h, exec i u = .next t ∧ fibre? t f.id = some { f.retire (f.past L.len) with
        unfin := [h], pend := [⟨f.seq, L.dests, none, 0, none, false⟩] } ∧
      h = { h with seq := f.seq, op := .load accs L.size L.signed L.dest L.hint, snap := f.regs, marks := [], early := false
                   written := (undoRegs L.dests).foldl addNew [] } ∧
      (∀ id, id ≠ f.id → fibre? t id = fibre? s id) ∧ SameMemory s t) ∧
  (∀ (i : Instr) (L : LoadForm) (s : State) (f : Fibre) (accs : List LaneAcc) (fills : List TlbEntry) (ws : List RegWrite),
    loadForm i = some L → InQuantum s f L.dests → L.refused s f = false → L.mask f ≠ 0 →
    combine (L.checks s f (L.mask f)) = .ok accs fills → touchesUncached accs = false →
    let op := DevOp.load accs L.size L.signed L.dest L.hint
    (f.seq = f.qseq ∨ (f.qlines.length + newLines f.qlines op.keys ≤ 256 ∧ f.qwrites.length ≤ 64)) →
    tilesAwaited s f (f.unfin.map (·.op)) = false →
    earlyLoad f (f.unfin.map (·.op)) op (rankLines L.hint accs (cached f fills s)) = .ok ws →
    ∃ t g, exec i s = .next t ∧ fibre? t f.id = some g ∧ g.regs = (f.retire (f.past L.len)).regs ∧
      g.pend = [⟨f.seq, L.dests, some ws, 0, none, false⟩] ∧ g.unfin.map (·.op) = f.unfin.map (·.op) ++ [op] ∧
      (g.unfin.getLast?.map fun h => (h.seq, h.snap, h.early, h.vals)) = some (f.seq, f.regs, true, ws) ∧
      g.qlines = op.keys.foldl addNew f.qlines ∧ (∀ id, id ≠ f.id → fibre? t id = fibre? s id) ∧ SameMemory s t) ∧
  ∀ (f : Fibre) (o : DevOp) (s : State), s.msys.hru = [] →
    earlyLoad f [] o s = loadFrom (partOfCore s f.id.core) o s ∧
    ∀ before b, earlyLoad f (before ++ [b]) o s =
      loadFrom (partOfCore s f.id.core) o (virtualOp f b (virtualView f before s))

/-- R234, R237, R250, R253: a store whose checks let it through retires, and exactly the bytes its elements name
change, each to what the last element that covers it stores. Elements of Coded pages and device registers stand apart.
R370, R383: where it runs ahead, or within a quantum, the store is kept and no byte changes yet. R174: a write of the
fibre's handler may end the wait for a line that the fibre was frozen in. -/
def Obligations.Stores : Prop :=
  (∀ (i : Instr) (S : StoreForm) (s : State) (f : Fibre) (accs : List LaneAcc) (fills : List TlbEntry),
    storeForm i = some S → Quiet s f → S.refused s f = false → S.mask f ≠ 0 → combine (S.checks s f (S.mask f)) = .ok accs fills →
    claimed s f.id accs = false → (∀ a ∈ accs, regOf a = none ∧ codedAcc a = none) →
    let xs := List.zip accs (S.data s f (S.mask f))
    ∃ t g, exec i s = .next t ∧ fibre? t f.id = some g ∧ OwnMet (f.retire (f.past S.len)) g ∧ SameOthers s t f ∧
      (∀ a, homeByte t.msys a = (storedDev xs a).getD (homeByte s.msys a)) ∧
      (∀ c a, scrByte t c a = (storedScr xs c a).getD (scrByte s c a)) ∧
      t.msys.partials = partialsAfter (xs.map (·.1)) s.msys.partials) ∧
  (∀ (i : Instr) (S : StoreForm) (s : State) (f : Fibre) (accs : List LaneAcc) (fills : List TlbEntry),
    storeForm i = some S → Quiet s f →
    let u := { s with ahead := true }
    S.refused u f = false → S.mask f ≠ 0 → combine (S.checks u f (S.mask f)) = .ok accs fills →
    touchesUncached accs = false → touchesScratch accs = false →
    ∃ t h size, exec i u = .next t ∧ fibre? t f.id = some { f.retire (f.past S.len) with unfin := [h] } ∧
      h = { h with seq := f.seq, op := .store accs size (S.data u f (S.mask f)), snap := f.regs, written := [], marks := []
                   early := false } ∧
      (∀ id, id ≠ f.id → fibre? t id = fibre? s id) ∧ SameMemory s t) ∧
  ∀ (i : Instr) (S : StoreForm) (s : State) (f : Fibre) (accs : List LaneAcc) (fills : List TlbEntry),
    storeForm i = some S → InQuantum s f [] → S.refused s f = false → S.mask f ≠ 0 →
    combine (S.checks s f (S.mask f)) = .ok accs fills →
    let lines := (accs.flatMap accKeys).foldl addNew []
    (f.seq = f.qseq ∨ (f.qwrites.length + newLines f.qwrites lines ≤ 64 ∧ f.qlines.length ≤ 256)) →
    ∃ t g size, exec i s = .next t ∧ fibre? t f.id = some g ∧ g.regs = (f.retire (f.past S.len)).regs ∧ g.pend = [] ∧
      g.unfin.map (·.op) = f.unfin.map (·.op) ++ [.store accs size (S.data s f (S.mask f))] ∧
      g.qwrites = lines.foldl addNew f.qwrites ∧ (∀ id, id ≠ f.id → fibre? t id = fibre? s id) ∧ SameMemory s t

/-- R276, R286: stores to one Coded block form one merge, encoded with the block's code as reference; R437: a store to
a device register writes the register. That a register is reached by one aligned access of 8 bytes is the model's
reading (log 32). -/
def Obligations.SpecialStores : Prop :=
  (∀ (i : Instr) (S : StoreForm) (s : State) (f : Fibre) (accs : List LaneAcc) (fills : List TlbEntry) (pa : Nat) (P : CodedPar)
      (pos : LaneAcc → Nat),
    storeForm i = some S → Quiet s f → S.refused s f = false → S.mask f ≠ 0 → combine (S.checks s f (S.mask f)) = .ok accs fills →
    claimed s f.id accs = false → mergePoison s accs = none → (∀ a ∈ accs, regOf a = none ∧ codedAcc a = some (pa, P, pos a)) →
    let xs := List.zip accs (S.data s f (S.mask f))
    xs ≠ [] →
    let code := blockCode s.msys P pa
    let new := bytesOf (Coded.bytes P) (Coded.encode P (some code)
      (xs.foldl (fun v x => v.set (pos x.1) x.2) (Coded.decode P code)))
    ∃ t g, exec i s = .next t ∧ fibre? t f.id = some g ∧ OwnMet (f.retire (f.past S.len)) g ∧ SameOthers s t f ∧
      ∀ a, homeByte t.msys a =
        if pa ≤ a ∧ a < pa + Coded.bytes P then new.getD (a - pa) 0 else homeByte s.msys a) ∧
  ∀ (i : Instr) (S : StoreForm) (s : State) (f : Fibre) (a : LaneAcc) (fills : List TlbEntry) (off : Nat),
    storeForm i = some S → Quiet s f → S.refused s f = false → S.mask f ≠ 0 → combine (S.checks s f (S.mask f)) = .ok [a] fills →
    claimed s f.id [a] = false → regOf a = some off → codedAcc a = none →
    exec i s = .next (afterOp f (f.past S.len) [] [] [] none (storeReg (some f.id) (some f.id.core) (partOfCore s f.id.core) off
      a.pa (BitVec.ofNat 64 ((S.data s f (S.mask f)).getD 0 0)) (prepared f S.hint [a] fills s)))

/-- R268, R269, R236: `atom`, `atomf`, `red` and `redf` update their elements in lane order, each from the value it
finds, and an atomic's old values are outstanding; one update writes the element's bytes alone, a partial of a
Commutative element, or leaves for the device that is its home; a line that another fibre has claimed makes it wait
(R377). That one on a device register reads the register and writes it as a store does (R437) is the model's reading
(log 32). -/
def Obligations.Updates : Prop :=
  (∀ (i : Instr) (U : UpdForm) (s : State) (f : Fibre) (accs : List LaneAcc) (fills : List TlbEntry),
    updForm i = some U → Quiet s f → U.refused s f = false → U.mask f ≠ 0 → combine (U.checks s f (U.mask f)) = .ok accs fills →
    (claimed s f.id accs = false → updatePoison s accs = none →
      let u := prepared f U.hint accs fills s
      let r := foldLanes (updateLane f.id (partOfCore s f.id.core) (asidOf s f) U.op) accs (U.vals s f (U.mask f))
        (if U.dest.isSome then seeRecords f.id (devLines accs) u else u)
      exec i s = .next (afterOp f (f.past U.len) U.dests U.dests
        ((U.dest.map fun d => destWrites d r.2).getD []) none r.1)) ∧
    (claimed s f.id accs = true → exec i s = .next (rankLines U.hint accs (cached f fills s)))) ∧
  ∀ (id : FibreId) (p asid : Nat) (u : UpdOp) (a : LaneAcc) (v : BitVec 64) (s : State) (q : Part) (pa : Nat), a.parts = [q] →
    q.loc = .dev pa →
    let r := updateLane id p asid u a v s
    ((∀ m o, q.kind ≠ .comm m o) → regOf a = none → r.2 = readAcc s a ∧ (∀ c b, scrByte r.1 c b = scrByte s c b) ∧
      ∀ b, homeByte r.1.msys b = if pa ≤ b ∧ b < pa + u.bytes then
        BitVec.ofNat 8 ((updVal u (readAcc s a) v).toNat / 256 ^ (b - pa)) else homeByte s.msys b) ∧
    (∀ off, (∀ m o, q.kind ≠ .comm m o) → regOf a = some off → r = (storeReg (some id) (some id.core) p off pa
      (updVal u (regRead s p off) v) s, regRead s p off)) ∧
    (∀ m o, q.kind = .comm m o → ownDev s pa = true →
      r.1.msys.partials = (commRed s.msys m o pa s.dev.devid.toNat id.core p asid v).partials ∧ SameMemory s r.1) ∧
    ∀ m o, q.kind = .comm m o → ownDev s pa = false →
      r.1 = { s with outbox := s.outbox ++ [.remote (incarnation s .core id.core) (.red pa v)] }

/-- R268: `atomcas` compares or exchanges its elements in lane order. That one on a device register reads the register
and writes it as a store does (R437) is the model's reading (log 32). -/
def Obligations.CompareSwap : Prop :=
  (∀ (i : Instr) (C : CasForm) (s : State) (f : Fibre) (accs : List LaneAcc) (fills : List TlbEntry),
    casForm i = some C → Quiet s f → C.refused s f = false → C.mask f ≠ 0 → combine (C.checks s f (C.mask f)) = .ok accs fills →
    claimed s f.id accs = false → updatePoison s accs = none →
    let one := fun (acc : State × List (Nat × BitVec 64)) (x : LaneAcc × BitVec 64 × BitVec 64) =>
      let r := casLane f.id (partOfCore s f.id.core) (asidOf s f) (CasOp.shape C.op).1 (CasOp.shape C.op).2 x.1 x.2.1 x.2.2 acc.1
      (r.1, acc.2 ++ [(x.1.lane, r.2)])
    let r := (List.zip accs (List.zip (C.vals s f (C.mask f)) (C.cmps s f (C.mask f)))).foldl one
      (seeRecords f.id (devLines accs) (prepared f C.hint accs fills s), [])
    exec i s = .next (afterOp f (f.past C.len) C.dests C.dests (destWrites C.dest r.2) none r.1)) ∧
  ∀ (id : FibreId) (p asid n : Nat) (xchg : Bool) (a : LaneAcc) (v c : BitVec 64) (s : State) (q : Part) (pa : Nat),
    a.parts = [q] → q.loc = .dev pa →
    let r := casLane id p asid n xchg a v c s
    (regOf a = none →
      let new := if xchg = true ∨ readAcc s a = lowBytes n c then lowBytes n v else readAcc s a
      r.2 = readAcc s a ∧ ∀ b, homeByte r.1.msys b =
        if pa ≤ b ∧ b < pa + n then BitVec.ofNat 8 (new.toNat / 256 ^ (b - pa)) else homeByte s.msys b) ∧
    ∀ off, regOf a = some off → r = (storeReg (some id) (some id.core) p off pa
      (if xchg = true ∨ regRead s p off = lowBytes n c then lowBytes n v else regRead s p off) s, regRead s p off)

/-- R271, R349: `fence` retires once no copy of foreign memory of the fibre is outstanding, and waits until then; it
orders the Host-noncoherent accesses of fibres whose fences' scopes include each other: what earlier such fences had
passed on comes before the fibre's reads from now on, and it passes on what the fibre's own accesses had met, with
what stood before them. Before any Host-noncoherent write it changes nothing else. Counting the writes that a read
follows is the model's own (log 46). -/
def Obligations.Fences : Prop :=
  (∀ (x : OpFence) (s : State) (f : Fibre), Quiet s f → guardMask f x.h ≠ 0 →
    ((openCopies s f.id).any (copyForeign s) = false →
      exec (.fence x) s = .next (afterOp f (f.past 8) [] [] [] none (fenceOrder f.id x.scope s))) ∧
    ((openCopies s f.id).any (copyForeign s) = true → exec (.fence x) s = .next s)) ∧
  ∀ (id : FibreId) (scope : Scope) (s : State),
    let t := fenceOrder id scope s
    let quad := id.pos / 16
    (s.msys.hncNum = 0 → t = s) ∧
    SameMemory s t ∧ t.fibres = s.fibres ∧
    (s.msys.hncNum ≠ 0 →
      (∀ F ∈ s.msys.hncFences, scopeIncludes s F.scope F.core F.quad id.core quad = true →
        scopeIncludes s scope id.core quad F.core F.quad = true →
        F.base ≤ (hncViewOf t.msys id).base ∧ ∀ x ∈ F.view, x.2 ≤ Tab.getD (hncViewOf t.msys id).view x.1 0) ∧
      ∃ G ∈ t.msys.hncFences, G.scope = scope ∧ G.core = id.core ∧ G.quad = quad ∧
        (hncViewOf s.msys id).cbase ≤ G.base ∧ ∀ l, Tab.getD (hncViewOf s.msys id).carry l 0 ≤ Tab.getD G.view l 0 ∧
          Tab.getD (hncViewOf s.msys id).own l 0 ≤ Tab.getD G.view l 0)

/-- R255: `ldacc` fills a tile row by row from memory, `stacc` writes a tile's rows to memory, each byte that of the
last row that covers it, and to nothing else. That ldacc takes IMM16 as its displacement and stacc has none is the
model's reading (log 44). -/
def Obligations.AccumulatorMoves : Prop :=
  (∀ (x : OpLdacc) (s : State) (f : Fibre) (accs : List LaneAcc) (fills : List TlbEntry), Quiet s f → scaBad x.a = false →
    scaBad x.b = false → x.d.toNat < accTiles s f → guardMask f x.h ≠ 0 → tileBusy s f [x.d.toNat] = false →
    (combine (rowChecks s f .accLoad x.wide (ptrAdd (f.sreg x.a.num.toNat) (sext 16 x.disp.toNat))
      (sext 32 (f.sreg x.b.num.toNat).toNat))).uniform = .ok accs fills →
    accsPoison s accs = none →
    let u := prepared f x.hint accs fills s
    let tile := accs.foldl (fun t a => a.parts.foldl (fun t q => putRowBytes t a.lane q.off (readPart u q)) t) (tileOf s f x.d.toNat)
    ∃ t, exec (.ldacc x) s = .next t ∧ SameMemory s t ∧ fibre? t f.id = some (f.retire (f.past 12)) ∧
      (∀ id, id ≠ f.id → fibre? t id = fibre? s id) ∧
      t.blocks = (setTile s f x.d.toNat tile fun r c => accs.any fun a => a.parts.any fun q =>
        rowWords a.lane q.off q.len r c).blocks) ∧
  ∀ (x : OpStacc) (s : State) (f : Fibre) (accs : List LaneAcc) (fills : List TlbEntry), Quiet s f → scaBad x.a = false →
    scaBad x.b = false → x.tile.toNat < accTiles s f → guardMask f x.h ≠ 0 → tileBusy s f [x.tile.toNat] = false →
    (combine (rowChecks s f .accStore x.wide (f.sreg x.a.num.toNat) (sext 32 (f.sreg x.b.num.toNat).toNat))).uniform =
      .ok accs fills →
    claimed s f.id accs = false →
    (tilePoison s f x.tile.toNat fun r c => accs.any fun a => a.parts.any fun q => rowWords a.lane q.off q.len r c) = false →
    (∀ a ∈ accs, ∀ q ∈ a.parts, q.off + q.len ≤ 256) →
    let rows := accs.map fun a => (a, natOf (tileRow (tileOf s f x.tile.toNat) a.lane))
    ∃ t g, exec (.stacc x) s = .next t ∧ fibre? t f.id = some g ∧ OwnMet (f.retire (f.past 12)) g ∧ SameOthers s t f ∧
      t.blocks = s.blocks ∧ (∀ a, homeByte t.msys a = (storedDev rows a).getD (homeByte s.msys a)) ∧
      ∀ c a, scrByte t c a = (storedScr rows c a).getD (scrByte s c a)

/-- R256 to R260, R176, R311: `copy` and `expload` retire once their command is released to the core's engine, where
it joins the queue and, with BAR = 1, registers on its barrier. R259, R260: how its bytes move: read from where its
source reaches, then written into a scratchpad, or into shadows that no read sees. The order of a copy's checks is the
model's reading (log 29), and the numbers of commands are the model's own (log 45). -/
def Obligations.Copies : Prop :=
  (∀ (x : OpCopy) (s : State) (f : Fibre), Quiet s f → scaBad x.a = false → scaBad x.b = false → scaBad x.c = false →
    x.c.num.toNat % 2 = 0 → (x.gather = true → vecBad s f false x.sd = false) →
    (x.bar = true → x.barnum.toNat < barCount (descOf s f) .block) → (x.follow = true → follower s f = .matrix) → guardMask f x.h ≠ 0 →
    let p := shapeOf (f.sreg x.c.num.toNat) (f.sreg (x.c.num.toNat + 1))
    let c : CopyCmd :=
      { id := commandId f, fibre := f.id, launch := f.launch, stage := f.stage, block := f.block, pc := f.regs.pc
        inst := wordOf (.copy x), src := f.sreg x.a.num.toNat, dst := f.sreg x.b.num.toNat, rows := p.rows
        rowBytes := p.rowBytes, sstride := p.sstride, dstride := p.dstride
        index := if x.gather then
            some ((List.range (min 32 p.rows)).map fun r => sext 32 (readLane s f false x.sd r).toNat) else none
        hint := x.hint, follow := x.follow, evt := if x.evt then some x.tag else none
        bar := if x.bar then some (x.barnum.toNat, 0) else none, expand := x.expand, table := none, capt := none, done := 0
        buf := [], strm := [], stopped := false, landed := false }
    (∀ e ptr, copyFault s f c (p.bad x.gather) = some (e, ptr) →
      let t := accessTrap (.copy x) f e 1 ptr
      exec (.copy x) s = .next (raiseTrap f.id t (walkedTo f t s))) ∧
    (copyFault s f c (p.bad x.gather) = none →
      exec (.copy x) s = .next (afterOp f (f.past 16) [] [] [] (if x.follow then some (commandId f) else none) (releaseCopy c s)))) ∧
  (∀ (x : OpExpload) (s : State) (f : Fibre), Quiet s f → scaBad x.a = false → guardMask f x.h ≠ 0 →
    tagFaults (f.sreg x.a.num.toNat) = [] → ptrSpace (f.sreg x.a.num.toNat) = 0 → ptrAddr (f.sreg x.a.num.toNat) % 64 = 0 →
    exec (.expload x) s = .next (afterOp f (f.past 12) [] [] [] none (releaseCopy
      { id := commandId f, fibre := f.id, launch := f.launch, stage := f.stage, block := f.block, pc := f.regs.pc
        inst := wordOf (.expload x), src := f.sreg x.a.num.toNat, dst := ptrMake 1 0 0, rows := 1, rowBytes := 0, sstride := 0
        dstride := 0, index := none, hint := .none, follow := false, evt := none, bar := none, expand := false
        table := some x.id, capt := none, done := 0, buf := [], strm := [], stopped := false, landed := false } s))) ∧
  (∀ (c : CopyCmd) (s : State) (f : Fibre), fibre? s c.fibre = some f →
    let old := coreOf s c.fibre.core
    (c.bar = none → releaseCopy c s = setCore s c.fibre.core { old with copies := old.copies ++ [c] }) ∧
    ∀ num k, c.bar = some (num, k) → (blockOf s f).isSome = true →
      let b := barOf s f .block num
      let ph := max (b.done + 1) (arrivedAt f .block num + 1)
      let t := releaseCopy c s
      coreOf t c.fibre.core = { old with copies := old.copies ++ [{ c with bar := some (num, ph) }] } ∧
      barOf t f .block num = { b with copies := b.copies ++ [(ph, c.id)] } ∧ t.fibres = s.fibres ∧ t.msys = s.msys) ∧
  (∀ (s : State) (core id n : Nat) (c : CopyCmd), s.msys.hru = [] →
    (coreOf s core).copies.find? (fun x => x.id == id) = some c →
    let t := copyMove core id n s
    let now := fun (d : CopyCmd) => (coreOf t core).copies.find? (fun x => x.id == id) = some d
    let table := (slotTable (coreOf s core) c).getD none
    (∀ a bs, copyNext s core c n = .take a bs → now (CopyCmd.took table bs c) ∧ SameMemory s t ∧ t.msys.shadows = s.msys.shadows) ∧
    (∀ bs, copyNext s core c n = .form bs → now (CopyCmd.formed table bs c) ∧ SameMemory s t ∧ t.msys.shadows = s.msys.shadows) ∧
    ∀ d bs, copyNext s core c n = .put d bs → now (CopyCmd.wrote bs.length c) ∧
      (∀ a, homeByte t.msys a = homeByte s.msys a) ∧
      (∀ pa, d.loc = .dev pa → (∀ j a, scrByte t j a = scrByte s j a) ∧ ∀ i < bs.length, ∃ b ∈ t.msys.shadows, b.pa = pa + i ∧
        b.byte = (bs.getD i (0, false)).1 ∧ b.bad = (bs.getD i (0, false)).2 ∧
        b.owner = (s.dev.devid.toNat, c.fibre.core, c.id) ∧ b.landed = false) ∧
      ∀ k o, d.loc = .scr k o → ∀ j a, scrByte t j a =
        if j = k ∧ o ≤ a ∧ a < o + bs.length then (bs.getD (a - o) (0, false)).1 else scrByte s j a) ∧
  (∀ (s : State) (c : CopyCmd) (earlier : List CopyCmd) (later : List Nat) (n : Nat),
    let row := c.done / c.rowBytes
    let off := c.done % c.rowBytes
    (∀ a bs, plainNext s c earlier later n = .take a bs → c.buf = [] ∧ bs = engineBytes s c.fibre.core later a ∧
      a.held s c.fibre.core = false ∧ awaits s earlier a = false ∧
      ∃ m, m ≤ n ∧ off + m ≤ max off c.rowBytes ∧ reach s (copyCtx s c) false (ptrAdd (c.srcRow row) off) m = .at a) ∧
    ∀ d bs, plainNext s c earlier later n = .put d bs → d.held s c.fibre.core = false ∧ awaits s earlier d = false ∧
      ∃ m, m ≤ n ∧ bs = c.buf.take m ∧ bs ≠ [] ∧ reach s (copyCtx s c) true (ptrAdd (c.dstRow row) off) m = .at d) ∧
  ∀ (s : State) (core pa len i : Nat) (later : List Nat) (fill : Option TlbEntry),
    (∀ b, engineShadow s core later (pa + i) = some b → engineByte s core later ⟨.dev pa, len, .normal, fill⟩ i = (b.byte, b.bad)) ∧
    (engineShadow s core later (pa + i) = none → ownDev s (pa + i) = true →
      engineByte s core later ⟨.dev pa, len, .normal, fill⟩ i = (homeByte s.msys (pa + i), isPoison s.msys (pa + i)))

/-- R235, R263 to R265: `publish`, `seal` and `unseal`; which bytes a publish makes visible, and what a page that is
sealed leaves. A publish of a live stage queue halts (R102, log 29). That a publish onto a page that is not OPEN
waits, and that a quantum which holds a write to the page is executed again, is the model's choice (log 52). -/
def Obligations.PageOperations : Prop :=
  (∀ (x : OpAB) (s : State) (f : Fibre) (accs : List LaneAcc) (fills : List TlbEntry), Quiet s f → scaBad x.a = false →
    scaBad x.b = false → guardMask f x.h ≠ 0 →
    combine (publishChecks s f (f.sreg x.a.num.toNat) (f.sreg x.b.num.toNat)) = .ok accs fills →
    let frames := (accs.drop 1).map fun a => a.pa / 65536
    let u := reaching f (.publish frames) fills s
    let waits := publishWaits s f.id frames || publishHeld s f.id frames || publishSealed s frames
    let queued := s.msys.shadows.find? fun b => b.landed && frames.contains (b.pa / 65536) && inStageQueue s b.pa 1
    (accs.length ≤ 1 → ∃ t, exec (.publish x) s = .next t ∧ Became s t f (f.retire (f.past 8))) ∧
    (1 < accs.length → waits = true → exec (.publish x) s = .next (cached f fills s)) ∧
    (1 < accs.length → waits = false →
      (queued = none → exec (.publish x) s = .next (afterOp f (f.past 8) [] [] [] none
        (doPublish (some f.id) (some f.id.core) (some (partOfCore s f.id.core, asidOf s f)) frames u))) ∧
      ∀ b, queued = some b → exec (.publish x) s = .next (afterOp f (f.past 8) [] [] [] none
        (haltByFibre f .protection b.pa u)))) ∧
  (∀ (who : Option FibreId) (core : Option Nat) (ctx : Option (Nat × Nat)) (frames : List Nat) (s : State),
    let t := doPublish who core ctx frames s
    (∀ a, homeByte t.msys a =
      (((publishBytes s frames).find? fun b => b.pa == a).map fun b => b.byte).getD (homeByte s.msys a)) ∧
    (∀ c a, scrByte t c a = scrByte s c a) ∧ SameRegisters s t ∧
    t.msys.shadows = s.msys.shadows.filter fun b => !(b.landed && frames.contains (b.pa / 65536))) ∧
  (∀ (frames : List Nat) (s : State),
    let seen := fun (b : Shadow) => b ∈ s.msys.shadows ∧ b.landed = true ∧ b.pa / 65536 ∈ frames ∧ ownDev s b.pa = true
    (∀ b ∈ publishBytes s frames, seen b) ∧
    ∀ b, seen b → ∃ z ∈ publishBytes s frames, z.pa = b.pa ∧ b.ord ≤ z.ord) ∧
  (∀ (x : OpA) (s : State) (f : Fibre) (a e m : Nat) (w : Word) (pa bits : Nat) (k : PageKind) (fills : List TlbEntry), Quiet s f →
    scaBad x.a = false → guardMask f x.h ≠ 0 →
    combine [(0, f.sreg x.a.num.toNat, sealChecks s f (f.sreg x.a.num.toNat))] = .ok [⟨a, w, [⟨e, m, .dev pa, k, bits⟩]⟩] fills →
    let page := pa / 2 ^ bits * 2 ^ bits
    let y := reaching f (.vseal page bits) fills s
    let u := reaching f (.vunseal page bits) fills s
    (sealState s page = .draining → exec (.vseal x) s = .next (cached f fills s)) ∧
    (sealState s page = .isSealed → exec (.vseal x) s = .next (afterOp f (f.past 8) [] [] [] none y)) ∧
    (sealState s page = .opened → sealWaits s f.id page bits = true → exec (.vseal x) s = .next (cached f fills s)) ∧
    (sealState s page = .opened → sealWaits s f.id page bits = false →
      exec (.vseal x) s = .next (afterOp f (f.past 8) [] [] [] none (sealPage f.id page bits y))) ∧
    (f.unsealing = none → sealState s page = .draining → exec (.vunseal x) s = .next u) ∧
    (f.unsealing = none → sealState s page = .opened →
      exec (.vunseal x) s = .next (afterOp f (f.past 8) [] [] [] none u)) ∧
    (f.unsealing = none → sealState s page = .isSealed →
      let v := recallCopies page bits (updSeal u page bits fun r => { r with st := .draining })
      let remote := ((v.msys.seals.find? fun r => r.page == page).map fun r => r.remote).getD []
      (remote = [] → exec (.vunseal x) s = .next (afterOp f (f.past 8) [] [] [] none
        (updSeal v page bits fun r => { r with st := .opened }))) ∧
      (remote ≠ [] → exec (.vunseal x) s = .next (updFibre
        { v with outbox := v.outbox ++ remote.map fun d => .remote (incarnation v .link 0) (.recall d.1 page) }
        f.id fun g => { g with unsealing := some page }))) ∧
    (f.unsealing = some page → sealState s page ≠ .draining →
      exec (.vunseal x) s = .next (afterOp f (f.past 8) [] [] [] none (updFibre u f.id fun g => { g with unsealing := none })))) ∧
  (∀ (id : FibreId) (page bits : Nat) (s : State),
    let t := sealPage id page bits s
    (t.msys.seals.find? fun r => r.page == page).map (·.st) = some .isSealed ∧ SameMemory s t ∧ SameRegisters s t ∧
    ∀ k, k ≠ page → (t.msys.seals.find? fun r => r.page == k) = s.msys.seals.find? fun r => r.page == k) ∧
  ∀ (page bits : Nat) (s : State),
    let t := recallCopies page bits s
    SameMemory s t ∧ SameRegisters s t ∧ (∀ d ∈ t.msys.dir, ¬ (page ≤ 64 * d.line ∧ 64 * d.line < page + 2 ^ bits)) ∧
    ∀ r, (t.msys.seals.find? fun r => r.page == page) = some r → r.copies = []

/-- R266, R267: `flush` and `inval` act on their lines in order: a dirty line is written to its stack and kept, a
Host-noncoherent line is discarded, lines of other kinds stay as they are; `pref` changes no byte of memory and no
other fibre. -/
def Obligations.LineOperations : Prop :=
  (∀ (s : State) (f : Fibre) (accs : List LaneAcc) (fills : List TlbEntry) (i : Instr) (h : Hdr) (a : Opnd) (n len : Nat) (flush : Bool),
    ((∃ x : OpA, (i = .flush8 x ∧ flush = true ∨ i = .inval8 x ∧ flush = false) ∧ h = x.h ∧ a = x.a ∧ n = 1 ∧ len = 8) ∨
      ∃ x : OpLines12, (i = .flush12 x ∧ flush = true ∨ i = .inval12 x ∧ flush = false) ∧ h = x.h ∧ a = x.a ∧ n = x.n.toNat ∧
        len = 12) →
    Quiet s f → scaBad a = false → guardMask f h ≠ 0 →
    combine (linesChecks s f flush (f.sreg a.num.toNat) n) = .ok accs fills →
    let lines := accs.filterMap fun k => match k.parts with
      | [⟨_, _, .dev pa, kind, _⟩] => some (pa / 64, kind)
      | _ => none
    exec i s = .next (afterOp f (f.past len) [] [] [] none
      (doLines flush lines (reaching f (if flush then .flush lines else .inval lines) fills s)))) ∧
  (∀ (flush : Bool) (x : Nat × PageKind) (rest : List (Nat × PageKind)) (s : State),
    doLines flush [] s = s ∧ doLines flush (x :: rest) s = doLines flush rest (doLines flush [x] s)) ∧
  (∀ (l : Nat) (s : State),
    (∀ k ∈ [PageKind.normal, .sealed, .hostNon], doLines true [(l, k)] s = writeBack l s) ∧
    (∀ k ∈ [PageKind.strong, .hostCoh], doLines true [(l, k)] s = s) ∧
    (∀ k ∈ [PageKind.normal, .sealed, .strong, .hostCoh], doLines false [(l, k)] s = s) ∧
    (Tab.get s.msys.dirty l = none → writeBack l s = s) ∧
    (∀ ctxs, State.Inv s → Tab.get s.msys.dirty l = some ctxs → (heldBytes s.msys l).length = 64 →
      let t := writeBack l s
      Tab.get t.msys.dirty l = none ∧ t.fibres = s.fibres ∧ SameMemory s t ∧
      (∀ a, a / 64 = l → stackByte t.msys a = homeByte s.msys a) ∧ ∀ a, a / 64 ≠ l → stackByte t.msys a = stackByte s.msys a) ∧
    let t := doLines false [(l, .hostNon)] s
    (∀ a, homeByte t.msys a = if a / 64 = l then stackByte s.msys a else homeByte s.msys a) ∧
    (∀ a, stackByte t.msys a = stackByte s.msys a) ∧ SameRegisters s t ∧ (∀ d ∈ t.msys.dir, d.line ≠ l) ∧
    Tab.get t.msys.dirty l = none) ∧
  (∀ (x : OpPref8) (s : State) (f : Fibre), Quiet s f → scaBad x.a = false → activeMask f x.h ≠ 0 →
    ∃ t, exec (.pref8 x) s = .next t ∧ fibre? t f.id = some (f.retire (f.past 8)) ∧
      (∀ id, id ≠ f.id → fibre? t id = fibre? s id) ∧ SameMemory s t) ∧
  ∀ (x : OpPref12) (s : State) (f : Fibre), Quiet s f → scaBad x.a = false → activeMask f x.h ≠ 0 →
    ∃ t, exec (.pref12 x) s = .next t ∧ fibre? t f.id = some (f.retire (f.past 12)) ∧
      (∀ id, id ≠ f.id → fibre? t id = fibre? s id) ∧ SameMemory s t

/-- R302, R304, R309: `pkstat.line` reads a granule's state, `pkstat.bind` binds it to a table; both results are
outstanding. What a binding leaves: the granule's number, its PACKED lines RAW, the table captured, and no byte of
memory changed. The order of the statuses of a bind is the model's reading (log 36). -/
def Obligations.PackedLines : Prop :=
  (∀ (x : OpDA) (s : State) (f : Fibre) (accs : List LaneAcc) (fills : List TlbEntry), Quiet s f → scaBad x.a = false →
    guardMask f x.h ≠ 0 →
    combine [(0, f.sreg x.a.num.toNat, pkChecks s f false (f.sreg x.a.num.toNat))] = .ok accs fills →
    let pa := (accs.head?.map LaneAcc.pa).getD 0
    ∃ t, exec (.pkstatLine x) s = .next t ∧ Owes s t f (f.past 8) ⟨f.seq, [.s x.d.toNat],
      some [.s x.d.toNat (BitVec.ofNat 64 ((if (granOf s.msys pa).poisoned then 3 else 0) * 2 ^ 56 +
        (granOf s.msys pa).table.toNat * 2 ^ 32 + (lineSt s.msys pa).toNat))], 0, none, false⟩) ∧
  (∀ (x : OpDAB) (s : State) (f : Fibre) (accs : List LaneAcc) (fills : List TlbEntry), Quiet s f → scaBad x.a = false →
    scaBad x.b = false → guardMask f x.h ≠ 0 →
    combine [(0, f.sreg x.a.num.toNat, pkChecks s f true (f.sreg x.a.num.toNat))] = .ok accs fills →
    bindPoison s (partOfCore s f.id.core) (f.sreg x.b.num.toNat) = none →
    let pa := (accs.head?.map LaneAcc.pa).getD 0
    let r := bindGranule (partOfCore s f.id.core) pa (f.sreg x.b.num.toNat)
      (reaching f (.pkbind pa (f.sreg x.b.num.toNat) x.d.toNat) fills s)
    exec (.pkstatBind x) s = .next (afterOp f (f.past 8) [.s x.d.toNat] [.s x.d.toNat] [.s x.d.toNat r.2] none r.1)) ∧
  ∀ (p pa : Nat) (tid : Word) (s : State), p < 8 →
    let id := BitVec.ofNat 16 tid.toNat
    let g := granOf s.msys pa
    let r := bindGranule p pa tid s
    (wfield tid 63 16 ≠ 0 → (bindStatus s p pa tid).1 = 1) ∧
    (wfield tid 63 16 = 0 → (id = g.table ∨ id = 0) → (bindStatus s p pa tid).1 = if g.poisoned then 3 else 0) ∧
    (wfield tid 63 16 = 0 → id ≠ g.table → id ≠ 0 → (partn s p).pktdir.getLsbD 0 = false → (bindStatus s p pa tid).1 = 1) ∧
    ((bindStatus s p pa tid).1 ≠ 0 → r = (s, pkWord s pa (bindStatus s p pa tid).1)) ∧
    ((bindStatus s p pa tid).1 = 0 → id = g.table → r = (s, pkWord s pa 0)) ∧
    ((bindStatus s p pa tid).1 = 0 → id ≠ g.table →
      r.2 = pkWord r.1 pa 0 ∧ (granOf r.1.msys pa).table = id ∧
      (∀ i < 64, (granOf r.1.msys pa).states.getD i 0 = if g.states.getD i 0 = 1 then 0 else g.states.getD i 0) ∧
      (∀ a, a / 4096 ≠ pa / 4096 → granOf r.1.msys a = granOf s.msys a) ∧ SameMemory s r.1 ∧ r.1.fibres = s.fibres ∧
      ∀ t, (bindStatus s p pa tid).2 = some t → g.table = 0 → Tab.get (partn r.1 p).captured id.toNat = some t)

/-! ## Matrix engine and coded registers -/

/-- R318, R325 to R329, R332 to R336: a matrix command whose rows are in range retires once the command port accepts
it, with its B operand, scales and row indices captured; a full port makes it wait. An accepted command joins the
core's queue with its A rows gathered, or waits for the copy it is bound to, and is discarded where that copy was
abandoned. The numbers of commands are the model's own (log 45). -/
def Obligations.MatrixCommands : Prop :=
  (∀ (f : Fibre) (c : MatCmd) (s : State) (b : Block), blockOf s f = some b →
    let r := coreOf s f.id.core
    let joined := fun (waits : Option Nat) (rows : Option (List (List Byte))) => setCore s f.id.core { r with
      mat := r.mat ++ [{ c with id := r.nextId, waits := waits, arows := rows }], nextId := r.nextId + 1 }
    (c.waits = some 0 → acceptMat f c s = s) ∧
    (∀ k, k ≠ 0 → c.waits = some k → (∃ y ∈ r.copies, y.id = k ∧ y.fibre = f.id ∧ y.landed = false) →
      acceptMat f c s = joined (some k) none) ∧
    (∀ k, k ≠ 0 → c.waits = some k → (∀ y ∈ r.copies, y.id = k → y.fibre = f.id → y.landed = true) →
      rowsPoison s b c = false → acceptMat f c s = joined none (some (gatherRows s b c))) ∧
    (c.waits = none → rowsPoison s b c = false → acceptMat f c s = joined none (some (gatherRows s b c)))) ∧
  let accept := fun (i : Instr) (h : Hdr) (form : MatForm) (d ctile : BitVec 4) (cz : Bool) (a b c : Opnd) (sd : Option Opnd)
      (s : State) (f : Fibre) =>
    d.toNat < accTiles s f → (cz = false → ctile.toNat < accTiles s f) → a.cls = false → vecBad s f false a = false →
    (MatForm.size form = 64 → c.cls = false ∧ vecBad s f false c = false) →
    runBad f b (MatForm.bRegs form) (MatForm.bRegs form) = false → (∀ o, sd = some o → runBad f o 2 2 = false) →
    guardMask f h ≠ 0 → rowFault s f form (rowIndices s f (MatForm.size form) a c) = none →
    let cmd : MatCmd :=
      { id := 0, form := form, d := d.toNat, c := ctile.toNat, cz := cz, fibre := f.id, launch := f.launch, stage := f.stage
        block := f.block, rows := rowIndices s f (MatForm.size form) a c, bfrag := runBytes f b (MatForm.bRegs form)
        scales := (sd.map fun o => runBytes f o 2).getD [], arows := none, waits := f.follow, redo := none }
    (portRefuses s f (.mat cmd) = true → exec i s = .next s) ∧
    (portRefuses s f (.mat cmd) = false → exec i s = .next (afterOp f (f.past 16) [] [] [] none (acceptMat f cmd s)))
  ∀ (s : State) (f : Fibre), Quiet s f →
    (∀ x : OpMma, accept (.mma x) x.h (.mma x.afmt x.bfmt) x.d x.ctile x.cz x.a x.b x.c none s f) ∧
    (∀ x : OpMmac, accept (.mmac x) x.h .mmac x.d x.ctile x.cz x.a x.b ⟨0, 0, false, 0⟩ none s f) ∧
    (∀ x : OpMmap, accept (.mmap x) x.h (.mmap x.planes.toNat) x.d x.ctile x.cz x.a x.b x.c none s f) ∧
    (∀ x : OpMmas, accept (.mmas x) x.h (.mmas x.afmt x.bfmt) x.d x.ctile x.cz x.a x.b x.c (some x.sd) s f)

/-- R338 to R340: the accumulator instructions on tiles that no command holds: what each makes of its tile, and the
words that it writes, which lose their poison (R403); `acrd` leaves its values outstanding; a tile that a command
names makes them wait (R152). -/
def Obligations.TileInstructions : Prop :=
  (∀ (x : OpAcz) (s : State) (f : Fibre), Quiet s f → x.d.toNat < accTiles s f → guardMask f x.h ≠ 0 →
    (tileBusy s f [x.d.toNat] = true → exec (.acz x) s = .next s) ∧
    (tileBusy s f [x.d.toNat] = false → exec (.acz x) s =
      .next (afterOp f (f.past 8) [] [] [] none (setTile s f x.d.toNat Tile.zero allWords)))) ∧
  (∀ (x : OpAcscl) (s : State) (f : Fibre), Quiet s f → x.d.toNat < accTiles s f → x.c.toNat < accTiles s f → scaBad x.a = false →
    guardMask f x.h ≠ 0 → tileBusy s f [x.d.toNat, x.c.toNat] = false → tilePoison s f x.c.toNat (viewWords x.wide) = false →
    exec (.acscl x) s = .next (afterOp f (f.past 12) [] [] [] none (setTile s f x.d.toNat
      (acsclTile x.wide (tileOf s f x.c.toNat) (tileOf s f x.d.toNat) (f.sreg x.a.num.toNat)) (viewWords x.wide)))) ∧
  (∀ (x : OpAccvt) (s : State) (f : Fibre), Quiet s f → x.d.toNat < accTiles s f → x.c.toNat < accTiles s f →
    guardMask f x.h ≠ 0 → tileBusy s f [x.d.toNat, x.c.toNat] = false →
    (tilePoison s f x.c.toNat fun r c => decide (r < 32) && (x.narrow || decide (c < 32))) = false →
    exec (.accvt x) s = .next (afterOp f (f.past 12) [] [] [] none (setTile s f x.d.toNat
      (accvtTile x.narrow (tileOf s f x.c.toNat) (tileOf s f x.d.toNat)) (viewWords !x.narrow)))) ∧
  (∀ (x : OpAcrd) (s : State) (f : Fibre), Quiet s f → x.tile.toNat < accTiles s f → vdstBad s f x.wide false x.d = false →
    activeMask f x.h ≠ 0 → tileBusy s f [x.tile.toNat] = false →
    tilePoison s f x.tile.toNat (laneWords x.wide x.half x.row.toNat (activeMask f x.h)) = false →
    let T := tileOf s f x.tile.toNat
    exec (.acrd x) s = .next (afterOp f (f.past 12) (vdstNames x.wide false x.d) (vdstNames x.wide false x.d)
      (destWrites (.vec false x.d.toNat x.wide) ((lanesOf (activeMask f x.h)).map fun l =>
        (l, if x.wide then tile64 T x.row.toNat l else (tileWord T x.row.toNat (l + if x.half then 32 else 0)).setWidth 64)))
      none s)) ∧
  (∀ (x : OpAcwr) (s : State) (f : Fibre), Quiet s f → x.d.toNat < accTiles s f → vecBad s f x.wide x.a = false →
    activeMask f x.h ≠ 0 → tileBusy s f [x.d.toNat] = false →
    let T := tileOf s f x.d.toNat
    ∃ N : Tile, exec (.acwr x) s = .next (afterOp f (f.past 12) [] [] [] none (setTile s f x.d.toNat N
        (laneWords x.wide x.half x.row.toNat (activeMask f x.h)))) ∧
      ∀ r < 64, ∀ c < 64, tileWord N r c =
        if x.wide then
          (if r = x.row.toNat ∧ (activeMask f x.h).getLsbD (c / 2) = true then
            (if c % 2 = 0 then (readLane s f true x.a (c / 2)).setWidth 32 else (readLane s f true x.a (c / 2)).extractLsb' 32 32)
          else tileWord T r c)
        else
          (if r = x.row.toNat ∧ (if x.half then 32 ≤ c else c < 32) ∧
              (activeMask f x.h).getLsbD (c - if x.half then 32 else 0) = true then
            (readLane s f false x.a (c - if x.half then 32 else 0)).setWidth 32
          else tileWord T r c)) ∧
  ∀ (s : State) (f : Fibre) (t : Nat) (v : Tile) (area : TileArea) (b : Block), blockOf s f = some b → t < b.tiles.length →
    let u := setTile s f t v area
    tileOf u f t = v ∧ (∀ k, k ≠ t → tileOf u f k = tileOf s f k) ∧ tilePoison u f t area = false ∧
    u = { s with blocks := u.blocks }

/-- R288 to R291: `frcdec`, `frcenc` and `frchdr` on coded blocks in registers; their results are outstanding. A
decoded value beyond the largest finite number is a free value (log 11): the statement holds for every choice. -/
def Obligations.CodedRegisters : Prop :=
  (∀ (x : OpFrcdec) (s : State) (f : Fibre), Quiet s f →
    let P : CodedPar := ⟨x.ty == .f64, x.dim.toNat, x.rate.toNat⟩
    runBad f x.a (codecCodes P) (codecCodes P) = false → x.d.toNat % codecValues P = 0 →
    (∀ j < codecValues P, f.present (x.d.toNat + j) = true) → activeMask f x.h ≠ 0 →
    let val := fun (r l : Nat) =>
      (Coded.decode P (codeAt P (runBytes f x.a (codecCodes P)) (codecPlace P r l).1)).getD (codecPlace P r l).2 0
    ∃ t ws, exec (.frcdec x) s = .next t ∧
      Owes s t f (f.past 12) ⟨f.seq, (List.range (codecValues P)).map fun j => .v (x.d.toNat + j), some ws, 0, none, false⟩ ∧
      ws = (List.range (codecValues P)).map fun j => .v (x.d.toNat + j) (activeMask f x.h) (mkV fun l =>
        if P.f64 then BitVec.ofNat 32 (val (j / 2) l / 2 ^ (32 * (j % 2))) else BitVec.ofNat 32 (val j l))) ∧
  (∀ (x : OpFrcenc) (s : State) (f : Fibre), Quiet s f →
    let P : CodedPar := ⟨x.ty == .f64, x.dim.toNat, x.rate.toNat⟩
    let K := codecCodes P
    let V := codecValues P
    runBad f x.a V V = false → (x.ref = true → runBad f x.b K K = false) → x.d.toNat % K = 0 →
    (∀ j < K, f.present (x.d.toNat + j) = true) → activeMask f x.h ≠ 0 →
    let gs := (List.range (codecBlocks P)).filter fun g => (codecLanes P g).any fun l => (activeMask f x.h).getLsbD l
    (∀ g ∈ gs, (codecRead P f x.a.num.toNat g).any (Coded.special P) = false) →
    let code := fun (g : Nat) => Coded.encode P (if x.ref then some (codeAt P (runBytes f x.b K) g) else none)
      (codecRead P f x.a.num.toNat g)
    let new := codecPut P ((List.range K).flatMap fun j => imageOf (f.vreg (x.d.toNat + j))) (gs.map fun g => (g, code g))
    ∃ t, exec (.frcenc x) s = .next t ∧
      Owes s t f (f.past 12) ⟨f.seq, .xflags :: (List.range K).map fun j => .v (x.d.toNat + j),
        some ((List.range K).map fun j => .v (x.d.toNat + j)
          (mkMask fun l => gs.any fun g => decide (g * Coded.bytes P < 128 * j + 4 * l + 4) &&
            decide (128 * j + 4 * l < (g + 1) * Coded.bytes P))
          (ofImage ((new.drop (128 * j)).take 128))), 0, none, true⟩) ∧
  (∀ (x : OpFrchdr) (s : State) (f : Fibre), Quiet s f → scaBad x.b = false → vdstBad s f false false x.d = false →
    runBad f x.a 1 1 = false → activeMask f x.h ≠ 0 →
    (kparamOf (f.sreg x.b.num.toNat) = none → exec (.frchdr x) s = .next (raiseTrap f.id (operandTrap (.frchdr x) f) s)) ∧
    ∀ P, kparamOf (f.sreg x.b.num.toNat) = some P → runBad f x.a (codecCodes P) (codecCodes P) = false →
      ∃ t, exec (.frchdr x) s = .next t ∧ Owes s t f (f.past 8) ⟨f.seq, vdstNames false false x.d,
        some (vdstPut false false x.d (activeMask f x.h) fun l => BitVec.ofNat 64 (Coded.header P
          (codeAt P (runBytes f x.a (codecCodes P)) (codecPlace P 0 l).1))), 0, none, false⟩)

/-- R156, R159: the words left to software take ILLEGAL, EMULATE, whatever their guard. -/
def Obligations.EmulatedWords : Prop :=
  ∀ (s : State) (f : Fibre), Quiet s f →
    (∀ x : OpXop8, exec (.xop8 x) s = .next (raiseTrap f.id (illegalTrap (.xop8 x) f 7) s)) ∧
    (∀ x : OpXop12, exec (.xop12 x) s = .next (raiseTrap f.id (illegalTrap (.xop12 x) f 7) s)) ∧
    (∀ x : OpXop16, exec (.xop16 x) s = .next (raiseTrap f.id (illegalTrap (.xop16 x) f 7) s))

/-! ## Events: fibres -/

/-- R148: a result is written, and its instruction's pending bits go. R370, R371, R373, R374: the oldest unfinished
access is performed, an early value standing; a fibre with a conflict goes back to its checkpoint; neither before a
level of the ladder that is due (R377). What becomes of results outstanding at a rollback is the model's reading (log
14). -/
def Obligations.ResultsAndAccesses : Prop :=
  (∀ (s : State) (id : FibreId) (f : Fibre) (seq : Nat) (p : Pend) (ws : List RegWrite), fibre? s id = some f →
    f.pend.find? (fun q => q.seq == seq) = some p → p.writes = some ws → p.trap = none → windowWrites s f ws = [] →
    s.sameCycle = [] →
    ∃ t g, exec (.variableLatencyWrite id seq) s = .next t ∧ fibre? t id = some g ∧ t.msys = s.msys ∧
      g.regs.v = (ws.foldl (fun r w => r.put w) f.regs).v ∧ g.regs.s = (ws.foldl (fun r w => r.put w) f.regs).s ∧
      g.regs.p = (ws.foldl (fun r w => r.put w) f.regs).p ∧ g.regs.xflags = f.regs.xflags ||| p.flags ∧
      g.regs.pc = f.regs.pc ∧ g.pend = f.pend.filter fun q => q.seq != p.seq) ∧
  (∀ (s : State) (id : FibreId) (f : Fibre) (h : Held) (rest : List Held), fibre? s id = some f → heldMode s f = false →
    f.conflict = false → f.unfin = h :: rest → f.moving = [] →
    (ladderDue f = true → exec (.accessPerformed id) s = .next s) ∧
    (ladderDue f = false → h.early = false →
      let r := performOp id h.op s
      (r.ok = true → exec (.accessPerformed id) s =
        .next (checkpointRetires id (updFibre r.s id (Fibre.finish h r.writes false)))) ∧
      (r.ok = false → exec (.accessPerformed id) s = .next r.s)) ∧
    (ladderDue f = false → h.early = true → commitHeld s id h.op.accs = true → exec (.accessPerformed id) s = .next s) ∧
    (ladderDue f = false → h.early = true → ∀ accs size sg dest hint, h.op = .load accs size sg dest hint →
      commitHeld s id accs = false → exec (.accessPerformed id) s =
        .next (checkpointRetires id (updFibre (noteReads id hint 0 accs s) id (Fibre.finish h [] true))))) ∧
  (∀ (s : State) (id : FibreId) (f : Fibre) (h : Held) (rest : List Held), fibre? s id = some f → heldMode s f = false →
    f.conflict = true → f.unfin = h :: rest →
    (ladderDue f = true → exec (.rollback id) s = .next s) ∧
    (ladderDue f = false → ∃ u g, Became s u f g ∧
      g = { f.restore h.snap h.seq with rbcount := f.rbcount + 1, rbnow := f.rbnow + 1 } ∧
      exec (.rollback id) s = .next (settleParked (regrant id (dropClaims id u))))) ∧
  ∀ (f : Fibre) (regs : FRegs) (seq : Nat),
    let g := f.restore regs seq
    g.regs = regs ∧ g.seq = seq ∧ g.unfin = [] ∧ g.conflict = false ∧ g.waitTrap = none ∧ g.pend = f.pend.filter fun p => p.seq < seq

/-- R112, R399: a slot takes the fibre READY longest, and its current fibre gives issue up once another has been READY
for 12 cycles while it was current, or once it has left CURRENT; a waiting trap is entered once no result is
outstanding and nothing is unfinished. How the 12 cycles are counted, and that a fibre which has left CURRENT and is
itself the one READY longest is current again, is the model's reading (log 60). -/
def Obligations.SlotsAndWaitingTraps : Prop :=
  (∀ (s : State) (core slot : Nat),
    let here := s.fibres.filter fun f => f.id.core == core && f.id.pos / 4 == slot
    (∀ g, nextReady here = some g → fibre? s g.id = some g →
      (slotCurrent s core slot = none →
        ∃ t, exec (.slotHandover core slot) s = .next t ∧ Became s t g
          { g with isCur := true, status := .current, curSince := s.clock + 1 }) ∧
      (∀ f, slotCurrent s core slot = some f →
        (f.status = .current → s.clock < max g.readySince f.curSince + 12 → exec (.slotHandover core slot) s = .next s) ∧
        ((f.status = .current → max g.readySince f.curSince + 12 ≤ s.clock) →
          (g.id ≠ f.id → exec (.slotHandover core slot) s = .next (handOver f.id none s)) ∧
          (g.id = f.id → ∃ t, exec (.slotHandover core slot) s = .next t ∧ Became s t g { g with status := .current })))) ∧
    (nextReady here = none → exec (.slotHandover core slot) s = .next s)) ∧
  ∀ (s : State) (f : Fibre) (r : Trap) (target : Word) (user : Bool), fibre? s f.id = some f → f.status ≠ .saved →
    f.waitTrap = some r → f.pend = [] → f.unfin = [] → f.moving = [] → f.regs.level ≠ 2 → trapTarget s f r.sys = (target, user) → target ≠ 0 →
    ∃ t, exec (.trapEntry f.id) s = .next t ∧ Entered s t f r target user

/-- R377, R378: the three levels of the ladder and their thresholds. R123, R125: the fibre of a deadlocked quadrant,
and one that has waited 4,096 cycles, take REGISTER. -/
def Obligations.LadderAndRegisters : Prop :=
  (∀ c ∈ [(Instr.escalateLevel1, 1), (Instr.escalateLevel2, 2), (Instr.escalateLevel3, 3)],
    ∀ (s : State) (id : FibreId) (f : Fibre), fibre? s id = some f →
    (f.escLevel + 1 = c.2 → levelAt f c.2 ≤ f.rbnow.toNat → ∃ u, Became s u f { f with
        escLevel := c.2
        esc1 := if c.2 = 1 then f.esc1 + 1 else f.esc1
        esc2 := if c.2 = 2 then f.esc2 + 1 else f.esc2
        esc3 := if c.2 = 3 then f.esc3 + 1 else f.esc3 } ∧
      exec (c.1 id) s = .next (serveNext (partOfCore s id.core) u)) ∧
    ((f.escLevel + 1 ≠ c.2 ∨ f.rbnow.toNat < levelAt f c.2) → exec (c.1 id) s = .next s)) ∧
  (∀ f : Fibre, let n := fun (hi lo : Nat) => if wfield f.escthr hi lo = 0 then 1 else wfield f.escthr hi lo
    levelAt f 1 = n 7 0 ∧ levelAt f 2 = n 7 0 + n 15 8 ∧ levelAt f 3 = n 7 0 + n 15 8 + n 23 16) ∧
  (∀ (s : State) (core quad : Nat) (f : Fibre) (a : Acquire),
    let u := grantPending core quad 16 s
    regDeadlock u core quad = true → youngest u ((quadFibres u core quad).filter (·.acquiring)) = some f → f.acquire = some a →
    fibre? u f.id = some f →
    ∃ v, fibre? v f.id = some { f with acquire := none, status := .ready, readySince := u.clock, stuckFor := 0 } ∧
      (∀ id, id ≠ f.id → fibre? v id = fibre? (restartStuck core quad u) id) ∧ SameDevice u v ∧
      ∃ r, exec (.registerDeadlock core quad) s = .next (raiseTrap f.id r v) ∧ r.cause = 0x06 ∧ r.regs.tf0 = 1 ∧
        r.regs.tf1 = BitVec.ofNat 64 a.n ∧ r.regs.tpc = f.regs.pc) ∧
  ∀ (s : State) (f : Fibre) (a : Acquire), fibre? s f.id = some f → f.acquiring = true → f.acquire = some a →
    (a.counted < 4096 ∨ quadStuck s f.id.core (f.id.pos / 16) = true → exec (.acquireStalled f.id) s = .next s) ∧
    (4096 ≤ a.counted → quadStuck s f.id.core (f.id.pos / 16) = false → ∃ v, Became s v f { f with acquire := none, status := .ready, readySince := s.clock, stuckFor := 0 } ∧
      ∃ r, exec (.acquireStalled f.id) s = .next (raiseTrap f.id r v) ∧ r.cause = 0x06 ∧ r.regs.tf0 = 6 ∧
        r.regs.tf1 = BitVec.ofNat 64 a.n ∧ r.regs.tpc = f.regs.pc)

/-- R381 to R386: a quantum ends at its length; the next quantum of a round commits at its turn, its operations in
program order, or is discarded after a conflict; an HRU applies its committed updates in key order. How a fibre that
waits gets its next round is the model's reading (log 25), and so is what is executed again after a load whose early
value no longer stands, or after a conflict with a commit that has begun: what is left of the quantum, whose updates
are discarded (log 51). -/
def Obligations.QuantaAndUpdates : Prop :=
  (∀ (s : State) (f : Fibre), fibre? s f.id = some f → f.status.issues = true → f.waitTrap = none → awaitsFlags f = false →
    (quantumDue s f = true → ∃ t, exec (.quantumLimit f.id) s = .next t ∧ Became s t f { f with status := .commit, isCur := false }) ∧
    (quantumDue s f = false → exec (.quantumLimit f.id) s = .next s)) ∧
  (∀ (s : State) (L : Launch) (f : Fibre), launch? s L.id = some L → (firstDesc L).ordered = true → advanceRound L s = s →
    roundLacksBlock s L = false → nextCommit s L = some f → fibre? s f.id = some f → s.msys.hru = [] →
    (f.status ≠ .commit ∨ f.waitTrap ≠ none ∨ awaitsFlags f = true ∨ ladderDue f = true →
      exec (.quantumCommit L.id) s = .next s) ∧
    (f.status = .commit → f.waitTrap = none → awaitsFlags f = false → ladderDue f = false →
      (f.conflict = true → f.committing = false →
        exec (.quantumCommit L.id) s = .next (settleAdmissions L.id s (finishFlush f (discardQuantum f.id true s)))) ∧
      (f.conflict = false → f.unfin = [] →
        ∃ u, Became s u f (Fibre.nextQuantum L.round s.clock f) ∧
          exec (.quantumCommit L.id) s =
            .next (settleAdmissions L.id s (finishFlush f (checkpointRetires f.id (noteCommit f u))))) ∧
      ∀ h rest, f.unfin = h :: rest →
        (f.conflict = true → f.committing = true →
          exec (.quantumCommit L.id) s = .next (settleAdmissions L.id s (finishFlush f (redoRest f.id h true s)))) ∧
        (f.conflict = false → h.early = true → h.recheck = true → stands s f h = false → commitHeld s f.id h.op.accs = false →
          mayBegin s f = true → (f.committing = false → quantumHeld s f = false) → exec (.quantumCommit L.id) s =
            .next (settleAdmissions L.id s (finishFlush f (noteCommit f (redoRest f.id h false s))))))) ∧
  (∀ (s : State) (id : FibreId) (h : Held) (conflict : Bool),
    let t := redoRest id h conflict s
    (∀ e ∈ t.msys.hru, e.fibre = id → e.committed = true) ∧ (∀ e ∈ s.msys.hru, e.committed = true → e ∈ t.msys.hru) ∧
      SameMemory s t) ∧
  (∀ (s : State) (id : FibreId) (f : Fibre) (h : Held) (rest : List Held) (n : Nat), fibre? s id = some f → f.unfin = h :: rest →
    let note := fun (g : Fibre) => { g with qheld := h.op.keys.foldl addNew g.qheld }
    let r := performOp id h.op s
    (h.early = false → r.ok = true →
      commitOps id (n + 1) s = commitOps id n (updFibre r.s id fun g => note (g.finish h r.writes false))) ∧
    (h.early = false → r.ok = false → commitOps id (n + 1) s = (r.s, .blocked)) ∧
    (h.early = true → s.msys.hru = [] → commitHeld s id h.op.accs = true → commitOps id (n + 1) s = (s, .blocked)) ∧
    (h.early = true → s.msys.hru = [] → commitHeld s id h.op.accs = false → (h.recheck = true → stands s f h = true) →
      commitOps id (n + 1) s = commitOps id n (updFibre s id fun g => note (g.finish h [] true)))) ∧
  ∀ (s : State) (slice : Nat),
    (nextUpdate s slice = none → exec (.hruUpdateApply slice) s = .next s) ∧
    ∀ e, nextUpdate s slice = some e →
      (agentDown s .slice slice = true → exec (.hruUpdateApply slice) s = .next s) ∧
      (agentDown s .slice slice = false →
        let u := { s with msys := { s.msys with hru := s.msys.hru.filter (·.num != e.num) } }
        (partPoison u e.part = none → exec (.hruUpdateApply slice) s = .next
          (updateLane e.fibre (partOfCore s e.core) e.asid e.op ⟨e.lane, 0, [e.part]⟩ e.val u).1) ∧
        ∀ pa, partPoison u e.part = some pa → exec (.hruUpdateApply slice) s = .next
          (haltContext (partOfCore s e.core) e.asid .poison ⟨.hru, e.slice, pa, 0, e.launch, true⟩ u))

/-! ## Events: engines, placer, memory -/

/-- R259 to R262, R311: a copy whose bytes are all written lands; one at a fault stops or is abandoned by the fault's
kind; a table goes to its block's slot. R326, R330, R402: the matrix unit finishes a command, or runs a chunk again.
Poison that a command gathers follows the model's reading (log 28), the order of a copy's faults log 29. -/
def Obligations.EngineEvents : Prop :=
  (∀ (s : State) (core id : Nat) (c : CopyCmd), (coreOf s core).copies.find? (fun x => x.id == id) = some c →
    (c.stopped = false → c.table = none → c.rows * c.rowBytes ≤ c.done →
      let u := updCopy core id (fun c => { c with landed := true }) { s with msys := { s.msys with
        shadows := updIf (fun b => b.owner == (s.dev.devid.toNat, core, id)) (fun b => { b with landed := true }) s.msys.shadows } }
      exec (.copyLanding core id) s = .next (leaveEngine core c (copyRecord c 0 (copyArrives c (startFollowOn core c u))))) ∧
    (c.done < c.rows * c.rowBytes → exec (.copyLanding core id) s = .next s) ∧
    (s.msys.hru = [] → ∀ e a, copyStop s core c = some (e, a) →
      (e.cause = 0x10 → exec (.copyAbandon core id) s = .next s ∧ exec (.copyTranslationFault core id) s =
        .next (holdCopyFault c e a true (updCopy core id (fun c => { c with stopped := true }) s))) ∧
      (e.cause ≠ 0x10 → exec (.copyTranslationFault core id) s = .next s ∧
        exec (.copyAbandon core id) s = .next (abandonCopy core c e a s))) ∧
    (c.table.isSome = true →
      let u := tableFeed core id 4 s
      ∀ d, (coreOf u core).copies.find? (fun x => x.id == id) = some d →
      (tableNext d = .idle → exec (.expanderTableRead core id) s = .next u) ∧
      (∀ k, tableNext d = .poison k → exec (.expanderTableRead core id) s = .next (haltContext (copyCtx u d).part (copyCtx u d).asid
        .poison ⟨.copyEngine, core, tableAddr u d k, 0, d.launch, true⟩ u)) ∧
      ∀ t, tableNext d = .table t →
        let v := captureEarlier core d u
        let r := coreOf v core
        let own := fun (e : Word × Nat × Nat × Option XTable) => e.1 == d.launch && e.2.1 == d.stage && e.2.2.1 == d.block
        (r.expander.any own = true → exec (.expanderTableRead core id) s = .next (leaveEngine core d (setCore v core { r with
          expander := updIf own (fun e => (e.1, e.2.1, e.2.2.1, t)) r.expander }))) ∧
        (r.expander.any own = false → r.expander.length < 8 → exec (.expanderTableRead core id) s = .next (leaveEngine core d
          (setCore v core { r with expander := r.expander ++ [(d.launch, d.stage, d.block, t)] }))) ∧
        (r.expander.any own = false → 8 ≤ r.expander.length →
          exec (.expanderTableRead core id) s = .next (abandonCopy core d .range d.src v)))) ∧
  ∀ (s : State) (core id : Nat) (c : MatCmd) (rows : List (List Byte)) (b : Block), runningMat s core id = some (c, rows, b) →
    let area := viewWords (MatForm.wide c.form)
    (c.cz = true ∨ b.tileBad c.c area = false →
      let u := countRedo s c core
      exec (.matrixCommandFinish core id) s = .next (updBlock
        (setCore u core { coreOf u core with mat := (coreOf u core).mat.filter fun m => m.id != id }) b.launch b.stage b.num
        (Block.putTile c.d (matResult c (b.tiles.getD c.c Tile.zero) (b.tiles.getD c.d Tile.zero) rows) area))) ∧
    (c.cz = false → b.tileBad c.c area = true → exec (.matrixCommandFinish core id) s = .next
      (haltContext (blockContext s b).1 (blockContext s b).2 .poison ⟨.matrix, core, 0, 0, c.launch, true⟩ s)) ∧
    ∀ chunk < MatForm.chunks c.form,
      (∀ k, c.redo = some k → chunk < k → exec (.softError core id chunk) s = .next s) ∧
      (c.redo = none → exec (.softError core id chunk) s = .next (setCore s core { coreOf s core with
        mat := updIf (fun m => m.id == id) (fun m => { m with redo := some chunk }) (coreOf s core).mat })) ∧
      (∀ k, c.redo = some k → k < chunk →
        let u := countTrans (partOfCore s core) s
        exec (.softError core id chunk) s = .next (setCore u core { coreOf u core with
          mat := updIf (fun m => m.id == id) (fun m => { m with redo := some chunk }) (coreOf u core).mat })) ∧
      (c.redo = some chunk → exec (.softError core id chunk) s = .next (haltContext (blockContext s b).1 (blockContext s b).2
        .softerror ⟨.matrix, core, 0, 0, c.launch, true⟩ (countLast (blockContext s b).1 s)))

/-- R88, R90, R99, R102, R104, R411 to R418: what the placer does of itself, and when it does nothing: which block it
pre-empts for a launch that waits, by which method, and what the method leaves. The steps of arbitration that the
manual leaves open are the model's reading (log 26, 57). -/
def Obligations.PlacerEvents : Prop :=
  (∀ (s : State) (L : Launch), launch? s L.id = some L →
    (L.phase ≠ .queued ∨ eligible s L = false → exec (.launchEligibilityCheck L.id) s = .next s) ∧
    (L.phase = .queued → eligible s L = true →
      (∀ st, checkLaunch s L = .status st → exec (.launchEligibilityCheck L.id) s = .next (endLaunch L st 0 s)) ∧
      (∀ c a, checkLaunch s L = .halt c a →
        exec (.launchEligibilityCheck L.id) s = .next (haltContext L.part L.asid c ⟨.placer, 0, a, 0, L.id, true⟩ s)) ∧
      (∀ gs, checkLaunch s L = .ok gs →
        (pinsHeld s L = true → exec (.launchEligibilityCheck L.id) s = .next s) ∧
        (pinsHeld s L = false → exec (.launchEligibilityCheck L.id) s = .next (gs.foldl (fun s g => writeControlLine L.id g s)
          (updLaunch s L.id fun L => { L with phase := .placing, stages := gs }))))) ∧
    (L.waiting = none → exec (.coreReservation L.id) s = .next s ∧ exec (.placerPreemptRequest L.id) s = .next s) ∧
    (∀ w, L.waiting = some w →
      let holds := s.cores.any fun c => c.2.reserved == some L.id
      let free := (placementSet s L).filter fun c => (coreOf s c).reserved.isNone
      (w.count < 4096 ∨ holds = true → exec (.coreReservation L.id) s = .next s) ∧
      (4096 ≤ w.count → holds = false → (L.coResident = false ∨ L.saved ≠ []) → (firstDesc L).ordered = false →
        (∀ c rest, free = c :: rest → exec (.coreReservation L.id) s = .next (reserve L.id c s)) ∧
        (free = [] → exec (.coreReservation L.id) s = .next s)) ∧
      (4096 ≤ w.count → holds = false → L.coResident = false → (firstDesc L).ordered = true →
        let c := (placementSet s L).getD (w.block % (placementSet s L).length) 0
        exec (.coreReservation L.id) s = .next (if free.contains c then reserve L.id c s else s)) ∧
      let wait := wfield (partn s L.part).preemptcfg 31 16
      let mine := (s.cores.filter fun c => c.2.reserved == some L.id).map (·.1)
      let other := fun (b : Block) => ((launch? s b.launch).map (·.vf)).getD 0 ≠ L.vf ∧ admitsWithout s L w b.core b = true
      ((wait = 0 ∨ w.count < 1024 * wait ∨ (partn s L.part).vf ≠ some L.vf) →
        exec (.placerPreemptRequest L.id) s = .next s) ∧
      (wait ≠ 0 → 1024 * wait ≤ w.count → (partn s L.part).vf = some L.vf →
        (∀ c b, mine = [c] → (∀ x ∈ s.blocks, x.core = c → x.free = true) → b ∈ s.blocks → b.core = c → other b →
          (∀ x ∈ s.blocks, x.core = c → other x → x = b ∨ younger s b x = true) →
          exec (.placerPreemptRequest L.id) s = .next (preemptBlock L.part true b s)) ∧
        ((∀ b ∈ s.blocks, b.core ∈ mine → ¬ other b) → exec (.placerPreemptRequest L.id) s = .next s))) ∧
    (∀ k q g, inputOf L k = some q → L.stages[k]? = some g →
      (g.lo ≤ q.occupancy → exec (.blockWithdrawal L.id k) s = .next s) ∧
      ((firstDesc L).ordered = false → q.occupancy < g.lo → g.minb < (residents s L k).length →
        (residents s L k).any (·.withdrawn) = false → (∀ b ∈ L.saved, b.blk.stage = k → b.blk.withdrawn = false) →
        (q.closed = false ∨ q.occupancy = 0) →
        exec (.blockWithdrawal L.id k) s = .next (updBlock s L.id k
          ((residents s L k).foldl (fun m b => max m b.num) 0) fun b => { b with withdrawn := true })))) ∧
  (∀ (s : State) (p : Nat),
    ((partn (holdSlice p (grantAll s)) p).vf = none → exec (.placeBlock p) s = .next (holdSlice p (grantAll s))) ∧
    (∀ v, (partn (holdSlice p (grantAll s)) p).vf = some v → sliceOf (partn (holdSlice p (grantAll s)) p) v ≠ 0 →
      let u := holdSlice p (grantAll s)
      let asids := asidsOf u p v
      exec (.placeBlock p) s = .next (serveProcesses p v asids (2 * asids.length + 2) [] u)) ∧
    (∀ v, (partn s p).vf = some v →
      (s.clock < (partn s p).vfSince + 1024 * sliceOf (partn s p) v → exec (.timeSliceExpiry p) s = .next s) ∧
      ((partn s p).vfSince + 1024 * sliceOf (partn s p) v ≤ s.clock → ∀ w, nextVf s p v = some w →
        exec (.timeSliceExpiry p) s = .next (updPart s p fun P =>
          { P with vf := some w, vfSince := s.clock, round := [], turn := none }))) ∧
    (∀ r since, (partn s p).control.retry = some (r, since) →
      (s.clock < since + 16384 → exec (.launchRetryTimeout p) s = .next s) ∧
      (since + 16384 ≤ s.clock → exec (.launchRetryTimeout p) s =
        .next (controlStep p (updPart s p fun P => { P with control := { P.control with retry := none } }))))) ∧
  (∀ (s : State) (p : Nat) (L : Launch) (b : Block) (first : Bool),
    let drains := first = true ∧ drainFits s p L b = true
    let flushes := Desc.idem b.desc = true ∨ ((firstDesc L).ordered = true ∧ b.committed = false)
    let saves := (partn s p).savehdlr ≠ 0 ∧ (partn s p).resthdlr ≠ 0 ∧ (freeSlot (partn s p)).isSome = true ∧
      ∀ f ∈ fibresOf s b, f.regs.level ≠ 2
    (launch? s b.launch = some L → L.coResident = false →
      preemptBlock p first b s = applyMethod p (chooseMethod s p L b first) L b s) ∧
    (drains → chooseMethod s p L b first = .drain) ∧
    (¬ drains → flushes → chooseMethod s p L b first = .flush) ∧
    (¬ drains → ¬ flushes → saves → chooseMethod s p L b first = .save) ∧
    (¬ drains → ¬ flushes → ¬ saves → chooseMethod s p L b first = .drainOn)) ∧
  (∀ (s : State) (p : Nat) (L : Launch) (b : Block), p < 8 → (firstDesc L).ordered = false → b ∈ s.blocks → b.preempt = .none →
    let mine := fun (k : Block) => k.launch == b.launch && k.stage == b.stage && k.num == b.num
    s.blocks.find? mine = some b →
    (applyMethod p .drain L b s = updBlock s b.launch b.stage b.num fun k => { k with preempt := match k.preempt with
      | .drain t again => .drain t again
      | _ => .drain s.clock false }) ∧
    ((∀ f ∈ s.fibres, inBlock b f = true → f.committing = false) → ∀ g, stage? s b.launch b.stage = some g →
      ∃ t, applyMethod p .flush L b s = finishLaunch b.launch t ∧
        (∀ f ∈ t.fibres, inBlock b f = false) ∧ (∀ k ∈ t.blocks, mine k = false) ∧ (∀ k ∈ s.blocks, mine k = false → k ∈ t.blocks) ∧
        stage? t b.launch b.stage = some (Stage.flushed b g) ∧ SameMemory s t) ∧
    ∀ k, freeSlot (partn s p) = some k →
      let t := applyMethod p .save L b s
      (t.blocks.find? mine).map (·.preempt) = some (.saving k) ∧ k ∈ (partn t p).slots ∧ SameMemory s t) ∧
  ∀ (s : State) (b : Block), (s.blocks.find? fun x => x.launch == b.launch && x.stage == b.stage && x.num == b.num) = some b →
    (∀ k g, b.preempt = .inSave k g → exec (.saveStoppingPoint b.launch b.stage b.num) s = .next (finishSave b s)) ∧
    ((∀ k g, b.preempt ≠ .inSave k g) → exec (.saveStoppingPoint b.launch b.stage b.num) s = .next (stopBlock b s)) ∧
    ∀ L t, launch? s b.launch = some L → b.preempt = .drain t false →
      (s.clock < t + 4 * 1024 * wfield (partn s L.part).preemptcfg 15 0 →
        exec (.drainTimeout b.launch b.stage b.num) s = .next s) ∧
      (t + 4 * 1024 * wfield (partn s L.part).preemptcfg 15 0 ≤ s.clock → L.coResident = false →
        let u := preemptBlock L.part false b s
        exec (.drainTimeout b.launch b.stage b.num) s = .next { u with
          blocks := updIf (fun k => k.launch == b.launch && (k.stage == b.stage && k.num == b.num)) drainAgain u.blocks })

/-- R226, R228, R235, R287, R303, R307, R373, R402: walks, evictions, drained pages and errors of memory. What is
stored of a line that its home holds in part (log 12), which entry a full TLB gives up (log 22) and which lines an
evicted block has (log 31) are the model's reading. A block with a POISONED line halts contexts as it is written back
(R403), which the clauses on its lines leave to that rule. -/
def Obligations.MemoryEvents : Prop :=
  (∀ (s : State) (core asid vpage : Nat) (l : Leaf), core < 256 → asidIn s (partOfCore s core) asid = true →
    let va := vpage % 2 ^ 36 * 65536
    let held := (walkReads s (partOfCore s core) asid va).any (pathHeld s core)
    walk s (partOfCore s core) asid va = .leaf l →
    (held = false → exec (.pageWalk core asid vpage) s =
      .next (fillTlb core (tlbEntry asid va l) (noteWalk core (partOfCore s core) asid va s))) ∧
    (held = true → exec (.pageWalk core asid vpage) s = .next s)) ∧
  (∀ (s : State) (pa : Nat), ∃ t, exec (.directoryEviction pa) s = .next t ∧ (∀ d ∈ t.msys.dir, d.line ≠ pa / 64) ∧
    (∀ d ∈ s.msys.dir, d.line ≠ pa / 64 → d ∈ t.msys.dir) ∧ t.msys.hostDir.contains (pa / 64) = false ∧ SameMemory s t) ∧
  (∀ (s : State) (core pa : Nat), (holdsCopy s core (pa / 64) = false → exec (.l1Eviction core pa) s = .next s) ∧
    (holdsCopy s core (pa / 64) = true →
      ∃ t, exec (.l1Eviction core pa) s = .next t ∧ holdsCopy t core (pa / 64) = false ∧ SameMemory s t)) ∧
  (∀ (s : State) (page : Nat) (r : SealRec), (s.msys.seals.find? fun r => r.page == page) = some r → ownDev s page = true →
    (r.st = .draining → r.copies = [] → r.remote = [] →
      exec (.sealedDrainComplete page) s = .next (updSeal s page r.bits fun r => { r with st := .opened })) ∧
    (r.st ≠ .draining ∨ r.copies ≠ [] ∨ r.remote ≠ [] → exec (.sealedDrainComplete page) s = .next s)) ∧
  (∀ (s : State) (pa : Nat), (inCoded s pa = false → exec (.codedBlockEviction pa) s = .next s) ∧
    (inCoded s pa = true → (∀ l ∈ evictLines s pa, lineSt s.msys (64 * l) ≠ 3) →
      ∃ t, exec (.codedBlockEviction pa) s = .next t ∧ ∀ l ∈ evictLines s pa,
      heldBytes t.msys l = [] ∧ Tab.get t.msys.dirty l = none ∧ ∀ d ∈ t.msys.dir, d.line ≠ l)) ∧
  (∀ (s : State) (pa : Nat),
    ((inStageQueue s (pa / 64 * 64) 64 = true ∨ ∀ l ∈ evictLines s pa, Tab.get s.msys.dirty l = none) →
      exec (.homeWriteBack pa) s = .next s) ∧
    (inStageQueue s (pa / 64 * 64) 64 = false → (∃ l ∈ evictLines s pa, Tab.get s.msys.dirty l ≠ none) →
      (inCoded s pa = true → ∀ l ∈ evictLines s pa, lineSt s.msys (64 * l) ≠ 3) →
      ∃ t, exec (.homeWriteBack pa) s = .next t ∧ ∀ l ∈ evictLines s pa,
        Tab.get t.msys.dirty l = none ∧ heldBytes t.msys l = [])) ∧
  (∀ (s : State) (pa : Nat), (ownDev s pa && populated pa) = true →
    (s.msys.metas.contains (pa / 4096) = true → ∀ again, exec (.metadataError pa again) s = .next s) ∧
    (s.msys.metas.contains (pa / 4096) = false →
      exec (.metadataError pa false) s = .next (noteMeta pa (countTrans (partOfPa s pa) s)) ∧
      ∃ t, exec (.metadataError pa true) s = .next t ∧ granOf t.msys pa = ⟨Vector.ofFn fun _ => 3, 0⟩)) ∧
  (∀ (s : State) (pa : Nat), (ownDev s pa && populated pa) = true → Tab.get s.msys.dirty (pa / 64) = none →
    exec (.uncorrectableError (.cleanLine pa) false) s = .next (countTrans (partOfPa s pa) s) ∧
    ∃ t, exec (.uncorrectableError (.cleanLine pa) true) s = .next t ∧
      ∀ i < 64, isPoison t.msys (64 * (pa / 64) + i) = true) ∧
  (∀ (s : State) (core pa : Nat),
    let p := if ownDev s pa then partOfPa s pa else partOfCore s core
    let r := coreOf s core
    let cleared := setCore s core { r with icache := r.icache.filter fun e => e.1 != pa / 64 }
    let held := r.icache.any fun e => e.1 == pa / 64
    (holdsCopy s core (pa / 64) = true →
      exec (.uncorrectableError (.l1Line core pa) false) s = .next (countTrans p s) ∧
      exec (.uncorrectableError (.l1Line core pa) true) s = .next (countLast p (dropCopy core (pa / 64) s))) ∧
    (holdsCopy s core (pa / 64) = false → held = true →
      exec (.uncorrectableError (.l1Line core pa) false) s = .next (countTrans (partOfCore s core) cleared) ∧
      exec (.uncorrectableError (.l1Line core pa) true) s = .next (countLast (partOfCore s core) cleared)) ∧
    (holdsCopy s core (pa / 64) = false → held = false → ∀ again,
      exec (.uncorrectableError (.l1Line core pa) again) s = .next s)) ∧
  (∀ (s : State) (f : Fibre) (n : Nat), fibre? s f.id = some f →
    exec (.uncorrectableError (.preg f.id n) true) s = .next (countLast (partOfCore s f.id.core) (poisonReg f.id (.p n) s))) ∧
  ∀ (s : State) (p : Nat), p < 8 → ∃ t, exec (.correctableError p) s = .next t ∧
    (partn t p).errtrans = (if (partn s p).errtrans = BitVec.allOnes 64 then BitVec.allOnes 64 else (partn s p).errtrans + 1) ∧
    ∀ q, q ≠ p → partn t q = partn s q

/-- R422 to R426: the check of the links and queues that end on a die, their stop and their return; agents that fail
and rejoin under a new incarnation. R235, R236, R359: requests of other devices. Which links and queues there are,
which of them a request crosses, and that the snapshots are parameters of the check, is the model's choice (log 16,
53); so is that a sealed recall names a frame of 64 KiB (log 8). -/
def Obligations.LinksAndAgents : Prop :=
  (∀ (s : State) (die : Nat) (first second : List (Nat × Permits)),
    (5 ≤ die ∨ s.clock < s.vigils.getD die 0 + 2 ^ 20 → exec (.vigilCheck die first second) s = .next s) ∧
    (die < 5 → s.vigils.getD die 0 + 2 ^ 20 ≤ s.clock → exec (.vigilCheck die first second) s = .next
      ((s.links.filter fun l => l.kind.die == die).foldl (fun s l =>
        let seen := fun (snap : List (Nat × Permits)) => ((snap.find? fun x => x.1 == l.num).map (·.2)).getD ⟨l.total, 0, 0, 0⟩
        checkLink l (seen first) (seen second) s) { s with vigils := s.vigils.setIfInBounds die s.clock }))) ∧
  (∀ (s : State) (l : Link) (first second : Permits),
    let keep := fun (c : Permits) => updLink l.num fun l => { l with counts := c, users := [] }
    (l.stopped = true → checkLink l first second s = s) ∧
    (l.stopped = false →
      (first.sum = l.total → checkLink l first second s = keep first s) ∧
      (first.sum ≠ l.total → second.sum = l.total → checkLink l first second s = keep second (countLink l countTrans s)) ∧
      (first.sum ≠ l.total → second.sum ≠ l.total → ∃ u, checkLink l first second s = tellPeer l (lostPermit l (countLink l countLast u)) ∧
        u = updLink l.num (fun l => { l with counts := second }) s))) ∧
  (∀ (s : State) (l : Link), link? s l.num = some l →
    (l.stopped = true → exec (.linkReturnToService l.num) s =
      .next (updLink l.num (fun l => { l with stopped := false, users := [], counts := ⟨l.total, 0, 0, 0⟩ }) s)) ∧
    (l.stopped = false → exec (.linkReturnToService l.num) s = .next s ∧
      ∀ n, l.kind = .spemer n → exec (.peerLostpermit ⟨incarnation s .link l.num, l.num⟩) s = .next (lostPermit l s))) ∧
  (∀ (s : State) (incarn link : Nat), incarn ≠ incarnation s .link link → exec (.peerLostpermit ⟨incarn, link⟩) s = .next s) ∧
  (∀ (s : State) (l : Link),
    lostPermit l s = l.users.foldl (fun s u => haltContext u.1 u.2 .lostpermit ⟨.link, l.num, l.num, 0, 0, true⟩ s)
      (updLink l.num (fun l => { l with stopped := true, users := [] }) s) ∧
    (∀ n, l.kind = .spemer n → tellPeer l s = { s with outbox := s.outbox ++ [.lostpermit (incarnation s .link l.num) l.num] }) ∧
    ((∀ n, l.kind ≠ .spemer n) → tellPeer l s = s)) ∧
  (∀ (s : State) (kind : AgentKind) (num : Nat),
    (∃ t, exec (.agentFailure kind num) s = .next t ∧ (kind, num) ∈ t.dev.failed) ∧
    (s.dev.failed.contains (kind, num) = false → exec (.agentRejoin kind num) s = .next s) ∧
    (65535 ≤ incarnation s kind num → exec (.agentRejoin kind num) s = .next s) ∧
    (s.dev.failed.contains (kind, num) = true → incarnation s kind num < 65535 → agentPart s kind num < 8 →
      ∃ t, exec (.agentRejoin kind num) s = .next t ∧ incarnation t kind num = incarnation s kind num + 1 ∧
        (kind, num) ∉ t.dev.failed)) ∧
  (∀ (s : State) (dev incarn : Nat) (op : RemoteOp), incarn ≠ incarnation s .device dev ∨ ready s = false →
    exec (.remoteDeviceAccess ⟨dev, incarn, op⟩) s = .next s) ∧
  (∀ (s : State) (dev pa n : Nat), ready s = true → ownDev s pa = true → populated pa = true → s.msys.hru = [] →
    let waits := peerHeld s pa || (linesOf pa n).any fun l => commitHolds s none (none, l)
    (waits = true → exec (.remoteDeviceAccess ⟨dev, incarnation s .device dev, .copyRead pa n⟩) s = .next s) ∧
    (waits = false → (((List.range n).map (pa + ·)).find? fun a => isPoison s.msys a) = none →
      ∃ metas, exec (.remoteDeviceAccess ⟨dev, incarnation s .device dev, .copyRead pa n⟩) s = .next { s with
        outbox := s.outbox ++ [.data (incarnation s .slice (servedBy s pa)) (homeBytes s.msys pa n)]
        msys := { s.msys with metas := metas } })) ∧
  (∀ (s : State) (dev pa n : Nat), ready s = true → (ownDev s pa && populated pa) = false →
    exec (.remoteDeviceAccess ⟨dev, incarnation s .device dev, .copyRead pa n⟩) s =
      .next { s with outbox := s.outbox ++ [.errorResp (incarnation s .link (pa / 64 % 8))] }) ∧
  (∀ (s : State) (incarn page : Nat), incarn ≠ incarnation s .device (paDev page) →
    exec (.remoteSealedRecall ⟨incarn, page⟩) s = .next s) ∧
  ∀ (s : State) (page : Nat) (r : SealRec), ownDev s page = false →
    (s.msys.seals.find? fun r => r.page == page / 65536 * 65536) = some r →
    ∃ t, exec (.remoteSealedRecall ⟨incarnation s .device (paDev page), page⟩) s = .next t ∧
      t.outbox = s.outbox ++ [.remote (incarnation s .link 0) (.drop page r.copies.length)] ∧
      (∀ x ∈ t.msys.seals, x.page ≠ page / 65536 * 65536) ∧ SameMemory s t

/-! ## Events: the host and system software -/

/-- R88, R244, R401, R404, R406, R411, R412, R433 to R437, R440: what register writes leave, as a read of the register
gives it, in a partition that answers; which function reaches a register; a partition that does not answer ignores
them. A fibre that waits for the register's line meets the write (R174). That a partition which is not formed or a
failed device ignores them is the model's reading (log 20), as are when covered entries are dropped (log 21), that
CTXCTL halts at once (log 13), and that a write through a function that does not reach a register is ignored (log 55).
-/
def Obligations.RegisterWrites : Prop :=
  (∀ (s : State) (p : Nat), answers s p = true →
    (∀ (q : BitVec 10) (v : Word), ∃ t, exec (.lqcfgWrite p q v) s = .next t ∧ regRead t p (8 * q.toNat) =
      (let w := v &&& 0x1FFF0FF700FF
       let w := if asidIn s p (wfield w 44 32) = true then w else w &&& ~~~0x80
       if w.getLsbD 7 = true ∧ wfield w 44 32 ∈ (partn s p).halted then regRead s p (8 * q.toNat) else w)) ∧
    (∀ (vf : Option Nat) (r : RegName) (v : Word), reaches vf (regOffset r) = true →
      ∃ t, exec (.registerWrite ⟨vf, p⟩ r v) s = .next t ∧ regRead t p (regOffset r) = (match r with
      | .vfslice _ => v &&& 0xFFFF
      | .asidbase => v
      | .tlbinv0 => v &&& 0xFFFFFFFFF0000
      | .pktdir => v &&& 0xFFFFFFFF80001
      | .systrap | .savehdlr | .resthdlr =>
        if wfield v 63 52 = 0 ∧ wfield v 4 0 = 0 then v else regRead s p (regOffset r)
      | .stopring => v &&& 0xFFFFFFFFFFF01
      | .preemptcfg => v &&& 0xFFFFFFFF
      | .savepool => v &&& 0xFFFFFFFFFFE00001
      | .ccasid => v &&& 0x1FFF
      | .evringint _ => v &&& 0xFFFFFFFF)) ∧
    (∀ (vf : Option Nat) (r : BitVec 8) (v : Word), reaches vf (0x10000 + 32 * r.toNat) = true →
      ∃ t, exec (.evringcfgWrite ⟨vf, p⟩ r v) s = .next t ∧
      (ringOf (partn t p) r.toNat).cfg = (let w := v &&& 0xFFFFFFFFFFF01
        if wfield w 11 8 ≤ 10 ∧ inMailbox s p (wfield w 51 12 * 4096) = true then w else w &&& ~~~1) ∧
      (ringOf (partn t p) r.toNat).prod = 0 ∧ (ringOf (partn t p) r.toNat).cons = 0) ∧
    (∀ (vf : Option Nat) (r : BitVec 8) (v : BitVec 32), reaches vf (0x10000 + 32 * r.toNat + 24) = true →
      ∃ t, exec (.evconsWrite ⟨vf, p⟩ r v) s = .next t ∧ (ringOf (partn t p) r.toNat).cons = v) ∧
    (∀ last, (∃ t, exec (.errorCounterWrite p last 0) s = .next t ∧ regRead t p (if last then 0x2088 else 0x2080) = 0) ∧
      ∀ v, v ≠ 0 → exec (.errorCounterWrite p last v) s = .next (metWrite s p (if last then 0x2088 else 0x2080) s)) ∧
    (∀ asid < 8192, asidIn s p asid = true →
      (let u := updPart s p fun P => { P with ctxctl := BitVec.ofNat 64 asid }
       exec (.ctxctlHalt p asid) s =
        .next (metWrite s p 0x2090 (haltContext p asid .kill ⟨.placer, 0, 0, 0, 0, true⟩ u))) ∧
      ∃ t, exec (.ctxctlClear p asid) s = .next t ∧ (partn t p).halted.contains asid = false) ∧
    (∀ c ∈ [(Instr.tlbinvPage p, 0), (Instr.tlbinvAsid p, 1), (fun _ => Instr.tlbinvPartition p, 2)], ∀ asid < 8192,
      ((partn s p).tlbinv1.getLsbD 31 = true → exec (c.1 asid) s = .next (metWrite s p 0x2058 s)) ∧
      ((partn s p).tlbinv1.getLsbD 31 = false → ∃ t, exec (c.1 asid) s = .next t ∧
        (∀ k, partOfCore s k = p → ∀ e ∈ (coreOf t k).tlb, (c.2 = 1 → e.asid ≠ asid) ∧ c.2 ≠ 2 ∧
          (c.2 = 0 → TlbEntry.covers e asid (wfield (partn s p).tlbinv0 51 16 * 65536) = false)))) ∧
    (∀ c ∈ [(Instr.preemptreqCore p, 0), (Instr.preemptreqAsid p, 1), (Instr.preemptreqVf p, 2)], ∀ target < 8192,
      ((partn s p).preemptreq.getLsbD 31 = true → exec (c.1 target) s = .next (metWrite s p 0x20B0 s)) ∧
      ((partn s p).preemptreq.getLsbD 31 = false → requested s p c.2 target = [] →
        ∃ t, exec (c.1 target) s = .next t ∧ (partn t p).preemptreq.getLsbD 31 = false) ∧
      ((partn s p).preemptreq.getLsbD 31 = false → ∀ bs, requested s p c.2 target = bs → bs ≠ [] →
        let u := updPart s p fun P => { P with
          preemptreq := BitVec.ofNat 32 (2 ^ 31 + c.2 * 2 ^ 29 + target), reqBlocks := bs.map fun b => (b.launch, b.stage, b.num) }
        exec (c.1 target) s = .next (metWrite s p 0x20B0 ((firstChoices u bs []).foldl (fun s b =>
          match blockOn s b.launch b.stage b.core with
          | some k => if k.choosable then preemptBlock p true k s else s
          | none => s) u))))) ∧
  (∀ (s : State) (p : Nat), answers s p = false → ∀ vf q v r w, exec (.lqcfgWrite p q v) s = .next s ∧
    exec (.registerWrite ⟨vf, p⟩ r v) s = .next s ∧ exec (.evconsWrite ⟨vf, p⟩ w (v.setWidth 32)) s = .next s) ∧
  (∀ (s : State) (p v : Nat) (r : RegName) (ring : BitVec 8) (w : Word),
    (reaches (some v) (regOffset r) = (match r with
      | .evringint k => decide (v < 8) && decide (k.toNat / 32 = v)
      | _ => false)) ∧
    (reaches (some v) (regOffset r) = false → exec (.registerWrite ⟨some v, p⟩ r w) s = .next s) ∧
    (ring.toNat / 32 ≠ v → exec (.evringcfgWrite ⟨some v, p⟩ ring w) s = .next s ∧
      exec (.evconsWrite ⟨some v, p⟩ ring (w.setWidth 32)) s = .next s)) ∧
  (∀ (s : State) (p : Nat), p < 8 → (partn s p).tlbinv1.getLsbD 31 = true →
    (invDone s p = false → exec (.tlbInvalidationComplete p) s = .next s) ∧
    (invDone s p = true → ∃ t, exec (.tlbInvalidationComplete p) s = .next t ∧ (partn t p).tlbinv1.getLsbD 31 = false)) ∧
  ∀ (s : State) (p r : Nat),
    let R := ringOf (partn s p) r
    (R.count = 0 ∨ wfield R.int 19 8 = 0 ∨ s.clock < R.oldest + wfield R.int 19 8 * 1024 →
      exec (.ringTimeInterrupt p r) s = .next s) ∧
    (R.count ≠ 0 → wfield R.int 19 8 ≠ 0 → R.oldest + wfield R.int 19 8 * 1024 ≤ s.clock → R.int.getLsbD 31 = true →
      ∃ t, exec (.ringTimeInterrupt p r) s = .next t ∧ t.outbox = s.outbox ++ [.msix none (wfield R.int 30 20)])

/-- R238 to R240, R446: host accesses: the mailbox at the home, HDM-H past homes at the stack. The mailbox's place is
the model's choice (log 6); what a host access meets beside poison is its reading (log 39), and so is when one waits:
for a link on its way (log 53), for a home or a controller that is down (log 58), and at a mailbox for a line that is
held (log 51). -/
def Obligations.HostAccesses : Prop :=
  (∀ (s : State) (pa n : Nat), ready s = true → n ≠ 0 → s.msys.hru = [] → (mailboxOf s pa).isSome = true →
    mailboxOf s (pa + n - 1) = mailboxOf s pa →
    (∀ l ∈ linesOf pa n, hostHeld s (64 * l) = false ∧ lineHeld s none (none, l) = false) →
    (((List.range n).map (pa + ·)).find? fun a => isPoison s.msys a) = none →
    ∃ t, exec (.hostMailboxAccess (.read pa n)) s = .next t ∧
      t.outbox = s.outbox ++ [.data (incarnation s .slice (servedBy s pa)) (homeBytes s.msys pa n)] ∧
      SameMemory s t ∧ ∀ l ∈ linesOf pa n, l ∈ t.msys.hostDir) ∧
  (∀ (s : State) (pa : Nat) (bs : List Byte), ready s = true → bs ≠ [] → s.msys.hru = [] → (mailboxOf s pa).isSome = true →
    mailboxOf s (pa + bs.length - 1) = mailboxOf s pa →
    (∀ l ∈ linesOf pa bs.length, hostHeld s (64 * l) = false ∧ lineHeld s none (none, l) = false) →
    ∃ t, exec (.hostMailboxAccess (.write pa bs)) s = .next t ∧ t.outbox = s.outbox ∧
      ∀ a, homeByte t.msys a = if pa ≤ a ∧ a < pa + bs.length then bs.getD (a - pa) 0 else homeByte s.msys a) ∧
  (∀ (s : State) (pa n : Nat), ready s = true → n ≠ 0 →
    (∀ i < n, ownDev s (pa + i) = true ∧ populated (pa + i) = true ∧ mailboxOf s (pa + i) = none ∧
      stackPoison s.msys (pa + i) = false) →
    let waits := (linesOf pa n).any fun l => hdmHeld s (64 * l)
    (waits = true → exec (.hostHdmHAccess (.read pa n)) s = .next s) ∧
    (waits = false → ∃ metas, exec (.hostHdmHAccess (.read pa n)) s = .next { s with
      outbox := s.outbox ++ [.data (incarnation s .controller (paStack pa)) (((List.range n).map (pa + ·)).map (stackByte s.msys))]
      msys := { s.msys with metas := metas } })) ∧
  (∀ (s : State) (pa : Nat) (bs : List Byte), ready s = true → bs ≠ [] →
    (∀ i < bs.length, ownDev s (pa + i) = true ∧ populated (pa + i) = true ∧ mailboxOf s (pa + i) = none) →
    (∀ l ∈ linesOf pa bs.length, hdmHeld s (64 * l) = false ∧ lineSt s.msys (64 * l) ≠ 3) →
    ∃ t, exec (.hostHdmHAccess (.write pa bs)) s = .next t ∧ t.msys.home = s.msys.home ∧ t.fibres = s.fibres ∧
      ∀ a, stackByte t.msys a = if pa ≤ a ∧ a < pa + bs.length then bs.getD (a - pa) 0 else stackByte s.msys a) ∧
  (∀ (s : State) (acc : HostAcc), let x := hostSpan acc
    ready s = true → x.2 ≠ 0 → (mailboxOf s x.1).isSome = true → mailboxOf s (x.1 + x.2 - 1) = mailboxOf s x.1 →
    (∃ l ∈ linesOf x.1 x.2, hostHeld s (64 * l) = true ∨ lineHeld s none (none, l) = true) →
    exec (.hostMailboxAccess acc) s = .next s) ∧
  ∀ (s : State) (acc : HostAcc), (hostSpan acc).2 ≠ 0 → s.dev.step ≠ 5 → ready s = false →
    exec (.hostMailboxAccess acc) s = .next { s with outbox := s.outbox ++ [.errorResp (hostLink s)] } ∧
    exec (.hostHdmHAccess acc) s = .next { s with outbox := s.outbox ++ [.errorResp (hostLink s)] }

/-- R22, R438, R442 to R449: partitions, the device's number, attestation, sleep, repair and power-on reset. What
forming partitions does to bookkeeping (log 17), when STEP is 6 and how a sleeping device wakes (log 18), what the
configuration holds (log 19), reserved bits of ATTEST (log 38) are the model's reading; the verdict on firmware is a
free value (log 9), and so is what an image holds, which a number names (log 8). The steps of the reset are passed one
at a time (log 19). -/
def Obligations.DeviceLife : Prop :=
  (∀ (s : State) (v : Word), s.dev.step ≠ 15 →
    (s.launches ≠ [] ∨ cfgBits (v.setWidth 8) = 1 →
      exec (.partcfgWrite v) s = .next { s with dev := { s.dev with configured := true } }) ∧
    (s.launches = [] → cfgBits (v.setWidth 8) ≠ 1 → ∃ t, exec (.partcfgWrite v) s = .next t ∧
      t.dev.partcfg = v.setWidth 8 ∧ t.dev.configured = true ∧ t.msys.mem = [] ∧ t.fibres = s.fibres ∧
      ∀ c, (coreOf t c).tlb = [] ∧ (coreOf t c).icache = [] ∧ (coreOf t c).l0 = [])) ∧
  (∀ (s : State) (v : Word),
    (s.dev.configured = true → exec (.devidWrite v) s = .next s) ∧
    (s.dev.step ≠ 15 → s.dev.configured = false → s.launches = [] →
      ∃ t, exec (.devidWrite v) s = .next t ∧ t.dev.devid = v.setWidth 8 ∧ t.fibres = s.fibres)) ∧
  (∀ (s : State) (v : Word), s.dev.step ≠ 15 → s.dev.attesting = false →
    ∃ t, exec (.attestRequest v) s = .next t ∧ t.dev.attest = v &&& 0xFFFFFFFFFFFFF001 ∧ t.dev.configured = true ∧
      t.dev.attesting = ((v &&& 1 != 0) && (attestPart s (wfield v 63 12 * 4096)).isSome) ∧
      (t.dev.attesting = true → t.dev.nonce = homeBytes s.msys (wfield v 63 12 * 4096) 32)) ∧
  (∀ (s : State) (p : Nat), s.dev.attesting = true → attestPart s (wfield s.dev.attest 63 12 * 4096) = some p →
    let buf := wfield s.dev.attest 63 12 * 4096
    let report := reportBytes s s.freeCtr p
    (∃ t, exec .attestReportComplete s = .next t ∧ t.dev.attest = s.dev.attest &&& ~~~1 ∧ t.dev.attesting = false ∧
      ∀ a, homeByte t.msys a = if buf ≤ a ∧ a < buf + report.length then report.getD (a - buf) 0 else homeByte s.msys a) ∧
    (s.dev.nonce.length = 32 → report.length = 32768 ∧ report.take 32 = s.dev.nonce ∧
      (report.drop 32).take 64 = (List.range 64).map (Config.imageByte s.dev.image) ∧
      (report.drop 96).take 32 = bytesOf 8 s.dev.devid.toNat ++ bytesOf 8 s.dev.partcfg.toNat ++ bytesOf 8 p ++
        bytesOf 8 (incarnation s .dieHalf p) ∧ report.drop 29920 = List.replicate 2848 0)) ∧
  (∀ s : State, (s.dev.step = 4 ∨ s.dev.step = 6) → s.launches = [] →
    ∃ t, exec .repairSleep s = .next t ∧ t.dev.step = 5 ∧ t.dev.repair = 1 ∧
      ∃ u, exec .deviceWake t = .next u ∧ u.dev.step = 4 ∧ u.msys = s.msys ∧ u.fibres = s.fibres ∧ u.parts = s.parts) ∧
  (∀ (s : State) (half : BitVec 3), (s.dev.step = 4 ∨ s.dev.step = 6) →
    (inService s half.toNat = true → (∃ t, exec (.repairTakeOut half) s = .next t ∧ t.dev.step = 6 ∧
        inService t half.toNat = false) ∧
      ∃ t, exec (.repairReturn half) s = .next t ∧ t.dev.step = s.dev.step ∧ inService t half.toNat = true) ∧
    (inService s half.toNat = false →
      (∃ t, exec (.repairTakeOut half) s = .next t ∧ t.dev.step = s.dev.step ∧ t.msys = s.msys) ∧
      ∃ t, exec (.repairReturn half) s = .next t ∧ t.dev.step = 4 ∧ inService t half.toNat = true ∧
        ∀ a, ownDev s a = true → paStack a / 2 = half.toNat → homeByte t.msys a = 0)) ∧
  (∀ (s : State) (half : BitVec 3) (image : BitVec 48), s.dev.step = 4 → inService s half.toNat = false →
    ∃ t, exec (.repairLoadFirmware half image) s = .next t ∧
      (Config.firmwareOk s.freeCtr image.toNat = true → t.dev.step = 4 ∧ inService t half.toNat = true ∧
        t.dev.image = s.freeCtr + 1) ∧
      (Config.firmwareOk s.freeCtr image.toNat = false → inService t half.toNat = false ∧
        t.dev.step = (if s.dev.inservice = 0 then 15 else 4))) ∧
  (∀ s : State,
    (s.dev.step = 5 → exec .deviceWake s = .next { s with dev := { s.dev with step := 4 } }) ∧
    (s.dev.step ≠ 5 → exec .deviceWake s = .next s)) ∧
  ∀ s : State, ∃ t, exec .powerOnReset s = .next t ∧
    (s.dev.step ≠ 1 → s.dev.step ≠ 2 → s.dev.step ≠ 3 →
      t.dev.step = 1 ∧ t.fibres = [] ∧ t.launches = [] ∧ t.msys = MemSys.init) ∧
    (s.dev.step = 1 → t.dev.step = if Config.firmwareOk s.freeCtr 0 then 2 else 15) ∧
    (s.dev.step = 2 → t.dev.step = 3 ∧ ∀ l ∈ t.links, l.total = Config.permits l.num) ∧
    (s.dev.step = 3 → t.dev.step = 4 ∧ ready t = true ∧ t.msys = MemSys.init ∧
      (∀ c, (coreOf t c).tlb = [] ∧ (coreOf t c).icache = [] ∧ (coreOf t c).l0 = []) ∧
      ∀ p < 8, (partn t p).errtrans = 0 ∧ (partn t p).errlast = 0 ∧ (partn t p).stopcount = 0 ∧ (partn t p).evlost = 0)

/-! ## Words, the step and the canonical form -/

/-- R132 to R161: decoding what the encoder writes for a well-formed instruction gives it back, whatever follows it;
and a decoded instruction is well formed, with exactly the bytes its encoder writes. -/
def Obligations.DecodeEncode : Prop :=
  (∀ (i : Instr) (r : Raw) (rest : List Byte), i.toRaw = some r → i.wf = true → decode (encode i ++ rest) = .ok (i, rest)) ∧
  ∀ (bs rest : List Byte) (i : Instr), decode bs = .ok (i, rest) →
    i.wf = true ∧ i.toRaw.isSome = true ∧ bs = encode i ++ rest

/-- R134 to R138, R141 to R146, R153: words written field by field from the encoding tables, the highest bit first,
and words that are refused: L = 0b11, an unassigned opcode, a reserved bit of MOD, and an unused field that is not
zero. -/
def Obligations.DecodeWords : Prop :=
  -- ?!p5 iadd.i32 v3, v1, s2: MOD, SB, SA, DST, SUB, OP, G, N, H, L
  decodeTableWord 64 (0b0000000#7 ++ 0b0000000010000010#16 ++ 0b0000000000000001#16 ++ 0b0000011#7 ++ 0b010#3 ++
      0b00100000#8 ++ 0b101#3 ++ 0b1#1 ++ 0b0#1 ++ 0b00#2 : BitVec 64).toNat =
    some (.iadd8 ⟨⟨5, true, false⟩, .i32, false, false, 3, ⟨0, 0, false, 1⟩, ⟨0, 0, true, 2⟩⟩) ∧
  -- hold fadd.f64.rz v4, v2, v6.rot3
  decodeTableWord 64 (0b0010000#7 ++ 0b0001100100000110#16 ++ 0b0000000000000010#16 ++ 0b0000100#7 ++ 0b001#3 ++
      0b01010000#8 ++ 0b000#3 ++ 0b0#1 ++ 0b1#1 ++ 0b00#2 : BitVec 64).toNat =
    some (.fadd ⟨⟨0, false, true⟩, .f64, .rz, false, 4, ⟨0, 0, false, 2⟩, ⟨3, 1, false, 6⟩⟩) ∧
  -- bra by -56 words: IMM16, SC, then as above
  decodeTableWord 96 (0b1111111111001000#16 ++ 0b0000000000000000#16 ++ 0b0000000#7 ++ 0b0000000000000000#16 ++
      0b0000000000000000#16 ++ 0b0000000#7 ++ 0b000#3 ++ 0b00000001#8 ++ 0b001#3 ++ 0b0#1 ++ 0b0#1 ++ 0b01#2 : BitVec 96).toNat =
    some (.bra12 ⟨⟨1, false, false⟩, 0xFFC8⟩) ∧
  -- st.n32 s22, v5, v2, 65536: DISP, SC, then as above
  decodeTableWord 128 (0b000000000000000000000000000000010000000000000000#48 ++ 0b0000000000000010#16 ++ 0b0000000#7 ++
      0b0000000000000101#16 ++ 0b0000000010010110#16 ++ 0b0000000#7 ++ 0b110#3 ++ 0b10110001#8 ++ 0b000#3 ++ 0b0#1 ++ 0b0#1 ++
      0b10#2 : BitVec 128).toNat =
    some (.st16 ⟨⟨0, false, false⟩, .n32, .none, ⟨0, 0, true, 22⟩, ⟨0, 0, false, 5⟩, ⟨0, 0, false, 2⟩, 65536⟩) ∧
  -- mma.e4m3.e5m2 a2, v4, v16, v5, a1: CTL, SD, SC, then as above
  decodeTableWord 128 (0b01000101000000000000000000000001#32 ++ 0b0000000000000000#16 ++ 0b0000000000000101#16 ++
      0b0000000#7 ++ 0b0000000000010000#16 ++ 0b0000000000000100#16 ++ 0b0000010#7 ++ 0b000#3 ++ 0b11100000#8 ++ 0b000#3 ++
      0b0#1 ++ 0b0#1 ++ 0b10#2 : BitVec 128).toNat =
    some (.mma ⟨⟨0, false, false⟩, 2, ⟨0, 0, false, 4⟩, ⟨0, 0, false, 16⟩, ⟨0, 0, false, 5⟩, .e4m3, .e5m2, false, 1⟩) ∧
  decode [0b00000011, 0, 0, 0, 0, 0, 0, 0] = .error .noLength ∧
  decode [0b10000000, 0b00001101, 0, 0, 0, 0, 0, 0] = .error .opcode ∧
  decode [0b00000000, 0b00010000, 0, 0, 0, 0, 0, 0b00010000] = .error .mod ∧
  decode [0b00000000, 0b00000011, 0b00000100, 0, 0, 0, 0, 0] = .error .field

/-- R132, R133, R157: where the bytes at a fibre's pc decode to an instruction, the step in which the fibre issues is
that instruction's, after the fetch has left its translation and its line in the core; an event's step is the event.
Committed updates are applied first (R386), but to an event that is itself such an application. The agenda, which
names the fibre that issues and the next event, is the model's choice (log 1, 2); so is what makes a matrix
instruction wait for the port of a lower quadrant (R326, log 60). -/
def Obligations.StepRunsDecoded : Prop :=
  (∀ (s : State) (id : FibreId) (ahead : Bool) (rest : List Activity) (f : Fibre) (bs tail : List Byte) (l : Leaf) (i : Instr),
    let u := issueState id ahead (drained { s with agenda := rest })
    s.agenda = .issue id ahead :: rest → s.dev.step ≠ 5 → fibre? u id = some f → hasSlot u f = true →
    fetchBlock u (ctxOf u f) (f.id.pos / 16) f.regs.pc = .bytes bs l → f.regs.pc.toNat % 4 = 0 → decode bs = .ok (i, tail) →
    (onMatrixPort i = false ∨ portTaken u id = false → step s = exec i (noteFetch (ctxOf u f) (f.id.pos / 16) f.regs.pc l u)) ∧
    (onMatrixPort i = true → portTaken u id = true → step s = .next u)) ∧
  ∀ (s : State) (e : Instr) (rest : List Activity), s.agenda = .event e :: rest → e.toRaw = none →
    let u := { s with agenda := rest }
    (s.dev.step ≠ 5 ∨ hostEvent e = true → step s = exec e (if (Activity.event e).leavesUpdates then u else drained u)) ∧
    (s.dev.step = 5 → hostEvent e = false → step s = .next { s with agenda := rest })

/-- R132, R133, R135, R155 to R157, R398: the traps of a pc that is not a multiple of 4, of L = 0b11, of a word that
crosses its block's end, of a word that is no instruction, and of a fetch that faults. The agenda is the model's
choice (log 1, 2). -/
def Obligations.WordTraps : Prop :=
  (∀ (s : State) (id : FibreId) (ahead : Bool) (rest : List Activity) (f : Fibre) (bs : List Byte) (l : Leaf),
    let u := issueState id ahead (drained { s with agenda := rest })
    let v := noteFetch (ctxOf u f) (f.id.pos / 16) f.regs.pc l u
    s.agenda = .issue id ahead :: rest → s.dev.step ≠ 5 → fibre? u id = some f → hasSlot u f = true →
    fetchBlock u (ctxOf u f) (f.id.pos / 16) f.regs.pc = .bytes bs l → Quiet v f →
    (f.regs.pc.toNat % 4 ≠ 0 → step s = .next (raiseTrap id (misalignedTrap f) v)) ∧
    (f.regs.pc.toNat % 4 = 0 → (bs.headD 0).extractLsb' 0 2 = 3 → step s = .next (raiseTrap id (lengthTrap f bs) v)) ∧
    ∀ k : Len, f.regs.pc.toNat % 4 = 0 → (bs.headD 0).extractLsb' 0 2 = k.code →
      (bs.length < k.bytes → step s = .next (raiseTrap id (crossTrap f k.bytes bs) v)) ∧
      (∀ e, k.bytes ≤ bs.length → decode bs = .error e →
        ∃ r : Trap, step s = .next (raiseTrap id r v) ∧ r.cause = 0x01 ∧ r.sys = false ∧ r.regs.tcause = 0x01 ∧
          r.regs.tpc = f.regs.pc ∧ r.regs.tinst = BitVec.ofNat 128 (natOf (bs.take k.bytes)) ∧
          wfield r.regs.tf0 63 56 = reasonCode e)) ∧
  (∀ (s : State) (id : FibreId) (ahead : Bool) (rest : List Activity) (f : Fibre) (e : AFault),
    let u := issueState id ahead (drained { s with agenda := rest })
    s.agenda = .issue id ahead :: rest → s.dev.step ≠ 5 → fibre? u id = some f → hasSlot u f = true →
    fetchBlock u (ctxOf u f) (f.id.pos / 16) f.regs.pc = .fault e → Quiet u f →
    step s = .next (raiseTrap id (fetchTrap f e f.regs.pc f.regs.pc) u)) ∧
  ∀ f : Fibre,
    ((misalignedTrap f).regs.tcause = 0x02 ∧ wfield (misalignedTrap f).regs.tf0 63 56 = 0x11) ∧
    (∀ bs, (lengthTrap f bs).regs.tcause = 0x03 ∧ (lengthTrap f bs).regs.tpc = f.regs.pc ∧
      (lengthTrap f bs).regs.tinst = BitVec.ofNat 128 (natOf (bs.take 8))) ∧
    ∀ (k : Len) (bs : List Byte), (crossTrap f k.bytes bs).regs.tcause = 0x02 ∧
      wfield (crossTrap f k.bytes bs).regs.tf0 63 56 = 0x10 ∧ (crossTrap f k.bytes bs).regs.tinst = BitVec.ofNat 128 (natOf bs)

/-- What reset leaves where the manual says it: number 0, not yet fixed (R438), STEP 0 (R446), every metadata record
zero (R302), so that every byte reads as 0; no launch and no fibre; and memory is in canonical form. -/
def Obligations.ResetState : Prop :=
  State.Inv State.reset ∧ State.reset.dev.devid = 0 ∧ State.reset.dev.step = 0 ∧ State.reset.dev.configured = false ∧
    State.reset.fibres = [] ∧ State.reset.launches = [] ∧
    (∀ a, granOf State.reset.msys a = Granule.init ∧ lineSt State.reset.msys a = 0) ∧
    ∀ a, homeByte State.reset.msys a = 0

/-- R222, R225, R447: every step keeps the canonical form of memory. The form itself is the model's; the rules say
what memory holds. -/
def Obligations.StepKeepsCanonical : Prop :=
  ∀ s t : State, State.Inv s → step s = .next t → State.Inv t

/-- R155, R157, R405: no step stops. Whatever a fibre's word does wrong, the device traps, waits or halts a context
and goes on. That a step with nothing to do passes a cycle is the model's choice (log 43). -/
def Obligations.EveryStepGoesOn : Prop := ∀ s : State, ∃ t, step s = .next t
end

