-- ==== Sys2Proof/Laws/State.lean ====
section
/-! SUPPORT. What each named update of the state leaves alone: one lemma per field. -/

namespace Sys2Proof.Machine

/-! ### updFibre -/

@[simp] theorem updFibre_clock (s : State) (id : FibreId) (g : Fibre → Fibre) : (updFibre s id g).clock = s.clock := rfl
@[simp] theorem updFibre_blocks (s : State) (id : FibreId) (g : Fibre → Fibre) : (updFibre s id g).blocks = s.blocks := rfl
@[simp] theorem updFibre_cores (s : State) (id : FibreId) (g : Fibre → Fibre) : (updFibre s id g).cores = s.cores := rfl
@[simp] theorem updFibre_launches (s : State) (id : FibreId) (g : Fibre → Fibre) : (updFibre s id g).launches = s.launches := rfl
@[simp] theorem updFibre_parts (s : State) (id : FibreId) (g : Fibre → Fibre) : (updFibre s id g).parts = s.parts := rfl
@[simp] theorem updFibre_dev (s : State) (id : FibreId) (g : Fibre → Fibre) : (updFibre s id g).dev = s.dev := rfl
@[simp] theorem updFibre_links (s : State) (id : FibreId) (g : Fibre → Fibre) : (updFibre s id g).links = s.links := rfl
@[simp] theorem updFibre_vigils (s : State) (id : FibreId) (g : Fibre → Fibre) : (updFibre s id g).vigils = s.vigils := rfl
@[simp] theorem updFibre_msys (s : State) (id : FibreId) (g : Fibre → Fibre) : (updFibre s id g).msys = s.msys := rfl
@[simp] theorem updFibre_cur (s : State) (id : FibreId) (g : Fibre → Fibre) : (updFibre s id g).cur = s.cur := rfl
@[simp] theorem updFibre_ahead (s : State) (id : FibreId) (g : Fibre → Fibre) : (updFibre s id g).ahead = s.ahead := rfl
@[simp] theorem updFibre_sameCycle (s : State) (id : FibreId) (g : Fibre → Fibre) : (updFibre s id g).sameCycle = s.sameCycle := rfl
@[simp] theorem updFibre_lag (s : State) (id : FibreId) (g : Fibre → Fibre) : (updFibre s id g).lag = s.lag := rfl
@[simp] theorem updFibre_agenda (s : State) (id : FibreId) (g : Fibre → Fibre) : (updFibre s id g).agenda = s.agenda := rfl
@[simp] theorem updFibre_freeCtr (s : State) (id : FibreId) (g : Fibre → Fibre) : (updFibre s id g).freeCtr = s.freeCtr := rfl
@[simp] theorem updFibre_outbox (s : State) (id : FibreId) (g : Fibre → Fibre) : (updFibre s id g).outbox = s.outbox := rfl

/-! ### updBlock -/

@[simp] theorem updBlock_clock (s : State) (l : Word) (k n : Nat) (g : Block → Block) : (updBlock s l k n g).clock = s.clock := rfl
@[simp] theorem updBlock_fibres (s : State) (l : Word) (k n : Nat) (g : Block → Block) : (updBlock s l k n g).fibres = s.fibres := rfl
@[simp] theorem updBlock_cores (s : State) (l : Word) (k n : Nat) (g : Block → Block) : (updBlock s l k n g).cores = s.cores := rfl
@[simp] theorem updBlock_launches (s : State) (l : Word) (k n : Nat) (g : Block → Block) : (updBlock s l k n g).launches = s.launches := rfl
@[simp] theorem updBlock_parts (s : State) (l : Word) (k n : Nat) (g : Block → Block) : (updBlock s l k n g).parts = s.parts := rfl
@[simp] theorem updBlock_dev (s : State) (l : Word) (k n : Nat) (g : Block → Block) : (updBlock s l k n g).dev = s.dev := rfl
@[simp] theorem updBlock_links (s : State) (l : Word) (k n : Nat) (g : Block → Block) : (updBlock s l k n g).links = s.links := rfl
@[simp] theorem updBlock_vigils (s : State) (l : Word) (k n : Nat) (g : Block → Block) : (updBlock s l k n g).vigils = s.vigils := rfl
@[simp] theorem updBlock_msys (s : State) (l : Word) (k n : Nat) (g : Block → Block) : (updBlock s l k n g).msys = s.msys := rfl
@[simp] theorem updBlock_cur (s : State) (l : Word) (k n : Nat) (g : Block → Block) : (updBlock s l k n g).cur = s.cur := rfl
@[simp] theorem updBlock_ahead (s : State) (l : Word) (k n : Nat) (g : Block → Block) : (updBlock s l k n g).ahead = s.ahead := rfl
@[simp] theorem updBlock_sameCycle (s : State) (l : Word) (k n : Nat) (g : Block → Block) : (updBlock s l k n g).sameCycle = s.sameCycle := rfl
@[simp] theorem updBlock_lag (s : State) (l : Word) (k n : Nat) (g : Block → Block) : (updBlock s l k n g).lag = s.lag := rfl
@[simp] theorem updBlock_agenda (s : State) (l : Word) (k n : Nat) (g : Block → Block) : (updBlock s l k n g).agenda = s.agenda := rfl
@[simp] theorem updBlock_freeCtr (s : State) (l : Word) (k n : Nat) (g : Block → Block) : (updBlock s l k n g).freeCtr = s.freeCtr := rfl
@[simp] theorem updBlock_outbox (s : State) (l : Word) (k n : Nat) (g : Block → Block) : (updBlock s l k n g).outbox = s.outbox := rfl

/-! ### updLaunch -/

@[simp] theorem updLaunch_clock (s : State) (l : Word) (g : Launch → Launch) : (updLaunch s l g).clock = s.clock := rfl
@[simp] theorem updLaunch_fibres (s : State) (l : Word) (g : Launch → Launch) : (updLaunch s l g).fibres = s.fibres := rfl
@[simp] theorem updLaunch_blocks (s : State) (l : Word) (g : Launch → Launch) : (updLaunch s l g).blocks = s.blocks := rfl
@[simp] theorem updLaunch_cores (s : State) (l : Word) (g : Launch → Launch) : (updLaunch s l g).cores = s.cores := rfl
@[simp] theorem updLaunch_parts (s : State) (l : Word) (g : Launch → Launch) : (updLaunch s l g).parts = s.parts := rfl
@[simp] theorem updLaunch_dev (s : State) (l : Word) (g : Launch → Launch) : (updLaunch s l g).dev = s.dev := rfl
@[simp] theorem updLaunch_links (s : State) (l : Word) (g : Launch → Launch) : (updLaunch s l g).links = s.links := rfl
@[simp] theorem updLaunch_vigils (s : State) (l : Word) (g : Launch → Launch) : (updLaunch s l g).vigils = s.vigils := rfl
@[simp] theorem updLaunch_msys (s : State) (l : Word) (g : Launch → Launch) : (updLaunch s l g).msys = s.msys := rfl
@[simp] theorem updLaunch_cur (s : State) (l : Word) (g : Launch → Launch) : (updLaunch s l g).cur = s.cur := rfl
@[simp] theorem updLaunch_ahead (s : State) (l : Word) (g : Launch → Launch) : (updLaunch s l g).ahead = s.ahead := rfl
@[simp] theorem updLaunch_sameCycle (s : State) (l : Word) (g : Launch → Launch) : (updLaunch s l g).sameCycle = s.sameCycle := rfl
@[simp] theorem updLaunch_lag (s : State) (l : Word) (g : Launch → Launch) : (updLaunch s l g).lag = s.lag := rfl
@[simp] theorem updLaunch_agenda (s : State) (l : Word) (g : Launch → Launch) : (updLaunch s l g).agenda = s.agenda := rfl
@[simp] theorem updLaunch_freeCtr (s : State) (l : Word) (g : Launch → Launch) : (updLaunch s l g).freeCtr = s.freeCtr := rfl
@[simp] theorem updLaunch_outbox (s : State) (l : Word) (g : Launch → Launch) : (updLaunch s l g).outbox = s.outbox := rfl

/-! ### updStage -/

@[simp] theorem updStage_clock (s : State) (l : Word) (k : Nat) (g : Stage → Stage) : (updStage s l k g).clock = s.clock := rfl
@[simp] theorem updStage_fibres (s : State) (l : Word) (k : Nat) (g : Stage → Stage) : (updStage s l k g).fibres = s.fibres := rfl
@[simp] theorem updStage_blocks (s : State) (l : Word) (k : Nat) (g : Stage → Stage) : (updStage s l k g).blocks = s.blocks := rfl
@[simp] theorem updStage_cores (s : State) (l : Word) (k : Nat) (g : Stage → Stage) : (updStage s l k g).cores = s.cores := rfl
@[simp] theorem updStage_parts (s : State) (l : Word) (k : Nat) (g : Stage → Stage) : (updStage s l k g).parts = s.parts := rfl
@[simp] theorem updStage_dev (s : State) (l : Word) (k : Nat) (g : Stage → Stage) : (updStage s l k g).dev = s.dev := rfl
@[simp] theorem updStage_links (s : State) (l : Word) (k : Nat) (g : Stage → Stage) : (updStage s l k g).links = s.links := rfl
@[simp] theorem updStage_vigils (s : State) (l : Word) (k : Nat) (g : Stage → Stage) : (updStage s l k g).vigils = s.vigils := rfl
@[simp] theorem updStage_msys (s : State) (l : Word) (k : Nat) (g : Stage → Stage) : (updStage s l k g).msys = s.msys := rfl
@[simp] theorem updStage_cur (s : State) (l : Word) (k : Nat) (g : Stage → Stage) : (updStage s l k g).cur = s.cur := rfl
@[simp] theorem updStage_ahead (s : State) (l : Word) (k : Nat) (g : Stage → Stage) : (updStage s l k g).ahead = s.ahead := rfl
@[simp] theorem updStage_sameCycle (s : State) (l : Word) (k : Nat) (g : Stage → Stage) : (updStage s l k g).sameCycle = s.sameCycle := rfl
@[simp] theorem updStage_lag (s : State) (l : Word) (k : Nat) (g : Stage → Stage) : (updStage s l k g).lag = s.lag := rfl
@[simp] theorem updStage_agenda (s : State) (l : Word) (k : Nat) (g : Stage → Stage) : (updStage s l k g).agenda = s.agenda := rfl
@[simp] theorem updStage_freeCtr (s : State) (l : Word) (k : Nat) (g : Stage → Stage) : (updStage s l k g).freeCtr = s.freeCtr := rfl
@[simp] theorem updStage_outbox (s : State) (l : Word) (k : Nat) (g : Stage → Stage) : (updStage s l k g).outbox = s.outbox := rfl

/-! ### updPart -/

@[simp] theorem updPart_clock (s : State) (p : Nat) (g : Partn → Partn) : (updPart s p g).clock = s.clock := rfl
@[simp] theorem updPart_fibres (s : State) (p : Nat) (g : Partn → Partn) : (updPart s p g).fibres = s.fibres := rfl
@[simp] theorem updPart_blocks (s : State) (p : Nat) (g : Partn → Partn) : (updPart s p g).blocks = s.blocks := rfl
@[simp] theorem updPart_cores (s : State) (p : Nat) (g : Partn → Partn) : (updPart s p g).cores = s.cores := rfl
@[simp] theorem updPart_launches (s : State) (p : Nat) (g : Partn → Partn) : (updPart s p g).launches = s.launches := rfl
@[simp] theorem updPart_dev (s : State) (p : Nat) (g : Partn → Partn) : (updPart s p g).dev = s.dev := rfl
@[simp] theorem updPart_links (s : State) (p : Nat) (g : Partn → Partn) : (updPart s p g).links = s.links := rfl
@[simp] theorem updPart_vigils (s : State) (p : Nat) (g : Partn → Partn) : (updPart s p g).vigils = s.vigils := rfl
@[simp] theorem updPart_msys (s : State) (p : Nat) (g : Partn → Partn) : (updPart s p g).msys = s.msys := rfl
@[simp] theorem updPart_cur (s : State) (p : Nat) (g : Partn → Partn) : (updPart s p g).cur = s.cur := rfl
@[simp] theorem updPart_ahead (s : State) (p : Nat) (g : Partn → Partn) : (updPart s p g).ahead = s.ahead := rfl
@[simp] theorem updPart_sameCycle (s : State) (p : Nat) (g : Partn → Partn) : (updPart s p g).sameCycle = s.sameCycle := rfl
@[simp] theorem updPart_lag (s : State) (p : Nat) (g : Partn → Partn) : (updPart s p g).lag = s.lag := rfl
@[simp] theorem updPart_agenda (s : State) (p : Nat) (g : Partn → Partn) : (updPart s p g).agenda = s.agenda := rfl
@[simp] theorem updPart_freeCtr (s : State) (p : Nat) (g : Partn → Partn) : (updPart s p g).freeCtr = s.freeCtr := rfl
@[simp] theorem updPart_outbox (s : State) (p : Nat) (g : Partn → Partn) : (updPart s p g).outbox = s.outbox := rfl

/-! ### setRing -/

@[simp] theorem setRing_clock (s : State) (p r : Nat) (R : Ring) : (setRing s p r R).clock = s.clock := rfl
@[simp] theorem setRing_fibres (s : State) (p r : Nat) (R : Ring) : (setRing s p r R).fibres = s.fibres := rfl
@[simp] theorem setRing_blocks (s : State) (p r : Nat) (R : Ring) : (setRing s p r R).blocks = s.blocks := rfl
@[simp] theorem setRing_cores (s : State) (p r : Nat) (R : Ring) : (setRing s p r R).cores = s.cores := rfl
@[simp] theorem setRing_launches (s : State) (p r : Nat) (R : Ring) : (setRing s p r R).launches = s.launches := rfl
@[simp] theorem setRing_dev (s : State) (p r : Nat) (R : Ring) : (setRing s p r R).dev = s.dev := rfl
@[simp] theorem setRing_links (s : State) (p r : Nat) (R : Ring) : (setRing s p r R).links = s.links := rfl
@[simp] theorem setRing_vigils (s : State) (p r : Nat) (R : Ring) : (setRing s p r R).vigils = s.vigils := rfl
@[simp] theorem setRing_msys (s : State) (p r : Nat) (R : Ring) : (setRing s p r R).msys = s.msys := rfl
@[simp] theorem setRing_cur (s : State) (p r : Nat) (R : Ring) : (setRing s p r R).cur = s.cur := rfl
@[simp] theorem setRing_ahead (s : State) (p r : Nat) (R : Ring) : (setRing s p r R).ahead = s.ahead := rfl
@[simp] theorem setRing_sameCycle (s : State) (p r : Nat) (R : Ring) : (setRing s p r R).sameCycle = s.sameCycle := rfl
@[simp] theorem setRing_lag (s : State) (p r : Nat) (R : Ring) : (setRing s p r R).lag = s.lag := rfl
@[simp] theorem setRing_agenda (s : State) (p r : Nat) (R : Ring) : (setRing s p r R).agenda = s.agenda := rfl
@[simp] theorem setRing_freeCtr (s : State) (p r : Nat) (R : Ring) : (setRing s p r R).freeCtr = s.freeCtr := rfl
@[simp] theorem setRing_outbox (s : State) (p r : Nat) (R : Ring) : (setRing s p r R).outbox = s.outbox := rfl

/-! ### send -/

@[simp] theorem send_clock (s : State) (o : Out) : (send o s).clock = s.clock := rfl
@[simp] theorem send_fibres (s : State) (o : Out) : (send o s).fibres = s.fibres := rfl
@[simp] theorem send_blocks (s : State) (o : Out) : (send o s).blocks = s.blocks := rfl
@[simp] theorem send_cores (s : State) (o : Out) : (send o s).cores = s.cores := rfl
@[simp] theorem send_launches (s : State) (o : Out) : (send o s).launches = s.launches := rfl
@[simp] theorem send_parts (s : State) (o : Out) : (send o s).parts = s.parts := rfl
@[simp] theorem send_dev (s : State) (o : Out) : (send o s).dev = s.dev := rfl
@[simp] theorem send_links (s : State) (o : Out) : (send o s).links = s.links := rfl
@[simp] theorem send_vigils (s : State) (o : Out) : (send o s).vigils = s.vigils := rfl
@[simp] theorem send_msys (s : State) (o : Out) : (send o s).msys = s.msys := rfl
@[simp] theorem send_cur (s : State) (o : Out) : (send o s).cur = s.cur := rfl
@[simp] theorem send_ahead (s : State) (o : Out) : (send o s).ahead = s.ahead := rfl
@[simp] theorem send_sameCycle (s : State) (o : Out) : (send o s).sameCycle = s.sameCycle := rfl
@[simp] theorem send_lag (s : State) (o : Out) : (send o s).lag = s.lag := rfl
@[simp] theorem send_agenda (s : State) (o : Out) : (send o s).agenda = s.agenda := rfl
@[simp] theorem send_freeCtr (s : State) (o : Out) : (send o s).freeCtr = s.freeCtr := rfl

/-! ### setStep -/

@[simp] theorem setStep_clock (s : State) (n : BitVec 4) : (setStep n s).clock = s.clock := rfl
@[simp] theorem setStep_fibres (s : State) (n : BitVec 4) : (setStep n s).fibres = s.fibres := rfl
@[simp] theorem setStep_blocks (s : State) (n : BitVec 4) : (setStep n s).blocks = s.blocks := rfl
@[simp] theorem setStep_cores (s : State) (n : BitVec 4) : (setStep n s).cores = s.cores := rfl
@[simp] theorem setStep_launches (s : State) (n : BitVec 4) : (setStep n s).launches = s.launches := rfl
@[simp] theorem setStep_parts (s : State) (n : BitVec 4) : (setStep n s).parts = s.parts := rfl
@[simp] theorem setStep_links (s : State) (n : BitVec 4) : (setStep n s).links = s.links := rfl
@[simp] theorem setStep_vigils (s : State) (n : BitVec 4) : (setStep n s).vigils = s.vigils := rfl
@[simp] theorem setStep_msys (s : State) (n : BitVec 4) : (setStep n s).msys = s.msys := rfl
@[simp] theorem setStep_cur (s : State) (n : BitVec 4) : (setStep n s).cur = s.cur := rfl
@[simp] theorem setStep_ahead (s : State) (n : BitVec 4) : (setStep n s).ahead = s.ahead := rfl
@[simp] theorem setStep_sameCycle (s : State) (n : BitVec 4) : (setStep n s).sameCycle = s.sameCycle := rfl
@[simp] theorem setStep_lag (s : State) (n : BitVec 4) : (setStep n s).lag = s.lag := rfl
@[simp] theorem setStep_agenda (s : State) (n : BitVec 4) : (setStep n s).agenda = s.agenda := rfl
@[simp] theorem setStep_freeCtr (s : State) (n : BitVec 4) : (setStep n s).freeCtr = s.freeCtr := rfl
@[simp] theorem setStep_outbox (s : State) (n : BitVec 4) : (setStep n s).outbox = s.outbox := rfl

/-! ### noteConfigured -/

@[simp] theorem noteConfigured_clock (s : State) : (noteConfigured s).clock = s.clock := rfl
@[simp] theorem noteConfigured_fibres (s : State) : (noteConfigured s).fibres = s.fibres := rfl
@[simp] theorem noteConfigured_blocks (s : State) : (noteConfigured s).blocks = s.blocks := rfl
@[simp] theorem noteConfigured_cores (s : State) : (noteConfigured s).cores = s.cores := rfl
@[simp] theorem noteConfigured_launches (s : State) : (noteConfigured s).launches = s.launches := rfl
@[simp] theorem noteConfigured_parts (s : State) : (noteConfigured s).parts = s.parts := rfl
@[simp] theorem noteConfigured_links (s : State) : (noteConfigured s).links = s.links := rfl
@[simp] theorem noteConfigured_vigils (s : State) : (noteConfigured s).vigils = s.vigils := rfl
@[simp] theorem noteConfigured_msys (s : State) : (noteConfigured s).msys = s.msys := rfl
@[simp] theorem noteConfigured_cur (s : State) : (noteConfigured s).cur = s.cur := rfl
@[simp] theorem noteConfigured_ahead (s : State) : (noteConfigured s).ahead = s.ahead := rfl
@[simp] theorem noteConfigured_sameCycle (s : State) : (noteConfigured s).sameCycle = s.sameCycle := rfl
@[simp] theorem noteConfigured_lag (s : State) : (noteConfigured s).lag = s.lag := rfl
@[simp] theorem noteConfigured_agenda (s : State) : (noteConfigured s).agenda = s.agenda := rfl
@[simp] theorem noteConfigured_freeCtr (s : State) : (noteConfigured s).freeCtr = s.freeCtr := rfl
@[simp] theorem noteConfigured_outbox (s : State) : (noteConfigured s).outbox = s.outbox := rfl

/-! ### updLink -/

@[simp] theorem updLink_clock (s : State) (n : Nat) (g : Link → Link) : (updLink n g s).clock = s.clock := rfl
@[simp] theorem updLink_fibres (s : State) (n : Nat) (g : Link → Link) : (updLink n g s).fibres = s.fibres := rfl
@[simp] theorem updLink_blocks (s : State) (n : Nat) (g : Link → Link) : (updLink n g s).blocks = s.blocks := rfl
@[simp] theorem updLink_cores (s : State) (n : Nat) (g : Link → Link) : (updLink n g s).cores = s.cores := rfl
@[simp] theorem updLink_launches (s : State) (n : Nat) (g : Link → Link) : (updLink n g s).launches = s.launches := rfl
@[simp] theorem updLink_parts (s : State) (n : Nat) (g : Link → Link) : (updLink n g s).parts = s.parts := rfl
@[simp] theorem updLink_dev (s : State) (n : Nat) (g : Link → Link) : (updLink n g s).dev = s.dev := rfl
@[simp] theorem updLink_vigils (s : State) (n : Nat) (g : Link → Link) : (updLink n g s).vigils = s.vigils := rfl
@[simp] theorem updLink_msys (s : State) (n : Nat) (g : Link → Link) : (updLink n g s).msys = s.msys := rfl
@[simp] theorem updLink_cur (s : State) (n : Nat) (g : Link → Link) : (updLink n g s).cur = s.cur := rfl
@[simp] theorem updLink_ahead (s : State) (n : Nat) (g : Link → Link) : (updLink n g s).ahead = s.ahead := rfl
@[simp] theorem updLink_sameCycle (s : State) (n : Nat) (g : Link → Link) : (updLink n g s).sameCycle = s.sameCycle := rfl
@[simp] theorem updLink_lag (s : State) (n : Nat) (g : Link → Link) : (updLink n g s).lag = s.lag := rfl
@[simp] theorem updLink_agenda (s : State) (n : Nat) (g : Link → Link) : (updLink n g s).agenda = s.agenda := rfl
@[simp] theorem updLink_freeCtr (s : State) (n : Nat) (g : Link → Link) : (updLink n g s).freeCtr = s.freeCtr := rfl
@[simp] theorem updLink_outbox (s : State) (n : Nat) (g : Link → Link) : (updLink n g s).outbox = s.outbox := rfl

/-! ### endQuantum -/

@[simp] theorem endQuantum_clock (s : State) (id : FibreId) : (endQuantum id s).clock = s.clock := rfl
@[simp] theorem endQuantum_blocks (s : State) (id : FibreId) : (endQuantum id s).blocks = s.blocks := rfl
@[simp] theorem endQuantum_cores (s : State) (id : FibreId) : (endQuantum id s).cores = s.cores := rfl
@[simp] theorem endQuantum_launches (s : State) (id : FibreId) : (endQuantum id s).launches = s.launches := rfl
@[simp] theorem endQuantum_parts (s : State) (id : FibreId) : (endQuantum id s).parts = s.parts := rfl
@[simp] theorem endQuantum_dev (s : State) (id : FibreId) : (endQuantum id s).dev = s.dev := rfl
@[simp] theorem endQuantum_links (s : State) (id : FibreId) : (endQuantum id s).links = s.links := rfl
@[simp] theorem endQuantum_vigils (s : State) (id : FibreId) : (endQuantum id s).vigils = s.vigils := rfl
@[simp] theorem endQuantum_msys (s : State) (id : FibreId) : (endQuantum id s).msys = s.msys := rfl
@[simp] theorem endQuantum_cur (s : State) (id : FibreId) : (endQuantum id s).cur = s.cur := rfl
@[simp] theorem endQuantum_ahead (s : State) (id : FibreId) : (endQuantum id s).ahead = s.ahead := rfl
@[simp] theorem endQuantum_sameCycle (s : State) (id : FibreId) : (endQuantum id s).sameCycle = s.sameCycle := rfl
@[simp] theorem endQuantum_lag (s : State) (id : FibreId) : (endQuantum id s).lag = s.lag := rfl
@[simp] theorem endQuantum_agenda (s : State) (id : FibreId) : (endQuantum id s).agenda = s.agenda := rfl
@[simp] theorem endQuantum_freeCtr (s : State) (id : FibreId) : (endQuantum id s).freeCtr = s.freeCtr := rfl
@[simp] theorem endQuantum_outbox (s : State) (id : FibreId) : (endQuantum id s).outbox = s.outbox := rfl

/-! ### dropClaims -/

@[simp] theorem dropClaims_clock (s : State) (id : FibreId) : (dropClaims id s).clock = s.clock := rfl
@[simp] theorem dropClaims_fibres (s : State) (id : FibreId) : (dropClaims id s).fibres = s.fibres := rfl
@[simp] theorem dropClaims_blocks (s : State) (id : FibreId) : (dropClaims id s).blocks = s.blocks := rfl
@[simp] theorem dropClaims_cores (s : State) (id : FibreId) : (dropClaims id s).cores = s.cores := rfl
@[simp] theorem dropClaims_launches (s : State) (id : FibreId) : (dropClaims id s).launches = s.launches := rfl
@[simp] theorem dropClaims_parts (s : State) (id : FibreId) : (dropClaims id s).parts = s.parts := rfl
@[simp] theorem dropClaims_dev (s : State) (id : FibreId) : (dropClaims id s).dev = s.dev := rfl
@[simp] theorem dropClaims_links (s : State) (id : FibreId) : (dropClaims id s).links = s.links := rfl
@[simp] theorem dropClaims_vigils (s : State) (id : FibreId) : (dropClaims id s).vigils = s.vigils := rfl
@[simp] theorem dropClaims_cur (s : State) (id : FibreId) : (dropClaims id s).cur = s.cur := rfl
@[simp] theorem dropClaims_ahead (s : State) (id : FibreId) : (dropClaims id s).ahead = s.ahead := rfl
@[simp] theorem dropClaims_sameCycle (s : State) (id : FibreId) : (dropClaims id s).sameCycle = s.sameCycle := rfl
@[simp] theorem dropClaims_lag (s : State) (id : FibreId) : (dropClaims id s).lag = s.lag := rfl
@[simp] theorem dropClaims_agenda (s : State) (id : FibreId) : (dropClaims id s).agenda = s.agenda := rfl
@[simp] theorem dropClaims_freeCtr (s : State) (id : FibreId) : (dropClaims id s).freeCtr = s.freeCtr := rfl
@[simp] theorem dropClaims_outbox (s : State) (id : FibreId) : (dropClaims id s).outbox = s.outbox := rfl

/-! ### setCore -/

@[simp] theorem setCore_clock (s : State) (c : Nat) (r : CoreRec) : (setCore s c r).clock = s.clock := by
  unfold setCore; split <;> rfl
@[simp] theorem setCore_fibres (s : State) (c : Nat) (r : CoreRec) : (setCore s c r).fibres = s.fibres := by
  unfold setCore; split <;> rfl
@[simp] theorem setCore_blocks (s : State) (c : Nat) (r : CoreRec) : (setCore s c r).blocks = s.blocks := by
  unfold setCore; split <;> rfl
@[simp] theorem setCore_launches (s : State) (c : Nat) (r : CoreRec) : (setCore s c r).launches = s.launches := by
  unfold setCore; split <;> rfl
@[simp] theorem setCore_parts (s : State) (c : Nat) (r : CoreRec) : (setCore s c r).parts = s.parts := by
  unfold setCore; split <;> rfl
@[simp] theorem setCore_dev (s : State) (c : Nat) (r : CoreRec) : (setCore s c r).dev = s.dev := by
  unfold setCore; split <;> rfl
@[simp] theorem setCore_links (s : State) (c : Nat) (r : CoreRec) : (setCore s c r).links = s.links := by
  unfold setCore; split <;> rfl
@[simp] theorem setCore_vigils (s : State) (c : Nat) (r : CoreRec) : (setCore s c r).vigils = s.vigils := by
  unfold setCore; split <;> rfl
@[simp] theorem setCore_msys (s : State) (c : Nat) (r : CoreRec) : (setCore s c r).msys = s.msys := by
  unfold setCore; split <;> rfl
@[simp] theorem setCore_cur (s : State) (c : Nat) (r : CoreRec) : (setCore s c r).cur = s.cur := by
  unfold setCore; split <;> rfl
@[simp] theorem setCore_ahead (s : State) (c : Nat) (r : CoreRec) : (setCore s c r).ahead = s.ahead := by
  unfold setCore; split <;> rfl
@[simp] theorem setCore_sameCycle (s : State) (c : Nat) (r : CoreRec) : (setCore s c r).sameCycle = s.sameCycle := by
  unfold setCore; split <;> rfl
@[simp] theorem setCore_lag (s : State) (c : Nat) (r : CoreRec) : (setCore s c r).lag = s.lag := by
  unfold setCore; split <;> rfl
@[simp] theorem setCore_agenda (s : State) (c : Nat) (r : CoreRec) : (setCore s c r).agenda = s.agenda := by
  unfold setCore; split <;> rfl
@[simp] theorem setCore_freeCtr (s : State) (c : Nat) (r : CoreRec) : (setCore s c r).freeCtr = s.freeCtr := by
  unfold setCore; split <;> rfl
@[simp] theorem setCore_outbox (s : State) (c : Nat) (r : CoreRec) : (setCore s c r).outbox = s.outbox := by
  unfold setCore; split <;> rfl

end Sys2Proof.Machine
end

