-- ==== Sys2Proof/Laws/Fibre.lean ====
section
/-! SUPPORT. Finding a fibre after fibres were changed, and what register writes leave of a fibre. -/

namespace Sys2Proof.Machine

/-- Finding in a list whose picked elements were changed without changing what is looked for. -/
theorem find?_updIf {α : Type} (q p : α → Bool) (g : α → α) (l : List α) (h : ∀ x, q (g x) = q x) :
    (updIf p g l).find? q = (l.find? q).map fun x => if p x then g x else x := by
  induction l with
  | nil => rfl
  | cons a r ih =>
    have ha : q (if p a then g a else a) = q a := by split <;> simp [h]
    simp only [updIf, List.map_cons, List.find?_cons, ha] at ih ⊢
    cases q a <;> simp [ih]

/-- The fibre found at a place is at that place. -/
theorem fibre?_id {s : State} {id : FibreId} {f : Fibre} (h : fibre? s id = some f) : f.id = id := by
  have := List.find?_some h
  simpa using this

/-- The fibre at a place after one place was changed. -/
theorem fibre?_updFibre (s : State) (id j : FibreId) (g : Fibre → Fibre) (hg : ∀ f, (g f).id = f.id) :
    fibre? (updFibre s id g) j = (fibre? s j).map fun f => if j = id then g f else f := by
  unfold fibre? updFibre
  rw [find?_updIf _ _ _ _ (fun f => by simp [hg])]
  cases h : s.fibres.find? fun f => f.id == j with
  | none => rfl
  | some f =>
    have hf : f.id = j := by simpa using List.find?_some h
    simp [hf]

/-- The changed fibre itself. -/
theorem fibre?_updFibre_self (s : State) (id : FibreId) (g : Fibre → Fibre) (hg : ∀ f, (g f).id = f.id) :
    fibre? (updFibre s id g) id = (fibre? s id).map g := by
  simp [fibre?_updFibre s id id g hg]

/-- Another fibre. -/
theorem fibre?_updFibre_ne (s : State) {id j : FibreId} (g : Fibre → Fibre) (hg : ∀ f, (g f).id = f.id) (h : j ≠ id) :
    fibre? (updFibre s id g) j = fibre? s j := by
  simp [fibre?_updFibre s id j g hg, h]

/-! ### Identity is kept -/

@[simp] theorem unpoison_id (f : Fibre) (r : RegId) : (f.unpoison r).id = f.id := rfl
@[simp] theorem write_id (f : Fibre) (w : RegWrite) : (f.write w).id = f.id := by
  unfold Fibre.write; dsimp only; split <;> rfl
@[simp] theorem writeAll_id (ws : List RegWrite) (f : Fibre) : (f.writeAll ws).id = f.id := by
  unfold Fibre.writeAll
  induction ws generalizing f with
  | nil => rfl
  | cons w r ih => simp [ih]
@[simp] theorem raise_id (f : Fibre) (x : BitVec 32) : (f.raise x).id = f.id := rfl
@[simp] theorem retire_id (f : Fibre) (pc : Word) : (f.retire pc).id = f.id := rfl
@[simp] theorem reserve_id (f : Fibre) (b : Bool) (r : List RegId) : (f.reserve b r).id = f.id := rfl
@[simp] theorem owe_id (f : Fibre) (p : Pend) : (f.owe p).id = f.id := by
  unfold Fibre.owe; split <;> rfl

/-! ### Writes of a fibre without poison -/

/-- With no poison a write changes the registers alone. -/
theorem write_clean (f : Fibre) (w : RegWrite) (h : f.poison = []) : f.write w = { f with regs := f.regs.put w } := by
  unfold Fibre.write; simp [h]

/-- The same of several writes. -/
theorem writeAll_clean (ws : List RegWrite) (f : Fibre) (h : f.poison = []) :
    f.writeAll ws = { f with regs := ws.foldl (fun r w => r.put w) f.regs } := by
  induction ws generalizing f with
  | nil => rfl
  | cons w r ih =>
    show (f.write w).writeAll r = _
    rw [write_clean f w h]
    exact (ih { f with regs := f.regs.put w } h).trans rfl

/-- Reserving entries of an undo log that nothing keeps changes nothing. -/
theorem reserve_idle (f : Fibre) (rs : List RegId) (h : f.unfin = []) : f.reserve false rs = f := by
  unfold Fibre.reserve
  cases f
  simp_all

/-! ### Lanes -/

@[simp] theorem lane_mkV (x : Nat → Elem) (l : Nat) (h : l < 32) : lane (mkV x) l = x l := by
  simp [lane, mkV, h]

/-- Merging by a mask. -/
theorem lane_mergeV (mask : BitVec 32) (a b : VReg) (l : Nat) (h : l < 32) :
    lane (mergeV mask a b) l = if mask.getLsbD l then lane a l else lane b l := by
  simp [mergeV, h]

/-! ### One register after a write -/

/-- A vector register after a write to a vector register. -/
theorem vreg_put_v (r : FRegs) (n m : Nat) (mask : BitVec 32) (x : VReg) :
    (r.put (.v n mask x)).v.getD m zeroV =
      if m = n ∧ n < 128 then mergeV mask x (r.v.getD n zeroV) else r.v.getD m zeroV := by
  simp only [FRegs.put, Vector.getD]
  by_cases hm : m < 128
  · by_cases h : m = n
    · subst h; simp [hm]
    · have h' : ¬ n = m := fun e => h e.symm
      simp [hm, h, h']
  · have : ¬ (m = n ∧ n < 128) := by omega
    simp [hm, this]

/-- Window writes do not touch the fibre's own registers. -/
@[simp] theorem put_w (r : FRegs) (n : Nat) (mask : BitVec 32) (x : VReg) : r.put (.w n mask x) = r := rfl

end Sys2Proof.Machine
end

