-- ==== Sys2Proof/Laws/Issue.lean ====
section
/-! SUPPORT. The issue of one word by a fibre that nothing holds back: `issueWord` answers what the effect's own function
gives, and each kind of effect has its equation. -/

namespace Sys2Proof.Machine

/-- A plan whose own checks let it through: no CONTEXT, no OPERAND, room in an undo log of 64 entries is no question, as
nothing is unfinished. -/
structure Passes (f : Fibre) (P : Plan) (h : Hdr) : Prop where
  context : P.context = false
  operand : P.operand = false
  active  : execMask f h P ≠ 0

/-- Window writes change fibres alone. -/
theorem putWindows_fibres (s : State) (f : Fibre) (ws : List RegWrite) : ∃ l, putWindows s f ws = { s with fibres := l } := by
  unfold putWindows
  generalize windowWrites s f ws = xs
  induction xs generalizing s with
  | nil => exact ⟨s.fibres, rfl⟩
  | cons x r ih =>
    obtain ⟨l, hl⟩ := ih (updFibre s x.1 (Fibre.partnerWrite x.2))
    exact ⟨l, hl⟩

/-- Whether operations are held does not depend on other fibres' registers. -/
theorem heldMode_putWindows (s : State) (f : Fibre) (ws : List RegWrite) (g : Fibre) :
    heldMode (putWindows s f ws) g = heldMode s g := by
  obtain ⟨l, hl⟩ := putWindows_fibres s f ws
  rw [hl]
  rfl

section
variable {s : State} {f : Fibre}

theorem Quiet.id (q : Quiet s f) : f.id = s.cur := fibre?_id q.sel
theorem Quiet.own (q : Quiet s f) : fibre? s f.id = some f := q.id ▸ q.sel

/-- No register of the fibre is pending. -/
theorem Quiet.hazard (q : Quiet s f) (rs : List RegId) : hazard f rs = false := by
  simp [Machine.hazard, Fibre.pending, q.pend]

/-- No pending result may raise flags. -/
theorem Quiet.flags (q : Quiet s f) : awaitsFlags f = false := by
  simp [awaitsFlags, q.pend]

/-- Nothing keeps the fibre from issuing. -/
theorem Quiet.can (q : Quiet s f) : cannotIssue s f = false := by
  simp [cannotIssue, q.status, q.trap, q.conflict, q.faults, q.going]

/-- Nothing of the fibre is unfinished. -/
theorem Quiet.settled (q : Quiet s f) : f.settled = true := by simp [Fibre.settled, q.unfin, q.moving]

/-- No level of the ladder is due. -/
theorem Quiet.notDue (q : Quiet s f) : ladderDue f = false := by
  simp [ladderDue, levelAt, q.ladder, q.rolled, threshold]

/-- The ladder lets it go. -/
theorem Quiet.ladderLets (q : Quiet s f) (P : Plan) : ladderHolds s f P = false := by
  simp [ladderHolds, q.ladder, q.level3, q.notDue]

/-- No quantum ends. -/
theorem Quiet.noQuantum (q : Quiet s f) : quantumDue s f = false := by
  simp [quantumDue, q.plain]

/-- No window is in the way. -/
theorem Quiet.windows (q : Quiet s f) (P : Plan) : windowWaits s f P = false := by
  unfold windowWaits
  cases h : windowIn s f with
  | none => simp
  | some w =>
    obtain ⟨a, b, n⟩ := w
    simp [q.window a b n h]

/-- It need not wait. -/
theorem Quiet.goes (q : Quiet s f) (P : Plan) : mustWait s f P = false := by
  simp [mustWait, q.settled]

/-- No undo log is kept. -/
theorem Quiet.room (q : Quiet s f) (rs : List RegId) : undoFull s f rs = false := by
  simp [undoFull, q.plain, q.unfin]

/-- No register that it reads is poisoned. -/
theorem Quiet.reads (q : Quiet s f) (rs : List RegId) : readsPoison s f rs = false := by
  simp only [readsPoison, List.any_eq_false, q.poison]
  intro r _
  cases r with
  | w i =>
    cases h : windowReg s f i with
    | none => simp only [h]; simp
    | some a =>
      have := q.shown i a h
      simp only [h]
      simpa using this
  | _ => simp

/-- No arrival is owed. -/
theorem Quiet.paid (q : Quiet s f) : (f.owed != []) = false := by simp [q.owed]

/-- The issue of a word by a quiet fibre: its effect is carried out. -/
theorem issueWord_quiet (q : Quiet s f) (i : Instr) (h : Hdr) (plan : State → Fibre → Plan)
    (c : Passes f (plan s f) h) :
    issueWord i h plan s =
      .next (carry i f (plan s f) (putAlways f (plan s f) s) ((plan s f).own (execMask f h (plan s f)))) := by
  have ha : ¬ execMask f h (plan s f) = 0#32 := c.active
  unfold issueWord
  rw [q.sel]
  simp [issueFor, issueChecked, q.can, q.ladderLets, q.flags, q.noQuantum, q.pend, q.shared, q.windows, q.hazard, q.reads,
    q.paid, q.goes, q.room, c.context, c.operand, ha]

/-- A quiet fibre whose word has no active lane retires it with no effect beside (R147). -/
theorem issueWord_idle (q : Quiet s f) (i : Instr) (h : Hdr) (plan : State → Fibre → Plan)
    (hc : (plan s f).context = false) (ho : (plan s f).operand = false) (ha : execMask f h (plan s f) = 0) :
    issueWord i h plan s = .next (retireFixed f ((plan s f).written 0) [] 0 (nextPc i f) (putAlways f (plan s f) s)) := by
  unfold issueWord
  rw [q.sel]
  simp [issueFor, issueChecked, q.can, q.ladderLets, q.flags, q.noQuantum, q.pend, q.shared, q.windows, q.hazard, q.paid, q.room, hc, ho, ha]

/-- A quiet fibre whose operands are refused takes OPERAND (R157). -/
theorem issueWord_operand (q : Quiet s f) (i : Instr) (h : Hdr) (plan : State → Fibre → Plan)
    (hc : (plan s f).context = false) (ho : (plan s f).operand = true) :
    issueWord i h plan s = .next (raiseTrap f.id (operandTrap i f) s) := by
  unfold issueWord
  rw [q.sel]
  simp [issueFor, issueChecked, q.can, q.ladderLets, q.flags, q.noQuantum, q.pend, q.shared, q.windows, q.paid, hc, ho]

/-- A quiet fibre whose word is not allowed where it stands takes ILLEGAL, CONTEXT (R156). -/
theorem issueWord_context (q : Quiet s f) (i : Instr) (h : Hdr) (plan : State → Fibre → Plan)
    (hc : (plan s f).context = true) :
    issueWord i h plan s = .next (raiseTrap f.id (illegalTrap i f 8) s) := by
  unfold issueWord
  rw [q.sel]
  simp [issueFor, issueChecked, q.can, q.ladderLets, q.flags, q.noQuantum, q.pend, q.shared, q.paid, hc]

/-- A quiet fibre takes a trap that an instruction raises at once (R376, R399). -/
theorem raiseTrap_quiet (q : Quiet s f) (t : Trap) : raiseTrap f.id t s = enterTrap f.id t .ready none s := by
  unfold raiseTrap
  rw [q.own]
  have hs : f.status.freeze = .ready := by
    have := q.status
    cases h : f.status <;> simp_all [FStatus.issues, FStatus.freeze]
  simp [q.trap, canEnter, q.pend, q.settled, hs]

/-! ### Effects -/

@[simp] theorem putAlways_none (P : Plan) (h : P.always = []) : putAlways f P s = s := by simp [putAlways, h]

/-- No write of this cycle stands before another (R128). -/
theorem Quiet.stands (q : Quiet s f) (ws : List RegWrite) : standing s f ws = ws := by simp [standing, q.cycle]

/-- Register writes of fixed latency by a quiet fibre: windows first, then its own registers, flags, and the pc. -/
theorem retireFixed_quiet (q : Quiet s f) (dests : List RegId) (ws : List RegWrite) (fl : BitVec 32) (pc : Word) :
    retireFixed f dests ws fl pc s =
      updFibre (putWindows (noteShared f ws s) f ws) f.id fun g => (((g.writeAll ws).raise fl).reserve false dests).retire pc := by
  have : heldMode (putWindows (noteShared f ws s) f ws) f = false := (heldMode_putWindows (noteShared f ws s) f ws f).trans q.plain
  simp only [retireFixed, q.stands, this]

end

end Sys2Proof.Machine
end

