-- ==== Sys2Proof/Laws/Lanes.lean ====
section
/-! SUPPORT. What writing the lanes of a vector destination does, for the fibre's own registers and for its partner's. -/

namespace Sys2Proof.Machine

section
variable {s : State} {f : Fibre}

/-- Registers of a fibre without poison, after the writes of an instruction, its flags and its retirement. -/
theorem after_writes (q : Quiet s f) (dests : List RegId) (ws : List RegWrite) (fl : BitVec 32) (pc : Word) :
    (((f.writeAll ws).raise fl).reserve false dests).retire pc =
      ({ f with regs := ws.foldl (fun r w => r.put w) f.regs }.raise fl).retire pc := by
  rw [writeAll_clean ws f q.poison]
  exact congrArg (fun g : Fibre => g.retire pc) (reserve_idle _ dests (show _ = [] from q.unfin))

/-- A fibre's own vector writes are no window writes. -/
theorem windowWrites_own (wide : Bool) (d : BitVec 7) (mask : BitVec 32) (x : Nat → BitVec 64) :
    windowWrites s f (vdstPut wide false d mask x) = [] := by
  cases wide <;> simp [windowWrites, vdstPut]

/-- Two registers that a fibre's own destination names. -/
theorem own_regs (wide : Bool) (d : BitVec 7) (mask : BitVec 32) (x : Nat → BitVec 64) (r : FRegs) :
    (vdstPut wide false d mask x).foldl (fun r w => r.put w) r =
      { r with v := ((vdstPut wide false d mask x).foldl (fun r w => r.put w) r).v } := by
  cases wide <;> rfl

/-- Window writes leave the writer's own registers. -/
theorem window_regs (wide : Bool) (d : BitVec 7) (mask : BitVec 32) (x : Nat → BitVec 64) (r : FRegs) :
    (vdstPut wide true d mask x).foldl (fun r w => r.put w) r = r := by
  cases wide <;> rfl

/-- The owner of a window is another fibre, and it is resident. -/
theorem windowIn_owner {a : Fibre} {b n : Nat} (h : windowIn s f = some (a, b, n)) : a.id ≠ f.id ∧ a ∈ s.fibres := by
  unfold windowIn at h
  obtain ⟨g, hg, h⟩ := List.exists_of_findSome?_eq_some h
  split at h
  · split at h
    · rename_i hc
      simp only [Option.some.injEq, Prod.mk.injEq] at h
      obtain ⟨rfl, -, -⟩ := h
      simp only [Bool.and_eq_true, bne_iff_ne] at hc
      exact ⟨hc.1.1.2, hg⟩
    · cases h
  · cases h

theorem windowReg_owner {a : Fibre} {i n : Nat} (h : windowReg s f i = some (a, n)) : a.id ≠ f.id := by
  unfold windowReg at h
  split at h
  · rename_i w
    split at h
    · simp only [Option.some.injEq, Prod.mk.injEq] at h
      obtain ⟨rfl, -⟩ := h
      exact (windowIn_owner w).1
    · cases h
  · cases h

/-- The next register of a window. -/
theorem windowReg_succ {a : Fibre} {i n : Nat} (h : windowReg s f i = some (a, n)) (h2 : (windowReg s f (i + 1)).isSome) :
    windowReg s f (i + 1) = some (a, n + 1) := by
  unfold windowReg at h h2 ⊢
  split at h
  · rename_i w b l hw
    split at h
    · simp only [Option.some.injEq, Prod.mk.injEq] at h
      obtain ⟨rfl, rfl⟩ := h
      simp only [hw] at h2
      split at h2
      · rename_i hlt
        simp [hlt, Nat.add_assoc]
      · simp at h2
    · cases h
  · cases h

/-- A fibre without its vector registers after a write to one. -/
theorem sansV_write (g : Fibre) (n : Nat) (mask : BitVec 32) (x : VReg) : (g.write (.v n mask x)).sansV = g.sansV := by
  unfold Fibre.write
  dsimp only
  split <;> rfl

/-- One vector register of a fibre after a write to one. -/
theorem vreg_write (g : Fibre) (n m : Nat) (mask : BitVec 32) (x : VReg) :
    (g.write (.v n mask x)).vreg m = if m = n ∧ n < 128 then mergeV mask x (g.vreg n) else g.vreg m := by
  have h : (g.write (.v n mask x)).regs = g.regs.put (.v n mask x) := by
    unfold Fibre.write; dsimp only; split <;> rfl
  unfold Fibre.vreg
  rw [h, vreg_put_v]

/-- The vector registers after the writes of a destination of the fibre's own. -/
theorem own_vreg (wide : Bool) (d : BitVec 7) (mask : BitVec 32) (x : Nat → BitVec 64) (r : FRegs)
    (h : wide = true → d.toNat % 2 = 0) (m : Nat) :
    ((vdstPut wide false d mask x).foldl (fun r w => r.put w) r).v.getD m zeroV =
      if m = d.toNat then mergeV mask (mkV fun l => (x l).setWidth 32) (r.v.getD m zeroV)
      else if wide = true ∧ m = d.toNat + 1 then mergeV mask (mkV fun l => (x l).extractLsb' 32 32) (r.v.getD m zeroV)
      else r.v.getD m zeroV := by
  have hd : d.toNat < 128 := d.isLt
  cases wide with
  | false =>
    simp only [vdstPut, Bool.false_eq_true, if_false, List.foldl_cons, List.foldl_nil, vreg_put_v]
    by_cases hm : m = d.toNat
    · subst hm; simp [hd]
    · simp [hm]
  | true =>
    have h1 : d.toNat + 1 < 128 := by have := h rfl; omega
    simp only [vdstPut, Bool.false_eq_true, if_false, if_true, List.foldl_cons, List.foldl_nil, vreg_put_v]
    by_cases hm : m = d.toNat
    · subst hm; simp [hd]
    · by_cases hm1 : m = d.toNat + 1
      · subst hm1; simp [h1]
      · simp [hm, hm1]

/-- Lanes of a merge of a computed register. -/
theorem lane_merge_mkV (mask : BitVec 32) (x : Nat → Elem) (o : VReg) (l : Nat) (h : l < 32) :
    lane (mergeV mask (mkV x) o) l = if mask.getLsbD l then x l else lane o l := by
  rw [lane_mergeV _ _ _ _ h, lane_mkV _ _ h]

/-- A destination of the fibre's own: what its lanes hold and what stays (R4, R142, R147). -/
theorem wroteLanes_own (q : Quiet s f) (dests : List RegId) (wide : Bool) (d : BitVec 7) (mask : BitVec 32)
    (x : Nat → BitVec 64) (fl : BitVec 32) (pc : Word) (hb : vdstBad s f wide false d = false) :
    WroteLanes s (retireFixed f dests (vdstPut wide false d mask x) fl pc s) f ((f.raise fl).retire pc) wide false d mask x := by
  have he : wide = true → d.toNat % 2 = 0 := by
    intro hw
    simp [vdstBad, hw] at hb
    omega
  have ht : retireFixed f dests (vdstPut wide false d mask x) fl pc s =
      updFibre (noteShared f (vdstPut wide false d mask x) s) f.id fun g =>
        (((g.writeAll (vdstPut wide false d mask x)).raise fl).reserve false dests).retire pc := by
    rw [retireFixed_quiet q, putWindows, windowWrites_own]; rfl
  rw [ht]
  have hself : fibre? (updFibre (noteShared f (vdstPut wide false d mask x) s) f.id fun g =>
      (((g.writeAll (vdstPut wide false d mask x)).raise fl).reserve false dests).retire pc) f.id =
      some (({ f with regs := (vdstPut wide false d mask x).foldl (fun r w => r.put w) f.regs }.raise fl).retire pc) := by
    rw [fibre?_updFibre_self _ _ _ (by simp), show fibre? (noteShared f _ s) f.id = _ from q.own, Option.map_some, after_writes q]
  have hother : ∀ id, id ≠ f.id → fibre? (updFibre (noteShared f (vdstPut wide false d mask x) s) f.id fun g =>
      (((g.writeAll (vdstPut wide false d mask x)).raise fl).reserve false dests).retire pc) id = fibre? s id :=
    fun id h => fibre?_updFibre_ne _ _ (by simp) h
  have hv : ∀ n, vregAt s f.id n = f.regs.v.getD n zeroV := fun n => by simp [vregAt, q.own, Fibre.vreg]
  have hv' : ∀ n, vregAt (updFibre (noteShared f (vdstPut wide false d mask x) s) f.id fun g =>
      (((g.writeAll (vdstPut wide false d mask x)).raise fl).reserve false dests).retire pc) f.id n =
      ((vdstPut wide false d mask x).foldl (fun r w => r.put w) f.regs).v.getD n zeroV := fun n => by
    rw [vregAt, hself]; rfl
  constructor
  · intro id n l hd hn hl
    simp only [destOf, Bool.false_eq_true, if_false, Option.some.injEq, Prod.mk.injEq] at hd
    obtain ⟨rfl, rfl⟩ := hd
    rw [hv', hv, own_vreg wide d mask x _ he, if_pos rfl, lane_merge_mkV _ _ _ _ hl]
  · intro id n l hw hd hn hl
    simp only [destOf, Bool.false_eq_true, if_false, Option.some.injEq, Prod.mk.injEq] at hd
    obtain ⟨rfl, rfl⟩ := hd
    rw [hv', hv, own_vreg wide d mask x _ he, if_neg (by omega), if_pos ⟨hw, rfl⟩, lane_merge_mkV _ _ _ _ hl]
  · intro id n h1 h2
    by_cases hid : id = f.id
    · subst hid
      have a1 : n ≠ d.toNat := fun e => h1 (by simp [destOf, e])
      have a2 : ¬ (wide = true ∧ n = d.toNat + 1) := fun e => h2 e.1 (by simp [destOf, e.2])
      rw [hv', hv, own_vreg wide d mask x _ he, if_neg a1, if_neg a2]
    · simp only [vregAt, hother id hid]
  · intro id n hn
    by_cases hid : id = f.id
    · subst hid
      unfold snapsAt
      rw [hself, q.own]
      show List.map _ f.unfin = List.map _ (List.map _ f.unfin)
      rw [q.unfin]
      rfl
    · have a1 : destOf s f false d.toNat ≠ some (id, n) := fun e => hid (by simp [destOf] at e; exact e.1.symm)
      have a2 : destOf s f false (d.toNat + 1) ≠ some (id, n) := fun e => hid (by simp [destOf] at e; exact e.1.symm)
      simp [snapsAt, hother id hid, a1, a2]
  · rw [hself, Option.map_some, own_regs]
    rfl
  · intro id h
    rw [hother id h]
  · rfl

/-- A partner's write keeps the fibre's place. -/
@[simp] theorem partnerWrite_id (g : Fibre) (w : RegWrite) : (Fibre.partnerWrite w g).id = g.id := write_id g w

/-- A fibre without its vector registers after a partner's write to one. -/
theorem sansV_partner (g : Fibre) (n : Nat) (mask : BitVec 32) (x : VReg) :
    (Fibre.partnerWrite (.v n mask x) g).sansV = g.sansV := by
  have h := sansV_write g n mask x
  simp only [Fibre.sansV, Fibre.partnerWrite, Fibre.mk.injEq] at h ⊢
  simp_all [List.map_map, Function.comp_def, FRegs.put]

/-- One vector register of a fibre after a partner's write to one. -/
theorem vreg_partner (g : Fibre) (n m : Nat) (mask : BitVec 32) (x : VReg) :
    (Fibre.partnerWrite (.v n mask x) g).vreg m = if m = n ∧ n < 128 then mergeV mask x (g.vreg n) else g.vreg m :=
  vreg_write g n m mask x

/-- The same register in the checkpoints (R126). -/
theorem snaps_partner (g : Fibre) (n m : Nat) (mask : BitVec 32) (x : VReg) :
    (Fibre.partnerWrite (.v n mask x) g).unfin.map (fun h => h.snap.v.getD m zeroV) =
      (g.unfin.map fun h => h.snap.v.getD m zeroV).map fun old => if m = n ∧ n < 128 then mergeV mask x old else old := by
  simp only [Fibre.partnerWrite, List.map_map]
  apply List.map_congr_left
  intro h _
  simp only [Function.comp, vreg_put_v]
  by_cases e : m = n ∧ n < 128
  · rw [if_pos e, if_pos e, e.1]
  · rw [if_neg e, if_neg e]

/-- What window writes do to the fibres: the owner's registers change, no fibre's other parts. -/
theorem putWindow_at (s : State) (f : Fibre) (wide : Bool) (d : BitVec 7) (mask : BitVec 32) (x : Nat → BitVec 64)
    {a : Fibre} {n : Nat} (ha : windowReg s f d.toNat = some (a, n))
    (h2 : wide = true → (windowReg s f (d.toNat + 1)).isSome) (id : FibreId) :
    fibre? (putWindows s f (vdstPut wide true d mask x)) id =
      (fibre? s id).map fun g => if id = a.id then
        (if wide then Fibre.partnerWrite (.v (n + 1) mask (mkV fun l => (x l).extractLsb' 32 32))
            (Fibre.partnerWrite (.v n mask (mkV fun l => (x l).setWidth 32)) g)
          else Fibre.partnerWrite (.v n mask (mkV fun l => (x l).setWidth 32)) g) else g := by
  cases wide with
  | false =>
    simp only [putWindows, windowWrites, vdstPut, if_true, Bool.false_eq_true, if_false, List.filterMap_cons, ha,
      Option.map_some, List.filterMap_nil, List.foldl_cons, List.foldl_nil]
    rw [fibre?_updFibre _ _ _ _ (by simp)]
  | true =>
    have hs := windowReg_succ ha (h2 rfl)
    simp only [putWindows, windowWrites, vdstPut, if_true, List.filterMap_cons, ha, hs,
      Option.map_some, List.filterMap_nil, List.foldl_cons, List.foldl_nil]
    rw [fibre?_updFibre _ _ _ _ (by simp), fibre?_updFibre _ _ _ _ (by simp), Option.map_map]
    congr 1
    funext g
    by_cases h : id = a.id <;> simp [h]

/-- A destination in the partner's window (R127). -/
theorem wroteLanes_window (q : Quiet s f) (dests : List RegId) (wide : Bool) (d : BitVec 7) (mask : BitVec 32)
    (x : Nat → BitVec 64) (fl : BitVec 32) (pc : Word) (hb : vdstBad s f wide true d = false) :
    WroteLanes s (retireFixed f dests (vdstPut wide true d mask x) fl pc s) f ((f.raise fl).retire pc) wide true d mask x := by
  obtain ⟨a, n, ha, h2⟩ : ∃ a n, windowReg s f d.toNat = some (a, n) ∧
      (wide = true → (windowReg s f (d.toNat + 1)).isSome) := by
    simp only [vdstBad] at hb
    simp only [Bool.not_true, Bool.false_eq_true, if_false] at hb
    split at hb
    · cases hb
    · split at hb
      · cases hb
      · rename_i a n ha
        refine ⟨a, n, ha, fun hw => ?_⟩
        simp [hw] at hb
        cases h : windowReg s f (d.toNat + 1) <;> simp_all
  have hne : a.id ≠ f.id := windowReg_owner ha
  have hP := putWindow_at (noteShared f (vdstPut wide true d mask x) s) f wide d mask x ha h2
  rw [retireFixed_quiet q]
  -- what becomes of the owner
  obtain ⟨own, hown⟩ : ∃ own : Fibre → Fibre, own = fun g =>
      if wide then Fibre.partnerWrite (.v (n + 1) mask (mkV fun l => (x l).extractLsb' 32 32))
          (Fibre.partnerWrite (.v n mask (mkV fun l => (x l).setWidth 32)) g)
        else Fibre.partnerWrite (.v n mask (mkV fun l => (x l).setWidth 32)) g := ⟨_, rfl⟩
  obtain ⟨t, ht⟩ : ∃ t, t = updFibre (putWindows (noteShared f (vdstPut wide true d mask x) s) f (vdstPut wide true d mask x))
      f.id fun g => (((g.writeAll (vdstPut wide true d mask x)).raise fl).reserve false dests).retire pc := ⟨_, rfl⟩
  rw [← ht]
  have hself : fibre? t f.id = some ((f.raise fl).retire pc) := by
    rw [ht, fibre?_updFibre_self _ _ _ (by simp), hP, show fibre? (noteShared f _ s) f.id = _ from q.own, Option.map_some,
      Option.map_some, if_neg (Ne.symm hne), after_writes q, window_regs]
  have hother : ∀ id, id ≠ f.id → fibre? t id = (fibre? s id).map fun g => if id = a.id then own g else g := fun id h => by
    rw [ht, fibre?_updFibre_ne _ _ (by simp) h, hP, hown]
    rfl
  have hd1 : destOf s f true d.toNat = some (a.id, n) := by simp [destOf, ha]
  have hd2 : wide = true → destOf s f true (d.toNat + 1) = some (a.id, n + 1) := fun hw => by
    simp [destOf, windowReg_succ ha (h2 hw)]
  -- the owner is resident
  obtain ⟨g, hg⟩ : ∃ g, fibre? s a.id = some g := by
    have hm : a ∈ s.fibres := by
      unfold windowReg at ha
      split at ha
      · rename_i w
        split at ha
        · simp only [Option.some.injEq, Prod.mk.injEq] at ha
          obtain ⟨rfl, -⟩ := ha
          exact (windowIn_owner w).2
        · cases ha
      · cases ha
    have : (fibre? s a.id).isSome := by
      unfold fibre?
      rw [List.find?_isSome]
      exact ⟨a, hm, by simp⟩
    exact Option.isSome_iff_exists.mp this
  have hvs : ∀ m, vregAt s a.id m = g.vreg m := fun m => by simp [vregAt, hg]
  have hvt : ∀ m, vregAt t a.id m = (own g).vreg m := fun m => by simp [vregAt, hother a.id hne, hg]
  constructor
  · intro id m l hd hm hl
    rw [hd1] at hd
    obtain ⟨rfl, rfl⟩ := Prod.mk.inj (Option.some.inj hd)
    rw [hvt, hvs, hown]
    cases wide <;> simp [vreg_partner, hm, lane_merge_mkV, hl]
  · intro id m l hw hd hm hl
    rw [hd2 hw] at hd
    obtain ⟨rfl, rfl⟩ := Prod.mk.inj (Option.some.inj hd)
    rw [hvt, hvs, hown]
    simp [hw, vreg_partner, hm, lane_merge_mkV, hl]
  · intro id m h1 h2'
    by_cases hid : id = f.id
    · subst hid
      simp [vregAt, hself, q.own]
      rfl
    · by_cases hia : id = a.id
      · subst hia
        have a1 : m ≠ n := fun e => h1 (by rw [hd1, e])
        have a2 : wide = true → m ≠ n + 1 := fun hw e => h2' hw (by rw [hd2 hw, e])
        rw [hvt, hvs, hown]
        cases hw : wide
        · simp [vreg_partner, a1]
        · simp [vreg_partner, a1, a2 hw]
      · simp only [vregAt, hother id hid]
        cases fibre? s id <;> simp [hia]
  · intro id m hm
    by_cases hid : id = f.id
    · subst hid
      unfold snapsAt
      rw [hself, q.own]
      show List.map _ f.unfin = List.map _ (List.map _ f.unfin)
      rw [q.unfin]
      rfl
    · by_cases hia : id = a.id
      · subst hia
        have e : snapsAt t a.id m = (own g).unfin.map fun h => h.snap.v.getD m zeroV := by
          simp [snapsAt, hother a.id hne, hg]
        have e0 : snapsAt s a.id m = g.unfin.map fun h => h.snap.v.getD m zeroV := by simp [snapsAt, hg]
        rw [e, e0, hown, hd1]
        cases hw : wide with
        | false =>
          simp only [Bool.false_eq_true, if_false, false_and, Option.some.injEq, Prod.mk.injEq, true_and]
          rw [snaps_partner]
          apply List.map_congr_left
          intro v _
          by_cases h : m = n
          · subst h; simp [hm]
          · simp [h, Ne.symm h]
        | true =>
          simp only [if_true, hd2 hw, Option.some.injEq, Prod.mk.injEq, true_and]
          rw [snaps_partner, snaps_partner, List.map_map]
          apply List.map_congr_left
          intro v _
          by_cases h : m = n
          · subst h; simp [hm]
          · by_cases h' : m = n + 1
            · subst h'; simp [hm]
            · simp [h, Ne.symm h, h', Ne.symm h']
      · have a1 : destOf s f true d.toNat ≠ some (id, m) := fun e => hia (by rw [hd1] at e; exact (Prod.mk.inj (Option.some.inj e)).1.symm)
        have a2 : ¬ (wide = true ∧ destOf s f true (d.toNat + 1) = some (id, m)) := fun e => hia (by
          have := e.2; rw [hd2 e.1] at this; exact (Prod.mk.inj (Option.some.inj this)).1.symm)
        have : fibre? t id = fibre? s id := by
          rw [hother id hid]
          cases fibre? s id <;> simp [hia]
        simp [snapsAt, this, a1, a2]
  · rw [hself, Option.map_some]
  · intro id hid
    rw [hother id hid]
    cases fibre? s id with
    | none => rfl
    | some k =>
      by_cases hia : id = a.id
      · subst hia
        rw [hown]
        cases wide <;> simp [sansV_partner]
      · simp [hia]
  · obtain ⟨l, hl⟩ := putWindows_fibres (noteShared f (vdstPut wide true d mask x) s) f (vdstPut wide true d mask x)
    rw [ht, hl]
    rfl

/-- A vector destination: what its lanes hold and what stays. -/
theorem wroteLanes (q : Quiet s f) (dests : List RegId) (wide wd : Bool) (d : BitVec 7) (mask : BitVec 32)
    (x : Nat → BitVec 64) (fl : BitVec 32) (pc : Word) (hb : vdstBad s f wide wd d = false) :
    WroteLanes s (retireFixed f dests (vdstPut wide wd d mask x) fl pc s) f ((f.raise fl).retire pc) wide wd d mask x := by
  cases wd
  · exact wroteLanes_own q dests wide d mask x fl pc hb
  · exact wroteLanes_window q dests wide d mask x fl pc hb

end

/-- An element of a vector of known entries. -/
theorem vofn_getD {α : Type} {n : Nat} (f : Fin n → α) (i : Nat) (d : α) (h : i < n) : (Vector.ofFn f).getD i d = f ⟨i, h⟩ := by
  simp only [Vector.getD]
  rw [Array.getD, dif_pos (by simpa using h)]
  simp

/-- Registers with equal elements are equal. -/
theorem mkV_congr (g h : Nat → Elem) (e : ∀ l < 32, g l = h l) : mkV g = mkV h := by
  unfold mkV
  apply Vector.ext
  intro i hi
  simp [e i hi]

end Sys2Proof.Machine
end

