-- ==== Sys2Proof/Laws/Results.lean ====
section
/-! SUPPORT. Scalar, predicate and variable-latency results of a quiet fibre. -/

namespace Sys2Proof.Machine

section
variable {s : State} {f : Fibre}

/-- A change of one fibre that keeps its place. -/
theorem became_upd (q : Quiet s f) (g : Fibre → Fibre) (hg : ∀ k, (g k).id = k.id) : Became s (updFibre s f.id g) f (g f) := by
  refine ⟨?_, fun id h => fibre?_updFibre_ne _ _ hg h, rfl⟩
  rw [fibre?_updFibre_self _ _ _ hg, q.own, Option.map_some]

/-- Writes that name no window are no window writes. -/
theorem putWindows_none (ws : List RegWrite) (h : windowWrites s f ws = []) : putWindows s f ws = s := by
  simp [putWindows, h]

/-- Writes that name no vector register name no shared one. -/
theorem noteShared_none (ws : List RegWrite) (h : ∀ w ∈ ws, sharedReg s f w = none) : noteShared f ws s = s := by
  have : ws.filterMap (fun w => (sharedReg s f w).map fun x => (x.1, x.2, f.id.pos % 4, w.lanes)) = [] := by
    rw [List.filterMap_eq_nil_iff]
    intro w hw
    rw [h w hw]
    rfl
  unfold noteShared
  rw [this, List.append_nil]

/-- Fixed writes of the fibre's own registers that no partner shares. -/
theorem retireFixed_became (q : Quiet s f) (dests : List RegId) (ws : List RegWrite) (fl : BitVec 32) (pc : Word)
    (h : windowWrites s f ws = []) (hs : ∀ w ∈ ws, sharedReg s f w = none) :
    Became s (retireFixed f dests ws fl pc s) f
      (({ f with regs := ws.foldl (fun r w => r.put w) f.regs }.raise fl).retire pc) := by
  rw [retireFixed_quiet q, noteShared_none ws hs, putWindows_none ws h]
  have := became_upd q (fun g => (((g.writeAll ws).raise fl).reserve false dests).retire pc) (by simp)
  rwa [after_writes q] at this

/-- A word without register writes. -/
theorem retireFixed_plain (q : Quiet s f) (dests : List RegId) (fl : BitVec 32) (pc : Word) :
    Became s (retireFixed f dests [] fl pc s) f ((f.raise fl).retire pc) :=
  retireFixed_became q dests [] fl pc rfl (by simp)

/-- A scalar register after a write to one. -/
theorem sreg_put_s (r : FRegs) (n m : Nat) (x : Word) :
    (r.put (.s n x)).s.getD m 0 = if m = n ∧ n < 32 then x else r.s.getD m 0 := by
  simp only [FRegs.put, Vector.getD]
  by_cases hm : m < 32
  · by_cases h : m = n
    · subst h; simp [hm]
    · have h' : ¬ n = m := fun e => h e.symm
      simp [hm, h, h']
  · have : ¬ (m = n ∧ n < 32) := by omega
    simp [hm, this]

/-- A predicate after a write to one. -/
theorem preg_put_p (r : FRegs) (n m : Nat) (mask x : BitVec 32) (hn : n ≠ 0) :
    (r.put (.p n mask x)).p.getD m 0 =
      if m = n ∧ n < 8 then (x &&& mask) ||| (r.p.getD n 0 &&& ~~~mask) else r.p.getD m 0 := by
  simp only [FRegs.put, if_neg hn, Vector.getD]
  by_cases hm : m < 8
  · by_cases h : m = n
    · subst h; simp [hm]
    · have h' : ¬ n = m := fun e => h e.symm
      simp [hm, h, h']
  · have : ¬ (m = n ∧ n < 8) := by omega
    simp [hm, this]

/-- A change to a scalar write of a fibre becomes a scalar result. -/
theorem Became.scalar {t : State} {a : Fibre} {d : BitVec 5} {v : Word} {g : Fibre} (b : Became s t f g)
    (own : fibre? s f.id = some f) (hs : ∀ n, g.sreg n = (f.regs.put (.s d.toNat v)).s.getD n 0) (hg : g.sansS = a.sansS) :
    WroteScalar s t f a d v := by
  have ht : ∀ n, sregAt t f.id n = (f.regs.put (.s d.toNat v)).s.getD n 0 := fun n => by simp [sregAt, b.self, hs]
  have h0 : ∀ n, sregAt s f.id n = f.regs.s.getD n 0 := fun n => by simp [sregAt, own, Fibre.sreg]
  refine ⟨?_, fun n hn => ?_, by rw [b.self, Option.map_some, hg], b.others, b.device⟩
  · rw [ht, sreg_put_s, if_pos ⟨rfl, d.isLt⟩]
  · rw [ht, h0, sreg_put_s, if_neg (fun e => hn e.1)]

/-- A fixed scalar result. -/
theorem wroteScalar (q : Quiet s f) (dests : List RegId) (d : BitVec 5) (v : Word) (pc : Word) :
    WroteScalar s (retireFixed f dests [.s d.toNat v] 0 pc s) f (f.retire pc) d v :=
  (retireFixed_became q dests [.s d.toNat v] 0 pc rfl (by simp [sharedReg])).scalar q.own (fun _ => rfl)
    (by simp [Fibre.raise, Fibre.retire, Fibre.sansS, FRegs.put])

/-- A fixed predicate result. -/
theorem wrotePred (q : Quiet s f) (dests : List RegId) (d : BitVec 3) (mask x : BitVec 32) (fl : BitVec 32) (pc : Word) :
    WrotePred s (retireFixed f dests [.p d.toNat mask x] fl pc s) f ((f.raise fl).retire pc) d mask x := by
  have b := retireFixed_became q dests [.p d.toNat mask x] fl pc rfl (by simp [sharedReg])
  have hd : d = 0 ↔ d.toNat = 0 := by
    rw [← BitVec.toNat_inj]; rfl
  refine ⟨fun h => ?_, fun n hn => ?_, ?_, b.others, b.device⟩
  · have h' : d.toNat ≠ 0 := fun e => h (hd.mpr e)
    simp only [pregAt, b.self, q.own, Option.map_some, Option.getD_some, Fibre.preg, if_neg h']
    show ((f.regs.put (.p d.toNat mask x)).p.getD d.toNat 0) = _
    rw [preg_put_p _ _ _ _ _ h', if_pos ⟨rfl, d.isLt⟩]
  · simp only [pregAt, b.self, q.own, Option.map_some, Option.getD_some, Fibre.preg]
    by_cases h0 : n = 0
    · simp [h0]
    · simp only [if_neg h0]
      by_cases hz : d.toNat = 0
      · simp only [hz]; rfl
      · show ((f.regs.put (.p d.toNat mask x)).p.getD n 0) = _
        rw [preg_put_p _ _ _ _ _ hz, if_neg (fun e => by omega)]
  · rw [b.self, Option.map_some]
    congr 1
    simp only [List.foldl_cons, List.foldl_nil, FRegs.put]
    split <;> rfl

/-- A result that stays outstanding. -/
theorem owes_upd (q : Quiet s f) (dests : List RegId) (pc : Word) (p : Pend) (hp : p.marks ≠ [] ∨ p.trap ≠ none) :
    Owes s (updFibre s f.id fun g => Fibre.owe p ((g.reserve false dests).retire pc)) f pc p := by
  have b := became_upd q (fun g => Fibre.owe p ((g.reserve false dests).retire pc)) (by simp)
  have e : Fibre.owe p ((f.reserve false dests).retire pc) = { f.retire pc with pend := [p] } := by
    rw [reserve_idle f dests q.unfin]
    have : ¬ (p.marks = [] ∧ p.trap = none) := fun h => hp.elim (· h.1) (· h.2)
    simp only [Fibre.owe, if_neg this]
    simp [Fibre.retire, q.pend]
  rwa [e] at b

end

end Sys2Proof.Machine
end

