-- ==== Sys2Proof/Laws/Complete.lean ====
section
/-! SUPPORT. What `issueWord` answers for a quiet fibre, effect by effect: the completion lemmas that statements about
instructions rest on. Each asks only what the instruction's plan says. -/

namespace Sys2Proof.Machine

/-- A per-lane result of fixed latency. -/
theorem lanePlan_next {s f} (q : Quiet s f) {i : Instr} {h : Hdr} {plan : State → Fibre → Plan} {wide wd d res} 
  (hu : (plan s f).uniform = false) (hc : (plan s f).context = false) (ho : (plan s f).operand = false) (hal : (plan s f).always = [])
  (how : ∀ m, (plan s f).own m = .fixed (vdstPut wide wd d m res) 0 none)
  (hd : vdstBad s f wide wd d = false)
  (ha : activeMask f h ≠ 0) (n : Nat) (hn : lenOf i = n) :
  ∃ t, issueWord i h plan s = .next t ∧ WroteLanes s t f (f.retire (f.past n)) wide wd d (activeMask f h) res := by
  have hm : execMask f h (plan s f) = activeMask f h := by simp [execMask, hu]
  have c : Passes f (plan s f) h := ⟨hc, ho, by rwa [hm]⟩
  refine ⟨_, issueWord_quiet q i h plan c, ?_⟩
  rw [hm, how, putAlways_none _ hal]
  have e : f.retire (f.past n) = (f.raise 0).retire (nextPc i f) := by simp [Fibre.raise, Fibre.past, nextPc, hn]
  rw [e]
  exact wroteLanes q _ wide wd d _ res 0 (nextPc i f) hd

/-- A predicate result. -/
theorem pred_next {s f} (q : Quiet s f) {i : Instr} {h : Hdr} {plan : State → Fibre → Plan} {d : BitVec 3} {res} {m : BitVec 32}
  (hc : (plan s f).context = false) (ho : (plan s f).operand = false) (hal : (plan s f).always = [])
  (hm : execMask f h (plan s f) ≠ 0)
  (how : (plan s f).own (execMask f h (plan s f)) = .fixed [.p d.toNat m res] 0 none)
  (n : Nat) (hn : lenOf i = n) :
  ∃ t, issueWord i h plan s = .next t ∧ WrotePred s t f (f.retire (f.past n)) d m res := by
  have c : Passes f (plan s f) h := ⟨hc, ho, hm⟩
  refine ⟨_, issueWord_quiet q i h plan c, ?_⟩
  rw [how, putAlways_none _ hal]
  have e : f.retire (f.past n) = (f.raise 0).retire (nextPc i f) := by simp [Fibre.raise, Fibre.past, nextPc, hn]
  rw [e]
  exact wrotePred q _ d m res 0 (nextPc i f)

/-- A result of variable latency. -/
theorem owes_next {s f} (q : Quiet s f) {i : Instr} {h : Hdr} {plan : State → Fibre → Plan} {marks ws}
  (hc : (plan s f).context = false) (ho : (plan s f).operand = false) (hal : (plan s f).always = [])
  (hm : execMask f h (plan s f) ≠ 0)
  (how : (plan s f).own (execMask f h (plan s f)) = .late marks ws) (hmk : marks ≠ [])
  (n : Nat) (hn : lenOf i = n) :
  ∃ t, issueWord i h plan s = .next t ∧ Owes s t f (f.past n) ⟨f.seq, marks, some ws, 0, none, false⟩ := by
  have c : Passes f (plan s f) h := ⟨hc, ho, hm⟩
  refine ⟨_, issueWord_quiet q i h plan c, ?_⟩
  rw [how, putAlways_none _ hal]
  have e : f.past n = nextPc i f := by simp [Fibre.past, nextPc, hn]
  rw [e]
  simp only [carry, q.plain]
  exact owes_upd q _ _ _ (.inl hmk)

/-- A scalar result. -/
theorem sca_next {s f} (q : Quiet s f) {i : Instr} {h : Hdr} {plan : State → Fibre → Plan} {d : BitVec 5} {res}
  (hc : (plan s f).context = false) (ho : (plan s f).operand = false) (hal : (plan s f).always = [])
  (hm : execMask f h (plan s f) ≠ 0)
  (how : (plan s f).own (execMask f h (plan s f)) = .fixed [.s d.toNat res] 0 none)
  (n : Nat) (hn : lenOf i = n) :
  ∃ t, issueWord i h plan s = .next t ∧ WroteScalar s t f (f.retire (f.past n)) d res := by
  have c : Passes f (plan s f) h := ⟨hc, ho, hm⟩
  refine ⟨_, issueWord_quiet q i h plan c, ?_⟩
  rw [how, putAlways_none _ hal]
  have e : f.past n = nextPc i f := by simp [Fibre.past, nextPc, hn]
  rw [e]
  exact wroteScalar q _ d res (nextPc i f)

/-- A fixed effect writes, retires, and then takes the trap it raised. -/
theorem carry_fixed (i : Instr) (f : Fibre) (P : Plan) (s : State) (ws fl tr) :
   carry i f P s (.fixed ws fl tr) = thenTrap f.id tr (retireFixed f P.dests ws fl (nextPc i f) s) := by
  cases tr <;> rfl

/-- A float result of fixed latency. -/
theorem fixedFloat_next {s f} (q : Quiet s f) {i : Instr} {h : Hdr} {plan : State → Fibre → Plan} {wide wd d res}
  (hu : (plan s f).uniform = false) (hc : (plan s f).context = false) (ho : (plan s f).operand = false) (hal : (plan s f).always = [])
  (how : ∀ m, (plan s f).own m = floatEff i f false wide wd d res m)
  (hd : vdstBad s f wide wd d = false)
  (ha : activeMask f h ≠ 0) (n : Nat) (hn : lenOf i = n) :
  ∃ t, issueWord i h plan s = .next t ∧ FixedFloat s t f i (f.past n) wide wd d (activeMask f h) res := by
  have hm : execMask f h (plan s f) = activeMask f h := by simp [execMask, hu]
  have c : Passes f (plan s f) h := ⟨hc, ho, by rwa [hm]⟩
  refine ⟨_, issueWord_quiet q i h plan c, ?_⟩
  rw [hm, how, putAlways_none _ hal]
  have e : f.past n = (nextPc i f) := by simp [Fibre.past, nextPc, hn]
  rw [e]
  refine ⟨_, wroteLanes q (plan s f).dests wide wd d _ (fun l => (res l).bits) _ (nextPc i f) hd, ?_⟩
  simp only [floatEff, soundLanes]
  rfl

/-- A float result of variable latency. -/
theorem lateFloat_next {s f} (q : Quiet s f) {i : Instr} {h : Hdr} {plan : State → Fibre → Plan} {wide wd d res}
  (hu : (plan s f).uniform = false) (hc : (plan s f).context = false) (ho : (plan s f).operand = false) (hal : (plan s f).always = [])
  (how : ∀ m, (plan s f).own m = floatEff i f true wide wd d res m)
  (ha : activeMask f h ≠ 0) (n : Nat) (hn : lenOf i = n) :
  ∃ t, issueWord i h plan s = .next t ∧ LateFloat s t f i (f.past n) wide wd d (activeMask f h) res := by
  have hm : execMask f h (plan s f) = activeMask f h := by simp [execMask, hu]
  have c : Passes f (plan s f) h := ⟨hc, ho, by rwa [hm]⟩
  refine ⟨_, issueWord_quiet q i h plan c, ?_⟩
  rw [hm, how, putAlways_none _ hal]
  have e : f.past n = (nextPc i f) := by simp [Fibre.past, nextPc, hn]
  rw [e]
  simp only [floatEff, if_true, carry, q.plain]
  exact owes_upd q _ _ _ (.inl (by simp))

/-- A float result across lanes. -/
theorem across_next {s f} (q : Quiet s f) {i : Instr} {h : Hdr} {plan : State → Fibre → Plan} {wide wd d v fl}
  (hu : (plan s f).uniform = false) (hc : (plan s f).context = false) (ho : (plan s f).operand = false) (hal : (plan s f).always = [])
  (how : (plan s f).own (activeMask f h) = crossEff i f wide wd d (activeMask f h) v fl)
  (ha : activeMask f h ≠ 0) (n : Nat) (hn : lenOf i = n) :
  ∃ t, issueWord i h plan s = .next t ∧ AcrossLanes s t f i (f.past n) wide wd d (activeMask f h) v fl := by
  have hm : execMask f h (plan s f) = activeMask f h := by simp [execMask, hu]
  have c : Passes f (plan s f) h := ⟨hc, ho, by rwa [hm]⟩
  refine ⟨_, issueWord_quiet q i h plan c, ?_⟩
  rw [hm, how, putAlways_none _ hal]
  have e : f.past n = (nextPc i f) := by simp [Fibre.past, nextPc, hn]
  rw [e]
  unfold crossEff AcrossLanes
  dsimp only
  split <;> rename_i hz <;> (try rw [hz]) <;>
  · simp only [carry, q.plain]
    refine owes_upd q _ _ _ (.inl ?_)
    simp

/-- Results without flags fault in no lane. -/
theorem fault0 (act en : BitVec 32) (x : Nat → BitVec 64) : faultMask act en (fun l => ⟨x l, 0⟩) = 0 := by
  unfold faultMask LaneRes.faulting
  simp
  rfl

/-- Results without flags raise nothing. -/
theorem raised0 (act : BitVec 32) (x : Nat → BitVec 64) : raisedFlags act (fun l => ⟨x l, 0⟩) = 0 := by
  unfold raisedFlags
  generalize lanesOf act = ls
  induction ls with
  | nil => rfl
  | cons a r ih => simpa using ih

/-- A predicate result that may raise a trap. -/
theorem predTrap_next {s f} (q : Quiet s f) {i : Instr} {h : Hdr} {plan : State → Fibre → Plan} {d : BitVec 3} {res} {m fl : BitVec 32} {tr}
  (hc : (plan s f).context = false) (ho : (plan s f).operand = false) (hal : (plan s f).always = [])
  (hm : execMask f h (plan s f) ≠ 0)
  (how : (plan s f).own (execMask f h (plan s f)) = .fixed [.p d.toNat m res] fl tr)
  (n : Nat) (hn : lenOf i = n) :
  ∃ t u, issueWord i h plan s = .next t ∧ WrotePred s u f ((f.raise fl).retire (f.past n)) d m res ∧
    t = thenTrap f.id tr u := by
  have c : Passes f (plan s f) h := ⟨hc, ho, hm⟩
  refine ⟨_, retireFixed f (plan s f).dests [.p d.toNat m res] fl (nextPc i f) s, issueWord_quiet q i h plan c, ?_, ?_⟩
  · have e : f.past n = nextPc i f := by simp [Fibre.past, nextPc, hn]
    rw [e]
    exact wrotePred q _ d m res fl (nextPc i f)
  · rw [how, putAlways_none _ hal, carry_fixed]

/-- A conversion, with its stream. -/
theorem conv_next {s f} (q : Quiet s f) {i : Instr} {h : Hdr} {plan : State → Fibre → Plan} {wide wd d res rnd j k} {P : Plan}
  (hP : plan s f = withStream P f rnd j k)
  (hu : P.uniform = false) (hc : P.context = false) (ho : P.operand = false) (hal : P.always = [])
  (how : ∀ m, P.own m = floatEff i f true wide wd d res m)
  (ha : activeMask f h ≠ 0) (n : Nat) (hn : lenOf i = n) :
  ∃ t, issueWord i h plan s = .next t ∧ Converts s t f i (f.past n) wide wd d (activeMask f h) rnd j k res := by
  have h1 : (plan s f).uniform = false := by rw [hP]; unfold withStream; split <;> exact hu
  have h2 : (plan s f).context = false := by rw [hP]; unfold withStream; split <;> exact hc
  have h3 : (plan s f).operand = false := by rw [hP]; unfold withStream; split <;> exact ho
  have h4 : (plan s f).own = P.own := by rw [hP]; unfold withStream; split <;> rfl
  have hm : execMask f h (plan s f) = activeMask f h := by simp [execMask, h1]
  have c : Passes f (plan s f) h := ⟨h2, h3, by rwa [hm]⟩
  refine ⟨_, issueWord_quiet q i h plan c, ?_⟩
  rw [hm, h4, how]
  have e : f.past n = (nextPc i f) := by simp [Fibre.past, nextPc, hn]
  rw [e]
  have h5 : putAlways f (plan s f) s = updFibre s f.id fun g => g.writeAll (plan s f).always := by
    unfold putAlways
    split
    · rename_i h0
      rw [h0]
      unfold updFibre updIf
      simp [Fibre.writeAll]
    · rfl
  have hh : ∀ g : Fibre → Fibre, heldMode (updFibre s f.id g) f = heldMode s f := fun _ => rfl
  simp only [floatEff, if_true, carry, h5, hh, q.plain]
  have b1 := became_upd q (fun g => Fibre.owe ⟨f.seq, .xflags :: vdstNames wide wd d,
      some (vdstPut wide wd d (soundLanes f (activeMask f h) res) fun l => (res l).bits), raisedFlags (soundLanes f (activeMask f h) res) res,
      arithTrap i f (activeMask f h) res, true⟩ (((g.writeAll (plan s f).always).reserve false (plan s f).dests).retire (nextPc i f))) (by simp)
  have e2 : ∀ (a b : Fibre → Fibre), (∀ k, (a k).id = k.id) → updFibre (updFibre s f.id a) f.id b = updFibre s f.id fun g => b (a g) := by
    intro a b ha
    unfold updFibre updIf
    simp only [List.map_map]
    congr 1
    apply List.map_congr_left
    intro x _
    by_cases hx : x.id = f.id <;> simp [hx, ha]
  rw [e2 _ _ (by simp)]
  unfold Converts
  have e3 : Fibre.owe ⟨f.seq, .xflags :: vdstNames wide wd d,
      some (vdstPut wide wd d (soundLanes f (activeMask f h) res) fun l => (res l).bits), raisedFlags (soundLanes f (activeMask f h) res) res,
      arithTrap i f (activeMask f h) res, true⟩ (((f.writeAll (plan s f).always).reserve false (plan s f).dests).retire (nextPc i f)) =
      { (f.streamed rnd j k).retire (nextPc i f) with pend :=
    [⟨f.seq, .xflags :: vdstNames wide wd d,
      some (vdstPut wide wd d (soundLanes f (activeMask f h) res) fun l => (res l).bits), raisedFlags (soundLanes f (activeMask f h) res) res,
      arithTrap i f (activeMask f h) res, true⟩] } := by
    have e4 : f.writeAll (plan s f).always = f.streamed rnd j k := by
      rw [writeAll_clean _ _ q.poison, hP]
      unfold withStream Fibre.streamed
      split
      · rfl
      · rw [hal]; rfl
    have e5 : (f.streamed rnd j k).unfin = [] := by
      unfold Fibre.streamed
      split <;> exact q.unfin
    have e6 : (f.streamed rnd j k).pend = [] := by
      unfold Fibre.streamed
      split <;> exact q.pend
    rw [e4, reserve_idle _ _ e5]
    simp [Fibre.owe, Fibre.retire, e6]
  rw [e3] at b1
  exact b1

/-- Raising no flags. -/
@[simp] theorem raise_zero (f : Fibre) : f.raise 0 = f := by cases f; simp [Fibre.raise]

/-- A branch. -/
theorem jump_next {s f} (q : Quiet s f) {i : Instr} {h : Hdr} {plan : State → Fibre → Plan} {pc}
  (hc : (plan s f).context = false) (ho : (plan s f).operand = false) (hal : (plan s f).always = [])
  (hm : execMask f h (plan s f) ≠ 0)
  (how : (plan s f).own (execMask f h (plan s f)) = .jump [] pc) :
  ∃ t, issueWord i h plan s = .next t ∧ Became s t f (f.retire pc) := by
  have c : Passes f (plan s f) h := ⟨hc, ho, hm⟩
  refine ⟨_, issueWord_quiet q i h plan c, ?_⟩
  rw [how, putAlways_none _ hal]
  have b := retireFixed_plain q (plan s f).dests 0 pc
  rwa [raise_zero] at b

/-- A word that only retires. -/
theorem plain_next {s f} (q : Quiet s f) {i : Instr} {h : Hdr} {plan : State → Fibre → Plan}
  (hc : (plan s f).context = false) (ho : (plan s f).operand = false) (hal : (plan s f).always = [])
  (hm : execMask f h (plan s f) ≠ 0)
  (how : (plan s f).own (execMask f h (plan s f)) = .fixed [] 0 none) (n : Nat) (hn : lenOf i = n) :
  ∃ t, issueWord i h plan s = .next t ∧ Became s t f (f.retire (f.past n)) := by
  have c : Passes f (plan s f) h := ⟨hc, ho, hm⟩
  refine ⟨_, issueWord_quiet q i h plan c, ?_⟩
  rw [how, putAlways_none _ hal]
  have e : f.past n = nextPc i f := by simp [Fibre.past, nextPc, hn]
  rw [e]
  have b := retireFixed_plain q (plan s f).dests 0 (nextPc i f)
  rwa [raise_zero] at b

/-- A branch that links. -/
theorem callj_next {s f} (q : Quiet s f) {i : Instr} {h : Hdr} {plan : State → Fibre → Plan} {d : BitVec 5} {v pc}
  (hc : (plan s f).context = false) (ho : (plan s f).operand = false) (hal : (plan s f).always = [])
  (hm : execMask f h (plan s f) ≠ 0)
  (how : (plan s f).own (execMask f h (plan s f)) = .jump [.s d.toNat v] pc) :
  ∃ t, issueWord i h plan s = .next t ∧ WroteScalar s t f (f.retire pc) d v := by
  have c : Passes f (plan s f) h := ⟨hc, ho, hm⟩
  refine ⟨_, issueWord_quiet q i h plan c, ?_⟩
  rw [how, putAlways_none _ hal]
  exact wroteScalar q _ d v pc

/-- A word that retires and acts. -/
theorem act_next {s f} (q : Quiet s f) {i : Instr} {h : Hdr} {plan : State → Fibre → Plan} {g : State → State}
  (hc : (plan s f).context = false) (ho : (plan s f).operand = false) (hal : (plan s f).always = [])
  (hm : execMask f h (plan s f) ≠ 0)
  (how : (plan s f).own (execMask f h (plan s f)) = .act g) (n : Nat) (hn : lenOf i = n) :
  ∃ u, Became s u f (f.retire (f.past n)) ∧ issueWord i h plan s = .next (g u) := by
  have c : Passes f (plan s f) h := ⟨hc, ho, hm⟩
  have e : f.past n = nextPc i f := by simp [Fibre.past, nextPc, hn]
  refine ⟨retireFixed f [] [] 0 (nextPc i f) s, ?_, ?_⟩
  · rw [e]
    have b := retireFixed_plain q [] 0 (nextPc i f)
    rwa [raise_zero] at b
  · rw [issueWord_quiet q i h plan c, how, putAlways_none _ hal]
    rfl

/-- A word that retires and changes its own fibre. -/
theorem actUpd_next {s f} (q : Quiet s f) {i : Instr} {h : Hdr} {plan : State → Fibre → Plan} {g : Fibre → Fibre}
  (hg : ∀ k, (g k).id = k.id)
  (hc : (plan s f).context = false) (ho : (plan s f).operand = false) (hal : (plan s f).always = [])
  (hm : execMask f h (plan s f) ≠ 0)
  (how : (plan s f).own (execMask f h (plan s f)) = .act fun s => updFibre s f.id g) (n : Nat) (hn : lenOf i = n) :
  ∃ t, issueWord i h plan s = .next t ∧ Became s t f (g (f.retire (f.past n))) := by
  obtain ⟨u, hu, he⟩ := act_next q hc ho hal hm how n hn
  refine ⟨_, he, ?_, ?_, ?_⟩
  · rw [fibre?_updFibre_self _ _ _ hg, hu.self, Option.map_some]
  · intro id hid
    rw [fibre?_updFibre_ne _ _ hg hid, hu.others id hid]
  · have := hu.device
    unfold SameDevice at this ⊢
    rw [this]; rfl

/-- Caching a translation changes TLBs alone. -/
theorem fillTlb_form (c : Nat) (e : TlbEntry) (s : State) : ∃ k m, fillTlb c e s = { s with cores := k, msys := { s.msys with tlb2 := m } } := by
  unfold fillTlb setCore
  dsimp only
  split
  · exact ⟨_, _, rfl⟩
  · exact ⟨_, _, rfl⟩

/-- States that differ in what links know of contexts and in the records of metadata caches alone, no link stopped that was not. -/
structure Walked (s u : State) : Prop where
  form  : ∃ l g, u = { s with links := l, msys := { s.msys with metas := g } }
  going : (∀ l ∈ s.links, l.stopped = false) → ∀ l ∈ u.links, l.stopped = false

theorem Walked.refl (s : State) : Walked s s := ⟨⟨s.links, s.msys.metas, rfl⟩, fun h => h⟩
theorem Walked.trans {s t u : State} (a : Walked s t) (b : Walked t u) : Walked s u := by
  obtain ⟨l, g, rfl⟩ := a.form
  obtain ⟨l', g', rfl⟩ := b.form
  exact ⟨⟨l', g', rfl⟩, fun h => b.going (a.going h)⟩

theorem useLink_walked (core p asid pa : Nat) (s : State) : Walked s (useLink core p asid pa s) := by
  refine ⟨⟨_, s.msys.metas, rfl⟩, fun h l hl => ?_⟩
  unfold useLink updIf at hl
  simp only [List.mem_map] at hl
  obtain ⟨x, hx, rfl⟩ := hl
  split <;> exact h x hx
theorem noteMeta_walked (pa : Nat) (s : State) : Walked s (noteMeta pa s) := by
  unfold noteMeta
  split
  · exact Walked.refl s
  · exact ⟨⟨s.links, _, rfl⟩, fun h => h⟩
theorem noteStack_walked (line : Nat) (s : State) : Walked s (noteStack line s) := by
  unfold noteStack
  split
  · exact Walked.refl s
  · exact noteMeta_walked _ s
/-- A fold of steps that leave nothing but that. -/
theorem foldl_walked {α} (g : State → α → State) (hg : ∀ s x, Walked s (g s x)) (l : List α) (s : State) : Walked s (l.foldl g s) := by
  induction l generalizing s with
  | nil => exact Walked.refl s
  | cons a r ih => exact (hg s a).trans (ih _)
theorem noteWalk_walked (core p asid va : Nat) (s : State) : Walked s (noteWalk core p asid va s) :=
  foldl_walked _ (fun s _ => (useLink_walked core p asid _ s).trans (noteStack_walked _ _)) _ s

/-- Caching the translations that an instruction used changes TLBs, what links know of contexts, and metadata caches. -/
structure Cached (s u : State) : Prop where
  form  : ∃ k l m g, u = { s with cores := k, links := l, msys := { s.msys with tlb2 := m, metas := g } }
  going : (∀ l ∈ s.links, l.stopped = false) → ∀ l ∈ u.links, l.stopped = false

theorem Cached.trans {s t u : State} (a : Cached s t) (b : Cached t u) : Cached s u := by
  obtain ⟨k, l, m, g, rfl⟩ := a.form
  obtain ⟨k', l', m', g', rfl⟩ := b.form
  exact ⟨⟨k', l', m', g', rfl⟩, fun h => b.going (a.going h)⟩
theorem useTlb_cached (c p : Nat) (e : TlbEntry) (s : State) : Cached s (useTlb c p e s) := by
  have w : Walked s (if (tlbHit s c e.asid e.vbase).isSome then s else noteWalk c p e.asid e.vbase s) := by
    split
    · exact Walked.refl s
    · exact noteWalk_walked _ _ _ _ s
  unfold useTlb
  generalize (if (tlbHit s c e.asid e.vbase).isSome then s else noteWalk c p e.asid e.vbase s) = t at w
  obtain ⟨l, g, rfl⟩ := w.form
  obtain ⟨k, m, e⟩ := fillTlb_form c e { s with links := l, msys := { s.msys with metas := g } }
  rw [e]
  exact ⟨⟨k, l, m, g, rfl⟩, w.going⟩

/-- The same of every translation that an instruction used. -/
theorem cached_cached (f : Fibre) (l : List TlbEntry) (s : State) : Cached s (cached f l s) := by
  unfold cached
  induction l generalizing s with
  | nil => exact ⟨⟨s.cores, s.links, s.msys.tlb2, s.msys.metas, rfl⟩, fun h => h⟩
  | cons a r ih => exact (useTlb_cached _ _ a s).trans (ih _)
theorem cached_form (f : Fibre) (l : List TlbEntry) (s : State) :
    ∃ k n m g, cached f l s = { s with cores := k, links := n, msys := { s.msys with tlb2 := m, metas := g } } :=
  (cached_cached f l s).form

theorem Cached.refl (s : State) : Cached s s := ⟨⟨s.cores, s.links, s.msys.tlb2, s.msys.metas, rfl⟩, fun h => h⟩
theorem Walked.cached {s t : State} (w : Walked s t) : Cached s t := by
  obtain ⟨l, g, rfl⟩ := w.form
  exact ⟨⟨s.cores, l, s.msys.tlb2, g, rfl⟩, w.going⟩
theorem setCore_cached (c : Nat) (r : CoreRec) (s : State) : Cached s (setCore s c r) := by
  unfold setCore
  split <;> exact ⟨⟨_, s.links, s.msys.tlb2, s.msys.metas, rfl⟩, fun h => h⟩
theorem fillInstr_cached (core quad line : Nat) (s : State) : Cached s (fillInstr core quad line s) := by
  unfold fillInstr
  dsimp only
  repeat' split
  all_goals first | exact Cached.refl s | exact setCore_cached _ _ s
theorem fetchLine_cached (x : Ctx) (quad va : Nat) (l : Leaf) (s : State) : Cached s (fetchLine x quad va l s) := by
  unfold fetchLine
  dsimp only
  have a := useTlb_cached x.core x.part (tlbEntry x.asid va l) s
  generalize useTlb x.core x.part (tlbEntry x.asid va l) s = t at a
  refine a.trans (Cached.trans ?_ (fillInstr_cached _ _ _ _))
  split
  · exact Cached.refl t
  · exact ((useLink_walked _ _ _ _ t).trans (noteStack_walked _ _)).cached
theorem prefetchBlock_cached (x : Ctx) (quad va : Nat) (s : State) : Cached s (prefetchBlock x quad va s) := by
  unfold prefetchBlock
  split
  · extract_lets pa
    generalize (_ && _ : Bool) = b
    cases b
    · exact Cached.refl s
    · exact fetchLine_cached _ _ _ _ s
  · exact Cached.refl s
/-- All that a fetch leaves behind. -/
theorem noteFetch_cached (x : Ctx) (quad : Nat) (pc : Word) (l : Leaf) (s : State) : Cached s (noteFetch x quad pc l s) := by
  have a := fetchLine_cached x quad pc.toNat l s
  unfold noteFetch
  generalize fetchLine x quad pc.toNat l s = t at a ⊢
  generalize (pc.toNat / 32 + 1) * 32 % 2 ^ 52 = n
  by_cases h : n % 64 = 0
  · simpa [h] using a.trans (prefetchBlock_cached _ _ _ _)
  · simpa [h] using a

theorem heldMode_cached (f g : Fibre) (l : List TlbEntry) (s : State) : heldMode (cached f l s) g = heldMode s g := by
  obtain ⟨k, n, m, x, e⟩ := cached_form f l s
  rw [e]; rfl
theorem cached_ahead (f : Fibre) (l : List TlbEntry) (s : State) : (cached f l s).ahead = s.ahead := by
  obtain ⟨k, n, m, x, e⟩ := cached_form f l s
  rw [e]

/-- Ranking lines changes hints alone. -/
theorem rankLines_form (hint : Hint) (l : List LaneAcc) (s : State) :
    ∃ k, rankLines hint l s = { s with msys := { s.msys with hints := k } } := by
  unfold rankLines rankKeys
  split
  · exact ⟨_, rfl⟩
  · exact ⟨_, rfl⟩
  · exact ⟨s.msys.hints, rfl⟩
/-- Without a hint nothing is ranked. -/
@[simp] theorem rankLines_none (l : List LaneAcc) (s : State) : rankLines .none l s = s := rfl
/-- Nor of no lines. -/
@[simp] theorem rankLines_nil (hint : Hint) (s : State) : rankLines hint [] s = s := by cases hint <;> rfl

theorem heldMode_ranked (hint : Hint) (l : List LaneAcc) (g : Fibre) (s : State) :
    heldMode (rankLines hint l s) g = heldMode s g := by
  obtain ⟨k, e⟩ := rankLines_form hint l s
  rw [e]; rfl
theorem ranked_ahead (hint : Hint) (l : List LaneAcc) (s : State) : (rankLines hint l s).ahead = s.ahead := by
  obtain ⟨k, e⟩ := rankLines_form hint l s
  rw [e]

/-- An operation performed at issue. -/
theorem op_next {s f} (q : Quiet s f) {i : Instr} {h : Hdr} {plan : State → Fibre → Plan} {o marks tr en fills}
  (hc : (plan s f).context = false) (ho : (plan s f).operand = false) (hal : (plan s f).always = [])
  (hm : execMask f h (plan s f) ≠ 0)
  (how : (plan s f).own (execMask f h (plan s f)) = .op o marks tr en fills) (n : Nat) (hn : lenOf i = n) (u : State)
  (hu : rankLines (plan s f).hint o.accs (cached f fills s) = u) (hok : (performOp f.id o u).ok = true) :
  issueWord i h plan s = .next (afterOp f (f.past n) (plan s f).dests marks (performOp f.id o u).writes
    o.binds (performOp f.id o u).s) := by
  have c : Passes f (plan s f) h := ⟨hc, ho, hm⟩
  have e : f.past n = nextPc i f := by simp [Fibre.past, nextPc, hn]
  rw [issueWord_quiet q i h plan c, how, putAlways_none _ hal, e]
  have e1 : ∀ l (s : State), (List.foldl (fun s e => useTlb f.id.core (partOfCore s f.id.core) e s) s l) = cached f l s :=
    fun _ _ => rfl
  have e2 : heldMode u f = false := by rw [← hu, heldMode_ranked, heldMode_cached, q.plain]
  have e3 : u.ahead = false := by rw [← hu, ranked_ahead, cached_ahead, q.ahead]
  simp only [carry, e1, hu, e2, e3, q.settled]
  simp [issueNow, hok, q.rolled, q.ladder, afterOp]

/-- An operation whose performance is known. -/
theorem op_done {s f} (q : Quiet s f) {i : Instr} {h : Hdr} {plan : State → Fibre → Plan} {o marks tr en fills u ws D b}
    (hp : performOp f.id o (cached f fills s) = ⟨u, ws, true⟩) (hh : (plan s f).hint = .none ∨ o.accs = [])
    (hc : (plan s f).context = false) (ho : (plan s f).operand = false) (hal : (plan s f).always = [])
    (hm : execMask f h (plan s f) ≠ 0)
    (how : (plan s f).own (execMask f h (plan s f)) = .op o marks tr en fills) (n : Nat) (hn : lenOf i = n)
    (hD : (plan s f).dests = D) (hb : o.binds = b) :
    issueWord i h plan s = .next (afterOp f (f.past n) D marks ws b u) := by
  have hr : rankLines (plan s f).hint o.accs (cached f fills s) = cached f fills s := by
    rcases hh with e | e <;> rw [e] <;> simp
  have e := op_next q hc ho hal hm how n hn _ hr (by rw [hp])
  rw [hp] at e
  rw [e, hD, hb]

/-- A trap at issue. -/
theorem trap_next {s f} (q : Quiet s f) {i : Instr} {h : Hdr} {plan : State → Fibre → Plan} {t : Trap}
    (hc : (plan s f).context = false) (ho : (plan s f).operand = false) (hal : (plan s f).always = [])
    (hm : execMask f h (plan s f) ≠ 0)
    (how : (plan s f).own (execMask f h (plan s f)) = .trap t) :
    issueWord i h plan s = .next (raiseTrap f.id t (walkedTo f t s)) := by
  rw [issueWord_quiet q i h plan ⟨hc, ho, hm⟩, how, putAlways_none _ hal]
  rfl
/-- A trap that is no translation fault comes from no walk. -/
theorem walkedTo_other (f : Fibre) {t : Trap} (h : t.cause ≠ 0x10) (s : State) : walkedTo f t s = s := if_neg h

/-- A wait at issue. -/
theorem wait_next {s f} (q : Quiet s f) {i : Instr} {h : Hdr} {plan : State → Fibre → Plan} {t : State}
    (hc : (plan s f).context = false) (ho : (plan s f).operand = false) (hal : (plan s f).always = [])
    (hm : execMask f h (plan s f) ≠ 0)
    (how : (plan s f).own (execMask f h (plan s f)) = .wait t) :
    issueWord i h plan s = .next t := by
  rw [issueWord_quiet q i h plan ⟨hc, ho, hm⟩, how, putAlways_none _ hal]
  rfl

/-- A quiet fibre is still found, and no update is held, once translations are cached. -/
theorem fibre?_cached (f : Fibre) (l : List TlbEntry) (s : State) (id : FibreId) : fibre? (cached f l s) id = fibre? s id := by
  obtain ⟨k, n, m, g, e⟩ := cached_form f l s
  rw [e]; rfl
theorem hru_cached (f : Fibre) (l : List TlbEntry) (s : State) : (cached f l s).msys.hru = s.msys.hru := by
  obtain ⟨k, n, m, g, e⟩ := cached_form f l s
  rw [e]
/-- Nothing is in the way of what an operation reaches where no link has stopped and no agent is down. -/
theorem pathsHeld_clear (s : State) (id : FibreId) (pas : List Nat) (hf : s.dev.failed = [])
    (hl : ∀ l ∈ s.links, l.stopped = false) : pathsHeld s id pas = false := by
  have : s.links.any (fun l => l.stopped) = false := by
    rw [List.any_eq_false]
    intro l hm
    simp [hl l hm]
  simp [pathsHeld, hf, this]
theorem accsHeld_clear (s : State) (id : FibreId) (accs : List LaneAcc) (hf : s.dev.failed = [])
    (hl : ∀ l ∈ s.links, l.stopped = false) : accsHeld s id accs = false := pathsHeld_clear s id _ hf hl
/-- What reaches no address crosses no link. -/
@[simp] theorem crossTo_nil (s : State) (f : Fibre) : crossTo s f [] = s := rfl
@[simp] theorem crossLinks_nil (s : State) (f : Fibre) : crossLinks s f [] = s := rfl
/-- With no update held and nothing on its way stopped an operation that the command port accepts is performed from the state as it
stands, its traffic counted. -/
theorem performOp_at {s u : State} {f : Fibre} (q : Quiet s f) (op : DevOp) (hf : fibre? u f.id = some f)
    (hh : u.msys.hru = []) (hd : u.dev = s.dev) (hl : ∀ l ∈ u.links, l.stopped = false) (hp : portRefuses u f op = false) :
    performOp f.id op u = performFor f.id f op u (crossTo u f (op.addrs u f)) := by
  have hc : pathsHeld u f.id (op.addrs u f) = false := pathsHeld_clear _ _ _ (by rw [hd]; exact q.agents) hl
  simp only [performOp, hf, Option.any_some, hp, performPast, drained, hh, if_true, hc]
  rfl
/-- What the command port refuses waits. -/
theorem performOp_refused {u : State} {f : Fibre} (op : DevOp) (hf : fibre? u f.id = some f) (hp : portRefuses u f op = true) :
    performOp f.id op u = .waits u := by
  simp [performOp, hf, hp]
/-- An operation that names no tile and no matrix command meets no port. -/
theorem portRefuses_none (u : State) (f : Fibre) (op : DevOp) (h : op.tiles = []) (hm : ∀ c, op ≠ .mat c) :
    portRefuses u f op = false := by
  unfold portRefuses
  rw [h]
  cases op <;> first | rfl | exact absurd rfl (hm _)
/-- The same where the instruction's translations have been cached. -/
theorem performOp_own {s f} (q : Quiet s f) (fills : List TlbEntry) (op : DevOp) (hp : portRefuses (cached f fills s) f op = false) :
    performOp f.id op (cached f fills s) =
      performFor f.id f op (cached f fills s) (crossTo (cached f fills s) f (op.addrs (cached f fills s) f)) := by
  have c := cached_cached f fills s
  refine performOp_at q op ((fibre?_cached f fills s f.id).trans q.own) ((hru_cached f fills s).trans q.held) ?_ (c.going q.links) hp
  obtain ⟨k, n, m, g, e⟩ := c.form
  rw [e]
@[simp] theorem cached_nil (f : Fibre) (s : State) : cached f [] s = s := rfl

/-- An operation that must wait, at issue. -/
theorem op_wait {s f} (q : Quiet s f) {i : Instr} {h : Hdr} {plan : State → Fibre → Plan} {o marks tr en fills u ws}
    (hp : performOp f.id o (rankLines (plan s f).hint o.accs (cached f fills s)) = ⟨u, ws, false⟩)
    (hc : (plan s f).context = false) (ho : (plan s f).operand = false) (hal : (plan s f).always = [])
    (hm : execMask f h (plan s f) ≠ 0)
    (how : (plan s f).own (execMask f h (plan s f)) = .op o marks tr en fills) :
    issueWord i h plan s = .next u := by
  have c : Passes f (plan s f) h := ⟨hc, ho, hm⟩
  rw [issueWord_quiet q i h plan c, how, putAlways_none _ hal]
  have e1 : ∀ l (s : State), (List.foldl (fun s e => useTlb f.id.core (partOfCore s f.id.core) e s) s l) = cached f l s :=
    fun _ _ => rfl
  simp only [carry, e1, heldMode_ranked, ranked_ahead, heldMode_cached, cached_ahead, q.plain, q.ahead, q.settled]
  simp [issueNow, hp]

end Sys2Proof.Machine
end

