-- ==== Sys2Proof/Laws/Memory.lean ====
section
/-! SUPPORT. Bytes after writes, and the canonical form of memory: every operation over memory keeps it. -/

namespace Sys2Proof.Machine

/-! ## Lists of cells -/

/-- Looking for a key. -/
theorem find?_key {α : Type} (c : Nat × α) (r : List (Nat × α)) (x : Nat) :
    (c :: r).find? (fun e => e.1 == x) = if c.1 = x then some c else r.find? fun e => e.1 == x := by
  rw [List.find?_cons]
  by_cases h : c.1 = x
  · simp [h]
  · rw [beq_false_of_ne h, if_neg h]

/-- A listed byte. -/
theorem Cells.get_put (m : List Host.Cell) (a : Nat) (b : Byte) (x : Nat) :
    Cells.get (Cells.put m a b) x = if x = a then some b else Cells.get m x := by
  induction m with
  | nil =>
    by_cases h : x = a
    · simp [Cells.put, Cells.get, h]
    · have : ¬ a = x := fun e => h e.symm
      simp [Cells.put, Cells.get, h, this]
  | cons c r ih =>
    obtain ⟨k, d⟩ := c
    unfold Cells.get at ih ⊢
    unfold Cells.put
    by_cases hx : x = a
    · subst hx
      rw [if_pos rfl] at ih ⊢
      by_cases h1 : k < x
      · rw [if_pos h1, find?_key, if_neg (by simp only; omega), ih]
      · rw [if_neg h1]
        split <;> rw [find?_key, if_pos rfl] <;> rfl
    · have hx' : ¬ a = x := fun e => hx e.symm
      rw [if_neg hx] at ih ⊢
      by_cases h1 : k < a
      · rw [if_pos h1, find?_key, find?_key]
        by_cases h2 : k = x
        · rw [if_pos h2, if_pos h2]
        · rw [if_neg h2, if_neg h2, ih]
      · rw [if_neg h1]
        by_cases h2 : k = a
        · subst h2
          rw [if_pos rfl, find?_key, find?_key, if_neg hx', if_neg hx']
        · rw [if_neg h2, find?_key, if_neg hx']

/-- An unlisted byte. -/
theorem Cells.get_del (m : List Host.Cell) (a x : Nat) :
    Cells.get (Cells.del m a) x = if x = a then none else Cells.get m x := by
  unfold Cells.get Cells.del
  induction m with
  | nil => simp
  | cons c r ih =>
    rw [List.filter_cons]
    by_cases h : c.1 = a
    · rw [if_neg (by simp [h]), ih]
      by_cases hx : x = a
      · rw [if_pos hx, if_pos hx]
      · rw [if_neg hx, if_neg hx, find?_key, if_neg (by omega)]
    · rw [if_pos (by simp [h]), find?_key]
      by_cases hx : x = a
      · subst hx
        rw [if_pos rfl] at ih ⊢
        rw [if_neg h, ih]
      · rw [if_neg hx] at ih ⊢
        rw [find?_key]
        by_cases h2 : c.1 = x
        · rw [if_pos h2, if_pos h2]
        · rw [if_neg h2, if_neg h2, ih]

/-- A written byte reads back; every other byte is what it was. -/
theorem Cells.get_write (d : Byte) (m : List Host.Cell) (a : Nat) (b : Byte) (x : Nat) :
    (Cells.get (Cells.write d m a b) x).getD d = if x = a then b else (Cells.get m x).getD d := by
  unfold Cells.write
  by_cases h : b = d
  · rw [if_pos h, Cells.get_del]
    by_cases hx : x = a <;> simp [hx, h]
  · rw [if_neg h, Cells.get_put]
    by_cases hx : x = a <;> simp [hx]

/-- Rising addresses, as a pairwise order. -/
theorem Cells.rising_iff (m : List Host.Cell) : Cells.rising m = true ↔ m.Pairwise fun a b => a.1 < b.1 := by
  induction m with
  | nil => simp [Cells.rising]
  | cons a r ih =>
    cases r with
    | nil => simp [Cells.rising]
    | cons b r =>
      simp only [Cells.rising, Bool.and_eq_true, decide_eq_true_eq, ih]
      constructor
      · rintro ⟨h1, h2⟩
        refine List.pairwise_cons.mpr ⟨fun x hx => ?_, h2⟩
        rcases List.mem_cons.mp hx with rfl | hx
        · exact h1
        · exact Nat.lt_trans h1 ((List.pairwise_cons.mp h2).1 x hx)
      · intro h
        have := List.pairwise_cons.mp h
        exact ⟨this.1 b (by simp), this.2⟩

/-- What is listed after a byte was listed. -/
theorem Cells.mem_put {m : List Host.Cell} {a : Nat} {b : Byte} {x : Host.Cell} (h : x ∈ Cells.put m a b) :
    x = (a, b) ∨ (x ∈ m ∧ x.1 ≠ a) ∨ (x ∈ m ∧ ¬ Cells.rising m = true) ∨ x ∈ m ∧ a < x.1 := by
  induction m with
  | nil => left; simpa [Cells.put] using h
  | cons c r ih =>
    obtain ⟨k, d⟩ := c
    unfold Cells.put at h
    by_cases h1 : k < a
    · rw [if_pos h1] at h
      rcases List.mem_cons.mp h with rfl | h
      · right; left; exact ⟨by simp, by simp; omega⟩
      · rcases ih h with h | h | h | h
        · left; exact h
        · right; left; exact ⟨by simp [h.1], h.2⟩
        · right; right; left
          refine ⟨by simp [h.1], fun hr => h.2 ?_⟩
          rw [Cells.rising_iff] at hr ⊢
          exact (List.pairwise_cons.mp hr).2
        · right; right; right; exact ⟨by simp [h.1], h.2⟩
    · rw [if_neg h1] at h
      by_cases h2 : k = a
      · subst h2
        rw [if_pos rfl] at h
        rcases List.mem_cons.mp h with rfl | h
        · left; rfl
        · by_cases h3 : x.1 = k
          · right; right; left
            refine ⟨by simp [h], fun hr => ?_⟩
            rw [Cells.rising_iff] at hr
            have := (List.pairwise_cons.mp hr).1 x h
            simp [h3] at this
          · right; left; exact ⟨by simp [h], h3⟩
      · rw [if_neg h2] at h
        rcases List.mem_cons.mp h with rfl | h
        · left; rfl
        · by_cases h3 : x.1 = a
          · right; right; left
            refine ⟨h, fun hr => ?_⟩
            rw [Cells.rising_iff] at hr
            rcases List.mem_cons.mp h with rfl | h
            · exact h2 h3
            · have := (List.pairwise_cons.mp hr).1 x h
              simp at this; omega
          · right; left; exact ⟨h, h3⟩

/-- What is listed after a byte was listed, without more. -/
theorem Cells.mem_put' {m : List Host.Cell} {a : Nat} {b : Byte} {x : Host.Cell} (h : x ∈ Cells.put m a b) :
    x = (a, b) ∨ x ∈ m := by
  rcases Cells.mem_put h with h | h | h | h
  · exact .inl h
  · exact .inr h.1
  · exact .inr h.1
  · exact .inr h.1

/-- Listing a byte keeps the order. -/
theorem Cells.rising_put {m : List Host.Cell} (a : Nat) (b : Byte) (h : Cells.rising m = true) :
    Cells.rising (Cells.put m a b) = true := by
  rw [Cells.rising_iff] at h ⊢
  induction m with
  | nil => simp [Cells.put]
  | cons c r ih =>
    obtain ⟨k, d⟩ := c
    have hc := List.pairwise_cons.mp h
    unfold Cells.put
    by_cases h1 : k < a
    · rw [if_pos h1]
      refine List.pairwise_cons.mpr ⟨fun x hx => ?_, ih hc.2⟩
      rcases Cells.mem_put' hx with rfl | hx
      · exact h1
      · exact hc.1 x hx
    · rw [if_neg h1]
      by_cases h2 : k = a
      · subst h2
        rw [if_pos rfl]
        exact List.pairwise_cons.mpr ⟨hc.1, hc.2⟩
      · rw [if_neg h2]
        refine List.pairwise_cons.mpr ⟨fun x hx => ?_, h⟩
        rcases List.mem_cons.mp hx with rfl | hx
        · show a < k; omega
        · have := hc.1 x hx
          show a < x.1
          simp only at this; omega

/-- Keeping some cells keeps the order. -/
theorem Cells.rising_filter {m : List Host.Cell} (p : Host.Cell → Bool) (h : Cells.rising m = true) :
    Cells.rising (m.filter p) = true := by
  rw [Cells.rising_iff] at h ⊢
  exact h.filter p

/-- A write keeps the canonical form. -/
theorem Cells.write_wf {m : List Host.Cell} (d : Nat → Byte) (a : Nat) (b : Byte) (h : Cells.rising m = true)
    (hd : (m.all fun c => c.2 != d c.1) = true) :
    Cells.rising (Cells.write (d a) m a b) = true ∧ ((Cells.write (d a) m a b).all fun c => c.2 != d c.1) = true := by
  unfold Cells.write
  by_cases hb : b = d a
  · rw [if_pos hb]
    refine ⟨Cells.rising_filter _ h, ?_⟩
    rw [List.all_eq_true] at hd ⊢
    intro x hx
    exact hd x (List.mem_filter.mp hx).1
  · rw [if_neg hb]
    refine ⟨Cells.rising_put _ _ h, ?_⟩
    rw [List.all_eq_true] at hd ⊢
    intro x hx
    rcases Cells.mem_put' hx with rfl | hx
    · simpa using hb
    · exact hd x hx

/-! ## Tables -/

theorem Tab.get_set {α : Type} (t : Table α) (k : Nat) (v : α) (x : Nat) :
    Tab.get (Tab.set t k v) x = if x = k then some v else Tab.get t x := by
  induction t with
  | nil =>
    by_cases h : x = k
    · simp [Tab.set, Tab.get, h]
    · have : ¬ k = x := fun e => h e.symm
      simp [Tab.set, Tab.get, h, this]
  | cons c r ih =>
    obtain ⟨j, d⟩ := c
    unfold Tab.get at ih ⊢
    unfold Tab.set
    by_cases hx : x = k
    · subst hx
      rw [if_pos rfl] at ih ⊢
      by_cases h1 : j < x
      · rw [if_pos h1, find?_key, if_neg (by simp only; omega), ih]
      · rw [if_neg h1]
        split <;> rw [find?_key, if_pos rfl] <;> rfl
    · have hx' : ¬ k = x := fun e => hx e.symm
      rw [if_neg hx] at ih ⊢
      by_cases h1 : j < k
      · rw [if_pos h1, find?_key, find?_key]
        by_cases h2 : j = x
        · rw [if_pos h2, if_pos h2]
        · rw [if_neg h2, if_neg h2, ih]
      · rw [if_neg h1]
        by_cases h2 : j = k
        · subst h2
          rw [if_pos rfl, find?_key, find?_key, if_neg hx', if_neg hx']
        · rw [if_neg h2, find?_key, if_neg hx']


theorem Tab.get_del {α : Type} (t : Table α) (k x : Nat) :
    Tab.get (Tab.del t k) x = if x = k then none else Tab.get t x := by
  unfold Tab.get Tab.del
  induction t with
  | nil => simp
  | cons c r ih =>
    rw [List.filter_cons]
    by_cases h : c.1 = k
    · rw [if_neg (by simp [h]), ih]
      by_cases hx : x = k
      · rw [if_pos hx, if_pos hx]
      · rw [if_neg hx, if_neg hx, find?_key, if_neg (by omega)]
    · rw [if_pos (by simp [h]), find?_key]
      by_cases hx : x = k
      · subst hx
        rw [if_pos rfl] at ih ⊢
        rw [if_neg h, ih]
      · rw [if_neg hx] at ih ⊢
        rw [find?_key]
        by_cases h2 : c.1 = x
        · rw [if_pos h2, if_pos h2]
        · rw [if_neg h2, if_neg h2, ih]

/-- What a core holds after one core's holdings were replaced. -/
theorem coreOf_setCore (s : State) (c : Nat) (r : CoreRec) (d : Nat) :
    coreOf (setCore s c r) d = if d = c then r else coreOf s d := by
  unfold coreOf setCore Tab.getD
  by_cases h : r = CoreRec.init
  · rw [if_pos h]
    dsimp only
    rw [Tab.get_del]
    by_cases hd : d = c <;> simp [hd, h]
  · rw [if_neg h]
    dsimp only
    rw [Tab.get_set]
    by_cases hd : d = c <;> simp [hd]

/-! ## Homes -/

/-- A byte written at its home reads back; every other byte is what it was (R225). -/
theorem homeByte_putHome (ms : MemSys) (pa : Nat) (b : Byte) (a : Nat) :
    homeByte (putHome ms pa b) a = if a = pa then b else homeByte ms a := by
  unfold homeByte putHome
  dsimp only
  rw [Cells.get_put]
  by_cases h : a = pa
  · simp [h]
  · simp only [if_neg h]; rfl

/-- Bytes written at their homes. -/
theorem homeByte_putHomes (ctx : Option (Nat × Nat)) (bs : List Byte) (ms : MemSys) (pa a : Nat) :
    homeByte (putHomes ctx ms pa bs) a = if pa ≤ a ∧ a < pa + bs.length then bs.getD (a - pa) 0 else homeByte ms a := by
  induction bs generalizing ms pa with
  | nil =>
    rw [if_neg (by simp only [List.length_nil]; omega)]; rfl
  | cons b bs ih =>
    unfold putHomes
    rw [ih]
    have e : ∀ x : MemSys, homeByte { putHome ms pa b with dirty := x.dirty } a = homeByte (putHome ms pa b) a := fun _ => rfl
    by_cases h : pa = a
    · subst h
      rw [if_neg (by omega), if_pos (by simp)]
      rw [show homeByte { putHome ms pa b with dirty := Tab.set ms.dirty (pa / 64) (addContext ctx (Tab.getD ms.dirty (pa / 64) [])) } pa = homeByte (putHome ms pa b) pa from rfl,
        homeByte_putHome]
      simp
    · by_cases h2 : pa + 1 ≤ a ∧ a < pa + 1 + bs.length
      · rw [if_pos h2, if_pos (by simp only [List.length_cons]; omega)]
        have : a - pa = (a - (pa + 1)) + 1 := by omega
        rw [this]; simp
      · rw [if_neg h2, if_neg (by simp only [List.length_cons]; omega)]
        rw [show homeByte { putHome ms pa b with dirty := Tab.set ms.dirty (pa / 64) (addContext ctx (Tab.getD ms.dirty (pa / 64) [])) } a = homeByte (putHome ms pa b) a from rfl,
          homeByte_putHome, if_neg (by omega)]

/-- What writing bytes at their homes keeps. -/
theorem putHomes_keeps (ctx : Option (Nat × Nat)) (bs : List Byte) (ms : MemSys) (pa : Nat) :
    (putHomes ctx ms pa bs).mem = ms.mem ∧ (putHomes ctx ms pa bs).partials = ms.partials ∧
      (putHomes ctx ms pa bs).keys = ms.keys := by
  induction bs generalizing ms pa with
  | nil => exact ⟨rfl, rfl, rfl⟩
  | cons b bs ih =>
    unfold putHomes
    obtain ⟨h1, h2, h3⟩ := ih { putHome ms pa b with dirty := Tab.set ms.dirty (pa / 64) (addContext ctx (Tab.getD ms.dirty (pa / 64) [])) } (pa + 1)
    exact ⟨h1, h2, h3⟩

/-- Clearing poison changes no byte. -/
theorem clearWhole_form (ms : MemSys) (pa n : Nat) : ∃ l, clearWhole ms pa n = { ms with poison := l } := by
  unfold clearWhole
  split
  · exact ⟨ms.poison, rfl⟩
  · exact ⟨_, rfl⟩

/-! ## Writing events -/

/-- What a writing event changes: fibres that meet it, and copies. -/
theorem noteWrite_form (who : Option FibreId) (core : Option Nat) (k : Option Nat × Nat) (s : State) :
    ∃ d h, noteWrite who core k s =
      { s with fibres := s.fibres.map (meetWrite s.clock who k), msys := { s.msys with dir := d, hostDir := h } } :=
  ⟨_, _, rfl⟩

/-- A fibre that meets writes of another agent keeps its place, its registers but for a wait it may have been frozen in,
and what it has outstanding. -/
structure Met (f g : Fibre) : Prop where
  id     : g.id = f.id
  regs   : ∃ z, g.regs = { f.regs with frozen := z }
  pend   : g.pend = f.pend

theorem Met.refl (f : Fibre) : Met f f := ⟨rfl, ⟨f.regs.frozen, rfl⟩, rfl⟩
theorem Met.trans {f g h : Fibre} (a : Met f g) (b : Met g h) : Met f h := by
  obtain ⟨z, hz⟩ := b.regs
  obtain ⟨y, hy⟩ := a.regs
  exact ⟨b.id.trans a.id, ⟨z, by rw [hz, hy]⟩, b.pend.trans a.pend⟩

theorem meetWrite_met (clock : Nat) (who : Option FibreId) (k : Option Nat × Nat) (f : Fibre) : Met f (meetWrite clock who k f) := by
  exact ⟨rfl, ⟨_, rfl⟩, rfl⟩

/-- A status after writes of a line: what it was, or READY where it was a wait. -/
theorem wakeLine_cases (k : Option Nat × Nat) (x : FStatus) : wakeLine k x = x ∨ (∃ pa, x = .line pa) ∧ wakeLine k x = .ready := by
  cases x with
  | line pa =>
    unfold wakeLine
    by_cases hk : k = (none, pa / 64)
    · exact .inr ⟨⟨pa, rfl⟩, by simp [hk]⟩
    · exact .inl (by simp [hk])
  | _ => exact .inl rfl

/-- No write of its own changes a fibre. -/
theorem OwnMet.refl (f : Fibre) : OwnMet f f := ⟨rfl, .inl ⟨rfl, rfl⟩, .inl rfl⟩
theorem OwnMet.trans {f g h : Fibre} (a : OwnMet f g) (b : OwnMet g h) : OwnMet f h := by
  have e := a.rest
  have e' := b.rest
  refine ⟨by rw [e', e], ?_, ?_⟩
  · rcases b.status with ⟨b1, b2⟩ | ⟨⟨pa, b1⟩, b2⟩
    · rcases a.status with ⟨a1, a2⟩ | ⟨a1, a2⟩
      · exact .inl ⟨b1.trans a1, b2.trans a2⟩
      · exact .inr ⟨a1, b1.trans a2⟩
    · rcases a.status with ⟨a1, _⟩ | ⟨_, a2⟩
      · exact .inr ⟨⟨pa, a1 ▸ b1⟩, b2⟩
      · rw [a2] at b1; cases b1
  · rcases b.frozen with hb | ⟨⟨pa, b2⟩, b3⟩
    · rcases a.frozen with ha | ha
      · exact .inl (hb.trans ha)
      · exact .inr ⟨ha.1, hb.trans ha.2⟩
    · rcases a.frozen with ha | ⟨_, a3⟩
      · exact .inr ⟨⟨pa, ha ▸ b2⟩, b3⟩
      · rw [a3] at b2; cases b2

/-- The writer meets its own write only where it waits for the line. -/
theorem meetWrite_own (clock : Nat) (k : Option Nat × Nat) (f : Fibre) : OwnMet f (meetWrite clock (some f.id) k f) := by
  refine ⟨?_, ?_, wakeLine_cases k f.regs.frozen⟩
  · simp [meetWrite]
  · rcases wakeLine_cases k f.status with e | e
    · exact .inl ⟨e, by simp [meetWrite, e]⟩
    · exact .inr e

/-- States that differ by writing events of fibre `who` alone. -/
structure Wrote (who : Option FibreId) (s t : State) : Prop where
  own    : ∀ f, who = some f.id → fibre? s f.id = some f → ∃ g, fibre? t f.id = some g ∧ OwnMet f g
  met    : ∀ id, ∀ f, fibre? s id = some f → ∃ g, fibre? t id = some g ∧ Met f g
  gone   : ∀ id, fibre? s id = none → fibre? t id = none

theorem Wrote.refl (who : Option FibreId) (s : State) : Wrote who s s :=
  ⟨fun f _ h => ⟨f, h, OwnMet.refl f⟩, fun _ f h => ⟨f, h, Met.refl f⟩, fun _ h => h⟩
theorem Wrote.trans {who : Option FibreId} {s t u : State} (a : Wrote who s t) (b : Wrote who t u) : Wrote who s u := by
  refine ⟨fun f h1 h2 => ?_, fun id f h => ?_, fun id h => b.gone id (a.gone id h)⟩
  · obtain ⟨g, hg, m⟩ := a.own f h1 h2
    have hi : g.id = f.id := fibre?_id hg
    obtain ⟨k, hk, n⟩ := b.own g (by rw [hi]; exact h1) (by rw [hi]; exact hg)
    exact ⟨k, by rw [← hi]; exact hk, m.trans n⟩
  obtain ⟨g, hg, m⟩ := a.met id f h
  obtain ⟨k, hk, n⟩ := b.met id g hg
  exact ⟨k, hk, m.trans n⟩

/-- Finding a fibre among fibres that were all changed without moving. -/
theorem find?_map_id (l : List Fibre) (g : Fibre → Fibre) (hg : ∀ f, (g f).id = f.id) (id : FibreId) :
    (l.map g).find? (fun f => f.id == id) = (l.find? fun f => f.id == id).map g := by
  induction l with
  | nil => rfl
  | cons a r ih =>
    simp only [List.map_cons, List.find?_cons, hg]
    cases a.id == id <;> simp [ih]

theorem noteWrite_wrote (who : Option FibreId) (core : Option Nat) (k : Option Nat × Nat) (s : State) :
    Wrote who s (noteWrite who core k s) := by
  have hid : ∀ f, (meetWrite s.clock who k f).id = f.id := fun f => (meetWrite_met _ _ _ f).id
  have e : ∀ id, fibre? (noteWrite who core k s) id = (fibre? s id).map (meetWrite s.clock who k) :=
    fun id => find?_map_id s.fibres _ hid id
  refine ⟨fun f hw h => ?_, fun id f h => ?_, fun id h => ?_⟩
  · exact ⟨_, by rw [e, h, Option.map_some], by rw [hw]; exact meetWrite_own _ _ f⟩
  · exact ⟨_, by rw [e, h, Option.map_some], meetWrite_met _ _ _ f⟩
  · rw [e, h, Option.map_none]

/-- Several writing events: what is not a fibre or a copy is kept. -/
theorem noteWrites_keep (who : Option FibreId) (core : Option Nat) (ks : List (Option Nat × Nat)) (s : State) :
    let t := ks.foldl (fun s k => noteWrite who core k s) s
    (∀ a, homeByte t.msys a = homeByte s.msys a) ∧ t.cores = s.cores ∧ t.msys.mem = s.msys.mem ∧ t.msys.home = s.msys.home ∧
      t.msys.keys = s.msys.keys ∧ t.msys.partials = s.msys.partials ∧ Wrote who s t := by
  induction ks generalizing s with
  | nil => exact ⟨fun _ => rfl, rfl, rfl, rfl, rfl, rfl, Wrote.refl who s⟩
  | cons k r ih =>
    obtain ⟨h1, h2, h3, h4, h5, h6, h7⟩ := ih (noteWrite who core k s)
    exact ⟨h1, h2, h3, h4, h5, h6, (noteWrite_wrote who core k s).trans h7⟩

/-- A fold over the lines of a range is a fold over their keys. -/
theorem foldl_lines (who : Option FibreId) (core : Option Nat) (g : Nat → Option Nat × Nat) (ls : List Nat) (s : State) :
    ls.foldl (fun s l => noteWrite who core (g l) s) s = (ls.map g).foldl (fun s k => noteWrite who core k s) s := by
  rw [List.foldl_map]

/-- A write of device memory: its bytes change, no others, no scratchpad, and fibres as by writing events. -/
theorem writeDev_spec (who : Option FibreId) (core : Option Nat) (ctx : Option (Nat × Nat)) (pa : Nat) (bs : List Byte) (s : State) :
    (∀ a, homeByte (writeDev who core ctx pa bs s).msys a =
        if pa ≤ a ∧ a < pa + bs.length then bs.getD (a - pa) 0 else homeByte s.msys a) ∧
      (writeDev who core ctx pa bs s).cores = s.cores ∧ (writeDev who core ctx pa bs s).msys.mem = s.msys.mem ∧
      (writeDev who core ctx pa bs s).msys.partials = s.msys.partials ∧ Wrote who s (writeDev who core ctx pa bs s) := by
  unfold writeDev
  dsimp only
  rw [foldl_lines who core (fun l => (none, l))]
  obtain ⟨pl, hpl⟩ := clearWhole_form (putHomes ctx s.msys pa bs) pa bs.length
  rw [hpl]
  obtain ⟨h1, h2, h3, -, -, h6, h7⟩ := noteWrites_keep who core ((linesOf pa bs.length).map fun l => (none, l))
    { s with msys := { putHomes ctx s.msys pa bs with poison := pl } }
  obtain ⟨k1, k2, -⟩ := putHomes_keeps ctx bs s.msys pa
  refine ⟨fun a => (h1 a).trans (homeByte_putHomes ctx bs s.msys pa a), h2, h3.trans k1, h6.trans k2, ?_⟩
  exact ⟨h7.own, h7.met, h7.gone⟩

/-! ## Scratchpads -/

/-- Bytes written from an offset on. -/
theorem scratch_fold (bs : List Byte) (m : List Host.Cell) (off a : Nat) :
    (Cells.get (bs.foldl (fun (p : List Host.Cell × Nat) b => (Cells.write 0 p.1 p.2 b, p.2 + 1)) (m, off)).1 a).getD 0 =
      if off ≤ a ∧ a < off + bs.length then bs.getD (a - off) 0 else (Cells.get m a).getD 0 := by
  induction bs generalizing m off with
  | nil => rw [if_neg (by simp only [List.length_nil]; omega)]; rfl
  | cons b bs ih =>
    rw [List.foldl_cons, ih, Cells.get_write]
    by_cases h : off = a
    · subst h
      rw [if_neg (by omega), if_pos rfl, if_pos (by simp)]
      simp
    · by_cases h2 : off + 1 ≤ a ∧ a < off + 1 + bs.length
      · rw [if_pos h2, if_pos (by simp only [List.length_cons]; omega)]
        have : a - off = (a - (off + 1)) + 1 := by omega
        rw [this]; simp
      · rw [if_neg h2, if_neg (by omega), if_neg (by simp only [List.length_cons]; omega)]

/-- A byte of a scratchpad after bytes were put. -/
theorem scrByte_putScr (s : State) (c off : Nat) (bs : List Byte) (d a : Nat) :
    scrByte (putScr s c off bs) d a =
      if d = c ∧ off ≤ a ∧ a < off + bs.length then bs.getD (a - off) 0 else scrByte s d a := by
  unfold putScr scrByte
  rw [coreOf_setCore]
  by_cases h : d = c
  · subst h
    simp only [if_true, true_and]
    exact scratch_fold bs _ off a
  · simp [h]

/-- A write of a scratchpad. -/
theorem writeScr_spec (who : Option FibreId) (c off : Nat) (bs : List Byte) (s : State) :
    (∀ d a, scrByte (writeScr who c off bs s) d a =
        if d = c ∧ off ≤ a ∧ a < off + bs.length then bs.getD (a - off) 0 else scrByte s d a) ∧
      (∀ a, homeByte (writeScr who c off bs s).msys a = homeByte s.msys a) ∧
      (writeScr who c off bs s).msys.mem = s.msys.mem ∧
      (writeScr who c off bs s).msys.partials = s.msys.partials ∧ Wrote who s (writeScr who c off bs s) := by
  unfold writeScr
  dsimp only
  rw [foldl_lines who none (fun l => (some c, l))]
  have k : (putScr s c off bs).msys = s.msys ∧ (putScr s c off bs).fibres = s.fibres := by
    unfold putScr; exact ⟨setCore_msys _ _ _, setCore_fibres _ _ _⟩
  obtain ⟨h1, h2, h3, -, -, h6, h7⟩ := noteWrites_keep who none ((linesOf off bs.length).map fun l => (some c, l)) (putScr s c off bs)
  refine ⟨fun d a => ?_, fun a => (h1 a).trans (by rw [k.1]), h3.trans (by rw [k.1]), h6.trans (by rw [k.1]), ?_⟩
  · rw [← scrByte_putScr]
    unfold scrByte coreOf
    rw [h2]
  · have e : ∀ id, fibre? (putScr s c off bs) id = fibre? s id := fun id => by unfold fibre?; rw [k.2]
    exact ⟨fun f a b => h7.own f a (by rw [e]; exact b), fun id f a => h7.met id f (by rw [e]; exact a),
      fun id a => h7.gone id (by rw [e]; exact a)⟩

end Sys2Proof.Machine
end

