-- ==== Sys2Proof/Laws/Access.lean ====
section
/-! SUPPORT. What accesses keep and change: reads, caching of translations, the parts of a store, and the plans of the load
and store instructions. -/

namespace Sys2Proof.Machine

/-- A home that takes a clean copy of a line reads as before. -/
theorem holdLine_home (ms : MemSys) (l a : Nat) : homeByte (holdLine ms l) a = homeByte ms a := by
  unfold holdLine
  split
  · rfl
  rename_i hh
  clear hh
  generalize List.range 64 = xs
  induction xs generalizing ms with
  | nil => rfl
  | cons i r ih =>
    rw [List.foldl_cons, ih]
    dsimp only
    split
    · rfl
    · rename_i h
      rw [homeByte_putHome]
      by_cases hx : a = 64 * l + i
      · subst hx
        simp at h
        rw [if_pos rfl]
        unfold homeByte
        rw [h]; rfl
      · rw [if_neg hx]

/-- what reading keeps -/
structure ReadKeeps (s t : State) : Prop where
  home : ∀ a, homeByte t.msys a = homeByte s.msys a
  cores : t.cores = s.cores
  fibres : t.fibres = s.fibres
  blocks : t.blocks = s.blocks

theorem ReadKeeps.refl (s : State) : ReadKeeps s s := ⟨fun _ => rfl, rfl, rfl, rfl⟩

theorem ReadKeeps.trans {s t u} (a : ReadKeeps s t) (b : ReadKeeps t u) : ReadKeeps s u :=
  ⟨fun x => (b.home x).trans (a.home x), b.cores.trans a.cores, b.fibres.trans a.fibres, b.blocks.trans a.blocks⟩

/-- A fold of steps that keep what reads keep. -/
theorem foldl_keeps {α} (g : State → α → State) (hg : ∀ s x, ReadKeeps s (g s x)) (l : List α) (s : State) : ReadKeeps s (l.foldl g s) := by
  induction l generalizing s with
  | nil => exact ReadKeeps.refl s
  | cons a r ih => exact (hg s a).trans (ih _)

/-- A line enters an L1. -/
theorem enterL1_keeps (c l pa : Nat) (k : PageKind) (s : State) : ReadKeeps s (enterL1 c l pa k s) := by
  unfold enterL1
  split
  · exact ReadKeeps.refl s
  · exact ⟨fun _ => rfl, rfl, rfl, rfl⟩
  · exact ⟨fun _ => rfl, rfl, rfl, rfl⟩

/-- A read. -/
theorem noteRead_keeps (c : Nat) (hint : Hint) (p : Part) (s : State) : ReadKeeps s (noteRead c hint p s) := by
  have fold : ∀ (ls : List Nat) (pa : Nat) (s : State), ReadKeeps s (ls.foldl (fun s l =>
      let s := if hint = .nol1 then s else enterL1 c l pa p.kind s
      if p.kind = .hostNon then { s with msys := holdLine s.msys l } else s) s) := by
    intro ls pa s
    apply foldl_keeps
    intro s l
    have a : ReadKeeps s (if hint = .nol1 then s else enterL1 c l pa p.kind s) := by
      split
      · exact ReadKeeps.refl s
      · exact enterL1_keeps c l pa p.kind s
    refine a.trans ?_
    generalize (if hint = .nol1 then s else enterL1 c l pa p.kind s) = u
    by_cases hk : p.kind = .hostNon
    · simp only [if_pos hk]
      have e : ∀ x, homeByte (holdLine u.msys l) x = homeByte u.msys x := holdLine_home u.msys l
      generalize holdLine u.msys l = m at e
      exact ⟨e, rfl, rfl, rfl⟩
    · simp only [if_neg hk]
      exact ReadKeeps.refl _
  unfold noteRead
  split
  · exact ReadKeeps.refl s
  · split
    · split
      · exact ⟨fun _ => rfl, rfl, rfl, rfl⟩
      · exact ReadKeeps.refl s
    · split
      · exact ReadKeeps.refl s
      · rename_i pa _ _ _
        have a : ReadKeeps s ((linesOf pa p.len).foldl (fun s l => noteStack l s) s) := by
          obtain ⟨l, g, e⟩ := (foldl_walked (fun s l => noteStack l s) (fun s l => noteStack_walked l s) (linesOf pa p.len) s).form
          rw [e]
          exact ⟨fun _ => rfl, rfl, rfl, rfl⟩
        refine a.trans ?_
        generalize (linesOf pa p.len).foldl (fun s l => noteStack l s) s = t
        dsimp only
        split
        · exact ReadKeeps.refl t
        · refine ReadKeeps.trans ?_ (fold _ _ _)
          split
          · exact ⟨fun _ => rfl, rfl, rfl, rfl⟩
          · exact ReadKeeps.refl t

/-- Traffic on links changes what they know of contexts alone. -/
theorem useLink_form (core p asid pa : Nat) (s : State) : ∃ l, useLink core p asid pa s = { s with links := l } := ⟨_, rfl⟩
theorem crossTo_form (s : State) (f : Fibre) (pas : List Nat) : ∃ l, crossTo s f pas = { s with links := l } := by
  unfold crossTo
  generalize (((pas.filter fun pa => paRegion pa != 0xF).map (· / 64)).foldl addNew []) = ls
  have : ∀ t : State, (∃ l, t = { s with links := l }) → ∃ l, ls.foldl (fun t l =>
    useLink f.id.core (partOfCore s f.id.core) (asidOf s f) (64 * l) t) t = { s with links := l } := by
    induction ls with
    | nil => exact fun t h => h
    | cons a r ih =>
      rintro t ⟨l, rfl⟩
      exact ih _ ⟨_, rfl⟩
  exact this s ⟨s.links, rfl⟩
theorem crossLinks_form (s : State) (f : Fibre) (accs : List LaneAcc) : ∃ l, crossLinks s f accs = { s with links := l } :=
  crossTo_form s f _

/-- A read of another device. -/
theorem drawFree_form (accs : List LaneAcc) (s : State) : ∃ n, drawFree accs s = { s with freeCtr := n } := by
  unfold drawFree
  dsimp only
  split
  · exact ⟨s.freeCtr, rfl⟩
  · exact ⟨_, rfl⟩
theorem drawFree_keeps (accs : List LaneAcc) (s : State) : ReadKeeps s (drawFree accs s) := by
  obtain ⟨n, e⟩ := drawFree_form accs s
  rw [e]; exact ⟨fun _ => rfl, rfl, rfl, rfl⟩

/-- What a fibre has seen. -/
theorem seeRecords_form (id : FibreId) (lines : List Nat) (s : State) :
    ∃ v, seeRecords id lines s = { s with msys := { s.msys with hncViews := v } } := by
  unfold seeRecords
  dsimp only
  split
  · exact ⟨s.msys.hncViews, rfl⟩
  · exact ⟨_, rfl⟩
theorem seeHnc_form (id : FibreId) (lag : Nat) (accs : List LaneAcc) (s : State) :
    ∃ v, seeHnc id lag accs s = { s with msys := { s.msys with hncViews := v } } := by
  unfold seeHnc
  split
  · exact ⟨s.msys.hncViews, rfl⟩
  · dsimp only
    generalize (accs.flatMap (hncLines s)).foldl _ _ = v
    split
    · exact seeRecords_form id _ s
    · obtain ⟨w, e⟩ := seeRecords_form id (devLines accs) { s with msys := setHncView s.msys v }
      exact ⟨w, by rw [e]; rfl⟩

/-- Reads of elements. -/
theorem noteReads_keeps (id : FibreId) (hint : Hint) (lag : Nat) (accs : List LaneAcc) (s : State) :
    ReadKeeps s (noteReads id hint lag accs s) := by
  unfold noteReads
  refine ReadKeeps.trans (t := accs.foldl (fun s a => a.parts.foldl (fun s p => noteRead id.core hint p s) s) s) ?_ ?_
  · apply foldl_keeps
    intro s a
    apply foldl_keeps
    intro s q
    exact noteRead_keeps id.core hint q s
  · obtain ⟨v, e⟩ := seeHnc_form id lag accs (accs.foldl (fun s a => a.parts.foldl (fun s p => noteRead id.core hint p s) s) s)
    rw [e]; exact ⟨fun _ => rfl, rfl, rfl, rfl⟩

/-- Reads at no lag are of memory as it stands. -/
@[simp] theorem staleView_now (id : FibreId) (accs : List LaneAcc) (s : State) : staleView id 0 accs s = s := by simp [staleView]

/-- A read of elements that no poison meets (R250): their values, and what it leaves in caches. -/
theorem readElems_clean (id : FibreId) (f : Fibre) (hint : Hint) (accs : List LaneAcc) (s : State) (hp : accsPoison s accs = none)
    (hl : s.lag = 0) : readElems id f hint accs s = .ok (drawFree accs (noteReads id hint 0 accs s),
      accs.map fun a => (a.lane, loadValue s (partOfCore s id.core) a)) := by
  simp [readElems, hp, hl]

/-! ## Before the events -/

/-- States that differ in TLBs, ranks, metadata caches and what links know of contexts alone. -/
structure Prep (s u : State) : Prop where
  form : ∃ k l m h g, u = { s with cores := k, links := l, msys := { s.msys with tlb2 := m, hints := h, metas := g } }
  core : ∀ d, ∃ z, coreOf u d = { coreOf s d with tlb := z }

theorem Prep.refl (s : State) : Prep s s :=
  ⟨⟨s.cores, s.links, s.msys.tlb2, s.msys.hints, s.msys.metas, rfl⟩, fun d => ⟨(coreOf s d).tlb, rfl⟩⟩
theorem Prep.trans {s t u : State} (a : Prep s t) (b : Prep t u) : Prep s u := by
  obtain ⟨k, l, m, h, g, rfl⟩ := a.form
  obtain ⟨k', l', m', h', g', rfl⟩ := b.form
  refine ⟨⟨k', l', m', h', g', rfl⟩, fun d => ?_⟩
  obtain ⟨z, e⟩ := a.core d
  obtain ⟨y, e'⟩ := b.core d
  exact ⟨y, by rw [e', e]⟩

/-- A core but for its TLB. -/
theorem coreOf_useTlb (c p : Nat) (x : TlbEntry) (s : State) (d : Nat) :
    ∃ z, coreOf (useTlb c p x s) d = { coreOf s d with tlb := z } := by
  have w : Walked s (if (tlbHit s c x.asid x.vbase).isSome then s else noteWalk c p x.asid x.vbase s) := by
    split
    · exact Walked.refl s
    · exact noteWalk_walked _ _ _ _ s
  unfold useTlb
  generalize (if (tlbHit s c x.asid x.vbase).isSome then s else noteWalk c p x.asid x.vbase s) = t at w
  have h : ∀ d, coreOf t d = coreOf s d := by
    obtain ⟨l, g, rfl⟩ := w.form
    exact fun _ => rfl
  unfold fillTlb
  dsimp only
  have : ∀ (t : State) (m : MemSys), coreOf { t with msys := m } d = coreOf t d := fun _ _ => rfl
  rw [this, coreOf_setCore, h, h]
  split
  · subst_vars; exact ⟨_, rfl⟩
  · exact ⟨(coreOf s d).tlb, rfl⟩
theorem coreOf_cached (f : Fibre) (l : List TlbEntry) (s : State) (d : Nat) : ∃ z, coreOf (cached f l s) d = { coreOf s d with tlb := z } := by
  unfold cached
  induction l generalizing s with
  | nil => exact ⟨_, rfl⟩
  | cons x r ih =>
    obtain ⟨z, e⟩ := ih (useTlb f.id.core (partOfCore s f.id.core) x s)
    obtain ⟨y, e'⟩ := coreOf_useTlb f.id.core (partOfCore s f.id.core) x s d
    rw [List.foldl_cons, e, e']
    exact ⟨z, rfl⟩

theorem Prep.cached (f : Fibre) (fills : List TlbEntry) (s : State) : Prep s (Machine.cached f fills s) := by
  obtain ⟨k, n, m, g, e⟩ := cached_form f fills s
  exact ⟨⟨k, n, m, s.msys.hints, g, e⟩, coreOf_cached f fills s⟩
theorem Prep.ranked (hint : Hint) (accs : List LaneAcc) (s : State) : Prep s (rankLines hint accs s) := by
  obtain ⟨h, e⟩ := rankLines_form hint accs s
  rw [e]; exact ⟨⟨s.cores, s.links, s.msys.tlb2, h, s.msys.metas, rfl⟩, fun d => ⟨(coreOf s d).tlb, rfl⟩⟩
theorem Prep.crossedTo (s : State) (f : Fibre) (pas : List Nat) : Prep s (crossTo s f pas) := by
  obtain ⟨l, e⟩ := crossTo_form s f pas
  rw [e]; exact ⟨⟨s.cores, l, s.msys.tlb2, s.msys.hints, s.msys.metas, rfl⟩, fun d => ⟨(coreOf s d).tlb, rfl⟩⟩
theorem Prep.crossed (s : State) (f : Fibre) (accs : List LaneAcc) : Prep s (crossLinks s f accs) := Prep.crossedTo s f _
/-- What precedes an access's events. -/
theorem Prep.all (f : Fibre) (hint : Hint) (accs : List LaneAcc) (fills : List TlbEntry) (s : State) :
    Prep s (prepared f hint accs fills s) :=
  ((Prep.cached f fills s).trans (Prep.ranked hint accs _)).trans (Prep.crossed _ f accs)

section
variable {s u : State}

theorem Prep.scr (h : Prep s u) (d a : Nat) : scrByte u d a = scrByte s d a := by
  obtain ⟨z, e⟩ := h.core d
  unfold scrByte; rw [e]
theorem Prep.memory (h : Prep s u) : SameMemory s u := by
  refine ⟨fun a => ?_, h.scr⟩
  obtain ⟨k, l, m, r, g, rfl⟩ := h.form; rfl
theorem Prep.keeps (h : Prep s u) : u.fibres = s.fibres ∧ u.blocks = s.blocks ∧ u.msys.partials = s.msys.partials ∧ u.lag = s.lag ∧
    u.msys.hru = s.msys.hru ∧ u.dev = s.dev ∧ u.ahead = s.ahead := by
  obtain ⟨k, l, m, r, g, rfl⟩ := h.form; exact ⟨rfl, rfl, rfl, rfl, rfl, rfl, rfl⟩
theorem Prep.fibre (h : Prep s u) (id : FibreId) : fibre? u id = fibre? s id := by
  obtain ⟨k, l, m, r, g, rfl⟩ := h.form; rfl
theorem Prep.context (h : Prep s u) (c : Nat) (x : Fibre) : partOfCore u c = partOfCore s c ∧ asidOf u x = asidOf s x ∧
    heldMode u x = heldMode s x ∧ blockOf u x = blockOf s x := by
  obtain ⟨k, l, m, r, g, rfl⟩ := h.form; exact ⟨rfl, rfl, rfl, rfl⟩
theorem Prep.held (h : Prep s u) (id : FibreId) (accs : List LaneAcc) : claimed u id accs = claimed s id accs ∧
    commitHeld u id accs = commitHeld s id accs := by
  obtain ⟨k, l, m, r, g, rfl⟩ := h.form; exact ⟨rfl, rfl⟩
theorem Prep.partPoison (h : Prep s u) (p : Part) : Machine.partPoison u p = Machine.partPoison s p := by
  unfold Machine.partPoison
  split
  · rename_i c o _
    obtain ⟨z, e⟩ := h.core c
    rw [e]
  · obtain ⟨k, l, m, r, g, rfl⟩ := h.form; rfl
theorem Prep.poison (h : Prep s u) (accs : List LaneAcc) : accsPoison u accs = accsPoison s accs := by
  unfold accsPoison
  congr 1; funext a; congr 1; funext p
  exact h.partPoison p
theorem Prep.tiles (h : Prep s u) (x : Fibre) (t : Nat) (area : TileArea) : tileOf u x = tileOf s x ∧
    tilePoison u x t area = tilePoison s x t area := by
  obtain ⟨k, l, m, r, g, rfl⟩ := h.form; exact ⟨rfl, rfl⟩
theorem Prep.busy (h : Prep s u) (g : Fibre) (ts : List Nat) : tileBusy u g ts = tileBusy s g ts := by
  unfold tileBusy
  obtain ⟨z, e⟩ := h.core g.id.core
  rw [e, h.keeps.1]
theorem Prep.port (h : Prep s u) (g : Fibre) (o : DevOp) : portRefuses u g o = portRefuses s g o := by
  unfold portRefuses
  obtain ⟨z, e⟩ := h.core g.id.core
  rw [h.busy, e]

end

/-- Without an element nothing but translations precedes. -/
@[simp] theorem prepared_nil (f : Fibre) (hint : Hint) (fills : List TlbEntry) (s : State) :
    prepared f hint [] fills s = cached f fills s := by simp [prepared]

/-- No commit is under way: no line is held for one. -/
theorem Quiet.notHeld {s f} (q : Quiet s f) (id : FibreId) (accs : List LaneAcc) : commitHeld s id accs = false := by
  have : ∀ k, commitHolds s (some id) k = false := by
    intro k
    simp only [commitHolds, List.any_eq_false]
    intro g hg
    simp [Fibre.holdsLine, q.commits g hg]
  simp only [commitHeld, List.any_eq_false]
  intro a _
  simp only [Bool.not_eq_true, List.any_eq_false]
  intro k _
  simp [this k]

/-- Before its events, a quiet fibre's access finds no link stopped. -/
theorem Quiet.linksGo {s f} (q : Quiet s f) (hint : Hint) (accs : List LaneAcc) (fills : List TlbEntry) :
    ∀ l ∈ (rankLines hint accs (cached f fills s)).links, l.stopped = false := by
  obtain ⟨k, e⟩ := rankLines_form hint accs (cached f fills s)
  rw [e]
  exact (cached_cached f fills s).going q.links

/-- What a quiet fibre's access that the command port accepts is performed from. -/
theorem performOp_access {s f} (q : Quiet s f) (o : DevOp) (hint : Hint) (accs : List LaneAcc) (fills : List TlbEntry)
    (hp : portRefuses s f o = false) :
    let u := rankLines hint accs (cached f fills s)
    performOp f.id o u = performFor f.id f o u (crossTo u f (o.addrs u f)) := by
  have P := (Prep.cached f fills s).trans (Prep.ranked hint accs _)
  exact performOp_at q o ((P.fibre f.id).trans q.own) (P.keeps.2.2.2.2.1.trans q.held) P.keeps.2.2.2.2.2.1 (q.linksGo hint accs fills)
    ((P.port f o).trans hp)

/-- An access is performed at issue from the prepared state. -/
theorem access_next {s f} (q : Quiet s f) {i : Instr} {h : Hdr} {plan : State → Fibre → Plan} {o marks tr en fills hint accs u ws D}
    (hp : performFor f.id f o (rankLines hint accs (cached f fills s)) (prepared f hint accs fills s) = ⟨u, ws, true⟩)
    (ha : o.accs = accs) (hd : ∀ t, o.addrs t f = devAddrs accs) (hr : portRefuses s f o = false) (hh : (plan s f).hint = hint)
    (hc : (plan s f).context = false) (ho : (plan s f).operand = false) (hal : (plan s f).always = [])
    (hm : execMask f h (plan s f) ≠ 0)
    (how : (plan s f).own (execMask f h (plan s f)) = .op o marks tr en fills) (n : Nat) (hn : lenOf i = n)
    (hD : (plan s f).dests = D) (hb : o.binds = none) :
    issueWord i h plan s = .next (afterOp f (f.past n) D marks ws none u) := by
  have e : performOp f.id o (rankLines hint accs (cached f fills s)) = ⟨u, ws, true⟩ := by
    rw [performOp_access q o hint accs fills hr, hd]
    exact hp
  have e2 := op_next q hc ho hal hm how n hn (rankLines hint accs (cached f fills s)) (by rw [ha, hh]) (by rw [e])
  rw [e] at e2
  rw [e2, hD, hb]

/-- An access that must wait. -/
theorem access_wait {s f} (q : Quiet s f) {i : Instr} {h : Hdr} {plan : State → Fibre → Plan} {o marks tr en fills hint accs}
    (hp : performFor f.id f o (rankLines hint accs (cached f fills s)) (prepared f hint accs fills s) =
      .waits (rankLines hint accs (cached f fills s)))
    (ha : o.accs = accs) (hd : ∀ t, o.addrs t f = devAddrs accs) (hr : portRefuses s f o = false) (hh : (plan s f).hint = hint)
    (hc : (plan s f).context = false) (ho : (plan s f).operand = false) (hal : (plan s f).always = [])
    (hm : execMask f h (plan s f) ≠ 0)
    (how : (plan s f).own (execMask f h (plan s f)) = .op o marks tr en fills) :
    issueWord i h plan s = .next (rankLines hint accs (cached f fills s)) := by
  refine op_wait (ws := []) q ?_ hc ho hal hm how
  rw [hh, ha, performOp_access q o hint accs fills hr, hd]
  exact hp

/-! ## Reads and writes -/

/-- A load is the issue of a plan with its form. -/
theorem loadExec {i L} (h : loadForm i = some L) (s : State) : ∃ plan : State → Fibre → Plan, exec i s = issueWord i L.h plan s ∧
   lenOf i = L.len ∧ (∀ f, (plan s f).context = false ∧ (plan s f).operand = L.refused s f ∧ (plan s f).always = [] ∧ (plan s f).uniform = L.uniform ∧
     (plan s f).dests = L.dests ∧ (plan s f).hint = L.hint ∧
     ∀ m accs fills, combine (L.checks s f m) = .ok accs fills → (plan s f).own m = loadEff s f L.size L.signed L.dest L.hint L.dests accs fills) := by
  unfold loadForm at h
  split at h
  all_goals cases h <;> (
    refine ⟨_, rfl, rfl, fun f => ⟨rfl, rfl, rfl, rfl, rfl, rfl, ?_⟩⟩
    intro m accs fills hc
    exact congrArg (fun c => afterChecks _ f s c _) hc)

/-- A load has a destination. -/
theorem regs_nonempty {i L} (h : loadForm i = some L) : L.dests ≠ [] := by
  unfold loadForm at h
  have v : ∀ w wd d, vdstNames w wd d ≠ [] := by intro w wd d; unfold vdstNames; cases w <;> cases wd <;> simp
  split at h
  all_goals cases h <;> first
   | exact v _ _ _
   | exact List.cons_ne_nil _ _
   | (rename_i x; simp only [blockLoad]; cases x.cnt <;> simp [BlkCount.regs, List.range_succ, v])

/-- A quiet fibre is not speculative. -/
theorem irrev {s f} (q : Quiet s f) (now e) : irrevocable s f now e = e := by
  simp [irrevocable, q.settled]

/-- Bytes of a number. -/
theorem leBytes_length (n v : Nat) : (leBytes n v).length = n := by
  induction n generalizing v with
  | zero => rfl
  | succ n ih => simp [leBytes, ih]

theorem leBytes_getD (n v i : Nat) (h : i < n) : (leBytes n v).getD i 0 = BitVec.ofNat 8 (v / 256 ^ i) := by
  induction n generalizing v i with
  | zero => omega
  | succ n ih =>
    cases i with
    | zero => simp [leBytes]
    | succ i =>
      have := ih (v / 256) i (by omega)
      rw [leBytes, List.getD_cons_succ, this, Nat.div_div_eq_div_mul, Nat.pow_succ, Nat.mul_comm]

/-- what one part stores -/
def devStep (v a : Nat) (acc : Option Byte) (q : Part) : Option Byte := match q.loc with
    | .dev pa => if pa ≤ a ∧ a < pa + q.len then some (BitVec.ofNat 8 (v / 256 ^ q.off / 256 ^ (a - pa))) else acc
    | .scr _ _ => acc

def scrStep (v c a : Nat) (acc : Option Byte) (q : Part) : Option Byte := match q.loc with
    | .dev _ => acc
    | .scr k o => if k = c ∧ o ≤ a ∧ a < o + q.len then some (BitVec.ofNat 8 (v / 256 ^ q.off / 256 ^ (a - o))) else acc

/-- A write into a Host-noncoherent line is logged: no byte changes. -/
theorem logHnc_form (who : Option FibreId) (pas : List Nat) (s : State) :
    ∃ k l v, logHnc who pas s = { s with msys := { s.msys with hncNum := k, hncLog := l, hncViews := v } } := by
  unfold logHnc
  cases who with
  | none => exact ⟨_, _, s.msys.hncViews, rfl⟩
  | some id => exact ⟨_, _, _, rfl⟩

/-- What writing one part changes. -/
theorem writePart_spec (who core ctx) (q : Part) (v : Nat) (s : State) :
    let t := writePart who core ctx q (bytesOf q.len (v / 256 ^ q.off)) s
    (∀ a acc d, homeByte s.msys a = acc.getD d → homeByte t.msys a = (devStep v a acc q).getD d) ∧
    (∀ c a acc d, scrByte s c a = acc.getD d → scrByte t c a = (scrStep v c a acc q).getD d) ∧
    t.msys.partials = s.msys.partials.filter (fun p => match q.loc, q.kind with
    | .dev pa, .comm _ _ => p.pa != pa
    | _, _ => true) ∧ Wrote who s t := by
  intro t
  have hlen : (bytesOf q.len (v / 256 ^ q.off)).length = q.len := leBytes_length _ _
  have hget : ∀ i, i < q.len → (bytesOf q.len (v / 256 ^ q.off)).getD i 0 = BitVec.ofNat 8 (v / 256 ^ q.off / 256 ^ i) :=
    fun i hi => leBytes_getD _ _ _ hi
  cases hq : q.loc with
  | scr c o =>
    have ht : t = writeScr who c o (bytesOf q.len (v / 256 ^ q.off)) s := by simp only [t, writePart, hq]
    obtain ⟨h1, h2, h3, h4, h5⟩ := writeScr_spec who c o (bytesOf q.len (v / 256 ^ q.off)) s
    rw [← ht] at h1 h2 h3 h4 h5
    refine ⟨fun a acc d h => ?_, fun k a acc d h => ?_, ?_, h5⟩
    · simp only [devStep, hq]; rw [h2, h]
    · simp only [scrStep, hq]
      rw [h1, hlen]
      by_cases hk : k = c ∧ o ≤ a ∧ a < o + q.len
      · rw [if_pos hk, if_pos ⟨hk.1.symm, hk.2⟩, hget _ (by omega)]; rfl
      · rw [if_neg hk, if_neg (fun e => hk ⟨e.1.symm, e.2⟩), h]
    · rw [h4]; exact (List.filter_eq_self.mpr fun _ _ => rfl).symm
  | dev pa =>
    have key : ∀ u : State, u.msys.home = s.msys.home → u.msys.mem = s.msys.mem → u.msys.keys = s.msys.keys → u.cores = s.cores → u.fibres = s.fibres → 
       t = writeDev who core ctx pa (bytesOf q.len (v / 256 ^ q.off)) u →
       (∀ a acc d, homeByte s.msys a = acc.getD d → homeByte t.msys a = (devStep v a acc q).getD d) ∧
    (∀ c a acc d, scrByte s c a = acc.getD d → scrByte t c a = (scrStep v c a acc q).getD d) ∧ t.msys.partials = u.msys.partials ∧ Wrote who s t := by
      intro u e1 e2 e3 e4 e5 ht
      obtain ⟨h1, h2, h3, h4, h5⟩ := writeDev_spec who core ctx pa (bytesOf q.len (v / 256 ^ q.off)) u
      rw [← ht] at h1 h2 h3 h4 h5
      have eh : ∀ a, homeByte u.msys a = homeByte s.msys a := by
        intro a; unfold homeByte stackByte stackDefault; rw [e1, e2, e3]
      refine ⟨fun a acc d h => ?_, fun k a acc d h => ?_, h4, ?_⟩
      · simp only [devStep, hq]
        rw [h1, hlen]
        by_cases hk : pa ≤ a ∧ a < pa + q.len
        · rw [if_pos hk, if_pos hk, hget _ (by omega)]; rfl
        · rw [if_neg hk, if_neg hk, eh, h]
      · simp only [scrStep, hq]
        rw [← h]
        unfold scrByte coreOf
        rw [h2, e4]
      · have e : ∀ id, fibre? u id = fibre? s id := fun id => by unfold fibre?; rw [e5]
        exact ⟨fun f a b => h5.own f a (by rw [e]; exact b), fun id f a => h5.met id f (by rw [e]; exact a),
          fun id a => h5.gone id (by rw [e]; exact a)⟩
    cases hk : q.kind with
    | comm m o =>
      obtain ⟨k1, k2, k3, k4⟩ := key { s with msys := dropPartials s.msys pa } rfl rfl rfl rfl rfl (by simp only [t, writePart, hq, hk])
      exact ⟨k1, k2, k3, k4⟩
    | hostNon =>
      obtain ⟨a, b, c, e⟩ := logHnc_form who ((List.range (bytesOf q.len (v / 256 ^ q.off)).length).map (pa + ·)) s
      obtain ⟨k1, k2, k3, k4⟩ := key (logHnc who ((List.range (bytesOf q.len (v / 256 ^ q.off)).length).map (pa + ·)) s) (by rw [e]) (by rw [e]) (by rw [e])
        (by rw [e]) (by rw [e]) (by simp only [t, writePart, hq, hk])
      rw [e] at k3
      exact ⟨k1, k2, k3.trans (List.filter_eq_self.mpr fun _ _ => rfl).symm, k4⟩
    | _ =>
      obtain ⟨k1, k2, k3, k4⟩ := key s rfl rfl rfl rfl rfl (by simp only [t, writePart, hq, hk])
      exact ⟨k1, k2, k3.trans (List.filter_eq_self.mpr fun _ _ => rfl).symm, k4⟩

/-- What writing the parts of one element changes. -/
theorem parts_spec (who core ctx) (qs : List Part) (v : Nat) (s : State) :
    let t := qs.foldl (fun s p => writePart who core ctx p (bytesOf p.len (v / 256 ^ p.off)) s) s
    (∀ a acc d, homeByte s.msys a = acc.getD d → homeByte t.msys a = (qs.foldl (devStep v a) acc).getD d) ∧
    (∀ c a acc d, scrByte s c a = acc.getD d → scrByte t c a = (qs.foldl (scrStep v c a) acc).getD d) ∧
    t.msys.partials = s.msys.partials.filter (fun p => qs.all fun q => match q.loc, q.kind with
    | .dev pa, .comm _ _ => p.pa != pa
    | _, _ => true) ∧ Wrote who s t := by
  induction qs generalizing s with
  | nil => exact ⟨fun _ _ _ h => h, fun _ _ _ _ h => h, (List.filter_eq_self.mpr fun _ _ => rfl).symm, Wrote.refl _ _⟩
  | cons q r ih =>
    obtain ⟨a1, a2, a3, a4⟩ := writePart_spec who core ctx q v s
    obtain ⟨b1, b2, b3, b4⟩ := ih (writePart who core ctx q (bytesOf q.len (v / 256 ^ q.off)) s)
    refine ⟨fun a acc d h => b1 a _ d (a1 a acc d h), fun c a acc d h => b2 c a _ d (a2 c a acc d h), ?_, a4.trans b4⟩
    simp only [List.foldl_cons]
    rw [b3, a3, List.filter_filter]
    congr 1
    funext p
    simp only [List.all_cons]
    rw [Bool.and_comm]

/-- Stores apart from Coded pages are writes in order. -/
theorem storeAccs_plain (who core ctx all) (xs : List (LaneAcc × Nat)) (seen : List Nat) (s : State) (h : ∀ x ∈ xs, codedAcc x.1 = none) :
    storeAccs who core ctx all xs seen s =
      xs.foldl (fun s x => x.1.parts.foldl (fun s p => writePart who core ctx p (bytesOf p.len (x.2 / 256 ^ p.off)) s) s) s := by
  induction xs generalizing s with
  | nil => rfl
  | cons x r ih =>
    obtain ⟨a, v⟩ := x
    rw [storeAccs]
    rw [h (a, v) (by simp)]
    exact ih _ (fun y hy => h y (by simp [hy]))

/-- What writing the parts of elements changes. -/
theorem accs_spec (who : Option FibreId) (core : Option Nat) (ctx : Option (Nat × Nat)) (xs : List (LaneAcc × Nat)) (s : State) :
    let t := xs.foldl (fun s x => x.1.parts.foldl (fun s p => writePart who core ctx p (bytesOf p.len (x.2 / 256 ^ p.off)) s) s) s
    (∀ a (acc : Option Byte) d, homeByte s.msys a = acc.getD d → homeByte t.msys a = (xs.foldl (fun acc (x : LaneAcc × Nat) => x.1.parts.foldl (devStep x.2 a) acc) acc).getD d) ∧
    (∀ c a (acc : Option Byte) d, scrByte s c a = acc.getD d → scrByte t c a = (xs.foldl (fun acc (x : LaneAcc × Nat) => x.1.parts.foldl (scrStep x.2 c a) acc) acc).getD d) ∧
    t.msys.partials = partialsAfter (xs.map (·.1)) s.msys.partials ∧ Wrote who s t := by
  induction xs generalizing s with
  | nil => exact ⟨fun _ _ _ h => h, fun _ _ _ _ h => h, (List.filter_eq_self.mpr fun _ _ => rfl).symm, Wrote.refl _ _⟩
  | cons x r ih =>
    obtain ⟨a1, a2, a3, a4⟩ := parts_spec who core ctx x.1.parts x.2 s
    obtain ⟨b1, b2, b3, b4⟩ := ih (x.1.parts.foldl (fun s p => writePart who core ctx p (bytesOf p.len (x.2 / 256 ^ p.off)) s) s)
    refine ⟨fun a acc d h => b1 a _ d (a1 a acc d h), fun c a acc d h => b2 c a _ d (a2 c a acc d h), ?_, a4.trans b4⟩
    simp only [List.foldl_cons]
    rw [b3, a3]
    unfold partialsAfter
    rw [List.filter_filter]
    congr 1
    funext p
    simp only [List.map_cons, List.all_cons]
    exact Bool.and_comm _ _

/-- Writing events leave the registers of other fibres. -/
theorem wrote_others {s t : State} {f : Fibre} (w : Wrote (some f.id) s t) : SameOthers s t f := by
  intro id hid
  cases h : fibre? s id with
  | none =>
    have h2 := w.gone id h
    simp [vregAt, sregAt, pregAt, pcAt, h, h2]
  | some g =>
    obtain ⟨k, hk, m⟩ := w.met id g h
    obtain ⟨z, hz⟩ := m.regs
    simp [vregAt, sregAt, pregAt, pcAt, h, hk, Fibre.vreg, Fibre.sreg, Fibre.preg, hz]

/-- A store is the issue of a plan with its form. -/
theorem storeExec {i L} (h : storeForm i = some L) (s : State) : ∃ plan : State → Fibre → Plan, exec i s = issueWord i L.h plan s ∧
   lenOf i = L.len ∧ (∀ f, (plan s f).context = false ∧ (plan s f).operand = L.refused s f ∧ (plan s f).always = [] ∧ (plan s f).uniform = L.uniform ∧
     (plan s f).dests = [] ∧ (plan s f).hint = L.hint ∧
     ∀ m accs fills, combine (L.checks s f m) = .ok accs fills → ∃ size, (plan s f).own m = storeEff s f size (L.data s f m) accs fills) := by
  unfold storeForm at h
  split at h
  all_goals cases h <;> (
    refine ⟨_, rfl, rfl, fun f => ⟨rfl, rfl, rfl, rfl, rfl, rfl, ?_⟩⟩
    intro m accs fills hc
    exact ⟨_, congrArg (fun c => afterChecks _ f s c _) hc⟩)

/-- A store of memory is performed. -/
theorem perfStore {s : State} {f : Fibre} (hint : Hint) (fills) (accs : List LaneAcc) (size data) (s0 : State)
    (hcl : claimed s f.id accs = false) (hreg : ∀ a ∈ accs, regOf a = none) (hmp : mergePoison s accs = none) :
    performFor f.id f (.store accs size data) s0 (prepared f hint accs fills s) =
      ⟨storeAccs (some f.id) (some f.id.core) (some (partOfCore s f.id.core, asidOf s f)) (List.zip accs data) (List.zip accs data) []
        (prepared f hint accs fills s), [], true⟩ := by
  have P := Prep.all f hint accs fills s
  have hz : ∀ x ∈ List.zip accs data, regOf x.1 = none := fun x hx => hreg x.1 (List.of_mem_zip (a := x.1) (b := x.2) hx).1
  have hf : (List.zip accs data).filter (fun x => (regOf x.1).isNone) = List.zip accs data := by
    rw [List.filter_eq_self]
    intro x hx; rw [hz x hx]; rfl
  have gen : ∀ (p : Nat) (l : List (LaneAcc × Nat)), (∀ x ∈ l, regOf x.1 = none) → ∀ s, storeRegs f.id p l s = s := by
    intro p l hl
    induction l with
    | nil => intro s; rfl
    | cons x r ih =>
      intro s
      unfold storeRegs at ih ⊢
      rw [List.foldl_cons, hl x (by simp)]
      exact ih (fun y hy => hl y (by simp [hy])) s
  have hmp' : mergePoison (prepared f hint accs fills s) accs = none := by unfold mergePoison at hmp ⊢; rw [P.poison, hmp]
  have hcl' := (P.held f.id accs).1.trans hcl
  unfold performFor
  simp only [(P.context f.id.core f).1, (P.context f.id.core f).2.1]
  simp [hcl', hmp', hf, gen _ _ hz, Perf.done]

/-- An update is the issue of a plan with its form. -/
theorem updExec {i L} (h : updForm i = some L) (s : State) : ∃ plan : State → Fibre → Plan, exec i s = issueWord i L.h plan s ∧
   lenOf i = L.len ∧ (∀ f, (plan s f).context = false ∧ (plan s f).operand = L.refused s f ∧ (plan s f).always = [] ∧ (plan s f).uniform = L.uniform ∧
     (plan s f).dests = L.dests ∧ (plan s f).hint = L.hint ∧ ∀ m accs fills, combine (L.checks s f m) = .ok accs fills → ∃ en,
       (∀ d, L.dest = some d → (plan s f).own m = irrevocable s f (touchesUncached accs) (.op (.atom accs L.op.bytes L.op (L.vals s f m) d) L.dests (!touchesUncached accs) en fills)) ∧
       (L.dest = none → L.dests = [] ∧ (plan s f).own m = irrevocable s f (touchesUncached accs) (.op (.red accs L.op.bytes L.op (L.vals s f m) f.regs.lclock) L.dests (!touchesUncached accs) en fills))) := by
  unfold updForm at h
  split at h
  all_goals cases h
  all_goals
    refine ⟨_, rfl, rfl, fun f => ⟨rfl, rfl, rfl, rfl, rfl, rfl, ?_⟩⟩
    intro m accs fills hc
  all_goals first
    | (refine ⟨true, fun d hd => ?_, fun hd => by unfold atomForm at hd; cases hd⟩
       obtain rfl := Option.some.inj hd
       simp only [atomForm] at hc ⊢
       simp only [atomPlan, Plan.uni]
       rw [hc]; rfl)
    | (refine ⟨false, fun d hd => (by unfold redForm at hd; cases hd), fun hd => ⟨rfl, ?_⟩⟩
       simp only [redForm] at hc ⊢
       simp only [redPlan, Plan.uni]
       rw [hc]; rfl)

/-- A compare and swap is the issue of a plan with its form. -/
theorem casExec {i L} (h : casForm i = some L) (s : State) : ∃ plan : State → Fibre → Plan, exec i s = issueWord i L.h plan s ∧
   lenOf i = L.len ∧ (∀ f, (plan s f).context = false ∧ (plan s f).operand = L.refused s f ∧ (plan s f).always = [] ∧ (plan s f).uniform = L.uniform ∧
     (plan s f).dests = L.dests ∧ (plan s f).hint = L.hint ∧ ∀ m accs fills, combine (L.checks s f m) = .ok accs fills → 
       (plan s f).own m = irrevocable s f (touchesUncached accs) (.op (.cas accs (CasOp.shape L.op).1 (CasOp.shape L.op).2 (L.vals s f m) (L.cmps s f m) L.dest) L.dests (!touchesUncached accs) true fills)) := by
  unfold casForm at h
  split at h
  all_goals cases h
  all_goals
    (refine ⟨_, rfl, rfl, fun f => ⟨rfl, rfl, rfl, rfl, rfl, rfl, ?_⟩⟩
     intro m accs fills hc
     simp only [casFormOf] at hc ⊢
     simp only [casPlan, Plan.uni]
     rw [hc]; rfl)

/-- Bytes of a number written at their home. -/
theorem wr_bytes (who core ctx) (pa n : Nat) (x : Nat) (s : State) : ∀ b, homeByte (writeDev who core ctx pa (bytesOf n x) s).msys b = 
   if pa ≤ b ∧ b < pa + n then BitVec.ofNat 8 (x / 256 ^ (b - pa)) else homeByte s.msys b := by
  intro b
  rw [(writeDev_spec who core ctx pa (bytesOf n x) s).1, show (bytesOf n x).length = n from leBytes_length _ _]
  by_cases h : pa ≤ b ∧ b < pa + n
  · rw [if_pos h, if_pos h]; exact leBytes_getD _ _ _ (by omega)
  · rw [if_neg h, if_neg h]

/-- Stores to a block already merged do nothing more. -/
theorem storeAccs_seen (who core ctx all) (xs : List (LaneAcc × Nat)) (seen : List Nat) (s : State) (pa : Nat) (P : CodedPar) (pos : LaneAcc → Nat)
   (h : ∀ x ∈ xs, codedAcc x.1 = some (pa, P, pos x.1)) (hs : seen.contains pa = true) :
    storeAccs who core ctx all xs seen s = s := by
  induction xs with
  | nil => rfl
  | cons x r ih =>
    obtain ⟨a, v⟩ := x
    rw [storeAccs]
    rw [h (a, v) (by simp)]
    simp only [hs, if_true]
    exact ih (fun y hy => h y (by simp [hy]))

/-- Stores to one Coded block are one merge. -/
theorem storeAccs_block (who core ctx) (xs : List (LaneAcc × Nat)) (s : State) (pa : Nat) (P : CodedPar) (pos : LaneAcc → Nat)
   (h : ∀ x ∈ xs, codedAcc x.1 = some (pa, P, pos x.1)) (hne : xs ≠ []) :
    storeAccs who core ctx xs xs [] s = mergeBlock who core ctx P pa (xs.map fun x => (pos x.1, x.2)) s := by
  have hm : (xs.filterMap fun (b : LaneAcc × Nat) =>
          match codedAcc b.1 with
          | some (qa, _, j) => if qa = pa then some (j, b.2) else none
          | none => none) = xs.map fun x => (pos x.1, x.2) := by
    clear hne
    revert h
    induction xs with
    | nil => intro _; rfl
    | cons x r ih =>
      intro h
      rw [List.filterMap_cons, h x (by simp)]
      simp only [if_true, List.map_cons]
      rw [ih (fun y hy => h y (by simp [hy]))]
  cases xs with
  | nil => exact absurd rfl hne
  | cons x r =>
    obtain ⟨a, v⟩ := x
    rw [storeAccs, h (a, v) (by simp)]
    simp only [List.contains_nil]
    refine (storeAccs_seen who core ctx _ r _ _ pa P pos (fun y hy => h y (by simp [hy])) (by simp)).trans ?_
    exact congrArg (fun z => mergeBlock who core ctx P pa z s) hm

/-- The fibre after an operation of its own without a result. -/
theorem after_self {s t : State} {f g : Fibre} {pc : Word} (q : Quiet s f) (h : fibre? t f.id = some g) (m : OwnMet f g) :
    ∃ k, fibre? (afterOp f pc [] [] [] none t) f.id = some k ∧ OwnMet (f.retire pc) k := by
  have hu : g.unfin = [] := by rw [m.rest]; exact q.unfin
  refine ⟨g.retire pc, ?_, ?_⟩
  · unfold afterOp
    rw [fibre?_updFibre_self _ _ _ (by intro g; simp), h]
    simp only [Option.map_some]
    rw [reserve_idle _ _ hu]
    simp [Fibre.owe, Fibre.retire]
  · have e := m.rest
    have hs : g.status = f.status ∧ g.readySince = f.readySince := by
      rcases m.status with a | ⟨⟨pa, a⟩, _⟩
      · exact a
      · have := q.status; rw [a] at this; cases this
    rw [hs.1, hs.2] at e
    refine ⟨by rw [e]; rfl, ?_, m.frozen⟩
    exact .inl ⟨by simp [Fibre.retire, hs.1], by simp [Fibre.retire, hs.2]⟩

/-- What storing the rows of a tile changes. -/
theorem storeRows (who core ctx) (t : Tile) (accs : List LaneAcc) (s : State) :
   let r := accs.foldl (fun s a => a.parts.foldl (fun s q =>
        writePart who core ctx q (((tileRow t a.lane).drop q.off).take q.len) s) s) s
   Wrote who s r ∧ ∀ a, (∀ k ∈ accs, ∀ q ∈ k.parts, ∀ pa, q.loc = .dev pa → ¬ (pa ≤ a ∧ a < pa + q.len)) →
        homeByte r.msys a = homeByte s.msys a := by
  have part : ∀ (q : Part) (bs : List Byte) (s : State), bs.length ≤ q.len → Wrote who s (writePart who core ctx q bs s) ∧
     ∀ a, (∀ pa, q.loc = .dev pa → ¬ (pa ≤ a ∧ a < pa + q.len)) → homeByte (writePart who core ctx q bs s).msys a = homeByte s.msys a := by
    intro q bs s hbs
    unfold writePart
    cases hl : q.loc with
    | scr c o =>
      have := writeScr_spec who c o bs s
      exact ⟨this.2.2.2.2, fun a _ => this.2.1 a⟩
    | dev pa =>
      dsimp only
      have go : ∀ u : State, u.fibres = s.fibres → (∀ a, homeByte u.msys a = homeByte s.msys a) → Wrote who s (writeDev who core ctx pa bs u) ∧
         ∀ a, (∀ p, Loc.dev pa = .dev p → ¬ (p ≤ a ∧ a < p + q.len)) → homeByte (writeDev who core ctx pa bs u).msys a = homeByte s.msys a := by
        intro u e1 e2
        have := writeDev_spec who core ctx pa bs u
        have w := this.2.2.2.2
        have e : ∀ id, fibre? u id = fibre? s id := fun id => by unfold fibre?; rw [e1]
        refine ⟨⟨fun f a b => w.own f a (by rw [e]; exact b), fun id f a => w.met id f (by rw [e]; exact a), fun id a => w.gone id (by rw [e]; exact a)⟩, fun a h => ?_⟩
        have := h pa rfl
        rw [(writeDev_spec who core ctx pa bs u).1, if_neg (by omega), e2]
      cases hk : q.kind with
      | comm m o => exact go { s with msys := dropPartials s.msys pa } rfl (fun _ => rfl)
      | hostNon =>
        obtain ⟨x, y, z, e⟩ := logHnc_form who ((List.range bs.length).map (pa + ·)) s
        simp only [e]
        exact go _ rfl (fun _ => rfl)
      | _ => exact go s rfl (fun _ => rfl)
  have parts : ∀ (l : Nat) (qs : List Part) (s : State), Wrote who s (qs.foldl (fun s q => writePart who core ctx q (((tileRow t l).drop q.off).take q.len) s) s) ∧
     ∀ a, (∀ q ∈ qs, ∀ pa, q.loc = .dev pa → ¬ (pa ≤ a ∧ a < pa + q.len)) → homeByte (qs.foldl (fun s q => writePart who core ctx q (((tileRow t l).drop q.off).take q.len) s) s).msys a = homeByte s.msys a := by
    intro l qs
    induction qs with
    | nil => intro s; exact ⟨Wrote.refl _ _, fun _ _ => rfl⟩
    | cons q r ih =>
      intro s
      obtain ⟨a1, a2⟩ := part q (((tileRow t l).drop q.off).take q.len) s (by rw [List.length_take]; omega)
      obtain ⟨b1, b2⟩ := ih (writePart who core ctx q (((tileRow t l).drop q.off).take q.len) s)
      exact ⟨a1.trans b1, fun a h => (b2 a (fun x hx => h x (by simp [hx]))).trans (a2 a (h q (by simp)))⟩
  induction accs generalizing s with
  | nil => exact ⟨Wrote.refl _ _, fun _ _ => rfl⟩
  | cons k r ih =>
    obtain ⟨a1, a2⟩ := parts k.lane k.parts s
    obtain ⟨b1, b2⟩ := ih (k.parts.foldl (fun s q => writePart who core ctx q (((tileRow t k.lane).drop q.off).take q.len) s) s)
    exact ⟨a1.trans b1, fun a h => (b2 a (fun x hx => h x (by simp [hx]))).trans (a2 a (h k (by simp)))⟩

end Sys2Proof.Machine
end

