-- ==== Sys2Proof/Laws/Device.lean ====
section
/-! SUPPORT. A partition's registers and a line's metadata after they were changed. -/

namespace Sys2Proof.Machine

/-- A partition after one partition was changed. -/
theorem partn_updPart (s : State) (p q : Nat) (g : Partn → Partn) :
    partn (updPart s p g) q = if q = p ∧ q < 8 then g (partn s p) else partn s q := by
  unfold partn updPart Vector.getD
  by_cases hq : q < 8
  · by_cases h : q = p
    · subst h; simp [hq]
    · simp [hq, h]
  · simp [hq]

/-- A line's record after a record was replaced. -/
theorem granOf_setGran (ms : MemSys) (pa x : Nat) (g : Granule) :
    granOf (setGran ms pa g) x = if x / 4096 = pa / 4096 then g else granOf ms x := by
  unfold granOf setGran Tab.getD
  by_cases h : g = Granule.init
  · rw [if_pos h]
    simp only [Tab.get_del]
    by_cases hx : x / 4096 = pa / 4096
    · simp [hx, h]
    · simp [hx]
  · rw [if_neg h]
    simp only [Tab.get_set]
    by_cases hx : x / 4096 = pa / 4096 <;> simp [hx]

/-- A ring's registers after they were replaced. -/
theorem ringOf_setRing (s : State) (p r : Nat) (R : Ring) (hp : p < 8) : ringOf (partn (setRing s p r R) p) r = R := by
  unfold setRing
  rw [partn_updPart, if_pos ⟨rfl, hp⟩]
  unfold ringOf Tab.getD
  split
  · simp [Tab.get_del, *]
  · simp [Tab.get_set]

/-- Adding an element that a list may have. -/
theorem mem_addNew {α : Type} [BEq α] [LawfulBEq α] (l : List α) (x y : α) : y ∈ addNew l x ↔ y ∈ l ∨ y = x := by
  unfold addNew
  split
  · rename_i hc
    constructor
    · exact Or.inl
    · rintro (h | rfl)
      · exact h
      · simpa using hc
  · simp

/-- A byte written into a stack reads back; every other byte is what it was. -/
theorem stackByte_putStack (ms : MemSys) (pa : Nat) (b : Byte) (a : Nat) :
    stackByte (putStack ms pa b) a = if a = pa then b else stackByte ms a := by
  unfold stackByte putStack
  dsimp only
  have e : ∀ m : List Host.Cell, stackDefault { ms with mem := m } a = stackDefault ms a := fun _ => rfl
  rw [e]
  by_cases h : a = pa
  · subst h
    rw [Cells.get_write]
  · rw [if_neg h]
    congr 1
    unfold Cells.write
    split
    · rw [Cells.get_del, if_neg h]
    · rw [Cells.get_put, if_neg h]

/-- A line's record is no byte of a stack. -/
theorem stackByte_setGran (ms : MemSys) (pa : Nat) (g : Granule) (a : Nat) : stackByte (setGran ms pa g) a = stackByte ms a := by
  unfold setGran; split <;> rfl

/-- The lines of a range. -/
theorem lines_mem (pa n l : Nat) : l ∈ linesOf pa n ↔ n ≠ 0 ∧ pa / 64 ≤ l ∧ l ≤ (pa + n - 1) / 64 := by
  unfold linesOf
  split
  · simp [*]
  · rename_i h
    simp only [List.mem_map, List.mem_range]
    constructor
    · rintro ⟨i, hi, rfl⟩; omega
    · rintro ⟨-, h1, h2⟩; exact ⟨l - pa / 64, by omega, by omega⟩

end Sys2Proof.Machine
end

