-- ==== Sys2Proof/Laws/Canonical.lean ====
section
/-! SUPPORT. The canonical form of memory: every operation that writes a stack, a home or a key keeps it, and the state after
reset has it. -/

namespace Sys2Proof.Machine

/-- The canonical form, as its three parts. -/
theorem Memory.wf_iff (ms : MemSys) : Memory.wf ms = true ↔
    Cells.rising ms.mem = true ∧ (ms.mem.all fun c => c.2 != stackDefault ms c.1) = true ∧ Cells.rising ms.home = true := by
  simp [Memory.wf, and_assoc]

/-- The canonical form rests on the stacks, the homes and the keys alone. -/
theorem Memory.wf_of_eq {m n : MemSys} (h : Memory.wf m = true) (h1 : n.mem = m.mem) (h2 : n.home = m.home)
    (h3 : n.keys = m.keys) : Memory.wf n = true := by
  rw [Memory.wf_iff] at h ⊢
  unfold stackDefault at h ⊢
  rw [h1, h2, h3]
  exact h

/-- Homes may be replaced by any in rising order. -/
theorem Memory.wf_home {m n : MemSys} (h : Memory.wf m = true) (h1 : n.mem = m.mem) (h2 : Cells.rising n.home = true)
    (h3 : n.keys = m.keys) : Memory.wf n = true := by
  rw [Memory.wf_iff] at h ⊢
  unfold stackDefault at h ⊢
  rw [h1, h3]
  exact ⟨h.1, h.2.1, h2⟩

theorem Memory.wf_rising {m : MemSys} (h : Memory.wf m = true) : Cells.rising m.home = true := ((Memory.wf_iff m).mp h).2.2

/-- What a step of a fold keeps, the fold keeps. -/
theorem foldl_preserves {α β : Type} (P : β → Prop) (g : β → α → β) (hg : ∀ b a, P b → P (g b a)) (l : List α) (b : β) (h : P b) :
    P (l.foldl g b) := by
  induction l generalizing b with
  | nil => exact h
  | cons a r ih => exact ih _ (hg b a h)

theorem wf_init : Memory.wf MemSys.init = true := by decide
theorem wf_reset : State.Inv State.reset := by unfold State.Inv; decide

section
variable {ms : MemSys} {s : State}

theorem wf_putStack (h : Memory.wf ms = true) (pa : Nat) (b : Byte) : Memory.wf (putStack ms pa b) = true := by
  rw [Memory.wf_iff] at h ⊢
  have := Cells.write_wf (stackDefault ms) pa b h.1 h.2.1
  exact ⟨this.1, this.2, h.2.2⟩

theorem wf_putHome (h : Memory.wf ms = true) (pa : Nat) (b : Byte) : Memory.wf (putHome ms pa b) = true :=
  Memory.wf_home h rfl (Cells.rising_put _ _ (Memory.wf_rising h)) rfl

theorem wf_putHomes (ctx : Option (Nat × Nat)) (bs : List Byte) (h : Memory.wf ms = true) (pa : Nat) :
    Memory.wf (putHomes ctx ms pa bs) = true := by
  induction bs generalizing ms pa with
  | nil => exact h
  | cons b r ih =>
    unfold putHomes
    apply ih
    exact Memory.wf_of_eq (wf_putHome h pa b) rfl rfl rfl

theorem wf_setGran (h : Memory.wf ms = true) (pa : Nat) (g : Granule) : Memory.wf (setGran ms pa g) = true := by
  unfold setGran
  split <;> exact Memory.wf_of_eq h rfl rfl rfl

theorem wf_setLineSt (h : Memory.wf ms = true) (pa : Nat) (v : BitVec 2) : Memory.wf (setLineSt ms pa v) = true :=
  wf_setGran h _ _

theorem wf_noteMeta (h : Memory.wf s.msys = true) (pa : Nat) : Memory.wf (noteMeta pa s).msys = true := by
  unfold noteMeta
  split
  · exact h
  · exact Memory.wf_of_eq h rfl rfl rfl

theorem wf_noteStack (h : Memory.wf s.msys = true) (line : Nat) : Memory.wf (noteStack line s).msys = true := by
  unfold noteStack
  split
  · exact h
  · exact wf_noteMeta h _

theorem wf_putWholeLine (h : Memory.wf s.msys = true) (pa : Nat) (bs : List Byte) :
    Memory.wf (putWholeLine s pa bs).msys = true := by
  unfold putWholeLine
  dsimp only
  have a : Memory.wf ((List.range 64).foldl (fun ms i => putStack ms (pa + i) (bs.getD i 0)) s.msys) = true :=
    foldl_preserves (fun m => Memory.wf m = true) _ (fun _ _ hm => wf_putStack hm _ _) _ _ h
  generalize (List.range 64).foldl (fun ms i => putStack ms (pa + i) (bs.getD i 0)) s.msys = m at a
  generalize (if lineSt s.msys pa = 3 then 0 else lineState (boundTable s pa) bs) = st
  have b := wf_setLineSt a pa st
  generalize setLineSt m pa st = k at b
  exact wf_noteMeta (s := { s with msys := k }) b pa

theorem wf_putSomeBytes (h : Memory.wf s.msys = true) (cells : List Host.Cell) :
    Memory.wf (putSomeBytes s cells).msys = true := by
  unfold putSomeBytes
  refine foldl_preserves (fun s : State => Memory.wf s.msys = true) _ (fun t c hm => ?_) _ _ h
  have a := wf_setLineSt (wf_putStack hm c.1 c.2) c.1 0
  generalize setLineSt (putStack t.msys c.1 c.2) c.1 0 = m at a
  exact wf_noteMeta (s := { t with msys := m }) a c.1

theorem wf_holdLine (h : Memory.wf ms = true) (line : Nat) : Memory.wf (holdLine ms line) = true := by
  unfold holdLine
  split
  · exact h
  refine foldl_preserves (fun m => Memory.wf m = true) _ (fun m i hm => ?_) _ _ h
  dsimp only
  split
  · exact hm
  · exact Memory.wf_home hm rfl (Cells.rising_put _ _ (Memory.wf_rising hm)) rfl

theorem wf_setCore (h : Memory.wf s.msys = true) (c : Nat) (r : CoreRec) : Memory.wf (setCore s c r).msys = true := by
  unfold setCore
  split <;> exact h

theorem wf_putScr (h : Memory.wf s.msys = true) (c off : Nat) (bs : List Byte) : Memory.wf (putScr s c off bs).msys = true :=
  wf_setCore h _ _

theorem wf_noteWrite (h : Memory.wf s.msys = true) (who : Option FibreId) (core : Option Nat) (k : Option Nat × Nat) :
    Memory.wf (noteWrite who core k s).msys = true := Memory.wf_of_eq h rfl rfl rfl

theorem wf_loseCopies (h : Memory.wf s.msys = true) (line : Nat) (core : Option Nat) :
    Memory.wf (loseCopies line core s).msys = true := Memory.wf_of_eq h rfl rfl rfl

theorem wf_clearWhole (h : Memory.wf ms = true) (pa n : Nat) : Memory.wf (clearWhole ms pa n) = true := by
  unfold clearWhole
  split
  · exact h
  · exact Memory.wf_of_eq h rfl rfl rfl

theorem wf_cleanLines (h : Memory.wf ms = true) (ls : List Nat) : Memory.wf (cleanLines ms ls) = true := by
  refine foldl_preserves (fun m : MemSys => Memory.wf m = true) _ (fun m l hm => ?_) _ _ h
  split
  · exact Memory.wf_of_eq hm rfl rfl rfl
  · exact hm

theorem wf_keepBlock (h : Memory.wf ms = true) (P : CodedPar) (pa : Nat) : Memory.wf (keepBlock ms P pa) = true :=
  Memory.wf_of_eq h rfl rfl rfl

theorem wf_logHnc (h : Memory.wf s.msys = true) (who : Option FibreId) (pas : List Nat) : Memory.wf (logHnc who pas s).msys = true := by
  unfold logHnc
  cases who <;> exact Memory.wf_of_eq h rfl rfl rfl

theorem wf_writeDev (h : Memory.wf s.msys = true) (who : Option FibreId) (core : Option Nat) (ctx : Option (Nat × Nat)) (pa : Nat)
    (bs : List Byte) : Memory.wf (writeDev who core ctx pa bs s).msys = true :=
  foldl_preserves (fun s : State => Memory.wf s.msys = true) _ (fun _ _ hm => wf_noteWrite hm _ _ _) _ _
    (wf_clearWhole (wf_putHomes ctx bs h pa) _ _)

theorem wf_writeScr (h : Memory.wf s.msys = true) (who : Option FibreId) (c off : Nat) (bs : List Byte) :
    Memory.wf (writeScr who c off bs s).msys = true :=
  foldl_preserves (fun s : State => Memory.wf s.msys = true) _ (fun _ _ hm => wf_noteWrite hm _ _ _) _ _ (wf_putScr h c off bs)

theorem wf_commRed (h : Memory.wf ms = true) (f : Fmt) (op : BitVec 3) (pa dev core part asid : Nat) (v : BitVec 64) :
    Memory.wf (commRed ms f op pa dev core part asid v) = true := by
  unfold commRed
  dsimp only
  split <;> exact Memory.wf_of_eq h rfl rfl rfl

theorem wf_dropPartials (h : Memory.wf ms = true) (pa : Nat) : Memory.wf (dropPartials ms pa) = true :=
  Memory.wf_of_eq h rfl rfl rfl

theorem wf_holdForeign (h : Memory.wf s.msys = true) (core pa n : Nat) : Memory.wf (holdForeign core pa n s).msys = true :=
  Memory.wf_of_eq h rfl rfl rfl

theorem wf_enterL1 (h : Memory.wf s.msys = true) (core l pa : Nat) (k : PageKind) : Memory.wf (enterL1 core l pa k s).msys = true := by
  unfold enterL1
  split
  · exact h
  · exact Memory.wf_of_eq h rfl rfl rfl
  · exact Memory.wf_of_eq h rfl rfl rfl

theorem wf_noteRead (h : Memory.wf s.msys = true) (core : Nat) (hint : Hint) (p : Part) :
    Memory.wf (noteRead core hint p s).msys = true := by
  have fold : ∀ (ls : List Nat) (pa : Nat) (s : State), Memory.wf s.msys = true → Memory.wf (ls.foldl (fun s l =>
      let s := if hint = .nol1 then s else enterL1 core l pa p.kind s
      if p.kind = .hostNon then { s with msys := holdLine s.msys l } else s) s).msys = true := by
    intro ls pa s h
    refine foldl_preserves (fun s : State => Memory.wf s.msys = true) _ (fun t l hm => ?_) _ _ h
    have a : Memory.wf (if hint = .nol1 then t else enterL1 core l pa p.kind t).msys = true := by
      split
      · exact hm
      · exact wf_enterL1 hm core l pa p.kind
    dsimp only
    generalize (if hint = .nol1 then t else enterL1 core l pa p.kind t) = u at a
    by_cases hk : p.kind = .hostNon
    · simp only [if_pos hk]
      exact wf_holdLine a l
    · simp only [if_neg hk]
      exact a
  unfold noteRead
  split
  · exact h
  · split
    · split
      · exact wf_holdForeign h _ _ _
      · exact h
    · split
      · exact h
      · rename_i pa _ _ _
        have a : Memory.wf ((linesOf pa p.len).foldl (fun s l => noteStack l s) s).msys = true :=
          foldl_preserves (fun s : State => Memory.wf s.msys = true) _ (fun _ _ hm => wf_noteStack hm _) _ _ h
        generalize (linesOf pa p.len).foldl (fun s l => noteStack l s) s = t at a
        dsimp only
        split
        · exact a
        · apply fold
          split
          · exact wf_keepBlock a _ _
          · exact a

theorem wf_writePart (h : Memory.wf s.msys = true) (who : Option FibreId) (core : Option Nat) (ctx : Option (Nat × Nat))
    (p : Part) (bs : List Byte) : Memory.wf (writePart who core ctx p bs s).msys = true := by
  unfold writePart
  split
  · exact wf_writeScr h _ _ _ _
  · apply wf_writeDev
    split
    · exact Memory.wf_of_eq h rfl rfl rfl
    · exact wf_logHnc h _ _
    · exact h

theorem wf_mergeBlock (h : Memory.wf s.msys = true) (who : Option FibreId) (core : Option Nat) (ctx : Option (Nat × Nat))
    (P : CodedPar) (pa : Nat) (stores : List (Nat × Nat)) : Memory.wf (mergeBlock who core ctx P pa stores s).msys = true :=
  wf_cleanLines (wf_keepBlock (wf_writeDev h _ _ _ _ _) _ _) _

theorem wf_storeAccs (who : Option FibreId) (core : Option Nat) (ctx : Option (Nat × Nat)) (all l : List (LaneAcc × Nat))
    (seen : List Nat) (h : Memory.wf s.msys = true) : Memory.wf (storeAccs who core ctx all l seen s).msys = true := by
  induction l generalizing seen s with
  | nil => exact h
  | cons x r ih =>
    obtain ⟨a, v⟩ := x
    unfold storeAccs
    split
    · dsimp only
      split
      · exact ih _ h
      · exact ih _ (wf_mergeBlock h _ _ _ _ _ _)
    · exact ih _ (foldl_preserves (fun s : State => Memory.wf s.msys = true) _ (fun _ _ hm => wf_writePart hm _ _ _ _ _) _ _ h)

theorem wf_discardHomeLine (h : Memory.wf s.msys = true) (line : Nat) : Memory.wf (discardHomeLine line s).msys = true :=
  Memory.wf_home h rfl (Cells.rising_filter _ (Memory.wf_rising h)) rfl

theorem wf_purgeSlice (h : Memory.wf s.msys = true) (slice : Nat) : Memory.wf (purgeSlice slice s).msys = true :=
  Memory.wf_home h rfl (Cells.rising_filter _ (Memory.wf_rising h)) rfl

theorem wf_poisonLine (h : Memory.wf s.msys = true) (held : Bool) (line : Nat) :
    Memory.wf (poisonLine held line s).msys = true := by
  refine foldl_preserves (fun m => Memory.wf m = true) _ (fun m i hm => ?_) _ _ h
  dsimp only
  split
  · exact Memory.wf_of_eq hm rfl rfl rfl
  · exact hm

/-- A key of a stack that is not drawn again stays. -/
theorem get_keys (l : List Nat) (e k : Nat) (t : Table Nat) (hk : k ∉ l) :
    Tab.get (l.foldl (fun t k => if e = 0 then Tab.del t k else Tab.set t k e) t) k = Tab.get t k := by
  induction l generalizing t with
  | nil => rfl
  | cons a r ih =>
    rw [List.foldl_cons, ih _ (fun h => hk (List.mem_cons_of_mem _ h))]
    have hne : k ≠ a := fun h => hk (h ▸ List.mem_cons_self)
    split
    · rw [Tab.get_del, if_neg hne]
    · rw [Tab.get_set, if_neg hne]

theorem wf_rekey (h : Memory.wf s.msys = true) (mine : Nat → Bool) (epoch : Nat) : Memory.wf (rekey mine epoch s).msys = true := by
  rw [Memory.wf_iff] at h ⊢
  refine ⟨Cells.rising_filter _ h.1, ?_, Cells.rising_filter _ h.2.2⟩
  have h2 := h.2.1
  rw [List.all_eq_true] at h2 ⊢
  intro c hc
  obtain ⟨hm, hn⟩ := List.mem_filter.mp hc
  have e : stackDefault (rekey mine epoch s).msys c.1 = stackDefault s.msys c.1 := by
    unfold stackDefault Tab.getD
    have : Tab.get (rekey mine epoch s).msys.keys (paStack c.1) = Tab.get s.msys.keys (paStack c.1) := by
      refine get_keys _ _ _ _ (fun hx => ?_)
      have := (List.mem_filter.mp hx).2
      simp [this] at hn
    rw [this]
  rw [e]
  exact h2 c hm

theorem wf_setDevid (n : BitVec 8) : Memory.wf (setDevid n s).msys = true := by
  rw [Memory.wf_iff]
  have k : Cells.rising (setDevid n s).msys.mem = true ∧
      ((setDevid n s).msys.mem.all fun c => c.2 != stackDefault s.msys c.1) = true := by
    refine foldl_preserves (fun m : List Host.Cell => Cells.rising m = true ∧ (m.all fun c => c.2 != stackDefault s.msys c.1) = true)
      _ (fun m c hm => Cells.write_wf (stackDefault s.msys) _ _ hm.1 hm.2) _ _ ⟨rfl, rfl⟩
  exact ⟨k.1, k.2, foldl_preserves (fun m : List Host.Cell => Cells.rising m = true) _ (fun m c hm => Cells.rising_put _ _ hm) _ _ rfl⟩

theorem wf_holdHere (h : Memory.wf s.msys = true) (core : Nat) (hint : Hint) (p : Part) :
    Memory.wf { s.msys with home := (noteRead core hint p s).msys.home } = true :=
  Memory.wf_home h rfl (Memory.wf_rising (m := (noteRead core hint p s).msys) (wf_noteRead h core hint p)) rfl

end

end Sys2Proof.Machine
end

