-- ==== Sys2Proof/Laws/Encoding.lean ====
section
/-! SUPPORT. Reading back what the encoder writes, operand shape by operand shape (06 R132 to R161). -/

set_option linter.unusedSimpArgs false

namespace Sys2Proof

theorem AtomOp.ofCode_code (x : AtomOp) : AtomOp.ofCode x.code = x := by cases x <;> rfl
theorem AtomfOp.ofCode_code (x : AtomfOp) : AtomfOp.ofCode x.code = x := by cases x <;> rfl
theorem BarLevel.ofCode_code (x : BarLevel) : BarLevel.ofCode x.code = x := by cases x <;> rfl
theorem BlkCount.ofCode_code (x : BlkCount) : BlkCount.ofCode x.code = x := by cases x <;> rfl
theorem BprCond.ofCode_code (x : BprCond) : BprCond.ofCode x.code = x := by cases x <;> rfl
theorem CasOp.ofCode_code (x : CasOp) : CasOp.ofCode x.code = x := by cases x <;> rfl
theorem Cond.ofCode_code (x : Cond) : Cond.ofCode x.code = x := by cases x <;> rfl
theorem EmOp.ofCode_code (x : EmOp) : EmOp.ofCode x.code = x := by cases x <;> rfl
theorem FCond.ofCode_code (x : FCond) : FCond.ofCode x.code = x := by cases x <;> rfl
theorem FTy.ofCode_code (x : FTy) : FTy.ofCode x.code = x := by cases x <;> rfl
theorem Fmt.ofCode_code (x : Fmt) : Fmt.ofCode x.code = x := by cases x <;> rfl
theorem Hint.ofCode_code (x : Hint) : Hint.ofCode x.code = x := by cases x <;> rfl
theorem IntTy.ofCode_code (x : IntTy) : IntTy.ofCode x.code = x := by cases x <;> rfl
theorem PlopOp.ofCode_code (x : PlopOp) : PlopOp.ofCode x.code = x := by cases x <;> rfl
theorem Rnd.ofCode_code (x : Rnd) : Rnd.ofCode x.code = x := by cases x <;> rfl
theorem Scope.ofCode_code (x : Scope) : Scope.ofCode x.code = x := by cases x <;> rfl
theorem VoteOp.ofCode_code (x : VoteOp) : VoteOp.ofCode x.code = x := by cases x <;> rfl

theorem getLsbD_above {n m : Nat} (x : BitVec n) (y : BitVec m) (i : Nat) (h : m ≤ i) :
    (x ++ y).getLsbD i = x.getLsbD (i - m) := by
  rw [BitVec.getLsbD_append, if_neg (by omega)]
theorem getLsbD_below {n m : Nat} (x : BitVec n) (y : BitVec m) (i : Nat) (h : i < m) :
    (x ++ y).getLsbD i = y.getLsbD i := by
  rw [BitVec.getLsbD_append, if_pos h]
theorem getLsbD_bool (b : Bool) : (BitVec.ofBool b).getLsbD 0 = b := by cases b <;> rfl
theorem bit_code (b : Bool) : (bitCode b).getLsbD 0 = b := by cases b <;> rfl
theorem wide_code (b : Bool) : (wideCode b).getLsbD 0 = b := by cases b <;> rfl

/-- A field of a concatenation that stands in its upper part. -/
theorem field_above {v w : Nat} (x : BitVec v) (y : BitVec w) (s k : Nat) (h : w ≤ s) :
    (x ++ y).extractLsb' s k = x.extractLsb' (s - w) k := BitVec.extractLsb'_append_eq_of_le h
/-- A field of a concatenation that stands in its lower part. -/
theorem field_below {v w : Nat} (x : BitVec v) (y : BitVec w) (s k : Nat) (h : s + k ≤ w) :
    (x ++ y).extractLsb' s k = y.extractLsb' s k := BitVec.extractLsb'_append_eq_of_add_le h
theorem field_all {n : Nat} (x : BitVec n) : x.extractLsb' 0 n = x := BitVec.extractLsb'_eq_self

theorem Opnd.ofBits_bits (o : Opnd) : Opnd.ofBits o.bits = o := by
  obtain ⟨k, kind, cls, num⟩ := o
  have h1 : (k ++ kind ++ BitVec.ofBool cls ++ num).extractLsb' 11 5 = k :=
    (field_above _ _ _ _ (by decide)).trans ((field_above _ _ _ _ (by decide)).trans ((field_above _ _ _ _ (by decide)).trans (field_all k)))
  have h2 : (k ++ kind ++ BitVec.ofBool cls ++ num).extractLsb' 8 3 = kind :=
    (field_above _ _ _ _ (by decide)).trans ((field_above _ _ _ _ (by decide)).trans ((field_below _ _ _ _ (by decide)).trans (field_all kind)))
  have h3 : (k ++ kind ++ BitVec.ofBool cls ++ num).getLsbD 7 = cls :=
    (getLsbD_above _ _ _ (by decide)).trans ((getLsbD_below _ _ _ (by decide)).trans (getLsbD_bool cls))
  have h4 : (k ++ kind ++ BitVec.ofBool cls ++ num).extractLsb' 0 7 = num :=
    (field_below _ _ _ _ (by decide)).trans (field_all num)
  exact congr (congr (congr (congrArg Opnd.mk h1) h2) h3) h4

/-! ## One lemma for each operand shape -/

theorem readH_raw (op : BitVec 8) (x : OpH) : readH (rawH op x) = x := by
  simp (disch := decide) only [readH, rawH, field_above, field_below, field_all, getLsbD_above, getLsbD_below,
    getLsbD_bool, Nat.reduceSub]
theorem readH12_raw (op : BitVec 8) (x : OpH) : readH12 (rawH12 op x) = x := by
  simp (disch := decide) only [readH12, rawH12, field_above, field_below, field_all, getLsbD_above, getLsbD_below,
    getLsbD_bool, Nat.reduceSub]
theorem readBr12_raw (op : BitVec 8) (x : OpBr12) : readBr12 (rawBr12 op x) = x := by
  simp (disch := decide) only [readBr12, rawBr12, Raw.imm, Raw.hi12, field_above, field_below, field_all, getLsbD_above,
    getLsbD_below, getLsbD_bool, Nat.reduceSub]
theorem readBr16_raw (op : BitVec 8) (x : OpBr16) : readBr16 (rawBr16 op x) = x := by
  simp (disch := decide) only [readBr16, rawBr16, field_above, field_below, field_all, getLsbD_above, getLsbD_below,
    getLsbD_bool, Nat.reduceSub]
theorem readA_raw (op : BitVec 8) (x : OpA) : readA (rawA op x) = x := by
  simp (disch := decide) only [readA, rawA, Raw.a, Opnd.ofBits_bits, field_above, field_below, field_all, getLsbD_above,
    getLsbD_below, getLsbD_bool, Nat.reduceSub]
theorem readCall12_raw (op : BitVec 8) (x : OpCall12) : readCall12 (rawCall12 op x) = x := by
  simp (disch := decide) only [readCall12, rawCall12, Raw.imm, Raw.d5, Raw.hi12, dst5, field_above, field_below,
    field_all, getLsbD_above, getLsbD_below, getLsbD_bool, Nat.reduceSub]
theorem readCall16_raw (op : BitVec 8) (x : OpCall16) : readCall16 (rawCall16 op x) = x := by
  simp (disch := decide) only [readCall16, rawCall16, Raw.d5, dst5, field_above, field_below, field_all, getLsbD_above,
    getLsbD_below, getLsbD_bool, Nat.reduceSub]
theorem readDA_raw (op : BitVec 8) (x : OpDA) : readDA (rawDA op x) = x := by
  simp (disch := decide) only [readDA, rawDA, Raw.a, Raw.d5, dst5, Opnd.ofBits_bits, field_above, field_below,
    field_all, getLsbD_above, getLsbD_below, getLsbD_bool, Nat.reduceSub]
theorem readFsw_raw (op : BitVec 8) (x : OpFsw) : readFsw (rawFsw op x) = x := by
  simp (disch := decide) only [readFsw, rawFsw, field_above, field_below, field_all, getLsbD_above, getLsbD_below,
    getLsbD_bool, Nat.reduceSub]
theorem readBar_raw (op : BitVec 8) (x : OpBar) : readBar (rawBar op x) = x := by
  simp (disch := decide) only [readBar, rawBar, BarLevel.ofCode_code, BlkCount.ofCode_code, BprCond.ofCode_code,
    Cond.ofCode_code, EmOp.ofCode_code, FCond.ofCode_code, Fmt.ofCode_code, PlopOp.ofCode_code, Scope.ofCode_code,
    VoteOp.ofCode_code, field_above, field_below, field_all, getLsbD_above, getLsbD_below, getLsbD_bool,
    Nat.reduceSub]
theorem readTk_raw (op : BitVec 8) (x : OpTk) : readTk (rawTk op x) = x := by
  simp (disch := decide) only [readTk, rawTk, field_above, field_below, field_all, getLsbD_above, getLsbD_below,
    getLsbD_bool, Nat.reduceSub]
theorem readRegacq_raw (op : BitVec 8) (x : OpRegacq) : readRegacq (rawRegacq op x) = x := by
  simp (disch := decide) only [readRegacq, rawRegacq, Raw.d3, Raw.subBit, dst3, field_above, field_below, field_all,
    getLsbD_above, getLsbD_below, getLsbD_bool, bit_code, Nat.reduceSub]
theorem readWin_raw (op : BitVec 8) (x : OpWin) : readWin (rawWin op x) = x := by
  simp (disch := decide) only [readWin, rawWin, Raw.imm, Raw.hi12, field_above, field_below, field_all, getLsbD_above,
    getLsbD_below, getLsbD_bool, Nat.reduceSub]
theorem readAB_raw (op : BitVec 8) (x : OpAB) : readAB (rawAB op x) = x := by
  simp (disch := decide) only [readAB, rawAB, Raw.a, Raw.b, Opnd.ofBits_bits, field_above, field_below, field_all,
    getLsbD_above, getLsbD_below, getLsbD_bool, Nat.reduceSub]
theorem readTrap_raw (op : BitVec 8) (x : OpTrap) : readTrap (rawTrap op x) = x := by
  simp (disch := decide) only [readTrap, rawTrap, Raw.imm, Raw.subBit, Raw.hi12, field_above, field_below, field_all,
    getLsbD_above, getLsbD_below, getLsbD_bool, bit_code, Nat.reduceSub]
theorem readDeq_raw (op : BitVec 8) (x : OpDeq) : readDeq (rawDeq op x) = x := by
  simp (disch := decide) only [readDeq, rawDeq, field_above, field_below, field_all, getLsbD_above, getLsbD_below,
    getLsbD_bool, Nat.reduceSub]
theorem readEmset_raw (op : BitVec 8) (x : OpEmset) : readEmset (rawEmset op x) = x := by
  simp (disch := decide) only [readEmset, rawEmset, Raw.a, Opnd.ofBits_bits, BarLevel.ofCode_code, BlkCount.ofCode_code,
    BprCond.ofCode_code, Cond.ofCode_code, EmOp.ofCode_code, FCond.ofCode_code, Fmt.ofCode_code, PlopOp.ofCode_code,
    Scope.ofCode_code, VoteOp.ofCode_code, field_above, field_below, field_all, getLsbD_above, getLsbD_below,
    getLsbD_bool, Nat.reduceSub]
theorem readD_raw (op : BitVec 8) (x : OpD) : readD (rawD op x) = x := by
  simp (disch := decide) only [readD, rawD, Raw.d5, dst5, field_above, field_below, field_all, getLsbD_above,
    getLsbD_below, getLsbD_bool, Nat.reduceSub]
theorem readBpr12_raw (op : BitVec 8) (x : OpBpr12) : readBpr12 (rawBpr12 op x) = x := by
  simp (disch := decide) only [readBpr12, rawBpr12, Raw.imm, Raw.a, Raw.hi12, Opnd.ofBits_bits, BarLevel.ofCode_code,
    BlkCount.ofCode_code, BprCond.ofCode_code, Cond.ofCode_code, EmOp.ofCode_code, FCond.ofCode_code, Fmt.ofCode_code,
    PlopOp.ofCode_code, Scope.ofCode_code, VoteOp.ofCode_code, field_above, field_below, field_all, getLsbD_above,
    getLsbD_below, getLsbD_bool, Nat.reduceSub]
theorem readBpr16_raw (op : BitVec 8) (x : OpBpr16) : readBpr16 (rawBpr16 op x) = x := by
  simp (disch := decide) only [readBpr16, rawBpr16, Raw.a, Opnd.ofBits_bits, BarLevel.ofCode_code, BlkCount.ofCode_code,
    BprCond.ofCode_code, Cond.ofCode_code, EmOp.ofCode_code, FCond.ofCode_code, Fmt.ofCode_code, PlopOp.ofCode_code,
    Scope.ofCode_code, VoteOp.ofCode_code, field_above, field_below, field_all, getLsbD_above, getLsbD_below,
    getLsbD_bool, Nat.reduceSub]
theorem readIcinv_raw (op : BitVec 8) (x : OpIcinv) : readIcinv (rawIcinv op x) = x := by
  obtain ⟨h, _ | a⟩ := x
  · simp [readIcinv, rawIcinv, Raw.subBit, bitCode]
  · simp [readIcinv, rawIcinv, Raw.a, Raw.subBit, Opnd.ofBits_bits, bitCode]
theorem readSrd_raw (op : BitVec 8) (x : OpSrd) : readSrd (rawSrd op x) = x := by
  simp (disch := decide) only [readSrd, rawSrd, field_above, field_below, field_all, getLsbD_above, getLsbD_below,
    getLsbD_bool, Nat.reduceSub]
theorem readSwr_raw (op : BitVec 8) (x : OpSwr) : readSwr (rawSwr op x) = x := by
  simp (disch := decide) only [readSwr, rawSwr, Raw.a, Opnd.ofBits_bits, field_above, field_below, field_all,
    getLsbD_above, getLsbD_below, getLsbD_bool, Nat.reduceSub]
theorem readV8_raw (op : BitVec 8) (x : OpV8) : readV8 (rawV8 op x) = x := by
  simp (disch := decide) only [readV8, rawV8, Raw.a, Raw.b, Raw.sat, Raw.wd, Raw.ty, modI, Opnd.ofBits_bits,
    IntTy.ofCode_code, field_above, field_below, field_all, getLsbD_above, getLsbD_below, getLsbD_bool, Nat.reduceSub]
theorem readV12_raw (op : BitVec 8) (x : OpV12) : readV12 (rawV12 op x) = x := by
  simp (disch := decide) only [readV12, rawV12, Raw.imm, Raw.a, Raw.sat, Raw.wd, Raw.ty, Raw.hi12, modI,
    Opnd.ofBits_bits, IntTy.ofCode_code, field_above, field_below, field_all, getLsbD_above, getLsbD_below,
    getLsbD_bool, Nat.reduceSub]
theorem readV3_raw (op : BitVec 8) (x : OpV3) : readV3 (rawV3 op x) = x := by
  simp (disch := decide) only [readV3, rawV3, Raw.a, Raw.b, Raw.c, Raw.sat, Raw.wd, Raw.ty, Raw.sc, Raw.hi12, modI,
    Opnd.ofBits_bits, IntTy.ofCode_code, field_above, field_below, field_all, getLsbD_above, getLsbD_below,
    getLsbD_bool, Nat.reduceSub]
theorem readV1_raw (op : BitVec 8) (x : OpV1) : readV1 (rawV1 op x) = x := by
  simp (disch := decide) only [readV1, rawV1, Raw.a, Raw.sat, Raw.wd, Raw.ty, modI, Opnd.ofBits_bits, IntTy.ofCode_code,
    field_above, field_below, field_all, getLsbD_above, getLsbD_below, getLsbD_bool, Nat.reduceSub]
theorem readLop3_raw (op : BitVec 8) (x : OpLop3) : readLop3 (rawLop3 op x) = x := by
  simp (disch := decide) only [readLop3, rawLop3, Raw.imm, Raw.a, Raw.b, Raw.c, Raw.wd, Raw.ty, Raw.sc, Raw.hi12, modI,
    Opnd.ofBits_bits, IntTy.ofCode_code, field_above, field_below, field_all, getLsbD_above, getLsbD_below,
    getLsbD_bool, Nat.reduceSub]
theorem readBfext_raw (op : BitVec 8) (x : OpBfext) : readBfext (rawBfext op x) = x := by
  simp (disch := decide) only [readBfext, rawBfext, Raw.imm, Raw.a, Raw.wd, Raw.ty, Raw.hi12, modI, Opnd.ofBits_bits,
    IntTy.ofCode_code, field_above, field_below, field_all, getLsbD_above, getLsbD_below, getLsbD_bool, Nat.reduceSub]
theorem readBfins_raw (op : BitVec 8) (x : OpBfins) : readBfins (rawBfins op x) = x := by
  simp (disch := decide) only [readBfins, rawBfins, Raw.imm, Raw.a, Raw.b, Raw.wd, Raw.ty, Raw.hi12, modI,
    Opnd.ofBits_bits, IntTy.ofCode_code, field_above, field_below, field_all, getLsbD_above, getLsbD_below,
    getLsbD_bool, Nat.reduceSub]
theorem readCmp8_raw (op : BitVec 8) (x : OpCmp8) : readCmp8 (rawCmp8 op x) = x := by
  simp (disch := decide) only [readCmp8, rawCmp8, Raw.a, Raw.b, Raw.d3, dst3, Opnd.ofBits_bits, BarLevel.ofCode_code,
    BlkCount.ofCode_code, BprCond.ofCode_code, Cond.ofCode_code, EmOp.ofCode_code, FCond.ofCode_code, Fmt.ofCode_code,
    PlopOp.ofCode_code, Scope.ofCode_code, VoteOp.ofCode_code, field_above, field_below, field_all, getLsbD_above,
    getLsbD_below, getLsbD_bool, Nat.reduceSub]
theorem readCmp12_raw (op : BitVec 8) (x : OpCmp12) : readCmp12 (rawCmp12 op x) = x := by
  simp (disch := decide) only [readCmp12, rawCmp12, Raw.imm, Raw.a, Raw.d3, Raw.hi12, dst3, Opnd.ofBits_bits,
    BarLevel.ofCode_code, BlkCount.ofCode_code, BprCond.ofCode_code, Cond.ofCode_code, EmOp.ofCode_code,
    FCond.ofCode_code, Fmt.ofCode_code, PlopOp.ofCode_code, Scope.ofCode_code, VoteOp.ofCode_code, field_above,
    field_below, field_all, getLsbD_above, getLsbD_below, getLsbD_bool, Nat.reduceSub]
theorem readSel_raw (op : BitVec 8) (x : OpSel) : readSel (rawSel op x) = x := by
  simp (disch := decide) only [readSel, rawSel, Raw.a, Raw.b, Raw.c, Raw.wd, Raw.ty, Raw.sc, Raw.hi12, modI,
    Opnd.ofBits_bits, IntTy.ofCode_code, field_above, field_below, field_all, getLsbD_above, getLsbD_below,
    getLsbD_bool, Nat.reduceSub]
theorem readMovi12_raw (op : BitVec 8) (x : OpMovi12) : readMovi12 (rawMovi12 op x) = x := by
  simp (disch := decide) only [readMovi12, rawMovi12, Raw.imm, Raw.wd, Raw.ty, Raw.hi12, modI, IntTy.ofCode_code,
    field_above, field_below, field_all, getLsbD_above, getLsbD_below, getLsbD_bool, Nat.reduceSub]
theorem readMovi16_raw (op : BitVec 8) (x : OpMovi16) : readMovi16 (rawMovi16 op x) = x := by
  simp (disch := decide) only [readMovi16, rawMovi16, Raw.wd, Raw.ty, modI, IntTy.ofCode_code, field_above, field_below,
    field_all, getLsbD_above, getLsbD_below, getLsbD_bool, Nat.reduceSub]
theorem readVote_raw (op : BitVec 8) (x : OpVote) : readVote (rawVote op x) = x := by
  simp (disch := decide) only [readVote, rawVote, Raw.a, Raw.d5, dst5, Opnd.ofBits_bits, BarLevel.ofCode_code,
    BlkCount.ofCode_code, BprCond.ofCode_code, Cond.ofCode_code, EmOp.ofCode_code, FCond.ofCode_code, Fmt.ofCode_code,
    PlopOp.ofCode_code, Scope.ofCode_code, VoteOp.ofCode_code, field_above, field_below, field_all, getLsbD_above,
    getLsbD_below, getLsbD_bool, Nat.reduceSub]
theorem readAscale_raw (op : BitVec 8) (x : OpAscale) : readAscale (rawAscale op x) = x := by
  simp (disch := decide) only [readAscale, rawAscale, Raw.imm, Raw.a, Raw.b, Raw.c, Raw.wd, Raw.subBit, Raw.sc,
    Raw.hi12, modI, Opnd.ofBits_bits, field_above, field_below, field_all, getLsbD_above, getLsbD_below, getLsbD_bool,
    wide_code, Nat.reduceSub]
theorem readRng_raw (op : BitVec 8) (x : OpRng) : readRng (rawRng op x) = x := by
  simp (disch := decide) only [readRng, rawRng, Raw.imm, Raw.a, Raw.b, Raw.wd, Raw.subBit, Raw.hi12, modI,
    Opnd.ofBits_bits, field_above, field_below, field_all, getLsbD_above, getLsbD_below, getLsbD_bool, wide_code,
    Nat.reduceSub]
theorem readPlop_raw (op : BitVec 8) (x : OpPlop) : readPlop (rawPlop op x) = x := by
  simp (disch := decide) only [readPlop, rawPlop, Raw.a, Raw.b, Raw.d3, dst3, Opnd.ofBits_bits, BarLevel.ofCode_code,
    BlkCount.ofCode_code, BprCond.ofCode_code, Cond.ofCode_code, EmOp.ofCode_code, FCond.ofCode_code, Fmt.ofCode_code,
    PlopOp.ofCode_code, Scope.ofCode_code, VoteOp.ofCode_code, field_above, field_below, field_all, getLsbD_above,
    getLsbD_below, getLsbD_bool, Nat.reduceSub]
theorem readVtos_raw (op : BitVec 8) (x : OpVtos) : readVtos (rawVtos op x) = x := by
  simp (disch := decide) only [readVtos, rawVtos, Raw.a, Raw.d5, Raw.ty, dst5, Opnd.ofBits_bits, IntTy.ofCode_code,
    field_above, field_below, field_all, getLsbD_above, getLsbD_below, getLsbD_bool, Nat.reduceSub]
theorem readS8_raw (op : BitVec 8) (x : OpS8) : readS8 (rawS8 op x) = x := by
  simp (disch := decide) only [readS8, rawS8, Raw.a, Raw.b, Raw.d5, Raw.sat, Raw.ty, dst5, modI, Opnd.ofBits_bits,
    IntTy.ofCode_code, field_above, field_below, field_all, getLsbD_above, getLsbD_below, getLsbD_bool, Nat.reduceSub]
theorem readS12_raw (op : BitVec 8) (x : OpS12) : readS12 (rawS12 op x) = x := by
  simp (disch := decide) only [readS12, rawS12, Raw.imm, Raw.a, Raw.d5, Raw.sat, Raw.ty, Raw.hi12, dst5, modI,
    Opnd.ofBits_bits, IntTy.ofCode_code, field_above, field_below, field_all, getLsbD_above, getLsbD_below,
    getLsbD_bool, Nat.reduceSub]
theorem readSmov12_raw (op : BitVec 8) (x : OpSmov12) : readSmov12 (rawSmov12 op x) = x := by
  simp (disch := decide) only [readSmov12, rawSmov12, Raw.imm, Raw.d5, Raw.hi12, dst5, field_above, field_below,
    field_all, getLsbD_above, getLsbD_below, getLsbD_bool, Nat.reduceSub]
theorem readSmov16_raw (op : BitVec 8) (x : OpSmov16) : readSmov16 (rawSmov16 op x) = x := by
  simp (disch := decide) only [readSmov16, rawSmov16, Raw.d5, dst5, field_above, field_below, field_all, getLsbD_above,
    getLsbD_below, getLsbD_bool, Nat.reduceSub]
theorem readF2_raw (op : BitVec 8) (x : OpF2) : readF2 (rawF2 op x) = x := by
  simp (disch := decide) only [readF2, rawF2, Raw.a, Raw.b, Raw.wd, Raw.rnd, Raw.fty, modF, Opnd.ofBits_bits,
    FTy.ofCode_code, Rnd.ofCode_code, field_above, field_below, field_all, getLsbD_above, getLsbD_below, getLsbD_bool,
    Nat.reduceSub]
theorem readF3_raw (op : BitVec 8) (x : OpF3) : readF3 (rawF3 op x) = x := by
  simp (disch := decide) only [readF3, rawF3, Raw.a, Raw.b, Raw.c, Raw.wd, Raw.rnd, Raw.fty, Raw.sc, Raw.hi12, modF,
    Opnd.ofBits_bits, FTy.ofCode_code, Rnd.ofCode_code, field_above, field_below, field_all, getLsbD_above,
    getLsbD_below, getLsbD_bool, Nat.reduceSub]
theorem readF1_raw (op : BitVec 8) (x : OpF1) : readF1 (rawF1 op x) = x := by
  simp (disch := decide) only [readF1, rawF1, Raw.a, Raw.wd, Raw.rnd, Raw.fty, modF, Opnd.ofBits_bits, FTy.ofCode_code,
    Rnd.ofCode_code, field_above, field_below, field_all, getLsbD_above, getLsbD_below, getLsbD_bool, Nat.reduceSub]
theorem ftyBit (t : FTy) : (if (t.code.extractLsb' 0 1).getLsbD 0 = true then FTy.f64 else FTy.f32) = t := by cases t <;> rfl
theorem readFcmp_raw (op : BitVec 8) (x : OpFcmp) : readFcmp (rawFcmp op x) = x := by
  simp (disch := decide) only [readFcmp, rawFcmp, Raw.a, Raw.b, Raw.d3, Raw.subBit, dst3, Opnd.ofBits_bits,
    BarLevel.ofCode_code, BlkCount.ofCode_code, BprCond.ofCode_code, Cond.ofCode_code, EmOp.ofCode_code,
    FCond.ofCode_code, Fmt.ofCode_code, PlopOp.ofCode_code, Scope.ofCode_code, VoteOp.ofCode_code, field_above,
    field_below, field_all, getLsbD_above, getLsbD_below, getLsbD_bool, Nat.reduceSub, ftyBit]
theorem readCvt_raw (op : BitVec 8) (x : OpCvt) : readCvt (rawCvt op x) = x := by
  simp (disch := decide) only [readCvt, rawCvt, Raw.imm, Raw.a, Raw.wd, Raw.rnd, Raw.nsat, Raw.hi12, modF,
    Opnd.ofBits_bits, BarLevel.ofCode_code, BlkCount.ofCode_code, BprCond.ofCode_code, Cond.ofCode_code,
    EmOp.ofCode_code, FCond.ofCode_code, Fmt.ofCode_code, PlopOp.ofCode_code, Rnd.ofCode_code, Scope.ofCode_code,
    VoteOp.ofCode_code, field_above, field_below, field_all, getLsbD_above, getLsbD_below, getLsbD_bool,
    Nat.reduceSub]
theorem readPack_raw (op : BitVec 8) (x : OpPack) : readPack (rawPack op x) = x := by
  simp (disch := decide) only [readPack, rawPack, Raw.imm, Raw.a, Raw.b, Raw.c, Raw.wd, Raw.rnd, Raw.nsat, Raw.sc,
    Raw.hi12, modF, Opnd.ofBits_bits, BarLevel.ofCode_code, BlkCount.ofCode_code, BprCond.ofCode_code,
    Cond.ofCode_code, EmOp.ofCode_code, FCond.ofCode_code, Fmt.ofCode_code, PlopOp.ofCode_code, Rnd.ofCode_code,
    Scope.ofCode_code, VoteOp.ofCode_code, field_above, field_below, field_all, getLsbD_above, getLsbD_below,
    getLsbD_bool, Nat.reduceSub]
theorem readUnpack_raw (op : BitVec 8) (x : OpUnpack) : readUnpack (rawUnpack op x) = x := by
  simp (disch := decide) only [readUnpack, rawUnpack, Raw.imm, Raw.a, Raw.wd, Raw.hi12, modF, Opnd.ofBits_bits,
    BarLevel.ofCode_code, BlkCount.ofCode_code, BprCond.ofCode_code, Cond.ofCode_code, EmOp.ofCode_code,
    FCond.ofCode_code, Fmt.ofCode_code, PlopOp.ofCode_code, Scope.ofCode_code, VoteOp.ofCode_code, field_above,
    field_below, field_all, getLsbD_above, getLsbD_below, getLsbD_bool, Nat.reduceSub]
theorem readScapply_raw (op : BitVec 8) (x : OpScapply) : readScapply (rawScapply op x) = x := by
  simp (disch := decide) only [readScapply, rawScapply, Raw.imm, Raw.a, Raw.b, Raw.wd, Raw.hi12, modF, Opnd.ofBits_bits,
    BarLevel.ofCode_code, BlkCount.ofCode_code, BprCond.ofCode_code, Cond.ofCode_code, EmOp.ofCode_code,
    FCond.ofCode_code, Fmt.ofCode_code, PlopOp.ofCode_code, Scope.ofCode_code, VoteOp.ofCode_code, field_above,
    field_below, field_all, getLsbD_above, getLsbD_below, getLsbD_bool, Nat.reduceSub]
theorem readBpext_raw (op : BitVec 8) (x : OpBpext) : readBpext (rawBpext op x) = x := by
  simp (disch := decide) only [readBpext, rawBpext, Raw.imm, Raw.a, Raw.wd, Raw.hi12, modF, Opnd.ofBits_bits,
    field_above, field_below, field_all, getLsbD_above, getLsbD_below, getLsbD_bool, Nat.reduceSub]
theorem readPk2_raw (op : BitVec 8) (x : OpPk2) : readPk2 (rawPk2 op x) = x := by
  simp (disch := decide) only [readPk2, rawPk2, Raw.a, Raw.b, Raw.wd, Raw.rnd, Raw.nsat, Raw.subBit, modF,
    Opnd.ofBits_bits, Rnd.ofCode_code, field_above, field_below, field_all, getLsbD_above, getLsbD_below,
    getLsbD_bool, bit_code, Nat.reduceSub]
theorem readUpk2_raw (op : BitVec 8) (x : OpUpk2) : readUpk2 (rawUpk2 op x) = x := by
  simp (disch := decide) only [readUpk2, rawUpk2, Raw.a, Raw.wd, Raw.subBit, modF, Opnd.ofBits_bits, field_above,
    field_below, field_all, getLsbD_above, getLsbD_below, getLsbD_bool, bit_code, Nat.reduceSub]
theorem readScfind_raw (op : BitVec 8) (x : OpScfind) : readScfind (rawScfind op x) = x := by
  simp (disch := decide) only [readScfind, rawScfind, Raw.imm, Raw.a, Raw.wd, Raw.hi12, modF, Opnd.ofBits_bits,
    BarLevel.ofCode_code, BlkCount.ofCode_code, BprCond.ofCode_code, Cond.ofCode_code, EmOp.ofCode_code,
    FCond.ofCode_code, Fmt.ofCode_code, PlopOp.ofCode_code, Scope.ofCode_code, VoteOp.ofCode_code, field_above,
    field_below, field_all, getLsbD_above, getLsbD_below, getLsbD_bool, Nat.reduceSub]
theorem readLd8_raw (op : BitVec 8) (x : OpLd8) : readLd8 (rawLd8 op x) = x := by
  simp (disch := decide) only [readLd8, rawLd8, Raw.a, Raw.wd, Raw.hint, Raw.ty, modM, Opnd.ofBits_bits,
    Hint.ofCode_code, IntTy.ofCode_code, field_above, field_below, field_all, getLsbD_above, getLsbD_below,
    getLsbD_bool, Nat.reduceSub]
theorem readLd12_raw (op : BitVec 8) (x : OpLd12) : readLd12 (rawLd12 op x) = x := by
  simp (disch := decide) only [readLd12, rawLd12, Raw.imm, Raw.a, Raw.c, Raw.wd, Raw.hint, Raw.ty, Raw.sc, Raw.hi12,
    modM, Opnd.ofBits_bits, Hint.ofCode_code, IntTy.ofCode_code, field_above, field_below, field_all, getLsbD_above,
    getLsbD_below, getLsbD_bool, Nat.reduceSub]
theorem readLd16_raw (op : BitVec 8) (x : OpLd16) : readLd16 (rawLd16 op x) = x := by
  simp (disch := decide) only [readLd16, rawLd16, Raw.disp, Raw.a, Raw.c, Raw.wd, Raw.hint, Raw.ty, Raw.sc, Raw.hiD,
    modM, Opnd.ofBits_bits, Hint.ofCode_code, IntTy.ofCode_code, field_above, field_below, field_all, getLsbD_above,
    getLsbD_below, getLsbD_bool, Nat.reduceSub]
theorem readSt8_raw (op : BitVec 8) (x : OpSt8) : readSt8 (rawSt8 op x) = x := by
  simp (disch := decide) only [readSt8, rawSt8, Raw.a, Raw.b, Raw.hint, Raw.ty, modM, Opnd.ofBits_bits,
    Hint.ofCode_code, IntTy.ofCode_code, field_above, field_below, field_all, getLsbD_above, getLsbD_below,
    getLsbD_bool, Nat.reduceSub]
theorem readSt12_raw (op : BitVec 8) (x : OpSt12) : readSt12 (rawSt12 op x) = x := by
  simp (disch := decide) only [readSt12, rawSt12, Raw.imm, Raw.a, Raw.b, Raw.c, Raw.hint, Raw.ty, Raw.sc, Raw.hi12,
    modM, Opnd.ofBits_bits, Hint.ofCode_code, IntTy.ofCode_code, field_above, field_below, field_all, getLsbD_above,
    getLsbD_below, getLsbD_bool, Nat.reduceSub]
theorem readSt16_raw (op : BitVec 8) (x : OpSt16) : readSt16 (rawSt16 op x) = x := by
  simp (disch := decide) only [readSt16, rawSt16, Raw.disp, Raw.a, Raw.b, Raw.c, Raw.hint, Raw.ty, Raw.sc, Raw.hiD,
    modM, Opnd.ofBits_bits, Hint.ofCode_code, IntTy.ofCode_code, field_above, field_below, field_all, getLsbD_above,
    getLsbD_below, getLsbD_bool, Nat.reduceSub]
theorem readLdblk8_raw (op : BitVec 8) (x : OpLdblk8) : readLdblk8 (rawLdblk8 op x) = x := by
  simp (disch := decide) only [readLdblk8, rawLdblk8, Raw.a, Raw.wd, Raw.hint, modM, Opnd.ofBits_bits,
    BarLevel.ofCode_code, BlkCount.ofCode_code, BprCond.ofCode_code, Cond.ofCode_code, EmOp.ofCode_code,
    FCond.ofCode_code, Fmt.ofCode_code, Hint.ofCode_code, PlopOp.ofCode_code, Scope.ofCode_code, VoteOp.ofCode_code,
    field_above, field_below, field_all, getLsbD_above, getLsbD_below, getLsbD_bool, Nat.reduceSub]
theorem readLdblk12_raw (op : BitVec 8) (x : OpLdblk12) : readLdblk12 (rawLdblk12 op x) = x := by
  simp (disch := decide) only [readLdblk12, rawLdblk12, Raw.imm, Raw.a, Raw.wd, Raw.hint, Raw.hi12, modM,
    Opnd.ofBits_bits, BarLevel.ofCode_code, BlkCount.ofCode_code, BprCond.ofCode_code, Cond.ofCode_code,
    EmOp.ofCode_code, FCond.ofCode_code, Fmt.ofCode_code, Hint.ofCode_code, PlopOp.ofCode_code, Scope.ofCode_code,
    VoteOp.ofCode_code, field_above, field_below, field_all, getLsbD_above, getLsbD_below, getLsbD_bool,
    Nat.reduceSub]
theorem readLdblk16_raw (op : BitVec 8) (x : OpLdblk16) : readLdblk16 (rawLdblk16 op x) = x := by
  simp (disch := decide) only [readLdblk16, rawLdblk16, Raw.disp, Raw.a, Raw.wd, Raw.hint, Raw.hiD, modM,
    Opnd.ofBits_bits, BarLevel.ofCode_code, BlkCount.ofCode_code, BprCond.ofCode_code, Cond.ofCode_code,
    EmOp.ofCode_code, FCond.ofCode_code, Fmt.ofCode_code, Hint.ofCode_code, PlopOp.ofCode_code, Scope.ofCode_code,
    VoteOp.ofCode_code, field_above, field_below, field_all, getLsbD_above, getLsbD_below, getLsbD_bool,
    Nat.reduceSub]
theorem readStblk8_raw (op : BitVec 8) (x : OpStblk8) : readStblk8 (rawStblk8 op x) = x := by
  simp (disch := decide) only [readStblk8, rawStblk8, Raw.a, Raw.b, Raw.hint, modM, Opnd.ofBits_bits,
    BarLevel.ofCode_code, BlkCount.ofCode_code, BprCond.ofCode_code, Cond.ofCode_code, EmOp.ofCode_code,
    FCond.ofCode_code, Fmt.ofCode_code, Hint.ofCode_code, PlopOp.ofCode_code, Scope.ofCode_code, VoteOp.ofCode_code,
    field_above, field_below, field_all, getLsbD_above, getLsbD_below, getLsbD_bool, Nat.reduceSub]
theorem readStblk12_raw (op : BitVec 8) (x : OpStblk12) : readStblk12 (rawStblk12 op x) = x := by
  simp (disch := decide) only [readStblk12, rawStblk12, Raw.imm, Raw.a, Raw.b, Raw.hint, Raw.hi12, modM,
    Opnd.ofBits_bits, BarLevel.ofCode_code, BlkCount.ofCode_code, BprCond.ofCode_code, Cond.ofCode_code,
    EmOp.ofCode_code, FCond.ofCode_code, Fmt.ofCode_code, Hint.ofCode_code, PlopOp.ofCode_code, Scope.ofCode_code,
    VoteOp.ofCode_code, field_above, field_below, field_all, getLsbD_above, getLsbD_below, getLsbD_bool,
    Nat.reduceSub]
theorem readStblk16_raw (op : BitVec 8) (x : OpStblk16) : readStblk16 (rawStblk16 op x) = x := by
  simp (disch := decide) only [readStblk16, rawStblk16, Raw.disp, Raw.a, Raw.b, Raw.hint, Raw.hiD, modM,
    Opnd.ofBits_bits, BarLevel.ofCode_code, BlkCount.ofCode_code, BprCond.ofCode_code, Cond.ofCode_code,
    EmOp.ofCode_code, FCond.ofCode_code, Fmt.ofCode_code, Hint.ofCode_code, PlopOp.ofCode_code, Scope.ofCode_code,
    VoteOp.ofCode_code, field_above, field_below, field_all, getLsbD_above, getLsbD_below, getLsbD_bool,
    Nat.reduceSub]
theorem readLdsc8_raw (op : BitVec 8) (x : OpLdsc8) : readLdsc8 (rawLdsc8 op x) = x := by
  simp (disch := decide) only [readLdsc8, rawLdsc8, Raw.a, Raw.d5, Raw.hint, Raw.ty, dst5, modM, Opnd.ofBits_bits,
    Hint.ofCode_code, IntTy.ofCode_code, field_above, field_below, field_all, getLsbD_above, getLsbD_below,
    getLsbD_bool, Nat.reduceSub]
theorem readLdsc12_raw (op : BitVec 8) (x : OpLdsc12) : readLdsc12 (rawLdsc12 op x) = x := by
  simp (disch := decide) only [readLdsc12, rawLdsc12, Raw.imm, Raw.a, Raw.d5, Raw.hint, Raw.ty, Raw.hi12, dst5, modM,
    Opnd.ofBits_bits, Hint.ofCode_code, IntTy.ofCode_code, field_above, field_below, field_all, getLsbD_above,
    getLsbD_below, getLsbD_bool, Nat.reduceSub]
theorem readLdsc16_raw (op : BitVec 8) (x : OpLdsc16) : readLdsc16 (rawLdsc16 op x) = x := by
  simp (disch := decide) only [readLdsc16, rawLdsc16, Raw.disp, Raw.a, Raw.d5, Raw.hint, Raw.ty, Raw.hiD, dst5, modM,
    Opnd.ofBits_bits, Hint.ofCode_code, IntTy.ofCode_code, field_above, field_below, field_all, getLsbD_above,
    getLsbD_below, getLsbD_bool, Nat.reduceSub]
theorem readStsc12_raw (op : BitVec 8) (x : OpStsc12) : readStsc12 (rawStsc12 op x) = x := by
  simp (disch := decide) only [readStsc12, rawStsc12, Raw.imm, Raw.a, Raw.b, Raw.hint, Raw.ty, Raw.hi12, modM,
    Opnd.ofBits_bits, Hint.ofCode_code, IntTy.ofCode_code, field_above, field_below, field_all, getLsbD_above,
    getLsbD_below, getLsbD_bool, Nat.reduceSub]
theorem readStsc16_raw (op : BitVec 8) (x : OpStsc16) : readStsc16 (rawStsc16 op x) = x := by
  simp (disch := decide) only [readStsc16, rawStsc16, Raw.disp, Raw.a, Raw.b, Raw.hint, Raw.ty, Raw.hiD, modM,
    Opnd.ofBits_bits, Hint.ofCode_code, IntTy.ofCode_code, field_above, field_below, field_all, getLsbD_above,
    getLsbD_below, getLsbD_bool, Nat.reduceSub]
theorem readLdacc_raw (op : BitVec 8) (x : OpLdacc) : readLdacc (rawLdacc op x) = x := by
  simp (disch := decide) only [readLdacc, rawLdacc, Raw.imm, Raw.a, Raw.b, Raw.d4, Raw.hint, Raw.subBit, Raw.hi12, dst4,
    modM, Opnd.ofBits_bits, Hint.ofCode_code, field_above, field_below, field_all, getLsbD_above, getLsbD_below,
    getLsbD_bool, bit_code, Nat.reduceSub]
theorem readStacc_raw (op : BitVec 8) (x : OpStacc) : readStacc (rawStacc op x) = x := by
  simp (disch := decide) only [readStacc, rawStacc, Raw.imm, Raw.a, Raw.b, Raw.hint, Raw.subBit, Raw.hi12, modM,
    Opnd.ofBits_bits, Hint.ofCode_code, field_above, field_below, field_all, getLsbD_above, getLsbD_below,
    getLsbD_bool, bit_code, Nat.reduceSub]
theorem readCopy_raw (op : BitVec 8) (x : OpCopy) : readCopy (rawCopy op x) = x := by
  simp (disch := decide) only [readCopy, rawCopy, Raw.sd, Raw.ctl, Raw.a, Raw.b, Raw.c, Raw.hint, Raw.sc, Raw.hiE, modM,
    Opnd.ofBits_bits, Hint.ofCode_code, field_above, field_below, field_all, getLsbD_above, getLsbD_below,
    getLsbD_bool, Nat.reduceSub]
theorem readLines12_raw (op : BitVec 8) (x : OpLines12) : readLines12 (rawLines12 op x) = x := by
  simp (disch := decide) only [readLines12, rawLines12, Raw.imm, Raw.a, Raw.hi12, Opnd.ofBits_bits, field_above,
    field_below, field_all, getLsbD_above, getLsbD_below, getLsbD_bool, Nat.reduceSub]
theorem readPref8_raw (op : BitVec 8) (x : OpPref8) : readPref8 (rawPref8 op x) = x := by
  simp (disch := decide) only [readPref8, rawPref8, Raw.a, Raw.hint, Raw.subBit, modM, Opnd.ofBits_bits,
    Hint.ofCode_code, field_above, field_below, field_all, getLsbD_above, getLsbD_below, getLsbD_bool, bit_code,
    Nat.reduceSub]
theorem readPref12_raw (op : BitVec 8) (x : OpPref12) : readPref12 (rawPref12 op x) = x := by
  simp (disch := decide) only [readPref12, rawPref12, Raw.imm, Raw.a, Raw.hint, Raw.subBit, Raw.hi12, modM,
    Opnd.ofBits_bits, Hint.ofCode_code, field_above, field_below, field_all, getLsbD_above, getLsbD_below,
    getLsbD_bool, bit_code, Nat.reduceSub]
theorem readAtom8_raw {ω : Type} (code : ω → BitVec 3) (of : BitVec 3 → ω) (hc : ∀ x, of (code x) = x) (op : BitVec 8) (x : OpAtom8 ω) :
    readAtom8 of (rawAtom8 code op x) = x := by
  simp (disch := decide) only [readAtom8, rawAtom8, Raw.a, Raw.b, Raw.wd, Raw.hint, modM, Opnd.ofBits_bits,
    Hint.ofCode_code, field_above, field_below, field_all, getLsbD_above, getLsbD_below, getLsbD_bool, Nat.reduceSub,
    hc]
theorem readAtom12_raw {ω : Type} (code : ω → BitVec 3) (of : BitVec 3 → ω) (hc : ∀ x, of (code x) = x) (op : BitVec 8) (x : OpAtom12 ω) :
    readAtom12 of (rawAtom12 code op x) = x := by
  simp (disch := decide) only [readAtom12, rawAtom12, Raw.imm, Raw.a, Raw.b, Raw.c, Raw.wd, Raw.hint, Raw.sc, Raw.hi12,
    modM, Opnd.ofBits_bits, Hint.ofCode_code, field_above, field_below, field_all, getLsbD_above, getLsbD_below,
    getLsbD_bool, Nat.reduceSub, hc]
theorem readAtom16_raw {ω : Type} (code : ω → BitVec 3) (of : BitVec 3 → ω) (hc : ∀ x, of (code x) = x) (op : BitVec 8) (x : OpAtom16 ω) :
    readAtom16 of (rawAtom16 code op x) = x := by
  simp (disch := decide) only [readAtom16, rawAtom16, Raw.disp, Raw.a, Raw.b, Raw.c, Raw.wd, Raw.hint, Raw.sc, Raw.hiD,
    modM, Opnd.ofBits_bits, Hint.ofCode_code, field_above, field_below, field_all, getLsbD_above, getLsbD_below,
    getLsbD_bool, Nat.reduceSub, hc]
theorem readRed8_raw {ω : Type} (code : ω → BitVec 3) (of : BitVec 3 → ω) (hc : ∀ x, of (code x) = x) (op : BitVec 8) (x : OpRed8 ω) :
    readRed8 of (rawRed8 code op x) = x := by
  simp (disch := decide) only [readRed8, rawRed8, Raw.a, Raw.b, Raw.hint, modM, Opnd.ofBits_bits, Hint.ofCode_code,
    field_above, field_below, field_all, getLsbD_above, getLsbD_below, getLsbD_bool, Nat.reduceSub, hc]
theorem readRed12_raw {ω : Type} (code : ω → BitVec 3) (of : BitVec 3 → ω) (hc : ∀ x, of (code x) = x) (op : BitVec 8) (x : OpRed12 ω) :
    readRed12 of (rawRed12 code op x) = x := by
  simp (disch := decide) only [readRed12, rawRed12, Raw.imm, Raw.a, Raw.b, Raw.c, Raw.hint, Raw.sc, Raw.hi12, modM,
    Opnd.ofBits_bits, Hint.ofCode_code, field_above, field_below, field_all, getLsbD_above, getLsbD_below,
    getLsbD_bool, Nat.reduceSub, hc]
theorem readRed16_raw {ω : Type} (code : ω → BitVec 3) (of : BitVec 3 → ω) (hc : ∀ x, of (code x) = x) (op : BitVec 8) (x : OpRed16 ω) :
    readRed16 of (rawRed16 code op x) = x := by
  simp (disch := decide) only [readRed16, rawRed16, Raw.disp, Raw.a, Raw.b, Raw.c, Raw.hint, Raw.sc, Raw.hiD, modM,
    Opnd.ofBits_bits, Hint.ofCode_code, field_above, field_below, field_all, getLsbD_above, getLsbD_below,
    getLsbD_bool, Nat.reduceSub, hc]
theorem readFence_raw (op : BitVec 8) (x : OpFence) : readFence (rawFence op x) = x := by
  simp (disch := decide) only [readFence, rawFence, modM, BarLevel.ofCode_code, BlkCount.ofCode_code,
    BprCond.ofCode_code, Cond.ofCode_code, EmOp.ofCode_code, FCond.ofCode_code, Fmt.ofCode_code, PlopOp.ofCode_code,
    Scope.ofCode_code, VoteOp.ofCode_code, field_above, field_below, field_all, getLsbD_above, getLsbD_below,
    getLsbD_bool, Nat.reduceSub]
theorem readMma_raw (op : BitVec 8) (x : OpMma) : readMma (rawMma op x) = x := by
  simp (disch := decide) only [readMma, rawMma, Raw.ctl, Raw.a, Raw.b, Raw.c, Raw.d4, Raw.sc, Raw.hiE, dst4,
    Opnd.ofBits_bits, BarLevel.ofCode_code, BlkCount.ofCode_code, BprCond.ofCode_code, Cond.ofCode_code,
    EmOp.ofCode_code, FCond.ofCode_code, Fmt.ofCode_code, PlopOp.ofCode_code, Scope.ofCode_code, VoteOp.ofCode_code,
    field_above, field_below, field_all, getLsbD_above, getLsbD_below, getLsbD_bool, Nat.reduceSub]
theorem readMmac_raw (op : BitVec 8) (x : OpMmac) : readMmac (rawMmac op x) = x := by
  simp (disch := decide) only [readMmac, rawMmac, Raw.ctl, Raw.a, Raw.b, Raw.d4, Raw.hiE, dst4, Opnd.ofBits_bits,
    field_above, field_below, field_all, getLsbD_above, getLsbD_below, getLsbD_bool, Nat.reduceSub]
theorem readMmap_raw (op : BitVec 8) (x : OpMmap) : readMmap (rawMmap op x) = x := by
  simp (disch := decide) only [readMmap, rawMmap, Raw.ctl, Raw.a, Raw.b, Raw.c, Raw.d4, Raw.sc, Raw.hiE, dst4,
    Opnd.ofBits_bits, field_above, field_below, field_all, getLsbD_above, getLsbD_below, getLsbD_bool, Nat.reduceSub]
theorem readMmas_raw (op : BitVec 8) (x : OpMmas) : readMmas (rawMmas op x) = x := by
  simp (disch := decide) only [readMmas, rawMmas, Raw.sd, Raw.ctl, Raw.a, Raw.b, Raw.c, Raw.d4, Raw.sc, Raw.hiE, dst4,
    Opnd.ofBits_bits, BarLevel.ofCode_code, BlkCount.ofCode_code, BprCond.ofCode_code, Cond.ofCode_code,
    EmOp.ofCode_code, FCond.ofCode_code, Fmt.ofCode_code, PlopOp.ofCode_code, Scope.ofCode_code, VoteOp.ofCode_code,
    field_above, field_below, field_all, getLsbD_above, getLsbD_below, getLsbD_bool, Nat.reduceSub]
theorem readAcz_raw (op : BitVec 8) (x : OpAcz) : readAcz (rawAcz op x) = x := by
  simp (disch := decide) only [readAcz, rawAcz, Raw.d4, dst4, field_above, field_below, field_all, getLsbD_above,
    getLsbD_below, getLsbD_bool, Nat.reduceSub]
theorem readAcscl_raw (op : BitVec 8) (x : OpAcscl) : readAcscl (rawAcscl op x) = x := by
  simp (disch := decide) only [readAcscl, rawAcscl, Raw.imm, Raw.a, Raw.d4, Raw.subBit, Raw.hi12, dst4,
    Opnd.ofBits_bits, field_above, field_below, field_all, getLsbD_above, getLsbD_below, getLsbD_bool, bit_code,
    Nat.reduceSub]
theorem readAccvt_raw (op : BitVec 8) (x : OpAccvt) : readAccvt (rawAccvt op x) = x := by
  simp (disch := decide) only [readAccvt, rawAccvt, Raw.imm, Raw.d4, Raw.subBit, Raw.hi12, dst4, field_above,
    field_below, field_all, getLsbD_above, getLsbD_below, getLsbD_bool, bit_code, Nat.reduceSub]
theorem readAcrd_raw (op : BitVec 8) (x : OpAcrd) : readAcrd (rawAcrd op x) = x := by
  simp (disch := decide) only [readAcrd, rawAcrd, Raw.imm, Raw.subBit, Raw.hi12, field_above, field_below, field_all,
    getLsbD_above, getLsbD_below, getLsbD_bool, bit_code, Nat.reduceSub]
theorem readAcwr_raw (op : BitVec 8) (x : OpAcwr) : readAcwr (rawAcwr op x) = x := by
  simp (disch := decide) only [readAcwr, rawAcwr, Raw.imm, Raw.a, Raw.d4, Raw.subBit, Raw.hi12, dst4, Opnd.ofBits_bits,
    field_above, field_below, field_all, getLsbD_above, getLsbD_below, getLsbD_bool, bit_code, Nat.reduceSub]
theorem readFrcdec_raw (op : BitVec 8) (x : OpFrcdec) : readFrcdec (rawFrcdec op x) = x := by
  simp (disch := decide) only [readFrcdec, rawFrcdec, Raw.imm, Raw.a, Raw.fty, Raw.hi12, Opnd.ofBits_bits,
    FTy.ofCode_code, field_above, field_below, field_all, getLsbD_above, getLsbD_below, getLsbD_bool, Nat.reduceSub]
theorem readFrcenc_raw (op : BitVec 8) (x : OpFrcenc) : readFrcenc (rawFrcenc op x) = x := by
  simp (disch := decide) only [readFrcenc, rawFrcenc, Raw.imm, Raw.a, Raw.b, Raw.fty, Raw.hi12, Opnd.ofBits_bits,
    FTy.ofCode_code, field_above, field_below, field_all, getLsbD_above, getLsbD_below, getLsbD_bool, Nat.reduceSub]
theorem readFrchdr_raw (op : BitVec 8) (x : OpFrchdr) : readFrchdr (rawFrchdr op x) = x := by
  simp (disch := decide) only [readFrchdr, rawFrchdr, Raw.a, Raw.b, Opnd.ofBits_bits, field_above, field_below,
    field_all, getLsbD_above, getLsbD_below, getLsbD_bool, Nat.reduceSub]
theorem readExpload_raw (op : BitVec 8) (x : OpExpload) : readExpload (rawExpload op x) = x := by
  simp (disch := decide) only [readExpload, rawExpload, Raw.imm, Raw.a, Raw.hi12, Opnd.ofBits_bits, field_above,
    field_below, field_all, getLsbD_above, getLsbD_below, getLsbD_bool, Nat.reduceSub]
theorem readPkLine_raw (op : BitVec 8) (x : OpDA) : readPkLine (rawPkLine op x) = x := by
  simp (disch := decide) only [readPkLine, rawPkLine, Raw.a, Raw.d5, dst5, Opnd.ofBits_bits, field_above, field_below,
    field_all, getLsbD_above, getLsbD_below, getLsbD_bool, Nat.reduceSub]
theorem readPkBind_raw (op : BitVec 8) (x : OpDAB) : readPkBind (rawPkBind op x) = x := by
  simp (disch := decide) only [readPkBind, rawPkBind, Raw.a, Raw.b, Raw.d5, dst5, Opnd.ofBits_bits, field_above,
    field_below, field_all, getLsbD_above, getLsbD_below, getLsbD_bool, Nat.reduceSub]
theorem readXop8_raw (x : OpXop8) : readXop8 (rawXop8 x) = x := by
  simp (disch := decide) only [readXop8, rawXop8, Raw.a, Raw.b, Opnd.ofBits_bits, field_above, field_below, field_all,
    getLsbD_above, getLsbD_below, getLsbD_bool, Nat.reduceSub]
theorem readXop12_raw (x : OpXop12) : readXop12 (rawXop12 x) = x := by
  simp (disch := decide) only [readXop12, rawXop12, Raw.imm, Raw.a, Raw.b, Raw.c, Raw.sc, Raw.hi12, Opnd.ofBits_bits,
    field_above, field_below, field_all, getLsbD_above, getLsbD_below, getLsbD_bool, Nat.reduceSub]
theorem readXop16_raw (x : OpXop16) : readXop16 (rawXop16 x) = x := by
  simp (disch := decide) only [readXop16, rawXop16, Raw.a, Raw.b, Opnd.ofBits_bits, field_above, field_below, field_all,
    getLsbD_above, getLsbD_below, getLsbD_bool, Nat.reduceSub]

end Sys2Proof
end

