-- ==== Sys2Proof/Laws/PerInstr.lean ====
section
/-! SUPPORT. The per-instruction family `ReadBack`: the fields that an instruction's word names give the instruction back. -/

set_option maxRecDepth 10000

namespace Sys2Proof.Laws

/-- What the decoder reads from the fields that the encoder writes for `i`, if `i` has a word, is `i`. -/
def ReadBack.Statement (i : Instr) : Prop := ∀ r, i.toRaw = some r → r.guess = some i

theorem emulated_op : ∀ op : BitVec 3, (31#5 ++ op : BitVec 8).toNat = 248 + op.toNat := by decide
theorem emulated_cases : ∀ op : BitVec 3, op = 0 ∨ op = 1 ∨ op = 2 ∨ op = 3 ∨ op = 4 ∨ op = 5 ∨ op = 6 ∨ op = 7 := by decide

theorem ReadBack.nop8 (x : OpH) : ReadBack.Statement (.nop8 x) := fun r h => by
  cases h; exact congrArg (fun y => some (Instr.nop8 y)) (readH_raw _ x)
theorem ReadBack.nop12 (x : OpH) : ReadBack.Statement (.nop12 x) := fun r h => by
  cases h; exact congrArg (fun y => some (Instr.nop12 y)) (readH12_raw _ x)
theorem ReadBack.bra12 (x : OpBr12) : ReadBack.Statement (.bra12 x) := fun r h => by
  cases h; exact congrArg (fun y => some (Instr.bra12 y)) (readBr12_raw _ x)
theorem ReadBack.bra16 (x : OpBr16) : ReadBack.Statement (.bra16 x) := fun r h => by
  cases h; exact congrArg (fun y => some (Instr.bra16 y)) (readBr16_raw _ x)
theorem ReadBack.brx (x : OpA) : ReadBack.Statement (.brx x) := fun r h => by
  cases h; exact congrArg (fun y => some (Instr.brx y)) (readA_raw _ x)
theorem ReadBack.call12 (x : OpCall12) : ReadBack.Statement (.call12 x) := fun r h => by
  cases h; exact congrArg (fun y => some (Instr.call12 y)) (readCall12_raw _ x)
theorem ReadBack.call16 (x : OpCall16) : ReadBack.Statement (.call16 x) := fun r h => by
  cases h; exact congrArg (fun y => some (Instr.call16 y)) (readCall16_raw _ x)
theorem ReadBack.callx (x : OpDA) : ReadBack.Statement (.callx x) := fun r h => by
  cases h; exact congrArg (fun y => some (Instr.callx y)) (readDA_raw _ x)
theorem ReadBack.ret (x : OpA) : ReadBack.Statement (.ret x) := fun r h => by
  cases h; exact congrArg (fun y => some (Instr.ret y)) (readA_raw _ x)
theorem ReadBack.exit (x : OpH) : ReadBack.Statement (.exit x) := fun r h => by
  cases h; exact congrArg (fun y => some (Instr.exit y)) (readH_raw _ x)
theorem ReadBack.yield (x : OpH) : ReadBack.Statement (.yield x) := fun r h => by
  cases h; exact congrArg (fun y => some (Instr.yield y)) (readH_raw _ x)
theorem ReadBack.fsw (x : OpFsw) : ReadBack.Statement (.fsw x) := fun r h => by
  cases h; exact congrArg (fun y => some (Instr.fsw y)) (readFsw_raw _ x)
theorem ReadBack.bar (x : OpBar) : ReadBack.Statement (.bar x) := fun r h => by
  cases h; exact congrArg (fun y => some (Instr.bar y)) (readBar_raw _ x)
theorem ReadBack.barv (x : OpBar) : ReadBack.Statement (.barv x) := fun r h => by
  cases h; exact congrArg (fun y => some (Instr.barv y)) (readBar_raw _ x)
theorem ReadBack.barw (x : OpBar) : ReadBack.Statement (.barw x) := fun r h => by
  cases h; exact congrArg (fun y => some (Instr.barw y)) (readBar_raw _ x)
theorem ReadBack.tkwait (x : OpTk) : ReadBack.Statement (.tkwait x) := fun r h => by
  cases h; exact congrArg (fun y => some (Instr.tkwait y)) (readTk_raw _ x)
theorem ReadBack.tkpass (x : OpTk) : ReadBack.Statement (.tkpass x) := fun r h => by
  cases h; exact congrArg (fun y => some (Instr.tkpass y)) (readTk_raw _ x)
theorem ReadBack.regacq (x : OpRegacq) : ReadBack.Statement (.regacq x) := fun r h => by
  cases h; exact congrArg (fun y => some (Instr.regacq y)) (readRegacq_raw _ x)
theorem ReadBack.regrel (x : OpH) : ReadBack.Statement (.regrel x) := fun r h => by
  cases h; exact congrArg (fun y => some (Instr.regrel y)) (readH_raw _ x)
theorem ReadBack.win (x : OpWin) : ReadBack.Statement (.win x) := fun r h => by
  cases h; exact congrArg (fun y => some (Instr.win y)) (readWin_raw _ x)
theorem ReadBack.wline (x : OpAB) : ReadBack.Statement (.wline x) := fun r h => by
  cases h; exact congrArg (fun y => some (Instr.wline y)) (readAB_raw _ x)
theorem ReadBack.launch (x : OpDA) : ReadBack.Statement (.launch x) := fun r h => by
  cases h; exact congrArg (fun y => some (Instr.launch y)) (readDA_raw _ x)
theorem ReadBack.qend (x : OpH) : ReadBack.Statement (.qend x) := fun r h => by
  cases h; exact congrArg (fun y => some (Instr.qend y)) (readH_raw _ x)
theorem ReadBack.trap (x : OpTrap) : ReadBack.Statement (.trap x) := fun r h => by
  cases h; exact congrArg (fun y => some (Instr.trap y)) (readTrap_raw _ x)
theorem ReadBack.rett (x : OpH) : ReadBack.Statement (.rett x) := fun r h => by
  cases h; exact congrArg (fun y => some (Instr.rett y)) (readH_raw _ x)
theorem ReadBack.enq (x : OpDA) : ReadBack.Statement (.enq x) := fun r h => by
  cases h; exact congrArg (fun y => some (Instr.enq y)) (readDA_raw _ x)
theorem ReadBack.deq (x : OpDeq) : ReadBack.Statement (.deq x) := fun r h => by
  cases h; exact congrArg (fun y => some (Instr.deq y)) (readDeq_raw _ x)
theorem ReadBack.emset (x : OpEmset) : ReadBack.Statement (.emset x) := fun r h => by
  cases h; exact congrArg (fun y => some (Instr.emset y)) (readEmset_raw _ x)
theorem ReadBack.emget (x : OpD) : ReadBack.Statement (.emget x) := fun r h => by
  cases h; exact congrArg (fun y => some (Instr.emget y)) (readD_raw _ x)
theorem ReadBack.bpr12 (x : OpBpr12) : ReadBack.Statement (.bpr12 x) := fun r h => by
  cases h; exact congrArg (fun y => some (Instr.bpr12 y)) (readBpr12_raw _ x)
theorem ReadBack.bpr16 (x : OpBpr16) : ReadBack.Statement (.bpr16 x) := fun r h => by
  cases h; exact congrArg (fun y => some (Instr.bpr16 y)) (readBpr16_raw _ x)
theorem ReadBack.icinv (x : OpIcinv) : ReadBack.Statement (.icinv x) := fun r h => by
  cases h; exact congrArg (fun y => some (Instr.icinv y)) (readIcinv_raw _ x)
theorem ReadBack.srd (x : OpSrd) : ReadBack.Statement (.srd x) := fun r h => by
  cases h; exact congrArg (fun y => some (Instr.srd y)) (readSrd_raw _ x)
theorem ReadBack.swr (x : OpSwr) : ReadBack.Statement (.swr x) := fun r h => by
  cases h; exact congrArg (fun y => some (Instr.swr y)) (readSwr_raw _ x)
theorem ReadBack.iadd8 (x : OpV8) : ReadBack.Statement (.iadd8 x) := fun r h => by
  cases h; exact congrArg (fun y => some (Instr.iadd8 y)) (readV8_raw _ x)
theorem ReadBack.iadd12 (x : OpV12) : ReadBack.Statement (.iadd12 x) := fun r h => by
  cases h; exact congrArg (fun y => some (Instr.iadd12 y)) (readV12_raw _ x)
theorem ReadBack.isub8 (x : OpV8) : ReadBack.Statement (.isub8 x) := fun r h => by
  cases h; exact congrArg (fun y => some (Instr.isub8 y)) (readV8_raw _ x)
theorem ReadBack.isub12 (x : OpV12) : ReadBack.Statement (.isub12 x) := fun r h => by
  cases h; exact congrArg (fun y => some (Instr.isub12 y)) (readV12_raw _ x)
theorem ReadBack.imul8 (x : OpV8) : ReadBack.Statement (.imul8 x) := fun r h => by
  cases h; exact congrArg (fun y => some (Instr.imul8 y)) (readV8_raw _ x)
theorem ReadBack.imul12 (x : OpV12) : ReadBack.Statement (.imul12 x) := fun r h => by
  cases h; exact congrArg (fun y => some (Instr.imul12 y)) (readV12_raw _ x)
theorem ReadBack.imulhi8 (x : OpV8) : ReadBack.Statement (.imulhi8 x) := fun r h => by
  cases h; exact congrArg (fun y => some (Instr.imulhi8 y)) (readV8_raw _ x)
theorem ReadBack.imulhi12 (x : OpV12) : ReadBack.Statement (.imulhi12 x) := fun r h => by
  cases h; exact congrArg (fun y => some (Instr.imulhi12 y)) (readV12_raw _ x)
theorem ReadBack.imin8 (x : OpV8) : ReadBack.Statement (.imin8 x) := fun r h => by
  cases h; exact congrArg (fun y => some (Instr.imin8 y)) (readV8_raw _ x)
theorem ReadBack.imin12 (x : OpV12) : ReadBack.Statement (.imin12 x) := fun r h => by
  cases h; exact congrArg (fun y => some (Instr.imin12 y)) (readV12_raw _ x)
theorem ReadBack.imax8 (x : OpV8) : ReadBack.Statement (.imax8 x) := fun r h => by
  cases h; exact congrArg (fun y => some (Instr.imax8 y)) (readV8_raw _ x)
theorem ReadBack.imax12 (x : OpV12) : ReadBack.Statement (.imax12 x) := fun r h => by
  cases h; exact congrArg (fun y => some (Instr.imax12 y)) (readV12_raw _ x)
theorem ReadBack.shl8 (x : OpV8) : ReadBack.Statement (.shl8 x) := fun r h => by
  cases h; exact congrArg (fun y => some (Instr.shl8 y)) (readV8_raw _ x)
theorem ReadBack.shl12 (x : OpV12) : ReadBack.Statement (.shl12 x) := fun r h => by
  cases h; exact congrArg (fun y => some (Instr.shl12 y)) (readV12_raw _ x)
theorem ReadBack.shr8 (x : OpV8) : ReadBack.Statement (.shr8 x) := fun r h => by
  cases h; exact congrArg (fun y => some (Instr.shr8 y)) (readV8_raw _ x)
theorem ReadBack.shr12 (x : OpV12) : ReadBack.Statement (.shr12 x) := fun r h => by
  cases h; exact congrArg (fun y => some (Instr.shr12 y)) (readV12_raw _ x)
theorem ReadBack.rot8 (x : OpV8) : ReadBack.Statement (.rot8 x) := fun r h => by
  cases h; exact congrArg (fun y => some (Instr.rot8 y)) (readV8_raw _ x)
theorem ReadBack.rot12 (x : OpV12) : ReadBack.Statement (.rot12 x) := fun r h => by
  cases h; exact congrArg (fun y => some (Instr.rot12 y)) (readV12_raw _ x)
theorem ReadBack.and8 (x : OpV8) : ReadBack.Statement (.and8 x) := fun r h => by
  cases h; exact congrArg (fun y => some (Instr.and8 y)) (readV8_raw _ x)
theorem ReadBack.and12 (x : OpV12) : ReadBack.Statement (.and12 x) := fun r h => by
  cases h; exact congrArg (fun y => some (Instr.and12 y)) (readV12_raw _ x)
theorem ReadBack.or8 (x : OpV8) : ReadBack.Statement (.or8 x) := fun r h => by
  cases h; exact congrArg (fun y => some (Instr.or8 y)) (readV8_raw _ x)
theorem ReadBack.or12 (x : OpV12) : ReadBack.Statement (.or12 x) := fun r h => by
  cases h; exact congrArg (fun y => some (Instr.or12 y)) (readV12_raw _ x)
theorem ReadBack.xor8 (x : OpV8) : ReadBack.Statement (.xor8 x) := fun r h => by
  cases h; exact congrArg (fun y => some (Instr.xor8 y)) (readV8_raw _ x)
theorem ReadBack.xor12 (x : OpV12) : ReadBack.Statement (.xor12 x) := fun r h => by
  cases h; exact congrArg (fun y => some (Instr.xor12 y)) (readV12_raw _ x)
theorem ReadBack.icmp8 (x : OpCmp8) : ReadBack.Statement (.icmp8 x) := fun r h => by
  cases h; exact congrArg (fun y => some (Instr.icmp8 y)) (readCmp8_raw _ x)
theorem ReadBack.icmp12 (x : OpCmp12) : ReadBack.Statement (.icmp12 x) := fun r h => by
  cases h; exact congrArg (fun y => some (Instr.icmp12 y)) (readCmp12_raw _ x)
theorem ReadBack.iabs (x : OpV1) : ReadBack.Statement (.iabs x) := fun r h => by
  cases h; exact congrArg (fun y => some (Instr.iabs y)) (readV1_raw _ x)
theorem ReadBack.vnot (x : OpV1) : ReadBack.Statement (.vnot x) := fun r h => by
  cases h; exact congrArg (fun y => some (Instr.vnot y)) (readV1_raw _ x)
theorem ReadBack.popc (x : OpV1) : ReadBack.Statement (.popc x) := fun r h => by
  cases h; exact congrArg (fun y => some (Instr.popc y)) (readV1_raw _ x)
theorem ReadBack.clz (x : OpV1) : ReadBack.Statement (.clz x) := fun r h => by
  cases h; exact congrArg (fun y => some (Instr.clz y)) (readV1_raw _ x)
theorem ReadBack.brev (x : OpV1) : ReadBack.Statement (.brev x) := fun r h => by
  cases h; exact congrArg (fun y => some (Instr.brev y)) (readV1_raw _ x)
theorem ReadBack.mov (x : OpV1) : ReadBack.Statement (.mov x) := fun r h => by
  cases h; exact congrArg (fun y => some (Instr.mov y)) (readV1_raw _ x)
theorem ReadBack.lidx (x : OpV8) : ReadBack.Statement (.lidx x) := fun r h => by
  cases h; exact congrArg (fun y => some (Instr.lidx y)) (readV8_raw _ x)
theorem ReadBack.plop (x : OpPlop) : ReadBack.Statement (.plop x) := fun r h => by
  cases h; exact congrArg (fun y => some (Instr.plop y)) (readPlop_raw _ x)
theorem ReadBack.imad (x : OpV3) : ReadBack.Statement (.imad x) := fun r h => by
  cases h; exact congrArg (fun y => some (Instr.imad y)) (readV3_raw _ x)
theorem ReadBack.lop3 (x : OpLop3) : ReadBack.Statement (.lop3 x) := fun r h => by
  cases h; exact congrArg (fun y => some (Instr.lop3 y)) (readLop3_raw _ x)
theorem ReadBack.bfext (x : OpBfext) : ReadBack.Statement (.bfext x) := fun r h => by
  cases h; exact congrArg (fun y => some (Instr.bfext y)) (readBfext_raw _ x)
theorem ReadBack.bfins (x : OpBfins) : ReadBack.Statement (.bfins x) := fun r h => by
  cases h; exact congrArg (fun y => some (Instr.bfins y)) (readBfins_raw _ x)
theorem ReadBack.sel (x : OpSel) : ReadBack.Statement (.sel x) := fun r h => by
  cases h; exact congrArg (fun y => some (Instr.sel y)) (readSel_raw _ x)
theorem ReadBack.ascale (x : OpAscale) : ReadBack.Statement (.ascale x) := fun r h => by
  cases h; exact congrArg (fun y => some (Instr.ascale y)) (readAscale_raw _ x)
theorem ReadBack.rng (x : OpRng) : ReadBack.Statement (.rng x) := fun r h => by
  cases h; exact congrArg (fun y => some (Instr.rng y)) (readRng_raw _ x)
theorem ReadBack.movi12 (x : OpMovi12) : ReadBack.Statement (.movi12 x) := fun r h => by
  cases h; exact congrArg (fun y => some (Instr.movi12 y)) (readMovi12_raw _ x)
theorem ReadBack.movi16 (x : OpMovi16) : ReadBack.Statement (.movi16 x) := fun r h => by
  cases h; exact congrArg (fun y => some (Instr.movi16 y)) (readMovi16_raw _ x)
theorem ReadBack.vote (x : OpVote) : ReadBack.Statement (.vote x) := fun r h => by
  cases h; exact congrArg (fun y => some (Instr.vote y)) (readVote_raw _ x)
theorem ReadBack.perm (x : OpV8) : ReadBack.Statement (.perm x) := fun r h => by
  cases h; exact congrArg (fun y => some (Instr.perm y)) (readV8_raw _ x)
theorem ReadBack.vtos (x : OpVtos) : ReadBack.Statement (.vtos x) := fun r h => by
  cases h; exact congrArg (fun y => some (Instr.vtos y)) (readVtos_raw _ x)
theorem ReadBack.sadd8 (x : OpS8) : ReadBack.Statement (.sadd8 x) := fun r h => by
  cases h; exact congrArg (fun y => some (Instr.sadd8 y)) (readS8_raw _ x)
theorem ReadBack.sadd12 (x : OpS12) : ReadBack.Statement (.sadd12 x) := fun r h => by
  cases h; exact congrArg (fun y => some (Instr.sadd12 y)) (readS12_raw _ x)
theorem ReadBack.ssub8 (x : OpS8) : ReadBack.Statement (.ssub8 x) := fun r h => by
  cases h; exact congrArg (fun y => some (Instr.ssub8 y)) (readS8_raw _ x)
theorem ReadBack.ssub12 (x : OpS12) : ReadBack.Statement (.ssub12 x) := fun r h => by
  cases h; exact congrArg (fun y => some (Instr.ssub12 y)) (readS12_raw _ x)
theorem ReadBack.smul8 (x : OpS8) : ReadBack.Statement (.smul8 x) := fun r h => by
  cases h; exact congrArg (fun y => some (Instr.smul8 y)) (readS8_raw _ x)
theorem ReadBack.smul12 (x : OpS12) : ReadBack.Statement (.smul12 x) := fun r h => by
  cases h; exact congrArg (fun y => some (Instr.smul12 y)) (readS12_raw _ x)
theorem ReadBack.sshl8 (x : OpS8) : ReadBack.Statement (.sshl8 x) := fun r h => by
  cases h; exact congrArg (fun y => some (Instr.sshl8 y)) (readS8_raw _ x)
theorem ReadBack.sshl12 (x : OpS12) : ReadBack.Statement (.sshl12 x) := fun r h => by
  cases h; exact congrArg (fun y => some (Instr.sshl12 y)) (readS12_raw _ x)
theorem ReadBack.sshr8 (x : OpS8) : ReadBack.Statement (.sshr8 x) := fun r h => by
  cases h; exact congrArg (fun y => some (Instr.sshr8 y)) (readS8_raw _ x)
theorem ReadBack.sshr12 (x : OpS12) : ReadBack.Statement (.sshr12 x) := fun r h => by
  cases h; exact congrArg (fun y => some (Instr.sshr12 y)) (readS12_raw _ x)
theorem ReadBack.sand8 (x : OpS8) : ReadBack.Statement (.sand8 x) := fun r h => by
  cases h; exact congrArg (fun y => some (Instr.sand8 y)) (readS8_raw _ x)
theorem ReadBack.sand12 (x : OpS12) : ReadBack.Statement (.sand12 x) := fun r h => by
  cases h; exact congrArg (fun y => some (Instr.sand12 y)) (readS12_raw _ x)
theorem ReadBack.sor8 (x : OpS8) : ReadBack.Statement (.sor8 x) := fun r h => by
  cases h; exact congrArg (fun y => some (Instr.sor8 y)) (readS8_raw _ x)
theorem ReadBack.sor12 (x : OpS12) : ReadBack.Statement (.sor12 x) := fun r h => by
  cases h; exact congrArg (fun y => some (Instr.sor12 y)) (readS12_raw _ x)
theorem ReadBack.sxor8 (x : OpS8) : ReadBack.Statement (.sxor8 x) := fun r h => by
  cases h; exact congrArg (fun y => some (Instr.sxor8 y)) (readS8_raw _ x)
theorem ReadBack.sxor12 (x : OpS12) : ReadBack.Statement (.sxor12 x) := fun r h => by
  cases h; exact congrArg (fun y => some (Instr.sxor12 y)) (readS12_raw _ x)
theorem ReadBack.scmp8 (x : OpCmp8) : ReadBack.Statement (.scmp8 x) := fun r h => by
  cases h; exact congrArg (fun y => some (Instr.scmp8 y)) (readCmp8_raw _ x)
theorem ReadBack.scmp12 (x : OpCmp12) : ReadBack.Statement (.scmp12 x) := fun r h => by
  cases h; exact congrArg (fun y => some (Instr.scmp12 y)) (readCmp12_raw _ x)
theorem ReadBack.smin8 (x : OpS8) : ReadBack.Statement (.smin8 x) := fun r h => by
  cases h; exact congrArg (fun y => some (Instr.smin8 y)) (readS8_raw _ x)
theorem ReadBack.smin12 (x : OpS12) : ReadBack.Statement (.smin12 x) := fun r h => by
  cases h; exact congrArg (fun y => some (Instr.smin12 y)) (readS12_raw _ x)
theorem ReadBack.smax8 (x : OpS8) : ReadBack.Statement (.smax8 x) := fun r h => by
  cases h; exact congrArg (fun y => some (Instr.smax8 y)) (readS8_raw _ x)
theorem ReadBack.smax12 (x : OpS12) : ReadBack.Statement (.smax12 x) := fun r h => by
  cases h; exact congrArg (fun y => some (Instr.smax12 y)) (readS12_raw _ x)
theorem ReadBack.smov8 (x : OpDA) : ReadBack.Statement (.smov8 x) := fun r h => by
  cases h; exact congrArg (fun y => some (Instr.smov8 y)) (readDA_raw _ x)
theorem ReadBack.smov12 (x : OpSmov12) : ReadBack.Statement (.smov12 x) := fun r h => by
  cases h; exact congrArg (fun y => some (Instr.smov12 y)) (readSmov12_raw _ x)
theorem ReadBack.smov16 (x : OpSmov16) : ReadBack.Statement (.smov16 x) := fun r h => by
  cases h; exact congrArg (fun y => some (Instr.smov16 y)) (readSmov16_raw _ x)
theorem ReadBack.fadd (x : OpF2) : ReadBack.Statement (.fadd x) := fun r h => by
  cases h; exact congrArg (fun y => some (Instr.fadd y)) (readF2_raw _ x)
theorem ReadBack.fsub (x : OpF2) : ReadBack.Statement (.fsub x) := fun r h => by
  cases h; exact congrArg (fun y => some (Instr.fsub y)) (readF2_raw _ x)
theorem ReadBack.fmul (x : OpF2) : ReadBack.Statement (.fmul x) := fun r h => by
  cases h; exact congrArg (fun y => some (Instr.fmul y)) (readF2_raw _ x)
theorem ReadBack.ffma (x : OpF3) : ReadBack.Statement (.ffma x) := fun r h => by
  cases h; exact congrArg (fun y => some (Instr.ffma y)) (readF3_raw _ x)
theorem ReadBack.ffms (x : OpF3) : ReadBack.Statement (.ffms x) := fun r h => by
  cases h; exact congrArg (fun y => some (Instr.ffms y)) (readF3_raw _ x)
theorem ReadBack.fnfma (x : OpF3) : ReadBack.Statement (.fnfma x) := fun r h => by
  cases h; exact congrArg (fun y => some (Instr.fnfma y)) (readF3_raw _ x)
theorem ReadBack.fmin (x : OpF2) : ReadBack.Statement (.fmin x) := fun r h => by
  cases h; exact congrArg (fun y => some (Instr.fmin y)) (readF2_raw _ x)
theorem ReadBack.fmax (x : OpF2) : ReadBack.Statement (.fmax x) := fun r h => by
  cases h; exact congrArg (fun y => some (Instr.fmax y)) (readF2_raw _ x)
theorem ReadBack.fabs (x : OpF1) : ReadBack.Statement (.fabs x) := fun r h => by
  cases h; exact congrArg (fun y => some (Instr.fabs y)) (readF1_raw _ x)
theorem ReadBack.fneg (x : OpF1) : ReadBack.Statement (.fneg x) := fun r h => by
  cases h; exact congrArg (fun y => some (Instr.fneg y)) (readF1_raw _ x)
theorem ReadBack.fcmp (x : OpFcmp) : ReadBack.Statement (.fcmp x) := fun r h => by
  cases h; exact congrArg (fun y => some (Instr.fcmp y)) (readFcmp_raw _ x)
theorem ReadBack.fclass (x : OpF1) : ReadBack.Statement (.fclass x) := fun r h => by
  cases h; exact congrArg (fun y => some (Instr.fclass y)) (readF1_raw _ x)
theorem ReadBack.fscale (x : OpF2) : ReadBack.Statement (.fscale x) := fun r h => by
  cases h; exact congrArg (fun y => some (Instr.fscale y)) (readF2_raw _ x)
theorem ReadBack.fcpsgn (x : OpF2) : ReadBack.Statement (.fcpsgn x) := fun r h => by
  cases h; exact congrArg (fun y => some (Instr.fcpsgn y)) (readF2_raw _ x)
theorem ReadBack.frint (x : OpF1) : ReadBack.Statement (.frint x) := fun r h => by
  cases h; exact congrArg (fun y => some (Instr.frint y)) (readF1_raw _ x)
theorem ReadBack.frcp (x : OpF1) : ReadBack.Statement (.frcp x) := fun r h => by
  cases h; exact congrArg (fun y => some (Instr.frcp y)) (readF1_raw _ x)
theorem ReadBack.frsqrt (x : OpF1) : ReadBack.Statement (.frsqrt x) := fun r h => by
  cases h; exact congrArg (fun y => some (Instr.frsqrt y)) (readF1_raw _ x)
theorem ReadBack.fsqrt (x : OpF1) : ReadBack.Statement (.fsqrt x) := fun r h => by
  cases h; exact congrArg (fun y => some (Instr.fsqrt y)) (readF1_raw _ x)
theorem ReadBack.fexp2 (x : OpF1) : ReadBack.Statement (.fexp2 x) := fun r h => by
  cases h; exact congrArg (fun y => some (Instr.fexp2 y)) (readF1_raw _ x)
theorem ReadBack.flog2 (x : OpF1) : ReadBack.Statement (.flog2 x) := fun r h => by
  cases h; exact congrArg (fun y => some (Instr.flog2 y)) (readF1_raw _ x)
theorem ReadBack.fsin (x : OpF1) : ReadBack.Statement (.fsin x) := fun r h => by
  cases h; exact congrArg (fun y => some (Instr.fsin y)) (readF1_raw _ x)
theorem ReadBack.fcos (x : OpF1) : ReadBack.Statement (.fcos x) := fun r h => by
  cases h; exact congrArg (fun y => some (Instr.fcos y)) (readF1_raw _ x)
theorem ReadBack.fsum (x : OpF1) : ReadBack.Statement (.fsum x) := fun r h => by
  cases h; exact congrArg (fun y => some (Instr.fsum y)) (readF1_raw _ x)
theorem ReadBack.flmax (x : OpF1) : ReadBack.Statement (.flmax x) := fun r h => by
  cases h; exact congrArg (fun y => some (Instr.flmax y)) (readF1_raw _ x)
theorem ReadBack.flmin (x : OpF1) : ReadBack.Statement (.flmin x) := fun r h => by
  cases h; exact congrArg (fun y => some (Instr.flmin y)) (readF1_raw _ x)
theorem ReadBack.cvt (x : OpCvt) : ReadBack.Statement (.cvt x) := fun r h => by
  cases h; exact congrArg (fun y => some (Instr.cvt y)) (readCvt_raw _ x)
theorem ReadBack.pack (x : OpPack) : ReadBack.Statement (.pack x) := fun r h => by
  cases h; exact congrArg (fun y => some (Instr.pack y)) (readPack_raw _ x)
theorem ReadBack.unpack (x : OpUnpack) : ReadBack.Statement (.unpack x) := fun r h => by
  cases h; exact congrArg (fun y => some (Instr.unpack y)) (readUnpack_raw _ x)
theorem ReadBack.scapply (x : OpScapply) : ReadBack.Statement (.scapply x) := fun r h => by
  cases h; exact congrArg (fun y => some (Instr.scapply y)) (readScapply_raw _ x)
theorem ReadBack.bpext (x : OpBpext) : ReadBack.Statement (.bpext x) := fun r h => by
  cases h; exact congrArg (fun y => some (Instr.bpext y)) (readBpext_raw _ x)
theorem ReadBack.pk2 (x : OpPk2) : ReadBack.Statement (.pk2 x) := fun r h => by
  cases h; exact congrArg (fun y => some (Instr.pk2 y)) (readPk2_raw _ x)
theorem ReadBack.upk2 (x : OpUpk2) : ReadBack.Statement (.upk2 x) := fun r h => by
  cases h; exact congrArg (fun y => some (Instr.upk2 y)) (readUpk2_raw _ x)
theorem ReadBack.scfind (x : OpScfind) : ReadBack.Statement (.scfind x) := fun r h => by
  cases h; exact congrArg (fun y => some (Instr.scfind y)) (readScfind_raw _ x)
theorem ReadBack.ld8 (x : OpLd8) : ReadBack.Statement (.ld8 x) := fun r h => by
  cases h; exact congrArg (fun y => some (Instr.ld8 y)) (readLd8_raw _ x)
theorem ReadBack.ld12 (x : OpLd12) : ReadBack.Statement (.ld12 x) := fun r h => by
  cases h; exact congrArg (fun y => some (Instr.ld12 y)) (readLd12_raw _ x)
theorem ReadBack.ld16 (x : OpLd16) : ReadBack.Statement (.ld16 x) := fun r h => by
  cases h; exact congrArg (fun y => some (Instr.ld16 y)) (readLd16_raw _ x)
theorem ReadBack.lds8 (x : OpLd8) : ReadBack.Statement (.lds8 x) := fun r h => by
  cases h; exact congrArg (fun y => some (Instr.lds8 y)) (readLd8_raw _ x)
theorem ReadBack.lds12 (x : OpLd12) : ReadBack.Statement (.lds12 x) := fun r h => by
  cases h; exact congrArg (fun y => some (Instr.lds12 y)) (readLd12_raw _ x)
theorem ReadBack.lds16 (x : OpLd16) : ReadBack.Statement (.lds16 x) := fun r h => by
  cases h; exact congrArg (fun y => some (Instr.lds16 y)) (readLd16_raw _ x)
theorem ReadBack.ldr8 (x : OpLd8) : ReadBack.Statement (.ldr8 x) := fun r h => by
  cases h; exact congrArg (fun y => some (Instr.ldr8 y)) (readLd8_raw _ x)
theorem ReadBack.ldr12 (x : OpLd12) : ReadBack.Statement (.ldr12 x) := fun r h => by
  cases h; exact congrArg (fun y => some (Instr.ldr12 y)) (readLd12_raw _ x)
theorem ReadBack.ldr16 (x : OpLd16) : ReadBack.Statement (.ldr16 x) := fun r h => by
  cases h; exact congrArg (fun y => some (Instr.ldr16 y)) (readLd16_raw _ x)
theorem ReadBack.ldc8 (x : OpLd8) : ReadBack.Statement (.ldc8 x) := fun r h => by
  cases h; exact congrArg (fun y => some (Instr.ldc8 y)) (readLd8_raw _ x)
theorem ReadBack.ldc12 (x : OpLd12) : ReadBack.Statement (.ldc12 x) := fun r h => by
  cases h; exact congrArg (fun y => some (Instr.ldc12 y)) (readLd12_raw _ x)
theorem ReadBack.ldc16 (x : OpLd16) : ReadBack.Statement (.ldc16 x) := fun r h => by
  cases h; exact congrArg (fun y => some (Instr.ldc16 y)) (readLd16_raw _ x)
theorem ReadBack.ldblk8 (x : OpLdblk8) : ReadBack.Statement (.ldblk8 x) := fun r h => by
  cases h; exact congrArg (fun y => some (Instr.ldblk8 y)) (readLdblk8_raw _ x)
theorem ReadBack.ldblk12 (x : OpLdblk12) : ReadBack.Statement (.ldblk12 x) := fun r h => by
  cases h; exact congrArg (fun y => some (Instr.ldblk12 y)) (readLdblk12_raw _ x)
theorem ReadBack.ldblk16 (x : OpLdblk16) : ReadBack.Statement (.ldblk16 x) := fun r h => by
  cases h; exact congrArg (fun y => some (Instr.ldblk16 y)) (readLdblk16_raw _ x)
theorem ReadBack.ldsc8 (x : OpLdsc8) : ReadBack.Statement (.ldsc8 x) := fun r h => by
  cases h; exact congrArg (fun y => some (Instr.ldsc8 y)) (readLdsc8_raw _ x)
theorem ReadBack.ldsc12 (x : OpLdsc12) : ReadBack.Statement (.ldsc12 x) := fun r h => by
  cases h; exact congrArg (fun y => some (Instr.ldsc12 y)) (readLdsc12_raw _ x)
theorem ReadBack.ldsc16 (x : OpLdsc16) : ReadBack.Statement (.ldsc16 x) := fun r h => by
  cases h; exact congrArg (fun y => some (Instr.ldsc16 y)) (readLdsc16_raw _ x)
theorem ReadBack.st8 (x : OpSt8) : ReadBack.Statement (.st8 x) := fun r h => by
  cases h; exact congrArg (fun y => some (Instr.st8 y)) (readSt8_raw _ x)
theorem ReadBack.st12 (x : OpSt12) : ReadBack.Statement (.st12 x) := fun r h => by
  cases h; exact congrArg (fun y => some (Instr.st12 y)) (readSt12_raw _ x)
theorem ReadBack.st16 (x : OpSt16) : ReadBack.Statement (.st16 x) := fun r h => by
  cases h; exact congrArg (fun y => some (Instr.st16 y)) (readSt16_raw _ x)
theorem ReadBack.sts8 (x : OpSt8) : ReadBack.Statement (.sts8 x) := fun r h => by
  cases h; exact congrArg (fun y => some (Instr.sts8 y)) (readSt8_raw _ x)
theorem ReadBack.sts12 (x : OpSt12) : ReadBack.Statement (.sts12 x) := fun r h => by
  cases h; exact congrArg (fun y => some (Instr.sts12 y)) (readSt12_raw _ x)
theorem ReadBack.sts16 (x : OpSt16) : ReadBack.Statement (.sts16 x) := fun r h => by
  cases h; exact congrArg (fun y => some (Instr.sts16 y)) (readSt16_raw _ x)
theorem ReadBack.str8 (x : OpSt8) : ReadBack.Statement (.str8 x) := fun r h => by
  cases h; exact congrArg (fun y => some (Instr.str8 y)) (readSt8_raw _ x)
theorem ReadBack.str12 (x : OpSt12) : ReadBack.Statement (.str12 x) := fun r h => by
  cases h; exact congrArg (fun y => some (Instr.str12 y)) (readSt12_raw _ x)
theorem ReadBack.str16 (x : OpSt16) : ReadBack.Statement (.str16 x) := fun r h => by
  cases h; exact congrArg (fun y => some (Instr.str16 y)) (readSt16_raw _ x)
theorem ReadBack.stblk8 (x : OpStblk8) : ReadBack.Statement (.stblk8 x) := fun r h => by
  cases h; exact congrArg (fun y => some (Instr.stblk8 y)) (readStblk8_raw _ x)
theorem ReadBack.stblk12 (x : OpStblk12) : ReadBack.Statement (.stblk12 x) := fun r h => by
  cases h; exact congrArg (fun y => some (Instr.stblk12 y)) (readStblk12_raw _ x)
theorem ReadBack.stblk16 (x : OpStblk16) : ReadBack.Statement (.stblk16 x) := fun r h => by
  cases h; exact congrArg (fun y => some (Instr.stblk16 y)) (readStblk16_raw _ x)
theorem ReadBack.stsc8 (x : OpSt8) : ReadBack.Statement (.stsc8 x) := fun r h => by
  cases h; exact congrArg (fun y => some (Instr.stsc8 y)) (readSt8_raw _ x)
theorem ReadBack.stsc12 (x : OpStsc12) : ReadBack.Statement (.stsc12 x) := fun r h => by
  cases h; exact congrArg (fun y => some (Instr.stsc12 y)) (readStsc12_raw _ x)
theorem ReadBack.stsc16 (x : OpStsc16) : ReadBack.Statement (.stsc16 x) := fun r h => by
  cases h; exact congrArg (fun y => some (Instr.stsc16 y)) (readStsc16_raw _ x)
theorem ReadBack.ldacc (x : OpLdacc) : ReadBack.Statement (.ldacc x) := fun r h => by
  cases h; exact congrArg (fun y => some (Instr.ldacc y)) (readLdacc_raw _ x)
theorem ReadBack.stacc (x : OpStacc) : ReadBack.Statement (.stacc x) := fun r h => by
  cases h; exact congrArg (fun y => some (Instr.stacc y)) (readStacc_raw _ x)
theorem ReadBack.copy (x : OpCopy) : ReadBack.Statement (.copy x) := fun r h => by
  cases h; exact congrArg (fun y => some (Instr.copy y)) (readCopy_raw _ x)
theorem ReadBack.publish (x : OpAB) : ReadBack.Statement (.publish x) := fun r h => by
  cases h; exact congrArg (fun y => some (Instr.publish y)) (readAB_raw _ x)
theorem ReadBack.vseal (x : OpA) : ReadBack.Statement (.vseal x) := fun r h => by
  cases h; exact congrArg (fun y => some (Instr.vseal y)) (readA_raw _ x)
theorem ReadBack.vunseal (x : OpA) : ReadBack.Statement (.vunseal x) := fun r h => by
  cases h; exact congrArg (fun y => some (Instr.vunseal y)) (readA_raw _ x)
theorem ReadBack.flush8 (x : OpA) : ReadBack.Statement (.flush8 x) := fun r h => by
  cases h; exact congrArg (fun y => some (Instr.flush8 y)) (readA_raw _ x)
theorem ReadBack.flush12 (x : OpLines12) : ReadBack.Statement (.flush12 x) := fun r h => by
  cases h; exact congrArg (fun y => some (Instr.flush12 y)) (readLines12_raw _ x)
theorem ReadBack.inval8 (x : OpA) : ReadBack.Statement (.inval8 x) := fun r h => by
  cases h; exact congrArg (fun y => some (Instr.inval8 y)) (readA_raw _ x)
theorem ReadBack.inval12 (x : OpLines12) : ReadBack.Statement (.inval12 x) := fun r h => by
  cases h; exact congrArg (fun y => some (Instr.inval12 y)) (readLines12_raw _ x)
theorem ReadBack.pref8 (x : OpPref8) : ReadBack.Statement (.pref8 x) := fun r h => by
  cases h; exact congrArg (fun y => some (Instr.pref8 y)) (readPref8_raw _ x)
theorem ReadBack.pref12 (x : OpPref12) : ReadBack.Statement (.pref12 x) := fun r h => by
  cases h; exact congrArg (fun y => some (Instr.pref12 y)) (readPref12_raw _ x)
theorem ReadBack.atom8 (x : OpAtom8 AtomOp) : ReadBack.Statement (.atom8 x) := fun r h => by
  cases h; exact congrArg (fun y => some (Instr.atom8 y)) (readAtom8_raw _ _ AtomOp.ofCode_code _ x)
theorem ReadBack.atom12 (x : OpAtom12 AtomOp) : ReadBack.Statement (.atom12 x) := fun r h => by
  cases h; exact congrArg (fun y => some (Instr.atom12 y)) (readAtom12_raw _ _ AtomOp.ofCode_code _ x)
theorem ReadBack.atom16 (x : OpAtom16 AtomOp) : ReadBack.Statement (.atom16 x) := fun r h => by
  cases h; exact congrArg (fun y => some (Instr.atom16 y)) (readAtom16_raw _ _ AtomOp.ofCode_code _ x)
theorem ReadBack.atomf8 (x : OpAtom8 AtomfOp) : ReadBack.Statement (.atomf8 x) := fun r h => by
  cases h; exact congrArg (fun y => some (Instr.atomf8 y)) (readAtom8_raw _ _ AtomfOp.ofCode_code _ x)
theorem ReadBack.atomf12 (x : OpAtom12 AtomfOp) : ReadBack.Statement (.atomf12 x) := fun r h => by
  cases h; exact congrArg (fun y => some (Instr.atomf12 y)) (readAtom12_raw _ _ AtomfOp.ofCode_code _ x)
theorem ReadBack.atomf16 (x : OpAtom16 AtomfOp) : ReadBack.Statement (.atomf16 x) := fun r h => by
  cases h; exact congrArg (fun y => some (Instr.atomf16 y)) (readAtom16_raw _ _ AtomfOp.ofCode_code _ x)
theorem ReadBack.atomcas12 (x : OpAtom12 CasOp) : ReadBack.Statement (.atomcas12 x) := fun r h => by
  cases h; exact congrArg (fun y => some (Instr.atomcas12 y)) (readAtom12_raw _ _ CasOp.ofCode_code _ x)
theorem ReadBack.atomcas16 (x : OpAtom16 CasOp) : ReadBack.Statement (.atomcas16 x) := fun r h => by
  cases h; exact congrArg (fun y => some (Instr.atomcas16 y)) (readAtom16_raw _ _ CasOp.ofCode_code _ x)
theorem ReadBack.red8 (x : OpRed8 AtomOp) : ReadBack.Statement (.red8 x) := fun r h => by
  cases h; exact congrArg (fun y => some (Instr.red8 y)) (readRed8_raw _ _ AtomOp.ofCode_code _ x)
theorem ReadBack.red12 (x : OpRed12 AtomOp) : ReadBack.Statement (.red12 x) := fun r h => by
  cases h; exact congrArg (fun y => some (Instr.red12 y)) (readRed12_raw _ _ AtomOp.ofCode_code _ x)
theorem ReadBack.red16 (x : OpRed16 AtomOp) : ReadBack.Statement (.red16 x) := fun r h => by
  cases h; exact congrArg (fun y => some (Instr.red16 y)) (readRed16_raw _ _ AtomOp.ofCode_code _ x)
theorem ReadBack.redf8 (x : OpRed8 AtomfOp) : ReadBack.Statement (.redf8 x) := fun r h => by
  cases h; exact congrArg (fun y => some (Instr.redf8 y)) (readRed8_raw _ _ AtomfOp.ofCode_code _ x)
theorem ReadBack.redf12 (x : OpRed12 AtomfOp) : ReadBack.Statement (.redf12 x) := fun r h => by
  cases h; exact congrArg (fun y => some (Instr.redf12 y)) (readRed12_raw _ _ AtomfOp.ofCode_code _ x)
theorem ReadBack.redf16 (x : OpRed16 AtomfOp) : ReadBack.Statement (.redf16 x) := fun r h => by
  cases h; exact congrArg (fun y => some (Instr.redf16 y)) (readRed16_raw _ _ AtomfOp.ofCode_code _ x)
theorem ReadBack.fence (x : OpFence) : ReadBack.Statement (.fence x) := fun r h => by
  cases h; exact congrArg (fun y => some (Instr.fence y)) (readFence_raw _ x)
theorem ReadBack.mma (x : OpMma) : ReadBack.Statement (.mma x) := fun r h => by
  cases h; exact congrArg (fun y => some (Instr.mma y)) (readMma_raw _ x)
theorem ReadBack.mmac (x : OpMmac) : ReadBack.Statement (.mmac x) := fun r h => by
  cases h; exact congrArg (fun y => some (Instr.mmac y)) (readMmac_raw _ x)
theorem ReadBack.mmap (x : OpMmap) : ReadBack.Statement (.mmap x) := fun r h => by
  cases h; exact congrArg (fun y => some (Instr.mmap y)) (readMmap_raw _ x)
theorem ReadBack.mmas (x : OpMmas) : ReadBack.Statement (.mmas x) := fun r h => by
  cases h; exact congrArg (fun y => some (Instr.mmas y)) (readMmas_raw _ x)
theorem ReadBack.acz (x : OpAcz) : ReadBack.Statement (.acz x) := fun r h => by
  cases h; exact congrArg (fun y => some (Instr.acz y)) (readAcz_raw _ x)
theorem ReadBack.acscl (x : OpAcscl) : ReadBack.Statement (.acscl x) := fun r h => by
  cases h; exact congrArg (fun y => some (Instr.acscl y)) (readAcscl_raw _ x)
theorem ReadBack.accvt (x : OpAccvt) : ReadBack.Statement (.accvt x) := fun r h => by
  cases h; exact congrArg (fun y => some (Instr.accvt y)) (readAccvt_raw _ x)
theorem ReadBack.acrd (x : OpAcrd) : ReadBack.Statement (.acrd x) := fun r h => by
  cases h; exact congrArg (fun y => some (Instr.acrd y)) (readAcrd_raw _ x)
theorem ReadBack.acwr (x : OpAcwr) : ReadBack.Statement (.acwr x) := fun r h => by
  cases h; exact congrArg (fun y => some (Instr.acwr y)) (readAcwr_raw _ x)
theorem ReadBack.frcdec (x : OpFrcdec) : ReadBack.Statement (.frcdec x) := fun r h => by
  cases h; exact congrArg (fun y => some (Instr.frcdec y)) (readFrcdec_raw _ x)
theorem ReadBack.frcenc (x : OpFrcenc) : ReadBack.Statement (.frcenc x) := fun r h => by
  cases h; exact congrArg (fun y => some (Instr.frcenc y)) (readFrcenc_raw _ x)
theorem ReadBack.frchdr (x : OpFrchdr) : ReadBack.Statement (.frchdr x) := fun r h => by
  cases h; exact congrArg (fun y => some (Instr.frchdr y)) (readFrchdr_raw _ x)
theorem ReadBack.expload (x : OpExpload) : ReadBack.Statement (.expload x) := fun r h => by
  cases h; exact congrArg (fun y => some (Instr.expload y)) (readExpload_raw _ x)
theorem ReadBack.pkstatLine (x : OpDA) : ReadBack.Statement (.pkstatLine x) := fun r h => by
  cases h; exact congrArg (fun y => some (Instr.pkstatLine y)) (readPkLine_raw _ x)
theorem ReadBack.pkstatBind (x : OpDAB) : ReadBack.Statement (.pkstatBind x) := fun r h => by
  cases h; exact congrArg (fun y => some (Instr.pkstatBind y)) (readPkBind_raw _ x)
theorem ReadBack.xop8 (x : OpXop8) : ReadBack.Statement (.xop8 x) := fun r h => by
  cases h
  have hn : (rawXop8 x).op.toNat = 248 + x.op.toNat := emulated_op x.op
  have hl : (rawXop8 x).len = .b8 := rfl
  refine Eq.trans ?_ (congrArg (fun y => some (Instr.xop8 y)) (readXop8_raw x))
  unfold Raw.guess
  rw [hn, hl]
  rcases emulated_cases x.op with h | h | h | h | h | h | h | h <;> (rw [h]; rfl)
theorem ReadBack.xop12 (x : OpXop12) : ReadBack.Statement (.xop12 x) := fun r h => by
  cases h
  have hn : (rawXop12 x).op.toNat = 248 + x.op.toNat := emulated_op x.op
  have hl : (rawXop12 x).len = .b12 := rfl
  refine Eq.trans ?_ (congrArg (fun y => some (Instr.xop12 y)) (readXop12_raw x))
  unfold Raw.guess
  rw [hn, hl]
  rcases emulated_cases x.op with h | h | h | h | h | h | h | h <;> (rw [h]; rfl)
theorem ReadBack.xop16 (x : OpXop16) : ReadBack.Statement (.xop16 x) := fun r h => by
  cases h
  have hn : (rawXop16 x).op.toNat = 248 + x.op.toNat := emulated_op x.op
  have hl : (rawXop16 x).len = .b16 := rfl
  refine Eq.trans ?_ (congrArg (fun y => some (Instr.xop16 y)) (readXop16_raw x))
  unfold Raw.guess
  rw [hn, hl]
  rcases emulated_cases x.op with h | h | h | h | h | h | h | h <;> (rw [h]; rfl)
theorem ReadBack.variableLatencyWrite (f : FibreId) (seq : Nat) : ReadBack.Statement (.variableLatencyWrite f seq) := fun _ h => nomatch h
theorem ReadBack.slotHandover (core : Nat) (slot : Nat) : ReadBack.Statement (.slotHandover core slot) := fun _ h => nomatch h
theorem ReadBack.trapEntry (f : FibreId) : ReadBack.Statement (.trapEntry f) := fun _ h => nomatch h
theorem ReadBack.accessPerformed (f : FibreId) : ReadBack.Statement (.accessPerformed f) := fun _ h => nomatch h
theorem ReadBack.rollback (f : FibreId) : ReadBack.Statement (.rollback f) := fun _ h => nomatch h
theorem ReadBack.escalateLevel1 (f : FibreId) : ReadBack.Statement (.escalateLevel1 f) := fun _ h => nomatch h
theorem ReadBack.escalateLevel2 (f : FibreId) : ReadBack.Statement (.escalateLevel2 f) := fun _ h => nomatch h
theorem ReadBack.escalateLevel3 (f : FibreId) : ReadBack.Statement (.escalateLevel3 f) := fun _ h => nomatch h
theorem ReadBack.registerDeadlock (core : Nat) (quad : Nat) : ReadBack.Statement (.registerDeadlock core quad) := fun _ h => nomatch h
theorem ReadBack.acquireStalled (f : FibreId) : ReadBack.Statement (.acquireStalled f) := fun _ h => nomatch h
theorem ReadBack.quantumLimit (f : FibreId) : ReadBack.Statement (.quantumLimit f) := fun _ h => nomatch h
theorem ReadBack.quantumCommit (launchId : Word) : ReadBack.Statement (.quantumCommit launchId) := fun _ h => nomatch h
theorem ReadBack.hruUpdateApply (slice : Nat) : ReadBack.Statement (.hruUpdateApply slice) := fun _ h => nomatch h
theorem ReadBack.copyLanding (core : Nat) (id : Nat) : ReadBack.Statement (.copyLanding core id) := fun _ h => nomatch h
theorem ReadBack.copyTranslationFault (core : Nat) (id : Nat) : ReadBack.Statement (.copyTranslationFault core id) := fun _ h => nomatch h
theorem ReadBack.copyAbandon (core : Nat) (id : Nat) : ReadBack.Statement (.copyAbandon core id) := fun _ h => nomatch h
theorem ReadBack.expanderTableRead (core : Nat) (id : Nat) : ReadBack.Statement (.expanderTableRead core id) := fun _ h => nomatch h
theorem ReadBack.matrixCommandFinish (core : Nat) (id : Nat) : ReadBack.Statement (.matrixCommandFinish core id) := fun _ h => nomatch h
theorem ReadBack.softError (core : Nat) (id : Nat) (chunk : Nat) : ReadBack.Statement (.softError core id chunk) := fun _ h => nomatch h
theorem ReadBack.launchEligibilityCheck (launchId : Word) : ReadBack.Statement (.launchEligibilityCheck launchId) := fun _ h => nomatch h
theorem ReadBack.placeBlock (part : Nat) : ReadBack.Statement (.placeBlock part) := fun _ h => nomatch h
theorem ReadBack.timeSliceExpiry (part : Nat) : ReadBack.Statement (.timeSliceExpiry part) := fun _ h => nomatch h
theorem ReadBack.coreReservation (launchId : Word) : ReadBack.Statement (.coreReservation launchId) := fun _ h => nomatch h
theorem ReadBack.blockWithdrawal (launchId : Word) (stage : Nat) : ReadBack.Statement (.blockWithdrawal launchId stage) := fun _ h => nomatch h
theorem ReadBack.ringTimeInterrupt (part : Nat) (ring : Nat) : ReadBack.Statement (.ringTimeInterrupt part ring) := fun _ h => nomatch h
theorem ReadBack.launchRetryTimeout (part : Nat) : ReadBack.Statement (.launchRetryTimeout part) := fun _ h => nomatch h
theorem ReadBack.pageWalk (core : Nat) (asid : Nat) (vpage : Nat) : ReadBack.Statement (.pageWalk core asid vpage) := fun _ h => nomatch h
theorem ReadBack.directoryEviction (pa : Nat) : ReadBack.Statement (.directoryEviction pa) := fun _ h => nomatch h
theorem ReadBack.sealedDrainComplete (page : Nat) : ReadBack.Statement (.sealedDrainComplete page) := fun _ h => nomatch h
theorem ReadBack.codedBlockEviction (pa : Nat) : ReadBack.Statement (.codedBlockEviction pa) := fun _ h => nomatch h
theorem ReadBack.metadataError (pa : Nat) (retryFails : Bool) : ReadBack.Statement (.metadataError pa retryFails) := fun _ h => nomatch h
theorem ReadBack.uncorrectableError (site : ErrSite) (retryFails : Bool) : ReadBack.Statement (.uncorrectableError site retryFails) := fun _ h => nomatch h
theorem ReadBack.vigilCheck (die : Nat) (first : List (Nat × Permits)) (second : List (Nat × Permits)) : ReadBack.Statement (.vigilCheck die first second) := fun _ h => nomatch h
theorem ReadBack.agentFailure (kind : AgentKind) (num : Nat) : ReadBack.Statement (.agentFailure kind num) := fun _ h => nomatch h
theorem ReadBack.agentRejoin (kind : AgentKind) (num : Nat) : ReadBack.Statement (.agentRejoin kind num) := fun _ h => nomatch h
theorem ReadBack.placerPreemptRequest (launchId : Word) : ReadBack.Statement (.placerPreemptRequest launchId) := fun _ h => nomatch h
theorem ReadBack.drainTimeout (launchId : Word) (stage : Nat) (block : Nat) : ReadBack.Statement (.drainTimeout launchId stage block) := fun _ h => nomatch h
theorem ReadBack.saveStoppingPoint (launchId : Word) (stage : Nat) (block : Nat) : ReadBack.Statement (.saveStoppingPoint launchId stage block) := fun _ h => nomatch h
theorem ReadBack.hostMailboxAccess (acc : HostAcc) : ReadBack.Statement (.hostMailboxAccess acc) := fun _ h => nomatch h
theorem ReadBack.hostHdmHAccess (acc : HostAcc) : ReadBack.Statement (.hostHdmHAccess acc) := fun _ h => nomatch h
theorem ReadBack.lqcfgWrite (part : Nat) (q : BitVec 10) (v : Word) : ReadBack.Statement (.lqcfgWrite part q v) := fun _ h => nomatch h
theorem ReadBack.tlbinvPage (part : Nat) (asid : Nat) : ReadBack.Statement (.tlbinvPage part asid) := fun _ h => nomatch h
theorem ReadBack.tlbinvAsid (part : Nat) (asid : Nat) : ReadBack.Statement (.tlbinvAsid part asid) := fun _ h => nomatch h
theorem ReadBack.tlbinvPartition (part : Nat) : ReadBack.Statement (.tlbinvPartition part) := fun _ h => nomatch h
theorem ReadBack.tlbInvalidationComplete (part : Nat) : ReadBack.Statement (.tlbInvalidationComplete part) := fun _ h => nomatch h
theorem ReadBack.ctxctlHalt (part : Nat) (asid : Nat) : ReadBack.Statement (.ctxctlHalt part asid) := fun _ h => nomatch h
theorem ReadBack.ctxctlClear (part : Nat) (asid : Nat) : ReadBack.Statement (.ctxctlClear part asid) := fun _ h => nomatch h
theorem ReadBack.preemptreqCore (part : Nat) (target : Nat) : ReadBack.Statement (.preemptreqCore part target) := fun _ h => nomatch h
theorem ReadBack.preemptreqAsid (part : Nat) (target : Nat) : ReadBack.Statement (.preemptreqAsid part target) := fun _ h => nomatch h
theorem ReadBack.preemptreqVf (part : Nat) (target : Nat) : ReadBack.Statement (.preemptreqVf part target) := fun _ h => nomatch h
theorem ReadBack.partcfgWrite (v : Word) : ReadBack.Statement (.partcfgWrite v) := fun _ h => nomatch h
theorem ReadBack.devidWrite (v : Word) : ReadBack.Statement (.devidWrite v) := fun _ h => nomatch h
theorem ReadBack.attestRequest (v : Word) : ReadBack.Statement (.attestRequest v) := fun _ h => nomatch h
theorem ReadBack.attestReportComplete : ReadBack.Statement (.attestReportComplete) := fun _ h => nomatch h
theorem ReadBack.repairSleep : ReadBack.Statement (.repairSleep) := fun _ h => nomatch h
theorem ReadBack.deviceWake : ReadBack.Statement (.deviceWake) := fun _ h => nomatch h
theorem ReadBack.repairTakeOut (half : BitVec 3) : ReadBack.Statement (.repairTakeOut half) := fun _ h => nomatch h
theorem ReadBack.repairReturn (half : BitVec 3) : ReadBack.Statement (.repairReturn half) := fun _ h => nomatch h
theorem ReadBack.repairLoadFirmware (half : BitVec 3) (image : BitVec 48) : ReadBack.Statement (.repairLoadFirmware half image) := fun _ h => nomatch h
theorem ReadBack.evringcfgWrite (fn : HostFn) (ring : BitVec 8) (v : Word) : ReadBack.Statement (.evringcfgWrite fn ring v) := fun _ h => nomatch h
theorem ReadBack.evconsWrite (fn : HostFn) (ring : BitVec 8) (v : BitVec 32) : ReadBack.Statement (.evconsWrite fn ring v) := fun _ h => nomatch h
theorem ReadBack.errorCounterWrite (part : Nat) (last : Bool) (v : Word) : ReadBack.Statement (.errorCounterWrite part last v) := fun _ h => nomatch h
theorem ReadBack.registerWrite (fn : HostFn) (r : RegName) (v : Word) : ReadBack.Statement (.registerWrite fn r v) := fun _ h => nomatch h
theorem ReadBack.powerOnReset : ReadBack.Statement (.powerOnReset) := fun _ h => nomatch h
theorem ReadBack.l1Eviction (core : Nat) (pa : Nat) : ReadBack.Statement (.l1Eviction core pa) := fun _ h => nomatch h
theorem ReadBack.homeWriteBack (pa : Nat) : ReadBack.Statement (.homeWriteBack pa) := fun _ h => nomatch h
theorem ReadBack.remoteDeviceAccess (m : RemoteReq) : ReadBack.Statement (.remoteDeviceAccess m) := fun _ h => nomatch h
theorem ReadBack.remoteSealedRecall (m : RecallMsg) : ReadBack.Statement (.remoteSealedRecall m) := fun _ h => nomatch h
theorem ReadBack.peerLostpermit (m : PeerReport) : ReadBack.Statement (.peerLostpermit m) := fun _ h => nomatch h
theorem ReadBack.linkReturnToService (link : Nat) : ReadBack.Statement (.linkReturnToService link) := fun _ h => nomatch h
theorem ReadBack.correctableError (part : Nat) : ReadBack.Statement (.correctableError part) := fun _ h => nomatch h

end Sys2Proof.Laws
end

