-- ==== Sys2Proof/Tests/Slice0.lean ====
section
/-! SUPPORT. Tests of slice 0: words written out from the encoding tables, ill-formed terms, single steps, and a witness for
the hypotheses of every statement. Expected values come from the manual's worked examples and tables. -/

namespace Sys2Proof.Tests
set_option maxRecDepth 20000
open Sys2Proof Sys2Proof.Machine
set_option Elab.async false

/-! ## Words field by field -/

/-- A header field with guard p0. -/
def h0 : Hdr := ⟨0, false, false⟩
/-- Operand fields as the decoder gives them. -/
def v (n : BitVec 7) : Opnd := ⟨0, 0, false, n⟩
def s (n : BitVec 7) : Opnd := ⟨0, 0, true, n⟩
/-- Operand fields as bits (R141): K, KIND, CLASS, NUM. -/
def V (n : BitVec 7) : BitVec 16 := 0b00000#5 ++ 0b000#3 ++ 0b0#1 ++ n
def S (n : BitVec 7) : BitVec 16 := 0b00000#5 ++ 0b000#3 ++ 0b1#1 ++ n

/-- Bits 63 to 2 of a word with G = N = H = 0 (R134, R136). -/
def low (op : BitVec 8) (sub : BitVec 3) (dst : BitVec 7) (sa sb : BitVec 16) (md : BitVec 7) : BitVec 62 :=
  md ++ sb ++ sa ++ dst ++ sub ++ op ++ 0b000#3 ++ 0b0#1 ++ 0b0#1
/-- An 8-byte word. -/
def w8 (op : BitVec 8) (sub : BitVec 3) (dst : BitVec 7) (sa sb : BitVec 16) (md : BitVec 7) : Nat :=
  (low op sub dst sa sb md ++ 0b00#2).toNat
/-- A 12-byte word (R137). -/
def w12 (op : BitVec 8) (sub : BitVec 3) (dst : BitVec 7) (sa sb : BitVec 16) (md : BitVec 7) (sc imm : BitVec 16) : Nat :=
  (imm ++ sc ++ low op sub dst sa sb md ++ 0b01#2).toNat
/-- 16-byte words of layouts W, D and E (R138). -/
def wW (op : BitVec 8) (sub : BitVec 3) (dst : BitVec 7) (sa sb : BitVec 16) (md : BitVec 7) (imm : BitVec 64) : Nat :=
  (imm ++ low op sub dst sa sb md ++ 0b10#2).toNat
def wD (op : BitVec 8) (sub : BitVec 3) (dst : BitVec 7) (sa sb : BitVec 16) (md : BitVec 7) (sc : BitVec 16)
    (disp : BitVec 48) : Nat := (disp ++ sc ++ low op sub dst sa sb md ++ 0b10#2).toNat
def wE (op : BitVec 8) (sub : BitVec 3) (dst : BitVec 7) (sa sb : BitVec 16) (md : BitVec 7) (sc sd : BitVec 16)
    (ctl : BitVec 32) : Nat := (ctl ++ sd ++ sc ++ low op sub dst sa sb md ++ 0b10#2).toNat

/-- Every word of a list decodes to the instruction beside it. -/
def reads (l : List (Nat × Instr)) : Bool := l.all fun p => decodeTableWord 128 p.1 == some p.2

theorem test_decode_control_a : reads [
    (w8 0x00 0 0 0 0 0, .nop8 ⟨h0⟩),
    (w12 0x00 0 0 0 0 0 0 0, .nop12 ⟨h0⟩),
    (w12 0x01 0 0 0 0 0 0 65480, .bra12 ⟨h0, 65480⟩),
    (wW 0x01 0 0 0 0 0 78187493530, .bra16 ⟨h0, 78187493530⟩),
    (w8 0x02 0 0 (S 4) 0 0, .brx ⟨h0, s 4⟩),
    (w12 0x03 0 30 0 0 0 0 90, .call12 ⟨h0, 30, 90⟩),
    (wW 0x03 0 29 0 0 0 196480, .call16 ⟨h0, 29, 196480⟩),
    (w8 0x04 0 30 (S 4) 0 0, .callx ⟨h0, 30, s 4⟩),
    (w8 0x05 0 0 (S 30) 0 0, .ret ⟨h0, s 30⟩),
    (w8 0x06 0 0 0 0 0, .exit ⟨h0⟩),
    (w8 0x07 0 0 0 0 0, .yield ⟨h0⟩),
    (w8 0x08 2 0 0 0 0, .fsw ⟨h0, 2⟩),
    (w8 0x09 2 0 0 0 3, .bar ⟨h0, .block, 3⟩),
    (w8 0x0a 3 0 0 0 3, .barv ⟨h0, .cluster, 3⟩),
    (w8 0x0b 5 0 0 0 3, .barw ⟨h0, .grid, 3⟩),
    (w8 0x0c 0 0 0 0 1, .tkwait ⟨h0, 1⟩),
    (w8 0x0d 0 0 0 0 3, .tkpass ⟨h0, 3⟩),
    (w8 0x0e 1 2 0 0 4, .regacq ⟨h0, true, 2, 4⟩),
    (w8 0x0f 0 0 0 0 0, .regrel ⟨h0⟩),
    (w12 0x10 0 0 0 0 0 0 8328, .win ⟨h0, 8, 1, 1⟩)] = true := by decide
theorem test_decode_control_b : reads [
    (w8 0x11 0 0 (S 4) (S 5) 0, .wline ⟨h0, s 4, s 5⟩),
    (w8 0x12 0 6 (S 7) 0 0, .launch ⟨h0, 6, s 7⟩),
    (w8 0x13 0 0 0 0 0, .qend ⟨h0⟩),
    (w12 0x14 1 0 0 0 0 0 7, .trap ⟨h0, true, 7⟩),
    (w8 0x15 0 0 0 0 0, .rett ⟨h0⟩),
    (w8 0x16 0 3 (V 8) 0 0, .enq ⟨h0, 3, v 8⟩),
    (w8 0x17 0 8 0 0 0, .deq ⟨h0, 8⟩),
    (w8 0x18 3 0 (S 20) 0 0, .emset ⟨h0, .ld, s 20⟩),
    (w8 0x19 0 20 0 0 0, .emget ⟨h0, 20⟩),
    (w12 0x1a 2 0 (V 1) 0 0 0 65534, .bpr12 ⟨h0, .none, v 1, 65534⟩),
    (wW 0x1a 1 0 (V 3) 0 0 64, .bpr16 ⟨h0, .all, v 3, 64⟩),
    (w8 0x1c 0 0 (S 4) 0 0, .icinv ⟨h0, some (s 4)⟩),
    (w8 0x1c 1 0 0 0 0, .icinv ⟨h0, none⟩),
    (w8 0x1e 0 3 0 0 33, .srd ⟨h0, 3, 33⟩),
    (w8 0x1f 0 0 (S 3) 0 25, .swr ⟨h0, s 3, 25⟩)] = true := by decide
theorem test_decode_integer_a : reads [
    (w8 0x20 0 32 (V 33) (S 0) 64, .iadd8 ⟨h0, .i8, true, false, 32, v 33, s 0⟩),
    (w12 0x20 1 34 (V 36) 0 0 0 32800, .iadd12 ⟨h0, .i16, false, false, 34, v 36, 32800⟩),
    (w8 0x21 3 33 (V 34) (S 1) 64, .isub8 ⟨h0, .i64, true, false, 33, v 34, s 1⟩),
    (w12 0x21 6 35 (V 37) 0 0 0 32801, .isub12 ⟨h0, .n32, false, false, 35, v 37, 32801⟩),
    (w8 0x22 6 34 (V 35) (S 2) 64, .imul8 ⟨h0, .n32, true, false, 34, v 35, s 2⟩),
    (w12 0x22 3 36 (V 38) 0 0 0 32802, .imul12 ⟨h0, .i64, false, false, 36, v 38, 32802⟩),
    (w8 0x24 4 36 (V 37) (S 4) 4, .imulhi8 ⟨h0, .n8, false, true, 36, v 37, s 4⟩),
    (w12 0x24 5 38 (V 40) 0 0 0 32804, .imulhi12 ⟨h0, .n16, false, false, 38, v 40, 32804⟩),
    (w8 0x26 2 38 (V 39) (S 6) 4, .imin8 ⟨h0, .i32, false, true, 38, v 39, s 6⟩),
    (w12 0x26 7 40 (V 42) 0 0 0 32806, .imin12 ⟨h0, .n64, false, false, 40, v 42, 32806⟩),
    (w8 0x27 5 39 (V 40) (S 7) 4, .imax8 ⟨h0, .n16, false, true, 39, v 40, s 7⟩),
    (w12 0x27 4 41 (V 43) 0 0 0 32807, .imax12 ⟨h0, .n8, false, false, 41, v 43, 32807⟩),
    (w8 0x28 0 40 (V 41) (S 8) 4, .shl8 ⟨h0, .i8, false, true, 40, v 41, s 8⟩),
    (w12 0x28 1 42 (V 44) 0 0 0 32808, .shl12 ⟨h0, .i16, false, false, 42, v 44, 32808⟩),
    (w8 0x29 3 41 (V 42) (S 9) 4, .shr8 ⟨h0, .i64, false, true, 41, v 42, s 9⟩),
    (w12 0x29 6 43 (V 45) 0 0 0 32809, .shr12 ⟨h0, .n32, false, false, 43, v 45, 32809⟩),
    (w8 0x2a 6 42 (V 43) (S 10) 4, .rot8 ⟨h0, .n32, false, true, 42, v 43, s 10⟩),
    (w12 0x2a 3 44 (V 46) 0 0 0 32810, .rot12 ⟨h0, .i64, false, false, 44, v 46, 32810⟩),
    (w8 0x2b 1 43 (V 44) (S 11) 4, .and8 ⟨h0, .i16, false, true, 43, v 44, s 11⟩),
    (w12 0x2b 0 45 (V 47) 0 0 0 32811, .and12 ⟨h0, .i8, false, false, 45, v 47, 32811⟩)] = true := by decide
theorem test_decode_integer_b : reads [
    (w8 0x2c 4 44 (V 45) (S 12) 4, .or8 ⟨h0, .n8, false, true, 44, v 45, s 12⟩),
    (w12 0x2c 5 46 (V 48) 0 0 0 32812, .or12 ⟨h0, .n16, false, false, 46, v 48, 32812⟩),
    (w8 0x2d 7 45 (V 46) (S 13) 4, .xor8 ⟨h0, .n64, false, true, 45, v 46, s 13⟩),
    (w12 0x2d 2 47 (V 49) 0 0 0 32813, .xor12 ⟨h0, .i32, false, false, 47, v 49, 32813⟩),
    (w8 0x25 1 43 (V 37) 0 0, .iabs ⟨h0, .i16, false, false, 43, v 37⟩),
    (w8 0x2e 2 52 (V 46) 0 0, .vnot ⟨h0, .i32, false, false, 52, v 46⟩),
    (w8 0x32 2 56 (V 50) 0 0, .popc ⟨h0, .i32, false, false, 56, v 50⟩),
    (w8 0x33 3 57 (V 51) 0 0, .clz ⟨h0, .i64, false, false, 57, v 51⟩),
    (w8 0x34 0 58 (V 52) 0 0, .brev ⟨h0, .i8, false, false, 58, v 52⟩),
    (w8 0x37 3 61 (V 55) 0 0, .mov ⟨h0, .i64, false, false, 61, v 55⟩),
    (w8 0x3a 7 16 (S 8) (S 10) 0, .lidx ⟨h0, .n64, false, false, 16, s 8, s 10⟩)] = true := by decide
theorem test_decode_lanes_a : reads [
    (w12 0x23 2 4 (V 1) (V 2) 64 (V 3) 0, .imad ⟨h0, .i32, true, false, 4, v 1, v 2, v 3⟩),
    (w12 0x2f 6 4 (V 1) (V 2) 0 (V 3) 150, .lop3 ⟨h0, .n32, false, 4, v 1, v 2, v 3, 150⟩),
    (w12 0x30 6 5 (V 2) 0 0 0 264, .bfext ⟨h0, .n32, false, 5, v 2, 8, 4⟩),
    (w12 0x31 7 6 (V 2) (V 4) 0 0 127, .bfins ⟨h0, .n64, false, 6, v 2, v 4, 63, 1⟩),
    (w8 0x35 4 2 (V 1) (V 5) 0, .icmp8 ⟨h0, .lo, 2, v 1, v 5⟩),
    (w12 0x35 6 1 (V 7) 0 0 0 3, .icmp12 ⟨h0, .tst, 1, v 7, 3⟩),
    (w12 0x36 2 9 (V 1) (V 2) 4 (V 5) 0, .sel ⟨h0, .i32, true, 9, v 1, v 2, v 5⟩),
    (w12 0x38 1 9 0 0 0 0 32769, .movi12 ⟨h0, .i16, false, 9, 32769⟩),
    (wW 0x38 3 10 0 0 0 9223372036854775809, .movi16 ⟨h0, .i64, false, 10, 9223372036854775809⟩),
    (w8 0x39 0 1 (V 3) 0 0, .vote ⟨h0, .any, 1, v 3⟩),
    (w8 0x39 1 2 (V 3) 0 0, .vote ⟨h0, .all, 2, v 3⟩),
    (w8 0x39 2 31 (V 3) 0 0, .vote ⟨h0, .ballot, 31, v 3⟩),
    (w8 0x39 3 7 (V 3) 0 0, .vote ⟨h0, .uni, 7, v 3⟩),
    (w12 0x3b 6 8 (V 1) (V 2) 0 (S 3) 5, .ascale ⟨h0, false, false, 8, v 1, v 2, s 3, 5⟩),
    (w12 0x3c 7 8 (V 2) (S 3) 0 0 1, .rng ⟨h0, true, false, 8, v 2, s 3, true⟩),
    (w8 0x3d 5 8 (V 2) (V 4) 0, .perm ⟨h0, .n16, false, false, 8, v 2, v 4⟩),
    (w8 0x3e 0 7 (V 1) (V 3) 0, .plop ⟨h0, .and, 7, v 1, v 3⟩),
    (w8 0x3e 1 7 (V 1) (V 3) 0, .plop ⟨h0, .or, 7, v 1, v 3⟩),
    (w8 0x3e 2 7 (V 1) (V 3) 0, .plop ⟨h0, .xor, 7, v 1, v 3⟩),
    (w8 0x3e 3 7 (V 1) (V 3) 0, .plop ⟨h0, .andn, 7, v 1, v 3⟩)] = true := by decide
theorem test_decode_lanes_b : reads [
    (w8 0x3e 4 7 (V 1) (V 3) 0, .plop ⟨h0, .orn, 7, v 1, v 3⟩),
    (w8 0x3e 5 7 (V 1) 0 0, .plop ⟨h0, .not, 7, v 1, v 0⟩),
    (w8 0x3e 6 7 (V 1) 0 0, .plop ⟨h0, .mov, 7, v 1, v 0⟩),
    (w8 0x3f 7 22 (V 2) 0 0, .vtos ⟨h0, .n64, 22, v 2⟩)] = true := by decide
theorem test_decode_scalar_a : reads [
    (w8 0x40 0 0 (S 0) (S 0) 64, .sadd8 ⟨h0, .i8, true, 0, s 0, s 0⟩),
    (w12 0x40 3 5 (S 0) 0 0 0 65520, .sadd12 ⟨h0, .i64, false, 5, s 0, 65520⟩),
    (w8 0x41 1 1 (S 1) (S 1) 64, .ssub8 ⟨h0, .i16, true, 1, s 1, s 1⟩),
    (w12 0x41 4 6 (S 1) 0 0 0 65521, .ssub12 ⟨h0, .n8, false, 6, s 1, 65521⟩),
    (w8 0x42 2 2 (S 2) (S 2) 64, .smul8 ⟨h0, .i32, true, 2, s 2, s 2⟩),
    (w12 0x42 5 7 (S 2) 0 0 0 65522, .smul12 ⟨h0, .n16, false, 7, s 2, 65522⟩),
    (w8 0x43 3 3 (S 3) (S 3) 0, .sshl8 ⟨h0, .i64, false, 3, s 3, s 3⟩),
    (w12 0x43 6 8 (S 3) 0 0 0 65523, .sshl12 ⟨h0, .n32, false, 8, s 3, 65523⟩),
    (w8 0x44 4 4 (S 4) (S 4) 0, .sshr8 ⟨h0, .n8, false, 4, s 4, s 4⟩),
    (w12 0x44 7 9 (S 4) 0 0 0 65524, .sshr12 ⟨h0, .n64, false, 9, s 4, 65524⟩),
    (w8 0x45 5 5 (S 5) (S 5) 0, .sand8 ⟨h0, .n16, false, 5, s 5, s 5⟩),
    (w12 0x45 0 10 (S 5) 0 0 0 65525, .sand12 ⟨h0, .i8, false, 10, s 5, 65525⟩),
    (w8 0x46 6 6 (S 6) (S 6) 0, .sor8 ⟨h0, .n32, false, 6, s 6, s 6⟩),
    (w12 0x46 1 11 (S 6) 0 0 0 65526, .sor12 ⟨h0, .i16, false, 11, s 6, 65526⟩),
    (w8 0x47 7 7 (S 7) (S 7) 0, .sxor8 ⟨h0, .n64, false, 7, s 7, s 7⟩),
    (w12 0x47 2 12 (S 7) 0 0 0 65527, .sxor12 ⟨h0, .i32, false, 12, s 7, 65527⟩),
    (w8 0x4a 2 10 (S 10) (S 2) 0, .smin8 ⟨h0, .i32, false, 10, s 10, s 2⟩),
    (w12 0x4a 5 15 (S 10) 0 0 0 65522, .smin12 ⟨h0, .n16, false, 15, s 10, 65522⟩),
    (w8 0x4b 3 11 (S 11) (S 3) 0, .smax8 ⟨h0, .i64, false, 11, s 11, s 3⟩),
    (w12 0x4b 6 16 (S 11) 0 0 0 65523, .smax12 ⟨h0, .n32, false, 16, s 11, 65523⟩)] = true := by decide
theorem test_decode_scalar_b : reads [
    (w8 0x48 2 1 (S 3) (S 4) 0, .scmp8 ⟨h0, .lt, 1, s 3, s 4⟩),
    (w12 0x48 5 2 (S 3) 0 0 0 9, .scmp12 ⟨h0, .ls, 2, s 3, 9⟩),
    (w8 0x49 0 13 (S 23) 0 0, .smov8 ⟨h0, 13, s 23⟩),
    (w12 0x49 0 13 0 0 0 0 65535, .smov12 ⟨h0, 13, 65535⟩),
    (wW 0x49 0 13 0 0 0 18446744073709551614, .smov16 ⟨h0, 13, 18446744073709551614⟩)] = true := by decide
theorem test_decode_floating_a : reads [
    (w8 0x50 0 80 (V 2) (S 4) 16, .fadd ⟨h0, .f32, .rz, false, 80, v 2, s 4⟩),
    (w8 0x51 1 81 (V 2) (S 4) 32, .fsub ⟨h0, .f64, .ru, false, 81, v 2, s 4⟩),
    (w8 0x52 0 82 (V 2) (S 4) 48, .fmul ⟨h0, .f32, .rd, false, 82, v 2, s 4⟩),
    (w8 0x56 0 86 (V 2) (S 4) 0, .fmin ⟨h0, .f32, .rn, false, 86, v 2, s 4⟩),
    (w8 0x57 1 87 (V 2) (S 4) 0, .fmax ⟨h0, .f64, .rn, false, 87, v 2, s 4⟩),
    (w8 0x5c 0 92 (V 2) (S 4) 16, .fscale ⟨h0, .f32, .rz, false, 92, v 2, s 4⟩),
    (w8 0x5d 1 93 (V 2) (S 4) 0, .fcpsgn ⟨h0, .f64, .rn, false, 93, v 2, s 4⟩),
    (w12 0x53 1 8 (V 2) (V 4) 52 (V 6) 0, .ffma ⟨h0, .f64, .rd, true, 8, v 2, v 4, v 6⟩),
    (w12 0x54 0 8 (V 2) (V 4) 52 (V 6) 0, .ffms ⟨h0, .f32, .rd, true, 8, v 2, v 4, v 6⟩),
    (w12 0x55 1 8 (V 2) (V 4) 52 (V 6) 0, .fnfma ⟨h0, .f64, .rd, true, 8, v 2, v 4, v 6⟩),
    (w8 0x58 0 88 (V 86) 0 0, .fabs ⟨h0, .f32, .rn, false, 88, v 86⟩),
    (w8 0x59 1 89 (V 87) 0 0, .fneg ⟨h0, .f64, .rn, false, 89, v 87⟩),
    (w8 0x5b 1 91 (V 89) 0 0, .fclass ⟨h0, .f64, .rn, false, 91, v 89⟩),
    (w8 0x5e 0 94 (V 92) 0 48, .frint ⟨h0, .f32, .rd, false, 94, v 92⟩),
    (w8 0x60 0 96 (V 94) 0 16, .frcp ⟨h0, .f32, .rz, false, 96, v 94⟩),
    (w8 0x61 1 97 (V 95) 0 0, .frsqrt ⟨h0, .f64, .rn, false, 97, v 95⟩),
    (w8 0x62 0 98 (V 96) 0 32, .fsqrt ⟨h0, .f32, .ru, false, 98, v 96⟩),
    (w8 0x63 1 99 (V 97) 0 0, .fexp2 ⟨h0, .f64, .rn, false, 99, v 97⟩),
    (w8 0x64 0 100 (V 98) 0 0, .flog2 ⟨h0, .f32, .rn, false, 100, v 98⟩),
    (w8 0x65 1 101 (V 99) 0 0, .fsin ⟨h0, .f64, .rn, false, 101, v 99⟩)] = true := by decide
theorem test_decode_floating_b : reads [
    (w8 0x66 0 102 (V 100) 0 0, .fcos ⟨h0, .f32, .rn, false, 102, v 100⟩),
    (w8 0x67 1 103 (V 101) 0 16, .fsum ⟨h0, .f64, .rz, false, 103, v 101⟩),
    (w8 0x68 0 104 (V 102) 0 0, .flmax ⟨h0, .f32, .rn, false, 104, v 102⟩),
    (w8 0x69 1 105 (V 103) 0 0, .flmin ⟨h0, .f64, .rn, false, 105, v 103⟩),
    (w8 0x5a 0 1 (V 2) (V 3) 0, .fcmp ⟨h0, .eq, .f32, 1, v 2, v 3⟩),
    (w8 0x5a 3 1 (V 2) (V 3) 0, .fcmp ⟨h0, .lt, .f64, 1, v 2, v 3⟩),
    (w8 0x5a 4 1 (V 2) (V 3) 0, .fcmp ⟨h0, .le, .f32, 1, v 2, v 3⟩),
    (w8 0x5a 7 1 (V 2) (V 3) 0, .fcmp ⟨h0, .un, .f64, 1, v 2, v 3⟩)] = true := by decide
theorem test_decode_conversion : reads [
    (w12 0x90 0 5 (V 2) 0 64 0 12308, .cvt ⟨h0, .sr, false, false, 5, v 2, 3, 0, .f32, .e4m3⟩),
    (w12 0x90 0 6 (V 2) 0 24 0 19, .cvt ⟨h0, .rz, true, false, 6, v 2, 0, 0, .f32, .bf16⟩),
    (w12 0x91 0 7 (V 1) (V 2) 16 (V 7) 54, .pack ⟨h0, .rz, false, false, 7, v 1, v 2, v 7, 0, 3, .e2m1⟩),
    (w12 0x92 0 10 (V 6) 0 0 0 20, .unpack ⟨h0, false, 10, v 6, 1, .e4m3⟩),
    (w12 0x93 0 9 (V 6) (V 24) 0 0 53, .scapply ⟨h0, false, 9, v 6, v 24, 3, .e5m2⟩),
    (w12 0x94 0 9 (V 6) 0 0 0 9, .bpext ⟨h0, false, 9, v 6, 4, true⟩),
    (w8 0x95 1 7 (V 1) (V 2) 40, .pk2 ⟨h0, true, .ru, true, false, 7, v 1, v 2⟩),
    (w8 0x96 0 12 (V 7) 0 0, .upk2 ⟨h0, false, false, 12, v 7⟩),
    (w12 0x97 0 9 (V 6) 0 0 0 20, .scfind ⟨h0, false, 9, v 6, true, .e4m3⟩)] = true := by decide
theorem test_decode_memory_a : reads [
    (w8 0xb0 6 4 (S 6) 0 1, .ld8 ⟨h0, .n32, .keep, false, 4, s 6⟩),
    (w12 0xb0 1 4 (S 6) 0 6 (V 2) 65520, .ld12 ⟨h0, .i16, .stream, true, 4, s 6, v 2, 65520⟩),
    (wD 0xb0 7 4 (V 6) 0 3 (S 2) 140737488355333, .ld16 ⟨h0, .n64, .nol1, false, 4, v 6, s 2, 140737488355333⟩),
    (w8 0xb2 6 4 (S 6) 0 1, .lds8 ⟨h0, .n32, .keep, false, 4, s 6⟩),
    (w12 0xb2 1 4 (S 6) 0 6 (V 2) 65520, .lds12 ⟨h0, .i16, .stream, true, 4, s 6, v 2, 65520⟩),
    (wD 0xb2 7 4 (V 6) 0 3 (S 2) 140737488355333, .lds16 ⟨h0, .n64, .nol1, false, 4, v 6, s 2, 140737488355333⟩),
    (w8 0xb4 6 4 (S 6) 0 1, .ldr8 ⟨h0, .n32, .keep, false, 4, s 6⟩),
    (w12 0xb4 1 4 (S 6) 0 6 (V 2) 65520, .ldr12 ⟨h0, .i16, .stream, true, 4, s 6, v 2, 65520⟩),
    (wD 0xb4 7 4 (V 6) 0 3 (S 2) 140737488355333, .ldr16 ⟨h0, .n64, .nol1, false, 4, v 6, s 2, 140737488355333⟩),
    (w8 0xb6 6 4 (S 6) 0 1, .ldc8 ⟨h0, .n32, .keep, false, 4, s 6⟩),
    (w12 0xb6 1 4 (S 6) 0 6 (V 2) 65520, .ldc12 ⟨h0, .i16, .stream, true, 4, s 6, v 2, 65520⟩),
    (wD 0xb6 7 4 (V 6) 0 3 (S 2) 140737488355333, .ldc16 ⟨h0, .n64, .nol1, false, 4, v 6, s 2, 140737488355333⟩),
    (w8 0xb1 4 0 (S 6) (V 9) 1, .st8 ⟨h0, .n8, .keep, s 6, v 9⟩),
    (w12 0xb1 2 0 (S 6) (V 9) 0 (V 2) 16, .st12 ⟨h0, .i32, .none, s 6, v 9, v 2, 16⟩),
    (wD 0xb1 3 0 (V 6) (S 9) 0 0 1099511627776, .st16 ⟨h0, .i64, .none, v 6, s 9, v 0, 1099511627776⟩),
    (w8 0xb3 4 0 (S 6) (V 9) 1, .sts8 ⟨h0, .n8, .keep, s 6, v 9⟩),
    (w12 0xb3 2 0 (S 6) (V 9) 0 (V 2) 16, .sts12 ⟨h0, .i32, .none, s 6, v 9, v 2, 16⟩),
    (wD 0xb3 3 0 (V 6) (S 9) 0 0 1099511627776, .sts16 ⟨h0, .i64, .none, v 6, s 9, v 0, 1099511627776⟩),
    (w8 0xb5 4 0 (S 6) (V 9) 1, .str8 ⟨h0, .n8, .keep, s 6, v 9⟩),
    (w12 0xb5 2 0 (S 6) (V 9) 0 (V 2) 16, .str12 ⟨h0, .i32, .none, s 6, v 9, v 2, 16⟩)] = true := by decide
theorem test_decode_memory_b : reads [
    (wD 0xb5 3 0 (V 6) (S 9) 0 0 1099511627776, .str16 ⟨h0, .i64, .none, v 6, s 9, v 0, 1099511627776⟩),
    (w8 0xb7 2 8 (S 3) 0 0, .ldblk8 ⟨h0, .x4, .none, false, 8, s 3⟩),
    (w12 0xb7 3 8 (S 3) 0 0 0 8, .ldblk12 ⟨h0, .x8, .none, false, 8, s 3, 8⟩),
    (wD 0xb7 1 8 (S 3) 0 0 0 9, .ldblk16 ⟨h0, .x2, .none, false, 8, s 3, 9⟩),
    (w8 0xb8 0 0 (S 3) (V 8) 0, .stblk8 ⟨h0, .x1, .none, s 3, v 8⟩),
    (w12 0xb8 1 0 (S 3) (V 8) 0 0 8, .stblk12 ⟨h0, .x2, .none, s 3, v 8, 8⟩),
    (wD 0xb8 3 0 (S 3) (V 8) 0 0 9, .stblk16 ⟨h0, .x8, .none, s 3, v 8, 9⟩),
    (w8 0xb9 7 9 (S 3) 0 0, .ldsc8 ⟨h0, .n64, .none, 9, s 3⟩),
    (w12 0xb9 0 9 (S 3) 0 0 0 1, .ldsc12 ⟨h0, .i8, .none, 9, s 3, 1⟩),
    (wD 0xb9 5 9 (S 3) 0 0 0 2, .ldsc16 ⟨h0, .n16, .none, 9, s 3, 2⟩),
    (w8 0xba 6 0 (S 16) (S 18) 0, .stsc8 ⟨h0, .n32, .none, s 16, s 18⟩),
    (w12 0xba 6 0 (S 16) (S 18) 0 0 4, .stsc12 ⟨h0, .n32, .none, s 16, s 18, 4⟩),
    (wD 0xba 7 0 (S 16) (S 18) 0 0 8, .stsc16 ⟨h0, .n64, .none, s 16, s 18, 8⟩),
    (w12 0xbb 1 3 (S 4) (S 5) 0 0 64, .ldacc ⟨h0, true, .none, 3, s 4, s 5, 64⟩),
    (w12 0xbc 0 0 (S 4) (S 5) 0 0 3, .stacc ⟨h0, false, .none, s 4, s 5, 3⟩),
    (wE 0xbd 0 0 (S 8) (S 14) 0 (S 12) (V 2) 2701131776, .copy ⟨h0, .none, s 8, s 14, s 12, v 2, true, false, true, 0, true, false, 0⟩),
    (wE 0xbd 0 0 (S 8) (S 14) 2 (S 12) 0 1082135092, .copy ⟨h0, .stream, s 8, s 14, s 12, v 0, false, true, false, 0, false, true, 4660⟩),
    (w8 0xbf 0 0 (S 4) 0 0, .vseal ⟨h0, s 4⟩),
    (w8 0xc0 0 0 (S 4) 0 0, .vunseal ⟨h0, s 4⟩),
    (w8 0xc1 0 0 (S 4) 0 0, .flush8 ⟨h0, s 4⟩)] = true := by decide
theorem test_decode_memory_c : reads [
    (w8 0xc2 0 0 (S 4) 0 0, .inval8 ⟨h0, s 4⟩),
    (w8 0xbe 0 0 (S 4) (S 5) 0, .publish ⟨h0, s 4, s 5⟩),
    (w12 0xc1 0 0 (S 4) 0 0 0 16, .flush12 ⟨h0, s 4, 16⟩),
    (w12 0xc2 0 0 (S 4) 0 0 0 16, .inval12 ⟨h0, s 4, 16⟩),
    (w8 0xc3 1 0 (S 4) 0 0, .pref8 ⟨h0, true, .none, s 4⟩),
    (w12 0xc3 0 0 (S 4) 0 1 0 64, .pref12 ⟨h0, false, .keep, s 4, 64⟩)] = true := by decide
theorem test_decode_atomic : reads [
    (w8 0xd0 1 5 (S 6) (V 2) 0, .atom8 ⟨h0, .smin, .none, false, 5, s 6, v 2⟩),
    (w12 0xd0 4 5 (S 6) (V 2) 0 (V 3) 8, .atom12 ⟨h0, .umax, .none, false, 5, s 6, v 2, v 3, 8⟩),
    (wD 0xd0 6 5 (S 6) (V 2) 4 (V 3) 80, .atom16 ⟨h0, .or, .none, true, 5, s 6, v 2, v 3, 80⟩),
    (w8 0xd2 1 5 (S 6) (V 2) 0, .atomf8 ⟨h0, .addF64, .none, false, 5, s 6, v 2⟩),
    (w12 0xd2 4 5 (S 6) (V 2) 0 (V 3) 8, .atomf12 ⟨h0, .minF64, .none, false, 5, s 6, v 2, v 3, 8⟩),
    (wD 0xd2 6 5 (S 6) (V 2) 4 (V 3) 80, .atomf16 ⟨h0, .addN64, .none, true, 5, s 6, v 2, v 3, 80⟩),
    (w12 0xd1 1 8 (V 10) (V 12) 0 (V 14) 16, .atomcas12 ⟨h0, .cas64, .none, false, 8, v 10, v 12, v 14, 16⟩),
    (wD 0xd1 2 8 (V 10) (V 12) 0 0 16, .atomcas16 ⟨h0, .xchg32, .none, false, 8, v 10, v 12, v 0, 16⟩),
    (w8 0xd3 0 0 (S 6) (V 2) 0, .red8 ⟨h0, .add, .none, s 6, v 2⟩),
    (w12 0xd3 3 0 (S 6) (V 2) 0 (V 4) 0, .red12 ⟨h0, .umin, .none, s 6, v 2, v 4, 0⟩),
    (wD 0xd3 5 0 (S 6) (V 2) 0 (V 4) 1, .red16 ⟨h0, .and, .none, s 6, v 2, v 4, 1⟩),
    (w8 0xd4 0 0 (S 6) (V 2) 0, .redf8 ⟨h0, .addF32, .none, s 6, v 2⟩),
    (w12 0xd4 3 0 (S 6) (V 2) 0 (V 4) 0, .redf12 ⟨h0, .maxF32, .none, s 6, v 2, v 4, 0⟩),
    (wD 0xd4 5 0 (S 6) (V 2) 0 (V 4) 1, .redf16 ⟨h0, .maxF64, .none, s 6, v 2, v 4, 1⟩),
    (w8 0xd5 0 0 0 0 16, .fence ⟨h0, .quad⟩),
    (w8 0xd5 0 0 0 0 32, .fence ⟨h0, .core⟩),
    (w8 0xd5 0 0 0 0 48, .fence ⟨h0, .slice⟩),
    (w8 0xd5 0 0 0 0 64, .fence ⟨h0, .stack⟩),
    (w8 0xd5 0 0 0 0 80, .fence ⟨h0, .device⟩)] = true := by decide
theorem test_decode_engine : reads [
    (wE 0xe0 0 2 (V 4) (V 16) 0 (V 5) 0 1140850690, .mma ⟨h0, 2, v 4, v 16, v 5, .e4m3, .e4m3, false, 2⟩),
    (wE 0xe1 0 3 (V 6) (V 40) 0 0 0 16, .mmac ⟨h0, 3, v 6, v 40, true, 0⟩),
    (wE 0xe2 0 0 (V 4) (V 64) 0 (V 5) 0 4194304, .mmap ⟨h0, 0, v 4, v 64, v 5, 4, false, 0⟩),
    (wE 0xe3 0 2 (V 4) (V 16) 0 (V 5) (V 10) 1711276034, .mmas ⟨h0, 2, v 4, v 16, v 5, v 10, .e2m1, .e2m1, false, 2⟩),
    (w8 0xe4 0 3 0 0 0, .acz ⟨h0, 3⟩),
    (w12 0xe5 0 5 (S 4) 0 0 0 2, .acscl ⟨h0, false, 5, s 4, 2⟩),
    (w12 0xe6 0 6 0 0 0 0 2, .accvt ⟨h0, false, 6, 2⟩),
    (w12 0xe7 0 20 0 0 0 0 1141, .acrd ⟨h0, false, 20, true, 7, 5⟩),
    (w12 0xe8 1 1 (V 8) 0 0 0 48, .acwr ⟨h0, true, 1, v 8, false, 3⟩),
    (w12 0xf0 0 8 (V 4) 0 0 0 272, .frcdec ⟨h0, .f32, 8, v 4, 1, 16⟩),
    (w12 0xf1 0 12 (V 8) (V 4) 0 0 1296, .frcenc ⟨h0, .f32, 12, v 8, v 4, true, 1, 16⟩),
    (w8 0xf2 0 5 (V 4) (S 3) 0, .frchdr ⟨h0, 5, v 4, s 3⟩),
    (w12 0xf3 0 0 (S 4) 0 0 0 17, .expload ⟨h0, s 4, 17⟩),
    (w8 0xf4 0 5 (S 4) 0 0, .pkstatLine ⟨h0, 5, s 4⟩),
    (w8 0xf4 1 5 (S 4) (S 6) 0, .pkstatBind ⟨h0, 5, s 4, s 6⟩),
    (w8 0xf9 2 3 (V 1) (V 2) 0, .xop8 ⟨h0, 1, 2, 0, 3, v 1, v 2⟩),
    (w12 0xff 7 127 (V 1) (V 2) 127 (V 3) 43981, .xop12 ⟨h0, 7, 7, 127, 127, v 1, v 2, v 3, 43981⟩),
    (wW 0xf8 0 0 (V 1) (V 2) 0 5, .xop16 ⟨h0, 0, 0, 0, 0, v 1, v 2, 5⟩)] = true := by decide

/-! ## Worked words of the manual, as bytes -/

/-- What bytes decode to, with the rest. -/
def readsBytes (bs : List Byte) (i : Instr) : Bool := match decode bs with
  | .ok (j, []) => j == i && encode i == bs
  | _ => false

/-- 07 R164. -/
theorem test_bytes_bar : readsBytes [0x80, 0x04, 0x01, 0, 0, 0, 0, 0x06] (.bar ⟨h0, .block, 3⟩) = true := by decide
/-- 07 R185. -/
theorem test_bytes_iadd :
    readsBytes [0x01, 0x10, 0x0D, 0x02, 0, 0, 0, 0, 0, 0, 0x64, 0] (.iadd12 ⟨h0, .i32, false, false, 3, v 1, 100⟩) = true := by
  decide
/-- 08 R201. -/
theorem test_bytes_fcmp :
    readsBytes [0x00, 0x2D, 0x05, 0x04, 0, 0x06, 0, 0] (.fcmp ⟨h0, .lt, .f32, 1, v 2, v 3⟩) = true := by decide
/-- 08 R211. -/
theorem test_bytes_cvt :
    readsBytes [0x01, 0x48, 0x14, 0x04, 0, 0, 0, 0x80, 0, 0, 0x14, 0x30]
      (.cvt ⟨h0, .sr, false, false, 5, v 2, 3, 0, .f32, .e4m3⟩) = true := by decide
/-- 10 R249. -/
theorem test_bytes_ld :
    readsBytes [0x01, 0x58, 0x13, 0x0C, 0x01, 0, 0, 0, 0x02, 0, 0x10, 0] (.ld12 ⟨h0, .n32, .none, false, 4, s 6, v 2, 16⟩) = true := by
  decide
/-- 10 R269. -/
theorem test_bytes_red :
    readsBytes [0x80, 0x69, 0x00, 0x0C, 0x01, 0x04, 0, 0] (.red8 ⟨h0, .add, .none, s 6, v 2⟩) = true := by decide
/-- 06, the worked pattern: `?!p2 imin.i32 v6, v2, v2.mirr2`. -/
theorem test_bytes_imin :
    readsBytes [0x28, 0x13, 0x19, 0x04, 0, 0x04, 0x28, 0] (.imin8 ⟨⟨2, true, false⟩, .i32, false, false, 6, v 2, ⟨2, 4, false, 2⟩⟩) = true := by
  decide
/-- 12 R288. -/
theorem test_bytes_frcenc :
    readsBytes [0x81, 0x78, 0x30, 0x10, 0, 0x08, 0, 0, 0, 0, 0x10, 0x05] (.frcenc ⟨h0, .f32, 12, v 8, v 4, true, 1, 16⟩) = true := by
  decide
/-- 14 R309, R311. -/
theorem test_bytes_pkstat :
    readsBytes [0x00, 0xFA, 0x14, 0x08, 0x01, 0x0C, 0x01, 0] (.pkstatBind ⟨h0, 5, s 4, s 6⟩) = true ∧
    readsBytes [0x81, 0x79, 0x00, 0x08, 0x01, 0, 0, 0, 0, 0, 0x11, 0] (.expload ⟨h0, s 4, 17⟩) = true := by decide
/-- 15 R337, R339. -/
theorem test_bytes_matrix :
    readsBytes [0x02, 0x70, 0x08, 0x08, 0, 0x20, 0, 0, 0x05, 0, 0, 0, 0x02, 0, 0, 0x44]
      (.mma ⟨h0, 2, v 4, v 16, v 5, .e4m3, .e4m3, false, 2⟩) = true ∧
    readsBytes [0x81, 0x73, 0x50, 0, 0, 0, 0, 0, 0, 0, 0x75, 0x04] (.acrd ⟨h0, false, 20, true, 7, 5⟩) = true := by decide
/-- 18 R379. -/
theorem test_bytes_special :
    readsBytes [0x00, 0x0F, 0x0C, 0, 0, 0, 0, 0x42] (.srd ⟨h0, 3, 0x21⟩) = true ∧
    readsBytes [0x80, 0x0F, 0x00, 0x08, 0x01, 0, 0, 0x40] (.swr ⟨h0, s 4, 0x20⟩) = true := by decide
/-- `copy` and `hold mov.n32 v9, w0`. -/
theorem test_bytes_copy :
    readsBytes [0x82, 0x5E, 0x00, 0x10, 0x01, 0x1C, 0x01, 0, 0x8C, 0, 0x02, 0, 0, 0, 0, 0xA1]
      (.copy ⟨h0, .none, s 8, s 14, s 12, v 2, true, false, true, 0, true, false, 0⟩) = true ∧
    readsBytes [0x84, 0x1B, 0x27, 0x80, 0x01, 0, 0, 0] (.mov ⟨⟨0, false, true⟩, .n32, false, false, 9, ⟨0, 0, true, 64⟩⟩) = true := by
  decide
/-- 06 R159: `xop 0xF9, 2, 0, v3, v1, v2`. -/
theorem test_word_xop : decodeTableWord 64 0x00000400020D7C80 = some (.xop8 ⟨h0, 1, 2, 0, 3, v 1, v 2⟩) := by decide

/-! ## A word of each family bit by bit -/

/-- `?!p5 isub.n32 v3, v1, s2`: MOD, SB, SA, DST, SUB, OP, G, N, H, L (R134, R136). -/
theorem test_bits_integer : decodeTableWord 64
    (0b0000000#7 ++ 0b0000000010000010#16 ++ 0b0000000000000001#16 ++ 0b0000011#7 ++ 0b110#3 ++ 0b00100001#8 ++ 0b101#3 ++
      0b1#1 ++ 0b0#1 ++ 0b00#2).toNat = some (.isub8 ⟨⟨5, true, false⟩, .n32, false, false, 3, v 1, s 2⟩) := by decide

/-! ## Words that are refused, with their reasons (R155 to R157) -/

/-- Why a word is refused. -/
def refusedFor (w : Nat) (r : Reason) : Bool := match decode (leBytes 16 w) with
  | .error e => e == r
  | .ok _ => false

/-- L = 0b11 (R135). -/
theorem test_refuse_length : refusedFor 3 .noLength = true := by decide
/-- 0x1B is unassigned (R153). -/
theorem test_refuse_opcode : refusedFor (w8 0x1B 0 0 0 0 0) .opcode = true := by decide
/-- `fadd` permits only 8 bytes (06, the worked table). -/
theorem test_refuse_size : refusedFor (w12 0x50 0 3 (V 1) (V 2) 0 0 0) .length = true := by decide
/-- `fadd` with SUB = 2 and RND = 5: SUB first; with SUB = 0: MOD. -/
theorem test_refuse_order : refusedFor (w8 0x50 2 3 (V 1) (V 2) 0x50) .sub = true ∧
    refusedFor (w8 0x50 0 3 (V 1) (V 2) 0x50) .mod = true := by decide
/-- An unused field that is not zero (R140). -/
theorem test_refuse_field : refusedFor (w8 0x06 0 1 0 0 0) .field = true := by decide
/-- `srd` of 0x0B, which R119 does not list. -/
theorem test_refuse_special : refusedFor (w8 0x1E 0 3 0 0 0x0B) .special = true := by decide

/-! ## Ill-formed terms -/

/-- One ill-formed term for each check of WellFormed, and it is refused. -/
theorem test_wf_sub : (Instr.iabs ⟨h0, .n32, false, false, 3, v 1⟩).wf = false := by decide
theorem test_wf_mod :
    [Instr.regacq ⟨h0, false, 0, 0⟩, .regacq ⟨h0, false, 0, 7⟩, .imulhi8 ⟨h0, .i32, true, false, 3, v 1, v 2⟩,
      .shl12 ⟨h0, .i32, true, false, 3, v 1, 2⟩, .popc ⟨h0, .i32, true, false, 3, v 1⟩, .sand8 ⟨h0, .i32, true, 3, s 1, s 2⟩,
      .sshl12 ⟨h0, .i32, true, 3, s 1, 2⟩, .fadd ⟨h0, .f32, .sr, false, 3, v 1, v 2⟩,
      .ffma ⟨h0, .f32, .sr, false, 3, v 1, v 2, v 3⟩, .fmin ⟨h0, .f32, .rz, false, 3, v 1, v 2⟩,
      .fsqrt ⟨h0, .f32, .sr, false, 3, v 1⟩, .fsin ⟨h0, .f32, .rz, false, 3, v 1⟩,
      .cvt ⟨h0, .sr, false, false, 3, v 1, 0, 0, .i32, .f32⟩, .cvt ⟨h0, .rn, true, false, 3, v 1, 0, 0, .f64, .f32⟩,
      .pack ⟨h0, .sr, false, false, 3, v 1, v 2, v 3, 0, 0, .e5m3⟩, .pk2 ⟨h0, false, .sr, false, false, 3, v 1, v 2⟩].all
      (fun i => !i.modOk && !i.wf) = true := by decide
theorem test_wf_field :
    [Instr.regacq ⟨h0, false, 2, 4⟩, .win ⟨h0, 0, 33, 1⟩, .srd ⟨h0, 32, 1⟩, .plop ⟨h0, .not, 1, v 1, v 2⟩,
      .vote ⟨h0, .any, 8, v 1⟩, .bfext ⟨h0, .i32, false, 3, v 1, 0, 0⟩, .bfext ⟨h0, .i32, false, 3, v 1, 30, 3⟩,
      .bfins ⟨h0, .i8, false, 3, v 1, v 2, 0, 9⟩, .cvt ⟨h0, .rn, false, false, 3, v 1, 0, 0, .f32, .f32⟩,
      .cvt ⟨h0, .rn, false, false, 3, v 1, 0, 0, .i32, .i64⟩, .cvt ⟨h0, .rn, false, false, 3, v 1, 0, 2, .f16, .f32⟩,
      .cvt ⟨h0, .rn, false, false, 3, v 1, 1, 0, .f32, .f16⟩, .pack ⟨h0, .rn, false, false, 3, v 1, v 2, v 3, 0, 0, .f32⟩,
      .pack ⟨h0, .rn, false, false, 3, v 1, v 2, v 3, 0, 1, .f16⟩, .unpack ⟨h0, false, 4, v 1, 1, .f16⟩,
      .scapply ⟨h0, false, 3, v 1, v 2, 4, .e4m3⟩, .scapply ⟨h0, false, 3, v 1, v 2, 0, .f16⟩,
      .bpext ⟨h0, false, 3, v 1, 1, true⟩, .bpext ⟨h0, false, 3, v 1, 2, false⟩, .scfind ⟨h0, false, 3, v 1, false, .f16⟩,
      .copy ⟨h0, .none, s 2, s 4, s 6, v 0, false, false, false, 1, false, false, 0⟩,
      .copy ⟨h0, .none, s 2, s 4, s 6, v 0, false, false, false, 0, false, false, 1⟩,
      .copy ⟨h0, .none, s 2, s 4, s 6, v 1, false, false, false, 0, false, false, 0⟩,
      .flush12 ⟨h0, s 4, 0⟩, .inval12 ⟨h0, s 4, 0⟩, .atomcas12 ⟨h0, .xchg32, .none, false, 3, s 4, v 2, v 1, 0⟩,
      .atomcas16 ⟨h0, .xchg64, .none, false, 4, s 4, v 2, v 1, 0⟩, .mma ⟨h0, 0, v 4, v 16, v 5, .f32, .f64, false, 0⟩,
      .mma ⟨h0, 0, v 4, v 16, v 5, .f64, .f64, false, 0⟩, .mma ⟨h0, 0, v 4, v 16, v 5, .f16, .f16, true, 1⟩,
      .mmac ⟨h0, 0, v 4, v 16, true, 1⟩, .mmap ⟨h0, 0, v 4, v 16, v 5, 1, false, 0⟩, .mmap ⟨h0, 0, v 4, v 16, v 5, 9, false, 0⟩,
      .mmas ⟨h0, 0, v 4, v 16, v 5, v 6, .f16, .f16, false, 0⟩, .acrd ⟨h0, true, 4, false, 32, 0⟩, .acrd ⟨h0, true, 4, true, 0, 0⟩,
      .acwr ⟨h0, true, 4, v 2, true, 0⟩, .frcdec ⟨h0, .f32, 4, v 2, 1, 1⟩, .frcdec ⟨h0, .f32, 4, v 2, 0, 4⟩,
      .frcenc ⟨h0, .f32, 4, v 2, v 6, false, 1, 16⟩, .frcenc ⟨h0, .f32, 4, v 2, v 0, false, 2, 64⟩, .expload ⟨h0, s 4, 0⟩].all
      (fun i => !i.fieldOk && !i.wf) = true := by decide
theorem test_wf_special : (Instr.srd ⟨h0, 3, 0x0B⟩).wf = false ∧ (Instr.swr ⟨h0, s 3, 0x09⟩).wf = false := by decide

/-! ## Witnesses: states -/

/-- The one fibre of the standard environment, every lane active. -/
def f0 : Fibre := { newFibre (setStep 4 State.reset) stdLaunch 0 0 0 1 stdDesc stdFit 0 with status := .current, isCur := true }
/-- The standard environment after reset, with its fibre as given. -/
def env (f : Fibre) : State := { stdEnv State.reset with fibres := [f] }
/-- A fibre with other registers. -/
def withRegs (f : Fibre) (g : FRegs → FRegs) : Fibre := { f with regs := g f.regs }
/-- The fibre with scalar register `n` at `x`. -/
def withS (n : Nat) (x : Word) (f : Fibre) : Fibre := withRegs f fun r => { r with s := r.s.setIfInBounds n x }
/-- The standard environment. -/
abbrev s0 : State := env f0

/-- What `Free` asks but for the fibre's selection, as a test. -/
def freeB (s : State) (f : Fibre) : Bool :=
  f.status.issues && f.waitTrap == none && !f.conflict && f.copyFaults == [] && !stopped s f && f.owed == [] && f.poison == [] &&
    ((windowIn s f).all fun a => !a.1.winWait && a.1.poison == []) && (partn s (partOfCore s f.id.core)).level3 == none &&
    f.escLevel == 0 && f.rbnow == 0 && !s.ahead && s.msys.hru == [] && s.lag == 0 && s.sameCycle == [] &&
    (s.links.all fun l => !l.stopped) && s.dev.failed == [] && s.fibres.all fun g => !g.committing
/-- The fibre is the first of the state's and the selected one. -/
theorem free_of {s f r} (hf : s.fibres = f :: r) (hc : s.cur = f.id) (h : freeB s f = true) : Free s f := by
  simp only [freeB, Bool.and_eq_true, beq_iff_eq, Bool.not_eq_true', List.all_eq_true] at h
  obtain ⟨⟨⟨⟨⟨⟨⟨⟨⟨⟨⟨⟨⟨⟨⟨⟨⟨b, c⟩, d⟩, e⟩, g⟩, i⟩, j⟩, k⟩, l⟩, m⟩, n⟩, o⟩, p⟩, q⟩, t⟩, u⟩, w⟩, x⟩ := h
  refine ⟨by simp [fibre?, hf, hc], b, c, d, e, g, i, j, fun n a hw => ?_, fun a b n hw => by simpa [hw] using (by simpa [hw] using k : _ ∧ _).1,
    l, m, n, o, p, q, t, u, w, x⟩
  unfold windowReg at hw
  split at hw
  · next g y z hy =>
    split at hw
    · cases hw
      have := (by simpa [hy] using k : g.winWait = false ∧ g.poison = []).2
      simp [this]
    · cases hw
  · cases hw
/-- What `Unheld` and `Quiet` ask beside, as tests. -/
def unheldB (s : State) (f : Fibre) : Bool := freeB s f && f.unfin == [] && f.moving == [] && !heldMode s f
theorem unheld_of {s f r} (hf : s.fibres = f :: r) (hc : s.cur = f.id) (h : unheldB s f = true) : Unheld s f := by
  simp only [unheldB, Bool.and_eq_true, beq_iff_eq, Bool.not_eq_true'] at h
  exact ⟨free_of hf hc h.1.1.1, h.1.1.2, h.1.2, h.2⟩
def quietB (s : State) (f : Fibre) : Bool := unheldB s f && f.pend == [] && !sharedPending s f
theorem quiet_of {s f r} (hf : s.fibres = f :: r) (hc : s.cur = f.id) (h : quietB s f = true) : Quiet s f := by
  simp only [quietB, Bool.and_eq_true, beq_iff_eq, Bool.not_eq_true'] at h
  exact ⟨unheld_of hf hc h.1.1, h.1.2, h.2⟩

theorem quiet0 : Quiet s0 f0 := quiet_of rfl rfl (by decide +kernel)

/-- The hypotheses of a per-lane statement: sources with whether they are pairs, a destination, an active lane. -/
def Reads (s : State) (f : Fibre) (h : Hdr) (srcs : List (Bool × Opnd)) (wide wd : Bool) (d : BitVec 7) : Prop :=
  Quiet s f ∧ (∀ o ∈ srcs, vecBad s f o.1 o.2 = false) ∧ vdstBad s f wide wd d = false ∧ activeMask f h ≠ 0
/-- Fibre 0 with `v8` to `v9` declared as its partner's window, and the partner, whose `w0` and `w1` they are (R126). -/
def owner : Fibre := { f0 with window := some (8, 2, 1), status := .ready, isCur := false }
def partner : Fibre := { f0 with id := ⟨0, 1⟩, index := 1, gindex := 1 }
def sWin : State := { env owner with fibres := [partner, owner], cur := ⟨0, 1⟩ }
theorem quietWin : Quiet sWin partner := quiet_of rfl rfl (by decide +kernel)
/-- A window register as an operand (R141). -/
def w (n : BitVec 7) : Opnd := ⟨0, 0, true, 64 + n⟩

/-! ## Witnesses: vector and scalar instructions -/

theorem witness_LaneOperations :
    (let x : OpV8 := ⟨h0, .i64, true, false, 30, v 28, s 31⟩;
      Reads s0 f0 x.h [(IntTy.wide x.ty, x.a), (IntTy.wide x.ty, x.b)] (IntTy.wide x.ty) x.wd x.d) ∧
    (let x : OpV8 := ⟨⟨0, false, true⟩, .n8, false, false, 31, ⟨7, 5, false, 31⟩, ⟨31, 1, false, 0⟩⟩;
      Reads s0 f0 x.h [(IntTy.wide x.ty, x.a), (IntTy.wide x.ty, x.b)] (IntTy.wide x.ty) x.wd x.d) ∧
    (let x : OpV8 := ⟨h0, .n64, false, true, 0, v 28, w 0⟩;
      Reads sWin partner x.h [(IntTy.wide x.ty, x.a), (IntTy.wide x.ty, x.b)] (IntTy.wide x.ty) x.wd x.d) ∧
    (let x : OpV12 := ⟨h0, .n16, false, true, 1, w 1, 0xFFFF⟩;
      Reads sWin partner x.h [(IntTy.wide x.ty, x.a)] (IntTy.wide x.ty) x.wd x.d) ∧
    let x : OpV1 := ⟨h0, .i32, false, false, 0, v 31⟩;
    Reads s0 f0 x.h [(IntTy.wide x.ty, x.a)] (IntTy.wide x.ty) x.wd x.d :=
  ⟨⟨quiet0, by decide +kernel⟩, ⟨quiet0, by decide +kernel⟩, ⟨quietWin, by decide +kernel⟩, ⟨quietWin, by decide +kernel⟩,
    quiet0, by decide +kernel⟩

theorem witness_LaneForms :
    (let x : OpV8 := ⟨h0, .n64, false, false, 30, v 0, s 31⟩;
      Reads s0 f0 x.h [(IntTy.wide x.ty, x.a), (IntTy.wide x.ty, x.b)] (IntTy.wide x.ty) x.wd x.d) ∧
    (let x : OpV3 := ⟨h0, .i32, true, false, 31, v 0, s 31, v 31⟩;
      Reads s0 f0 x.h [(IntTy.wide x.ty, x.a), (IntTy.wide x.ty, x.b), (IntTy.wide x.ty, x.c)] (IntTy.wide x.ty) x.wd x.d) ∧
    (let x : OpLop3 := ⟨h0, .n64, false, 30, v 0, s 31, v 30, 0x96⟩;
      Reads s0 f0 x.h [(IntTy.wide x.ty, x.a), (IntTy.wide x.ty, x.b), (IntTy.wide x.ty, x.c)] (IntTy.wide x.ty) x.wd x.d) ∧
    (let x : OpBfext := ⟨h0, .i64, false, 30, v 28, 63, 1⟩;
      Reads s0 f0 x.h [(IntTy.wide x.ty, x.a)] (IntTy.wide x.ty) x.wd x.d ∧ (Instr.bfext x).wf = true) ∧
    (let x : OpBfins := ⟨h0, .n8, false, 30, v 28, v 31, 0, 8⟩;
      Reads s0 f0 x.h [(IntTy.wide x.ty, x.a), (IntTy.wide x.ty, x.b)] (IntTy.wide x.ty) x.wd x.d ∧ (Instr.bfins x).wf = true) ∧
    (let x : OpSel := ⟨h0, .i32, false, 30, v 28, v 31, v 7⟩;
      Reads s0 f0 x.h [(IntTy.wide x.ty, x.a), (IntTy.wide x.ty, x.b)] (IntTy.wide x.ty) x.wd x.d ∧ predBad x.p = false) ∧
    (let x : OpAscale := ⟨h0, true, false, 30, v 28, v 26, s 0, 7⟩;
      Reads s0 f0 x.h [(x.wide, x.a), (x.wide, x.b), (x.wide, x.c)] x.wide x.wd x.d) ∧
    (let x : OpRng := ⟨h0, false, false, 31, v 28, s 0, true⟩;
      Reads s0 f0 x.h [(true, x.a), (true, x.b)] x.wide x.wd x.d) ∧
    (let x : OpMovi12 := ⟨h0, .n64, false, 30, 0xFFFF⟩;
      Reads s0 f0 x.h [] (IntTy.wide x.ty) x.wd x.d) ∧
    let x : OpMovi16 := ⟨h0, .i64, false, 30, 0x8000000000000000⟩;
    Reads s0 f0 x.h [] (IntTy.wide x.ty) x.wd x.d :=
  ⟨⟨quiet0, by decide +kernel⟩, ⟨quiet0, by decide +kernel⟩, ⟨quiet0, by decide +kernel⟩,
    ⟨⟨quiet0, by decide +kernel⟩, by decide +kernel⟩, ⟨⟨quiet0, by decide +kernel⟩, by decide +kernel⟩,
    ⟨⟨quiet0, by decide +kernel⟩, by decide⟩, ⟨quiet0, by decide +kernel⟩, ⟨quiet0, by decide +kernel⟩,
    ⟨quiet0, by decide +kernel⟩, quiet0, by decide +kernel⟩

theorem witness_LanePredicates : Quiet s0 f0 ∧ vecBad s0 f0 false (v 31) = false ∧ vecBad s0 f0 false (s 0) = false ∧
    predBad (v 7) = false ∧ predBad (v 0) = false ∧ activeMask f0 h0 ≠ 0 := ⟨quiet0, by decide +kernel⟩

theorem witness_CrossLane :
    (let x : OpV8 := ⟨h0, .n64, false, false, 30, v 0, v 30⟩;
      Reads s0 f0 x.h [(IntTy.wide x.ty, x.a), (IntTy.wide x.ty, x.b)] (IntTy.wide x.ty) x.wd x.d) ∧
    (let x : OpVtos := ⟨h0, .i64, 31, v 30⟩;
      Quiet s0 f0 ∧ vecBad s0 f0 (IntTy.wide x.ty) x.a = false ∧ guardMask f0 x.h ≠ 0) ∧
    (let x : OpVote := ⟨h0, .ballot, 31, v 7⟩;
      Quiet s0 f0 ∧ activeMask f0 x.h ≠ 0 ∧ x.op = .ballot ∧ predBad x.a = false) ∧
    (let x : OpVote := ⟨h0, .any, 7, v 0⟩;
      Quiet s0 f0 ∧ activeMask f0 x.h ≠ 0 ∧ x.op = .any ∧ predBad x.a = false) ∧
    (let x : OpVote := ⟨h0, .all, 0, v 7⟩;
      Quiet s0 f0 ∧ activeMask f0 x.h ≠ 0 ∧ x.op = .all ∧ predBad x.a = false) ∧
    let x : OpVote := ⟨h0, .uni, 1, v 31⟩;
    Quiet s0 f0 ∧ activeMask f0 x.h ≠ 0 ∧ x.op = .uni ∧ vecBad s0 f0 false x.a = false :=
  ⟨⟨quiet0, by decide +kernel⟩, ⟨quiet0, by decide +kernel⟩, ⟨quiet0, by decide +kernel⟩, ⟨quiet0, by decide +kernel⟩,
    ⟨quiet0, by decide +kernel⟩, quiet0, by decide +kernel⟩

theorem witness_ScalarForms : Quiet s0 f0 ∧ scaBad (s 0) = false ∧ scaBad (s 31) = false ∧ guardMask f0 h0 ≠ 0 :=
  ⟨quiet0, by decide +kernel⟩

/-! ## Witnesses: floating point and conversions -/

theorem witness_FloatArithmetic :
    (let x : OpF2 := ⟨h0, .f64, .rd, false, 30, v 28, s 31⟩;
      Reads s0 f0 x.h [(FTy.wide x.ty, x.a), (FTy.wide x.ty, x.b)] (FTy.wide x.ty) x.wd x.d) ∧
    let x : OpF3 := ⟨h0, .f32, .ru, false, 31, v 0, s 31, v 31⟩;
    Reads s0 f0 x.h [(FTy.wide x.ty, x.a), (FTy.wide x.ty, x.b), (FTy.wide x.ty, x.c)] (FTy.wide x.ty) x.wd x.d :=
  ⟨⟨quiet0, by decide +kernel⟩, quiet0, by decide +kernel⟩

theorem witness_FloatForms :
    (let x : OpF1 := ⟨h0, .f64, .rn, false, 30, v 28⟩;
      Reads s0 f0 x.h [(FTy.wide x.ty, x.a)] (FTy.wide x.ty) x.wd x.d ∧ vdstBad s0 f0 false x.wd x.d = false) ∧
    (let x : OpF2 := ⟨h0, .f32, .rz, false, 31, v 28, s 31⟩;
      Reads s0 f0 x.h [(FTy.wide x.ty, x.a), (FTy.wide x.ty, x.b)] (FTy.wide x.ty) x.wd x.d) ∧
    let x : OpFcmp := ⟨h0, .un, .f64, 7, v 28, s 31⟩;
    Quiet s0 f0 ∧ vecBad s0 f0 (FTy.wide x.ty) x.a = false ∧ vecBad s0 f0 (FTy.wide x.ty) x.b = false ∧ activeMask f0 x.h ≠ 0 :=
  ⟨⟨⟨quiet0, by decide +kernel⟩, by decide +kernel⟩, ⟨quiet0, by decide +kernel⟩, quiet0, by decide +kernel⟩

theorem witness_FloatLate :
    (let x : OpF1 := ⟨h0, .f64, .rn, false, 30, v 28⟩;
      Reads s0 f0 x.h [(FTy.wide x.ty, x.a)] (FTy.wide x.ty) x.wd x.d) ∧
    let x : OpScfind := ⟨h0, false, 31, v 31, true, .e4m3⟩;
    Reads s0 f0 x.h [(false, x.a)] false x.wd x.d :=
  ⟨⟨quiet0, by decide +kernel⟩, quiet0, by decide +kernel⟩

theorem witness_Conversions :
    (let x : OpCvt := ⟨h0, .sr, false, false, 31, v 28, 15, 3, .f64, .e4m3⟩;
      Reads s0 f0 x.h [(Fmt.wide x.sfmt, x.a)] (Fmt.wide x.dfmt) x.wd x.d) ∧
    (let x : OpPack := ⟨h0, .rn, true, false, 31, v 28, s 31, v 31, 0, 3, .e2m1⟩;
      Reads s0 f0 x.h [(false, x.a), (false, x.b), (false, x.c)] false x.wd x.d) ∧
    (let x : OpPk2 := ⟨h0, true, .rz, false, false, 31, v 28, s 31⟩;
      Reads s0 f0 x.h [(false, x.a), (false, x.b)] false x.wd x.d) ∧
    (let x : OpUnpack := ⟨h0, false, 30, v 31, 3, .e2m1⟩;
      Reads s0 f0 x.h [(false, x.a)] true x.wd x.d) ∧
    (let x : OpUpk2 := ⟨h0, false, false, 30, v 31⟩;
      Reads s0 f0 x.h [(false, x.a)] true x.wd x.d) ∧
    (let x : OpScapply := ⟨h0, false, 31, v 31, s 0, 3, .e4m3⟩;
      Reads s0 f0 x.h [(false, x.a), (false, x.b)] false x.wd x.d) ∧
    let x : OpBpext := ⟨h0, false, 31, v 31, 8, true⟩;
    Reads s0 f0 x.h [(false, x.a)] false x.wd x.d :=
  ⟨⟨quiet0, by decide +kernel⟩, ⟨quiet0, by decide +kernel⟩, ⟨quiet0, by decide +kernel⟩, ⟨quiet0, by decide +kernel⟩,
    ⟨quiet0, by decide +kernel⟩, ⟨quiet0, by decide +kernel⟩, quiet0, by decide +kernel⟩

/-! ## Witnesses: control, the fibre itself, traps -/

theorem witness_Branches : Quiet s0 f0 ∧ scaBad (s 31) = false ∧ guardMask f0 h0 ≠ 0 := ⟨quiet0, by decide +kernel⟩
theorem witness_Calls : Quiet s0 f0 ∧ scaBad (s 0) = false ∧ guardMask f0 h0 ≠ 0 := ⟨quiet0, by decide +kernel⟩

/-- `p7` holds lanes 0 and 31. -/
def fP : Fibre := withRegs f0 fun r => { r with p := r.p.setIfInBounds 7 0x80000001 }
theorem quietP : Quiet (env fP) fP := quiet_of rfl rfl (by decide +kernel)
/-- Every condition holds on one operand and fails on another. -/
theorem witness_BranchOnPredicate : Quiet (env fP) fP ∧ predBad (v 7) = false ∧ predBad (v 1) = false ∧ guardMask fP h0 ≠ 0 ∧
    fP.preg 7 &&& (fP.regs.em &&& guardMask fP h0) ≠ 0 ∧ fP.preg 1 &&& (fP.regs.em &&& guardMask fP h0) = 0 ∧
    (fP.regs.em &&& guardMask fP h0) &&& ~~~(fP.preg 7) ≠ 0 ∧ (fP.regs.em &&& guardMask fP h0) &&& ~~~(fP.preg 0) = 0 ∧
    ∃ r : Raw, r.op = 0x1A ∧ r.len ≠ .b8 ∧ 3 ≤ r.sub.toNat :=
  ⟨quietP, by decide +kernel, by decide +kernel, by decide +kernel, by decide +kernel, by decide +kernel, by decide +kernel,
    by decide +kernel, ⟨.b12, h0, 0x1A, 3, 0, 0, 0, 0, 0⟩, by decide⟩

theorem witness_MaskSet :
    (let x : OpEmset := ⟨h0, .ld, s 31⟩;
      Quiet s0 f0 ∧ (x.op = .ld → scaBad x.a = false) ∧ (x.op ≠ .ld → predBad x.a = false) ∧ guardMask f0 x.h ≠ 0 ∧ x.op.code = 3) ∧
    (∀ p ∈ [(EmOp.set, 0), (EmOp.and, 1), (EmOp.andn, 2)], let x : OpEmset := ⟨h0, p.1, v 7⟩;
      (x.op = .ld → scaBad x.a = false) ∧ (x.op ≠ .ld → predBad x.a = false) ∧ guardMask f0 x.h ≠ 0 ∧ x.op.code.toNat = p.2) ∧
    ∃ r : Raw, r.op = 0x18 ∧ r.len = .b8 ∧ 4 ≤ r.sub.toNat :=
  ⟨⟨quiet0, by decide +kernel⟩, by decide +kernel, ⟨.b8, h0, 0x18, 4, 0, 0, 0, 0, 0⟩, by decide⟩

theorem witness_SpecialRegisters : Quiet s0 f0 ∧ guardMask f0 h0 ≠ 0 ∧ vdstBad s0 f0 false false 31 = false ∧
    (let x : OpSrd := ⟨h0, 30, 0x13⟩;
      x.num = 0x13 ∧ x.d.toNat % 2 = 0) ∧
    (let x : OpSrd := ⟨h0, 31, 0x22⟩;
      x.num ≠ 0 ∧ x.num ≠ 0x13 ∧ x.d.toNat = (31 : BitVec 5).toNat) ∧
    scaBad (s 31) = false :=
  ⟨quiet0, by decide +kernel⟩

theorem witness_PredicateTable :
    (let x : OpPlop := ⟨h0, .orn, 7, v 7, v 0⟩;
      Quiet (env fP) fP ∧ predBad x.a = false ∧ predBad x.b = false ∧ activeMask fP x.h ≠ 0 ∧ x.d ≠ 0) ∧
    (∃ r : Raw, r.op = 0x3E ∧ r.len = .b8 ∧ r.sub = 7) ∧
    ∃ (r : Raw) (x : OpPlop), decodeRaw r = .ok (.plop x) ∧ x.op = .not :=
  ⟨⟨quietP, by decide +kernel⟩, ⟨⟨.b8, h0, 0x3E, 7, 0, 0, 0, 0, 0⟩, by decide⟩,
    ⟨.b8, h0, 0x3E, 5, 1, 2, 0, 0, 0⟩, ⟨h0, .not, 1, v 2, v 0⟩, rfl, rfl⟩

/-- A descriptor with every barrier, 96 extended registers at most, windows of 32, 16 tiles and 8 KiB of scratchpad. -/
def bigDesc : Desc := { stdDesc with
  storage := BitVec.ofNat 32 (2 + 6 * 2 ^ 4 + 32 * 2 ^ 7 + 16 * 2 ^ 13 + 8 * 2 ^ 18), sync := 0x000FFFFF }
/-- The standard environment with another descriptor, its block in some pre-emption, and other fibres. -/
def envD (d : Desc) (p : Preempt) (fs : List Fibre) : State :=
  let s := stdEnv State.reset
  { s with
    fibres := fs
    blocks := s.blocks.map fun b => { b with desc := d, preempt := p, tiles := List.replicate 16 Tile.zero }
    launches := s.launches.map fun L => { L with stages := L.stages.map fun g => { g with first := some d } } }
/-- The big descriptor, one fibre. -/
abbrev big (f : Fibre) : State := envD bigDesc .none [f]
theorem quietBig : Quiet (big f0) f0 := quiet_of rfl rfl (by decide +kernel)

/-- A fibre in a save handler of an ordered launch. -/
def fSave : Fibre := withRegs f0 fun r => { r with level := 2 }
def sSave (fs : List Fibre) : State := envD { bigDesc with sync := 0x001FFFFF } (.inSave 0 []) fs

theorem witness_HandOver : (Quiet s0 f0 ∧ guardMask f0 h0 ≠ 0 ∧ slotMates s0 f0.id = []) ∧
    Quiet sWin partner ∧ guardMask partner h0 ≠ 0 ∧ slotMates sWin partner.id = [owner] ∧ owner.id.pos % 4 = 0 ∧
      owner.status = .ready :=
  ⟨⟨quiet0, by decide +kernel⟩, quietWin, by decide +kernel⟩

/-- `%xen` with ASYNC, and `%xflags` with OVERFLOW (R73). -/
def fAsync (flags : BitVec 32) : Fibre := withRegs f0 fun r => { r with xen := 0x100, xflags := flags }
theorem witness_Barriers :
    (let x : OpBar := ⟨h0, .slot, 2⟩;
      Quiet (big f0) f0 ∧ x.num.toNat < barCount (descOf (big f0) f0) x.lvl ∧ guardMask f0 x.h ≠ 0 ∧
        (f0.regs.xen.getLsbD 8 = true → f0.regs.xflags.getLsbD 2 = false)) ∧
    (let x : OpBar := ⟨h0, .grid, 6⟩;
      Quiet (big (fAsync 0x1B)) (fAsync 0x1B) ∧ x.num.toNat < barCount (descOf (big (fAsync 0x1B)) (fAsync 0x1B)) x.lvl ∧
        ((fAsync 0x1B).regs.xen.getLsbD 8 = true → (fAsync 0x1B).regs.xflags.getLsbD 2 = false)) ∧
    (let x : OpBar := ⟨h0, .block, 15⟩;
      Quiet (big (fAsync 4)) (fAsync 4) ∧ x.num.toNat < barCount (descOf (big (fAsync 4)) (fAsync 4)) x.lvl ∧
        guardMask (fAsync 4) x.h ≠ 0 ∧ (fAsync 4).regs.xen.getLsbD 8 = true ∧ (fAsync 4).regs.xflags.getLsbD 2 = true) ∧
    (let x : OpBar := ⟨h0, .gang, 7⟩;
      Quiet (big f0) f0 ∧ barCount (descOf (big f0) f0) x.lvl ≤ x.num.toNat) ∧
    let x : OpBar := ⟨h0, .block, 0⟩;
    Quiet s0 f0 ∧ barCount (descOf s0 f0) x.lvl ≤ x.num.toNat :=
  ⟨⟨quietBig, by decide +kernel⟩, ⟨quiet_of rfl rfl (by decide +kernel), by decide +kernel⟩,
    ⟨quiet_of rfl rfl (by decide +kernel), by decide +kernel⟩, ⟨quietBig, by decide +kernel⟩, quiet0, by decide +kernel⟩

/-- What `BarrierRests` asks, and what keeps the next phase from being complete, as a test. -/
def restsB (s : State) (f : Fibre) (lvl : BarLevel) (num : Nat) : Bool :=
  let b := barOf s f lvl num
  (if BarLevel.wide lvl then (launch? s f.launch).isSome else (blockOf s f).isSome) &&
    (s.fibres.all fun g => fibre? s g.id == some g) &&
    ((barMembers s f lvl).all fun g => s.fibres.contains g || g.status == .saved) &&
    (((barMembers s f lvl).any fun g => !g.left && (g.status == .saved || decide (arrivedAt g b.lvl b.num < b.done + 1))) ||
      b.copies.any fun c => c.1 == b.done + 1) &&
    (barMembers s f lvl).all fun g => match g.status with
      | .barrier l n ph _ _ => decide (l = lvl → n = num → b.done < ph)
      | _ => true
theorem rests {s f lvl num} (h : restsB s f lvl num = true) : BarrierRests s f lvl num := by
  simp only [restsB, Bool.and_eq_true, List.all_eq_true, Bool.or_eq_true, List.any_eq_true, beq_iff_eq, List.contains_iff_mem,
    Bool.not_eq_true', decide_eq_true_eq] at h
  obtain ⟨⟨⟨⟨a, b⟩, c⟩, d⟩, e⟩ := h
  refine ⟨by split at a <;> simp_all, b, c, fun ⟨_, all, cp⟩ => ?_, fun g hg ph ⟨x, y, hw⟩ => ?_⟩
  · rcases d with ⟨g, hg, hl, hn⟩ | ⟨k, hk, he⟩
    · rcases all g hg with h | ⟨h, h'⟩
      · simp [hl] at h
      · rcases hn with h2 | h2
        · exact h h2
        · omega
    · exact cp k hk he
  · have := e g hg
    simpa [hw] using this
/-- Three fibres of a block: the first at a level, with arrivals at barrier 3; the second has arrived and waits; the third. -/
def fArr (n level : Nat) : Fibre := { withRegs f0 fun r => { r with level := level } with arrived := [((.block, 3), n)] }
def waits3 : Fibre := { f0 with id := ⟨0, 1⟩, index := 1, isCur := false, status := .barrier .block 3 1 false true, arrived := [((.block, 3), 1)] }
def came (n : Nat) : Fibre := { f0 with id := ⟨0, 2⟩, index := 2, status := .ready, isCur := false, arrived := [((.block, 3), n)] }
def sBar (f : Fibre) (n : Nat) (copies : List (Nat × Nat)) : State :=
  let s := envD bigDesc .none [f, waits3, came n]
  { s with blocks := s.blocks.map fun b => { b with bars := [{ barGet [] .block 0 3 with copies := copies }] } }
/-- What every clause on `barrierOp` asks. -/
def AtBarrier (s : State) (f : Fibre) (lvl : BarLevel) (num : Nat) : Prop :=
  fibre? s f.id = some f ∧ f.status.issues = true ∧ BarrierRests s f lvl num
theorem witness_Barriers_arrivals :
    (let f := fArr 1 0; AtBarrier (sBar f 0 []) f .block 3 ∧ f.regs.level = 0 ∧
      (barOf (sBar f 0 []) f .block 3).done < arrivedAt f .block 3) ∧
    (let f := fArr 0 0; AtBarrier (sBar f 1 []) f .block 3 ∧ arrivedAt f .block 3 ≤ (barOf (sBar f 1 []) f .block 3).done) ∧
    (∀ n, n = 0 ∨ n = 1 → let f := fArr n 2; AtBarrier (sBar f 0 []) f .block 3 ∧ f.regs.level ≠ 0 ∧
      ((barOf (sBar f 0 []) f .block 3).done < arrivedAt f .block 3 ↔ n = 1)) ∧
    (let f := fArr 0 0; AtBarrier (sBar f 0 []) f .block 3 ∧ f.regs.level = 0 ∧
      arrivedAt f .block 3 = (barOf (sBar f 0 []) f .block 3).done ∧
      ∃ k ∈ barMembers (sBar f 0 []) f .block, k ≠ f ∧ k.left = false ∧ (k.status = .saved ∨ arrivedAt k .block 3 ≤ arrivedAt f .block 3)) ∧
    (let f := fArr 0 0; AtBarrier (sBar f 1 [(1, 7)]) f .block 3 ∧ arrivedAt f .block 3 = (barOf (sBar f 1 [(1, 7)]) f .block 3).done ∧
      ∃ c ∈ (barOf (sBar f 1 [(1, 7)]) f .block 3).copies, c.1 = arrivedAt f .block 3 + 1) ∧
    (let f := fArr 0 0; AtBarrier (sBar f 1 []) f .block 3 ∧ arrivedAt f .block 3 = (barOf (sBar f 1 []) f .block 3).done ∧
      (∀ k ∈ barMembers (sBar f 1 []) f .block, k ≠ f → k.left = true ∨ (k.status ≠ .saved ∧ arrivedAt f .block 3 < arrivedAt k .block 3)) ∧
      (∀ c ∈ (barOf (sBar f 1 []) f .block 3).copies, c.1 ≠ arrivedAt f .block 3 + 1) ∧
      waits3 ∈ barMembers (sBar f 1 []) f .block ∧ waits3 ≠ f ∧ waits3.status ≠ .saved ∧ WaitsOn waits3 .block 3 1 ∧
      came 1 ∈ barMembers (sBar f 1 []) f .block ∧ came 1 ≠ f ∧ (came 1).status ≠ .saved ∧ ¬ WaitsOn (came 1) .block 3 1) ∧
    waits3.regs.level = 0 ∧ waits3.status = .barrier .block 3 1 false true ∧
    { waits3 with status := .barrier .block 3 1 true true }.status = .barrier .block 3 1 true true :=
  ⟨⟨⟨rfl, rfl, rests (by decide +kernel)⟩, rfl, by decide +kernel⟩, ⟨⟨rfl, rfl, rests (by decide +kernel)⟩, by decide +kernel⟩,
    fun n hn => by rcases hn with rfl | rfl <;> exact ⟨⟨rfl, rfl, rests (by decide +kernel)⟩, by decide +kernel⟩,
    ⟨⟨rfl, rfl, rests (by decide +kernel)⟩, by decide +kernel⟩, ⟨⟨rfl, rfl, rests (by decide +kernel)⟩, by decide +kernel⟩,
    ⟨⟨rfl, rfl, rests (by decide +kernel)⟩, by decide +kernel, by decide +kernel, by decide +kernel, by decide +kernel, by decide +kernel,
      by decide +kernel, ⟨false, true, rfl⟩, by decide +kernel, by decide +kernel, by decide +kernel, fun ⟨_, _, h⟩ => by cases h⟩,
    rfl, rfl, rfl⟩

theorem witness_Tickets :
    (Quiet s0 f0 ∧ isOrdered s0 f0.launch = false ∧ (stage? s0 f0.launch f0.stage).isSome = true ∧ guardMask f0 h0 ≠ 0) ∧
    (Quiet (sSave [fSave]) fSave ∧ isOrdered (sSave [fSave]) fSave.launch = true) ∧ (3 : BitVec 2).toNat < 4 :=
  ⟨⟨quiet0, by decide +kernel⟩, ⟨quiet_of rfl rfl (by decide +kernel), by decide +kernel⟩, by decide⟩

/-- A fibre that holds `n` registers from unit `u`, with a window of them or none. -/
def fExt (n u : Nat) (win : Option (Nat × Nat × Nat)) : Fibre := { withRegs f0 fun r => { r with ext := n, unit0 := u } with window := win }
/-- Another fibre of the quadrant that holds `n` registers from unit `u`. -/
def other (p n u : Nat) : Fibre := { fExt n u none with id := ⟨0, p⟩, status := .ready, isCur := false }
/-- Twelve of the quadrant's sixteen units are held. -/
def sFull : State := envD bigDesc .none [f0, other 1 96 0, other 2 96 6]

theorem noneOlder (f : Fibre) (h : f.acquire = none) : pendingAcquires (big f) f.id.core (f.id.pos / 16) = [] := by
  simp [pendingAcquires, big, envD, h]

theorem witness_RegisterBlocks_request :
    (let x : OpRegacq := ⟨h0, true, 7, 1⟩;
      Quiet s0 f0 ∧ guardMask f0 x.h ≠ 0 ∧ 16 * wfield (descOf s0 f0).storage 6 4 < 16 * x.n.toNat) ∧
    (let x : OpRegacq := ⟨h0, false, 0, 6⟩
     let f := fExt 96 10 none
     Quiet (big f) f ∧ guardMask f x.h ≠ 0 ∧ 16 * x.n.toNat ≤ 16 * wfield (descOf (big f) f).storage 6 4 ∧ 16 * x.n.toNat = f.regs.ext) ∧
    (let x : OpRegacq := ⟨h0, false, 0, 1⟩
     let f := fExt 96 10 (some (47, 2, 1))
     Quiet (big f) f ∧ 16 * x.n.toNat ≤ 16 * wfield (descOf (big f) f).storage 6 4 ∧ 16 * x.n.toNat < f.regs.ext ∧
        shrinkHitsWindow f (16 * x.n.toNat) = true) ∧
    (let x : OpRegacq := ⟨h0, false, 0, 1⟩
     let f := fExt 96 10 (some (46, 2, 1))
     Quiet (big f) f ∧ 16 * x.n.toNat ≤ 16 * wfield (descOf (big f) f).storage 6 4 ∧ 16 * x.n.toNat < f.regs.ext ∧
        shrinkHitsWindow f (16 * x.n.toNat) = false) :=
  ⟨⟨quiet0, by decide +kernel⟩, ⟨quiet_of rfl rfl (by decide +kernel), by decide +kernel⟩, ⟨quiet_of rfl rfl (by decide +kernel), by decide +kernel⟩,
    quiet_of rfl rfl (by decide +kernel), by decide +kernel⟩
theorem witness_RegisterBlocks_growth :
    (let x : OpRegacq := ⟨h0, false, 0, 2⟩
     let f := fExt 16 15 none
     Quiet (big f) f ∧ 16 * x.n.toNat ≤ 16 * wfield (descOf (big f) f).storage 6 4 ∧ f.regs.ext < 16 * x.n.toNat ∧
        0 < f.regs.ext ∧ 16 < f.regs.unit0 + 16 * x.n.toNat / 16) ∧
    (let x : OpRegacq := ⟨h0, false, 0, 2⟩
     let f := fExt 16 14 none
     Quiet (big f) f ∧ 16 * x.n.toNat ≤ 16 * wfield (descOf (big f) f).storage 6 4 ∧ f.regs.ext < 16 * x.n.toNat ∧
        (0 < f.regs.ext → f.regs.unit0 + 16 * x.n.toNat / 16 ≤ 16) ∧ grantUnits (big f) f (16 * x.n.toNat) = some 14) ∧
    pendingAcquires (big (fExt 16 14 none)) 0 0 = [] ∧
    (let x : OpRegacq := ⟨h0, true, 1, 5⟩
     Quiet sFull f0 ∧ guardMask f0 x.h ≠ 0 ∧ 16 * x.n.toNat ≤ 16 * wfield (descOf sFull f0).storage 6 4 ∧ f0.regs.ext < 16 * x.n.toNat ∧
        ¬ 0 < f0.regs.ext ∧ grantUnits sFull f0 (16 * x.n.toNat) = none ∧ x.nb = true ∧ isOrdered sFull f0.launch = false) ∧
    (let x : OpRegacq := ⟨h0, false, 0, 5⟩;
      x.nb = false ∧ grantUnits sFull f0 (16 * x.n.toNat) = none) :=
  ⟨⟨quiet_of rfl rfl (by decide +kernel), by decide +kernel⟩, ⟨quiet_of rfl rfl (by decide +kernel), by decide +kernel⟩,
    noneOlder (fExt 16 14 none) rfl, ⟨quiet_of rfl rfl (by decide +kernel), by decide +kernel⟩, by decide +kernel⟩
theorem witness_RegisterBlocks_release :
    (Quiet s0 f0 ∧ guardMask f0 h0 ≠ 0 ∧ f0.regs.ext = 0) ∧
    (let f := fExt 16 0 (some (46, 2, 1))
     Quiet (big f) f ∧ f.regs.ext ≠ 0 ∧ shrinkHitsWindow f 0 = true) ∧
    let f := fExt 16 0 (some (30, 2, 1))
    Quiet (big f) f ∧ f.regs.ext ≠ 0 ∧ shrinkHitsWindow f 0 = false :=
  ⟨⟨quiet0, by decide +kernel⟩, ⟨quiet_of rfl rfl (by decide +kernel), by decide +kernel⟩, quiet_of rfl rfl (by decide +kernel), by decide +kernel⟩

/-- The second fibre's `w0` and the first's own `v8`, each written in the cycle by a lower index, in lane 0 or not at all. -/
def sOwn : State := { env { owner with status := .current, isCur := true } with
  fibres := [{ owner with status := .current, isCur := true }, { partner with status := .ready, isCur := false }] }
theorem witness_Windows_cycle :
    (let x : OpV8 := ⟨h0, .i32, false, true, 0, v 31, s 31⟩
     Quiet sWin partner ∧ IntTy.wide x.ty = false ∧ vecBad sWin partner false x.a = false ∧ vecBad sWin partner false x.b = false ∧
       vdstBad sWin partner false x.wd x.d = false ∧ activeMask partner x.h ≠ 0 ∧
       sharedReg sWin partner (if x.wd then .w x.d.toNat allOnes zeroV else .v x.d.toNat allOnes zeroV) = some (⟨0, 0⟩, 8) ∧
       ∃ e ∈ [((⟨0, 0⟩ : FibreId), 8, 0, (1 : BitVec 32))], e.1 = (⟨0, 0⟩ : FibreId) ∧ e.2.1 = 8 ∧ e.2.2.1 < partner.id.pos % 4) ∧
    let x : OpV8 := ⟨h0, .i32, false, false, 8, v 31, s 31⟩
    let f := { owner with status := .current, isCur := true }
    Quiet sOwn f ∧ vecBad sOwn f false x.a = false ∧ vecBad sOwn f false x.b = false ∧
      vdstBad sOwn f false x.wd x.d = false ∧ activeMask f x.h ≠ 0 ∧
      sharedReg sOwn f (if x.wd then .w x.d.toNat allOnes zeroV else .v x.d.toNat allOnes zeroV) = some (⟨0, 0⟩, 8) :=
  ⟨⟨quietWin, by decide +kernel⟩, quiet_of rfl rfl (by decide +kernel), by decide +kernel⟩

/-- Two fibres of one group; `mate` may have a window to a third, `third`. -/
def mate : Fibre := { f0 with id := ⟨0, 1⟩, status := .ready, isCur := false }
def third (win : Option (Nat × Nat × Nat)) : Fibre := { f0 with id := ⟨0, 2⟩, status := .ready, isCur := false, window := win }
def sGroup (win : Option (Nat × Nat × Nat)) : State := envD bigDesc .none [f0, mate, third win]
/-- What every clause asks. -/
def winHyp (x : OpWin) (s : State) (f g : Fibre) : Prop := Quiet s f ∧ guardMask f x.h ≠ 0 ∧ partnerWrites s f = false ∧
  (∀ j < x.len.toNat, x.base.toNat + j < 32 + f.regs.ext) ∧ x.partner.toNat ≠ f.id.pos % 4 ∧
  groupMate s f x.partner.toNat = some g
theorem witness_Windows :
    (let x : OpWin := ⟨h0, 30, 2, 1⟩
     let s := envD { bigDesc with storage := BitVec.ofNat 32 (2 + 2 ^ 7) } .none [f0, mate]
     winHyp x s f0 mate ∧ wfield (descOf s f0).storage 12 7 < x.len.toNat) ∧
    (let x : OpWin := ⟨h0, 0, 32, 1⟩
     let s := sSave [fSave, mate]
     winHyp x s fSave mate ∧ x.len.toNat ≤ wfield (descOf s fSave).storage 12 7 ∧ isOrdered s fSave.launch = true) ∧
    (let x : OpWin := ⟨h0, 0, 32, 1⟩
     let s := sGroup (some (0, 1, 1))
     winHyp x s f0 mate ∧ x.len.toNat ≤ wfield (descOf s f0).storage 12 7 ∧ isOrdered s f0.launch = false ∧
       ∃ a b n, windowIn s mate = some (a, b, n) ∧ a.id ≠ f0.id) ∧
    (let x : OpWin := ⟨h0, 0, 32, 1⟩
     let s := sGroup none
     winHyp x s f0 mate ∧ x.len.toNat ≤ wfield (descOf s f0).storage 12 7 ∧ isOrdered s f0.launch = false ∧
       ¬ ∃ a b n, windowIn s mate = some (a, b, n) ∧ a.id ≠ f0.id) :=
  ⟨⟨⟨quiet_of rfl rfl (by decide +kernel), by decide +kernel⟩, by decide +kernel⟩,
    ⟨⟨quiet_of rfl rfl (by decide +kernel), by decide +kernel⟩, by decide +kernel⟩,
    ⟨⟨quiet_of rfl rfl (by decide +kernel), by decide +kernel⟩, by decide +kernel, by decide +kernel,
      third (some (0, 1, 1)), 0, 1, by decide +kernel⟩,
    ⟨⟨quiet_of rfl rfl (by decide +kernel), by decide +kernel⟩, by decide +kernel, by decide +kernel, fun ⟨a, b, n, h, _⟩ => by
      have : windowIn (sGroup none) mate = none := by decide +kernel
      simp [this] at h⟩⟩

/-! ## Witnesses: lines, launches, queues, traps -/

/-- What a check lets through, with a property of what it gives. -/
def lets (c : Chk) (p : List LaneAcc → List TlbEntry → Bool) : Bool := match c with
  | .ok a t => p a t
  | _ => false
theorem of_lets {c p} (h : lets c p = true) : ∃ a t, c = .ok a t ∧ p a t = true := by
  cases c with
  | ok a t => exact ⟨a, t, rfl, h⟩
  | _ => cases h

/-- The entry's page, mapped to the first page of stack 0. -/
def page : Word := 0x4100000000
/-- `s4` holds an address and `s5` a value. -/
def at4 (a v : Word) : Fibre := withS 4 a (withS 5 v f0)

theorem witness_Launching_wline (want : Word) (hw : want = 0 ∨ want = 1) :
    let f := at4 (page + 4095) want
    let s := env f
    let a := f.sreg 4 &&& ~~~7#64
    Quiet s f ∧ scaBad (Tests.s 4) = false ∧ guardMask f h0 ≠ 0 ∧ ∃ accs fills pa,
      combine [(0, a, checkBytes s (ctxOf s f) .line 8 a)] = .ok accs fills ∧
      (∃ b c d e k g, accs = [⟨b, c, [⟨d, e, .dev pa, k, g⟩]⟩]) ∧
      let word : LaneAcc := ⟨0, 0, [⟨0, 8, .dev pa, .strong, 0⟩]⟩
      let r := reaching f (.wline pa (f.sreg 5)) fills s
      accsPoison r [word] = none ∧
        (loadValue (seeRecords f.id [pa / 64] r) (partOfCore s f.id.core) word = f.sreg 5 ↔ want = 0) := by
  rcases hw with rfl | rfl <;>
  exact ⟨quiet_of rfl rfl (by decide +kernel), by decide, by decide +kernel,
    [⟨0, page + 4088, [⟨0, 8, .dev 4088, .normal, 0⟩]⟩], [stdTlb State.reset], 4088, by decide +kernel, ⟨_, _, _, _, _, _, rfl⟩,
      by decide +kernel⟩
theorem witness_Launching :
    (let f := at4 page 0
     Quiet (env f) f ∧ scaBad (s 4) = false ∧ guardMask f h0 ≠ 0 ∧ ∃ accs fills,
      combine [(0, f.sreg 4, checkBytes (env f) (ctxOf (env f) f) .record 128 (f.sreg 4))] = .ok accs fills ∧
        accsPoison (reaching f (.launch (BitVec.ofNat 64 (ptrAddr (f.sreg 4))) (some accs) 31) fills (env f)) accs = none) ∧
    (let f := at4 (page + 63) 0
     Quiet (env f) f ∧ lineOf (env f) f (f.sreg 4) = some 0) ∧
    let f := at4 0 0
    Quiet (env f) f ∧ lineOf (env f) f (f.sreg 4) = none :=
  ⟨⟨quiet_of rfl rfl (by decide +kernel), by decide, by decide +kernel, [⟨0, page, [⟨0, 128, .dev 0, .normal, 0⟩]⟩], [stdTlb State.reset], by decide +kernel⟩,
    ⟨quiet_of rfl rfl (by decide +kernel), by decide +kernel⟩, quiet_of rfl rfl (by decide +kernel), by decide +kernel⟩

/-- A partition 0 that is otherwise. -/
def withP (g : Partn → Partn) (s : State) : State := updPart s 0 g
/-- A record for queue 5 of one stage and one block (R79). -/
def aRecord : Nat := 64 + 5 * 2 ^ 128 + 2 ^ 144 + 2 ^ 144 * 2 ^ 144 + 2 ^ 160 * 2 ^ 160 + 2 ^ 176 * 2 ^ 176
/-- Queue 5 of partition 0 enabled for ASID 1 and VF 0, with `n` launches. -/
def sQueue (n : Nat) : State :=
  withP (fun P => { P with lqcfg := [(5, 0x100000080)] }) { s0 with launches := List.replicate n { stdLaunch with queue := 5 } }
/-- What the queue's register differs from. -/
def Differs (s : State) (r : Nat) (sender : Option (Nat × Nat)) : Prop := ∃ vf asid, sender = some (vf, asid) ∧
  (wfield (Tab.getD (partn s 0).lqcfg (recQueue r) 0) 18 16 ≠ vf ∨ wfield (Tab.getD (partn s 0).lqcfg (recQueue r) 0) 44 32 ≠ asid)
theorem same_sender (n : Nat) : ¬ Differs (sQueue n) aRecord (some (0, 1)) := by
  rintro ⟨vf, asid, h, h'⟩
  cases h
  have : (Tab.getD (partn (sQueue n) 0).lqcfg (recQueue aRecord) 0) = 0x100000080 := rfl
  rw [this] at h'
  exact absurd h' (by decide +kernel)
theorem witness_Launching_records :
    (64 % 128 ≠ 0 ∧ 128 % 128 = 0) ∧ (Tab.getD (partn s0 0).lqcfg (recQueue aRecord) 0).getLsbD 7 = false ∧
    Differs (sQueue 0) aRecord (some (0, 2)) ∧ Differs (sQueue 0) aRecord (some (1, 1)) ∧ ¬ Differs (sQueue 64) aRecord (some (0, 1)) ∧
    (Tab.getD (partn (sQueue 64) 0).lqcfg (recQueue aRecord) 0).getLsbD 7 = true ∧
    recordBad (sQueue 0) 0 (aRecord + 2 ^ 64) = true ∧ recordBad (sQueue 64) 0 aRecord = false ∧
    64 ≤ queueLoad (sQueue 64) 0 (recQueue aRecord) ∧ queueLoad (sQueue 63) 0 (recQueue aRecord) < 64 ∧
    judge s0 0 none 128 aRecord = some .qdisabled ∧ judge (sQueue 63) 0 (some (0, 1)) 128 aRecord = none ∧ recStages aRecord = 1 :=
  ⟨by decide, by decide +kernel, ⟨0, 2, rfl, by decide +kernel⟩, ⟨1, 1, rfl, by decide +kernel⟩, same_sender 64, by decide +kernel,
    by decide +kernel, by decide +kernel, by decide +kernel, by decide +kernel, by decide +kernel, by decide +kernel, by decide +kernel⟩

/-- A launch of two stages, its fibre in stage `k`; the queue between them holds `n` of two entries, at 65536. -/
def sStages (k n : Nat) : State :=
  let s := env { f0 with stage := k }
  { s with
    blocks := s.blocks.map fun b => { b with stage := k }
    launches := s.launches.map fun L => { L with
      stages := [{ Stage.init 0 1 with first := some stdDesc, next := 1, qpages := [65536], cap := 2, enqn := n },
        { Stage.init 0 1 with first := some stdDesc, next := 1 }] } }
/-- The queue's page is claimed by another fibre (R377). -/
def sHeld (k n : Nat) : State := { sStages k n with msys := { (sStages k n).msys with claims := [⟨1024, ⟨0, 1⟩, 0⟩] } }
theorem witness_StageQueues :
    (Quiet (sStages 0 1) f0 ∧ f0.stage + 1 < stageCount (sStages 0 1) f0 ∧ vecBad (sStages 0 1) f0 false (v 31) = false ∧
      guardMask f0 h0 ≠ 0 ∧ Quiet (sHeld 0 1) f0 ∧
      ∀ e d, linesHeld (sStages 0 1) f0.id ((DevOp.enq e d).addrs (sStages 0 1) f0) = false ∧
        linesHeld (sHeld 0 1) f0.id ((DevOp.enq e d).addrs (sHeld 0 1) f0) = true) ∧
    (let f := { f0 with stage := 1 }
     Quiet (sStages 1 1) f ∧ f.stage ≠ 0 ∧ vdstBad (sStages 1 1) f false false 31 = false ∧ guardMask f h0 ≠ 0 ∧
       linesHeld (sStages 1 1) f.id ((DevOp.deq 31).addrs (sStages 1 1) f) = false ∧
       deqPoison (sStages 1 1) f.launch f.stage f.block = none ∧
       Quiet (sHeld 1 1) f ∧ linesHeld (sHeld 1 1) f.id ((DevOp.deq 31).addrs (sHeld 1 1) f) = true ∧
       stageCount (sStages 1 1) f ≤ f.stage + 1) ∧
    ((∃ g, stage? (sStages 0 2) 1 0 = some g ∧ g.occupancy = g.cap ∧ queueFull (sStages 0 2) 1 0 g = true) ∧
      (∃ g, stage? (sStages 0 1) 1 0 = some g ∧ g.occupancy ≠ g.cap ∧ g.enqn < g.cap ∧ queueFull (sStages 0 1) 1 0 g = false) ∧
      ∃ L h, launch? (sStages 0 1) 1 = some L ∧ L.stages[0 + 1]? = some h ∧ h.entb = 0) ∧
    (List.replicate 64 (7 : Byte)).length = 64 ∧ Quiet s0 f0 ∧ f0.stage = 0 ∧ stageCount s0 f0 ≤ f0.stage + 1 :=
  ⟨⟨quiet_of rfl rfl (by decide +kernel), by decide +kernel, by decide +kernel, by decide +kernel,
      quiet_of rfl rfl (by decide +kernel), fun _ _ =>
        (by decide +kernel : linesHeld (sStages 0 1) f0.id ((DevOp.enq [] 0).addrs (sStages 0 1) f0) = false ∧
          linesHeld (sHeld 0 1) f0.id ((DevOp.enq [] 0).addrs (sHeld 0 1) f0) = true)⟩,
    ⟨quiet_of rfl rfl (by decide +kernel), by decide +kernel, by decide +kernel, by decide +kernel, by decide +kernel, by decide +kernel,
      quiet_of rfl rfl (by decide +kernel), by decide +kernel⟩,
    ⟨⟨_, rfl, by decide +kernel⟩, ⟨_, rfl, by decide +kernel⟩, _, _, rfl, rfl, by decide +kernel⟩, by decide, quiet0, by decide +kernel⟩
/-- Stage 1's block, ordered or not, and its queue, at the edges of what it may take. -/
def qStage (n d : Nat) : Stage := { Stage.init 0 1 with qpages := [65536], cap := 2, enqn := n, deqn := d }
def qBlock (taken : Nat) (gone : Bool) : Block := { newBlock s0 stdLaunch 1 0 0 stdDesc stdFit with deqCount := taken, withdrawn := gone }
def qLaunch (sync : BitVec 32) : Launch := { stdLaunch with stages := [{ Stage.init 0 1 with first := some { stdDesc with sync := sync } }] }
theorem witness_StageQueues_entries :
    ((firstDesc (qLaunch 0)).ordered = false ∧ (qBlock 0 true).withdrawn = true ∧ (qBlock 0 false).withdrawn = false ∧
      (qStage 1 1).occupancy = 0 ∧ (qStage 2 1).occupancy ≠ 0) ∧
    ((firstDesc (qLaunch (2 ^ 20))).ordered = true ∧ ((qBlock 1 false).deqCount < 2 ∧
      (qBlock 1 false).num * 2 + (qBlock 1 false).deqCount < (qStage 2 1).enqn) ∧ (qBlock 2 false).deqCount = 2) ∧
    (∃ L q g b, deqOf (sStages 1 0) 1 1 0 = some (L, q, g, b) ∧ deqFinds L q g b = .inr 1) ∧
    ∃ L q g b, deqOf (sStages 1 2) 1 1 0 = some (L, q, g, b) ∧ deqFinds L q g b = .inl 0 ∧ q.qpages ≠ [] :=
  ⟨by decide +kernel, by decide +kernel, ⟨_, _, _, _, rfl, by decide +kernel⟩, _, _, _, _, rfl, by decide +kernel⟩

/-- A released copy of fibre 0 to its scratchpad, from the entry's page. -/
def aCopy : CopyCmd :=
  { id := 1, fibre := ⟨0, 0⟩, launch := 1, stage := 0, block := 0, pc := page, inst := 0, src := page, dst := ptrMake 1 0 0
    rows := 1, rowBytes := 64, sstride := 0, dstride := 0, index := none, follow := false, evt := none, bar := none, expand := false
    hint := .none, table := none, capt := none, done := 0, stopped := false, landed := false, buf := [], strm := [] }
/-- A state with copies at core 0's engine. -/
def withCopies (cs : List CopyCmd) (s : State) : State := setCore s 0 { coreOf s 0 with copies := cs }
theorem witness_Exits :
    (Quiet s0 f0 ∧ guardMask f0 h0 ≠ 0 ∧ partnerWrites s0 f0 = false ∧ copiesOut s0 f0 = false) ∧
    (Quiet (withCopies [aCopy] s0) f0 ∧ copiesOut (withCopies [aCopy] s0) f0 = true) ∧
    (let f := fArr 0 0
     let s := sBar f 1 []
     fibre? s f.id = some f ∧ f.acquire = none ∧ (∀ k ∈ s.fibres, fibre? s k.id = some k) ∧
       (∃ b, blockOf s f = some b ∧ inBlock b waits3 = true) ∧ waits3 ∈ s.fibres ∧ waits3.id ≠ f.id ∧ waits3.status ≠ .exited ∧
       3 < barCount (descOf s f) .block ∧
       (∃ k ∈ barMembers s f .block, k ≠ f ∧ k.left = false ∧ k.status ≠ .saved ∧ (barOf s f .block 3).done < arrivedAt k .block 3) ∧
       (∀ k ∈ barMembers s f .block, k ≠ f → k.left = true ∨ (k.status ≠ .saved ∧ (barOf s f .block 3).done < arrivedAt k .block 3)) ∧
       ∀ c ∈ (barOf s f .block 3).copies, c.1 ≠ (barOf s f .block 3).done + 1) ∧
    fibre? s0 f0.id = some f0 ∧ f0.acquire = none ∧ f0.copyFaults = [] ∧ copiesOut s0 f0 = false ∧
      (∀ k ∈ s0.fibres, fibre? s0 k.id = some k) ∧ ∃ b, blockOf s0 f0 = some b ∧ ∀ g ∈ s0.fibres, inBlock b g = true → g = f0 :=
  ⟨⟨quiet0, by decide +kernel⟩, ⟨quiet_of rfl rfl (by decide +kernel), by decide +kernel⟩,
    ⟨rfl, rfl, by decide +kernel, ⟨_, rfl, by decide +kernel⟩, by decide +kernel⟩, rfl, rfl, rfl, by decide +kernel, by decide +kernel,
    _, rfl, by decide +kernel⟩

/-- A state whose partition 0 has a system handler. -/
def withSystrap (a : Word) (s : State) : State := updPart s 0 fun P => { P with systrap := a }
theorem witness_TrapWord :
    (let x : OpTrap := ⟨h0, true, 0xFFFF⟩
     let s := withSystrap 0x5000 s0
     Quiet s f0 ∧ guardMask f0 x.h ≠ 0 ∧ f0.regs.level = 0 ∧ x.sys = true ∧ (partn s (partOfCore s f0.id.core)).systrap ≠ 0) ∧
    (let x : OpTrap := ⟨h0, false, 0⟩
     Quiet s0 f0 ∧ guardMask f0 x.h ≠ 0 ∧ f0.regs.level = 0 ∧ x.sys = false ∧ handlerOf s0 f0 ≠ 0) ∧
    let x : OpTrap := ⟨h0, false, 0⟩
    let s := withSystrap 0x5000 (envD { stdDesc with handler := 0 } .none [f0])
    Quiet s f0 ∧ guardMask f0 x.h ≠ 0 ∧ handlerOf s f0 = 0 ∧ (partn s (partOfCore s f0.id.core)).systrap ≠ 0 :=
  ⟨⟨quiet_of rfl rfl (by decide +kernel), by decide +kernel⟩, ⟨quiet0, by decide +kernel⟩, quiet_of rfl rfl (by decide +kernel), by decide +kernel⟩

/-- Fibre 0 at a trap level, with a cause. -/
def atLevel (n : Nat) (cause : BitVec 32) : Fibre := withRegs f0 fun r => { r with level := n, t := { r.t with tcause := cause } }
theorem witness_TrapEntry :
    (let f := atLevel 2 0
     Quiet (env f) f ∧ f.regs.level = 2) ∧
    (Quiet s0 f0 ∧ f0.regs.level ≠ 2 ∧ (trapTarget s0 f0 true).1 = 0) ∧
    (Quiet s0 f0 ∧ f0.regs.level ≠ 2 ∧ (trapTarget s0 f0 false).1 ≠ 0) ∧
    let f := atLevel 1 0
    Quiet (withSystrap 0x5000 (env f)) f ∧ f.regs.level ≠ 2 ∧ (trapTarget (withSystrap 0x5000 (env f)) f false).1 ≠ 0 :=
  ⟨⟨quiet_of rfl rfl (by decide +kernel), rfl⟩, ⟨quiet0, by decide +kernel⟩, ⟨quiet0, by decide +kernel⟩, quiet_of rfl rfl (by decide +kernel),
    by decide +kernel⟩

/-- Fibre 0 at level 1, frozen in a state, with how it resumes. -/
def frozenIn (st : FStatus) (r : Option Resume) : Fibre := withRegs f0 fun g => { g with level := 1, frozen := st, resume := [r] }
theorem witness_ReturnFromTrap :
    (Quiet s0 f0 ∧ f0.regs.level = 0) ∧
    (∀ n, n = 1 ∨ n = 2 → let f := atLevel n 0x14
      Quiet (env f) f ∧ guardMask f h0 ≠ 0 ∧ (f.regs.level = 1 ∨ f.regs.level = 2) ∧ wfield f.regs.t.tcause 7 0 ≠ 0x18 ∧
        (wfield f.regs.t.tcause 7 0 = 0x19 → f.saveRec = none) ∧ f.regs.resume.head?.getD none = none ∧ f.regs.frozen = .ready) ∧
    (∀ st, st = .ready ∨ st = .barrier .block 3 1 false true → let f := frozenIn st (some ⟨page, some 1, none⟩)
      Quiet (big f) f ∧ guardMask f h0 ≠ 0 ∧ f.regs.level = 1 ∧ f.regs.frozen = st) ∧
    (let f := frozenIn .exited none
     Quiet (big f) f ∧ guardMask f h0 ≠ 0 ∧ f.regs.level = 1 ∧ ∃ b, blockOf (big f) f = some b) ∧
    (let f := atLevel 2 0x818
     Quiet (env f) f ∧ f.regs.level = 2 ∧ wfield f.regs.t.tcause 7 0 = 0x18) ∧
    let f := { atLevel 2 0x819 with saveRec := some ⟨.ready, none, 0, 0, f0.regs.t, 0, 0, 0, 0⟩ }
    Quiet (env f) f ∧ f.regs.level = 2 ∧ wfield f.regs.t.tcause 7 0 = 0x19 ∧ f.saveRec.isSome = true :=
  ⟨⟨quiet0, by decide +kernel⟩, fun n hn => by
      rcases hn with rfl | rfl <;> exact ⟨quiet_of rfl rfl (by decide +kernel), by decide +kernel⟩,
    fun st hs => by rcases hs with rfl | rfl <;> exact ⟨quiet_of rfl rfl (by decide +kernel), by decide +kernel⟩,
    ⟨quiet_of rfl rfl (by decide +kernel), by decide +kernel, rfl, _, rfl⟩,
    ⟨quiet_of rfl rfl (by decide +kernel), by decide +kernel⟩, quiet_of rfl rfl (by decide +kernel), by decide +kernel⟩
/-- Trap registers with a cause, the word that took it and a `%tf0`. -/
def tregs (cause : BitVec 32) (word : Nat) (tf0 : Word) : TRegs :=
  { f0.regs.t with tcause := cause, tinst := BitVec.ofNat 128 word, tf0 := tf0 }
theorem witness_ReturnFromTrap_rows :
    (tregs 0x214 0 0).tcause.getLsbD 9 = true ∧
    (∀ c : BitVec 32, c.toNat < 0x200 → (tregs c 0 0).tcause.getLsbD 9 = false) ∧
    (wfield (tregs 2 0 0x1000000000000000).tcause 7 0 = 0x02 ∧ wfield (tregs 2 0 0x1000000000000000).tf0 63 56 = 0x10 ∧
      wfield (tregs 2 0 0x1100000000000000).tf0 63 56 = 0x11) ∧
    (wfield (tregs 0x0A (w8 0x09 2 0 0 0 3) 0).tcause 7 0 = 0x0A ∧ wfield (tregs 0x0A (w8 0x09 2 0 0 0 3) 0).tinst 14 7 = 0x09 ∧
      wfield (tregs 0x0A (w8 0x0A 2 0 0 0 3) 0).tinst 14 7 = 0x0A ∧ wfield (tregs 0x0A (w8 0x50 0 0 0 0 0) 0).tinst 14 7 = 0x50) ∧
    ∀ c ∈ [0x01, 0x11, 0x12, 0x13, 0x14, 0x08, 0x09, 0x0B, 0x0C, 0x03, 0x04, 0x05, 0x06, 0x10],
      wfield (tregs (BitVec.ofNat 32 c) 0 0).tcause 7 0 = c :=
  ⟨by decide, fun c hc => by
      simp only [tregs, BitVec.getLsbD]
      exact Nat.testBit_lt_two_pow (by simpa using hc), by decide +kernel, by decide +kernel, by decide +kernel⟩

/-- Fibre 0 with a result outstanding to `v3`. -/
def fOwes : Fibre := { f0 with pend := [⟨0, [.v 3], some [], 0, none, false⟩] }
/-- Fibre 0 with no lane in its mask. -/
def fNoLane : Fibre := withRegs f0 fun r => { r with em := 0 }
theorem witness_IssueChecks :
    (let x : OpV8 := ⟨h0, .i64, false, false, 30, v 31, s 31⟩
     Quiet s0 f0 ∧ vecBad s0 f0 (IntTy.wide x.ty) x.a = true) ∧
    (let x : OpV8 := ⟨h0, .i32, false, false, 32, v 31, s 31⟩
     Quiet s0 f0 ∧ vdstBad s0 f0 (IntTy.wide x.ty) x.wd x.d = true) ∧
    (let x : OpV8 := ⟨h0, .i64, false, false, 30, v 28, s 31⟩
     Quiet (env fNoLane) fNoLane ∧ vecBad (env fNoLane) fNoLane (IntTy.wide x.ty) x.a = false ∧
      vecBad (env fNoLane) fNoLane (IntTy.wide x.ty) x.b = false ∧ vdstBad (env fNoLane) fNoLane (IntTy.wide x.ty) x.wd x.d = false ∧
      activeMask fNoLane x.h = 0) ∧
    (let x : OpV8 := ⟨⟨0, false, true⟩, .i32, false, false, 30, v 28, s 31⟩
     Unheld (env fOwes) fOwes ∧ awaitsFlags fOwes = false ∧ fOwes.pend ≠ [] ∧ x.h.h = true) ∧
    let x : OpV8 := ⟨h0, .i64, false, false, 30, v 2, s 31⟩
    Unheld (env fOwes) fOwes ∧ awaitsFlags fOwes = false ∧ x.h.h = false ∧ vecBad (env fOwes) fOwes (IntTy.wide x.ty) x.a = false ∧
      vecBad (env fOwes) fOwes (IntTy.wide x.ty) x.b = false ∧ vdstBad (env fOwes) fOwes (IntTy.wide x.ty) x.wd x.d = false ∧
      ∃ r ∈ fOwes.pending, r ∈ guardNames x.h ++ [.em] ++ vecNames (IntTy.wide x.ty) x.a ++ vecNames (IntTy.wide x.ty) x.b ++
        vdstNames (IntTy.wide x.ty) x.wd x.d :=
  ⟨⟨quiet0, by decide +kernel⟩, ⟨quiet0, by decide +kernel⟩, ⟨quiet_of rfl rfl (by decide +kernel), by decide +kernel⟩,
    ⟨unheld_of rfl rfl (by decide +kernel), by decide +kernel⟩, unheld_of rfl rfl (by decide +kernel), by decide +kernel⟩

/-! ## Witnesses: memory -/

/-- The entry's page with another leaf. -/
def envK (l : Leaf) (f : Fibre) : State := let s := big f
  setCore s 0 { coreOf s 0 with tlb := [⟨1, stdEntry, l⟩] }
/-- A page of 64 KiB at 0 with a kind. -/
def ofKind (k : PageKind) : Leaf := ⟨0, 16, true, false, k⟩

/-- Nothing is poisoned. -/
def clean (s : State) : Bool := s.msys.poison == [] && s.msys.granules == [] && s.cores.all fun c => c.2.spoison == []
theorem clean_core {s : State} (h : (s.cores.all fun c => c.2.spoison == []) = true) (c : Nat) : (coreOf s c).spoison = [] := by
  unfold coreOf Tab.getD Tab.get
  cases hf : s.cores.find? fun e => e.1 == c with
  | none => rfl
  | some e => simpa using List.all_eq_true.mp h e (List.mem_of_find?_eq_some hf)
theorem clean_accs {s : State} (h : clean s = true) (accs : List LaneAcc) : accsPoison s accs = none := by
  simp only [clean, Bool.and_eq_true, beq_iff_eq] at h
  have byte : ∀ a, isPoison s.msys a = false := fun a => by
    have : lineSt s.msys a = 0 := by
      simp only [lineSt, granOf, h.1.2, Tab.getD, Tab.get, Granule.init, List.find?_nil, Option.map_none, Option.getD_none]
      exact vofn_getD _ _ _ (Nat.mod_lt _ (by decide))
    simp [isPoison, h.1.1, this]
  have part : ∀ q, partPoison s q = none := fun q => by
    unfold partPoison
    split
    · simp [clean_core h.2]
    · simp [byte]
  simp [accsPoison, part]

/-- The hypotheses of a load. -/
def Loading (i : Instr) (s : State) (f : Fibre) : Prop := ∃ L accs fills, loadForm i = some L ∧ Quiet s f ∧ L.refused s f = false ∧
  L.mask f ≠ 0 ∧ combine (L.checks s f (L.mask f)) = .ok accs fills ∧ accsPoison s accs = none
theorem loading {i s f} (L : LoadForm) (hl : loadForm i = some L) (q : Quiet s f)
    (h : (!L.refused s f && L.mask f != 0 && lets (combine (L.checks s f (L.mask f))) fun _ _ => clean s) = true) :
    Loading i s f := by
  simp only [Bool.and_eq_true, Bool.not_eq_true', bne_iff_ne] at h
  obtain ⟨a, t, hc, hp⟩ := of_lets h.2
  exact ⟨L, a, t, hl, q, h.1.1, h.1.2, hc, clean_accs hp a⟩

theorem witness_Loads :
    (let f := at4 (page + 65535) 0; Loading (.ld8 ⟨h0, .n8, .none, false, 30, s 4⟩) (env f) f) ∧
    (let f := at4 (page + 4) 0; Loading (.ld12 ⟨h0, .i64, .stream, false, 30, s 4, v 0, 0xFFFC⟩) (env f) f) ∧
    (let f := at4 (page + 0x800000000000) 0; Loading (.ld16 ⟨h0, .i16, .keep, false, 30, s 4, v 1, 0x800000000000⟩) (env f) f) ∧
    (let f := at4 8191 0; Loading (.lds8 ⟨h0, .i8, .none, false, 30, s 4⟩) (big f) f) ∧
    (let f := at4 0 0; Loading (.ldr12 ⟨h0, .n32, .none, false, 30, s 4, v 0, 8188⟩) (big f) f) ∧
    (let f := at4 (page + 8) 0; Loading (.ldc8 ⟨h0, .n64, .none, false, 30, s 4⟩) (envK { ofKind .normal with w := false } f) f) ∧
    (let f := at4 (page + 65536 - 1024) 0; Loading (.ldblk8 ⟨h0, .x8, .none, false, 24, s 4⟩) (env f) f) ∧
    let f := at4 (page + 65536) 0; Loading (.ldsc12 ⟨h0, .n64, .none, 31, s 4, 0xFFF8⟩) (env f) f :=
  ⟨loading _ rfl (quiet_of rfl rfl (by decide +kernel)) (by decide +kernel), loading _ rfl (quiet_of rfl rfl (by decide +kernel)) (by decide +kernel),
    loading _ rfl (quiet_of rfl rfl (by decide +kernel)) (by decide +kernel), loading _ rfl (quiet_of rfl rfl (by decide +kernel)) (by decide +kernel),
    loading _ rfl (quiet_of rfl rfl (by decide +kernel)) (by decide +kernel), loading _ rfl (quiet_of rfl rfl (by decide +kernel)) (by decide +kernel),
    loading _ rfl (quiet_of rfl rfl (by decide +kernel)) (by decide +kernel), loading _ rfl (quiet_of rfl rfl (by decide +kernel)) (by decide +kernel)⟩

/-- An ordered launch in round 1, quanta of 256 words, and its fibre. -/
def ordDesc : Desc := { bigDesc with sync := BitVec.ofNat 32 (2 ^ 20 + 8 * 2 ^ 23) }
def sOrd (f : Fibre) : State := envD ordDesc .none [f]
/-- What `InQuantum` asks, as a test. -/
def quantumB (s : State) (f : Fibre) (dests : List RegId) : Bool := freeB s f && heldMode s f && f.pend == [] && !sharedPending s f &&
  !quantumDue s f && decide (f.qundo.length + newUndo f.qundo dests ≤ 64)
theorem quantum_of {s f r dests} (hf : s.fibres = f :: r) (hc : s.cur = f.id) (h : quantumB s f dests = true) : InQuantum s f dests := by
  simp only [quantumB, Bool.and_eq_true, beq_iff_eq, Bool.not_eq_true', decide_eq_true_eq] at h
  exact ⟨free_of hf hc h.1.1.1.1.1, h.1.1.1.1.2, h.1.1.1.2, h.1.1.2, h.1.2, h.2⟩
/-- A fibre of an ordered launch before its first access, or with an earlier store of its quantum held (R383). -/
def aStore : Held := ⟨0, .store [⟨0, page, [⟨0, 4, .dev 0, .normal, 0⟩]⟩] 4 [7], f0.regs, [], [], false, [], false, []⟩
def inQ (held : Bool) (f : Fibre) : Fibre :=
  if held then { f with unfin := [aStore], seq := 1, qlines := [(none, 0)], qwrites := [(none, 0)] } else f
/-- The hypotheses of a load that runs ahead, and of one within a quantum. -/
def LoadingAhead (i : Instr) (s : State) (f : Fibre) : Prop := ∃ L accs fills, loadForm i = some L ∧ Quiet s f ∧
  L.refused { s with ahead := true } f = false ∧ L.mask f ≠ 0 ∧ combine (L.checks { s with ahead := true } f (L.mask f)) = .ok accs fills ∧
  touchesUncached accs = false ∧ ∀ n, RegId.w n ∉ L.dests
theorem loadingAhead {i s f} (L : LoadForm) (hl : loadForm i = some L) (q : Quiet s f)
    (hd : (L.dests.all fun d => match d with
      | .w _ => false
      | _ => true) = true)
    (h : (!L.refused { s with ahead := true } f && L.mask f != 0 &&
      lets (combine (L.checks { s with ahead := true } f (L.mask f))) fun a _ => !touchesUncached a) = true) : LoadingAhead i s f := by
  simp only [Bool.and_eq_true, Bool.not_eq_true', bne_iff_ne] at h
  obtain ⟨a, t, hc, hp⟩ := of_lets h.2
  refine ⟨L, a, t, hl, q, h.1.1, h.1.2, hc, by simpa using hp, fun n hn => ?_⟩
  simpa using List.all_eq_true.mp hd _ hn
def LoadingQuantum (i : Instr) (s : State) (f : Fibre) : Prop := ∃ L accs fills ws, loadForm i = some L ∧ InQuantum s f L.dests ∧
  L.refused s f = false ∧ L.mask f ≠ 0 ∧ combine (L.checks s f (L.mask f)) = .ok accs fills ∧ touchesUncached accs = false ∧
  (f.seq = f.qseq ∨ f.qlines.length + newLines f.qlines (DevOp.load accs L.size L.signed L.dest L.hint).keys ≤ 256 ∧
    f.qwrites.length ≤ 64) ∧ tilesAwaited s f (f.unfin.map (·.op)) = false ∧
  earlyLoad f (f.unfin.map (·.op)) (.load accs L.size L.signed L.dest L.hint) (rankLines L.hint accs (cached f fills s)) = .ok ws
theorem loadingQuantum {i s f} (L : LoadForm) (hl : loadForm i = some L) (q : InQuantum s f L.dests)
    (h : (!L.refused s f && L.mask f != 0 && lets (combine (L.checks s f (L.mask f))) fun a t => !touchesUncached a &&
      (f.seq == f.qseq || decide (f.qlines.length + newLines f.qlines (DevOp.load a L.size L.signed L.dest L.hint).keys ≤ 256 ∧
        f.qwrites.length ≤ 64)) && !tilesAwaited s f (f.unfin.map (·.op)) &&
      (earlyLoad f (f.unfin.map (·.op)) (.load a L.size L.signed L.dest L.hint) (rankLines L.hint a (cached f t s))).toBool) = true) :
    LoadingQuantum i s f := by
  simp only [Bool.and_eq_true, Bool.not_eq_true', bne_iff_ne] at h
  obtain ⟨a, t, hc, hp⟩ := of_lets h.2
  simp only [Bool.and_eq_true, Bool.not_eq_true', Bool.or_eq_true, beq_iff_eq, decide_eq_true_eq] at hp
  cases he : earlyLoad f (f.unfin.map (·.op)) (.load a L.size L.signed L.dest L.hint) (rankLines L.hint a (cached f t s)) with
  | ok ws => exact ⟨L, a, t, ws, hl, q, h.1.1, h.1.2, hc, hp.1.1.1, hp.1.1.2, hp.1.2, he⟩
  | error e => rw [he] at hp; cases hp.2
theorem witness_Loads_kept :
    (let f := at4 page 0; LoadingAhead (.ld8 ⟨h0, .i64, .none, false, 30, s 4⟩) (env f) f) ∧
    (let f := at4 8128 0; LoadingAhead (.lds8 ⟨h0, .n8, .none, false, 31, s 4⟩) (big f) f) ∧
    (let f := inQ false (at4 (page + 8) 0); LoadingQuantum (.ld8 ⟨h0, .i64, .none, false, 30, s 4⟩) (sOrd f) f) ∧
    (let f := inQ true (at4 page 0); LoadingQuantum (.ldsc8 ⟨h0, .n32, .none, 31, s 4⟩) (sOrd f) f) ∧ s0.msys.hru = [] :=
  ⟨loadingAhead _ rfl (quiet_of rfl rfl (by decide +kernel)) (by decide) (by decide +kernel),
    loadingAhead _ rfl (quiet_of rfl rfl (by decide +kernel)) (by decide) (by decide +kernel),
    loadingQuantum _ rfl (quantum_of rfl rfl (by decide +kernel)) (by decide +kernel),
    loadingQuantum _ rfl (quantum_of rfl rfl (by decide +kernel)) (by decide +kernel), rfl⟩

/-- The hypotheses of a store, with what its elements are. -/
def Storing (i : Instr) (s : State) (f : Fibre) (p : List LaneAcc → Bool) : Prop := ∃ S accs fills, storeForm i = some S ∧ Quiet s f ∧
  S.refused s f = false ∧ S.mask f ≠ 0 ∧ combine (S.checks s f (S.mask f)) = .ok accs fills ∧ claimed s f.id accs = false ∧
  p accs = true
theorem storing {i s f p} (S : StoreForm) (hl : storeForm i = some S) (q : Quiet s f)
    (h : (!S.refused s f && S.mask f != 0 && lets (combine (S.checks s f (S.mask f))) fun a _ => !claimed s f.id a && p a) = true) :
    Storing i s f p := by
  simp only [Bool.and_eq_true, Bool.not_eq_true', bne_iff_ne] at h
  obtain ⟨a, t, hc, hp⟩ := of_lets h.2
  simp only [Bool.and_eq_true, Bool.not_eq_true'] at hp
  exact ⟨S, a, t, hl, q, h.1.1, h.1.2, hc, hp.1, hp.2⟩
/-- No element is a device register's or of a Coded page. -/
def ordinary (accs : List LaneAcc) : Bool := accs.all fun a => regOf a == none && codedAcc a == none

theorem witness_Stores :
    (let f := at4 (page + 65528) 0; Storing (.st8 ⟨h0, .n64, .none, s 4, s 5⟩) (env f) f ordinary) ∧
    (let f := at4 8191 0; Storing (.sts8 ⟨h0, .i8, .none, s 4, v 31⟩) (big f) f ordinary) ∧
    (let f := at4 0 0; Storing (.str16 ⟨h0, .i32, .none, s 4, v 31, v 0, 8188⟩) (big f) f ordinary) ∧
    (let f := at4 (page + 65536 - 512) 0; Storing (.stblk8 ⟨h0, .x4, .none, s 4, v 28⟩) (env f) f ordinary) ∧
    (let f := at4 page 1; Storing (.stsc16 ⟨h0, .i16, .none, s 4, s 5, 65534⟩) (env f) f ordinary) ∧
    let f := at4 (page + 8) 1; Storing (.stsc8 ⟨h0, .i64, .none, s 4, s 5⟩) (envK (ofKind (.comm .i64 0)) f) f ordinary :=
  ⟨storing _ rfl (quiet_of rfl rfl (by decide +kernel)) (by decide +kernel), storing _ rfl (quiet_of rfl rfl (by decide +kernel)) (by decide +kernel),
    storing _ rfl (quiet_of rfl rfl (by decide +kernel)) (by decide +kernel), storing _ rfl (quiet_of rfl rfl (by decide +kernel)) (by decide +kernel),
    storing _ rfl (quiet_of rfl rfl (by decide +kernel)) (by decide +kernel), storing _ rfl (quiet_of rfl rfl (by decide +kernel)) (by decide +kernel)⟩

/-- The hypotheses of a store that runs ahead, and of one within a quantum. -/
def StoringAhead (i : Instr) (s : State) (f : Fibre) : Prop := ∃ S accs fills, storeForm i = some S ∧ Quiet s f ∧
  S.refused { s with ahead := true } f = false ∧ S.mask f ≠ 0 ∧ combine (S.checks { s with ahead := true } f (S.mask f)) = .ok accs fills ∧
  touchesUncached accs = false ∧ touchesScratch accs = false
theorem storingAhead {i s f} (S : StoreForm) (hl : storeForm i = some S) (q : Quiet s f)
    (h : (!S.refused { s with ahead := true } f && S.mask f != 0 &&
      lets (combine (S.checks { s with ahead := true } f (S.mask f))) fun a _ => !touchesUncached a && !touchesScratch a) = true) :
    StoringAhead i s f := by
  simp only [Bool.and_eq_true, Bool.not_eq_true', bne_iff_ne] at h
  obtain ⟨a, t, hc, hp⟩ := of_lets h.2
  simp only [Bool.and_eq_true, Bool.not_eq_true'] at hp
  exact ⟨S, a, t, hl, q, h.1.1, h.1.2, hc, hp.1, hp.2⟩
def StoringQuantum (i : Instr) (s : State) (f : Fibre) : Prop := ∃ S accs fills, storeForm i = some S ∧ InQuantum s f [] ∧
  S.refused s f = false ∧ S.mask f ≠ 0 ∧ combine (S.checks s f (S.mask f)) = .ok accs fills ∧
  (f.seq = f.qseq ∨ f.qwrites.length + newLines f.qwrites ((accs.flatMap accKeys).foldl addNew []) ≤ 64 ∧
    f.qlines.length ≤ 256)
theorem storingQuantum {i s f} (S : StoreForm) (hl : storeForm i = some S) (q : InQuantum s f [])
    (h : (!S.refused s f && S.mask f != 0 && lets (combine (S.checks s f (S.mask f))) fun a _ =>
      f.seq == f.qseq || decide (f.qwrites.length + newLines f.qwrites ((a.flatMap accKeys).foldl addNew []) ≤ 64 ∧
        f.qlines.length ≤ 256)) = true) :
    StoringQuantum i s f := by
  simp only [Bool.and_eq_true, Bool.not_eq_true', bne_iff_ne] at h
  obtain ⟨a, t, hc, hp⟩ := of_lets h.2
  simp only [Bool.or_eq_true, beq_iff_eq, decide_eq_true_eq] at hp
  exact ⟨S, a, t, hl, q, h.1.1, h.1.2, hc, hp⟩
theorem witness_Stores_kept :
    (let f := at4 page 0; StoringAhead (.st8 ⟨h0, .n64, .none, s 4, s 5⟩) (env f) f) ∧
    (let f := inQ false (at4 8128 0); StoringQuantum (.sts8 ⟨h0, .n8, .none, s 4, v 31⟩) (sOrd f) f) ∧
    let f := inQ true (at4 (page + 64) 1); StoringQuantum (.stsc8 ⟨h0, .n64, .none, s 4, s 5⟩) (sOrd f) f :=
  ⟨storingAhead _ rfl (quiet_of rfl rfl (by decide +kernel)) (by decide +kernel),
    storingQuantum _ rfl (quantum_of rfl rfl (by decide +kernel)) (by decide +kernel),
    storingQuantum _ rfl (quantum_of rfl rfl (by decide +kernel)) (by decide +kernel)⟩

/-- A store to elements of one Coded block; a store to a device register. -/
theorem witness_SpecialStores :
    (let f := at4 (page + 8) 0
     Storing (.st12 ⟨h0, .n32, .none, s 4, v 2, v 1, 0⟩) (envK (ofKind (.coded 1 false 16)) f) f fun accs => accs != [] &&
       mergePoison (envK (ofKind (.coded 1 false 16)) f) accs == none && accs.all fun a => regOf a == none && codedAcc a == some (8, codedPar 1 false 16, 0)) ∧
    let f := at4 (page + 0x2050) 0x10000
    Storing (.stsc8 ⟨h0, .n64, .none, s 4, s 5⟩) (envK ⟨0xF * 2 ^ 40, 16, true, false, .strong⟩ f) f fun accs => match accs with
      | [a] => regOf a == some 0x2050 && codedAcc a == none
      | _ => false :=
  ⟨storing _ rfl (quiet_of rfl rfl (by decide +kernel)) (by decide +kernel), storing _ rfl (quiet_of rfl rfl (by decide +kernel)) (by decide +kernel)⟩

/-- The hypotheses of an update but for a claim. -/
def Updating (i : Instr) (s : State) (f : Fibre) (claim : Bool) : Prop := ∃ U accs fills, updForm i = some U ∧ Quiet s f ∧
  U.refused s f = false ∧ U.mask f ≠ 0 ∧ combine (U.checks s f (U.mask f)) = .ok accs fills ∧ claimed s f.id accs = claim ∧
  updatePoison s accs = none
theorem updating {i s f claim} (U : UpdForm) (hl : updForm i = some U) (q : Quiet s f)
    (h : (!U.refused s f && U.mask f != 0 && lets (combine (U.checks s f (U.mask f))) fun a _ =>
      claimed s f.id a == claim && clean s) = true) : Updating i s f claim := by
  simp only [Bool.and_eq_true, Bool.not_eq_true', bne_iff_ne] at h
  obtain ⟨a, t, hc, hp⟩ := of_lets h.2
  simp only [Bool.and_eq_true, beq_iff_eq] at hp
  exact ⟨U, a, t, hl, q, h.1.1, h.1.2, hc, hp.1, clean_accs hp.2 a⟩

/-- Line 0 claimed by another fibre (R377). -/
def claimedBy (id : FibreId) (s : State) : State := { s with msys := { s.msys with claims := [⟨0, id, 0⟩] } }
/-- An element that is a device register. -/
def aRegister : LaneAcc := ⟨0, page, [⟨0, 8, .dev (0xF * 2 ^ 40 + 0x2050), .strong, 0⟩]⟩
theorem witness_Updates :
    (let f := at4 (page + 65532) 0; Updating (.atom8 ⟨h0, .add, .none, false, 30, s 4, v 31⟩) (env f) f false) ∧
    (let f := at4 page 0; Updating (.atomf12 ⟨h0, .addF64, .none, false, 30, s 4, v 28, v 0, 8⟩) (env f) f false) ∧
    (let f := at4 page 0; Updating (.red16 ⟨h0, .xor, .none, s 4, s 5, v 1, 4⟩) (env f) f false) ∧
    (let f := at4 page 0; Updating (.redf8 ⟨h0, .addF32, .none, s 4, v 31⟩) (envK (ofKind (.comm .f32 0)) f) f false) ∧
    (let f := at4 (page + 60) 0; Updating (.red8 ⟨h0, .xor, .none, s 4, s 5⟩) (claimedBy ⟨0, 1⟩ (env f)) f true) ∧
    (let a : LaneAcc := ⟨31, page, [⟨0, 4, .dev 65532, .normal, 0⟩]⟩
     ∃ q pa, a.parts = [q] ∧ q.loc = .dev pa ∧ (∀ m o, q.kind ≠ .comm m o) ∧ regOf a = none) ∧
    (∃ q pa, aRegister.parts = [q] ∧ q.loc = .dev pa ∧ (∀ m o, q.kind ≠ .comm m o) ∧ regOf aRegister = some 0x2050) ∧
    ∀ pa, pa = 65532 ∨ pa = 2 ^ 44 → let a : LaneAcc := ⟨0, page, [⟨0, 4, .dev pa, .comm .f32 0, 0⟩]⟩
      ∃ q m o, a.parts = [q] ∧ q.loc = .dev pa ∧ q.kind = .comm m o ∧ ownDev s0 pa = (pa == 65532) :=
  ⟨updating _ rfl (quiet_of rfl rfl (by decide +kernel)) (by decide +kernel), updating _ rfl (quiet_of rfl rfl (by decide +kernel)) (by decide +kernel),
    updating _ rfl (quiet_of rfl rfl (by decide +kernel)) (by decide +kernel), updating _ rfl (quiet_of rfl rfl (by decide +kernel)) (by decide +kernel),
    updating _ rfl (quiet_of rfl rfl (by decide +kernel)) (by decide +kernel), ⟨_, _, rfl, rfl, (fun _ _ h => by cases h), by decide +kernel⟩,
    ⟨_, _, rfl, rfl, (fun _ _ h => by cases h), by decide +kernel⟩,
    fun pa h => by rcases h with rfl | rfl <;> exact ⟨_, _, _, rfl, rfl, rfl, by decide +kernel⟩⟩

/-- The hypotheses of a compare or exchange. -/
def Swapping (i : Instr) (s : State) (f : Fibre) : Prop := ∃ C accs fills, casForm i = some C ∧ Quiet s f ∧ C.refused s f = false ∧
  C.mask f ≠ 0 ∧ combine (C.checks s f (C.mask f)) = .ok accs fills ∧ claimed s f.id accs = false ∧ updatePoison s accs = none
theorem swapping {i s f} (C : CasForm) (hl : casForm i = some C) (q : Quiet s f)
    (h : (!C.refused s f && C.mask f != 0 && lets (combine (C.checks s f (C.mask f))) fun a _ =>
      claimed s f.id a == false && clean s) = true) : Swapping i s f := by
  simp only [Bool.and_eq_true, Bool.not_eq_true', bne_iff_ne] at h
  obtain ⟨a, t, hc, hp⟩ := of_lets h.2
  simp only [Bool.and_eq_true, beq_iff_eq] at hp
  exact ⟨C, a, t, hl, q, h.1.1, h.1.2, hc, hp.1, clean_accs hp.2 a⟩
theorem witness_CompareSwap :
    (let f := at4 page 0; Swapping (.atomcas12 ⟨h0, .cas64, .none, false, 30, s 4, v 28, v 26, 0⟩) (env f) f) ∧
    (let f := at4 page 0; Swapping (.atomcas16 ⟨h0, .xchg32, .none, false, 31, s 4, v 28, v 0, 65532⟩) (env f) f) ∧
    (let a : LaneAcc := ⟨31, page, [⟨0, 8, .dev 65528, .normal, 0⟩]⟩
     ∃ q pa, a.parts = [q] ∧ q.loc = .dev pa ∧ regOf a = none) ∧
    ∃ q pa, aRegister.parts = [q] ∧ q.loc = .dev pa ∧ regOf aRegister = some 0x2050 :=
  ⟨swapping _ rfl (quiet_of rfl rfl (by decide +kernel)) (by decide +kernel),
    swapping _ rfl (quiet_of rfl rfl (by decide +kernel)) (by decide +kernel), ⟨_, _, rfl, rfl, by decide +kernel⟩,
    _, _, rfl, rfl, by decide +kernel⟩

/-- A copy to a page of another device. -/
theorem witness_Fences : (Quiet s0 f0 ∧ guardMask f0 h0 ≠ 0 ∧ (openCopies s0 f0.id).any (copyForeign s0) = false) ∧
    (let s := withCopies [{ aCopy with dst := page }] (envK ⟨2 ^ 44, 16, true, false, .normal⟩ f0)
     Quiet s f0 ∧ (openCopies s f0.id).any (copyForeign s) = true) ∧
    s0.msys.hncNum = 0 ∧
    let s := { s0 with msys := { s0.msys with hncNum := 1, hncLog := [(1, 64, 0)], hncFences := [⟨.core, 0, 3, 0, [(1, 1)]⟩] } }
    s.msys.hncNum ≠ 0 ∧ ∃ F ∈ s.msys.hncFences, scopeIncludes s F.scope F.core F.quad 0 0 = true ∧
      scopeIncludes s .stack 0 0 F.core F.quad = true ∧ scopeIncludes s .quad 0 0 F.core F.quad = false ∧ F.view ≠ [] :=
  ⟨⟨quiet0, by decide +kernel⟩, ⟨quiet_of rfl rfl (by decide +kernel), by decide +kernel⟩, rfl, by decide +kernel, by decide +kernel⟩

/-- The hypotheses of an accumulator load or store of tile 15. -/
def TileMove (s : State) (f : Fibre) (store wide : Bool) (disp : Int) : Prop := Quiet s f ∧ scaBad (Tests.s 4) = false ∧
  scaBad (Tests.s 5) = false ∧ 15 < accTiles s f ∧ guardMask f h0 ≠ 0 ∧ tileBusy s f [15] = false ∧
  ∃ accs fills, (combine (rowChecks s f (if store then .accStore else .accLoad) wide (ptrAdd (f.sreg 4) disp)
    (sext 32 (f.sreg 5).toNat))).uniform = .ok accs fills ∧ claimed s f.id accs = false ∧ accsPoison s accs = none ∧
    (tilePoison s f 15 fun r c => accs.any fun a => a.parts.any fun q => rowWords a.lane q.off q.len r c) = false ∧
    ∀ a ∈ accs, ∀ q ∈ a.parts, q.off + q.len ≤ 256
theorem tileMove {s f store wide disp} (q : Quiet s f)
    (h : (decide (15 < accTiles s f) && guardMask f h0 != 0 && !tileBusy s f [15] && (s.blocks.all fun b => b.tilePoison == []) &&
      lets (combine (rowChecks s f (if store then .accStore else .accLoad) wide (ptrAdd (f.sreg 4) disp)
        (sext 32 (f.sreg 5).toNat))).uniform fun accs _ => clean s && !claimed s f.id accs && accs.all fun a => a.parts.all fun q => decide (q.off + q.len ≤ 256)) =
      true) : TileMove s f store wide disp := by
  simp only [Bool.and_eq_true, Bool.not_eq_true', bne_iff_ne, decide_eq_true_eq, beq_iff_eq, List.all_eq_true] at h
  obtain ⟨⟨⟨⟨h1, h2⟩, h3⟩, h5⟩, h6⟩ := h
  obtain ⟨a, t, hc, hp⟩ := of_lets h6
  simp only [Bool.and_eq_true, Bool.not_eq_true', List.all_eq_true, decide_eq_true_eq] at hp
  refine ⟨q, by decide, by decide, h1, h2, h3, a, t, hc, hp.1.2, clean_accs hp.1.1 a, ?_, hp.2⟩
  unfold tilePoison
  cases hb : blockOf s f with
  | none => rfl
  | some b => simp [Block.tileBad, h5 b (by unfold blockOf at hb; exact List.mem_of_find?_eq_some hb)]
/-- `s4` at a tile image, `s5` the stride: 256 bytes, and 0, which puts every row at one place. -/
theorem witness_AccumulatorMoves :
    (let x : OpLdacc := ⟨h0, false, .none, 15, s 4, s 5, 0xFF00⟩
     let f := at4 (page + 256) 256
     TileMove (big f) f false x.wide (sext 16 x.disp.toNat)) ∧
    let x : OpStacc := ⟨h0, true, .none, s 4, s 5, 15⟩
    let f := at4 (page + 65536 - 256) 0
    TileMove (big f) f true x.wide 0 :=
  ⟨tileMove (quiet_of rfl rfl (by decide +kernel)) (by decide +kernel), tileMove (quiet_of rfl rfl (by decide +kernel)) (by decide +kernel)⟩

/-- `s2` the source, `s4` the destination, `s6` the rows and their bytes; `s7` the strides. -/
def forCopy (src dst shape strides : Word) : Fibre := withS 2 src (withS 4 dst (withS 6 shape (withS 7 strides f0)))
/-- The command of a copy without FOLLOW, GATHER, EVT or BAR from `s2` to `s4`, of the shape in `s6` and `s7`. -/
def copyOf (x : OpCopy) (f : Fibre) : CopyCmd :=
  let p := shapeOf (f.sreg 6) (f.sreg 7)
  { id := commandId f, fibre := f.id, launch := f.launch, stage := f.stage, block := f.block, pc := f.regs.pc
    inst := wordOf (.copy x), src := f.sreg 2, dst := f.sreg 4, rows := p.rows, rowBytes := p.rowBytes, sstride := p.sstride
    dstride := p.dstride, index := none, hint := x.hint, follow := x.follow, evt := none, bar := none, expand := x.expand
    table := none, capt := none, done := 0, buf := [], strm := [], stopped := false, landed := false }
theorem witness_Copies :
    (let x : OpCopy := ⟨h0, .none, s 2, s 4, s 6, v 0, false, false, false, 0, false, false, 0⟩
     let f := forCopy page (ptrMake 1 0 0) 0x0000002000000100 0x0000010000000100
     Quiet (big f) f ∧ scaBad x.a = false ∧ scaBad x.b = false ∧ scaBad x.c = false ∧ x.c.num.toNat % 2 = 0 ∧ guardMask f x.h ≠ 0 ∧
      copyFault (big f) f (copyOf x f) ((shapeOf (f.sreg 6) (f.sreg 7)).bad x.gather) = none) ∧
    (let x : OpCopy := ⟨h0, .none, s 2, s 4, s 6, v 0, false, false, false, 0, false, false, 0⟩
     let f := forCopy page (ptrMake 1 0 1) 0x0000002000000100 0x0000010000000100
     Quiet (big f) f ∧
      copyFault (big f) f (copyOf x f) ((shapeOf (f.sreg 6) (f.sreg 7)).bad x.gather) = some (.range, ptrMake 1 0 1)) ∧
    (let x : OpCopy := ⟨h0, .none, s 2, s 4, s 6, v 31, false, true, true, 15, true, false, 9⟩
     Quiet (big f0) f0 ∧ (x.gather = true → vecBad (big f0) f0 false x.sd = false) ∧
      (x.bar = true → x.barnum.toNat < barCount (descOf (big f0) f0) .block)) ∧
    (let x : OpCopy := ⟨h0, .none, s 2, s 4, s 6, v 0, true, false, false, 0, false, false, 0⟩
     let f := forCopy page (ptrMake 1 0 0) 0x0000000100010000 0
     let s := placeBytes 16 (encode (.mma ⟨h0, 0, v 4, v 16, v 5, .f16, .f16, true, 0⟩)) (big f)
     Quiet s f ∧ x.follow = true ∧ follower s f = .matrix) ∧
    let f := at4 (page + 64) 0
    Quiet (big f) f ∧ scaBad (s 4) = false ∧ guardMask f h0 ≠ 0 ∧ tagFaults (f.sreg 4) = [] ∧ ptrSpace (f.sreg 4) = 0 ∧
      ptrAddr (f.sreg 4) % 64 = 0 :=
  ⟨⟨quiet_of rfl rfl (by decide +kernel), by decide +kernel⟩, ⟨quiet_of rfl rfl (by decide +kernel), by decide +kernel⟩,
    ⟨quietBig, by decide +kernel⟩, ⟨quiet_of rfl rfl (by decide +kernel), by decide +kernel⟩, quiet_of rfl rfl (by decide +kernel),
    by decide +kernel⟩

/-- A copy that reads bytes, and one that writes bytes, where a span is. -/
def takes (r : CopyNext) (p : Span → Bool) : Bool := match r with
  | .take a bs => p a && bs != []
  | _ => false
def puts (r : CopyNext) (p : Span → Bool) : Bool := match r with
  | .put d bs => p d && bs != []
  | _ => false
theorem of_takes {r p} (h : takes r p = true) : ∃ a bs, r = .take a bs ∧ p a = true ∧ bs ≠ [] := by
  cases r with
  | take a bs =>
    simp only [takes, Bool.and_eq_true, bne_iff_ne] at h
    exact ⟨a, bs, rfl, h⟩
  | _ => cases h
theorem of_puts {r p} (h : puts r p = true) : ∃ d bs, r = .put d bs ∧ p d = true ∧ bs ≠ [] := by
  cases r with
  | put d bs =>
    simp only [puts, Bool.and_eq_true, bne_iff_ne] at h
    exact ⟨d, bs, rfl, h⟩
  | _ => cases h
/-- A copy that has read two bytes, one of them poisoned. -/
def bufCopy (dst : Word) : CopyCmd := { aCopy with dst := dst, buf := [(7, false), (8, true)] }
/-- An expanding copy of four elements, whose codes are one bit each, that has read the byte it needs. -/
def formCopy : CopyCmd :=
  { aCopy with expand := true, rowBytes := 4, strm := [(0, false)], capt := some (some ⟨.e4m3, false, 7, [(256, 1, 0)], 0⟩) }
theorem witness_Copies_moves :
    (let s := withCopies [aCopy] (big f0)
     fibre? s aCopy.fibre = some f0 ∧ aCopy.bar = none ∧ (blockOf s f0).isSome = true ∧
       { aCopy with bar := some (3, 0) }.bar = some (3, 0) ∧ s.msys.hru = [] ∧
       (coreOf s 0).copies.find? (fun x => x.id == 1) = some aCopy ∧
       (∃ a bs, copyNext s 0 aCopy 64 = .take a bs ∧ (a.loc == .dev 0) = true ∧ bs ≠ []) ∧
       ∃ a bs, plainNext s aCopy [] [] 64 = .take a bs ∧ (a.loc == .dev 0) = true ∧ bs ≠ []) ∧
    (let c := bufCopy (ptrMake 1 0 0)
     let s := withCopies [c] (big f0)
     (coreOf s 0).copies.find? (fun x => x.id == 1) = some c ∧
       (∃ d bs, copyNext s 0 c 1 = .put d bs ∧ (d.loc == .scr 0 0) = true ∧ bs ≠ []) ∧
       ∃ d bs, plainNext s c [] [] 1 = .put d bs ∧ (d.loc == .scr 0 0) = true ∧ bs ≠ []) ∧
    (let c := bufCopy (page + 64)
     let s := withCopies [c] (big f0)
     ∃ d bs, copyNext s 0 c 64 = .put d bs ∧ (d.loc == .dev 64) = true ∧ bs ≠ []) ∧
    (∃ bs, copyNext (withCopies [formCopy] (big f0)) 0 formCopy 64 = .form bs) ∧
    (let s := { s0 with msys := { s0.msys with shadows := [⟨5, 7, (0, 0, 1), 1, false, 0, false⟩] } }
     (∃ b, engineShadow s 0 [] (5 + 0) = some b) ∧ engineShadow s 0 [] (6 + 0) = none ∧ ownDev s (6 + 0) = true) :=
  ⟨⟨rfl, rfl, by decide +kernel, rfl, rfl, rfl, of_takes (p := fun d => d.loc == .dev 0) (by decide +kernel),
      of_takes (p := fun d => d.loc == .dev 0) (by decide +kernel)⟩,
    ⟨rfl, of_puts (p := fun d => d.loc == .scr 0 0) (by decide +kernel), of_puts (p := fun d => d.loc == .scr 0 0) (by decide +kernel)⟩,
    of_puts (p := fun d => d.loc == .dev 64) (by decide +kernel), ⟨_, by rfl⟩, ⟨_, rfl⟩, by decide +kernel⟩

/-- The hypotheses of `publish` of the pages from `s4` on, `s5` bytes: how many elements its checks give, whether it waits for
copies, or for claimed lines or a page that is not OPEN, and whether a stage queue stands there. -/
def Publishing (s : State) (f : Fibre) (n : Nat) (waits held queued : Bool) : Prop := Quiet s f ∧ guardMask f h0 ≠ 0 ∧ ∃ accs fills,
  combine (publishChecks s f (f.sreg 4) (f.sreg 5)) = .ok accs fills ∧ accs.length = n ∧
  publishWaits s f.id ((accs.drop 1).map fun a => a.pa / 65536) = waits ∧
  (publishHeld s f.id ((accs.drop 1).map fun a => a.pa / 65536) || publishSealed s ((accs.drop 1).map fun a => a.pa / 65536)) = held ∧
  (s.msys.shadows.find? fun b => b.landed && ((accs.drop 1).map fun a => a.pa / 65536).contains (b.pa / 65536) &&
    inStageQueue s b.pa 1).isSome = queued
theorem publishing {s f n waits held queued} (q : Quiet s f) (h : (guardMask f h0 != 0 &&
    lets (combine (publishChecks s f (f.sreg 4) (f.sreg 5))) fun a _ => a.length == n &&
      publishWaits s f.id ((a.drop 1).map fun a => a.pa / 65536) == waits &&
      (publishHeld s f.id ((a.drop 1).map fun a => a.pa / 65536) || publishSealed s ((a.drop 1).map fun a => a.pa / 65536)) == held &&
      (s.msys.shadows.find? fun b => b.landed && ((a.drop 1).map fun a => a.pa / 65536).contains (b.pa / 65536) &&
        inStageQueue s b.pa 1).isSome == queued) = true) : Publishing s f n waits held queued := by
  simp only [Bool.and_eq_true, bne_iff_ne] at h
  obtain ⟨a, t, hc, hp⟩ := of_lets h.2
  simp only [Bool.and_eq_true, beq_iff_eq] at hp
  exact ⟨q, h.1, a, t, hc, hp.1.1.1, hp.1.1.2, hp.1.2, hp.2⟩
/-- A landed shadow byte at 0. -/
def shadowed (s : State) : State := { s with msys := { s.msys with shadows := [⟨0, 7, (0, 0, 1), 1, true, 0, false⟩] } }
/-- A live stage queue at 0. -/
def queueAt0 (s : State) : State := { s with launches := s.launches.map fun L => { L with
  stages := [{ Stage.init 0 1 with first := some stdDesc, next := 1, qpages := [0], cap := 2 },
    { Stage.init 0 1 with first := some stdDesc, next := 1 }] } }
/-- A Sealed page at 0 in a state of R235, with other devices that hold copies. -/
def sealed (st : SealState) (remote : Table (Nat × Nat)) (f : Fibre) : State :=
  let s := envK (ofKind .sealed) f
  { s with msys := { s.msys with seals := [⟨0, 16, st, [], remote⟩] } }
/-- The hypotheses of `seal` and `unseal` of the page at `s4`. -/
def Sealing (s : State) (f : Fibre) : Prop := Quiet s f ∧ guardMask f h0 ≠ 0 ∧
  ∃ fills, combine [(0, f.sreg 4, sealChecks s f (f.sreg 4))] = .ok [⟨0, page + 9, [⟨0, 1, .dev 9, .sealed, 16⟩]⟩] fills
/-- Another fibre's store into the page is unfinished (R235). -/
def sealLate (f : Fibre) : State := { sealed .opened [] f with fibres := [f, { f0 with id := ⟨0, 1⟩, isCur := false, unfin := [aStore] }] }
theorem witness_PageOperations :
    (let f := at4 page 0; Publishing (env f) f 1 false false false) ∧
    (let f := at4 page 65536; Publishing (shadowed (env f)) f 2 false false false) ∧
    (let f := at4 page 1; Publishing (withCopies [{ aCopy with dst := page }] (env f)) f 2 true false false) ∧
    (let f := at4 page 1; Publishing (claimedBy ⟨0, 1⟩ (shadowed (env f))) f 2 false true false) ∧
    (let f := at4 page 1; Publishing (queueAt0 (shadowed (env f))) f 2 false false true) ∧
    (∀ st, st = .isSealed ∨ st = .draining → let f := at4 page 1; Publishing (shadowed (sealed st [] f)) f 2 false true false) ∧
    (∃ b ∈ (shadowed s0).msys.shadows, b.landed = true ∧ b.pa / 65536 ∈ [0] ∧ ownDev (shadowed s0) b.pa = true) ∧
    (∀ st, let f := at4 (page + 9) 0; Sealing (sealed st [] f) f ∧ f.unsealing = none ∧ sealState (sealed st [] f) 0 = st ∧
      sealWaits (sealed st [] f) f.id 0 16 = false) ∧
    (let f := at4 (page + 9) 0; Sealing (sealLate f) f ∧ sealState (sealLate f) 0 = .opened ∧ sealWaits (sealLate f) f.id 0 16 = true) ∧
    (let f := at4 (page + 9) 0; Sealing (sealed .isSealed [(3, 0, 1)] f) f ∧ sealState (sealed .isSealed [(3, 0, 1)] f) 0 = .isSealed) ∧
    let f := { at4 (page + 9) 0 with unsealing := some 0 }
    Sealing (sealed .opened [] f) f ∧ f.unsealing = some (9 / 2 ^ 16 * 2 ^ 16) ∧ sealState (sealed .opened [] f) 0 ≠ .draining :=
  ⟨publishing (quiet_of rfl rfl (by decide +kernel)) (by decide +kernel), publishing (quiet_of rfl rfl (by decide +kernel)) (by decide +kernel),
    publishing (quiet_of rfl rfl (by decide +kernel)) (by decide +kernel), publishing (quiet_of rfl rfl (by decide +kernel)) (by decide +kernel),
    publishing (quiet_of rfl rfl (by decide +kernel)) (by decide +kernel),
    fun st hs => by rcases hs with rfl | rfl <;> exact publishing (quiet_of rfl rfl (by decide +kernel)) (by decide +kernel),
    ⟨_, List.mem_singleton_self _, by decide +kernel⟩,
    fun st => by
      cases st <;>
      exact ⟨⟨quiet_of rfl rfl (by decide +kernel), by decide +kernel, [⟨1, stdEntry, ofKind .sealed⟩], by decide +kernel⟩, by decide +kernel⟩,
    ⟨⟨quiet_of rfl rfl (by decide +kernel), by decide +kernel, [⟨1, stdEntry, ofKind .sealed⟩], by decide +kernel⟩, by decide +kernel⟩,
    ⟨⟨quiet_of rfl rfl (by decide +kernel), by decide +kernel, [⟨1, stdEntry, ofKind .sealed⟩], by decide +kernel⟩, by decide +kernel⟩,
    ⟨⟨quiet_of rfl rfl (by decide +kernel), by decide +kernel, [⟨1, stdEntry, ofKind .sealed⟩], by decide +kernel⟩, by decide +kernel⟩⟩

/-- Line 0 is dirty, held whole by its home. -/
def sDirty : State := { s0 with msys := { s0.msys with home := (List.range 64).map fun i => (i, 1), dirty := [(0, [(0, 1)])] } }
theorem witness_LineOperations :
    let f := at4 (page + 65535 - 64) 0
    Quiet (env f) f ∧ scaBad (s 4) = false ∧ guardMask f h0 ≠ 0 ∧
      (∃ accs fills, combine (linesChecks (env f) f true (f.sreg 4) 1) = .ok accs fills) ∧
      (∃ accs fills, combine (linesChecks (env f) f false (f.sreg 4) 2) = .ok accs fills) ∧ activeMask f h0 ≠ 0 ∧
      Tab.get s0.msys.dirty 0 = none ∧ State.Inv sDirty ∧ Tab.get sDirty.msys.dirty 0 = some [(0, 1)] ∧
      (heldBytes sDirty.msys 0).length = 64 :=
  ⟨quiet_of rfl rfl (by decide +kernel), by decide, by decide +kernel,
    (of_lets (p := fun _ _ => true) (by decide +kernel)).imp fun _ h => h.imp fun _ h => h.1,
    (of_lets (p := fun _ _ => true) (by decide +kernel)).imp fun _ h => h.imp fun _ h => h.1, by decide +kernel, rfl,
    by unfold State.Inv; decide +kernel, rfl, by decide +kernel⟩

/-- A granule bound to a table or none, perhaps poisoned; table 7 captured, and a directory. -/
def sGran (table : BitVec 16) (st : BitVec 2) : State :=
  { withP (fun P => { P with pktdir := 1, captured := [(7, ⟨.e4m3, false, 7, [], 0⟩)] }) s0 with
    msys := { s0.msys with granules := [(1, ⟨Vector.ofFn fun i => if i.val = 63 then st else 1, table⟩)] } }
theorem witness_PackedLines :
    let f := at4 (page + 4096) 7
    Quiet (env f) f ∧ scaBad (s 4) = false ∧ scaBad (s 5) = false ∧ guardMask f h0 ≠ 0 ∧
      (∃ accs fills, combine [(0, f.sreg 4, pkChecks (env f) f false (f.sreg 4))] = .ok accs fills) ∧
      (∃ accs fills, combine [(0, f.sreg 4, pkChecks (env f) f true (f.sreg 4))] = .ok accs fills) ∧
      bindPoison (env f) (partOfCore (env f) f.id.core) (f.sreg 5) = none ∧
    wfield (0x10000 : Word) 63 16 ≠ 0 ∧ wfield (7 : Word) 63 16 = 0 ∧ (partn s0 0).pktdir.getLsbD 0 = false ∧
    (bindStatus s0 0 4096 7).1 ≠ 0 ∧ (granOf (sGran 7 1).msys 4096).table = 7 ∧ (bindStatus (sGran 7 1) 0 4096 7).1 = 0 ∧
    (bindStatus (sGran 7 3) 0 4096 7).1 ≠ 0 ∧ (bindStatus (sGran 7 1) 0 4096 0).1 = 0 ∧
    (bindStatus (sGran 0 2) 0 4096 7).1 = 0 ∧ (granOf (sGran 0 2).msys 4096).table = 0 ∧
    (bindStatus (sGran 0 2) 0 4096 7).2 = some ⟨.e4m3, false, 7, [], 0⟩ :=
  ⟨quiet_of rfl rfl (by decide +kernel), by decide, by decide, by decide +kernel,
    (of_lets (p := fun _ _ => true) (by decide +kernel)).imp fun _ h => h.imp fun _ h => h.1,
    (of_lets (p := fun _ _ => true) (by decide +kernel)).imp fun _ h => h.imp fun _ h => h.1, by decide +kernel⟩

/-! ## Witnesses: matrix engine and coded registers -/

/-- A command of fibre 0's block to tile 3, or of a block of launch 2. -/
def aMat (launch : Word) : MatCmd :=
  { id := 1, form := .mma .f16 .f16, d := 3, c := 3, cz := true, fibre := ⟨0, 0⟩, launch := launch, stage := 0, block := 0
    rows := List.replicate 64 0, bfrag := [], scales := [], arows := some [], waits := none, redo := none }
/-- Commands in core 0's matrix unit. -/
def withMat (cs : List MatCmd) (s : State) : State := setCore s 0 { coreOf s 0 with mat := cs }
/-- What a matrix command asks of its operands. -/
def Matrix (s : State) (f : Fibre) (form : MatForm) (d ctile : BitVec 4) (cz : Bool) (a b c : Opnd) (sd : Option Opnd) : Prop :=
  Quiet s f ∧ d.toNat < accTiles s f ∧ (cz = false → ctile.toNat < accTiles s f) ∧ a.cls = false ∧ vecBad s f false a = false ∧
    (MatForm.size form = 64 → c.cls = false ∧ vecBad s f false c = false) ∧
    runBad f b (MatForm.bRegs form) (MatForm.bRegs form) = false ∧ (∀ o, sd = some o → runBad f o 2 2 = false) ∧
    guardMask f h0 ≠ 0 ∧ rowFault s f form (rowIndices s f (MatForm.size form) a c) = none
/-- Whether the command port refuses a command with those tiles. -/
def refuses (s : State) (f : Fibre) (cmd : MatCmd) : Bool := portRefuses s f (.mat cmd)
/-- A copy of fibre 0 that has landed, or not. -/
def sLanded (landed : Bool) : State := withCopies [{ aCopy with landed := landed }] (big f0)
theorem witness_MatrixCommands_accepted :
    (∃ b, blockOf (sLanded true) f0 = some b ∧ rowsPoison (sLanded true) b (aMat 1) = false ∧
      rowsPoison (sLanded true) b { aMat 1 with waits := some 1 } = false) ∧
    (aMat 1).waits = none ∧ { aMat 1 with waits := some 0 }.waits = some 0 ∧ { aMat 1 with waits := some 1 }.waits = some 1 ∧
    (∃ y ∈ (coreOf (sLanded false) 0).copies, y.id = 1 ∧ y.fibre = f0.id ∧ y.landed = false) ∧
    ∀ y ∈ (coreOf (sLanded true) 0).copies, y.id = 1 → y.fibre = f0.id → y.landed = true :=
  ⟨⟨_, rfl, by decide +kernel⟩, rfl, rfl, rfl, by decide +kernel, by decide +kernel⟩
theorem witness_MatrixCommands :
    Matrix (big f0) f0 (.mma .f16 .e4m3) 15 15 false (v 4) (v 16) (v 5) none ∧
    Matrix (big f0) f0 (.mmas .e2m1 .e4m3) 15 0 true (v 4) (v 16) (v 5) (some (v 30)) ∧
    Matrix (big f0) f0 (.mmap 8) 15 0 true (v 4) (v 16) (v 5) none ∧
    Matrix (big f0) f0 .mmac 15 0 true (v 4) (v 16) ⟨0, 0, false, 0⟩ none ∧
    refuses (big f0) f0 (aMat 1) = false ∧ Quiet (withMat [aMat 1] (big f0)) f0 ∧ refuses (withMat [aMat 1] (big f0)) f0 (aMat 1) = true ∧
    Quiet (withMat (List.replicate 8 (aMat 2)) (big f0)) f0 ∧ refuses (withMat (List.replicate 8 (aMat 2)) (big f0)) f0 (aMat 1) = true ∧
    refuses (withMat (List.replicate 7 (aMat 2)) (big f0)) f0 (aMat 1) = false :=
  ⟨⟨quietBig, by decide +kernel, by decide +kernel, by decide, by decide +kernel, by decide +kernel, by decide +kernel, by simp,
      by decide +kernel, by decide +kernel⟩,
    ⟨quietBig, by decide +kernel, by decide +kernel, by decide, by decide +kernel, by decide +kernel, by decide +kernel,
      fun o ho => by cases ho; decide +kernel, by decide +kernel, by decide +kernel⟩,
    ⟨quietBig, by decide +kernel, by decide +kernel, by decide, by decide +kernel, by decide +kernel, by decide +kernel, by simp,
      by decide +kernel, by decide +kernel⟩,
    ⟨quietBig, by decide +kernel, by decide +kernel, by decide, by decide +kernel, by decide +kernel, by decide +kernel, by simp,
      by decide +kernel, by decide +kernel⟩,
    by decide +kernel, quiet_of rfl rfl (by decide +kernel), by decide +kernel, quiet_of rfl rfl (by decide +kernel), by decide +kernel,
    by decide +kernel⟩

theorem witness_TileInstructions :
    Quiet (big f0) f0 ∧ (15 : BitVec 4).toNat < accTiles (big f0) f0 ∧ guardMask f0 h0 ≠ 0 ∧ activeMask f0 h0 ≠ 0 ∧
      tileBusy (big f0) f0 [15, 0] = false ∧ tileBusy (big f0) f0 [15] = false ∧ (∀ w, tilePoison (big f0) f0 15 (viewWords w) = false) ∧
      (∀ w h, tilePoison (big f0) f0 15 (laneWords w h 63 (activeMask f0 h0)) = false) ∧
      (∀ n : Bool, (tilePoison (big f0) f0 15 fun r c => decide (r < 32) && (n || decide (c < 32))) = false) ∧
      (∃ b, blockOf (big f0) f0 = some b ∧ 15 < b.tiles.length) ∧
      scaBad (s 31) = false ∧ vdstBad (big f0) f0 true false 30 = false ∧ vdstBad (big f0) f0 false false 31 = false ∧
      vecBad (big f0) f0 true (v 30) = false ∧ vecBad (big f0) f0 false (v 31) = false ∧
    Quiet (withMat [aMat 1] (big f0)) f0 ∧ tileBusy (withMat [aMat 1] (big f0)) f0 [3] = true ∧
      (3 : BitVec 4).toNat < accTiles (withMat [aMat 1] (big f0)) f0 :=
  ⟨quietBig, by decide +kernel, by decide +kernel, by decide +kernel, by decide +kernel, by decide +kernel, by decide +kernel,
    by decide +kernel, by decide +kernel, ⟨_, rfl, by decide +kernel⟩, by decide, by decide +kernel, by decide +kernel,
    by decide +kernel, by decide +kernel, quiet_of rfl rfl (by decide +kernel), by decide +kernel, by decide +kernel⟩

/-- `s5` a KPARAM value: FP32, three dimensions, 32 bits a value; and one that R231 refuses. -/
theorem witness_CodedRegisters :
    (let x : OpFrcdec := ⟨h0, .f64, 28, v 0, 3, 64⟩
     let P : CodedPar := ⟨x.ty == .f64, x.dim.toNat, x.rate.toNat⟩
     Quiet s0 f0 ∧ runBad f0 x.a (codecCodes P) (codecCodes P) = false ∧ x.d.toNat % codecValues P = 0 ∧
      (∀ j < codecValues P, f0.present (x.d.toNat + j) = true) ∧ activeMask f0 x.h ≠ 0) ∧
    (let x : OpFrcenc := ⟨h0, .f32, 31, v 2, v 30, true, 1, 4⟩
     let P : CodedPar := ⟨x.ty == .f64, x.dim.toNat, x.rate.toNat⟩
     Quiet s0 f0 ∧ runBad f0 x.a (codecValues P) (codecValues P) = false ∧ (x.ref = true → runBad f0 x.b (codecCodes P) (codecCodes P) = false) ∧
      x.d.toNat % codecCodes P = 0 ∧ (∀ j < codecCodes P, f0.present (x.d.toNat + j) = true) ∧ activeMask f0 x.h ≠ 0 ∧
      ∀ g < codecBlocks P, (codecRead P f0 x.a.num.toNat g).any (Coded.special P) = false) ∧
    (let x : OpFrchdr := ⟨h0, 31, v 4, s 5⟩
     let f := at4 0 0x304
     Quiet (env f) f ∧ scaBad x.b = false ∧ vdstBad (env f) f false false x.d = false ∧ runBad f x.a 1 1 = false ∧ activeMask f x.h ≠ 0 ∧
      ∃ P, kparamOf (f.sreg x.b.num.toNat) = some P ∧ runBad f x.a (codecCodes P) (codecCodes P) = false) ∧
    let f := at4 0 0x101
    Quiet (env f) f ∧ kparamOf (f.sreg 5) = none :=
  ⟨⟨quiet0, by decide +kernel⟩, ⟨quiet0, by decide +kernel⟩,
    ⟨quiet_of rfl rfl (by decide +kernel), by decide, by decide +kernel, by decide +kernel, by decide +kernel, ⟨false, 3, 4⟩, by decide +kernel⟩,
    quiet_of rfl rfl (by decide +kernel), by decide +kernel⟩

theorem witness_EmulatedWords : Quiet s0 f0 := quiet0

/-! ## Witnesses: events of fibres -/

/-- A fence by fibre 0 that is unfinished, a load whose early value has been obtained, and a fibre that has issued one word
since, after some rollbacks. -/
def aHeld : Held := ⟨0, .fence .device, f0.regs, [], [], false, [], false, []⟩
def anEarly (v : Word) : Held :=
  ⟨0, .load [⟨0, page, [⟨0, 4, .dev 0, .normal, 0⟩]⟩] 4 false (.sca 31) .none, f0.regs, [.s 31], [(none, 0)], true, [.s 31 v], true, []⟩
/-- Another fibre is in the middle of a commit that has line 0 (R360). -/
def holds0 (s : State) : State := { s with fibres := s.fibres ++ [{ mate with committing := true, qheld := [(none, 0)] }] }
def fHeld (h : Held) (conflict : Bool) (rolled : Word) : Fibre :=
  { withRegs f0 fun r => { r with pc := page + 8 } with unfin := [h], conflict := conflict, seq := 1, rbnow := rolled }
theorem fibre_env (f : Fibre) (h : f.id = ⟨0, 0⟩) : fibre? (env f) ⟨0, 0⟩ = some f := by simp [fibre?, env, h]
theorem fibre_envD (d : Desc) (p : Preempt) (f : Fibre) (h : f.id = ⟨0, 0⟩) : fibre? (envD d p [f]) ⟨0, 0⟩ = some f := by
  simp [fibre?, envD, h]

theorem witness_ResultsAndAccesses :
    (fibre? (env fOwes) ⟨0, 0⟩ = some fOwes ∧ (∃ p ws, fOwes.pend.find? (fun q => q.seq == 0) = some p ∧ p.writes = some ws ∧
      p.trap = none ∧ windowWrites (env fOwes) fOwes ws = []) ∧ (env fOwes).sameCycle = []) ∧
    (∀ n, n = 3 ∨ n = 4 → let f := fHeld aHeld false n
     fibre? (env f) ⟨0, 0⟩ = some f ∧ heldMode (env f) f = false ∧ f.conflict = false ∧ f.unfin = [aHeld] ∧ f.moving = [] ∧
       ladderDue f = (n == 4) ∧ aHeld.early = false ∧ (performOp ⟨0, 0⟩ aHeld.op (env f)).ok = true) ∧
    (let f := fHeld aHeld false 0
     let s := withCopies [{ aCopy with dst := page }] (envK ⟨2 ^ 44, 16, true, false, .normal⟩ f)
     (performOp ⟨0, 0⟩ aHeld.op s).ok = false ∧ heldMode s f = false) ∧
    (let f := fHeld (anEarly 0) false 0
     fibre? (env f) ⟨0, 0⟩ = some f ∧ heldMode (env f) f = false ∧ f.unfin = [anEarly 0] ∧ ladderDue f = false ∧ (anEarly 0).early = true ∧
       commitHeld (env f) ⟨0, 0⟩ (anEarly 0).op.accs = false ∧ f.moving = [] ∧ fibre? (holds0 (env f)) ⟨0, 0⟩ = some f ∧
       heldMode (holds0 (env f)) f = false ∧ commitHeld (holds0 (env f)) ⟨0, 0⟩ (anEarly 0).op.accs = true) ∧
    ∀ n, n = 3 ∨ n = 4 → let f := fHeld aHeld true n
      fibre? (env f) ⟨0, 0⟩ = some f ∧ heldMode (env f) f = false ∧ f.conflict = true ∧ f.unfin = [aHeld] ∧ ladderDue f = (n == 4) :=
  ⟨⟨fibre_env _ rfl, ⟨_, _, rfl, rfl, rfl, rfl⟩, rfl⟩,
    fun n hn => by rcases hn with rfl | rfl <;> exact ⟨fibre_env _ rfl, by decide +kernel⟩,
    ⟨by decide +kernel, by decide +kernel⟩, ⟨fibre_env _ rfl, by decide +kernel, rfl, by decide +kernel, rfl, by decide +kernel, rfl, rfl,
      by decide +kernel⟩,
    fun n hn => by rcases hn with rfl | rfl <;> exact ⟨fibre_env _ rfl, by decide +kernel⟩⟩

/-- Two fibres of slot 0: `mate` READY since a cycle, at a clock. -/
def sSlot (cur : Fibre) (since clock : Nat) : State := { env cur with fibres := [cur, { mate with readySince := since }], clock := clock }
theorem witness_SlotsAndWaitingTraps :
    (let g := { mate with readySince := 0 }
     let c := { f0 with isCur := false, status := .acquire }
     nextReady ((sSlot c 0 0).fibres.filter fun f => f.id.core == 0 && f.id.pos / 4 == 0) = some g ∧
       fibre? (sSlot c 0 0) g.id = some g ∧ slotCurrent (sSlot c 0 0) 0 0 = none) ∧
    (∀ clock, clock = 11 ∨ clock = 12 → let g := { mate with readySince := 0 }
      nextReady ((sSlot f0 0 clock).fibres.filter fun f => f.id.core == 0 && f.id.pos / 4 == 0) = some g ∧
        fibre? (sSlot f0 0 clock) g.id = some g ∧ slotCurrent (sSlot f0 0 clock) 0 0 = some f0 ∧ f0.status = .current ∧
        (sSlot f0 0 clock).clock = clock ∧ max g.readySince f0.curSince = 0 ∧ g.id ≠ f0.id) ∧
    (let g := { f0 with status := .ready }
     nextReady ((env g).fibres.filter fun f => f.id.core == 0 && f.id.pos / 4 == 0) = some g ∧ fibre? (env g) g.id = some g ∧
       slotCurrent (env g) 0 0 = some g ∧ g.status ≠ .current) ∧
    nextReady (s0.fibres.filter fun f => f.id.core == 0 && f.id.pos / 4 == 0) = none ∧
    let r : Trap := ⟨1, false, f0.regs.t, 0⟩
    let f := { f0 with waitTrap := some r }
    fibre? (env f) f.id = some f ∧ f.status ≠ .saved ∧ f.waitTrap = some r ∧ f.pend = [] ∧ f.unfin = [] ∧ f.moving = [] ∧ f.regs.level ≠ 2 ∧
      (trapTarget (env f) f r.sys).1 ≠ 0 :=
  ⟨⟨rfl, rfl, rfl⟩, fun c h => by rcases h with rfl | rfl <;> exact ⟨rfl, rfl, rfl, rfl, rfl, rfl, by decide +kernel⟩,
    ⟨rfl, rfl, rfl, by decide +kernel⟩, rfl,
    fibre_env _ rfl, by simp [f0, newFibre], rfl, rfl, rfl, rfl, by decide +kernel, by decide +kernel⟩

/-- Fibre 0 in ACQUIRE since cycle 0 with some cycles counted; it asks for more registers than it may hold. -/
def fAsks (counted : Nat) : Fibre := { f0 with status := .acquire, isCur := false, stuckFor := 1, acquire := some ⟨512, 0, counted, 1, 0⟩ }
def sAsks (counted : Nat) : State := { env (fAsks counted) with clock := 5000 }
theorem sAsks_same (n : Nat) : grantPending 0 0 16 (sAsks n) = sAsks n := by
  have hp : pendingAcquires (sAsks n) 0 0 = [fAsks n] := by
    have : (sAsks n).fibres.filter (fun f => f.id.core == 0 && f.id.pos / 16 == 0 && f.acquire.isSome) = [fAsks n] := by
      simp [sAsks, env, fAsks, f0, newFibre, stdFit]
    simp [pendingAcquires, this]
  have hg : grantUnits (sAsks n) (fAsks n) 512 = none := by
    have e : (fAsks n).regs = f0.regs := rfl
    have : (fAsks n).regs.ext = 0 := rfl
    simp [grantUnits, this, firstFit, runFree, List.range, List.range.loop]
  have ha : ((fAsks n).acquire.map (·.n)).getD 0 = 512 := rfl
  simp only [grantPending, hp, ha, hg]
theorem witness_LadderAndRegisters :
    (∀ c, c < 3 → let f := { f0 with escLevel := c, rbnow := 25 }
      fibre? (env f) ⟨0, 0⟩ = some f ∧ f.escLevel + 1 = c + 1 ∧ levelAt f (c + 1) ≤ f.rbnow.toNat) ∧
    (let f := { f0 with rbnow := 3 }; f.escLevel + 1 = 1 ∧ f.rbnow.toNat < levelAt f 1) ∧ f0.escLevel + 1 ≠ 2 ∧
    (let u := grantPending 0 0 16 (sAsks 1)
     regDeadlock u 0 0 = true ∧ youngest u ((quadFibres u 0 0).filter (·.acquiring)) = some (fAsks 1) ∧
       (fAsks 1).acquire = some ⟨512, 0, 1, 1, 0⟩ ∧ fibre? u (fAsks 1).id = some (fAsks 1)) ∧
    ∀ n, n = 4095 ∨ n = 4096 → fibre? (sAsks n) (fAsks n).id = some (fAsks n) ∧ (fAsks n).acquiring = true ∧
      (fAsks n).acquire = some ⟨512, 0, n, 1, 0⟩ ∧ quadStuck (sAsks n) 0 0 = true ∧
      let s := { sAsks n with fibres := [fAsks n, { mate with status := .ready }] }
      fibre? s (fAsks n).id = some (fAsks n) ∧ quadStuck s 0 0 = false := by
  refine ⟨fun c hc => ⟨fibre_env _ rfl, rfl, ?_⟩, by decide +kernel, by decide +kernel, ?_, fun n hn => ⟨rfl, ?_, rfl, ?_, rfl, ?_⟩⟩
  · match c, hc with
    | 0, _ => decide +kernel
    | 1, _ => decide +kernel
    | 2, _ => decide +kernel
  · intro u
    have hu : u = sAsks 1 := sAsks_same 1
    rw [hu]
    exact ⟨by decide +kernel, rfl, rfl, rfl⟩
  · rfl
  · rcases hn with rfl | rfl <;> decide +kernel
  · rcases hn with rfl | rfl <;> decide +kernel

/-- A fibre whose quantum has run for some words, and one that waits to commit. -/
def fOrd (n : Word) : Fibre := withRegs f0 fun r => { r with lclock := n }
def fCommit (conflict : Bool) : Fibre := { f0 with status := .commit, isCur := false, conflict := conflict }
/-- What the clauses on commits ask of a launch. -/
def Commits (s : State) (f : Fibre) : Prop := ∃ L, launch? s L.id = some L ∧ (firstDesc L).ordered = true ∧ advanceRound L s = s ∧
  roundLacksBlock s L = false ∧ nextCommit s L = some f ∧ fibre? s f.id = some f ∧ s.msys.hru = []
theorem commits (f : Fibre) (h : (!(roundMembers (sOrd f) ((sOrd f).launches.headD stdLaunch)).isEmpty &&
    !roundLacksBlock (sOrd f) ((sOrd f).launches.headD stdLaunch)) = true)
    (hn : nextCommit (sOrd f) ((sOrd f).launches.headD stdLaunch) = some f) (hf : fibre? (sOrd f) f.id = some f) : Commits (sOrd f) f := by
  simp only [Bool.and_eq_true, Bool.not_eq_true'] at h
  refine ⟨(sOrd f).launches.headD stdLaunch, rfl, ?_, ?_, h.2, hn, hf, rfl⟩
  · show (firstDesc ((sOrd f0).launches.headD stdLaunch)).ordered = true
    decide +kernel
  · unfold advanceRound
    rw [h.1]
    simp
theorem witness_QuantaAndUpdates :
    (∀ n, n = 256 ∨ n = 255 → fibre? (sOrd (fOrd n)) (fOrd n).id = some (fOrd n) ∧ (fOrd n).status.issues = true ∧
      (fOrd n).waitTrap = none ∧ awaitsFlags (fOrd n) = false ∧ quantumDue (sOrd (fOrd n)) (fOrd n) = (n == 256)) ∧
    (Commits (sOrd f0) f0 ∧ f0.status ≠ .commit) ∧
    (let f := { fCommit false with waitTrap := some ⟨1, false, f0.regs.t, 0⟩ }
     Commits (sOrd f) f ∧ f.waitTrap ≠ none) ∧
    (let f := { withRegs (fCommit false) fun r => { r with xen := 1 } with pend := [⟨0, [.v 3], some [], 0, none, true⟩] }
     Commits (sOrd f) f ∧ awaitsFlags f = true) ∧
    (let f := { fCommit false with rbnow := 4 }
     Commits (sOrd f) f ∧ ladderDue f = true) ∧
    (∀ c, let f := fCommit c
     Commits (sOrd f) f ∧ f.status = .commit ∧ f.waitTrap = none ∧ awaitsFlags f = false ∧ ladderDue f = false ∧ f.conflict = c ∧
       f.committing = false ∧ f.unfin = []) ∧
    (let f := { fCommit true with unfin := [aHeld], committing := true }
     Commits (sOrd f) f ∧ f.status = .commit ∧ f.waitTrap = none ∧ awaitsFlags f = false ∧ ladderDue f = false ∧ f.conflict = true ∧
       f.committing = true) ∧
    ∀ c, let f := { fCommit false with unfin := [anEarly 5], committing := c }
    Commits (sOrd f) f ∧ f.status = .commit ∧ f.waitTrap = none ∧ awaitsFlags f = false ∧ ladderDue f = false ∧ f.conflict = false ∧
      (anEarly 5).early = true ∧ (anEarly 5).recheck = true ∧ stands (sOrd f) f (anEarly 5) = false ∧
      commitHeld (sOrd f) f.id (anEarly 5).op.accs = false ∧ mayBegin (sOrd f) f = true ∧ f.committing = c ∧
      quantumHeld (sOrd f) f = false :=
  ⟨fun n hn => by rcases hn with rfl | rfl <;> exact ⟨rfl, rfl, rfl, by decide +kernel, by decide +kernel⟩,
    ⟨commits _ (by decide +kernel) rfl rfl, by decide +kernel⟩, ⟨commits _ (by decide +kernel) rfl rfl, by decide +kernel⟩,
    ⟨commits _ (by decide +kernel) rfl rfl, by decide +kernel⟩, ⟨commits _ (by decide +kernel) rfl rfl, by decide +kernel⟩,
    fun c => by cases c <;> exact ⟨commits _ (by decide +kernel) rfl rfl, by decide +kernel⟩,
    ⟨commits _ (by decide +kernel) rfl rfl, by decide +kernel⟩,
    fun c => by cases c <;> exact ⟨commits _ (by decide +kernel) rfl rfl, by decide +kernel⟩⟩
/-- An update held at slice 0's HRU, whose byte may be poisoned. -/
def anUpdate : HruEntry := ⟨0, 1, 1, (0, 0, 0), 0, 0, ⟨0, 0⟩, 0, 1, 0, ⟨0, 4, .dev 0, .normal, 0⟩, 4, .int .add, 5, true, false⟩
def sHru (poison : List Nat) : State := { s0 with msys := { s0.msys with hru := [anUpdate], poison := poison } }
theorem witness_QuantaAndUpdates_operations :
    (∀ h, h = aHeld ∨ h = anEarly 0 → let f := { fCommit false with unfin := [h] }
      fibre? (sOrd f) f.id = some f ∧ f.unfin = [h] ∧ (h = aHeld ∨ stands (sOrd f) f h = true)) ∧
    (aHeld.early = false ∧ (performOp ⟨0, 0⟩ aHeld.op (sOrd (fCommit false))).ok = true ∧ (anEarly 0).early = true ∧
      (sOrd (fCommit false)).msys.hru = [] ∧ commitHeld (sOrd (fCommit false)) ⟨0, 0⟩ (anEarly 0).op.accs = false ∧
      commitHeld (holds0 (sOrd (fCommit false))) ⟨0, 0⟩ (anEarly 0).op.accs = true ∧ (holds0 (sOrd (fCommit false))).msys.hru = []) ∧
    (∃ e ∈ (sHru []).msys.hru, e.committed = true) ∧
    (let s := withCopies [{ aCopy with dst := page }] (envK ⟨2 ^ 44, 16, true, false, .normal⟩ (fCommit false))
     (performOp ⟨0, 0⟩ aHeld.op s).ok = false) ∧
    nextUpdate s0 0 = none ∧ nextUpdate (sHru []) (anUpdate.slice) = some anUpdate ∧
    agentDown (sHru []) .slice anUpdate.slice = false ∧
    agentDown { sHru [] with dev := { s0.dev with failed := [(.slice, anUpdate.slice)] } } .slice anUpdate.slice = true ∧
    partPoison (sHru []) anUpdate.part = none ∧ partPoison (sHru [3]) anUpdate.part = some 3 :=
  ⟨fun h hh => by rcases hh with rfl | rfl <;> exact ⟨rfl, rfl, by decide +kernel⟩,
    by decide +kernel, ⟨_, List.mem_singleton_self _, rfl⟩, by decide +kernel, by decide +kernel, by decide +kernel, by decide +kernel,
    by decide +kernel, by decide +kernel, by decide +kernel⟩

/-! ## Witnesses: events of engines, placer and memory -/

theorem of_any {α β : Type} {o : Option (α × β)} {p : α → Bool} (h : (o.any fun x => p x.1) = true) :
    ∃ a b, o = some (a, b) ∧ p a = true := by
  cases o with
  | none => cases h
  | some x => exact ⟨x.1, x.2, rfl, h⟩
/-- Core 0's engine with a copy, and the page it reads mapped or not. -/
def sCopy (c : CopyCmd) (f : Fibre) : State := withCopies [c] (big f)
theorem witness_EngineEvents_copies :
    (let c := { aCopy with done := 64 }
     (coreOf (sCopy c f0) 0).copies.find? (fun x => x.id == 1) = some c ∧ c.stopped = false ∧ c.table = none ∧ c.rows * c.rowBytes ≤ c.done) ∧
    ((coreOf (sCopy aCopy f0) 0).copies.find? (fun x => x.id == 1) = some aCopy ∧ aCopy.done < aCopy.rows * aCopy.rowBytes) ∧
    (let c := { aCopy with src := 0 }
     (sCopy c f0).msys.hru = [] ∧ ∃ e a, copyStop (sCopy c f0) 0 c = some (e, a) ∧ (e.cause == 0x10) = true) ∧
    let c := bufCopy (ptrMake 2 5 0)
    ∃ e a, copyStop (sCopy c f0) 0 c = some (e, a) ∧ (e.cause != 0x10) = true :=
  ⟨⟨rfl, rfl, rfl, by decide⟩, ⟨rfl, by decide⟩, ⟨rfl, of_any (p := fun e : AFault => e.cause == 0x10) (by decide +kernel)⟩,
    of_any (p := fun e : AFault => e.cause != 0x10) (by decide +kernel)⟩

/-- A table read, with its page mapped or not and a byte poisoned or not, where the slots of the expander are held so. -/
def anExpload (src : Word) : CopyCmd := { aCopy with src := src, table := some 7 }
def sSlots (src : Word) (bad : List Nat) (slots : List (Word × Nat × Nat × Option XTable)) : State :=
  let s := { sCopy (anExpload src) f0 with msys := { (sCopy (anExpload src) f0).msys with poison := bad } }
  setCore s 0 { coreOf s 0 with expander := slots }
/-- The command after it has read on, if it is still there, with a property of it and of what it has read. -/
def feeds (s : State) (p : CopyCmd → TableRead → Bool) : Bool :=
  ((coreOf (tableFeed 0 1 4 s) 0).copies.find? fun x => x.id == 1).any fun d => p d (tableNext d)
theorem of_feeds {s p} (h : feeds s p = true) : ∃ d, (coreOf (tableFeed 0 1 4 s) 0).copies.find? (fun x => x.id == 1) = some d ∧
    p d (tableNext d) = true := by
  unfold feeds at h
  cases hf : (coreOf (tableFeed 0 1 4 s) 0).copies.find? (fun x => x.id == 1) with
  | none => rw [hf] at h; cases h
  | some d => rw [hf] at h; exact ⟨d, rfl, h⟩
/-- A whole table has been read, and the slots are as told: the block's own among them, or how many there are of others. -/
def slotsHeld (s : State) (own : Bool) (n : Nat) (d : CopyCmd) (r : TableRead) : Bool :=
  let v := captureEarlier 0 d (tableFeed 0 1 4 s)
  (match r with
    | .table _ => true
    | _ => false) && ((coreOf v 0).expander.any fun e => e.1 == d.launch && e.2.1 == d.stage && e.2.2.1 == d.block) == own &&
    (coreOf v 0).expander.length == n
/-- Slots of other blocks. -/
def others (n : Nat) : List (Word × Nat × Nat × Option XTable) := (List.range n).map fun i => (2, 0, i, none)
theorem witness_EngineEvents_tables :
    ((coreOf (sSlots page [] []) 0).copies.find? (fun x => x.id == 1) = some (anExpload page) ∧ (anExpload page).table.isSome = true) ∧
    (∃ d, (coreOf (tableFeed 0 1 4 (sSlots 0 [] [])) 0).copies.find? (fun x => x.id == 1) = some d ∧
      (tableNext d == .idle) = true) ∧
    (∃ d, (coreOf (tableFeed 0 1 4 (sSlots page [3] [])) 0).copies.find? (fun x => x.id == 1) = some d ∧
      (tableNext d == .poison 3) = true) ∧
    (∀ n, n = 7 ∨ n = 8 → let s := sSlots page [] (others n)
      ∃ d, (coreOf (tableFeed 0 1 4 s) 0).copies.find? (fun x => x.id == 1) = some d ∧ slotsHeld s false n d (tableNext d) = true) ∧
    let s := sSlots page [] [(1, 0, 0, none)]
    ∃ d, (coreOf (tableFeed 0 1 4 s) 0).copies.find? (fun x => x.id == 1) = some d ∧ slotsHeld s true 1 d (tableNext d) = true :=
  ⟨⟨rfl, rfl⟩, of_feeds (p := fun _ r => r == .idle) (by decide +kernel), of_feeds (p := fun _ r => r == .poison 3) (by decide +kernel),
    fun n hn => by
      rcases hn with rfl | rfl
      · exact of_feeds (p := slotsHeld (sSlots page [] (others 7)) false 7) (by decide +kernel)
      · exact of_feeds (p := slotsHeld (sSlots page [] (others 8)) false 8) (by decide +kernel),
    of_feeds (p := slotsHeld (sSlots page [] [(1, 0, 0, none)]) true 1) (by decide +kernel)⟩

/-- A command of 8 chunks, perhaps one that runs again; a state whose block's tile 3 is poisoned in a word. -/
def aLong (redo : Option Nat) (cz : Bool) : MatCmd := { aMat 1 with form := .mma .f64 .f64, redo := redo, cz := cz }
def sMat (c : MatCmd) (bad : List (Nat × Nat)) : State :=
  let s := withMat [c] (big f0)
  { s with blocks := s.blocks.map fun b => { b with tilePoison := bad } }
theorem witness_EngineEvents_matrix :
    (∀ redo, redo = none ∨ redo = some 3 →
      ∃ rows b, runningMat (sMat (aLong redo true) []) 0 1 = some (aLong redo true, rows, b) ∧ (aLong redo true).cz = true ∧
        7 < MatForm.chunks (aLong redo true).form) ∧
    (∃ rows b, runningMat (sMat (aLong none false) []) 0 1 = some (aLong none false, rows, b) ∧ (aLong none false).cz = false ∧
      b.tileBad 3 (viewWords (MatForm.wide (aLong none false).form)) = false) ∧
    ∃ rows b, runningMat (sMat (aLong none false) [(3, 0)]) 0 1 = some (aLong none false, rows, b) ∧
      b.tileBad 3 (viewWords (MatForm.wide (aLong none false).form)) = true :=
  ⟨fun redo hr => by rcases hr with rfl | rfl <;> exact ⟨_, _, rfl, rfl, by decide⟩,
    ⟨_, _, rfl, rfl, by decide +kernel⟩, _, _, rfl, by decide +kernel⟩

/-- The launch of an environment. -/
def theLaunch (s : State) : Launch := s.launches.headD stdLaunch
/-- An environment whose launch is otherwise. -/
def withL (g : Launch → Launch) (s : State) : State := { s with launches := s.launches.map g }
/-- Page tables of ASID 1 at 0, 0x10000 and 0x20000, which map the first GiB from 0x4100000000 to 0 (R227 to R230), and at
0x1000 a descriptor image (R37 to R41). -/
def tables : List Host.Cell := [(8, 1), (10, 1), (0x1004, 0x41), (0x100C, 0x41), (0x1009, 0x10), (0x1010, 0x81), (0x1014, 2), (0x101C, 1),
  (0x10000, 1), (0x10002, 2), (0x20820, 7)]
/-- At 0x1100 a stage table: two stages of that descriptor, one block in the first, a queue of 64 entries at 0x4100010000 (R101). -/
def stageTable : List Host.Cell := [(0x1101, 0x10), (0x1104, 0x41), (0x1120, 6), (0x1128, 1), (0x112C, 1), (0x113A, 1), (0x113C, 0x41),
  (0x1141, 0x10), (0x1144, 0x41), (0x1164, 1), (0x1168, 1)]
def withTables (s : State) : State :=
  let s := (tables ++ stageTable).foldl (fun s c => { s with msys := putHome s.msys c.1 c.2 }) s
  setCore s 0 { coreOf s 0 with tlb := [] }
/-- A queued launch of one stage, its descriptor at an address; a staged one beside a launch whose queue has `n` pages. -/
def sQueued (kdesc : Word) : State :=
  withTables (withL (fun L => { L with phase := .queued, stages := [Stage.init kdesc 1] }) { s0 with fibres := [], blocks := [] })
def sStaged (n : Nat) : State :=
  let s := withTables (withL (fun L => { L with phase := .queued, stages := [], ctl := 0x20000, stagetab := page + 0x1100 })
    { s0 with fibres := [], blocks := [] })
  let g := { Stage.init 0 1 with first := some stdDesc, qpages := List.replicate n 65536, cap := 1024 * n - 1 }
  { s with launches := s.launches ++ [{ stdLaunch with id := 2, queue := 1, stages := [g] }] }
theorem witness_PlacerEvents_eligibility :
    (launch? s0 1 = some (theLaunch s0) ∧ (theLaunch s0).phase ≠ .queued) ∧
    (let s := withL (fun L => { L with phase := .queued, stages := [] }) s0
     launch? s 1 = some (theLaunch s) ∧ (theLaunch s).phase = .queued ∧ eligible s (theLaunch s) = true ∧
       checkLaunch s (theLaunch s) = .status 3) ∧
    (let s := { sQueued (page + 0x1000) with msys := { (sQueued (page + 0x1000)).msys with poison := [0x103F] } }
     (theLaunch s).phase = .queued ∧ eligible s (theLaunch s) = true ∧ checkLaunch s (theLaunch s) = .halt .poison 0x103F) ∧
    (let s := sQueued (page + 0x1000)
     (theLaunch s).phase = .queued ∧ eligible s (theLaunch s) = true ∧ pinsHeld s (theLaunch s) = false ∧
       ∃ d, checkLaunch s (theLaunch s) = .ok [{ Stage.init (page + 0x1000) 1 with first := some d }]) ∧
    ∀ n, n = 63 ∨ n = 64 → let s := sStaged n
      (theLaunch s).phase = .queued ∧ eligible s (theLaunch s) = true ∧ pinsHeld s (theLaunch s) = (n == 64) ∧
        (match checkLaunch s (theLaunch s) with
          | .ok gs => gs.length
          | _ => 0) = 2 :=
  ⟨⟨rfl, by decide +kernel⟩, ⟨rfl, rfl, by decide +kernel, by decide +kernel⟩, ⟨rfl, by decide +kernel, by decide +kernel⟩,
    ⟨rfl, by decide +kernel, by decide +kernel, { stdDesc with format := 1 }, by decide +kernel⟩,
    fun n h => by rcases h with rfl | rfl <;> exact ⟨rfl, by decide +kernel, by decide +kernel, by decide +kernel⟩⟩

/-- A launch whose next block, or saved block, waits with cycles counted, and the reserved cores. -/
def sWaits (sync : BitVec 32) (saved : Bool) (n : Nat) (cores : List (Nat × Word)) : State :=
  let s := withL (fun L => { L with
    clusters := 1, waiting := some ⟨0, 1, [], n⟩, stages := [{ Stage.init 0 2 with first := some { stdDesc with sync := sync }, next := 1 }]
    saved := if saved then [⟨newBlock s0 stdLaunch 0 1 0 stdDesc stdFit, [], 0, 0, []⟩] else [] }) s0
  cores.foldl (fun s c => setCore s c.1 { coreOf s c.1 with reserved := some c.2 }) s
theorem of_cons {l : List Nat} (h : l.isEmpty = false) : ∃ c rest, l = c :: rest := by
  cases l with
  | nil => cases h
  | cons c r => exact ⟨c, r, rfl⟩
/-- The hypotheses of a reservation. -/
def Waited (s : State) (ordered : Bool) : Prop := launch? s 1 = some (theLaunch s) ∧ (theLaunch s).waiting = some ⟨0, 1, [], 4096⟩ ∧
  (s.cores.any fun c => c.2.reserved == some (theLaunch s).id) = false ∧ (firstDesc (theLaunch s)).ordered = ordered
theorem witness_PlacerEvents_waiting :
    (theLaunch s0).waiting = none ∧ (theLaunch (sWaits 0 false 4095 [])).waiting = some ⟨0, 1, [], 4095⟩ ∧
    ((sWaits 0 false 4096 [(3, 1)]).cores.any fun c => c.2.reserved == some 1) = true ∧
    (let s := sWaits 0 false 4096 []
     Waited s false ∧ (theLaunch s).coResident = false ∧
       ∃ c rest, (placementSet s (theLaunch s)).filter (fun c => (coreOf s c).reserved.isNone) = c :: rest) ∧
    (let s := sWaits 0 true 4096 ((List.range 8).map fun c => (c, 9))
     Waited s false ∧ (theLaunch s).saved ≠ [] ∧
       (placementSet s (theLaunch s)).filter (fun c => (coreOf s c).reserved.isNone) = []) ∧
    let s := sWaits (BitVec.ofNat 32 (2 ^ 20 + 8 * 2 ^ 23)) false 4096 []
    Waited s true ∧ (theLaunch s).coResident = false :=
  ⟨rfl, rfl, by decide +kernel,
    ⟨⟨rfl, rfl, by decide +kernel, by decide +kernel⟩, by decide +kernel, of_cons (by decide +kernel)⟩,
    ⟨⟨rfl, rfl, by decide +kernel, by decide +kernel⟩, by decide +kernel, by decide +kernel⟩,
    ⟨rfl, rfl, by decide +kernel, by decide +kernel⟩, by decide +kernel⟩
/-- A launch of VF 1 waits with core 0 reserved, where another VF's block stands in tile storage that it needs; it has waited `n`
cycles and the placer's threshold is one unit of 1,024. -/
def sWants (n : Nat) (tiles : BitVec 32) : State :=
  let d := { stdDesc with storage := BitVec.ofNat 32 (2 + 16 * 2 ^ 13) }
  let s := envD { stdDesc with storage := BitVec.ofNat 32 2 ||| tiles } .none [f0]
  let s := withP (fun P => { P with preemptcfg := 0x10040, vf := some 1 }) s
  setCore { s with launches := s.launches ++ [{ stdLaunch with
    id := 2, vf := 1, accept := 1, waiting := some ⟨0, 1, [], n⟩, held := []
    saved := [⟨newBlock s0 stdLaunch 0 1 0 d stdFit, [], 0, 0, []⟩] }] } 0 { coreOf s 0 with reserved := some 2 }
/-- The blocks on core 0. -/
def onCore0 (s : State) : List Block := s.blocks.filter fun b => b.core == 0
theorem witness_PlacerEvents_preemption : ∀ tiles, tiles = 0 ∨ tiles = BitVec.ofNat 32 (8 * 2 ^ 13) →
    let s := sWants 1024 tiles
    ∃ L b w, launch? s 2 = some L ∧ L.waiting = some w ∧ wfield (partn s L.part).preemptcfg 31 16 = 1 ∧ w.count = 1024 ∧
      (partn s L.part).vf = some L.vf ∧ (s.cores.filter fun c => c.2.reserved == some L.id).map (·.1) = [0] ∧
      s.blocks = [b] ∧ b.core = 0 ∧ b.free = true ∧ ((launch? s b.launch).map (·.vf)).getD 0 ≠ L.vf ∧
      admitsWithout s L w b.core b = true := by
  intro tiles h
  rcases h with rfl | rfl <;>
  exact ⟨_, _, _, rfl, rfl, by decide +kernel, rfl, rfl, by decide +kernel, rfl, by decide +kernel⟩
theorem witness_PlacerEvents_none :
    (let s := sWants 1023 0
     ∃ L w, launch? s 2 = some L ∧ L.waiting = some w ∧ w.count < 1024 * wfield (partn s L.part).preemptcfg 31 16) ∧
    wfield (partn (withP (fun P => { P with preemptcfg := 0x40 }) (sWaits 0 false 0 [])) 0).preemptcfg 31 16 = 0 ∧
    ∀ b ∈ ({ sWants 1024 0 with blocks := [] } : State).blocks, b.core ≠ 0 :=
  ⟨⟨_, _, rfl, rfl, by decide +kernel⟩, by decide +kernel, fun b h => by simp at h⟩

/-- Two stages, the second with limits `lo` and one resident block; the queue between holds `n` entries. -/
def sStages2 (lo n : Nat) : State :=
  withL (fun L => { L with stages := L.stages.mapIdx fun i g => if i = 1 then { g with lo := lo } else g }) (sStages 1 n)
theorem witness_PlacerEvents_withdrawal :
    (∃ q g, inputOf (theLaunch (sStages2 1 1)) 1 = some q ∧ (theLaunch (sStages2 1 1)).stages[1]? = some g ∧ g.lo ≤ q.occupancy) ∧
    (firstDesc (theLaunch (sStages2 1 0))).ordered = false ∧ (theLaunch (sStages2 1 0)).saved = [] ∧
    ∃ q g, inputOf (theLaunch (sStages2 1 0)) 1 = some q ∧ (theLaunch (sStages2 1 0)).stages[1]? = some g ∧ q.occupancy < g.lo ∧
      g.minb < (residents (sStages2 1 0) (theLaunch (sStages2 1 0)) 1).length ∧
      (residents (sStages2 1 0) (theLaunch (sStages2 1 0)) 1).any (·.withdrawn) = false ∧ q.closed = false :=
  ⟨⟨_, _, rfl, rfl, by decide +kernel⟩, by decide +kernel, rfl, _, _, rfl, rfl, by decide +kernel, by decide +kernel, by decide +kernel, rfl⟩
/-- VF 0 holds the slice since cycle 0 and has a launch that waits; the clock. -/
def sSlice (clock : Nat) : State :=
  { withP (fun P => { P with vf := some 0, vfslice := [(0, 1)] }) (sWaits 0 false 0 []) with clock := clock }
theorem witness_PlacerEvents_slices :
    (partn (holdSlice 0 (grantAll s0)) 0).vf = none ∧
    ((partn (holdSlice 0 (grantAll (sSlice 0))) 0).vf = some 0 ∧ sliceOf (partn (holdSlice 0 (grantAll (sSlice 0))) 0) 0 ≠ 0) ∧
    ((partn (sSlice 1023) 0).vf = some 0 ∧ (sSlice 1023).clock < (partn (sSlice 1023) 0).vfSince + 1024 * sliceOf (partn (sSlice 1023) 0) 0) ∧
    ((partn (sSlice 1024) 0).vfSince + 1024 * sliceOf (partn (sSlice 1024) 0) 0 ≤ (sSlice 1024).clock ∧ nextVf (sSlice 1024) 0 0 = some 0) ∧
    let s := withP (fun P => { P with control := { P.control with retry := some (0, 1) } }) s0
    (partn s 0).control.retry = some (0, 1) ∧ s.clock < 1 + 16384 ∧ ({ s with clock := 16385 } : State).clock ≥ 1 + 16384 :=
  ⟨by decide +kernel, by decide +kernel, by decide +kernel, by decide +kernel, by decide +kernel⟩
/-- A block that a method of R411 fits: its launch's exited blocks lived short or not, it may be flushed, there is a slot. -/
def sMethod (lives : List Nat) (sync : BitVec 32) (pool : Word) : State :=
  withP (fun P => { P with savehdlr := 0x6000, resthdlr := 0x7000, savepool := pool })
    (withL (fun L => { L with stages := L.stages.map fun g => { g with exited := lives, lifetimes := 262144 } })
      (envD { stdDesc with sync := sync } .none [f0]))
/-- The block of a state. -/
def theBlock (s : State) : Block := s.blocks.headD (newBlock s0 stdLaunch 0 0 0 stdDesc stdFit)
theorem witness_PlacerEvents_methods :
    (let s := sMethod [5, 6, 7, 8] 0 0
     launch? s (theBlock s).launch = some (theLaunch s) ∧ (theLaunch s).coResident = false ∧ drainFits s 0 (theLaunch s) (theBlock s) = true) ∧
    (let s := sMethod [5, 6, 7] 0x200000 0
     drainFits s 0 (theLaunch s) (theBlock s) = false ∧ Desc.idem (theBlock s).desc = true) ∧
    (let s := sMethod [] (BitVec.ofNat 32 (2 ^ 20 + 8 * 2 ^ 23)) 0
     (firstDesc (theLaunch s)).ordered = true ∧ (theBlock s).committed = false) ∧
    (let s := sMethod [5] 0 0x100000000000001
     drainFits s 0 (theLaunch s) (theBlock s) = false ∧ Desc.idem (theBlock s).desc = false ∧ (firstDesc (theLaunch s)).ordered = false ∧
       (partn s 0).savehdlr ≠ 0 ∧ (partn s 0).resthdlr ≠ 0 ∧ freeSlot (partn s 0) = some 0 ∧ (freeSlot (partn s 0)).isSome = true ∧
       (∀ f ∈ fibresOf s (theBlock s), f.regs.level ≠ 2) ∧ theBlock s ∈ s.blocks ∧ (theBlock s).preempt = .none ∧
       s.blocks.find? (fun k => k.launch == (theBlock s).launch && k.stage == (theBlock s).stage && k.num == (theBlock s).num) =
         some (theBlock s) ∧
       (∀ f ∈ s.fibres, inBlock (theBlock s) f = true → f.committing = false) ∧
       (stage? s (theBlock s).launch (theBlock s).stage).isSome = true) ∧
    let s := sMethod [5] 0 1
    (freeSlot (partn s 0)).isSome = false :=
  ⟨⟨rfl, by decide +kernel⟩, by decide +kernel, by decide +kernel, by decide +kernel, by decide +kernel⟩
theorem witness_PlacerEvents_blocks : ∀ clock, clock = 262143 ∨ clock = 262144 →
    let s := { envD stdDesc (.drain 0 false) [f0] with clock := clock }
    (s.blocks.find? fun x => x.launch == (theBlock s).launch && x.stage == (theBlock s).stage && x.num == (theBlock s).num) = some (theBlock s) ∧
      launch? s (theBlock s).launch = some (theLaunch s) ∧ (theBlock s).preempt = .drain 0 false ∧ (theLaunch s).coResident = false ∧
      4 * 1024 * wfield (partn s (theLaunch s).part).preemptcfg 15 0 = 262144 := by
  intro clock hc
  rcases hc with rfl | rfl <;> exact ⟨rfl, rfl, rfl, by decide +kernel, by decide +kernel⟩
theorem witness_PlacerEvents_save : let s := envD stdDesc (.inSave 3 []) [f0]
    (s.blocks.find? fun x => x.launch == (theBlock s).launch && x.stage == (theBlock s).stage && x.num == (theBlock s).num) = some (theBlock s) ∧
      (theBlock s).preempt = .inSave 3 [] ∧ ∀ k g, (theBlock s0).preempt ≠ .inSave k g :=
  ⟨rfl, rfl, fun _ _ h => by cases h⟩

/-- The memory system of a state, otherwise. -/
def withM (g : MemSys → MemSys) (s : State) : State := { s with msys := g s.msys }
/-- A coded block of 128 bytes at 64, dirty in its second line. -/
def sCodedHome : State := withM (fun m => { m with coded := [(64, 128)], dirty := [(2, [(0, 1)])], home := [(130, 1)] }) s0
theorem witness_MemoryEvents :
    (let s := withTables s0
     let va := 0x410000 % 2 ^ 36 * 65536
     let down := { s with dev := { s.dev with failed := (List.range 32).map fun k => (.slice, k) } }
     asidIn s (partOfCore s 0) 1 = true ∧ (walkReads s (partOfCore s 0) 1 va).any (pathHeld s 0) = false ∧
       asidIn down (partOfCore down 0) 1 = true ∧ (walkReads down (partOfCore down 0) 1 va).any (pathHeld down 0) = true ∧
       ∃ l, walk s (partOfCore s 0) 1 va = .leaf l ∧ walk down (partOfCore down 0) 1 va = .leaf l) ∧
    ((coreOf s0 0).icache.any (fun e => e.1 == 0) = false ∧ holdsCopy s0 0 0 = false ∧
      let s := setCore s0 0 { coreOf s0 0 with icache := [(0, [])] }
      (coreOf s 0).icache.any (fun e => e.1 == 0) = true ∧ holdsCopy s 0 0 = false) ∧
    (holdsCopy s0 0 0 = false ∧ holdsCopy (withM (fun m => { m with dir := [⟨0, 0, 0⟩] }) s0) 0 0 = true) ∧
    (∀ st, st = .draining ∨ st = .isSealed → ∃ r, ((sealed st [] f0).msys.seals.find? fun r => r.page == 0) = some r ∧
      ownDev (sealed st [] f0) 0 = true ∧ r.st = st ∧ r.copies = [] ∧ r.remote = []) ∧
    (inCoded s0 100 = false ∧ inCoded sCodedHome 191 = true ∧ inCoded sCodedHome 192 = false ∧
      ∀ l ∈ evictLines sCodedHome 191, lineSt sCodedHome.msys (64 * l) ≠ 3) ∧
    ((∀ l ∈ evictLines s0 0, Tab.get s0.msys.dirty l = none) ∧
      inStageQueue (queueAt0 s0) (70 / 64 * 64) 64 = true ∧ inStageQueue sCodedHome (100 / 64 * 64) 64 = false ∧
      (∀ l ∈ evictLines sCodedHome 100, lineSt sCodedHome.msys (64 * l) ≠ 3) ∧
      ∃ l ∈ evictLines sCodedHome 100, Tab.get sCodedHome.msys.dirty l ≠ none) ∧
    ((ownDev s0 47999999999 && populated 47999999999) = true ∧ Tab.get s0.msys.dirty (47999999999 / 64) = none ∧
      s0.msys.metas.contains (47999999999 / 4096) = false ∧
      (withM (fun m => { m with metas := [47999999999 / 4096] }) s0).msys.metas.contains (47999999999 / 4096) = true) ∧
    fibre? s0 f0.id = some f0 :=
  ⟨⟨by decide +kernel, by decide +kernel, by decide +kernel, by decide +kernel, ⟨0, 30, true, false, .normal⟩, by decide +kernel, by decide +kernel⟩,
    by decide +kernel, by decide +kernel,
    fun st h => by rcases h with rfl | rfl <;> exact ⟨_, rfl, by decide +kernel, rfl, rfl, rfl⟩, by decide +kernel, by decide +kernel,
    by decide +kernel, rfl⟩

/-- Link 0 is a Spemer link in service, 9 one of the fabric that is stopped, 28 a queue; a core has failed. -/
def sLinks : State := { s0 with
  links := [⟨0, .spemer 0, 5, ⟨5, 0, 0, 0⟩, false, [(0, 1)]⟩, ⟨9, .fabric 1 0, 5, ⟨5, 0, 0, 0⟩, true, []⟩, ⟨28, .queue 0, 5, ⟨5, 0, 0, 0⟩, false, []⟩]
  dev := { s0.dev with failed := [(.core, 3)] } }
theorem witness_LinksAndAgents :
    ((4 : Nat) < 5 ∧ sLinks.vigils.getD 4 0 + 2 ^ 20 ≤ ({ sLinks with clock := 2 ^ 20 } : State).clock ∧
      ({ sLinks with clock := 2 ^ 20 - 1 } : State).clock < sLinks.vigils.getD 4 0 + 2 ^ 20) ∧
    (∃ l, link? sLinks l.num = some l ∧ l.stopped = false ∧ l.kind = .spemer 0 ∧ (⟨4, 0, 1, 0⟩ : Permits).sum = l.total ∧
      (⟨4, 0, 0, 0⟩ : Permits).sum ≠ l.total) ∧
    (∃ l, link? sLinks l.num = some l ∧ l.stopped = true) ∧
    (∃ l, link? sLinks l.num = some l ∧ l.stopped = false ∧ ∀ n, l.kind ≠ .spemer n) ∧
    (sLinks.dev.failed.contains (.core, 3) = true ∧ incarnation sLinks .core 3 < 65535 ∧ agentPart sLinks .core 3 < 8) ∧
    sLinks.dev.failed.contains (.core, 4) = false ∧
    65535 ≤ incarnation (withP (fun P => { P with incarn := [(.core, 3, 65535)] }) sLinks) .core 3 ∧
    (1 ≠ incarnation s0 .device 2 ∧ 1 ≠ incarnation s0 .link 0 ∧ 1 ≠ incarnation s0 .device (paDev (2 ^ 44)) ∧
      ready State.reset = false) ∧
    (let s := { s0 with links := [⟨0, .spemer 7, 5, ⟨5, 0, 0, 0⟩, true, []⟩] }
     ready s = true ∧ ownDev s 4092 = true ∧ populated 4092 = true ∧ s.msys.hru = [] ∧ peerHeld s 4092 = true) ∧
    (ready s0 = true ∧ ownDev s0 4092 = true ∧ populated 4092 = true ∧ peerHeld s0 4092 = false ∧ s0.msys.hru = [] ∧
      ((linesOf 4092 8).any fun l => commitHolds s0 none (none, l)) = false ∧
      (((List.range 8).map (4092 + ·)).find? fun a => isPoison s0.msys a) = none) ∧
    (ownDev s0 48000000000 && populated 48000000000) = false ∧
    let s := withM (fun m => { m with seals := [⟨2 ^ 44, 16, .isSealed, [⟨2 ^ 38, 0, 0⟩], []⟩] }) s0
    ownDev s (2 ^ 44 + 5) = false ∧ (s.msys.seals.find? fun r => r.page == (2 ^ 44 + 5) / 65536 * 65536).isSome = true :=
  ⟨by decide +kernel, ⟨⟨0, .spemer 0, 5, ⟨5, 0, 0, 0⟩, false, [(0, 1)]⟩, by decide +kernel⟩,
    ⟨⟨9, .fabric 1 0, 5, ⟨5, 0, 0, 0⟩, true, []⟩, by decide +kernel⟩,
    ⟨⟨28, .queue 0, 5, ⟨5, 0, 0, 0⟩, false, []⟩, by decide +kernel, rfl, fun n h => by cases h⟩,
    by decide +kernel, by decide +kernel, by decide +kernel, by decide +kernel, by decide +kernel, by decide +kernel, by decide +kernel,
    by decide +kernel⟩

/-! ## Witnesses: the host and system software -/

/-- A partition's ring 1 with a record since cycle 0, 1,024 cycles, interrupts on. -/
def sRing (clock : Nat) : State := { withP (fun P => { P with rings := [(1, ⟨0, 0x80000100, 1, 0, 1, 0⟩)] }) s0 with clock := clock }
/-- An invalidation of ASID 1 in progress, and an unfinished access of fibre 0 or none. -/
def sInv (f : Fibre) : State := withP (fun P => { P with tlbinv1 := 0xA0000001 }) (env f)
/-- The block of the standard environment stands on core 0. -/
theorem witness_RegisterWrites :
    (answers s0 0 = true ∧ (1 : Nat) < 8192 ∧ asidIn s0 0 1 = true ∧ (partn s0 0).tlbinv1.getLsbD 31 = false ∧
      (partn s0 0).preemptreq.getLsbD 31 = false ∧ requested s0 0 0 8191 = [] ∧ requested s0 0 0 0 = [theBlock s0] ∧
      firstChoices s0 [theBlock s0] [] = [theBlock s0] ∧ (5 : Word) ≠ 0) ∧
    (let s := withP (fun P => { P with preemptreq := 0x80000000 }) (sInv f0)
     answers s 0 = true ∧ (partn s 0).tlbinv1.getLsbD 31 = true ∧ (partn s 0).preemptreq.getLsbD 31 = true) ∧
    answers s0 1 = false ∧
    (reaches none (regOffset .stopring) = true ∧ reaches (some 1) (regOffset (.evringint 63)) = true ∧
      reaches (some 1) (regOffset (.evringint 64)) = false ∧ reaches (some 7) (0x10000 + 32 * (255 : BitVec 8).toNat + 24) = true ∧
      reaches (some 7) (0x10000 + 32 * (224 : BitVec 8).toNat) = true ∧ (223 : BitVec 8).toNat / 32 ≠ 7) ∧
    (let s := sInv (fHeld { anEarly 0 with fills := [stdTlb State.reset] } false 0)
     (partn s 0).tlbinv1.getLsbD 31 = true ∧ invDone s 0 = false) ∧
    ((partn (sInv f0) 0).tlbinv1.getLsbD 31 = true ∧ invDone (sInv f0) 0 = true) ∧
    ((ringOf (partn s0 0) 1).count = 0 ∧ (ringOf (partn (sRing 1023) 0) 1).count ≠ 0 ∧
      (sRing 1023).clock < (ringOf (partn (sRing 1023) 0) 1).oldest + wfield (ringOf (partn (sRing 1023) 0) 1).int 19 8 * 1024) ∧
    let R := ringOf (partn (sRing 1024) 0) 1
    R.count ≠ 0 ∧ wfield R.int 19 8 ≠ 0 ∧ R.oldest + wfield R.int 19 8 * 1024 ≤ (sRing 1024).clock ∧ R.int.getLsbD 31 = true :=
  ⟨by decide +kernel, by decide +kernel, by decide +kernel, by decide +kernel, by decide +kernel, by decide +kernel, by decide +kernel,
    by decide +kernel⟩

/-- The last line of partition 0's mailbox, whole and one byte long; HDM-H past a home; a device that is not ready. -/
theorem witness_HostAccesses :
    (let pa := mailboxBase s0 0 + Config.mailboxSize - 64
     ready s0 = true ∧ s0.msys.hru = [] ∧ (mailboxOf s0 pa).isSome = true ∧ mailboxOf s0 (pa + 64 - 1) = mailboxOf s0 pa ∧
      (∀ l ∈ linesOf pa 64, hostHeld s0 (64 * l) = false ∧ lineHeld s0 none (none, l) = false) ∧
      (∃ l ∈ linesOf pa 64, lineHeld { s0 with msys := { s0.msys with claims := [⟨pa / 64, ⟨0, 0⟩, 0⟩] } } none (none, l) = true) ∧
      (((List.range 64).map (pa + ·)).find? fun a => isPoison s0.msys a) = none) ∧
    ([1] : List Byte) ≠ [] ∧
    ((∀ i < 64, ownDev s0 (4064 + i) = true ∧ populated (4064 + i) = true ∧ mailboxOf s0 (4064 + i) = none ∧
      stackPoison s0.msys (4064 + i) = false) ∧ (∀ l ∈ linesOf 4064 64, hdmHeld s0 (64 * l) = false ∧ lineSt s0.msys (64 * l) ≠ 3) ∧
      let s := { s0 with dev := { s0.dev with failed := [(.controller, 0)] } }
      ready s = true ∧ ((linesOf 4064 64).any fun l => hdmHeld s (64 * l)) = true ∧ ∀ i < 64, mailboxOf s (4064 + i) = none) ∧
    let s := { s0 with dev := { s0.dev with step := 3 } }
    (hostSpan (.read 0 4)).2 ≠ 0 ∧ s.dev.step ≠ 5 ∧ ready s = false :=
  ⟨by decide +kernel, by decide, by decide +kernel, by decide +kernel⟩

/-- A device with other registers and no launch. -/
def sDev (g : Dev → Dev) : State := { setStep 4 State.reset with dev := g (setStep 4 State.reset).dev }
theorem witness_DeviceLife :
    (s0.dev.step ≠ 15 ∧ s0.launches ≠ []) ∧
    ((sDev id).dev.step ≠ 15 ∧ (sDev id).launches = [] ∧ cfgBits ((0x03 : Word).setWidth 8) ≠ 1 ∧ cfgBits ((0x80 : Word).setWidth 8) = 1) ∧
    ((sDev id).dev.configured = false ∧ (sDev fun d => { d with configured := true }).dev.configured = true) ∧
    ((sDev id).dev.attesting = false ∧
      let s := sDev fun d => { d with
        attesting := true, attest := BitVec.ofNat 64 (mailboxBase State.reset 0 + 1), nonce := List.replicate 32 7 }
      s.dev.attesting = true ∧ attestPart s (wfield s.dev.attest 63 12 * 4096) = some 0 ∧ s.dev.nonce.length = 32) ∧
    ((sDev id).dev.step = 4 ∧ (sDev fun d => { d with step := 6, inservice := 0x7F }).dev.step = 6 ∧
      (sDev fun d => { d with step := 6, inservice := 0x7F }).launches = []) ∧
    (inService (sDev id) (7 : BitVec 3).toNat = true ∧
      inService (sDev fun d => { d with step := 6, inservice := 0x7F }) (7 : BitVec 3).toNat = false) ∧
    (∀ n, n = 1 ∨ n = 2 ∨ n = 3 ∨ n = 5 → (sDev fun d => { d with step := n }).dev.step = n) ∧
    (sDev fun d => { d with inservice := 0 }).dev.step = 4 ∧ inService (sDev fun d => { d with inservice := 0 }) (0 : BitVec 3).toNat = false :=
  ⟨by decide +kernel, by decide +kernel, by decide +kernel, by decide +kernel, by decide +kernel, by decide +kernel, fun _ _ => rfl,
    by decide +kernel⟩

/-! ## Witnesses: words, the step and the canonical form -/

theorem witness_DecodeEncode :
    (∃ (i : Instr) (r : Raw), i.toRaw = some r ∧ i.wf = true) ∧
    ∃ (bs rest : List Byte) (i : Instr), decode bs = .ok (i, rest) ∧ rest ≠ [] :=
  ⟨⟨.vunseal ⟨h0, s 31⟩, _, rfl, by decide⟩, [0, 0, 0, 0, 0, 0, 0, 0, 7], [7], .nop8 ⟨h0⟩, rfl, by decide⟩

/-- Fibre 0 about to issue what stands at the entry's page from some byte on. -/
def sIssue (at_ : Nat) (bs : List Byte) : State :=
  { placeBytes at_ bs (env (withRegs f0 fun r => { r with pc := page + BitVec.ofNat 64 at_ })) with agenda := [.issue ⟨0, 0⟩ false] }
/-- What a fetch gives, with a property. -/
def fetched (r : Fetched) (p : List Byte → Leaf → Bool) : Bool := match r with
  | .bytes bs l => p bs l
  | _ => false
theorem of_fetched {r p} (h : fetched r p = true) : ∃ bs l, r = .bytes bs l ∧ p bs l = true := by
  cases r with
  | bytes bs l => exact ⟨bs, l, rfl, h⟩
  | _ => cases h
/-- The state in which fibre 0 fetches, and the fibre. -/
def issuing (at_ : Nat) (bs : List Byte) : State := issueState ⟨0, 0⟩ false (drained { sIssue at_ bs with agenda := [] })
def fIssuing (at_ : Nat) (bs : List Byte) : Fibre := (fibre? (issuing at_ bs) ⟨0, 0⟩).getD f0
/-- What the clauses on a fetched word ask, with a property of the bytes. -/
def Fetches (at_ : Nat) (bs : List Byte) (p : List Byte → Bool) : Prop :=
  let u := issuing at_ bs
  let f := fIssuing at_ bs
  (sIssue at_ bs).agenda = [.issue ⟨0, 0⟩ false] ∧ fibre? u ⟨0, 0⟩ = some f ∧ f.regs.pc = page + BitVec.ofNat 64 at_ ∧
    ((sIssue at_ bs).dev.step ≠ 5 ∧ hasSlot u f = true) ∧
    ∃ got l, fetchBlock u (ctxOf u f) (f.id.pos / 16) f.regs.pc = .bytes got l ∧
      Quiet (noteFetch (ctxOf u f) (f.id.pos / 16) f.regs.pc l u) f ∧ p got = true
theorem noteFetch_same (x : Ctx) (quad : Nat) (pc : Word) (l : Leaf) (s : State) :
    (noteFetch x quad pc l s).fibres = s.fibres ∧ (noteFetch x quad pc l s).cur = s.cur := by
  obtain ⟨k, n, m, g, e⟩ := (noteFetch_cached x quad pc l s).form
  rw [e]
  exact ⟨rfl, rfl⟩
theorem fetches {at_ bs p} (h : fetched (fetchBlock (issuing at_ bs) (ctxOf (issuing at_ bs) (fIssuing at_ bs)) ((fIssuing at_ bs).id.pos / 16)
      (fIssuing at_ bs).regs.pc)
    (fun got l => quietB (noteFetch (ctxOf (issuing at_ bs) (fIssuing at_ bs)) ((fIssuing at_ bs).id.pos / 16) (fIssuing at_ bs).regs.pc l
      (issuing at_ bs)) (fIssuing at_ bs) && p got) = true) (ha : fibre? (issuing at_ bs) ⟨0, 0⟩ = some (fIssuing at_ bs) ∧
      (fIssuing at_ bs).regs.pc = page + BitVec.ofNat 64 at_ ∧ (issuing at_ bs).fibres = [fIssuing at_ bs] ∧
      (issuing at_ bs).cur = (fIssuing at_ bs).id) (hd : (sIssue at_ bs).dev.step ≠ 5) (hc : hasSlot (issuing at_ bs) (fIssuing at_ bs) = true) : Fetches at_ bs p := by
  obtain ⟨got, l, hf, hp⟩ := of_fetched h
  simp only [Bool.and_eq_true] at hp
  refine ⟨rfl, ha.1, ha.2.1, ⟨hd, hc⟩, got, l, hf, quiet_of ((noteFetch_same _ _ _ _ _).1.trans ha.2.2.1) ((noteFetch_same _ _ _ _ _).2.trans ha.2.2.2) hp.1, hp.2⟩
/-- Bytes that decode to an instruction and nothing after it; bytes that decode to none. -/
def readsAs (bs : List Byte) (i : Instr) : Bool := match decode bs with
  | .ok x => x.1 == i && x.2 == []
  | .error _ => false
def readsNot (bs : List Byte) : Bool := match decode bs with
  | .ok _ => false
  | .error _ => true
theorem witness_StepRunsDecoded : Fetches 65528 (encode (.vunseal ⟨h0, s 31⟩)) (readsAs · (.vunseal ⟨h0, s 31⟩)) ∧
    (page + BitVec.ofNat 64 65528).toNat % 4 = 0 ∧ onMatrixPort (.vunseal ⟨h0, s 31⟩) = false :=
  ⟨fetches (by decide +kernel) (by decide +kernel) (by decide +kernel) (by decide +kernel), by decide, by decide⟩
/-- A fibre of quadrant 1 at `acz`, beside one of quadrant 0 at the same word where `low`. -/
def f16 : Fibre := { f0 with id := ⟨0, 16⟩, regs := { f0.regs with pc := page } }
def sPort (low : Bool) : State :=
  { placeBytes 0 (encode (.acz ⟨h0, 0⟩)) (env f16) with
    fibres := (if low then [{ f16 with id := ⟨0, 0⟩ }] else []) ++ [f16], agenda := [.issue ⟨0, 16⟩ false] }
theorem witness_StepRunsDecoded_port : onMatrixPort (.acz ⟨h0, 0⟩) = true ∧ ∀ low,
    let u := issueState ⟨0, 16⟩ false (drained { sPort low with agenda := [] })
    (sPort low).agenda = [.issue ⟨0, 16⟩ false] ∧ (sPort low).dev.step ≠ 5 ∧ portTaken u ⟨0, 16⟩ = low ∧
      ∃ f, fibre? u ⟨0, 16⟩ = some f ∧ hasSlot u f = true ∧ f.regs.pc.toNat % 4 = 0 ∧
        fetched (fetchBlock u (ctxOf u f) (f.id.pos / 16) f.regs.pc) (fun bs _ => match decode bs with
          | .ok x => x.1 == .acz ⟨h0, 0⟩
          | .error _ => false) = true :=
  ⟨by decide, fun low => by cases low <;>
    exact ⟨rfl, by decide +kernel, by decide +kernel, _, rfl, by decide +kernel, by decide +kernel, by decide +kernel⟩⟩
theorem witness_StepRunsDecoded_events :
    (let s := { s0 with agenda := [.event (.acquireStalled ⟨0, 0⟩)] }
     s.agenda = .event (.acquireStalled ⟨0, 0⟩) :: [] ∧ Instr.toRaw (.acquireStalled ⟨0, 0⟩) = none ∧ s.dev.step ≠ 5) ∧
    (let s := { setStep 5 s0 with agenda := [.event .deviceWake] }
     s.agenda = .event .deviceWake :: [] ∧ Instr.toRaw .deviceWake = none ∧ s.dev.step = 5 ∧ hostEvent .deviceWake = true) ∧
    let s := { setStep 5 s0 with agenda := [.event (.acquireStalled ⟨0, 0⟩)] }
    s.agenda = .event (.acquireStalled ⟨0, 0⟩) :: [] ∧ s.dev.step = 5 ∧ hostEvent (.acquireStalled ⟨0, 0⟩) = false :=
  ⟨⟨rfl, rfl, by decide +kernel⟩, ⟨rfl, rfl, rfl, rfl⟩, rfl, rfl, rfl⟩

/-- A fibre at an address that nothing maps. -/
def sNowhere : State := { env (withRegs f0 fun r => { r with pc := 0 }) with agenda := [.issue ⟨0, 0⟩ false] }
theorem witness_WordTraps :
    (Fetches 2 [] (fun _ => true) ∧ (page + BitVec.ofNat 64 2).toNat % 4 ≠ 0) ∧
    Fetches 60 [3] (fun got => (got.headD 0).extractLsb' 0 2 == 3) ∧ (page + BitVec.ofNat 64 60).toNat % 4 = 0 ∧
    (∀ k : Len, k ≠ .b8 → Fetches 24 [BitVec.ofNat 8 k.code.toNat] fun got =>
      (got.headD 0).extractLsb' 0 2 == k.code && decide (got.length < k.bytes)) ∧
    (∀ k : Len, Fetches 0 [BitVec.ofNat 8 (k.code.toNat + 0x80), 0x0D] fun got =>
      (got.headD 0).extractLsb' 0 2 == k.code && decide (k.bytes ≤ got.length) && readsNot got) ∧
    let u := issueState ⟨0, 0⟩ false (drained { sNowhere with agenda := [] })
    ∃ f e, fibre? u ⟨0, 0⟩ = some f ∧ hasSlot u f = true ∧ fetchBlock u (ctxOf u f) (f.id.pos / 16) f.regs.pc = .fault e ∧ Quiet u f :=
  ⟨⟨fetches (by decide +kernel) (by decide +kernel) (by decide +kernel) (by decide +kernel), by decide⟩, fetches (by decide +kernel) (by decide +kernel) (by decide +kernel) (by decide +kernel), by decide,
    fun k hk => by cases k with
      | b8 => exact absurd rfl hk
      | b12 => exact fetches (by decide +kernel) (by decide +kernel) (by decide +kernel) (by decide +kernel)
      | b16 => exact fetches (by decide +kernel) (by decide +kernel) (by decide +kernel) (by decide +kernel),
    fun k => by cases k <;> exact fetches (by decide +kernel) (by decide +kernel) (by decide +kernel) (by decide +kernel),
    _, .notMapped, rfl, by decide +kernel, by decide +kernel, quiet_of rfl rfl (by decide +kernel)⟩

/-- A state that a step leaves in the canonical form it had: the word at the entry's page runs. -/
theorem witness_StepKeepsCanonical : State.Inv (sIssue 0 (encode (.nop8 ⟨h0⟩))) := by
  unfold State.Inv
  decide +kernel

/-! ## Single steps -/

/-- The state after an instruction, and after the result it left outstanding has been written. -/
def run (i : Instr) (s : State) : State := match exec i s with
  | .next t => t
  | _ => s
def runLate (i : Instr) (s : State) : State := run (.variableLatencyWrite ⟨0, 0⟩ 0) (run i s)
/-- Fibre 0, a lane of a vector register, a scalar and a predicate after that. -/
def fib (t : State) : Fibre := (fibre? t ⟨0, 0⟩).getD { f0 with status := .exited }
def lv (t : State) (n l : Nat) : Nat := (lane ((fib t).vreg n) l).toNat
def sv (t : State) (n : Nat) : Nat := ((fib t).sreg n).toNat
/-- Fibre 0 with `s4` and `s5`. -/
def e45 (a b : Word) : State := env (at4 a b)
/-- The cause of the trap that fibre 0 has entered. -/
def causeOf (t : State) : Nat := wfield (fib t).regs.t.tcause 7 0

/-! ### Integer (R184 to R195) -/

theorem test_iadd_saturates : lv (run (.iadd8 ⟨h0, .i32, true, false, 3, s 4, s 5⟩) (e45 0x7FFFFFFF 1)) 3 31 = 0x7FFFFFFF := by decide +kernel
theorem test_iadd_wraps_extended : lv (run (.iadd8 ⟨h0, .i8, false, false, 3, s 4, s 5⟩) (e45 0x7F 1)) 3 0 = 0xFFFFFF80 := by decide +kernel
theorem test_isub_unsigned : lv (run (.isub12 ⟨h0, .n8, true, false, 3, s 4, 2⟩) (e45 1 0)) 3 0 = 0 := by decide +kernel
theorem test_isub_immediate : lv (run (.isub12 ⟨h0, .i32, false, false, 3, s 4, 0xFFFF⟩) (e45 1 0)) 3 0 = 2 := by decide +kernel
theorem test_imulhi_signed : lv (run (.imulhi8 ⟨h0, .i32, false, false, 3, s 4, s 5⟩) (e45 0xFFFFFFFF 2)) 3 0 = 0xFFFFFFFF := by decide +kernel
theorem test_shl_past_width : lv (run (.shl8 ⟨h0, .n32, false, false, 3, s 4, s 5⟩) (e45 1 32)) 3 0 = 0 := by decide +kernel
theorem test_shr_past_width : lv (run (.shr8 ⟨h0, .i16, false, false, 3, s 4, s 5⟩) (e45 0x8000 40)) 3 0 = 0xFFFFFFFF := by decide +kernel
theorem test_rot_pair : (let t := run (.rot8 ⟨h0, .n64, false, false, 2, s 4, s 5⟩) (e45 0x8000000000000001 65); (lv t 2 0, lv t 3 0)) = (3, 0) := by decide +kernel
theorem test_iabs_minimum : lv (run (.iabs ⟨h0, .i8, true, false, 3, s 4⟩) (e45 0x80 0)) 3 0 = 0x7F := by decide +kernel
theorem test_clz_zero : lv (run (.clz ⟨h0, .n16, false, false, 3, s 4⟩) (e45 0 0)) 3 0 = 16 := by decide +kernel
theorem test_brev : lv (run (.brev ⟨h0, .n8, false, false, 3, s 4⟩) (e45 0x01 0)) 3 0 = 0x80 := by decide +kernel
/-- T[4 A + 2 B + C] with A = 1, B = 1, C = 0 is bit 6. -/
theorem test_lop3 : lv (run (.lop3 ⟨h0, .n32, false, 3, s 4, s 5, s 6, 0x40⟩) (e45 0xF0 0x30)) 3 0 = 0x30 := by decide +kernel
theorem test_bfext_signed : lv (run (.bfext ⟨h0, .i32, false, 3, s 4, 4, 4⟩) (e45 0x80 0)) 3 0 = 0xFFFFFFF8 := by decide +kernel
theorem test_lidx_last_lane : lv (run (.lidx ⟨h0, .n32, false, false, 3, s 4, s 5⟩) (e45 5 3)) 3 31 = 98 := by decide +kernel
theorem test_sel_by_lane : (let t := run (.sel ⟨h0, .n32, false, 3, s 4, s 5, v 7⟩) (env (withS 4 8 (withS 5 9 fP))); (lv t 3 0, lv t 3 1, lv t 3 31)) = (8, 9, 8) := by
  decide +kernel
/-- A negated guard by `p7`, which holds lanes 0 and 31: they keep what they had. -/
theorem test_guard_negated : (let t := run (.movi12 ⟨⟨7, true, false⟩, .n32, false, 3, 5⟩) (env fP); (lv t 3 0, lv t 3 1, lv t 3 31)) = (0, 5, 0) := by
  decide +kernel
theorem test_icmp_immediate : ((fib (run (.icmp12 ⟨h0, .lo, 1, s 4, 0xFFFF⟩) (e45 5 0))).preg 1) = allOnes := by decide +kernel
theorem test_ballot : sv (runLate (.vote ⟨h0, .ballot, 9, v 7⟩) (env fP)) 9 = 0x80000001 := by decide +kernel
theorem test_smin_wide : sv (run (.smin8 ⟨h0, .i64, false, 9, s 4, s 5⟩) (e45 0xFFFFFFFFFFFFFFFF 1)) 9 = 0xFFFFFFFFFFFFFFFF := by decide +kernel

/-! ### Control and the fibre (R165 to R183) -/

theorem test_bra_back : (fib (run (.bra12 ⟨h0, 0xFFFF⟩) s0)).regs.pc = page - 4 := by decide +kernel
theorem test_call_links : (let t := run (.call12 ⟨h0, 30, 8⟩) s0; ((fib t).regs.pc, (fib t).sreg 30)) = (page + 32, page + 12) := by decide +kernel
/-- `p7` holds some of the active lanes: `.any` branches and `.all` falls through. -/
theorem test_bpr_any : (fib (run (.bpr12 ⟨h0, .any, v 7, 8⟩) (env fP))).regs.pc = page + 32 := by decide +kernel
theorem test_bpr_all : (fib (run (.bpr12 ⟨h0, .all, v 7, 8⟩) (env fP))).regs.pc = page + 12 := by decide +kernel
theorem test_emset_andn : (fib (run (.emset ⟨h0, .andn, v 7⟩) (env fP))).regs.em = 0x7FFFFFFE := by decide +kernel
theorem test_srd_lane : (let t := run (.srd ⟨h0, 3, 0⟩) s0; (lv t 3 0, lv t 3 31)) = (0, 31) := by decide +kernel
theorem test_swr_xen_keeps_its_bits : (fib (run (.swr ⟨h0, s 4, 0x19⟩) (e45 0xFFFFFFFF 0))).regs.xen = 0x1011F := by decide +kernel
theorem test_regacq_grants : (let t := run (.regacq ⟨h0, true, 1, 6⟩) (big f0); ((fib t).regs.ext, (fib t).preg 1)) = (96, allOnes) := by
  decide +kernel
theorem test_exit_ends_the_launch : (run (.exit ⟨h0⟩) s0).launches = [] := by decide +kernel
theorem test_rett_at_level_0 : causeOf (run (.rett ⟨h0⟩) s0) = 1 := by decide +kernel
theorem test_trap_then_rett : (fib (run (.rett ⟨h0⟩) (run (.trap ⟨h0, false, 9⟩) s0))).regs.pc = page + 12 := by decide +kernel
/-- R176, the worked example: F0 waits on phase 1 of a block barrier and F1 to arrive at phase 2, F2 has exited, and F1's copy
registered on phase 1. -/
def sPhase : State :=
  let s := sBar { fArr 1 0 with status := .barrier .block 3 1 false true, isCur := false } 0 [(1, 5)]
  { s with fibres := s.fibres.map fun f => if f.id.pos = 1 then { f with status := .barrier .block 3 1 true false }
      else if f.id.pos = 2 then { f with status := .exited } else f }
/-- Cycle 340: phase 1 does not complete before the copy arrives. -/
theorem test_phase_awaits_its_copy : (barOf (settleBarrier f0 .block 3 8 sPhase) f0 .block 3).done = 0 := by decide +kernel
/-- Cycle 360: phase 1 completes, F0 continues, F1 arrives at phase 2 and continues. -/
theorem test_copy_completes_phase :
    (let t := copyArrives { aCopy with id := 5, fibre := ⟨0, 1⟩, bar := some (3, 1) } sPhase
     ((barOf t f0 .block 3).done, t.fibres.map fun f => (f.status, arrivedAt f .block 3))) =
      (1, [(.ready, 1), (.ready, 2), (.exited, 0)]) := by decide +kernel

/-! ### Floating point (03, 08) -/

theorem test_fadd : lv (run (.fadd ⟨h0, .f32, .rn, false, 3, s 4, s 5⟩) (e45 0x3F800000 0x3F800000)) 3 7 = 0x40000000 := by decide +kernel
/-- R69: an invalid operation without a trap gives the default NaN and sets INVALID. -/
theorem test_fsub_infinities : (fib (run (.fsub ⟨h0, .f32, .rn, false, 3, s 4, s 5⟩) (e45 0x7F800000 0x7F800000))).regs.xflags = 1 := by decide +kernel
theorem test_fcmp_unordered : (fib (run (.fcmp ⟨h0, .un, .f32, 1, s 4, s 5⟩) (e45 0x7FC00000 0))).preg 1 = allOnes := by decide +kernel
/-- 08: `fsin` of 0.5, `fcos` of 3.0, `fsin` of −2.0. -/
theorem test_fsin_half : ((specialV .sin 0x65 .f32 false 0x3F000000).lane).bits = 0x3F800000 := by decide +kernel
theorem test_fcos_odd : ((specialV .cos 0x66 .f32 false 0x40400000).lane).bits = 0xBF800000 := by decide +kernel
theorem test_fsin_integer : ((specialV .sin 0x65 .f32 false 0xC0000000).lane).bits = 0x80000000 := by decide +kernel
/-- R67, the worked case: FP32 0.3 to E4M3. -/
theorem test_convert_nearest : convert .f32 .e4m3 .rn 0 false false 0x3E99999A = (0x2A, 0x10) := by decide +kernel
theorem test_convert_stochastic : ([0x80000000, 0x12345678, 0x66666000, 0x66665FFF].map fun r => (convert .f32 .e4m3 .sr r false false 0x3E99999A).1) =
    [0x2A, 0x29, 0x2A, 0x29] := by decide +kernel
/-- R61: E4M3 0.3125 by the scale 0x7A. -/
theorem test_scale_product : (scaleProduct .e4m3 0x2A 0x7A).lane.bits = 0x3EC80000 := by decide +kernel
/-- R216: 500 in E4M3. -/
theorem test_scfind : scaleExp .e4m3 (maxMag none (readF .f32 false 0x43FA0000)) = 1 := by decide +kernel
/-- R217: −75 through four planes. -/
theorem test_bpext : (let planes := toPlanes fun _ => 0xB5B5B5B5; toBytes 4 planes 31) = 0xB0B0B0B0 := by decide +kernel

/-! ### Coded blocks (12, the block coded by hand) -/

theorem test_coded_decode : Coded.decode ⟨false, 1, 16⟩ 0x08C0400A641E6680 = [0x3F801000, 0x3FC01000, 0x40002800, 0x40462800] := by decide +kernel
theorem test_coded_encode : Coded.encode ⟨false, 1, 16⟩ (some 0x08C0400A641E6680) [0x3F801000, 0x3FC01000, 0x40002800, 0x40462800] =
    0x08C0400A641E6680 := by decide +kernel
theorem test_coded_header : Coded.header ⟨false, 1, 16⟩ 0x08C0400A641E6680 = 128 := by decide +kernel

/-! ### Memory and accumulators (R250, R253, R268, R339) -/

/-- The byte at the entry's page and an offset. -/
def byteAt (t : State) (a : Nat) : Nat := (homeByte t.msys a).toNat
theorem test_stsc_little_endian : (let t := run (.stsc8 ⟨h0, .n16, .none, s 4, s 5⟩) (e45 (page + 8) 0x12345); (byteAt t 8, byteAt t 9, byteAt t 10)) =
    (0x45, 0x23, 0) := by decide +kernel
theorem test_ldsc_sign : sv (runLate (.ldsc8 ⟨h0, .i8, .none, 9, s 4⟩) (withM (fun m => putHome m 8 0x80) (e45 (page + 8) 0))) 9 = 0xFFFFFFFFFFFFFF80 := by
  decide +kernel
/-- All 32 lanes add 1 to one element in lane order: lane 31 reads 31. -/
theorem test_atom_lane_order : (let t := runLate (.atom8 ⟨h0, .add, .none, false, 3, s 4, s 5⟩) (e45 (page + 8) 1); (lv t 3 31, byteAt t 8)) = (31, 32) := by
  decide +kernel
theorem test_store_highest_lane_stands : byteAt (run (.st8 ⟨h0, .n8, .none, s 4, v 3⟩) (run (.srd ⟨h0, 3, 0⟩) (e45 (page + 8) 0))) 8 = 31 := by
  decide +kernel
theorem test_ld_unmapped : causeOf (run (.ld8 ⟨h0, .n8, .none, false, 3, s 4⟩) (withSystrap 0x5000 (e45 0 0))) = 0x10 := by decide +kernel
theorem test_acwr_acrd : lv (runLate (.acrd ⟨h0, false, 4, true, 63, 15⟩) { run (.acwr ⟨h0, false, 15, s 4, true, 63⟩) (big (at4 7 0)) with
    fibres := [f0] }) 4 31 = 7 := by decide +kernel
theorem test_xop_emulate : causeOf (run (.xop8 ⟨h0, 7, 0, 0, 0, v 0, v 0⟩) s0) = 1 := by decide +kernel

end Sys2Proof.Tests
end

section
/-! PROOFS. R22, R438, R442 to R449: partitions, the device's number, attestation, sleep, repair and power-on reset. -/

namespace Sys2Proof.Machine

/-! ## What leaves the device block alone -/

/-- Steps that each leave the device block leave it together. -/
theorem foldl_dev {α : Type} (g : State → α → State) (hg : ∀ s x, (g s x).dev = s.dev) (l : List α) (s : State) :
    (l.foldl g s).dev = s.dev :=
  foldl_preserves (fun t => t.dev = s.dev) g (fun t x h => (hg t x).trans h) l s rfl

@[simp] theorem writeDev_dev (who : Option FibreId) (core : Option Nat) (ctx : Option (Nat × Nat)) (pa : Nat) (bs : List Byte)
    (s : State) : (writeDev who core ctx pa bs s).dev = s.dev :=
  foldl_dev (fun s l => noteWrite who core (none, l) s) (fun _ _ => rfl) _ _

@[simp] theorem purgeCore_dev (core old : Nat) (s : State) : (purgeCore core old s).dev = s.dev := setCore_dev _ _ _
@[simp] theorem purgeSlice_dev (slice : Nat) (s : State) : (purgeSlice slice s).dev = s.dev := rfl

@[simp] theorem releaseCapture_dev (p : Nat) (id : BitVec 16) (s : State) : (releaseCapture p id s).dev = s.dev := by
  unfold releaseCapture
  split <;> rfl

/-- The device block is what it was but for the agents that are down. -/
def DevKept (s t : State) : Prop := ∃ l, t.dev = { s.dev with failed := l }

theorem DevKept.of_eq {s t : State} (h : t.dev = s.dev) : DevKept s t := ⟨s.dev.failed, h⟩

theorem DevKept.trans {s t u : State} (h : DevKept s t) (g : DevKept t u) : DevKept s u := by
  obtain ⟨k, hk⟩ := h
  obtain ⟨l, hl⟩ := g
  exact ⟨l, by rw [hl, hk]⟩

/-- A rejoin ends the failure of its agent (R425). -/
theorem rejoin_devKept (kind : AgentKind) (num : Nat) (s : State) : DevKept s (rejoin kind num s) := by
  have hp : ((agentSlices kind num).foldl (fun s k => purgeSlice k s)
      ((agentCores kind num).foldl (fun s c => purgeCore c (incarnation s .core c) s) s)).dev = s.dev := by
    rw [foldl_dev _ (fun _ _ => purgeSlice_dev _ _), foldl_dev _ (fun _ _ => purgeCore_dev _ _ _)]
  refine (DevKept.of_eq hp).trans ⟨(rejoin kind num s).dev.failed, ?_⟩
  unfold rejoin
  dsimp only
  split <;> rfl

/-! ## Cores whose caches were dropped -/

/-- What holds of every listed core and of a core with nothing on it holds of every core. -/
theorem coreOf_of_listed {P : CoreRec → Prop} {s : State} (h0 : P CoreRec.init) (h : ∀ e ∈ s.cores, P e.2) (c : Nat) :
    P (coreOf s c) := by
  unfold coreOf Tab.getD Tab.get
  cases hf : s.cores.find? fun e => e.1 == c with
  | none => exact h0
  | some e => exact h e (List.mem_of_find?_eq_some hf)

/-- First-level TLBs and instruction lines are gone where every core's were dropped (R443, R447). -/
theorem clearCores_all (s : State) (c : Nat) :
    (coreOf (clearCores (fun _ => true) s) c).tlb = [] ∧ (coreOf (clearCores (fun _ => true) s) c).icache = [] ∧
      (coreOf (clearCores (fun _ => true) s) c).l0 = [] := by
  refine coreOf_of_listed (P := fun r => r.tlb = [] ∧ r.icache = [] ∧ r.l0 = []) ⟨rfl, rfl, rfl⟩ (fun e he => ?_) c
  obtain ⟨d, -, rfl⟩ := List.mem_map.mp (List.mem_filter.mp he).1
  exact ⟨rfl, rfl, rfl⟩

/-! ## Memory initialised with zero -/

/-- An address that no stack and no home lists, under the key of R447. -/
def Cleared (ms : MemSys) (a : Nat) : Prop :=
  Cells.get ms.mem a = none ∧ Cells.get ms.home a = none ∧ Tab.getD ms.keys (paStack a) 0 = 0

/-- A cleared address reads as zero (R447). -/
theorem Cleared.homeByte {ms : MemSys} {a : Nat} (h : Cleared ms a) : homeByte ms a = 0 := by
  obtain ⟨hm, hh, hk⟩ := h
  simp [Machine.homeByte, stackByte, stackDefault, hm, hh, hk]

/-- An address is unlisted when no cell of a list is its own. -/
theorem Cells.get_eq_none {m : List Host.Cell} {a : Nat} : Cells.get m a = none ↔ ∀ c ∈ m, c.1 ≠ a := by
  simp [Cells.get]

/-- An unlisted address stays so where cells are left out. -/
theorem Cells.get_filter_none {m : List Host.Cell} {a : Nat} (p : Host.Cell → Bool) (h : Cells.get m a = none) :
    Cells.get (m.filter p) a = none :=
  Cells.get_eq_none.mpr fun c hc => Cells.get_eq_none.mp h c (List.mem_filter.mp hc).1

/-- An address is unlisted where its own cells are left out. -/
theorem Cells.get_filter_own (m : List Host.Cell) {a : Nat} {q : Nat → Bool} (h : q a = false) :
    Cells.get (m.filter fun c => q c.1) a = none :=
  Cells.get_eq_none.mpr fun c hc e => by
    have hq := (List.mem_filter.mp hc).2
    rw [e, h] at hq
    cases hq

/-- A key that is discarded, or that no stack had, is the key of R447. -/
theorem get_keys_deleted (l : List Nat) (k : Nat) (t : Table Nat) (h : k ∈ l ∨ Tab.get t k = none) :
    Tab.get (l.foldl Tab.del t) k = none := by
  induction l generalizing t with
  | nil => simpa using h
  | cons a r ih =>
    refine ih _ ?_
    rw [Tab.get_del]
    rcases h with h | h
    · rcases List.mem_cons.mp h with rfl | h
      · exact .inr (if_pos rfl)
      · exact .inl h
    · exact .inr (by rw [h]; exact ite_self _)

theorem paStack_lt (a : Nat) : paStack a < 16 := Nat.mod_lt _ (by decide)

/-- Stacks initialised with zero are cleared (R447, R449). -/
theorem rekey_cleared (mine : Nat → Bool) (s : State) (a : Nat) (ho : ownDev s a = true) (hm : mine (paStack a) = true) :
    Cleared (rekey mine 0 s).msys a := by
  refine ⟨Cells.get_filter_own (q := fun x => !mine (paStack x)) _ (by simp [hm]),
    Cells.get_filter_own (q := fun x => !(ownDev s x && mine (paStack x))) _ (by simp [ho, hm]), ?_⟩
  have hk : Tab.get (rekey mine 0 s).msys.keys (paStack a) = none :=
    get_keys_deleted _ _ _ (.inl (List.mem_filter.mpr ⟨List.mem_range.mpr (paStack_lt a), hm⟩))
  simp [Tab.getD, hk]

theorem purgeCore_cleared {a : Nat} (core old : Nat) {s : State} (h : Cleared s.msys a) : Cleared (purgeCore core old s).msys a := by
  unfold purgeCore
  dsimp only
  rw [setCore_msys]
  exact h

theorem purgeSlice_cleared {a : Nat} (slice : Nat) {s : State} (h : Cleared s.msys a) : Cleared (purgeSlice slice s).msys a := by
  obtain ⟨hm, hh, hk⟩ := h
  exact ⟨hm, Cells.get_filter_none _ hh, hk⟩

/-- A rejoin lists no byte (R425). -/
theorem rejoin_cleared {a : Nat} (kind : AgentKind) (num : Nat) {s : State} (h : Cleared s.msys a) :
    Cleared (rejoin kind num s).msys a := by
  have hc := foldl_preserves (fun t : State => Cleared t.msys a) (fun t c => purgeCore c (incarnation t .core c) t)
    (fun _ _ ht => purgeCore_cleared _ _ ht) (agentCores kind num) s h
  have hs := foldl_preserves (fun t : State => Cleared t.msys a) (fun t k => purgeSlice k t)
    (fun _ _ ht => purgeSlice_cleared _ ht) (agentSlices kind num) _ hc
  unfold rejoin
  dsimp only [updPart_msys]
  split <;> exact hs

theorem releaseCapture_msys (p : Nat) (id : BitVec 16) (s : State) : (releaseCapture p id s).msys = s.msys := by
  unfold releaseCapture
  split <;> rfl

/-! ## A half that returns to service -/

/-- INSERVICE of a half after it was set or cleared. -/
theorem inService_setService (half : BitVec 3) (on : Bool) (s : State) : inService (setService half.toNat on s) half.toNat = on := by
  have hh : half.toNat < 8 := half.isLt
  have hb : (BitVec.ofNat 8 (2 ^ half.toNat)).getLsbD half.toNat = true := by
    rw [BitVec.getLsbD_ofNat, Nat.testBit_two_pow_self, decide_eq_true hh]
    rfl
  unfold inService setService
  dsimp only
  cases on
  · rw [if_neg Bool.false_ne_true, BitVec.getLsbD_and, BitVec.getLsbD_not, hb]
    simp
  · rw [if_pos rfl, BitVec.getLsbD_or, hb, Bool.or_true]

/-- One agent of a half that returns (R425, R449): it rejoins unless its incarnation has reached 65,535. -/
def rejoinYoung (s : State) (a : AgentKind × Nat) : State := if incarnation s a.1 a.2 < 65535 then rejoin a.1 a.2 s else s

/-- The half while it returns, before its agents rejoin: its stacks hold zero and its tables are released (R304, R449). -/
def zeroedHalf (h : Nat) (s : State) : State :=
  let s := rekey (fun k => k / 2 == h) 0 s
  let p := partOfHalf s h
  ((partn s p).captured.map (·.1)).foldl (fun s t => releaseCapture p (BitVec.ofNat 16 t) s) s

theorem returnHalf_eq (h : Nat) (s : State) :
    returnHalf h s = setStep 4 (setService h true ((halfAgents h).foldl rejoinYoung (zeroedHalf h s))) := rfl

@[simp] theorem zeroedHalf_dev (h : Nat) (s : State) : (zeroedHalf h s).dev = s.dev :=
  foldl_dev (fun t n => releaseCapture _ (BitVec.ofNat 16 n) t) (fun _ _ => releaseCapture_dev _ _ _) _ _

@[simp] theorem zeroedHalf_msys (h : Nat) (s : State) : (zeroedHalf h s).msys = (rekey (fun k => k / 2 == h) 0 s).msys :=
  foldl_preserves (fun t : State => t.msys = (rekey (fun k => k / 2 == h) 0 s).msys)
    (fun t n => releaseCapture _ (BitVec.ofNat 16 n) t) (fun t _ ht => (releaseCapture_msys _ _ t).trans ht) _ _ rfl

theorem rejoinYoung_devKept (s : State) (a : AgentKind × Nat) : DevKept s (rejoinYoung s a) := by
  unfold rejoinYoung
  split
  · exact rejoin_devKept _ _ _
  · exact .of_eq rfl

theorem rejoinYoung_cleared {a : Nat} {s : State} (x : AgentKind × Nat) (h : Cleared s.msys a) : Cleared (rejoinYoung s x).msys a := by
  unfold rejoinYoung
  split
  · exact rejoin_cleared _ _ h
  · exact h

/-- The device block of a half's return: its bit of INSERVICE, STEP 4, and agents that are up again (R449). -/
theorem returnHalf_devKept (h : Nat) (s : State) : DevKept (setStep 4 (setService h true s)) (returnHalf h s) := by
  obtain ⟨l, hl⟩ := foldl_preserves (DevKept s) rejoinYoung (fun t x ht => ht.trans (rejoinYoung_devKept t x)) (halfAgents h)
    (zeroedHalf h s) (.of_eq (zeroedHalf_dev h s))
  refine ⟨l, ?_⟩
  rw [returnHalf_eq]
  dsimp only [setStep, setService]
  rw [hl]

@[simp] theorem setService_msys (h : Nat) (on : Bool) (s : State) : (setService h on s).msys = s.msys := rfl

/-- The stacks of a half that returns hold zero (R449). -/
theorem returnHalf_cleared {h : Nat} {s : State} {a : Nat} (ho : ownDev s a = true) (hh : paStack a / 2 = h) :
    Cleared (returnHalf h s).msys a := by
  rw [returnHalf_eq, setStep_msys, setService_msys]
  refine foldl_preserves (fun t : State => Cleared t.msys a) rejoinYoung (fun t x ht => rejoinYoung_cleared x ht) (halfAgents h) _ ?_
  rw [zeroedHalf_msys]
  exact rekey_cleared _ s a ho (by simp [hh])

/-! ## A device that answers -/

/-- READY stands at STEP 4 and at STEP 6 (R446). -/
theorem ready_iff (s : State) : ready s = true ↔ s.dev.step = 4 ∨ s.dev.step = 6 := by simp [ready]

/-- A device that is ready has not failed and does not sleep (R446, R447). -/
theorem steps_of_ready {s : State} (h : ready s = true) : s.dev.step ≠ 15 ∧ s.dev.step ≠ 5 := by
  rcases (ready_iff s).mp h with h | h <;> rw [h] <;> decide

theorem wake_of_awake {s : State} (h : s.dev.step ≠ 5) : wake s = s := if_neg h
theorem wake_of_asleep {s : State} (h : s.dev.step = 5) : wake s = setStep 4 s := if_pos h

@[simp] theorem setRepair_ready (v : Nat) (s : State) : ready (setRepair v s) = ready s := rfl
@[simp] theorem setRepair_step (v : Nat) (s : State) : (setRepair v s).dev.step = s.dev.step := rfl
@[simp] theorem setRepair_msys (v : Nat) (s : State) : (setRepair v s).msys = s.msys := rfl
@[simp] theorem setRepair_inService (v h : Nat) (s : State) : inService (setRepair v s) h = inService s h := rfl

@[simp] theorem setRepair_ownDev (v : Nat) (s : State) (a : Nat) : ownDev (setRepair v s) a = ownDev s a := rfl

/-! ## Partitions and the device's number -/

theorem exec_partcfgWrite {s : State} (v : Word) (h : s.dev.step ≠ 15) : exec (.partcfgWrite v) s =
    .next (if s.launches = [] ∧ cfgBits (v.setWidth 8) ≠ 1 then formPartitions (v.setWidth 8) (noteConfigured s) else noteConfigured s) :=
  congrArg Host.Outcome.next (if_neg h)

/-- No byte of a stack outlives the key of every stack (R443). -/
theorem newKey_all_mem (s : State) : (newKey (fun _ => true) s).msys.mem = [] := by
  simp [newKey, rekey]

/-- PARTCFG where a launch is live or the value has one bit (R442). -/
theorem partcfgWrite_refused {s : State} {v : Word} (h : s.dev.step ≠ 15) (hv : s.launches ≠ [] ∨ cfgBits (v.setWidth 8) = 1) :
    exec (.partcfgWrite v) s = .next { s with dev := { s.dev with configured := true } } := by
  rw [exec_partcfgWrite v h, if_neg fun ⟨hl, hc⟩ => hv.elim (· hl) hc]
  rfl

/-- PARTCFG with no launch live: the partitions are formed (R22, R443). -/
theorem partcfgWrite_forms {s : State} {v : Word} (h : s.dev.step ≠ 15) (hl : s.launches = []) (hc : cfgBits (v.setWidth 8) ≠ 1) :
    ∃ t, exec (.partcfgWrite v) s = .next t ∧ t.dev.partcfg = v.setWidth 8 ∧ t.dev.configured = true ∧ t.msys.mem = [] ∧
      t.fibres = s.fibres ∧ ∀ c, (coreOf t c).tlb = [] ∧ (coreOf t c).icache = [] ∧ (coreOf t c).l0 = [] :=
  ⟨formPartitions (v.setWidth 8) (noteConfigured s), by rw [exec_partcfgWrite v h, if_pos ⟨hl, hc⟩], rfl, rfl, newKey_all_mem _, rfl,
    fun c => clearCores_all s c⟩

/-- DEVID is fixed once a register that locks it was written (R438). -/
theorem devidWrite_fixed {s : State} (v : Word) (h : s.dev.configured = true) : exec (.devidWrite v) s = .next s :=
  congrArg Host.Outcome.next (if_pos (.inr (.inl h)))

theorem devidWrite_takes {s : State} (v : Word) (h : s.dev.step ≠ 15) (hc : s.dev.configured = false) (hl : s.launches = []) :
    exec (.devidWrite v) s = .next (setDevid (v.setWidth 8) s) := by
  refine congrArg Host.Outcome.next (if_neg ?_)
  rintro (h' | h' | h')
  · exact h h'
  · exact Bool.false_ne_true (hc.symm.trans h')
  · exact h' hl

/-! ## Attestation -/

/-- Bits of a word, as a number. -/
theorem wfield_eq_extract {n : Nat} (x : BitVec n) (hi lo : Nat) : wfield x hi lo = (x.extractLsb' lo (hi + 1 - lo)).toNat := by
  simp [wfield, field, Nat.shiftRight_eq_div_pow]

/-- The word that ATTEST keeps: GO and the buffer's page (R445). -/
def attestWord (v : Word) : Word := v &&& 0xFFFFFFFFFFFFF001

theorem keep_attest (v : Word) : keep 0xFFFFFFFFFFFFF001 v.toNat = attestWord v := by simp [keep, attestWord]

/-- The buffer that ATTEST names is the one of the word as it was written (R445). -/
theorem wfield_attestWord (v : Word) : wfield (attestWord v) 63 12 = wfield v 63 12 := by
  have hm : (0xFFFFFFFFFFFFF001 : Word).extractLsb' 12 52 = BitVec.allOnes 52 := by decide
  rw [wfield_eq_extract, wfield_eq_extract, attestWord, BitVec.extractLsb'_and, hm, BitVec.and_allOnes]

/-- GO of ATTEST is that of the word as it was written (R445). -/
theorem go_attestWord (v : Word) : (attestWord v).getLsbD 0 = (v &&& 1 != 0) := by
  have hm : (0xFFFFFFFFFFFFF001 : Word).getLsbD 0 = true := by decide
  have h1 : v &&& 1 = (BitVec.ofBool (v.getLsbD 0)).setWidth 64 := BitVec.and_one_eq_setWidth_ofBool_getLsbD
  rw [attestWord, BitVec.getLsbD_and, hm, Bool.and_true, h1]
  cases v.getLsbD 0 <;> decide

theorem exec_attestRequest {s : State} (v : Word) (h : s.dev.step ≠ 15) (ha : s.dev.attesting = false) :
    exec (.attestRequest v) s = .next (
      let ok := (v &&& 1 != 0) && (attestPart s (wfield v 63 12 * 4096)).isSome
      noteConfigured { s with dev := { s.dev with
        attest := attestWord v, attesting := ok, nonce := if ok then homeBytes s.msys (wfield v 63 12 * 4096) 32 else [] } }) := by
  refine congrArg Host.Outcome.next ((if_neg ?_).trans ?_)
  · rintro (h' | h')
    · exact h h'
    · exact Bool.false_ne_true (ha.symm.trans h')
  · rw [keep_attest, wfield_attestWord, go_attestWord]

theorem exec_attestReportComplete {s : State} {p : Nat} (ha : s.dev.attesting = true)
    (hp : attestPart s (wfield s.dev.attest 63 12 * 4096) = some p) : exec .attestReportComplete s = .next (
      let t := writeDev none none none (wfield s.dev.attest 63 12 * 4096) (reportBytes s s.freeCtr p) s
      { t with
        freeCtr := t.freeCtr + 1
        dev := { t.dev with attesting := false, nonce := [], attest := t.dev.attest &&& ~~~1#64 } }) := by
  change execAttestReportComplete s = _
  unfold execAttestReportComplete
  dsimp only
  rw [if_neg (by simp [ha]), hp]

/-- The part of a report that names the device: DEVID, PARTCFG, the partition and its incarnation (R445). -/
def reportNames (s : State) (p : Nat) : List Byte :=
  bytesOf 8 s.dev.devid.toNat ++ bytesOf 8 s.dev.partcfg.toNat ++ bytesOf 8 p ++ bytesOf 8 (incarnation s .dieHalf p)
/-- The digest of the image that runs (R445). -/
def reportDigest (s : State) : List Byte := (List.range 64).map (Config.imageByte s.dev.image)
/-- The signature of a report (R445). -/
def reportSignature (k : Nat) : List Byte := (List.range 29792).map fun i => Config.attestByte k i

theorem reportNames_length (s : State) (p : Nat) : (reportNames s p).length = 32 := by simp [reportNames, bytesOf, leBytes_length]
theorem reportDigest_length (s : State) : (reportDigest s).length = 64 := by simp [reportDigest]
theorem reportSignature_length (k : Nat) : (reportSignature k).length = 29792 := by simp [reportSignature]

/-- A report is its five parts one after another (R445). -/
theorem reportBytes_eq (s : State) (k p : Nat) : reportBytes s k p =
    s.dev.nonce ++ (reportDigest s ++ (reportNames s p ++ (reportSignature k ++ List.replicate 2848 0))) := by
  simp only [reportBytes, reportDigest, reportNames, reportSignature, List.append_assoc]

/-- Where the parts of a report lie (R445). -/
theorem reportBytes_layout {s : State} (k p : Nat) (hn : s.dev.nonce.length = 32) :
    (reportBytes s k p).length = 32768 ∧ (reportBytes s k p).take 32 = s.dev.nonce ∧
      ((reportBytes s k p).drop 32).take 64 = reportDigest s ∧ ((reportBytes s k p).drop 96).take 32 = reportNames s p ∧
      (reportBytes s k p).drop 29920 = List.replicate 2848 0 := by
  have hd := reportDigest_length s
  have hi := reportNames_length s p
  have hs := reportSignature_length k
  have e32 : (reportBytes s k p).drop 32 = reportDigest s ++ (reportNames s p ++ (reportSignature k ++ List.replicate 2848 0)) := by
    rw [reportBytes_eq, List.drop_left' hn]
  have e96 : (reportBytes s k p).drop 96 = reportNames s p ++ (reportSignature k ++ List.replicate 2848 0) := by
    rw [show 96 = 32 + 64 from rfl, ← List.drop_drop, e32, List.drop_left' hd]
  have e128 : (reportBytes s k p).drop 128 = reportSignature k ++ List.replicate 2848 0 := by
    rw [show 128 = 96 + 32 from rfl, ← List.drop_drop, e96, List.drop_left' hi]
  refine ⟨?_, ?_, ?_, ?_, ?_⟩
  · rw [reportBytes_eq]
    simp only [List.length_append, List.length_replicate, hn, hd, hi, hs]
  · rw [reportBytes_eq, List.take_left' hn]
  · rw [e32, List.take_left' hd]
  · rw [e96, List.take_left' hi]
  · rw [show 29920 = 128 + 29792 from rfl, ← List.drop_drop, e128, List.drop_left' hs]

/-! ## Sleep and repair -/

theorem exec_deviceWake (s : State) : exec .deviceWake s = .next (wake s) := rfl

theorem exec_repairSleep {s : State} (hr : ready s = true) (hl : s.launches = []) :
    exec .repairSleep s = .next (setStep 5 (setRepair 1 s)) := by
  obtain ⟨h15, h5⟩ := steps_of_ready hr
  refine congrArg Host.Outcome.next ((if_neg h15).trans ?_)
  rw [wake_of_awake h5]
  exact if_pos ⟨hl, hr⟩

/-- A half that is out of service is not taken out again: REPAIR changes and nothing else (R449). -/
theorem exec_repairTakeOut_absent {s : State} {half : BitVec 3} (hr : ready s = true) (hs : inService s half.toNat = false) :
    exec (.repairTakeOut half) s = .next (setRepair (half.toNat * 2 ^ 8 + 2 ^ 12) s) := by
  obtain ⟨h15, h5⟩ := steps_of_ready hr
  change execRepairTakeOut half s = _
  unfold execRepairTakeOut
  dsimp only
  rw [if_neg h15, wake_of_awake h5, if_pos (.inr ((setRepair_inService _ _ _).trans hs))]

/-- A half that serves is taken out: STEP 6, and its bit of INSERVICE is clear, whatever its halts left (R449). -/
theorem exec_repairTakeOut_serving {s : State} {half : BitVec 3} (hr : ready s = true) (hs : inService s half.toNat = true) :
    ∃ u, exec (.repairTakeOut half) s = .next (setStep 6 (setService half.toNat false u)) := by
  obtain ⟨h15, h5⟩ := steps_of_ready hr
  change ∃ u, execRepairTakeOut half s = _
  unfold execRepairTakeOut
  dsimp only
  rw [if_neg h15, wake_of_awake h5, if_neg (by simp [hr, hs])]
  exact ⟨_, rfl⟩

/-- A half that serves does not return: REPAIR changes and nothing else (R449). -/
theorem exec_repairReturn_serving {s : State} {half : BitVec 3} (hr : ready s = true) (hs : inService s half.toNat = true) :
    exec (.repairReturn half) s = .next (setRepair (half.toNat * 2 ^ 8 + 2 * 2 ^ 12) s) := by
  obtain ⟨h15, h5⟩ := steps_of_ready hr
  change execRepairReturn half s = _
  unfold execRepairReturn
  dsimp only
  rw [if_neg h15, wake_of_awake h5, if_pos (.inr ((setRepair_inService _ _ _).trans hs))]

theorem exec_repairReturn_absent {s : State} {half : BitVec 3} (hr : ready s = true) (hs : inService s half.toNat = false) :
    exec (.repairReturn half) s = .next (returnHalf half.toNat (setRepair (half.toNat * 2 ^ 8 + 2 * 2 ^ 12) s)) := by
  obtain ⟨h15, h5⟩ := steps_of_ready hr
  change execRepairReturn half s = _
  unfold execRepairReturn
  dsimp only
  rw [if_neg h15, wake_of_awake h5, if_neg (by simp [hr, hs])]

/-- Firmware loads into a half that is out of service; the verdict on the image decides whether it returns (R444, R449). -/
theorem exec_repairLoadFirmware_absent {s : State} {half : BitVec 3} (image : BitVec 48) (hr : ready s = true)
    (hs : inService s half.toNat = false) : exec (.repairLoadFirmware half image) s = .next (
      let u := { setRepair (half.toNat * 2 ^ 8 + 3 * 2 ^ 12 + image.toNat * 2 ^ 16) s with freeCtr := s.freeCtr + 1 }
      if Config.firmwareOk s.freeCtr image.toNat then returnHalf half.toNat { u with dev := { u.dev with image := s.freeCtr + 1 } }
      else setStep (if s.dev.inservice = 0 then 15 else 4) u) := by
  obtain ⟨h15, h5⟩ := steps_of_ready hr
  change execRepairLoadFirmware half image s = _
  unfold execRepairLoadFirmware
  dsimp only
  rw [if_neg h15, wake_of_awake h5, if_neg (by simp [hr, hs])]
  rfl

/-- What a return to service leaves of the device block (R449). -/
theorem returnHalf_serves (half : BitVec 3) (s : State) : (returnHalf half.toNat s).dev.step = 4 ∧
    inService (returnHalf half.toNat s) half.toNat = true ∧ (returnHalf half.toNat s).dev.image = s.dev.image := by
  obtain ⟨l, hl⟩ := returnHalf_devKept half.toNat s
  have hs := inService_setService half true s
  unfold inService at hs ⊢
  rw [hl]
  exact ⟨rfl, hs, rfl⟩

/-! ## Power-on reset -/

theorem exec_powerOnReset_starts {s : State} (h1 : s.dev.step ≠ 1) (h2 : s.dev.step ≠ 2) (h3 : s.dev.step ≠ 3) :
    exec .powerOnReset s = .next (setStep 1 { State.reset with agenda := s.agenda, freeCtr := s.freeCtr, outbox := s.outbox }) := by
  change execPowerOnReset s = _
  rw [execPowerOnReset, if_neg h1, if_neg h2, if_neg h3]

theorem exec_powerOnReset_checks {s : State} (h : s.dev.step = 1) : exec .powerOnReset s =
    .next (setStep (if Config.firmwareOk s.freeCtr 0 then 2 else 15) { s with freeCtr := s.freeCtr + 1 }) :=
  congrArg Host.Outcome.next (if_pos h)

theorem exec_powerOnReset_calibrates {s : State} (h : s.dev.step = 2) : exec .powerOnReset s =
    .next (setStep 3 { s with links := s.links.map fun l => { l with total := Config.permits l.num } }) := by
  change execPowerOnReset s = _
  rw [execPowerOnReset, if_neg (by rw [h]; decide), if_pos h]

theorem exec_powerOnReset_initialises {s : State} (h : s.dev.step = 3) :
    exec .powerOnReset s = .next (setStep 4 (initMemory s)) := by
  change execPowerOnReset s = _
  rw [execPowerOnReset, if_neg (by rw [h]; decide), if_neg (by rw [h]; decide), if_pos h]

/-- The counters of every partition start at 0 with memory (R447). -/
theorem initMemory_counters (s : State) (p : Nat) (hp : p < 8) : (partn (initMemory s) p).errtrans = 0 ∧
    (partn (initMemory s) p).errlast = 0 ∧ (partn (initMemory s) p).stopcount = 0 ∧ (partn (initMemory s) p).evlost = 0 := by
  simp [partn, initMemory, Vector.getD, hp]

/-- Every link has its total once the device is calibrated (R447). -/
theorem calibrated_total (ls : List Link) :
    ∀ l ∈ ls.map (fun l => { l with total := Config.permits l.num }), l.total = Config.permits l.num := by
  intro l hl
  obtain ⟨k, -, rfl⟩ := List.mem_map.mp hl
  rfl

/-- Settles O53: each command has an equation that says what state it leaves; rejoins keep the device block but for the agents that
are down, and list no byte of the half that returns, whose stacks hold zero. -/
theorem deviceLife : Obligations.DeviceLife := by
  unfold Obligations.DeviceLife
  refine ⟨fun s v h => ⟨partcfgWrite_refused h, partcfgWrite_forms h⟩, fun s v => ⟨devidWrite_fixed v, fun h hc hl => ?devid⟩,
    fun s v h ha => ?attest, fun s p ha hp => ?report, fun s h hl => ?sleep, fun s half h => ?repair, fun s half image h hs => ?load,
    fun s => ?wake, fun s => ?reset⟩
  case devid => exact ⟨_, devidWrite_takes v h hc hl, rfl, rfl⟩
  case attest =>
    refine ⟨_, exec_attestRequest v h ha, rfl, rfl, rfl, fun ht => ?_⟩
    exact if_pos ht
  case report =>
    refine ⟨⟨_, exec_attestReportComplete ha hp, ?_, rfl, fun a => ?_⟩, fun hn => reportBytes_layout s.freeCtr p hn⟩
    · dsimp only
      rw [writeDev_dev]
      rfl
    · exact (writeDev_spec none none none _ _ s).1 a
  case sleep =>
    exact ⟨_, exec_repairSleep ((ready_iff s).mpr h) hl, rfl, rfl, _, (exec_deviceWake _).trans (congrArg _ (wake_of_asleep rfl)),
      rfl, rfl, rfl, rfl⟩
  case repair =>
    have hr := (ready_iff s).mpr h
    refine ⟨fun hs => ⟨?_, ?_⟩, fun hs => ⟨?_, ?_⟩⟩
    · obtain ⟨u, hu⟩ := exec_repairTakeOut_serving hr hs
      exact ⟨_, hu, rfl, inService_setService half false u⟩
    · exact ⟨_, exec_repairReturn_serving hr hs, setRepair_step _ _, (setRepair_inService _ _ _).trans hs⟩
    · exact ⟨_, exec_repairTakeOut_absent hr hs, setRepair_step _ _, setRepair_msys _ _⟩
    · obtain ⟨h4, hi, -⟩ := returnHalf_serves half (setRepair (half.toNat * 2 ^ 8 + 2 * 2 ^ 12) s)
      exact ⟨_, exec_repairReturn_absent hr hs, h4, hi, fun a ho ha =>
        (returnHalf_cleared ((setRepair_ownDev _ _ _).trans ho) ha).homeByte⟩
  case load =>
    refine ⟨_, exec_repairLoadFirmware_absent image ((ready_iff s).mpr (.inl h)) hs, fun hok => ?_, fun hok => ?_⟩
    · dsimp only
      rw [if_pos hok]
      exact returnHalf_serves half _
    · dsimp only
      rw [if_neg (by simp [hok])]
      exact ⟨hs, rfl⟩
  case wake =>
    exact ⟨fun h => congrArg _ (wake_of_asleep h), fun h => congrArg _ (wake_of_awake h)⟩
  case reset =>
    by_cases h1 : s.dev.step = 1
    · exact ⟨_, exec_powerOnReset_checks h1, fun h => absurd h1 h, fun _ => rfl, fun h => absurd (h1.symm.trans h) (by decide),
        fun h => absurd (h1.symm.trans h) (by decide)⟩
    by_cases h2 : s.dev.step = 2
    · exact ⟨_, exec_powerOnReset_calibrates h2, fun _ h => absurd h2 h, fun h => absurd h h1,
        fun _ => ⟨rfl, calibrated_total s.links⟩, fun h => absurd (h2.symm.trans h) (by decide)⟩
    by_cases h3 : s.dev.step = 3
    · exact ⟨_, exec_powerOnReset_initialises h3, fun _ _ h => absurd h3 h, fun h => absurd h h1, fun h => absurd h h2,
        fun _ => ⟨rfl, rfl, rfl, fun c => clearCores_all s c, initMemory_counters s⟩⟩
    · exact ⟨_, exec_powerOnReset_starts h1 h2 h3, fun _ _ _ => ⟨rfl, rfl, rfl, rfl⟩, fun h => absurd h h1, fun h => absurd h h2,
        fun h => absurd h h3⟩

end Sys2Proof.Machine
end

section
/-! PROOFS. R66, R72, R196 to R202, R209 to R217: float arithmetic, float forms and conversions of a quiet fibre. -/

namespace Sys2Proof.Machine

section
variable {s : State} {f : Fibre}

/-! ## What completes a per-lane float plan -/

/-- A per-lane float plan is let through where its sources and its destination are. -/
theorem floatPlan_operand {i : Instr} {late : Bool} {ops : List (Bool × Opnd)} {wide wd : Bool} {d : BitVec 7} {res : Nat → LaneRes}
    (ho : ∀ o ∈ ops, vecBad s f o.1 o.2 = false) (hd : vdstBad s f wide wd d = false) :
    (floatPlan i s f late ops wide wd d res).operand = false := by
  have hops : (ops.any fun o => vecBad s f o.1 o.2) = false := by simpa using ho
  show ((ops.any fun o => vecBad s f o.1 o.2) || vdstBad s f wide wd d) = false
  rw [hops, hd]
  rfl

section
variable {i : Instr} {h : Hdr} {plan : State → Fibre → Plan} {ops : List (Bool × Opnd)} {wide wd : Bool} {d : BitVec 7}
  {res : Nat → LaneRes} {n : Nat}

/-- A float instruction of fixed latency. -/
theorem floatPlan_fixed (q : Quiet s f) (hP : plan s f = floatPlan i s f false ops wide wd d res)
    (ho : ∀ o ∈ ops, vecBad s f o.1 o.2 = false) (hd : vdstBad s f wide wd d = false) (ha : activeMask f h ≠ 0) (hn : lenOf i = n) :
    ∃ t, issueWord i h plan s = .next t ∧ FixedFloat s t f i (f.past n) wide wd d (activeMask f h) res :=
  fixedFloat_next q (by rw [hP]; rfl) (by rw [hP]; rfl) (by rw [hP, floatPlan_operand ho hd]) (by rw [hP]; rfl)
    (fun m => by rw [hP]; rfl) hd ha n hn

/-- A float instruction of variable latency. -/
theorem floatPlan_late (q : Quiet s f) (hP : plan s f = floatPlan i s f true ops wide wd d res)
    (ho : ∀ o ∈ ops, vecBad s f o.1 o.2 = false) (hd : vdstBad s f wide wd d = false) (ha : activeMask f h ≠ 0) (hn : lenOf i = n) :
    ∃ t, issueWord i h plan s = .next t ∧ LateFloat s t f i (f.past n) wide wd d (activeMask f h) res :=
  lateFloat_next q (by rw [hP]; rfl) (by rw [hP]; rfl) (by rw [hP, floatPlan_operand ho hd]) (by rw [hP]; rfl)
    (fun m => by rw [hP]; rfl) ha n hn

/-- A conversion of variable latency, with its stream (R66). -/
theorem floatPlan_stream {rnd : Rnd} {j : BitVec 4} {k : Nat} (q : Quiet s f)
    (hP : plan s f = withStream (floatPlan i s f true ops wide wd d res) f rnd j k)
    (ho : ∀ o ∈ ops, vecBad s f o.1 o.2 = false) (hd : vdstBad s f wide wd d = false) (ha : activeMask f h ≠ 0) (hn : lenOf i = n) :
    ∃ t, issueWord i h plan s = .next t ∧ Converts s t f i (f.past n) wide wd d (activeMask f h) rnd j k res :=
  conv_next q hP rfl rfl (floatPlan_operand ho hd) rfl (fun _ => rfl) ha n hn

/-- Lanes that raise no flag are all written, and nothing traps. -/
theorem floatEff_exact (x : Nat → BitVec 64) (m : BitVec 32) :
    floatEff i f false wide wd d (fun l => ⟨x l, 0⟩) m = .fixed (vdstPut wide wd d m x) 0 none := by
  have hr : ∀ k, raisedFlags k (fun l => ⟨x l, 0⟩) = 0 := fun k => raised0 k x
  have hm : m &&& ~~~(0 : BitVec 32) = m := BitVec.and_allOnes
  simp only [floatEff, arithTrap, fault0, hr, hm, Bool.false_eq_true, if_true, if_false]

/-- A float instruction of fixed latency that raises no flag. -/
theorem floatPlan_exact {x : Nat → BitVec 64} (q : Quiet s f) (hP : plan s f = floatPlan i s f false ops wide wd d fun l => ⟨x l, 0⟩)
    (ho : ∀ o ∈ ops, vecBad s f o.1 o.2 = false) (hd : vdstBad s f wide wd d = false) (ha : activeMask f h ≠ 0) (hn : lenOf i = n) :
    ∃ t, issueWord i h plan s = .next t ∧ WroteLanes s t f (f.retire (f.past n)) wide wd d (activeMask f h) x :=
  lanePlan_next q (by rw [hP]; rfl) (by rw [hP]; rfl) (by rw [hP, floatPlan_operand ho hd]) (by rw [hP]; rfl)
    (fun m => by rw [hP]; exact floatEff_exact x m) hd ha n hn

end

/-! ## Which function carries out a float word -/

theorem exec_fscale (x : OpF2) (s : State) : exec (.fscale x) s = execFscale x s := rfl
theorem exec_fclass (x : OpF1) (s : State) : exec (.fclass x) s = execFclass x s := rfl
theorem exec_fcmp (x : OpFcmp) (s : State) : exec (.fcmp x) s = execFcmp x s := rfl
theorem exec_cvt (x : OpCvt) (s : State) : exec (.cvt x) s = execCvt x s := rfl
theorem exec_pack (x : OpPack) (s : State) : exec (.pack x) s = execPack x s := rfl
theorem exec_pk2 (x : OpPk2) (s : State) : exec (.pk2 x) s = execPk2 x s := rfl
theorem exec_unpack (x : OpUnpack) (s : State) : exec (.unpack x) s = execUnpack x s := rfl
theorem exec_upk2 (x : OpUpk2) (s : State) : exec (.upk2 x) s = execUpk2 x s := rfl
theorem exec_scapply (x : OpScapply) (s : State) : exec (.scapply x) s = execScapply x s := rfl
theorem exec_bpext (x : OpBpext) (s : State) : exec (.bpext x) s = execBpext x s := rfl

/-! ## The groups of float instructions -/

/-- What the issue of a two-operand float instruction plans. -/
def floatTwoPlan (p : (OpF2 → Instr) × (OpF2 → Fmt → Bool → BitVec 64 → BitVec 64 → LaneRes)) (x : OpF2) (s : State) (f : Fibre) : Plan :=
  floatPlan (p.1 x) s f false [(FTy.wide x.ty, x.a), (FTy.wide x.ty, x.b)] (FTy.wide x.ty) x.wd x.d fun l =>
    p.2 x (FTy.fmt x.ty) f.ftz (readLaneF s f (FTy.wide x.ty) x.a l) (readLaneF s f (FTy.wide x.ty) x.b l)

/-- What the issue of a three-operand float instruction plans. -/
def floatThreePlan (p : (OpF3 → Instr) × (FV → FV → FV → FV × FV × FV)) (x : OpF3) (s : State) (f : Fibre) : Plan :=
  floatPlan (p.1 x) s f false [(FTy.wide x.ty, x.a), (FTy.wide x.ty, x.b), (FTy.wide x.ty, x.c)] (FTy.wide x.ty) x.wd x.d fun l =>
    let r := p.2 (readF (FTy.fmt x.ty) f.ftz (readLaneF s f (FTy.wide x.ty) x.a l))
      (readF (FTy.fmt x.ty) f.ftz (readLaneF s f (FTy.wide x.ty) x.b l))
      (readF (FTy.fmt x.ty) f.ftz (readLaneF s f (FTy.wide x.ty) x.c l))
    (ffmaV (FTy.fmt x.ty) x.rnd f.ftz r.1 r.2.1 r.2.2).lane

/-- What the issue of a one-operand float instruction of fixed latency plans. -/
def floatOnePlan (p : (OpF1 → Instr) × (OpF1 → Fmt → Bool → BitVec 64 → LaneRes)) (x : OpF1) (s : State) (f : Fibre) : Plan :=
  floatPlan (p.1 x) s f false [(FTy.wide x.ty, x.a)] (FTy.wide x.ty) x.wd x.d fun l =>
    p.2 x (FTy.fmt x.ty) f.ftz (readLaneF s f (FTy.wide x.ty) x.a l)

theorem exec_floatTwo (x : OpF2) (s : State) :
    ∀ p ∈ floatTwo, exec (p.1 x) s = issueWord (p.1 x) x.h (floatTwoPlan p x) s ∧ lenOf (p.1 x) = 8 := by
  simp only [floatTwo, List.forall_mem_cons]
  exact ⟨⟨rfl, rfl⟩, ⟨rfl, rfl⟩, ⟨rfl, rfl⟩, ⟨rfl, rfl⟩, ⟨rfl, rfl⟩, ⟨rfl, rfl⟩, List.forall_mem_nil _⟩

theorem exec_floatThree (x : OpF3) (s : State) :
    ∀ p ∈ floatThree, exec (p.1 x) s = issueWord (p.1 x) x.h (floatThreePlan p x) s ∧ lenOf (p.1 x) = 12 := by
  simp only [floatThree, List.forall_mem_cons]
  exact ⟨⟨rfl, rfl⟩, ⟨rfl, rfl⟩, ⟨rfl, rfl⟩, List.forall_mem_nil _⟩

theorem exec_floatOne (x : OpF1) (s : State) :
    ∀ p ∈ floatOne, exec (p.1 x) s = issueWord (p.1 x) x.h (floatOnePlan p x) s ∧ lenOf (p.1 x) = 8 := by
  simp only [floatOne, List.forall_mem_cons]
  exact ⟨⟨rfl, rfl⟩, ⟨rfl, rfl⟩, ⟨rfl, rfl⟩, List.forall_mem_nil _⟩

end

/-- Settles O6: every instruction of either group is issued with the plan of its group, and a per-lane float plan of a quiet fibre
completes with the writes, flags and trap of its lanes. -/
theorem floatArithmetic : Obligations.FloatArithmetic := by
  unfold Obligations.FloatArithmetic
  refine ⟨fun p hp x s f q ha hb hd hm => ?two, fun p hp x s f q ha hb hc hd hm => ?three⟩
  case two =>
    obtain ⟨he, hl⟩ := exec_floatTwo x s p hp
    rw [he]
    exact floatPlan_fixed q rfl (by simp [ha, hb]) hd hm hl
  case three =>
    obtain ⟨he, hl⟩ := exec_floatThree x s p hp
    rw [he]
    exact floatPlan_fixed q rfl (by simp [ha, hb, hc]) hd hm hl

/-- Settles O7: the one-operand forms and `fscale` complete as per-lane float plans, `fclass` as one that raises no flag, and
`fcmp` writes its predicate in the lanes that are not faulting. -/
theorem floatForms : Obligations.FloatForms := by
  unfold Obligations.FloatForms
  refine ⟨fun p hp x s f q ha hd hm => ?one, fun x s f q ha hb hd hm => ?fscale, fun x s f q ha hd hm => ?fclass,
    fun x s f q ha hb hm => ?fcmp⟩
  case one =>
    obtain ⟨he, hl⟩ := exec_floatOne x s p hp
    rw [he]
    exact floatPlan_fixed q rfl (by simp [ha]) hd hm hl
  case fscale =>
    rw [exec_fscale, execFscale]
    exact floatPlan_fixed q rfl (by simp [ha, hb]) hd hm rfl
  case fclass =>
    rw [exec_fclass, execFclass]
    exact floatPlan_exact q rfl (by simp [ha]) hd hm rfl
  case fcmp =>
    rw [exec_fcmp, execFcmp]
    have ho : (vecBad s f (FTy.wide x.ty) x.a || vecBad s f (FTy.wide x.ty) x.b) = false := by rw [ha, hb]; rfl
    intro r ok
    exact predTrap_next q (by rfl) (by exact ho) (by rfl) (by exact hm) (by rfl) 8 rfl

/-- Settles O9: `cvt` and `pack` complete with their streams, the other forms as per-lane float plans of variable latency. -/
theorem conversions : Obligations.Conversions := by
  unfold Obligations.Conversions
  refine ⟨fun x s f q ha hd hm => ?cvt, fun x s f q ha hb hc hd hm => ?pack, fun x s f q ha hb hd hm => ?pk2,
    fun x s f q ha hd hm => ?unpack, fun x s f q ha hd hm => ?upk2, fun x s f q ha hb hd hm => ?scapply,
    fun x s f q ha hd hm => ?bpext⟩
  case cvt =>
    rw [exec_cvt, execCvt]
    exact floatPlan_stream q rfl (by simp [ha]) hd hm rfl
  case pack =>
    rw [exec_pack, execPack]
    exact floatPlan_stream q rfl (by simp [ha, hb, hc]) hd hm rfl
  case pk2 =>
    rw [exec_pk2, execPk2]
    exact floatPlan_late q rfl (by simp [ha, hb]) hd hm rfl
  case unpack =>
    rw [exec_unpack, execUnpack]
    exact floatPlan_late q rfl (by simp [ha]) hd hm rfl
  case upk2 =>
    rw [exec_upk2, execUpk2]
    exact floatPlan_late q rfl (by simp [ha]) hd hm rfl
  case scapply =>
    rw [exec_scapply, execScapply]
    exact floatPlan_late q rfl (by simp [ha, hb]) hd hm rfl
  case bpext =>
    rw [exec_bpext, execBpext]
    exact floatPlan_late q rfl (by simp [ha]) hd hm rfl

end Sys2Proof.Machine
end

section
/-! PROOFS. R175, R176: what `barrierOp` does to a fibre that asks for neither an arrival nor a wait. -/

namespace Sys2Proof.Machine

/-- Where it makes no arrival, `barrierOp` does not look at `wait`. -/
theorem barrierOp_wait_unread (id : FibreId) (lvl : BarLevel) (num : Nat) (wait : Bool) (s : State) :
    barrierOp id lvl num false wait s = barrierOp id lvl num false true s := rfl

/-- A fibre that has arrived once at barrier 3 of its block. -/
def arrivedOnce : Fibre :=
  { newFibre State.reset stdLaunch 0 0 0 1 stdDesc stdFit 0 with arrived := [((.block, 3), 1)] }

/-- Phase 1 of barrier 3 of the block, open: a copy that is registered on it has not arrived (R176). -/
def openPhase : Barrier := { Barrier.new .block 0 3 with copies := [(1, 0)] }

/-- The block of that fibre: it declares four barriers of its level (R40). -/
def openBlock : Block :=
  { newBlock State.reset stdLaunch 0 0 0 { stdDesc with sync := 0x80 } stdFit with bars := [openPhase] }

/-- That fibre alone in its block, its arrival waiting for the copy. -/
def openState : State := { State.reset with fibres := [arrivedOnce], blocks := [openBlock], launches := [stdLaunch] }

theorem openState_bar : barOf openState arrivedOnce .block 3 = openPhase := rfl

theorem openState_members : barMembers openState arrivedOnce .block = [arrivedOnce] := rfl

theorem openState_rests : BarrierRests openState arrivedOnce .block 3 := by
  refine ⟨rfl, fun g hg => ?apart, fun g hg => ?here, fun hc => ?next, fun g hg ph hw => ?waits⟩
  case apart =>
    obtain rfl := List.mem_singleton.mp hg
    rfl
  case here =>
    rw [openState_members] at hg
    exact .inl hg
  case next =>
    rw [openState_bar] at hc
    obtain ⟨-, -, hcopies⟩ := hc
    exact hcopies (1, 0) (List.mem_singleton_self _) rfl
  case waits =>
    rw [openState_members] at hg
    obtain rfl := List.mem_singleton.mp hg
    obtain ⟨a, b, hs⟩ := hw
    cases hs

/-- The fibre's wait for its last arrival, that of `barw`, does not end: the copy keeps phase 1 open. -/
theorem barrierOp_openState : (fibre? (barrierOp arrivedOnce.id .block 3 false true openState) arrivedOnce.id).map (·.status) =
    some (.barrier .block 3 1 false true) := rfl

/-- Refutes O17: `barrierOp` does not look at `wait` where it makes no arrival, so that asked for neither it makes a fibre whose
phase is incomplete wait, where the third clause on `barrierOp` says that nothing changes. No instruction asks for neither. -/
theorem not_barriers : ¬ Obligations.Barriers := by
  unfold Obligations.Barriers
  rintro ⟨-, hop, -⟩
  obtain ⟨-, -, hidle, -⟩ := hop openState arrivedOnce .block 3 false false rfl rfl openState_rests
  have hsame : barrierOp arrivedOnce.id .block 3 false false openState = openState := hidle rfl (.inl rfl)
  have hwaits := barrierOp_openState
  rw [← barrierOp_wait_unread _ _ _ false, hsame] at hwaits
  have hready : (fibre? openState arrivedOnce.id).map (·.status) = some .ready := rfl
  rw [hready] at hwaits
  cases hwaits

end Sys2Proof.Machine
end

section
/-! PROOFS. Rules that the statements about fibres and slots share: one fibre changed, and the issue of a word whose effect is
fixed writes, a trap, or an act on its own fibre. -/

namespace Sys2Proof.Machine

/-! ## One fibre changed -/

/-- A change of a resident fibre that keeps its place. -/
theorem became_updFibre {s : State} {f : Fibre} (own : fibre? s f.id = some f) (g : Fibre → Fibre) (hg : ∀ k, (g k).id = k.id) :
    Became s (updFibre s f.id g) f (g f) :=
  ⟨by rw [fibre?_updFibre_self _ _ _ hg, own, Option.map_some], fun _ h => fibre?_updFibre_ne _ _ hg h, rfl⟩

/-- A further change of the same fibre. -/
theorem Became.upd {s u : State} {f k : Fibre} (b : Became s u f k) (g : Fibre → Fibre) (hg : ∀ k, (g k).id = k.id) :
    Became s (updFibre u f.id g) f (g k) := by
  refine ⟨by rw [fibre?_updFibre_self _ _ _ hg, b.self, Option.map_some],
    fun id h => (fibre?_updFibre_ne _ _ hg h).trans (b.others id h), ?_⟩
  have hd := b.device
  unfold SameDevice at hd ⊢
  rw [hd]
  rfl

@[simp] theorem grown_id (n u : Nat) (f : Fibre) : (f.grown n u).id = f.id := by
  unfold Fibre.grown
  rfl
@[simp] theorem shrunk_id (n : Nat) (f : Fibre) : (f.shrunk n).id = f.id := rfl
@[simp] theorem current_id (clock : Nat) (f : Fibre) : (f.current clock).id = f.id := rfl

/-- Without poison a grant changes registers alone (R120). -/
theorem grown_clean {f : Fibre} (h : f.poison = []) (n u : Nat) : f.grown n u = { f with regs := f.regs.grow n u } := by
  simp [Fibre.grown, h]

/-- Without poison a release changes the count of extended registers alone (R122). -/
theorem shrunk_clean {f : Fibre} (h : f.poison = []) (n : Nat) : f.shrunk n = { f with regs := { f.regs with ext := n } } := by
  simp [Fibre.shrunk, h]

/-! ## The issue of one word -/

section
variable {s : State} {f : Fibre} {i : Instr} {h : Hdr} {plan : State → Fibre → Plan}

/-- Fixed writes that raise no flag and no trap. -/
theorem fixed_next {ws : List RegWrite} (q : Quiet s f) (hc : (plan s f).context = false) (ho : (plan s f).operand = false)
    (hal : (plan s f).always = []) (hm : execMask f h (plan s f) ≠ 0)
    (how : (plan s f).own (execMask f h (plan s f)) = .fixed ws 0 none) {n : Nat} (hn : lenOf i = n) :
    issueWord i h plan s = .next (retireFixed f (plan s f).dests ws 0 (f.past n) s) := by
  subst hn
  rw [issueWord_quiet q i h plan ⟨hc, ho, hm⟩, how, putAlways_none _ hal]
  rfl

/-- REGISTER at issue: no walk comes before it (R124). -/
theorem registerTrap_next {sub n : Nat} (q : Quiet s f) (hc : (plan s f).context = false) (ho : (plan s f).operand = false)
    (hal : (plan s f).always = []) (hm : execMask f h (plan s f) ≠ 0)
    (how : (plan s f).own (execMask f h (plan s f)) = .trap (registerTrap i f sub n)) :
    issueWord i h plan s = .next (raiseTrap f.id (registerTrap i f sub n) s) := by
  rw [trap_next q hc ho hal hm how, walkedTo_other f (show (0x06 : BitVec 8) ≠ 0x10 by decide)]

end

end Sys2Proof.Machine
end

section
/-! PROOFS. R119, R167, R183: the special registers. -/

namespace Sys2Proof.Machine

theorem exec_emget (x : OpD) (s : State) : exec (.emget x) s = execEmget x s := rfl
theorem exec_srd (x : OpSrd) (s : State) : exec (.srd x) s = execSrd x s := rfl
theorem exec_swr (x : OpSwr) (s : State) : exec (.swr x) s = execSwr x s := rfl

/-- A register number read as a number is the literal it is compared with. -/
theorem regNum_eq_iff {x : BitVec 7} {n : Nat} (hn : n < 128) : x.toNat = n ↔ x = BitVec.ofNat 7 n := by
  rw [← BitVec.toNat_inj, BitVec.toNat_ofNat, Nat.mod_eq_of_lt hn]

/-! ## What `srd` writes -/

/-- Register 0x00 gives every lane its own number. -/
theorem srdWrites_laneIds (s : State) (f : Fibre) (d : BitVec 7) :
    srdWrites s f 0 d.toNat = vdstPut false false d allOnes fun l => BitVec.ofNat 64 l := by
  have hl : mkV (fun l => BitVec.ofNat 32 l) = mkV fun l => (BitVec.ofNat 64 l).setWidth 32 :=
    mkV_congr _ _ fun l _ => (BitVec.setWidth_ofNat_of_le (by decide) l).symm
  exact congrArg (fun v => [RegWrite.v d.toNat allOnes v]) hl

/-- Register 0x13 is read into a pair of scalars. -/
theorem srdWrites_tinst (s : State) (f : Fibre) (d : Nat) : srdWrites s f 0x13 d =
    [.s d (f.regs.t.tinst.extractLsb' 0 64), .s (d + 1) (f.regs.t.tinst.extractLsb' 64 64)] := rfl

/-- Every other register is read into one scalar. -/
theorem srdWrites_scalar (s : State) (f : Fibre) {num : Nat} (d : Nat) (h0 : num ≠ 0) (h1 : num ≠ 0x13) :
    srdWrites s f num d = [.s d (srdValue s f num)] := by
  rw [srdWrites, if_neg h0, if_neg h1]

/-- `srd` of register 0x00 is refused where its vector destination is. -/
theorem srdPlan_operand_laneIds {x : OpSrd} (s : State) (f : Fibre) (h : x.num = 0) :
    (srdPlan x s f).operand = vdstBad s f false false x.d := if_pos (congrArg BitVec.toNat h)

/-- `srd` of any other register is refused only where 0x13 names an odd scalar. -/
theorem srdPlan_operand_scalar {x : OpSrd} (s : State) (f : Fibre) (h0 : x.num ≠ 0) (h1 : x.num = 0x13 → x.d.toNat % 2 = 0) :
    (srdPlan x s f).operand = false := by
  have hn : x.num.toNat ≠ 0 := fun e => h0 ((regNum_eq_iff (by decide)).mp e)
  show (if x.num.toNat = 0 then _ else (x.num.toNat == 0x13 && x.d.toNat % 2 == 1)) = false
  rw [if_neg hn]
  by_cases h : x.num = 0x13
  · simp [h1 h]
  · have hne : x.num.toNat ≠ 0x13 := fun e => h ((regNum_eq_iff (by decide)).mp e)
    simp [hne]

/-- What `swr` changes, by the number of its field. -/
theorem swrPut_field (num : BitVec 7) (v : BitVec 32) (f : Fibre) : swrPut num.toNat v f =
    if num = 0x18 then { f with regs := { f.regs with xflags := v &&& 0x1F } }
    else if num = 0x19 then { f with regs := { f.regs with xen := v &&& 0x1011F } }
    else if num = 0x20 then { f with escthr := v &&& 0xFFFFFF }
    else f := by
  simp only [swrPut, regNum_eq_iff (show 0x18 < 128 by decide), regNum_eq_iff (show 0x19 < 128 by decide),
    regNum_eq_iff (show 0x20 < 128 by decide)]
  rfl

@[simp] theorem swrPut_id (num : Nat) (v : BitVec 32) (f : Fibre) : (swrPut num v f).id = f.id := by
  unfold swrPut
  repeat' split
  all_goals rfl

/-- Settles O14: `emget` and `srd` are words of fixed writes, of a scalar, of lanes or of a pair of scalars, and `swr` changes its
own fibre at its retirement. -/
theorem specialRegisters : Obligations.SpecialRegisters := by
  unfold Obligations.SpecialRegisters
  refine ⟨fun x s f q hg => ?emget, fun x s f q hg => ⟨fun h0 hd => ?lanes, fun h1 he => ?pair, fun h0 h1 d hd => ?scalar⟩,
    fun x s f q ha hg => ?swr⟩
  case emget =>
    rw [exec_emget, execEmget]
    exact sca_next (plan := emgetPlan x) q rfl rfl rfl hg rfl 8 rfl
  case lanes =>
    rw [exec_srd, execSrd]
    have how := srdWrites_laneIds s f x.d
    rw [← show x.num.toNat = 0 by rw [h0]; rfl] at how
    refine ⟨_, fixed_next q rfl ((srdPlan_operand_laneIds s f h0).trans hd) rfl hg
      (congrArg (Eff.fixed · 0 none) how) (n := 8) rfl, ?_⟩
    have w := wroteLanes q (srdPlan x s f).dests false false x.d allOnes (fun l => BitVec.ofNat 64 l) 0 (f.past 8) hd
    rwa [raise_zero] at w
  case pair =>
    rw [exec_srd, execSrd]
    have ho : (srdPlan x s f).operand = false := srdPlan_operand_scalar s f (by rw [h1]; decide) fun _ => he
    have how := srdWrites_tinst s f x.d.toNat
    rw [← show x.num.toNat = 0x13 by rw [h1]; rfl] at how
    refine ⟨_, fixed_next q rfl ho rfl hg (congrArg (Eff.fixed · 0 none) how) (n := 8) rfl, ?_⟩
    have b := retireFixed_became q (srdPlan x s f).dests
      [.s x.d.toNat (f.regs.t.tinst.extractLsb' 0 64), .s (x.d.toNat + 1) (f.regs.t.tinst.extractLsb' 64 64)] 0 (f.past 8) rfl
      (by simp [sharedReg])
    rwa [raise_zero] at b
  case scalar =>
    rw [exec_srd, execSrd]
    have n0 : x.num.toNat ≠ 0 := fun e => h0 ((regNum_eq_iff (by decide)).mp e)
    have n1 : x.num.toNat ≠ 0x13 := fun e => h1 ((regNum_eq_iff (by decide)).mp e)
    have how : srdWrites s f x.num.toNat x.d.toNat = [.s d.toNat (srdValue s f x.num.toNat)] := by
      rw [srdWrites_scalar s f _ n0 n1, hd]
    exact sca_next q rfl (srdPlan_operand_scalar s f h0 fun e => absurd e h1) rfl hg (congrArg (Eff.fixed · 0 none) how) 8 rfl
  case swr =>
    rw [exec_swr, execSwr]
    intro v
    obtain ⟨t, ht, b⟩ := actUpd_next (i := .swr x) (plan := swrPlan x) (g := swrPut x.num.toNat v) q (swrPut_id _ _) rfl ha rfl
      hg rfl 8 rfl
    exact ⟨t, ht, by rwa [swrPut_field] at b⟩

end Sys2Proof.Machine
end

section
/-! PROOFS. R112, R171: issue passes from one fibre of a slot to another. -/

namespace Sys2Proof.Machine

theorem exec_yield (x : OpH) (s : State) : exec (.yield x) s = execYield x s := rfl
theorem exec_fsw (x : OpFsw) (s : State) : exec (.fsw x) s = execFsw x s := rfl

theorem mem_slotMates {s : State} {id : FibreId} {g : Fibre} : g ∈ slotMates s id ↔
    g ∈ s.fibres ∧ (g.id.core = id.core ∧ g.id.pos / 4 = id.pos / 4) ∧ g.id ≠ id := by
  simp [slotMates]

/-- A fibre of a slot is named by its index in the slot. -/
theorem slotMates_ext {s : State} {id : FibreId} {g k : Fibre} (hg : g ∈ slotMates s id) (hk : k ∈ slotMates s id)
    (h : g.id.pos % 4 = k.id.pos % 4) : g.id = k.id := by
  obtain ⟨-, ⟨hgc, hgs⟩, -⟩ := mem_slotMates.mp hg
  obtain ⟨-, ⟨hkc, hks⟩, -⟩ := mem_slotMates.mp hk
  have hpos : g.id.pos = k.id.pos := by omega
  cases hg' : g.id
  cases hk' : k.id
  simp_all

/-- A resident fibre's place holds a fibre. -/
theorem fibre?_of_mem {s : State} {g : Fibre} (h : g ∈ s.fibres) : ∃ k, fibre? s g.id = some k :=
  Option.isSome_iff_exists.mp (List.find?_isSome.mpr ⟨g, h, by simp⟩)

/-- No fibre is next where none is READY. -/
theorem nextReady_none {gs : List Fibre} (h : ∀ g ∈ gs, g.status ≠ .ready) : nextReady gs = none := by
  have : gs.filter (fun g => g.status == .ready) = [] := by simpa [List.filter_eq_nil_iff] using h
  rw [nextReady, this]
  rfl

/-- The fibre that `fsw` names, if it is READY (R171). -/
def namedMate (s : State) (id : FibreId) (want : Option Nat) : Option Fibre :=
  want.bind fun t => (slotMates s id).find? fun g => g.id.pos % 4 == t && g.status == .ready

/-- A fibre that gives up issue: from CURRENT it goes to READY (R111, R112). -/
def Fibre.yielded (clock : Nat) (f : Fibre) : Fibre :=
  { f with
    isCur := false
    status := if f.status = .current then .ready else f.status
    readySince := if f.status = .current then clock else f.readySince }

@[simp] theorem yielded_id (clock : Nat) (f : Fibre) : (f.yielded clock).id = f.id := rfl

theorem handOver_eq (id : FibreId) (want : Option Nat) (s : State) : handOver id want s =
    match (namedMate s id want).orElse fun _ => nextReady (slotMates s id) with
    | none => s
    | some g => updFibre (updFibre s id (Fibre.yielded s.clock)) g.id (Fibre.current s.clock) := by
  rfl

/-- With no other fibre of the slot READY issue stays (R112). -/
theorem handOver_alone {s : State} {id : FibreId} (want : Option Nat) (h : ∀ g ∈ slotMates s id, g.status ≠ .ready) :
    handOver id want s = s := by
  have hn : namedMate s id want = none := by
    cases want with
    | none => rfl
    | some t => exact List.find?_eq_none.mpr fun g hg => by simp [h g hg]
  rw [handOver_eq, hn, nextReady_none h]
  rfl

/-- A READY fibre that is named is found by its name. -/
theorem namedMate_ready {s : State} {id : FibreId} {g : Fibre} (hg : g ∈ slotMates s id) (hs : g.status = .ready) :
    ∃ k, namedMate s id (some (g.id.pos % 4)) = some k ∧ k.id = g.id := by
  have hsome : (namedMate s id (some (g.id.pos % 4))).isSome := List.find?_isSome.mpr ⟨g, hg, by simp [hs]⟩
  obtain ⟨k, hk⟩ := Option.isSome_iff_exists.mp hsome
  have hp := List.find?_some hk
  simp only [Bool.and_eq_true, beq_iff_eq] at hp
  exact ⟨k, hk, slotMates_ext (List.mem_of_find?_eq_some hk) hg hp.1⟩

/-- A READY fibre that is named becomes CURRENT (R171). -/
theorem handOver_named {s : State} {id : FibreId} {g : Fibre} (hg : g ∈ slotMates s id) (hs : g.status = .ready) :
    (fibre? (handOver id (some (g.id.pos % 4)) s) g.id).map (·.status) = some .current := by
  obtain ⟨k, hk, he⟩ := namedMate_ready hg hs
  obtain ⟨hmem, -, hne⟩ := mem_slotMates.mp hg
  obtain ⟨r, hr⟩ := fibre?_of_mem hmem
  rw [handOver_eq, hk]
  show (fibre? (updFibre _ k.id _) g.id).map _ = _
  rw [he, fibre?_updFibre_self _ _ _ (current_id _), fibre?_updFibre_ne _ _ (yielded_id _) hne, hr]
  rfl

/-- Settles O16: `yield` and `fsw` retire and then hand over, and a hand-over takes the named fibre where it is READY. -/
theorem handOver_obligation : Obligations.HandOver := by
  unfold Obligations.HandOver
  refine ⟨fun x s f q hg => ?yield, fun x s f q hg => ?fsw, fun s id want h => handOver_alone want h,
    fun s id t g hg ht hs => ht ▸ handOver_named hg hs⟩
  case yield =>
    rw [exec_yield, execYield]
    exact act_next (plan := yieldPlan none) q rfl rfl rfl hg rfl 8 rfl
  case fsw =>
    rw [exec_fsw, execFsw]
    exact act_next (plan := yieldPlan (some x.t.toNat)) q rfl rfl rfl hg rfl 8 rfl

end Sys2Proof.Machine
end

section
/-! PROOFS. R120 to R124: requests for extended registers, and their release. -/

namespace Sys2Proof.Machine

theorem exec_regacq (x : OpRegacq) (s : State) : exec (.regacq x) s = execRegacq x s := rfl
theorem exec_regrel (x : OpH) (s : State) : exec (.regrel x) s = execRegrel x s := rfl

/-- The registers that a `regacq` asks for (R120). -/
def regacqCount (x : OpRegacq) : Nat := 16 * x.n.toNat
/-- The predicate that a `regacq` sets: none unless it is non-blocking (R120). -/
def regacqPred (x : OpRegacq) : Nat := if x.nb then x.d.toNat else 0
/-- The registers that a fibre's descriptor lets it hold (R120). -/
def extLimit (s : State) (f : Fibre) : Nat := 16 * wfield (descOf s f).storage 6 4
/-- Where the registers of a request are taken now: not past a request that waits (R121). -/
def roomFor (s : State) (f : Fibre) (n : Nat) : Option Nat :=
  if pendingAcquires s f.id.core (f.id.pos / 16) != [] then none else grantUnits s f n

theorem roomFor_some {s : State} {f : Fibre} {n u : Nat} (h : pendingAcquires s f.id.core (f.id.pos / 16) = [])
    (hu : grantUnits s f n = some u) : roomFor s f n = some u := by
  rw [roomFor, h, hu]
  rfl

theorem roomFor_none {s : State} {f : Fibre} {n : Nat}
    (h : pendingAcquires s f.id.core (f.id.pos / 16) ≠ [] ∨ grantUnits s f n = none) : roomFor s f n = none := by
  rcases h with h | h <;> simp [roomFor, h]

/-- A fibre that has begun to wait for a request (R121). -/
def Fibre.requests (a : Acquire) (f : Fibre) : Fibre := { f with acquire := some a, status := .acquire, isCur := false }

@[simp] theorem requests_id (a : Acquire) (f : Fibre) : (f.requests a).id = f.id := rfl

/-! ## The effect of a request, case by case -/

section
variable {i : Instr} {x : OpRegacq} {s : State} {f : Fibre} {m : BitVec 32}

/-- A request beyond the descriptor's limit takes REGISTER (R124). -/
theorem regacqPlan_beyond (h : extLimit s f < regacqCount x) :
    (regacqPlan i x s f).own m = .trap (registerTrap i f 2 (regacqCount x)) := if_pos h

/-- A request for what the fibre holds succeeds (R120). -/
theorem regacqPlan_same (h : regacqCount x ≤ extLimit s f) (he : regacqCount x = f.regs.ext) :
    (regacqPlan i x s f).own m = .act (putPred f (regacqPred x) allOnes) :=
  (if_neg (Nat.not_lt.mpr h)).trans (if_pos he)

/-- A request for less acts as a release (R122). -/
theorem regacqPlan_less (h : regacqCount x ≤ extLimit s f) (hl : regacqCount x < f.regs.ext) : (regacqPlan i x s f).own m =
    if shrinkHitsWindow f (regacqCount x) then .trap (registerTrap i f 3 (regacqCount x))
    else .act fun s => putPred f (regacqPred x) allOnes (shrinkTo f (regacqCount x) s) :=
  (if_neg (Nat.not_lt.mpr h)).trans ((if_neg (Nat.ne_of_lt hl)).trans (if_pos hl))

/-- A request for more than can stand behind the fibre's first unit takes REGISTER (R124). -/
theorem regacqPlan_unfit (h : regacqCount x ≤ extLimit s f) (hm : f.regs.ext < regacqCount x)
    (hf : 0 < f.regs.ext ∧ 16 < f.regs.unit0 + regacqCount x / 16) :
    (regacqPlan i x s f).own m = .trap (registerTrap i f 5 (regacqCount x)) :=
  (if_neg (Nat.not_lt.mpr h)).trans ((if_neg (Nat.ne_of_gt hm)).trans ((if_neg (Nat.lt_asymm hm)).trans (if_pos hf)))

/-- A request for more that can stand takes its room, or does not find it (R120, R121). -/
theorem regacqPlan_more (h : regacqCount x ≤ extLimit s f) (hm : f.regs.ext < regacqCount x)
    (hf : 0 < f.regs.ext → f.regs.unit0 + regacqCount x / 16 ≤ 16) : (regacqPlan i x s f).own m =
    match roomFor s f (regacqCount x) with
    | some u => .act fun s => putPred f (regacqPred x) allOnes (updFibre s f.id (Fibre.grown (regacqCount x) u))
    | none =>
      if x.nb && !isOrdered s f.launch then .act (putPred f (regacqPred x) 0)
      else .wait (updFibre s f.id (Fibre.requests ⟨regacqCount x, s.clock, 0, regacqPred x, wordOf i⟩)) := by
  refine (if_neg (Nat.not_lt.mpr h)).trans ((if_neg (Nat.ne_of_gt hm)).trans ((if_neg (Nat.lt_asymm hm)).trans
    ((if_neg fun hc => ?_).trans ?_)))
  · exact absurd (hf hc.1) (Nat.not_le.mpr hc.2)
  · rfl

/-- A request that finds room is granted (R120). -/
theorem regacqPlan_granted {u : Nat} (h : regacqCount x ≤ extLimit s f) (hm : f.regs.ext < regacqCount x)
    (hf : 0 < f.regs.ext → f.regs.unit0 + regacqCount x / 16 ≤ 16) (hr : roomFor s f (regacqCount x) = some u) :
    (regacqPlan i x s f).own m =
      .act fun s => putPred f (regacqPred x) allOnes (updFibre s f.id (Fibre.grown (regacqCount x) u)) := by
  rw [regacqPlan_more h hm hf, hr]

/-- A non-blocking request that finds none is refused (R120). -/
theorem regacqPlan_refused (h : regacqCount x ≤ extLimit s f) (hm : f.regs.ext < regacqCount x)
    (hf : 0 < f.regs.ext → f.regs.unit0 + regacqCount x / 16 ≤ 16) (hr : roomFor s f (regacqCount x) = none)
    (hb : x.nb = true) (ho : isOrdered s f.launch = false) :
    (regacqPlan i x s f).own m = .act (putPred f (regacqPred x) 0) := by
  rw [regacqPlan_more h hm hf, hr, hb, ho]
  rfl

/-- A blocking request that finds none waits in ACQUIRE (R121). -/
theorem regacqPlan_waits (h : regacqCount x ≤ extLimit s f) (hm : f.regs.ext < regacqCount x)
    (hf : 0 < f.regs.ext → f.regs.unit0 + regacqCount x / 16 ≤ 16) (hr : roomFor s f (regacqCount x) = none)
    (hb : x.nb = false) : (regacqPlan i x s f).own m =
      .wait (updFibre s f.id (Fibre.requests ⟨regacqCount x, s.clock, 0, regacqPred x, wordOf i⟩)) := by
  rw [regacqPlan_more h hm hf, hr]
  exact if_neg (by simp [hb])

end

/-! ## Its completion -/

section
variable {x : OpRegacq} {s : State} {f : Fibre}

/-- A `regacq` that traps. -/
theorem regacq_traps {sub : Nat} (q : Quiet s f) (hg : guardMask f x.h ≠ 0)
    (how : (regacqPlan (.regacq x) x s f).own (guardMask f x.h) = .trap (registerTrap (.regacq x) f sub (regacqCount x))) :
    exec (.regacq x) s = .next (raiseTrap f.id (registerTrap (.regacq x) f sub (regacqCount x)) s) := by
  rw [exec_regacq, execRegacq]
  exact registerTrap_next (plan := regacqPlan (.regacq x) x) q rfl rfl rfl hg how

/-- A `regacq` that retires and acts. -/
theorem regacq_acts {g : State → State} (q : Quiet s f) (hg : guardMask f x.h ≠ 0)
    (how : (regacqPlan (.regacq x) x s f).own (guardMask f x.h) = .act g) :
    ∃ u, Became s u f (f.retire (f.past 8)) ∧ exec (.regacq x) s = .next (g u) := by
  rw [exec_regacq, execRegacq]
  exact act_next (plan := regacqPlan (.regacq x) x) q rfl rfl rfl hg how 8 rfl

/-- The predicate of a `regacq` is written with nothing else where no register is poisoned. -/
theorem Became.putPred {u : State} {k : Fibre} {d : Nat} {v : BitVec 32} (b : Became s u f k) (hp : k.poison = []) :
    Became s (Machine.putPred f d v u) f { k with regs := k.regs.put (.p d allOnes v) } := by
  have b' := b.upd (fun k => k.write (.p d allOnes v)) fun k => write_id k _
  rwa [write_clean _ _ hp] at b'

/-- A `regacq` that only writes its predicate. -/
theorem regacq_tells {v : BitVec 32} (q : Quiet s f) (hg : guardMask f x.h ≠ 0)
    (how : (regacqPlan (.regacq x) x s f).own (guardMask f x.h) = .act (putPred f (regacqPred x) v)) :
    ∃ t, exec (.regacq x) s = .next t ∧
      Became s t f { f.retire (f.past 8) with regs := (f.retire (f.past 8)).regs.put (.p (regacqPred x) allOnes v) } := by
  obtain ⟨u, hu, he⟩ := regacq_acts q hg how
  exact ⟨_, he, hu.putPred q.poison⟩

/-- A grant. -/
theorem regacq_grows {n u : Nat} (q : Quiet s f) (hg : guardMask f x.h ≠ 0)
    (how : (regacqPlan (.regacq x) x s f).own (guardMask f x.h) =
      .act fun s => putPred f (regacqPred x) allOnes (updFibre s f.id (Fibre.grown n u))) :
    ∃ t, exec (.regacq x) s = .next t ∧
      Became s t f { f.retire (f.past 8) with
        regs := ((f.retire (f.past 8)).regs.grow n u).put (.p (regacqPred x) allOnes allOnes) } := by
  obtain ⟨v, hv, he⟩ := regacq_acts q hg how
  have b := hv.upd (Fibre.grown n u) (grown_id n u)
  rw [grown_clean (f := f.retire (f.past 8)) q.poison] at b
  exact ⟨_, he, b.putPred q.poison⟩

/-- A release: the fibre is cut, and then its units are granted again (R122). -/
theorem shrinkTo_became {u : State} (q : Quiet s f) (hu : Became s u f (f.retire (f.past 8))) (n : Nat) :
    ∃ v, Became s v f { f.retire (f.past 8) with regs := { (f.retire (f.past 8)).regs with ext := n } } ∧
      shrinkTo f n u = regrant f.id v := by
  have b := hu.upd (Fibre.shrunk n) (shrunk_id n)
  rw [shrunk_clean (f := f.retire (f.past 8)) q.poison] at b
  exact ⟨_, b, rfl⟩

end

/-! ## `regrel` -/

section
variable {i : Instr} {s : State} {f : Fibre} {m : BitVec 32}

theorem regrelPlan_nothing (h : f.regs.ext = 0) : (regrelPlan i s f).own m = .fixed [] 0 none := if_pos h

theorem regrelPlan_holds (h : f.regs.ext ≠ 0) : (regrelPlan i s f).own m =
    if shrinkHitsWindow f 0 then .trap (registerTrap i f 3 0) else .act (shrinkTo f 0) := if_neg h

end

/-- A register past those that a fibre holds is absent (R118). -/
theorem present_past {f : Fibre} {n : Nat} (h : f.regs.ext ≤ n) : f.present (32 + n) = false :=
  decide_eq_false (by omega)

/-- Settles O19: a request takes REGISTER, writes its predicate, grows or cuts the fibre, or waits in ACQUIRE, as its plan's effect
says; `regrel` is a request for nothing without a predicate. -/
theorem registerBlocks : Obligations.RegisterBlocks := by
  unfold Obligations.RegisterBlocks
  refine ⟨fun x s f q hg => ?request, fun x s f q hg => ⟨fun h0 => ?nothing, fun h0 hw => ?hits, fun h0 hw => ?releases⟩,
    fun f n h => present_past h⟩
  case request =>
    intro n d max older told done
    refine ⟨fun h => regacq_traps q hg (regacqPlan_beyond h), fun h he => regacq_tells q hg (regacqPlan_same h he),
      fun h hl hw => regacq_traps q hg ((regacqPlan_less h hl).trans (if_pos hw)), fun h hl hw => ?cut,
      fun h hm h0 hf => regacq_traps q hg (regacqPlan_unfit h hm ⟨h0, hf⟩),
      fun h hm hf u ho hu => regacq_grows q hg (regacqPlan_granted h hm hf (roomFor_some ho hu)),
      fun h hm hf hr => ⟨fun hb ho => regacq_tells q hg (regacqPlan_refused h hm hf (roomFor_none hr) hb ho), fun hb => ?waits⟩⟩
    case cut =>
      obtain ⟨u, hu, he⟩ := regacq_acts q hg ((regacqPlan_less h hl).trans (if_neg (ne_true_of_eq_false hw)))
      obtain ⟨v, hv, hs⟩ := shrinkTo_became q hu n
      exact ⟨v, hv, he.trans (congrArg (fun t => Host.Outcome.next (putPred f d allOnes t)) hs)⟩
    case waits =>
      refine ⟨_, ?_, became_updFibre q.own (Fibre.requests ⟨n, s.clock, 0, d, wordOf (.regacq x)⟩) (requests_id _)⟩
      rw [exec_regacq, execRegacq]
      exact wait_next (plan := regacqPlan (.regacq x) x) q rfl rfl rfl hg (regacqPlan_waits h hm hf (roomFor_none hr) hb)
  case nothing =>
    rw [exec_regrel, execRegrel]
    exact plain_next (plan := regrelPlan (.regrel x)) q rfl rfl rfl hg (regrelPlan_nothing h0) 8 rfl
  case hits =>
    rw [exec_regrel, execRegrel]
    exact registerTrap_next (plan := regrelPlan (.regrel x)) q rfl rfl rfl hg ((regrelPlan_holds h0).trans (if_pos hw))
  case releases =>
    rw [exec_regrel, execRegrel]
    obtain ⟨u, hu, he⟩ := act_next (i := .regrel x) (plan := regrelPlan (.regrel x)) q rfl rfl rfl hg
      ((regrelPlan_holds h0).trans (if_neg (ne_true_of_eq_false hw))) 8 rfl
    obtain ⟨v, hv, hs⟩ := shrinkTo_became q hu 0
    exact ⟨v, hv, he.trans (congrArg Host.Outcome.next hs)⟩

end Sys2Proof.Machine
end

section
/-! PROOFS. R126 to R128: windows, and writes of one shared register in one cycle. -/

namespace Sys2Proof.Machine

theorem exec_win (x : OpWin) (s : State) : exec (.win x) s = execWin x s := rfl

/-- Every two-operand word of 8 bytes is issued with the plan of its group. -/
theorem exec_twoOperand8 (x : OpV8) (s : State) :
    ∀ p ∈ twoOperand8, exec (p.1 x) s = issueWord (p.1 x) x.h (bin8Plan p.2 x) s ∧ lenOf (p.1 x) = 8 := by
  simp only [twoOperand8, List.forall_mem_cons]
  exact ⟨⟨rfl, rfl⟩, ⟨rfl, rfl⟩, ⟨rfl, rfl⟩, ⟨rfl, rfl⟩, ⟨rfl, rfl⟩, ⟨rfl, rfl⟩, ⟨rfl, rfl⟩, ⟨rfl, rfl⟩, ⟨rfl, rfl⟩, ⟨rfl, rfl⟩,
    ⟨rfl, rfl⟩, ⟨rfl, rfl⟩, List.forall_mem_nil _⟩

/-! ## Writes made earlier in the cycle -/

/-- A state in whose present cycle the writes `c` of shared registers have been made. -/
def State.after (s : State) (c : List (FibreId × Nat × Nat × BitVec 32)) : State := { s with sameCycle := c }

/-- The lanes of a shared register that a fibre of a lower slot-fibre index has written in this cycle (R128). -/
def lowerLanes (c : List (FibreId × Nat × Nat × BitVec 32)) (f : Fibre) (owner : FibreId) (n : Nat) : BitVec 32 :=
  (c.filter fun e => e.1 == owner && e.2.1 == n && decide (e.2.2.1 < f.id.pos % 4)).foldl (fun m e => m ||| e.2.2.2) 0

/-- A lane of a union of masks. -/
theorem getLsbD_foldl_or (c : List (FibreId × Nat × Nat × BitVec 32)) (m : BitVec 32) (l : Nat) :
    (c.foldl (fun m e => m ||| e.2.2.2) m).getLsbD l = true ↔ m.getLsbD l = true ∨ ∃ e ∈ c, e.2.2.2.getLsbD l = true := by
  induction c generalizing m with
  | nil => simp
  | cons e r ih => simp [ih, or_assoc]

theorem getLsbD_lowerLanes {c : List (FibreId × Nat × Nat × BitVec 32)} {f : Fibre} {owner : FibreId} {n l : Nat} :
    (lowerLanes c f owner n).getLsbD l = false ↔
      ∀ e ∈ c, e.1 = owner → e.2.1 = n → e.2.2.1 < f.id.pos % 4 → e.2.2.2.getLsbD l = false := by
  have h0 : (0 : BitVec 32).getLsbD l = false := BitVec.getLsbD_zero
  rw [← Bool.not_eq_true, lowerLanes, getLsbD_foldl_or, h0]
  simp only [List.mem_filter, Bool.and_eq_true, beq_iff_eq, decide_eq_true_eq, Bool.false_eq_true, false_or, not_exists, not_and,
    and_imp, Bool.not_eq_true]

/-- The lanes of a mask that no such write has made. -/
theorem getLsbD_standing {mask m : BitVec 32} {l : Nat} (hl : l < 32) :
    (mask &&& ~~~m).getLsbD l = true ↔ mask.getLsbD l = true ∧ m.getLsbD l = false := by
  simp [hl]

section
variable {s : State} {f : Fibre} {c : List (FibreId × Nat × Nat × BitVec 32)}

/-- A shared register is the one that the destination names. -/
theorem destOf_of_shared {wd : Bool} {d : Nat} {m : BitVec 32} {v : VReg} {owner : FibreId} {n : Nat}
    (h : sharedReg s f (if wd then .w d m v else .v d m v) = some (owner, n)) : destOf s f wd d = some (owner, n) := by
  cases wd with
  | true => exact h
  | false =>
    simp only [sharedReg, Bool.false_eq_true, if_false] at h
    split at h
    · split at h
      · exact h
      · cases h
    · cases h

/-- Of a write of a shared register the lanes stand that no lower fibre has written in this cycle (R128). -/
theorem standing_shared {wd : Bool} {d : BitVec 7} {owner : FibreId} {n : Nat} (mask : BitVec 32) (x : Nat → BitVec 64)
    (h : sharedReg s f (if wd then .w d.toNat allOnes zeroV else .v d.toNat allOnes zeroV) = some (owner, n)) :
    standing (s.after c) f (vdstPut false wd d mask x) = vdstPut false wd d (mask &&& ~~~ lowerLanes c f owner n) x := by
  by_cases hc : c = []
  · subst hc
    have hm : mask &&& ~~~(0 : BitVec 32) = mask := BitVec.and_allOnes
    exact (if_pos rfl).trans (congrArg (vdstPut false wd d · x) hm.symm)
  · refine (if_neg hc).trans ?_
    cases wd with
    | true =>
      have h' : sharedReg (s.after c) f (.w d.toNat mask (mkV fun l => (x l).setWidth 32)) = some (owner, n) := h
      simp only [vdstPut, if_true, Bool.false_eq_true, if_false, List.map_cons, List.map_nil, h']
      rfl
    | false =>
      have h' : sharedReg (s.after c) f (.v d.toNat mask (mkV fun l => (x l).setWidth 32)) = some (owner, n) := h
      simp only [vdstPut, Bool.false_eq_true, if_false, List.map_cons, List.map_nil, h']
      rfl

/-- Window writes do not look at the notes of the cycle. -/
theorem putWindows_after (ws : List RegWrite) : putWindows (s.after c) f ws = (putWindows s f ws).after c := by
  unfold putWindows
  rw [show windowWrites (s.after c) f ws = windowWrites s f ws from rfl]
  generalize windowWrites s f ws = xs
  induction xs generalizing s with
  | nil => rfl
  | cons x r ih => exact ih (s := updFibre s x.1 (Fibre.partnerWrite x.2))

/-- Fixed writes leave the fibres that the writes that stand leave. -/
theorem retireFixed_after_fibres (q : Quiet s f) (dests : List RegId) (ws : List RegWrite) (fl : BitVec 32) (pc : Word) :
    (retireFixed f dests ws fl pc (s.after c)).fibres = (retireFixed f dests (standing (s.after c) f ws) fl pc s).fibres := by
  have hn : ∀ (k : List (FibreId × Nat × Nat × BitVec 32)) (g : Fibre → Fibre) (t : State),
      (updFibre (t.after k) f.id g).fibres = (updFibre t f.id g).fibres := fun _ _ _ => rfl
  unfold retireFixed
  simp only [q.stands, heldMode_putWindows]
  have e : ∀ (t : State) (ws : List RegWrite), noteShared f ws t = t.after (noteShared f ws t).sameCycle := fun _ _ => rfl
  rw [e (s.after c), e s, show (s.after c).after = s.after from rfl, putWindows_after, putWindows_after, hn, hn]
  rfl

/-- A quiet fibre issues whatever writes of shared registers have been made in its cycle. -/
theorem issueWord_after (q : Quiet s f) (i : Instr) (h : Hdr) (plan : State → Fibre → Plan)
    (p : Passes f (plan (s.after c) f) h) : issueWord i h plan (s.after c) =
      .next (carry i f (plan (s.after c) f) (putAlways f (plan (s.after c) f) (s.after c))
        ((plan (s.after c) f).own (execMask f h (plan (s.after c) f)))) := by
  have hsel : fibre? (s.after c) (s.after c).cur = some f := q.sel
  have hcan : cannotIssue (s.after c) f = false := q.can
  have hlad : ∀ P, ladderHolds (s.after c) f P = false := q.ladderLets
  have hqua : quantumDue (s.after c) f = false := q.noQuantum
  have hsha : sharedPending (s.after c) f = false := q.shared
  have hwin : ∀ P, windowWaits (s.after c) f P = false := q.windows
  have hpoi : ∀ rs, readsPoison (s.after c) f rs = false := q.reads
  have hgo : ∀ P, mustWait (s.after c) f P = false := q.goes
  have hroom : ∀ rs, undoFull (s.after c) f rs = false := q.room
  have hact : ¬ execMask f h (plan (s.after c) f) = 0#32 := p.active
  unfold issueWord
  rw [hsel]
  simp [issueFor, issueChecked, hcan, hlad, q.flags, hqua, q.pend, hsha, hwin, q.hazard, hpoi, q.paid, hgo, hroom, p.context,
    p.operand, hact]

/-- A per-lane result of 32 bits in such a cycle: its destination takes the lanes that stand (R128). -/
theorem lanes_after {i : Instr} {h : Hdr} {plan : State → Fibre → Plan} {wd : Bool} {d : BitVec 7} {res : Nat → BitVec 64}
    {owner : FibreId} {n : Nat} (q : Quiet s f) (hu : (plan (s.after c) f).uniform = false)
    (hc : (plan (s.after c) f).context = false) (ho : (plan (s.after c) f).operand = false)
    (hal : (plan (s.after c) f).always = []) (how : ∀ m, (plan (s.after c) f).own m = .fixed (vdstPut false wd d m res) 0 none)
    (hd : vdstBad s f false wd d = false) (ha : activeMask f h ≠ 0) (hn : n < 128)
    (hs : sharedReg s f (if wd then .w d.toNat allOnes zeroV else .v d.toNat allOnes zeroV) = some (owner, n)) :
    ∃ t, issueWord i h plan (s.after c) = .next t ∧ ∀ l < 32, lane (vregAt t owner n) l =
      if (activeMask f h &&& ~~~ lowerLanes c f owner n).getLsbD l then (res l).setWidth 32 else lane (vregAt s owner n) l := by
  have hm : execMask f h (plan (s.after c) f) = activeMask f h := by simp [execMask, hu]
  refine ⟨_, issueWord_after q i h plan ⟨hc, ho, by rwa [hm]⟩, fun l hl => ?_⟩
  rw [hm, how, putAlways_none _ hal]
  have hf := retireFixed_after_fibres (c := c) q (plan (s.after c) f).dests (vdstPut false wd d (activeMask f h) res) 0 (nextPc i f)
  rw [standing_shared _ _ hs] at hf
  have hw := wroteLanes q (plan (s.after c) f).dests false wd d (activeMask f h &&& ~~~ lowerLanes c f owner n) res 0 (nextPc i f) hd
  rw [← hw.value owner n l (destOf_of_shared hs) hn hl]
  unfold vregAt fibre?
  rw [← hf]
  rfl

/-- A two-operand word of no more than 32 bits reads and writes single registers (R54). -/
theorem bin8Plan_narrow (o : BinOp) {x : OpV8} (s : State) (f : Fibre) (hw : IntTy.wide x.ty = false) :
    bin8Plan o x s f = lanePlan s f false x.wd x.d [x.a, x.b] fun l =>
      binOp o x.ty x.sat (readLane s f false x.a l) (readLane s f false x.b l) := by
  unfold bin8Plan
  rw [hw]

end

/-! ## `win` -/

/-- The registers that a `win` names are present, its partner is another index of its slot, and that index has a fibre of its
group (R126). -/
theorem winPlan_operand {i : Instr} {x : OpWin} {s : State} {f g : Fibre} (hr : ∀ j < x.len.toNat, x.base.toNat + j < 32 + f.regs.ext)
    (ht : x.partner.toNat ≠ f.id.pos % 4) (hg : groupMate s f x.partner.toNat = some g) : (winPlan i x s f).operand = false := by
  have hp : ((List.range x.len.toNat).any fun j => !f.present (x.base.toNat + j)) = false := by
    simpa [Fibre.present] using hr
  have ht' : (x.partner.toNat == f.id.pos % 4) = false := by simpa using ht
  show (_ || _ || (groupMate s f x.partner.toNat).isNone) = false
  rw [hp, ht', hg]
  rfl

/-- The partner has a window in already, from another fibre (R126). -/
def windowTaken (s : State) (f g : Fibre) : Bool :=
  match windowIn s g with
  | some (a, _, _) => a.id != f.id
  | none => false

theorem windowTaken_iff {s : State} {f g : Fibre} :
    windowTaken s f g = true ↔ ∃ a b n, windowIn s g = some (a, b, n) ∧ a.id ≠ f.id := by
  unfold windowTaken
  cases h : windowIn s g with
  | none => simp
  | some w =>
    obtain ⟨a, b, n⟩ := w
    simp

/-- A fibre with the outgoing window that a `win` declares (R126). -/
def Fibre.declares (x : OpWin) (f : Fibre) : Fibre :=
  { f with winWait := false, window := if x.len = 0 then none else some (x.base.toNat, x.len.toNat, x.partner.toNat) }

@[simp] theorem declares_id (x : OpWin) (f : Fibre) : (f.declares x).id = f.id := rfl

/-- The effect of a `win` that need not wait: the order of R126. -/
theorem winPlan_own {i : Instr} {x : OpWin} {s : State} {f g : Fibre} {m : BitVec 32} (hp : f.pend = [])
    (hw : partnerWrites s f = false) (hg : groupMate s f x.partner.toNat = some g) : (winPlan i x s f).own m =
    if wfield (descOf s f).storage 12 7 < x.len.toNat then .trap (registerTrap i f 2 x.len.toNat)
    else if isOrdered s f.launch then .trap (registerTrap i f 4 x.len.toNat)
    else if windowTaken s f g then .trap (registerTrap i f 3 x.len.toNat)
    else .act fun s => updFibre s f.id (Fibre.declares x) := by
  have h0 : (x.len.toNat = 0) = (x.len = 0) := by rw [← BitVec.toNat_inj]; rfl
  simp only [winPlan, Plan.uni, hp, hw, hg, bne_self_eq_false, Bool.or_false, Bool.false_eq_true, if_false, h0]
  rfl

/-- Settles O20: of a write of a shared register the lanes stand that no lower fibre has written in the cycle, and `win` has the
effect of its plan, in the order of R126. -/
theorem windows : Obligations.Windows := by
  unfold Obligations.Windows
  refine ⟨fun p hp x s f c owner n q hw ha hb hd hm hn hs => ?cycle, fun x s f q hg hw hr ht g hmate => ?win⟩
  case cycle =>
    have hplan : bin8Plan p.2 x (s.after c) f = lanePlan s f false x.wd x.d [x.a, x.b] fun l =>
      binOp p.2 x.ty x.sat (readLane s f false x.a l) (readLane s f false x.b l) := bin8Plan_narrow p.2 (s.after c) f hw
    have hop : (bin8Plan p.2 x (s.after c) f).operand = false := by
      rw [hplan]
      simp [lanePlan, ha, hb, hd]
    obtain ⟨t, ht, hv⟩ := lanes_after (i := p.1 x) (plan := bin8Plan p.2 x) q (by rw [hplan]; rfl) (by rw [hplan]; rfl) hop
      (by rw [hplan]; rfl) (fun m => by rw [hplan]; rfl) hd hm hn hs
    obtain ⟨he, -⟩ := exec_twoOperand8 x (s.after c) p hp
    refine ⟨t, he.trans ht, fun l hl => (hv l hl).trans (ite_congr (propext ?_) (fun _ => rfl) fun _ => rfl)⟩
    rw [getLsbD_standing hl, getLsbD_lowerLanes]
  case win =>
    intro max taken
    have hop := winPlan_operand (i := .win x) hr ht hmate
    have how := winPlan_own (i := .win x) (m := guardMask f x.h) q.pend hw hmate
    have traps : ∀ sub, (winPlan (.win x) x s f).own (guardMask f x.h) = .trap (registerTrap (.win x) f sub x.len.toNat) →
        exec (.win x) s = .next (raiseTrap f.id (registerTrap (.win x) f sub x.len.toNat) s) := fun sub h => by
      rw [exec_win, execWin]
      exact registerTrap_next (plan := winPlan (.win x) x) q rfl hop rfl hg h
    refine ⟨fun h => traps 2 ?long, fun h ho => traps 4 ?ordered, fun h ho hk => traps 3 ?taken, fun h ho hk => ?declares⟩
    case long => rw [how, if_pos h]
    case ordered => rw [how, if_neg (Nat.not_lt.mpr h), if_pos ho]
    case taken =>
      rw [how, if_neg (Nat.not_lt.mpr h), if_neg (ne_true_of_eq_false ho), if_pos (windowTaken_iff.mpr hk)]
    case declares =>
      rw [if_neg (Nat.not_lt.mpr h), if_neg (ne_true_of_eq_false ho), if_neg fun e => hk (windowTaken_iff.mp e)] at how
      rw [exec_win, execWin]
      exact actUpd_next (i := .win x) (plan := winPlan (.win x) x) q (declares_id x) rfl hop rfl hg how 12 rfl

end Sys2Proof.Machine
end

section
/-! PROOFS. R118, R130, R147, R148, R150, R157: what stands before the effect of an integer word. -/

namespace Sys2Proof.Machine

section
variable {s : State} {f : Fibre}

/-! ## A fibre that results outstanding alone may hold back -/

theorem Free.id (q : Free s f) : f.id = s.cur := fibre?_id q.sel
theorem Free.own (q : Free s f) : fibre? s f.id = some f := q.id ▸ q.sel

/-- Nothing keeps the fibre from issuing. -/
theorem Free.can (q : Free s f) : cannotIssue s f = false := by
  simp [cannotIssue, q.status, q.trap, q.conflict, q.faults, q.going]

/-- The ladder lets it go. -/
theorem Free.ladderLets (q : Free s f) (P : Plan) : ladderHolds s f P = false := by
  simp [ladderHolds, ladderDue, levelAt, threshold, q.ladder, q.rolled, q.level3]

/-- No window is in the way. -/
theorem Free.windows (q : Free s f) (P : Plan) : windowWaits s f P = false := by
  unfold windowWaits
  cases h : windowIn s f with
  | none => simp
  | some w =>
    obtain ⟨a, b, n⟩ := w
    simp [q.window a b n h]

/-- A fibre that runs in no quantum either parks, or comes to the checks of R157 (R148). -/
theorem Unheld.issueFor_eq (q : Unheld s f) (i : Instr) (h : Hdr) (P : Plan) (ha : awaitsFlags f = false) : issueFor i h f P s =
    if h.h && (f.pend != [] || sharedPending s f) then updFibre s f.id fun g => { g with status := .parked }
    else issueChecked i h f P s := by
  simp [issueFor, q.can, q.ladderLets, ha, q.owed, quantumDue, q.plain]

/-- A word with H set waits, PARKED, for what is outstanding (R148). -/
theorem issueWord_parks (q : Unheld s f) (i : Instr) (h : Hdr) (plan : State → Fibre → Plan) (ha : awaitsFlags f = false)
    (hp : f.pend ≠ []) (hh : h.h = true) :
    issueWord i h plan s = .next (updFibre s f.id fun g => { g with status := .parked }) := by
  unfold issueWord
  rw [q.sel]
  refine congrArg Host.Outcome.next ((q.issueFor_eq i h _ ha).trans (if_pos ?_))
  simp [hh, hp]

/-- A word without H goes on to its checks whatever is outstanding. -/
theorem issueWord_checked (q : Unheld s f) (i : Instr) (h : Hdr) (plan : State → Fibre → Plan) (ha : awaitsFlags f = false)
    (hh : h.h = false) : issueWord i h plan s = .next (issueChecked i h f (plan s f) s) := by
  unfold issueWord
  rw [q.sel]
  refine congrArg Host.Outcome.next ((q.issueFor_eq i h _ ha).trans (if_neg ?_))
  simp [hh]

/-- A word that names a pending register takes HAZARD (R150). -/
theorem issueChecked_hazard (q : Free s f) {i : Instr} {h : Hdr} {P : Plan} (hc : P.context = false) (ho : P.operand = false)
    (hz : hazard f (P.names h) = true) : issueChecked i h f P s = raiseTrap f.id (hazardTrap i f) s := by
  simp [issueChecked, hc, ho, hz, q.windows]

/-- A fibre with a trap that waits for entry (R376, R450). -/
def Fibre.holdsTrap (t : Trap) (f : Fibre) : Fibre := { f with waitTrap := some t, follow := none, winWait := false }

@[simp] theorem holdsTrap_id (t : Trap) (f : Fibre) : (f.holdsTrap t).id = f.id := rfl

/-- A trap waits where a result is outstanding (R399). -/
theorem raiseTrap_waits (own : fibre? s f.id = some f) (hw : f.waitTrap = none) (hp : f.pend ≠ []) (t : Trap) :
    raiseTrap f.id t s = updFibre s f.id (Fibre.holdsTrap t) := by
  have hc : canEnter s f = false := by simp [canEnter, hp]
  unfold raiseTrap
  rw [own]
  simp only [hw, hc]
  rfl

theorem pend_of_pending {r : RegId} (h : r ∈ f.pending) : f.pend ≠ [] := fun e => by
  rw [Fibre.pending, e] at h
  cases h

/-- A pending register that a word names is a hazard. -/
theorem hazard_of_pending {rs : List RegId} {r : RegId} (h : r ∈ f.pending) (hr : r ∈ rs) : hazard f rs = true :=
  List.any_eq_true.mpr ⟨r, hr, List.contains_iff_mem.mpr h⟩

/-! ## The plan of a two-operand word -/

/-- A two-operand word is refused where an operand or its destination is. -/
theorem bin8Plan_operand (o : BinOp) (x : OpV8) (s : State) (f : Fibre) : (bin8Plan o x s f).operand =
    (vecBad s f (IntTy.wide x.ty) x.a || (vecBad s f (IntTy.wide x.ty) x.b || false) ||
      vdstBad s f (IntTy.wide x.ty) x.wd x.d) := rfl

/-- The registers that it names (R150). -/
theorem mem_bin8Plan_names {o : BinOp} {x : OpV8} {s : State} {f : Fibre} {r : RegId} : r ∈ (bin8Plan o x s f).names x.h ↔
    r ∈ guardNames x.h ++ [.em] ++ vecNames (IntTy.wide x.ty) x.a ++ vecNames (IntTy.wide x.ty) x.b ++
      vdstNames (IntTy.wide x.ty) x.wd x.d := by
  simp [Plan.names, bin8Plan, lanePlan, Plan.uni]

end

/-- Settles O27: a two-operand word takes OPERAND at check 6, retires alone with no active lane, parks before its checks where H is
set, and takes HAZARD, to wait behind what is outstanding, where it names a pending register. -/
theorem issueChecks : Obligations.IssueChecks := by
  unfold Obligations.IssueChecks
  intro p hp x s f
  obtain ⟨he, hl⟩ := exec_twoOperand8 x s p hp
  rw [he]
  have passes : vecBad s f (IntTy.wide x.ty) x.a = false → vecBad s f (IntTy.wide x.ty) x.b = false →
      vdstBad s f (IntTy.wide x.ty) x.wd x.d = false → (bin8Plan p.2 x s f).operand = false := fun ha hb hd => by
    rw [bin8Plan_operand, ha, hb, hd]
    rfl
  refine ⟨fun q hbad => ?operand, fun q ha hb hd hm => ?idle, fun q hf hpend hh => ?parks, fun q hf hh ha hb hd hz => ?hazard⟩
  case operand =>
    refine issueWord_operand q (p.1 x) x.h _ rfl ?_
    rw [bin8Plan_operand]
    rcases hbad with h | h | h <;> simp [h]
  case idle =>
    refine ⟨_, issueWord_idle q (p.1 x) x.h _ rfl (passes ha hb hd) hm, ?_⟩
    have b := retireFixed_plain q ((bin8Plan p.2 x s f).written 0) 0 (nextPc (p.1 x) f)
    rw [raise_zero, nextPc, hl] at b
    rw [putAlways_none _ rfl, nextPc, hl]
    exact b
  case parks => exact ⟨_, issueWord_parks q (p.1 x) x.h _ hf hpend hh, became_updFibre q.own _ fun _ => rfl⟩
  case hazard =>
    obtain ⟨r, hr, hn⟩ := hz
    have hzd := hazard_of_pending hr ((mem_bin8Plan_names (o := p.2) (s := s) (f := f)).mpr hn)
    refine ⟨updFibre s f.id (Fibre.holdsTrap (hazardTrap (p.1 x) f)), ?_, became_updFibre q.own _ (holdsTrap_id _)⟩
    rw [issueWord_checked q (p.1 x) x.h _ hf hh, issueChecked_hazard q.toFree rfl (passes ha hb hd) hzd,
      raiseTrap_waits q.own q.trap (pend_of_pending hr)]

end Sys2Proof.Machine
end

section
/-! PROOFS. R112, R399: a slot's turn, and the entry of a trap that waited. -/

namespace Sys2Proof.Machine

theorem exec_slotHandover (core slot : Nat) (s : State) : exec (.slotHandover core slot) s = .next (slotTurn core slot s) := rfl
theorem exec_trapEntry (id : FibreId) (s : State) : exec (.trapEntry id) s = execTrapEntry id s := rfl

/-! ## A slot's turn -/

/-- The fibres of a slot (R109). -/
def slotFibres (s : State) (core slot : Nat) : List Fibre := s.fibres.filter fun f => f.id.core == core && f.id.pos / 4 == slot

section
variable {s : State} {core slot : Nat}

/-- With no fibre READY nothing changes. -/
theorem slotTurn_none (h : nextReady (slotFibres s core slot) = none) : slotTurn core slot s = s := by
  unfold slotFibres at h
  cases hc : slotCurrent s core slot <;> simp only [slotTurn, h, hc]

/-- A slot without a current fibre takes the one READY longest. -/
theorem slotTurn_free {g : Fibre} (h : nextReady (slotFibres s core slot) = some g) (hc : slotCurrent s core slot = none) :
    slotTurn core slot s = updFibre s g.id (Fibre.current s.clock) := by
  unfold slotFibres at h
  simp only [slotTurn, h, hc]

/-- What becomes of a slot's current fibre where another, or it itself, is READY longest. -/
theorem slotTurn_current {f g : Fibre} (h : nextReady (slotFibres s core slot) = some g) (hc : slotCurrent s core slot = some f) :
    slotTurn core slot s =
      if f.status = .current ∧ s.clock < max g.readySince f.curSince + 12 then s
      else if g.id = f.id then updFibre s f.id fun f => { f with status := .current }
      else handOver f.id none s := by
  unfold slotFibres at h
  simp only [slotTurn, h, hc]

end

/-! ## Trap entry -/

/-- A launch with one more fault counted (R430). -/
def Launch.faulted (L : Launch) : Launch := { L with nfault := L.nfault + 1 }

/-- The trap registers that an entry writes: NEST and SYS are set with the cause (R451). -/
def TRegs.entered (t : TRegs) (level : Nat) (user : Bool) : TRegs :=
  { t with tcause := t.tcause ||| (if level = 1 then 0x400 else 0) ||| (if user then 0 else 0x800) }

/-- A fibre that has entered a handler (R399). -/
def Fibre.entered (t : TRegs) (target : Word) (user : Bool) (frozen : FStatus) (ret : Option Resume) (clock : Nat)
    (f : Fibre) : Fibre :=
  { f with
    regs := f.regs.enter t (if user then 1 else 2) (if user then 0 else f.regs.level) target frozen ret
    status := .ready, readySince := clock, waitTrap := none, follow := none, winWait := false }

@[simp] theorem entered_id (t : TRegs) (target : Word) (user : Bool) (frozen : FStatus) (ret : Option Resume) (clock : Nat)
    (f : Fibre) : (f.entered t target user frozen ret clock).id = f.id := rfl

section
variable {s : State} {f : Fibre} {r : Trap} {target : Word} {user : Bool} {frozen : FStatus} {ret : Option Resume}

/-- Below level 2, with a handler to go to, a trap changes its fibre and its launch's NFAULT. -/
theorem enterTrap_eq (own : fibre? s f.id = some f) (hl : f.regs.level ≠ 2) (ht : trapTarget s f r.sys = (target, user))
    (h0 : target ≠ 0) : enterTrap f.id r frozen ret s =
      updFibre (updLaunch s f.launch Launch.faulted) f.id
        (Fibre.entered (r.regs.entered f.regs.level user) target user frozen ret s.clock) := by
  unfold enterTrap
  simp only [own, if_neg hl, ht, if_neg h0]
  rfl

/-- What the entry of a trap leaves (R399, R451). -/
theorem enterTrap_entered (own : fibre? s f.id = some f) (hl : f.regs.level ≠ 2) (ht : trapTarget s f r.sys = (target, user))
    (h0 : target ≠ 0) : Entered s (enterTrap f.id r frozen ret s) f r target user := by
  have hb := became_updFibre (s := updLaunch s f.launch Launch.faulted) own
    (Fibre.entered (r.regs.entered f.regs.level user) target user frozen ret s.clock) (entered_id _ _ _ _ _ _)
  rw [← enterTrap_eq own hl ht h0] at hb
  obtain ⟨hself, hothers, hdevice⟩ := hb
  have hg : ∀ g, fibre? (enterTrap f.id r frozen ret s) f.id = some g →
      g = f.entered (r.regs.entered f.regs.level user) target user frozen ret s.clock := fun g e =>
    Option.some.inj (e.symm.trans hself)
  have hlaunches : (enterTrap f.id r frozen ret s).launches = updIf (fun L => L.id == f.launch) Launch.faulted s.launches := by
    rw [enterTrap_eq own hl ht h0]
    rfl
  refine ⟨?pc, fun g e => ?level, fun g e => ?regs, fun n => ?vector, fun n => ?scalar, fun n => ?pred, fun g e => ?kept,
    ⟨_, hself⟩, hothers, hlaunches, ?device⟩
  case pc =>
    rw [pcAt, hself]
    rfl
  case level =>
    rw [hg g e]
    exact ⟨rfl, rfl, rfl⟩
  case regs =>
    rw [hg g e]
    rfl
  case vector =>
    rw [vregAt, vregAt, hself, own]
    rfl
  case scalar =>
    rw [sregAt, sregAt, hself, own]
    rfl
  case pred =>
    rw [pregAt, pregAt, hself, own]
    rfl
  case kept =>
    rw [hg g e]
    exact ⟨rfl, rfl, rfl, rfl, rfl, rfl, rfl, rfl⟩
  case device =>
    rw [hlaunches]
    exact hdevice

/-- A trap that waited is entered once nothing stands in its way (R399). -/
theorem trapEntry_enters (own : fibre? s f.id = some f) (hs : f.status ≠ .saved) (hw : f.waitTrap = some r)
    (hc : canEnter s f = true) : exec (.trapEntry f.id) s = .next (enterTrap f.id r .ready none s) := by
  have hs' : (f.status == .saved) = false := by simpa using hs
  rw [exec_trapEntry, execTrapEntry]
  simp only [own, hs', hc, hw, Bool.not_true, Bool.or_self, Bool.false_eq_true, if_false]

end

/-- Settles O44: a slot's turn takes the fibre READY longest or keeps its current one, and a trap whose fibre has nothing outstanding
and nothing unfinished is entered. -/
theorem slotsAndWaitingTraps : Obligations.SlotsAndWaitingTraps := by
  unfold Obligations.SlotsAndWaitingTraps
  refine ⟨fun s core slot => ⟨fun g hg own => ⟨fun hc => ?free, fun f hc => ⟨fun hs ht => ?keeps, fun ht => ⟨fun hne => ?passes,
    fun heq => ?again⟩⟩⟩, fun hn => ?none⟩, fun s f r target user own hs hw hp hu hm hl ht h0 => ?entry⟩
  case free =>
    rw [exec_slotHandover, slotTurn_free hg hc]
    exact ⟨_, rfl, became_updFibre own (Fibre.current s.clock) (current_id _)⟩
  case keeps => rw [exec_slotHandover, slotTurn_current hg hc, if_pos ⟨hs, ht⟩]
  case passes =>
    rw [exec_slotHandover, slotTurn_current hg hc, if_neg fun h => Nat.not_lt.mpr (ht h.1) h.2, if_neg hne]
  case again =>
    rw [exec_slotHandover, slotTurn_current hg hc, if_neg fun h => Nat.not_lt.mpr (ht h.1) h.2, if_pos heq, ← heq]
    exact ⟨_, rfl, became_updFibre own _ fun _ => rfl⟩
  case none => rw [exec_slotHandover, slotTurn_none hn]
  case entry =>
    have hc : canEnter s f = true := by simp [canEnter, Fibre.settled, hp, hu, hm]
    exact ⟨_, trapEntry_enters own hs hw hc, enterTrap_entered own hl ht h0⟩

end Sys2Proof.Machine
end

section
/-! PROOFS. R123, R125, R377, R378: the ladder, and requests for registers that are withdrawn. -/

namespace Sys2Proof.Machine

theorem exec_registerDeadlock (core quad : Nat) (s : State) :
    exec (.registerDeadlock core quad) s = execRegisterDeadlock core quad s := rfl
theorem exec_acquireStalled (id : FibreId) (s : State) : exec (.acquireStalled id) s = execAcquireStalled id s := rfl

/-! ## The ladder -/

/-- A threshold of `%escthr`; 0 is taken as 1 (R378). -/
theorem threshold_eq (f : Fibre) (hi lo : Nat) :
    threshold f hi lo = if wfield f.escthr hi lo = 0 then 1 else wfield f.escthr hi lo := by
  unfold threshold
  split <;> omega

/-- The counters of R379 that entering a level raises. -/
def Fibre.escalated (level : Nat) (f : Fibre) : Fibre :=
  { f with
    escLevel := level
    esc1 := if level = 1 then f.esc1 + 1 else f.esc1
    esc2 := if level = 2 then f.esc2 + 1 else f.esc2
    esc3 := if level = 3 then f.esc3 + 1 else f.esc3 }

@[simp] theorem escalated_id (level : Nat) (f : Fibre) : (f.escalated level).id = f.id := rfl

section
variable {s : State} {id : FibreId} {f : Fibre} {level : Nat} {count : Fibre → Fibre}

/-- A fibre whose rollbacks have reached the next level enters it, and the Almanac may serve it (R377). -/
theorem escalate_enters (own : fibre? s id = some f) (h : f.escLevel + 1 = level) (hr : levelAt f level ≤ f.rbnow.toNat) :
    escalate id level count s =
      serveNext (partOfCore s id.core) (updFibre s id fun f => count { f with escLevel := level }) := by
  unfold escalate
  rw [own]
  exact if_pos ⟨h, hr⟩

/-- Any other fibre stays at its level. -/
theorem escalate_stays (own : fibre? s id = some f) (h : f.escLevel + 1 ≠ level ∨ f.rbnow.toNat < levelAt f level) :
    escalate id level count s = s := by
  unfold escalate
  rw [own]
  exact if_neg fun hc => h.elim (· hc.1) (Nat.not_lt.mpr hc.2)

end

/-- Each event of the ladder is an escalation that counts its level. -/
theorem exec_escalate (s : State) (id : FibreId) :
    ∀ c ∈ [(Instr.escalateLevel1, 1), (Instr.escalateLevel2, 2), (Instr.escalateLevel3, 3)],
      ∃ count : Fibre → Fibre, exec (c.1 id) s = .next (escalate id c.2 count s) ∧
        ∀ f : Fibre, count { f with escLevel := c.2 } = f.escalated c.2 := by
  simp only [List.forall_mem_cons]
  exact ⟨⟨_, rfl, fun _ => rfl⟩, ⟨_, rfl, fun _ => rfl⟩, ⟨_, rfl, fun _ => rfl⟩, List.forall_mem_nil _⟩

/-! ## Requests that are withdrawn -/

/-- A fibre whose request has been withdrawn (R123). -/
def Fibre.withdrawn (clock : Nat) (f : Fibre) : Fibre :=
  { f with acquire := none, status := .ready, readySince := clock, stuckFor := 0 }

@[simp] theorem withdrawn_id (clock : Nat) (f : Fibre) : (f.withdrawn clock).id = f.id := rfl

/-- REGISTER of a request that waited, at its `regacq` (R124). -/
def withdrawTrap (f : Fibre) (a : Acquire) (sub : Nat) : Trap :=
  { cause := 0x06, sys := false, seq := f.seq
    regs := plainRegs 0x06 a.inst 8 f.regs.pc (BitVec.ofNat 64 sub) (BitVec.ofNat 64 a.n) 0 }

theorem withdrawAcquire_eq {f : Fibre} {a : Acquire} (h : f.acquire = some a) (sub : Nat) (s : State) :
    withdrawAcquire f sub s =
      raiseTrap f.id (withdrawTrap f a sub) (updFibre s f.id (Fibre.withdrawn s.clock)) := by
  unfold withdrawAcquire
  rw [h]
  rfl

/-- A fibre of a quadrant whose condition begins anew (R123). -/
def Fibre.restarted (core quad : Nat) (f : Fibre) : Fibre :=
  if f.id.core == core && f.id.pos / 16 == quad then { f with stuckFor := 0 } else f

theorem fibre?_restartStuck (core quad : Nat) (s : State) (id : FibreId) :
    fibre? (restartStuck core quad s) id = (fibre? s id).map (Fibre.restarted core quad) :=
  find?_updIf _ _ _ _ fun _ => rfl

/-- The count that begins anew is one that a withdrawal clears. -/
theorem withdrawn_restarted (core quad clock : Nat) (f : Fibre) : (f.restarted core quad).withdrawn clock = f.withdrawn clock := by
  unfold Fibre.restarted
  split <;> rfl

/-- A deadlocked quadrant withdraws the request of the fibre that comes last (R123). -/
theorem registerDeadlock_withdraws {s u : State} {core quad : Nat} {f : Fibre} (hu : grantPending core quad 16 s = u)
    (hd : regDeadlock u core quad = true) (hy : youngest u ((quadFibres u core quad).filter (·.acquiring)) = some f) :
    exec (.registerDeadlock core quad) s = .next (withdrawAcquire f 1 (restartStuck core quad u)) := by
  rw [exec_registerDeadlock, execRegisterDeadlock]
  simp only [hu, hd, hy, if_true]

/-- A request that has waited for 4,096 cycles is withdrawn, unless its quadrant is deadlocked (R125). -/
theorem acquireStalled_eq {s : State} {f : Fibre} {a : Acquire} (own : fibre? s f.id = some f) (hq : f.acquiring = true)
    (ha : f.acquire = some a) : exec (.acquireStalled f.id) s = .next (
      if 4096 ≤ a.counted ∧ quadStuck s f.id.core (f.id.pos / 16) = false then withdrawAcquire f 6 s else s) := by
  rw [exec_acquireStalled, execAcquireStalled]
  simp only [own, hq, ha, Option.map_some, Option.getD_some, Bool.true_and, Bool.and_eq_true, decide_eq_true_eq, Bool.not_eq_true']

/-- Settles O45: a fibre enters the level after its own once its rollbacks have reached that level's threshold, and a request that is
withdrawn leaves its fibre READY with REGISTER at its `regacq`. -/
theorem ladderAndRegisters : Obligations.LadderAndRegisters := by
  unfold Obligations.LadderAndRegisters
  refine ⟨fun c hc s id f own => ?ladder, fun f => ?levels, fun s core quad f a => ?deadlock, fun s f a own hq ha => ?stalled⟩
  case ladder =>
    obtain ⟨count, he, hcount⟩ := exec_escalate s id c hc
    refine ⟨fun h hr => ?enters, fun h => he.trans (congrArg Host.Outcome.next (escalate_stays own h))⟩
    obtain rfl := fibre?_id own
    have hfun : (fun f : Fibre => count { f with escLevel := c.2 }) = Fibre.escalated c.2 := funext hcount
    refine ⟨updFibre s f.id (Fibre.escalated c.2), became_updFibre own _ (escalated_id _), ?_⟩
    rw [he, escalate_enters own h hr, hfun]
  case levels =>
    intro n
    have ht : ∀ hi lo, threshold f hi lo = n hi lo := threshold_eq f
    simp [levelAt, ht]
  case deadlock =>
    intro u hd hy ha own
    have hself : fibre? (updFibre (restartStuck core quad u) f.id (Fibre.withdrawn u.clock)) f.id = some (f.withdrawn u.clock) := by
      rw [fibre?_updFibre_self _ _ _ (withdrawn_id _), fibre?_restartStuck, own]
      exact congrArg some (withdrawn_restarted core quad u.clock f)
    refine ⟨_, hself, fun id h => fibre?_updFibre_ne _ _ (withdrawn_id _) h, rfl, withdrawTrap f a 1, ?_, rfl, rfl, rfl, rfl⟩
    rw [registerDeadlock_withdraws rfl hd hy, withdrawAcquire_eq ha]
    rfl
  case stalled =>
    have he := acquireStalled_eq own hq ha
    refine ⟨fun h => ?waits, fun h hs => ?withdrawn⟩
    case waits =>
      rw [he, if_neg]
      rintro ⟨hc, hs⟩
      rcases h with h | h
      · omega
      · rw [h] at hs
        cases hs
    case withdrawn =>
      refine ⟨_, became_updFibre own (Fibre.withdrawn s.clock) (withdrawn_id _), withdrawTrap f a 6, ?_, rfl, rfl, rfl, rfl⟩
      rw [he, if_pos ⟨h, hs⟩, withdrawAcquire_eq ha]

end Sys2Proof.Machine
end

section
/-! PROOFS. R276, R286, R437: stores that merge into a Coded block, and stores to a device register. -/

namespace Sys2Proof.Machine

/-! ## The issue of a store -/

/-- Checks that let an instruction through give one element for each (R250). -/
theorem combine_ok_length {ls : List (Nat × Word × LaneChk)} {accs : List LaneAcc} {fills : List TlbEntry}
    (h : combine ls = .ok accs fills) : accs.length = ls.length := by
  unfold combine at h
  repeat' split at h
  all_goals cases h
  exact List.length_map _

/-- A store has a value for each element that it checks (R253). -/
theorem storeForm_data_length {i : Instr} {S : StoreForm} (h : storeForm i = some S) (s : State) (f : Fibre) (m : BitVec 32) :
    (S.data s f m).length = (S.checks s f m).length := by
  unfold storeForm at h
  split at h
  all_goals cases h
  all_goals simp [laneStore, blockStore, scalarStore, blkChecks, List.length_flatMap]

section
variable {i : Instr} {S : StoreForm} {s : State} {f : Fibre} {accs : List LaneAcc} {fills : List TlbEntry}

/-- A store of a quiet fibre that its checks let through retires with what its performance leaves. -/
theorem store_next (q : Quiet s f) (hS : storeForm i = some S) (hr : S.refused s f = false) (hm : S.mask f ≠ 0)
    (hc : combine (S.checks s f (S.mask f)) = .ok accs fills) {u : State}
    (hp : ∀ size, performFor f.id f (.store accs size (S.data s f (S.mask f))) (rankLines S.hint accs (cached f fills s))
      (prepared f S.hint accs fills s) = .done u) :
    exec i s = .next (afterOp f (f.past S.len) [] [] [] none u) := by
  obtain ⟨plan, he, hl, hplan⟩ := storeExec hS s
  obtain ⟨hctx, hop, hal, huni, hdests, hhint, hown⟩ := hplan f
  obtain ⟨size, how⟩ := hown _ accs fills hc
  have hmask : execMask f S.h (plan s f) = S.mask f := by rw [execMask, huni, AccForm.mask]
  rw [storeEff, irrev q] at how
  rw [he]
  exact access_next q (hp size) rfl (fun _ => rfl) (portRefuses_none _ _ _ rfl fun _ => nofun) hhint hctx (hop.trans hr) hal
    (hmask ▸ hm) ((congrArg _ hmask).trans how) S.len hl hdests rfl

/-! ## What a store's events leave -/

/-- What precedes an access's events is no writing event. -/
theorem Prep.wrote {p u : State} {who : Option FibreId} (P : Prep s p) (w : Wrote who p u) : Wrote who s u :=
  ⟨fun g hw hg => w.own g hw ((P.fibre _).trans hg), fun id g hg => w.met id g ((P.fibre id).trans hg),
    fun id hg => w.gone id ((P.fibre id).trans hg)⟩

/-- The retirement of a fibre changes no other. -/
theorem SameOthers.afterOp {u : State} (h : SameOthers s u f) (pc : Word) (dests marks : List RegId) (ws : List RegWrite)
    (follow : Option Nat) : SameOthers s (Machine.afterOp f pc dests marks ws follow u) f := by
  intro id hid
  have e : fibre? (Machine.afterOp f pc dests marks ws follow u) id = fibre? u id :=
    fibre?_updFibre_ne _ _ (fun _ => by simp) hid
  simpa only [vregAt, sregAt, pregAt, pcAt, e] using h id hid

end

/-! ## Merges -/

/-- The code of a block is that of its bytes. -/
theorem blockCode_congr {m n : MemSys} (h : ∀ a, homeByte m a = homeByte n a) (P : CodedPar) (pa : Nat) :
    blockCode m P pa = blockCode n P pa := by
  simp only [blockCode, homeBytes, h]

/-- Lines that are clean hold what they held (R287). -/
theorem homeByte_cleanLines (ms : MemSys) (ls : List Nat) (a : Nat) : homeByte (cleanLines ms ls) a = homeByte ms a := by
  refine foldl_preserves (fun m : MemSys => homeByte m a = homeByte ms a) _ (fun m l h => ?_) ls ms rfl
  split <;> exact h

/-- The code that a merge of stored values, by position, leaves in a block (R286). -/
def mergedCode (ms : MemSys) (P : CodedPar) (pa : Nat) (stores : List (Nat × Nat)) : Nat :=
  Coded.encode P (some (blockCode ms P pa)) (stores.foldl (fun v p => v.set p.1 p.2) (Coded.decode P (blockCode ms P pa)))

/-- A merge writes its block's bytes and no others (R286). -/
theorem mergeBlock_spec (who : Option FibreId) (core : Option Nat) (ctx : Option (Nat × Nat)) (P : CodedPar) (pa : Nat)
    (stores : List (Nat × Nat)) (s : State) :
    (∀ a, homeByte (mergeBlock who core ctx P pa stores s).msys a = if pa ≤ a ∧ a < pa + Coded.bytes P then
        (bytesOf (Coded.bytes P) (mergedCode s.msys P pa stores)).getD (a - pa) 0 else homeByte s.msys a) ∧
      Wrote who s (mergeBlock who core ctx P pa stores s) := by
  obtain ⟨hbytes, -, -, -, w⟩ :=
    writeDev_spec who core ctx pa (bytesOf (Coded.bytes P) (mergedCode s.msys P pa stores)) s
  rw [show (bytesOf (Coded.bytes P) (mergedCode s.msys P pa stores)).length = Coded.bytes P from leBytes_length _ _] at hbytes
  exact ⟨fun a => (homeByte_cleanLines _ _ a).trans (hbytes a), ⟨w.own, w.met, w.gone⟩⟩

/-! ## Device registers -/

/-- A store of one element that is a device register writes the register (R437). -/
theorem perfStore_register {s : State} {f : Fibre} {a : LaneAcc} {off size v : Nat} {vs : List Nat} (hint : Hint)
    (fills : List TlbEntry) (s0 : State) (hcl : claimed s f.id [a] = false) (hreg : regOf a = some off) (hco : codedAcc a = none) :
    performFor f.id f (.store [a] size (v :: vs)) s0 (prepared f hint [a] fills s) =
      .done (storeReg (some f.id) (some f.id.core) (partOfCore s f.id.core) off a.pa (BitVec.ofNat 64 v)
        (prepared f hint [a] fills s)) := by
  have P := Prep.all f hint [a] fills s
  obtain ⟨hpart, -⟩ := P.context f.id.core f
  have hcl' : claimed (prepared f hint [a] fills s) f.id [a] = false := (P.held f.id [a]).1.trans hcl
  have hmp : mergePoison (prepared f hint [a] fills s) [a] = none := by simp [mergePoison, hco, accsPoison]
  simp [performFor, hcl', hmp, hreg, hpart, storeAccs, storeRegs]

/-- Settles O30: the stores to one Coded block are one merge at its home, whose bytes the merge writes, and a store to a register is
performed by its write. -/
theorem specialStores : Obligations.SpecialStores := by
  unfold Obligations.SpecialStores
  refine ⟨fun i S s f accs fills pa P pos hS q hr hm hc hcl hmp ha => ?block,
    fun i S s f a fills off hS q hr hm hc hcl hreg hco => ?register⟩
  case block =>
    intro xs hne code new
    have hprep := Prep.all f S.hint accs fills s
    have hcoded : ∀ x ∈ xs, codedAcc x.1 = some (pa, P, pos x.1) := fun x hx => (ha x.1 (List.of_mem_zip (a := x.1) (b := x.2) hx).1).2
    have hcode : blockCode (prepared f S.hint accs fills s).msys P pa = code := blockCode_congr hprep.memory.1 P pa
    obtain ⟨hbytes, w⟩ := mergeBlock_spec (some f.id) (some f.id.core) (some (partOfCore s f.id.core, asidOf s f)) P pa
      (xs.map fun x => (pos x.1, x.2)) (prepared f S.hint accs fills s)
    have hs := hprep.wrote w
    obtain ⟨g, hg, hmet⟩ := hs.own f rfl q.own
    obtain ⟨k, hk, hown⟩ := after_self (pc := f.past S.len) q hg hmet
    refine ⟨_, k, store_next q hS hr hm hc fun size => ?_, hk, hown, (wrote_others hs).afterOp _ _ _ _ _, fun a => ?_⟩
    · rw [perfStore S.hint fills accs size _ _ hcl (fun a h => (ha a h).1) hmp, storeAccs_block _ _ _ _ _ pa P pos hcoded hne]
      rfl
    · have hnew : mergedCode (prepared f S.hint accs fills s).msys P pa (xs.map fun x => (pos x.1, x.2)) = Coded.encode P (some code)
          (xs.foldl (fun v x => v.set (pos x.1) x.2) (Coded.decode P code)) := by rw [mergedCode, hcode, List.foldl_map]
      have e := hbytes a
      rw [hnew, hprep.memory.1 a] at e
      exact e
  case register =>
    have hlen : (S.data s f (S.mask f)).length = 1 := (storeForm_data_length hS s f _).trans (combine_ok_length hc).symm
    obtain ⟨v, hv⟩ := List.length_eq_one_iff.mp hlen
    refine store_next q hS hr hm hc fun size => ?_
    rw [hv]
    exact perfStore_register S.hint fills _ hcl hreg hco

end Sys2Proof.Machine
end

section
/-! PROOFS. R288 to R291: coded blocks in registers. -/

namespace Sys2Proof.Machine

theorem exec_frcdec (x : OpFrcdec) (s : State) : exec (.frcdec x) s = execFrcdec x s := rfl
theorem exec_frcenc (x : OpFrcenc) (s : State) : exec (.frcenc x) s = execFrcenc x s := rfl
theorem exec_frchdr (x : OpFrchdr) (s : State) : exec (.frchdr x) s = execFrchdr x s := rfl

/-! ## Outstanding results with flags -/

/-- A result of variable latency that comes with flags and a trap, or with neither (R72, R151). -/
theorem owesFlags_next {s : State} {f : Fibre} (q : Quiet s f) {i : Instr} {h : Hdr} {plan : State → Fibre → Plan}
    {marks : List RegId} {ws : List RegWrite} {fl : BitVec 32} {tr : Option Trap} (hc : (plan s f).context = false)
    (ho : (plan s f).operand = false) (hal : (plan s f).always = []) (hm : execMask f h (plan s f) ≠ 0)
    (how : (plan s f).own (execMask f h (plan s f)) = .lateF marks ws fl tr) (hmk : marks ≠ []) {n : Nat} (hn : lenOf i = n) :
    ∃ t, issueWord i h plan s = .next t ∧ Owes s t f (f.past n) ⟨f.seq, marks, some ws, fl, tr, true⟩ := by
  subst hn
  refine ⟨_, issueWord_quiet q i h plan ⟨hc, ho, hm⟩, ?_⟩
  rw [how, putAlways_none _ hal]
  simp only [carry, q.plain]
  exact owes_upd q _ _ _ (.inl hmk)

/-! ## Blocks and their lanes (R289) -/

/-- A fibre's lanes hold values of the blocks of one instruction alone. -/
theorem codecPlace_lt {P : CodedPar} (hd : P.d < 4) (r : Nat) {l : Nat} (hl : l < 32) : (codecPlace P r l).1 < codecBlocks P := by
  unfold codecPlace codecBlocks
  by_cases h : P.d = 3
  · rw [if_pos h, if_pos h]
    exact Nat.one_pos
  · rw [if_neg h, if_neg h]
    have hdvd : 4 ^ P.d ∣ 2 ^ 5 := by
      rw [show 4 = 2 ^ 2 from rfl, ← Nat.pow_mul]
      exact Nat.pow_dvd_pow 2 (by omega)
    exact Nat.div_lt_div_of_lt_of_dvd hdvd hl

/-- The values of an instruction take one register at least. -/
theorem codecValues_pos (P : CodedPar) : 0 < codecValues P := by
  unfold codecValues
  split <;> split <;> decide

/-- The block of a lane, among the blocks that one instruction decodes. -/
theorem getD_blocks {P : CodedPar} (hd : P.d < 4) (dec : Nat → List Nat) (r : Nat) {l : Nat} (hl : l < 32) :
    ((List.range (codecBlocks P)).map dec).getD (codecPlace P r l).1 [] = dec (codecPlace P r l).1 := by
  simp [List.getD, codecPlace_lt hd r hl]

/-! ## Checks -/

/-- A run of registers is refused for none that is absent. -/
theorem any_absent {f : Fibre} {n k : Nat} (h : ∀ j < k, f.present (n + j) = true) :
    ((List.range k).any fun j => !f.present (n + j)) = false := by simpa using h

/-! ## Values without an exponent of all ones -/

section
variable {P : CodedPar} {gs : List Nat} {rd : Nat → List Nat}

/-- Without a special value no block is bad (R290). -/
theorem specialBlocks_none (h : ∀ g ∈ gs, (rd g).any (Coded.special P) = false) :
    (((gs.map fun g => (g, rd g)).filter fun v => v.2.any (Coded.special P)).map (·.1)) = [] := by
  rw [List.map_eq_nil_iff, List.filter_eq_nil_iff]
  intro v hv
  obtain ⟨g, hg, rfl⟩ := List.mem_map.mp hv
  simp [h g hg]

/-- Values that are not special are encoded as they stand (R290). -/
theorem plainValues {xs : List Nat} (h : xs.any (Coded.special P) = false) :
    (xs.map fun y => if Coded.special P y then 0 else y) = xs := by
  rw [List.any_eq_false] at h
  exact (List.map_congr_left fun y hy => if_neg (h y hy)).trans (List.map_id _)

/-- Blocks without a special value are encoded from what their registers hold. -/
theorem encodedBlocks_plain (enc : Nat → List Nat → Nat) (h : ∀ g ∈ gs, (rd g).any (Coded.special P) = false) :
    ((gs.map fun g => (g, rd g)).map fun v => (v.1, enc v.1 (v.2.map fun y => if Coded.special P y then 0 else y))) =
      gs.map fun g => (g, enc g (rd g)) := by
  rw [List.map_map]
  exact List.map_congr_left fun g hg => congrArg (fun xs => (g, enc g xs)) (plainValues (h g hg))

end

/-! ## `frcdec` -/

/-- The value that register, or pair, `r` holds in lane `l` after the codes of a byte string were decoded (R289, R290). -/
def decodedValue (P : CodedPar) (str : List Byte) (r l : Nat) : Nat :=
  (Coded.decode P (codeAt P str (codecPlace P r l).1)).getD (codecPlace P r l).2 0

/-- The writes of a `frcdec` into registers from `n` on (R290). -/
def decodedWrites (P : CodedPar) (str : List Byte) (n : Nat) (m : BitVec 32) : List RegWrite :=
  (List.range (codecValues P)).map fun j => .v (n + j) m (mkV fun l =>
    if P.f64 then BitVec.ofNat 32 (decodedValue P str (j / 2) l / 2 ^ (32 * (j % 2))) else BitVec.ofNat 32 (decodedValue P str j l))

/-- The parameters that an instruction's fields name (R288). -/
def codedFields (ty : FTy) (dim : BitVec 2) (rate : BitVec 7) : CodedPar := ⟨ty == .f64, dim.toNat, rate.toNat⟩

/-- Their field of two bits names a dimensionality below 4. -/
theorem codedFields_d_lt (ty : FTy) (dim : BitVec 2) (rate : BitVec 7) : (codedFields ty dim rate).d < 4 := dim.isLt

section
variable {s : State} {f : Fibre}

/-- `frcdec` leaves its writes outstanding. -/
theorem frcdec_next (q : Quiet s f) {x : OpFrcdec} {P : CodedPar} (hP : codedFields x.ty x.dim x.rate = P)
    (ha : runBad f x.a (codecCodes P) (codecCodes P) = false) (hn : x.d.toNat % codecValues P = 0)
    (hd : ∀ j < codecValues P, f.present (x.d.toNat + j) = true) (hm : activeMask f x.h ≠ 0) :
    ∃ t, exec (.frcdec x) s = .next t ∧
      Owes s t f (f.past 12) ⟨f.seq, (List.range (codecValues P)).map fun j => .v (x.d.toNat + j),
        some (decodedWrites P (runBytes f x.a (codecCodes P)) x.d.toNat (activeMask f x.h)), 0, none, false⟩ := by
  have ho : (runBad f x.a (codecCodes P) (codecCodes P) || x.d.toNat % codecValues P != 0 ||
      (List.range (codecValues P)).any fun j => !f.present (x.d.toNat + j)) = false := by simp [ha, hn, any_absent hd]
  subst hP
  rw [exec_frcdec, execFrcdec]
  apply owes_next q
  case hc => rfl
  case ho => exact ho
  case hal => rfl
  case hm => exact hm
  case hmk =>
    rw [Ne, List.map_eq_nil_iff, List.range_eq_nil]
    exact Nat.ne_of_gt (codecValues_pos _)
  case hn => rfl
  case how =>
    have hd4 := codedFields_d_lt x.ty x.dim x.rate
    unfold codedFields at hd4
    refine congrArg (Eff.late _) (List.map_congr_left fun j _ => congrArg (RegWrite.v _ _) (mkV_congr _ _ fun l hl => ?_))
    dsimp only
    rw [getD_blocks hd4 _ _ hl, getD_blocks hd4 _ _ hl]
    rfl

end

/-! ## `frcenc` -/

/-- The blocks that a `frcenc` encodes: those with an active lane (R290). -/
def encodedBlocks (P : CodedPar) (m : BitVec 32) : List Nat :=
  (List.range (codecBlocks P)).filter fun g => (codecLanes P g).any fun l => m.getLsbD l

/-- The code of block `g` of a `frcenc`, after the block of its reference where it names one (R290). -/
def encodedCode (P : CodedPar) (f : Fibre) (x : OpFrcenc) (g : Nat) (vals : List Nat) : Nat :=
  Coded.encode P (if x.ref then some (codeAt P (runBytes f x.b (codecCodes P)) g) else none) vals

/-- The bytes of the destination of a `frcenc` with the codes of some blocks put in (R289). -/
def encodedImage (P : CodedPar) (f : Fibre) (x : OpFrcenc) (gs : List Nat) : List Byte :=
  codecPut P ((List.range (codecCodes P)).flatMap fun j => imageOf (f.vreg (x.d.toNat + j)))
    (gs.map fun g => (g, encodedCode P f x g (codecRead P f x.a.num.toNat g)))

/-- The writes of the words of an image that lie in some blocks, to registers from `n` on (R290). -/
def encodedWrites (P : CodedPar) (gs : List Nat) (image : List Byte) (n : Nat) : List RegWrite :=
  (List.range (codecCodes P)).map fun j => .v (n + j)
    (mkMask fun l => gs.any fun g => decide (g * Coded.bytes P < 128 * j + 4 * l + 4) &&
      decide (128 * j + 4 * l < (g + 1) * Coded.bytes P))
    (ofImage ((image.drop (128 * j)).take 128))

section
variable {s : State} {f : Fibre}

/-- Lanes that raise no flag take no arithmetic trap. -/
theorem arithTrap_none (i : Instr) (f : Fibre) (m : BitVec 32) : arithTrap i f m (fun _ => ⟨0, 0⟩) = none := by
  rw [arithTrap, fault0 m f.en fun _ => 0]
  rfl

/-- The flags of lanes that raise none. -/
theorem raised_none (m : BitVec 32) : raisedFlags m (fun _ => ⟨0, 0⟩) = 0 := raised0 m fun _ => 0

/-- `frcenc` of blocks without a special value leaves their codes outstanding, and raises nothing. -/
theorem frcenc_next (q : Quiet s f) {x : OpFrcenc} {P : CodedPar} (hP : codedFields x.ty x.dim x.rate = P)
    (ha : runBad f x.a (codecValues P) (codecValues P) = false) (hb : x.ref = true → runBad f x.b (codecCodes P) (codecCodes P) = false)
    (hn : x.d.toNat % codecCodes P = 0) (hd : ∀ j < codecCodes P, f.present (x.d.toNat + j) = true) (hm : activeMask f x.h ≠ 0)
    (hs : ∀ g ∈ encodedBlocks P (activeMask f x.h), (codecRead P f x.a.num.toNat g).any (Coded.special P) = false) :
    ∃ t, exec (.frcenc x) s = .next t ∧
      Owes s t f (f.past 12) ⟨f.seq, .xflags :: (List.range (codecCodes P)).map fun j => .v (x.d.toNat + j),
        some (encodedWrites P (encodedBlocks P (activeMask f x.h)) (encodedImage P f x (encodedBlocks P (activeMask f x.h))) x.d.toNat),
        0, none, true⟩ := by
  have ho : (runBad f x.a (codecValues P) (codecValues P) || (x.ref && runBad f x.b (codecCodes P) (codecCodes P)) ||
      x.d.toNat % codecCodes P != 0 || (List.range (codecCodes P)).any fun j => !f.present (x.d.toNat + j)) = false := by
    simpa [ha, hn, any_absent hd] using hb
  subst hP
  rw [exec_frcenc, execFrcenc]
  apply owesFlags_next q
  case hc => rfl
  case ho => exact ho
  case hal => rfl
  case hm => exact hm
  case hmk => exact List.cons_ne_nil _ _
  case hn => rfl
  case how =>
    have hbad := specialBlocks_none hs
    have hcodes := encodedBlocks_plain (encodedCode (codedFields x.ty x.dim x.rate) f x) hs
    unfold encodedBlocks codedFields at hbad hcodes
    unfold encodedCode at hcodes
    simp only [Plan.uni, execMask, Bool.false_eq_true, if_false, hbad, hcodes, List.contains_nil, arithTrap_none, raised_none]
    rfl

end

/-! ## `frchdr` -/

section
variable {s : State} {f : Fibre} {x : OpFrchdr}

/-- `frchdr` with a scalar that names no parameters takes OPERAND (R291). -/
theorem frchdr_refused (q : Quiet s f) (hb : scaBad x.b = false) (hd : vdstBad s f false false x.d = false)
    (ha : runBad f x.a 1 1 = false) (hm : activeMask f x.h ≠ 0) (hk : kparamOf (f.sreg x.b.num.toNat) = none) :
    exec (.frchdr x) s = .next (raiseTrap f.id (operandTrap (.frchdr x) f) s) := by
  have ho : (runBad f x.a 1 1 || scaBad x.b || vdstBad s f false false x.d) = false := by simp [ha, hb, hd]
  have hw : walkedTo f (operandTrap (.frchdr x) f) s = s := walkedTo_other f (show (0x05 : BitVec 8) ≠ 0x10 by decide) s
  rw [exec_frchdr, execFrchdr]
  refine Eq.trans ?_ (congrArg (fun u => Host.Outcome.next (raiseTrap f.id (operandTrap (.frchdr x) f) u)) hw)
  apply trap_next q
  case hc => rfl
  case ho => exact ho
  case hal => rfl
  case hm => exact hm
  case how => simp only [Plan.uni, readSca, hk]

/-- `frchdr` leaves the headers of its lanes' blocks outstanding (R290). -/
theorem frchdr_next (q : Quiet s f) {P : CodedPar} (hb : scaBad x.b = false) (hd : vdstBad s f false false x.d = false)
    (ha : runBad f x.a 1 1 = false) (hm : activeMask f x.h ≠ 0) (hk : kparamOf (f.sreg x.b.num.toNat) = some P)
    (hr : runBad f x.a (codecCodes P) (codecCodes P) = false) :
    ∃ t, exec (.frchdr x) s = .next t ∧ Owes s t f (f.past 8) ⟨f.seq, vdstNames false false x.d,
      some (vdstPut false false x.d (activeMask f x.h) fun l => BitVec.ofNat 64 (Coded.header P
        (codeAt P (runBytes f x.a (codecCodes P)) (codecPlace P 0 l).1))), 0, none, false⟩ := by
  have ho : (runBad f x.a 1 1 || scaBad x.b || vdstBad s f false false x.d) = false := by simp [ha, hb, hd]
  rw [exec_frchdr, execFrchdr]
  apply owes_next q
  case hc => rfl
  case ho => exact ho
  case hal => rfl
  case hm => exact hm
  case hmk => exact List.cons_ne_nil _ _
  case hn => rfl
  case how =>
    simp only [Plan.uni, readSca, hk, Option.map_some, Option.getD_some, hr, Bool.false_eq_true, if_false]
    rfl

end

/-- Settles O41: each instruction is issued as its plan, whose effect is outstanding; the lanes of `frcdec` name blocks that it
decodes, and `frcenc` without a special value raises nothing. -/
theorem codedRegisters : Obligations.CodedRegisters := by
  unfold Obligations.CodedRegisters
  refine ⟨fun x s f q ha hn hd hm => ?frcdec, fun x s f q ha hb hn hd hm hs => frcenc_next q rfl ha hb hn hd hm hs,
    fun x s f q hb hd ha hm => ⟨frchdr_refused q hb hd ha hm, fun P => frchdr_next q hb hd ha hm⟩⟩
  case frcdec =>
    obtain ⟨t, ht, ho⟩ := frcdec_next q rfl ha hn hd hm
    exact ⟨t, _, ht, ho, rfl⟩

end Sys2Proof.Machine
end

section
/-! PROOFS. R302, R438, R446, R447: the state after reset. -/

namespace Sys2Proof.Machine

/-- Every line of a granule that nothing has touched is RAW (R302). -/
theorem granuleInit_state (i : Nat) : Granule.init.states.getD i 0 = 0 := by
  by_cases hi : i < 64 <;> simp [Granule.init, Vector.getD, hi]

/-- After reset every granule is untouched (R302, R447). -/
theorem granOf_reset (a : Nat) : granOf State.reset.msys a = Granule.init := rfl

/-- Settles O58: the reset state lists no byte, no key and no record, so that each reads as its default. -/
theorem resetState : Obligations.ResetState := by
  unfold Obligations.ResetState
  refine ⟨wf_reset, rfl, rfl, rfl, rfl, rfl, fun a => ⟨granOf_reset a, ?state⟩, fun a => Cleared.homeByte ⟨rfl, rfl, rfl⟩⟩
  case state =>
    rw [lineSt, granOf_reset]
    exact granuleInit_state _

end Sys2Proof.Machine
end

section
/-! PROOFS. R302, R304, R309: packed lines. -/

namespace Sys2Proof.Machine

theorem exec_pkstatLine (x : OpDA) (s : State) : exec (.pkstatLine x) s = execPkstatLine x s := rfl
theorem exec_pkstatBind (x : OpDAB) (s : State) : exec (.pkstatBind x) s = execPkstatBind x s := rfl

/-! ## What a binding answers -/

section
variable {s : State} {p pa : Nat} {tid : Word}

/-- A table number with a bit above its field is refused (R309). -/
theorem bindStatus_reserved (h : wfield tid 63 16 ≠ 0) : bindStatus s p pa tid = (1, none) := if_pos h

/-- A binding to the granule's own table, or to none, reads no directory: only poison refuses it (R307, R309). -/
theorem bindStatus_noTable (h : wfield tid 63 16 = 0)
    (hid : BitVec.ofNat 16 tid.toNat = (granOf s.msys pa).table ∨ BitVec.ofNat 16 tid.toNat = 0) :
    bindStatus s p pa tid = (if (granOf s.msys pa).poisoned then 3 else 0, none) :=
  (if_neg (not_not_intro h)).trans (if_pos hid)

/-- Without a directory no other table is found (R304). -/
theorem bindStatus_noDirectory (h : wfield tid 63 16 = 0) (ht : BitVec.ofNat 16 tid.toNat ≠ (granOf s.msys pa).table)
    (h0 : BitVec.ofNat 16 tid.toNat ≠ 0) (hd : (partn s p).pktdir.getLsbD 0 = false) : bindStatus s p pa tid = (1, none) :=
  (if_neg (not_not_intro h)).trans ((if_neg (not_or.mpr ⟨ht, h0⟩)).trans (if_pos hd))

end

/-! ## What a binding leaves -/

/-- The record of a granule bound to another table: what was PACKED is RAW (R309). -/
def Granule.boundTo (g : Granule) (id : BitVec 16) : Granule :=
  ⟨Vector.ofFn fun i => if g.states.getD i.val 0 = 1 then 0 else g.states.getD i.val 0, id⟩

theorem boundTo_state (g : Granule) (id : BitVec 16) {i : Nat} (hi : i < 64) :
    (g.boundTo id).states.getD i 0 = if g.states.getD i 0 = 1 then 0 else g.states.getD i 0 := by
  simp [Granule.boundTo, Vector.getD, hi]

/-- The table found for a binding is captured (R304). -/
def captureFor (p : Nat) (id : BitVec 16) (found : Option XTable) (s : State) : State :=
  match found with
  | some t => updPart s p fun P => { P with captured := Tab.set P.captured id.toNat t }
  | none => s

/-- What a binding to another table leaves: the table captured, the granule's record written, and the capture of the table
that it leaves released where no other granule is bound to it (R304, R309). -/
def boundState (p pa : Nat) (tid : Word) (s : State) : State :=
  let g := granOf s.msys pa
  let id := BitVec.ofNat 16 tid.toNat
  let u := captureFor p id (bindStatus s p pa tid).2 s
  let v := { u with msys := setGran u.msys pa (g.boundTo id) }
  if g.table = 0 then v else releaseCapture p g.table v

section
variable {s : State} {p pa : Nat} {tid : Word}

/-- A binding that is refused, or that names the granule's own table, changes nothing (R309). -/
theorem bindGranule_idle (h : (bindStatus s p pa tid).1 ≠ 0 ∨ BitVec.ofNat 16 tid.toNat = (granOf s.msys pa).table) :
    bindGranule p pa tid s = (s, pkWord s pa (bindStatus s p pa tid).1) := if_pos h

/-- Any other binding answers the word of what it leaves (R309). -/
theorem bindGranule_bound (h0 : (bindStatus s p pa tid).1 = 0) (ht : BitVec.ofNat 16 tid.toNat ≠ (granOf s.msys pa).table) :
    bindGranule p pa tid s = (boundState p pa tid s, pkWord (boundState p pa tid s) pa 0) :=
  if_neg (not_or.mpr ⟨not_not_intro h0, ht⟩)

end

/-! A capture and its release change partitions' registers alone (R304). -/

@[simp] theorem captureFor_msys (p : Nat) (id : BitVec 16) (found : Option XTable) (s : State) :
    (captureFor p id found s).msys = s.msys := by cases found <;> rfl
@[simp] theorem captureFor_fibres (p : Nat) (id : BitVec 16) (found : Option XTable) (s : State) :
    (captureFor p id found s).fibres = s.fibres := by cases found <;> rfl
@[simp] theorem captureFor_cores (p : Nat) (id : BitVec 16) (found : Option XTable) (s : State) :
    (captureFor p id found s).cores = s.cores := by cases found <;> rfl
@[simp] theorem releaseCapture_fibres (p : Nat) (id : BitVec 16) (s : State) : (releaseCapture p id s).fibres = s.fibres := by
  unfold releaseCapture
  split <;> rfl
@[simp] theorem releaseCapture_cores (p : Nat) (id : BitVec 16) (s : State) : (releaseCapture p id s).cores = s.cores := by
  unfold releaseCapture
  split <;> rfl

/-- A granule's record is no byte of a home. -/
theorem homeByte_setGran (ms : MemSys) (pa : Nat) (g : Granule) (a : Nat) : homeByte (setGran ms pa g) a = homeByte ms a := by
  have hh : (setGran ms pa g).home = ms.home := by
    unfold setGran
    split <;> rfl
  rw [homeByte, hh, stackByte_setGran, homeByte]

section
variable (s : State) (p pa : Nat) (tid : Word)

/-- A binding writes one granule's record, and nothing else of memory (R309). -/
@[simp] theorem boundState_msys : (boundState p pa tid s).msys =
    setGran s.msys pa ((granOf s.msys pa).boundTo (BitVec.ofNat 16 tid.toNat)) := by
  unfold boundState
  dsimp only
  split
  · rw [captureFor_msys]
  · rw [releaseCapture_msys, captureFor_msys]
@[simp] theorem boundState_fibres : (boundState p pa tid s).fibres = s.fibres := by
  unfold boundState
  dsimp only
  split
  · rw [captureFor_fibres]
  · rw [releaseCapture_fibres, captureFor_fibres]
@[simp] theorem boundState_cores : (boundState p pa tid s).cores = s.cores := by
  unfold boundState
  dsimp only
  split
  · rw [captureFor_cores]
  · rw [releaseCapture_cores, captureFor_cores]

/-- The record of an address after a binding: its granule's is the new one (R302, R309). -/
theorem granOf_boundState (a : Nat) : granOf (boundState p pa tid s).msys a =
    if a / 4096 = pa / 4096 then (granOf s.msys pa).boundTo (BitVec.ofNat 16 tid.toNat) else granOf s.msys a := by
  rw [boundState_msys, granOf_setGran]

/-- A binding changes no byte. -/
theorem boundState_memory : SameMemory s (boundState p pa tid s) := by
  refine ⟨fun a => ?_, fun c a => ?_⟩
  · rw [boundState_msys, homeByte_setGran]
  · simp only [scrByte, coreOf, boundState_cores]

variable {s p pa tid}

/-- Partitions' registers stand apart from memory. -/
theorem partn_ofMsys (s : State) (m : MemSys) (p : Nat) : partn { s with msys := m } p = partn s p := rfl

/-- The table of a granule that was bound to none is captured, and nothing is released (R304). -/
theorem captured_boundState {t : XTable} (hp : p < 8) (hf : (bindStatus s p pa tid).2 = some t)
    (ht : (granOf s.msys pa).table = 0) :
    Tab.get (partn (boundState p pa tid s) p).captured (BitVec.ofNat 16 tid.toNat).toNat = some t := by
  have hb : boundState p pa tid s = { updPart s p fun P =>
        { P with captured := Tab.set P.captured (BitVec.ofNat 16 tid.toNat).toNat t } with
      msys := setGran s.msys pa ((granOf s.msys pa).boundTo (BitVec.ofNat 16 tid.toNat)) } := by
    unfold boundState
    rw [hf, if_pos ht]
    rfl
  rw [hb, partn_ofMsys, partn_updPart, if_pos ⟨rfl, hp⟩, Tab.get_set, if_pos rfl]

end

/-! ## The issue of `pkstat` -/

/-- What precedes an access's events changes no byte that a binding reads, nor its poison (R403). -/
theorem Prep.bindPoison {s u : State} (P : Prep s u) (p : Nat) (tid : Word) :
    Machine.bindPoison u p tid = Machine.bindPoison s p tid := by
  obtain ⟨k, l, m, h, g, rfl⟩ := P.form
  rfl

/-- What an operation of a fibre is performed from. -/
theorem Prep.reached (f : Fibre) (o : DevOp) (fills : List TlbEntry) (s : State) : Prep s (reaching f o fills s) :=
  (Prep.cached f fills s).trans (Prep.crossedTo _ f _)

section
variable {s : State} {f : Fibre} {fills : List TlbEntry} {pa : Nat} {tid : Word} {dest : Nat}

/-- A binding that meets no poison is performed at its issue (R309). -/
theorem performOp_pkbind (q : Quiet s f) (h : bindPoison s (partOfCore s f.id.core) tid = none) :
    let r := bindGranule (partOfCore s f.id.core) pa tid (reaching f (.pkbind pa tid dest) fills s)
    performOp f.id (.pkbind pa tid dest) (cached f fills s) = ⟨r.1, [.s dest r.2], true⟩ := by
  have P := Prep.reached f (.pkbind pa tid dest) fills s
  obtain ⟨hpart, -⟩ := P.context f.id.core f
  have hb := (P.bindPoison (partOfCore s f.id.core) tid).trans h
  rw [performOp_own q fills _ (portRefuses_none _ f (.pkbind pa tid dest) rfl fun _ => nofun)]
  change performFor f.id f (.pkbind pa tid dest) (cached f fills s) (reaching f (.pkbind pa tid dest) fills s) = _
  simp only [performFor, hpart, hb]

end

section
variable {s : State} {f : Fibre} {accs : List LaneAcc} {fills : List TlbEntry}

/-- `pkstat.line` leaves the state of its line and granule outstanding (R309). -/
theorem pkstatLine_next {x : OpDA} (q : Quiet s f) (ha : scaBad x.a = false) (hm : guardMask f x.h ≠ 0)
    (hk : combine [(0, f.sreg x.a.num.toNat, pkChecks s f false (f.sreg x.a.num.toNat))] = .ok accs fills) :
    let pa := (accs.head?.map LaneAcc.pa).getD 0
    ∃ t, exec (.pkstatLine x) s = .next t ∧ Owes s t f (f.past 8) ⟨f.seq, [.s x.d.toNat],
      some [.s x.d.toNat (pkWord s pa (if (granOf s.msys pa).poisoned then 3 else 0))], 0, none, false⟩ := by
  rw [exec_pkstatLine, execPkstatLine]
  apply owes_next q
  case hc => rfl
  case ho => exact ha
  case hal => rfl
  case hm => exact hm
  case hmk => exact List.cons_ne_nil _ _
  case hn => rfl
  case how => simp only [Plan.uni, readSca, hk, afterChecks]

/-- `pkstat.bind` retires with its binding performed and its word outstanding (R309). -/
theorem pkstatBind_next {x : OpDAB} (q : Quiet s f) (ha : scaBad x.a = false) (hb : scaBad x.b = false)
    (hm : guardMask f x.h ≠ 0)
    (hk : combine [(0, f.sreg x.a.num.toNat, pkChecks s f true (f.sreg x.a.num.toNat))] = .ok accs fills)
    (hp : bindPoison s (partOfCore s f.id.core) (f.sreg x.b.num.toNat) = none) :
    let pa := (accs.head?.map LaneAcc.pa).getD 0
    let r := bindGranule (partOfCore s f.id.core) pa (f.sreg x.b.num.toNat)
      (reaching f (.pkbind pa (f.sreg x.b.num.toNat) x.d.toNat) fills s)
    exec (.pkstatBind x) s = .next (afterOp f (f.past 8) [.s x.d.toNat] [.s x.d.toNat] [.s x.d.toNat r.2] none r.1) := by
  rw [exec_pkstatBind, execPkstatBind]
  apply op_done q (performOp_pkbind q hp) (.inl rfl)
  case hc => rfl
  case ho => simp [ha, hb]
  case hal => rfl
  case hm => exact hm
  case how => simp only [Plan.uni, readSca, hk, afterChecks]; rfl
  case hn => rfl
  case hD => rfl
  case hb => rfl

end

/-- Settles O38: both forms are words of variable latency, a binding performed at its issue; a binding either changes nothing or
leaves `boundState`, whose memory, fibres and captures the lemmas above give. -/
theorem packedLines : Obligations.PackedLines := by
  unfold Obligations.PackedLines
  refine ⟨fun x s f accs fills q ha hm hk => pkstatLine_next q ha hm hk,
    fun x s f accs fills q ha hb hm hk hp => pkstatBind_next q ha hb hm hk hp, fun p pa tid s hp => ?_⟩
  intro id g r
  refine ⟨fun hw => by rw [bindStatus_reserved hw], fun hw hid => by rw [bindStatus_noTable hw hid],
    fun hw ht h0 hd => by rw [bindStatus_noDirectory hw ht h0 hd], fun hr => bindGranule_idle (.inl hr),
    fun h0 hid => ?own, fun h0 hid => ?other⟩
  case own => rw [show r = _ from bindGranule_idle (.inr hid), h0]
  case other =>
    rw [show r = _ from bindGranule_bound h0 hid]
    have hg := granOf_boundState s p pa tid
    have hown := (hg pa).trans (if_pos rfl)
    exact ⟨rfl, by rw [hown]; rfl, fun i hi => by rw [hown]; exact boundTo_state g id hi, fun a ha => (hg a).trans (if_neg ha),
      boundState_memory s p pa tid, boundState_fibres s p pa tid, fun t ht h => captured_boundState hp ht h⟩

end Sys2Proof.Machine
end

section
/-! PROOFS. R318, R325 to R329, R332 to R336: matrix commands. -/

namespace Sys2Proof.Machine

theorem exec_mma (x : OpMma) (s : State) : exec (.mma x) s = execMma x s := rfl
theorem exec_mmac (x : OpMmac) (s : State) : exec (.mmac x) s = execMmac x s := rfl
theorem exec_mmap (x : OpMmap) (s : State) : exec (.mmap x) s = execMmap x s := rfl
theorem exec_mmas (x : OpMmas) (s : State) : exec (.mmas x) s = execMmas x s := rfl

/-! ## What an acceptance leaves (R326, R329) -/

/-- The copy of its fibre that a command waits for once accepted: one that has landed is waited for no more (R329). -/
def awaitedCopy (s : State) (f : Fibre) (c : MatCmd) : Option Nat :=
  c.waits.bind fun k =>
    if (coreOf s f.id.core).copies.any fun y => y.id == k && y.fibre == f.id && !y.landed then some k else none

/-- A command joins its core's queue under the core's next number (log 45). -/
def joinQueue (f : Fibre) (c : MatCmd) (waits : Option Nat) (rows : Option (List (List Byte))) (s : State) : State :=
  setCore s f.id.core { coreOf s f.id.core with
    mat := (coreOf s f.id.core).mat ++ [{ c with id := (coreOf s f.id.core).nextId, waits := waits, arows := rows }]
    nextId := (coreOf s f.id.core).nextId + 1 }

section
variable {s : State} {f : Fibre} {c : MatCmd} {b : Block}

/-- A command without a copy waits for none. -/
theorem awaitedCopy_unbound (h : c.waits = none) : awaitedCopy s f c = none := by rw [awaitedCopy, h, Option.bind_none]

/-- A command bound to a copy that is under way waits for it. -/
theorem awaitedCopy_underWay {k : Nat} (hw : c.waits = some k)
    (h : ∃ y ∈ (coreOf s f.id.core).copies, y.id = k ∧ y.fibre = f.id ∧ y.landed = false) : awaitedCopy s f c = some k := by
  obtain ⟨y, hy, hid, hfib, hland⟩ := h
  rw [awaitedCopy, hw, Option.bind_some, if_pos]
  exact List.any_eq_true.mpr ⟨y, hy, by simp [hid, hfib, hland]⟩

/-- A command whose copy has landed waits for none. -/
theorem awaitedCopy_landed {k : Nat} (hw : c.waits = some k)
    (h : ∀ y ∈ (coreOf s f.id.core).copies, y.id = k → y.fibre = f.id → y.landed = true) : awaitedCopy s f c = none := by
  rw [awaitedCopy, hw, Option.bind_some, if_neg]
  simpa using h

/-- The cases of an acceptance: discarded, halted for a poisoned row, or joined to the queue (R262, R329, R403). -/
theorem acceptMat_eq (hb : blockOf s f = some b) : acceptMat f c s =
    if c.waits = some 0 then s
    else if (awaitedCopy s f c).isNone && rowsPoison s b c then
      haltContext (partOfCore s b.core) (asidOf s f) .poison ⟨.matrix, b.core, 0, 0, b.launch, true⟩ s
    else joinQueue f c (awaitedCopy s f c) (if (awaitedCopy s f c).isSome then none else some (gatherRows s b c)) s := by
  unfold acceptMat awaitedCopy joinQueue
  rw [hb]
  cases c.waits <;> rfl

/-- A command whose copy was abandoned is discarded (R262). -/
theorem acceptMat_discards (hb : blockOf s f = some b) (hw : c.waits = some 0) : acceptMat f c s = s := by
  rw [acceptMat_eq hb, if_pos hw]

/-- A command that waits for its copy joins the queue without its rows (R329). -/
theorem acceptMat_waits {k : Nat} (hb : blockOf s f = some b) (h0 : c.waits ≠ some 0) (ha : awaitedCopy s f c = some k) :
    acceptMat f c s = joinQueue f c (some k) none s := by
  rw [acceptMat_eq hb, if_neg h0, ha]
  rfl

/-- Any other command joins the queue with its rows gathered (R326, R328). -/
theorem acceptMat_gathers (hb : blockOf s f = some b) (h0 : c.waits ≠ some 0) (ha : awaitedCopy s f c = none)
    (hp : rowsPoison s b c = false) : acceptMat f c s = joinQueue f c none (some (gatherRows s b c)) s := by
  rw [acceptMat_eq hb, if_neg h0, ha, hp]
  rfl

end

/-! ## The issue of a command (R318, R325, R335) -/

/-- The command that the port is offered, its register operands captured (R318). -/
def offeredCommand (form : MatForm) (d ctile : BitVec 4) (cz : Bool) (a b c : Opnd) (sd : Option Opnd) (s : State) (f : Fibre) :
    MatCmd :=
  { id := 0, form := form, d := d.toNat, c := ctile.toNat, cz := cz, fibre := f.id, launch := f.launch, stage := f.stage
    block := f.block, rows := rowIndices s f (MatForm.size form) a c, bfrag := runBytes f b (MatForm.bRegs form)
    scales := (sd.map fun o => runBytes f o 2).getD [], arows := none, waits := f.follow, redo := none }

section
variable {i : Instr} {h : Hdr} {form : MatForm} {d ctile : BitVec 4} {cz : Bool} {a b c : Opnd} {sd : Option Opnd}
  {s : State} {f : Fibre}

/-- Tiles, row registers and runs that check 6 accepts (R157, R335). -/
theorem matPlan_operand (hd : d.toNat < accTiles s f) (hct : cz = false → ctile.toNat < accTiles s f) (ha : a.cls = false)
    (hav : vecBad s f false a = false) (hc : MatForm.size form = 64 → c.cls = false ∧ vecBad s f false c = false)
    (hb : runBad f b (MatForm.bRegs form) (MatForm.bRegs form) = false) (hsd : ∀ o, sd = some o → runBad f o 2 2 = false) :
    (matPlan i form d ctile cz a b c sd s f).operand = false := by
  have hscales : (sd.any fun o => runBad f o 2 2) = false := by
    cases sd with
    | none => rfl
    | some o => exact hsd o rfl
  have htall : (MatForm.size form == 64 && (c.cls || vecBad s f false c)) = false := by simpa using hc
  have htile : (!cz && decide (accTiles s f ≤ ctile.toNat)) = false := by simpa using hct
  simp [matPlan, hd, ha, hav, hb, htile, htall, hscales]

/-- A plan whose rows are in range offers its command to the port (R335). -/
theorem matPlan_own (hr : rowFault s f form (rowIndices s f (MatForm.size form) a c) = none) (m : BitVec 32) :
    (matPlan i form d ctile cz a b c sd s f).own m = .op (.mat (offeredCommand form d ctile cz a b c sd s f)) [] false false [] := by
  simp only [matPlan, Plan.uni, hr]
  cases sd <;> rfl

/-- What a quiet fibre's command does when the port accepts it. -/
theorem performOp_mat {cmd : MatCmd} (q : Quiet s f) (hp : portRefuses s f (.mat cmd) = false) :
    performOp f.id (.mat cmd) s = ⟨acceptMat f cmd s, [], true⟩ := performOp_own q [] (.mat cmd) hp

variable (q : Quiet s f) (hx : exec i s = issueWord i h (matPlan i form d ctile cz a b c sd) s)
  (ho : (matPlan i form d ctile cz a b c sd s f).operand = false) (hm : guardMask f h ≠ 0)
  (hr : rowFault s f form (rowIndices s f (MatForm.size form) a c) = none)
include q hx ho hm hr

/-- A command that the port refuses waits, and changes nothing (R152, R327). -/
theorem matrix_waits (hp : portRefuses s f (.mat (offeredCommand form d ctile cz a b c sd s f)) = true) : exec i s = .next s :=
  hx.trans (op_wait q (fills := []) (performOp_refused _ q.own hp) rfl ho rfl hm (matPlan_own hr _))

/-- A command that the port accepts retires (R325). -/
theorem matrix_accepted (hn : lenOf i = 16) (hp : portRefuses s f (.mat (offeredCommand form d ctile cz a b c sd s f)) = false) :
    exec i s = .next (afterOp f (f.past 16) [] [] [] none (acceptMat f (offeredCommand form d ctile cz a b c sd s f) s)) :=
  hx.trans (op_done q (fills := []) (performOp_mat q hp) (.inl rfl) rfl ho rfl hm (matPlan_own hr _) 16 hn rfl rfl)

end

/-- Settles O39: an acceptance discards, waits or gathers after the copy that it awaits; each form of command is one plan, whose
operation the port refuses or accepts. -/
theorem matrixCommands : Obligations.MatrixCommands := by
  unfold Obligations.MatrixCommands
  refine ⟨fun f c s b hb => ⟨acceptMat_discards hb, fun k hk hw hy => ?underWay, fun k hk hw hy => ?landed, fun hw => ?unbound⟩, ?issue⟩
  case underWay => exact acceptMat_waits hb (by simpa [hw] using hk) (awaitedCopy_underWay hw hy)
  case landed => exact acceptMat_gathers hb (by simpa [hw] using hk) (awaitedCopy_landed hw hy)
  case unbound => exact acceptMat_gathers hb (by simp [hw]) (awaitedCopy_unbound hw)
  case issue =>
    intro accept s f q
    have hform : ∀ {i h form d ctile cz a b c sd}, exec i s = issueWord i h (matPlan i form d ctile cz a b c sd) s → lenOf i = 16 →
        accept i h form d ctile cz a b c sd s f := fun hx hn hd hct ha hav hc hb hsd hm hr =>
      have ho := matPlan_operand hd hct ha hav hc hb hsd
      ⟨matrix_waits q hx ho hm hr, matrix_accepted q hx ho hm hr hn⟩
    exact ⟨fun x => hform (exec_mma x s) rfl, fun x => hform (exec_mmac x s) rfl, fun x => hform (exec_mmap x s) rfl,
      fun x => hform (exec_mmas x s) rfl⟩

end Sys2Proof.Machine
end

section
/-! PROOFS. R399, R405, R430: the trap that a fibre takes where nothing holds it back. -/

namespace Sys2Proof.Machine

section
variable {s : State} {f : Fibre} {r : Trap} {frozen : FStatus} {ret : Option Resume}

/-- A trap at level 2 halts the context with DOUBLETRAP (R399, R405). -/
theorem enterTrap_double (own : fibre? s f.id = some f) (hl : f.regs.level = 2) :
    enterTrap f.id r frozen ret s = haltByFibre f .doubletrap 0 s := by
  unfold enterTrap
  rw [own]
  exact if_pos hl

/-- A trap with no handler to go to halts the context with NOHANDLER (R399, R405). -/
theorem enterTrap_noHandler (own : fibre? s f.id = some f) (hl : f.regs.level ≠ 2) (h0 : (trapTarget s f r.sys).1 = 0) :
    enterTrap f.id r frozen ret s = haltByFibre f .nohandler 0 s := by
  unfold enterTrap
  rw [own]
  exact (if_neg hl).trans (if_pos h0)

end

/-- A trap goes to the user handler where it is not the system's, is not taken at level 1, and a handler is declared (R399). -/
theorem trapTarget_user (s : State) (f : Fibre) (sys : Bool) :
    (trapTarget s f sys).2 = (!sys && f.regs.level != 1 && handlerOf s f != 0) := by
  unfold trapTarget
  split
  case isTrue hsys =>
    simp only [Bool.or_eq_true, decide_eq_true_eq] at hsys
    rcases hsys with (h | h) | h <;> simp [h]
  case isFalse huser =>
    simp only [Bool.or_eq_true, decide_eq_true_eq, not_or] at huser
    obtain ⟨⟨hs, hl⟩, h0⟩ := huser
    simpa [hs, hl] using h0

/-- Settles O25: a quiet fibre enters its trap at once, which at level 2 or without a handler is a halt. -/
theorem trapEntry : Obligations.TrapEntry := by
  unfold Obligations.TrapEntry
  intro r s f q
  rw [raiseTrap_quiet q]
  refine ⟨enterTrap_double q.own, fun hl target user ht => ⟨fun h0 => ?_, enterTrap_entered q.own hl ht⟩, trapTarget_user s f r.sys⟩
  exact enterTrap_noHandler q.own hl (by rw [ht, h0])

end Sys2Proof.Machine
end

section
/-! PROOFS. R381 to R386: the end of a quantum, its commit, and the updates that an HRU applies. -/

namespace Sys2Proof.Machine

theorem exec_quantumLimit (id : FibreId) (s : State) : exec (.quantumLimit id) s = execQuantumLimit id s := rfl
theorem exec_quantumCommit (l : Word) (s : State) : exec (.quantumCommit l) s = execQuantumCommit l s := rfl
theorem exec_hruUpdateApply (slice : Nat) (s : State) : exec (.hruUpdateApply slice) s = execHruUpdateApply slice s := rfl

@[simp] theorem nextQuantum_id (round clock : Nat) (f : Fibre) : (f.nextQuantum round clock).id = f.id := rfl

/-- With no update held there is none to apply first. -/
theorem drained_idle {s : State} (h : s.msys.hru = []) : drained s = s := if_pos h

/-! ## The length of a quantum (R381) -/

/-- A fibre that could issue ends its quantum once that is due, and not before. -/
theorem quantumLimit_eq {s : State} {f : Fibre} (own : fibre? s f.id = some f) (hs : f.status.issues = true)
    (hw : f.waitTrap = none) (ha : awaitsFlags f = false) :
    exec (.quantumLimit f.id) s = .next (if quantumDue s f then endQuantum f.id s else s) := by
  rw [exec_quantumLimit, execQuantumLimit]
  simp [own, hs, hw, ha]

/-! ## The operations of a quantum (R383, R384) -/

/-- A fibre whose commit has made one operation take effect: its lines are noted. -/
def Fibre.committed (h : Held) (ws : List RegWrite) (early : Bool) (f : Fibre) : Fibre :=
  { f.finish h ws early with qheld := h.op.keys.foldl addNew (f.finish h ws early).qheld }

section
variable {s : State} {id : FibreId} {f : Fibre} {h : Held} {rest : List Held} {n : Nat}

/-- With nothing left to perform a commit is at its end. -/
theorem commitOps_finished (own : fibre? s id = some f) (hu : f.unfin = []) : commitOps id (n + 1) s = (s, .finished) := by
  rw [commitOps, own]
  simp only [hu]

/-- The oldest operation is performed at its place, or waits and stops the commit. -/
theorem commitOps_performs (own : fibre? s id = some f) (hu : f.unfin = h :: rest) (he : h.early = false) :
    commitOps id (n + 1) s =
      if (performOp id h.op s).ok then
        commitOps id n (updFibre (performOp id h.op s).s id (Fibre.committed h (performOp id h.op s).writes false))
      else ((performOp id h.op s).s, .blocked) := by
  rw [commitOps, own]
  simp only [hu, he]
  rfl

/-- A load with an early value waits for a line that a commit holds, is stale, or stands. -/
theorem commitOps_early (own : fibre? s id = some f) (hu : f.unfin = h :: rest) (he : h.early = true) (hh : s.msys.hru = []) :
    commitOps id (n + 1) s =
      if commitHeld s id h.op.accs then (s, .blocked)
      else if h.recheck && !stands s f h then (s, .stale h)
      else commitOps id n (updFibre s id (Fibre.committed h [] true)) := by
  rw [commitOps, own]
  simp only [hu, he, drained_idle hh]
  rfl

end

/-! ## The commit of a quantum (R383) -/

/-- Whose turn it is, once the round's blocks are on their cores: a fibre in COMMIT that no trap, flag or level of the ladder
holds back commits its quantum (R382). -/
theorem quantumCommit_eq {s : State} {L : Launch} {f : Fibre} (hL : launch? s L.id = some L)
    (ho : (firstDesc L).ordered = true) (hr : advanceRound L s = s) (hb : roundLacksBlock s L = false)
    (hn : nextCommit s L = some f) :
    exec (.quantumCommit L.id) s = .next (
      if f.status = .commit ∧ f.waitTrap = none ∧ awaitsFlags f = false ∧ ladderDue f = false then
        settleAdmissions L.id s (finishFlush f (commitQuantum L f s))
      else s) := by
  rw [exec_quantumCommit, execQuantumCommit]
  simp only [hL, ho, hr, hb, hn]
  rfl

section
variable {s : State} {L : Launch} {f : Fibre} (own : fibre? s f.id = some f) (hh : s.msys.hru = [])
include own hh

/-- After a conflict a quantum whose commit has not begun is discarded. -/
theorem commitQuantum_discards (hc : f.conflict = true) (hm : f.committing = false) :
    commitQuantum L f s = discardQuantum f.id true s := by
  simp only [commitQuantum, drained_idle hh, own, hc, hm]
  rfl

/-- A quantum with nothing left to perform has committed. -/
theorem commitQuantum_finishes (hc : f.conflict = false) (hu : f.unfin = []) :
    commitQuantum L f s =
      checkpointRetires f.id (noteCommit f (updFibre s f.id (Fibre.nextQuantum L.round s.clock))) := by
  simp [commitQuantum, drained_idle hh, own, hc, hu, commitOps_finished own hu]

/-- After a conflict with a commit that has begun, what is left of the quantum is executed again (log 51). -/
theorem commitQuantum_redoes {h : Held} {rest : List Held} (hu : f.unfin = h :: rest) (hc : f.conflict = true)
    (hm : f.committing = true) : commitQuantum L f s = redoRest f.id h true s := by
  simp [commitQuantum, drained_idle hh, own, hc, hm, hu]

/-- From a load whose early value no longer stands on, the quantum is executed again, where its commit may begin (log 51). -/
theorem commitQuantum_stale {h : Held} {rest : List Held} (hu : f.unfin = h :: rest) (hc : f.conflict = false)
    (he : h.early = true) (hk : h.recheck = true) (hs : stands s f h = false) (hl : commitHeld s f.id h.op.accs = false)
    (hb : mayBegin s f = true) (hq : f.committing = false → quantumHeld s f = false) :
    commitQuantum L f s = noteCommit f (redoRest f.id h false s) := by
  have hops : commitOps f.id (f.unfin.length + 1) s = (s, .stale h) := by
    rw [commitOps_early own hu he hh]
    simp [hl, hk, hs]
  have hbegin : (!f.committing && quantumHeld s f) = false := by
    cases hm : f.committing
    · exact hq hm
    · rfl
  simp [commitQuantum, drained_idle hh, own, hc, hops, hb, hbegin]

end

/-! ## What is executed again -/

/-- Grants change fibres alone (R121). -/
theorem grantPending_fibres (core quad : Nat) : ∀ (n : Nat) (s : State), ∃ l, grantPending core quad n s = { s with fibres := l }
  | 0, s => ⟨s.fibres, rfl⟩
  | n + 1, s => by
    unfold grantPending
    split
    · exact ⟨s.fibres, rfl⟩
    · dsimp only
      split
      · exact ⟨s.fibres, rfl⟩
      · exact grantPending_fibres core quad n _

@[simp] theorem regrant_msys (id : FibreId) (s : State) : (regrant id s).msys = s.msys := by
  obtain ⟨l, hl⟩ := grantPending_fibres id.core (id.pos / 16) 16 s
  rw [regrant, hl]
@[simp] theorem regrant_cores (id : FibreId) (s : State) : (regrant id s).cores = s.cores := by
  obtain ⟨l, hl⟩ := grantPending_fibres id.core (id.pos / 16) 16 s
  rw [regrant, hl]

/-- What is executed again gives up its claims and its updates, and leaves the rest of the memory system (R386). -/
@[simp] theorem redoRest_msys (id : FibreId) (h : Held) (conflict : Bool) (s : State) :
    (redoRest id h conflict s).msys = { s.msys with
      hru := s.msys.hru.filter fun e => e.fibre != id || e.committed
      claims := s.msys.claims.filter fun c => c.fibre != id } := by
  rw [redoRest, regrant_msys]
  rfl
@[simp] theorem redoRest_cores (id : FibreId) (h : Held) (conflict : Bool) (s : State) :
    (redoRest id h conflict s).cores = s.cores := by
  rw [redoRest, regrant_cores]
  rfl

/-- An update is held on exactly where it is another fibre's or has been committed. -/
theorem mem_redoRest_hru {id : FibreId} {h : Held} {conflict : Bool} {s : State} {e : HruEntry} :
    e ∈ (redoRest id h conflict s).msys.hru ↔ e ∈ s.msys.hru ∧ (e.fibre = id → e.committed = true) := by
  by_cases he : e.fibre = id
  · simp only [redoRest_msys, List.mem_filter, he, bne_self_eq_false, Bool.false_or, forall_const]
  · simp only [redoRest_msys, List.mem_filter, bne_iff_ne.mpr he, Bool.true_or, he, false_implies]

/-- No byte changes. -/
theorem redoRest_memory (id : FibreId) (h : Held) (conflict : Bool) (s : State) : SameMemory s (redoRest id h conflict s) := by
  refine ⟨fun a => ?_, fun c a => ?_⟩
  · rw [redoRest_msys]
    rfl
  · simp only [scrByte, coreOf, redoRest_cores]

/-! ## Updates of an HRU (R386) -/

/-- An update leaves its HRU as it is applied. -/
def withoutUpdate (e : HruEntry) (s : State) : State :=
  { s with msys := { s.msys with hru := s.msys.hru.filter (·.num != e.num) } }

/-- An update that meets no poison is one event at its home. -/
theorem applyUpdate_clean {e : HruEntry} {s : State} (h : partPoison (withoutUpdate e s) e.part = none) :
    applyUpdate e s =
      (updateLane e.fibre (partOfCore s e.core) e.asid e.op ⟨e.lane, 0, [e.part]⟩ e.val (withoutUpdate e s)).1 := by
  unfold withoutUpdate at h
  simp only [applyUpdate, h]
  rfl

/-- One that meets poison halts its context (R403). -/
theorem applyUpdate_poisoned {e : HruEntry} {s : State} {pa : Nat} (h : partPoison (withoutUpdate e s) e.part = some pa) :
    applyUpdate e s =
      haltContext (partOfCore s e.core) e.asid .poison ⟨.hru, e.slice, pa, 0, e.launch, true⟩ (withoutUpdate e s) := by
  unfold withoutUpdate at h
  simp only [applyUpdate, h]
  rfl

/-- An HRU with no committed update does nothing. -/
theorem hruUpdateApply_none {s : State} {slice : Nat} (h : nextUpdate s slice = none) : exec (.hruUpdateApply slice) s = .next s := by
  rw [exec_hruUpdateApply, execHruUpdateApply, h]

/-- One that is up applies the update of smallest key. -/
theorem hruUpdateApply_some {s : State} {slice : Nat} {e : HruEntry} (h : nextUpdate s slice = some e) :
    exec (.hruUpdateApply slice) s = .next (if agentDown s .slice slice then s else applyUpdate e s) := by
  rw [exec_hruUpdateApply, execHruUpdateApply, h]

/-- Settles O46: an event that is not due leaves the state; a commit at its turn has the outcome that `commitQuantum` gives for what is
left of the quantum; its operations go one by one; and an HRU applies its next update. -/
theorem quantaAndUpdates : Obligations.QuantaAndUpdates := by
  unfold Obligations.QuantaAndUpdates
  refine ⟨fun s f own hs hw ha => ⟨fun hd => ?ends, fun hd => ?goesOn⟩,
    fun s L f hL ho hr hb hn own hh => ⟨fun hno => ?notYet, fun hs hw ha hd => ⟨fun hc hm => ?discards, fun hc hu => ?finishes,
      fun h rest hu => ⟨fun hc hm => ?redoes, fun hc he hk hst hl hbg hq => ?stale⟩⟩⟩,
    fun s id h conflict => ⟨fun e he => (mem_redoRest_hru.mp he).2, fun e he hc => mem_redoRest_hru.mpr ⟨he, fun _ => hc⟩,
      redoRest_memory id h conflict s⟩,
    fun s id f h rest n own hu => ⟨fun he hok => ?performed, fun he hok => ?waits, fun he hh hl => ?lineHeld, fun he hh hl hst => ?stands⟩,
    fun s slice => ⟨hruUpdateApply_none, fun e hn => ⟨fun hdown => ?down, fun hup => ⟨fun hp => ?applied, fun pa hp => ?poisoned⟩⟩⟩⟩
  case ends =>
    rw [quantumLimit_eq own hs hw ha, if_pos hd]
    exact ⟨_, rfl, became_updFibre own _ fun _ => rfl⟩
  case goesOn => rw [quantumLimit_eq own hs hw ha, hd, if_neg Bool.false_ne_true]
  case notYet =>
    rw [quantumCommit_eq hL ho hr hb hn, if_neg]
    rintro ⟨hs, hw, ha, hd⟩
    simp [hs, hw, ha, hd] at hno
  case discards => rw [quantumCommit_eq hL ho hr hb hn, if_pos ⟨hs, hw, ha, hd⟩, commitQuantum_discards own hh hc hm]
  case finishes =>
    refine ⟨_, became_updFibre own (Fibre.nextQuantum L.round s.clock) (nextQuantum_id _ _), ?_⟩
    rw [quantumCommit_eq hL ho hr hb hn, if_pos ⟨hs, hw, ha, hd⟩, commitQuantum_finishes own hh hc hu]
  case redoes => rw [quantumCommit_eq hL ho hr hb hn, if_pos ⟨hs, hw, ha, hd⟩, commitQuantum_redoes own hh hu hc hm]
  case stale =>
    rw [quantumCommit_eq hL ho hr hb hn, if_pos ⟨hs, hw, ha, hd⟩, commitQuantum_stale own hh hu hc he hk hst hl hbg hq]
  case performed => exact (commitOps_performs own hu he).trans (if_pos hok)
  case waits => exact (commitOps_performs own hu he).trans (if_neg (ne_true_of_eq_false hok))
  case lineHeld => exact (commitOps_early own hu he hh).trans (if_pos hl)
  case stands =>
    have hstale : (h.recheck && !stands s f h) = false := by
      cases hk : h.recheck
      · rfl
      · simp [hst hk]
    rw [commitOps_early own hu he hh, hl, hstale]
    rfl
  case down => rw [hruUpdateApply_some hn, if_pos hdown]
  case applied => rw [hruUpdateApply_some hn, hup, if_neg Bool.false_ne_true, applyUpdate_clean hp]; rfl
  case poisoned => rw [hruUpdateApply_some hn, hup, if_neg Bool.false_ne_true, applyUpdate_poisoned hp]; rfl

end Sys2Proof.Machine
end
